-- ==== Sys2Proof/Word.lean ====
section
/-!
DEFINITION. Sys2Proof/Word.lean: the word types of the Castal 9 (R1, R98, R128).
-/
namespace Sys2Proof

/-- A byte of memory. -/
abbrev Byte := BitVec 8
/-- A 16-bit word. -/
abbrev W16 := BitVec 16
/-- A 32-bit word: a fetch lane, a tile container, a router field. -/
abbrev W32 := BitVec 32
/-- A 64-bit word: a scalar register, a K register. -/
abbrev W64 := BitVec 64
/-- A 256-bit word: a digest, a measurement register. -/
abbrev W256 := BitVec 256

end Sys2Proof
end

