-- ==== Sys2Proof/Syntax.lean ====
section
/-!
DEFINITION. Sys2Proof/Syntax.lean: the instructions and device steps of the Castal 9 (XC9-M1), one constructor of
`Instr` per row of spec/opcode_table.json, in the table's order, with the operand types they take.

Register numbers, tile numbers and the other unsigned fields are `Nat` (WellFormed bounds them by their field's
limits); signed immediates are `Int`. A device step (spec/95_what_each_step_holds.md) carries the unit it happens at
and what the outside world contributes to it (a register value written, an offer of a link partner, a sensor reading).
-/
namespace Sys2Proof

/-- The five engines of a core, chosen by a lane's tag (R13, R24). -/
inductive Engine where
  | c | v | m | y | f
  deriving DecidableEq, Repr

/-- The scopes of R34, in encoding order. -/
inductive Scope where
  | lane | core | quad | die | pkg | pod
  deriving DecidableEq, Repr

/-- The routing classes of R34, in encoding order. -/
inductive RClass where
  | ord | adp | rnd
  deriving DecidableEq, Repr

/-- The operations of `amo` and `ramo` (R42), in encoding order. -/
inductive AtomicOp where
  | add | and | or | xor | min | minn | max | maxn | swap
  deriving DecidableEq, Repr

/-- The kinds of `fence` (R42): 1 acquire, 2 release, 3 both. -/
inductive FenceKind where
  | acq | rel | ar
  deriving DecidableEq, Repr

/-- The five timelines (R42, R203), in encoding order. -/
inductive TimelineId where
  | tly | tlm | tlf | tln | tll
  deriving DecidableEq, Repr

/-- The rnd field of the V option word (R37): the latched mode or one of the five modes of R86. -/
inductive Rnd where
  | latched | rne | rtz | rup | rdn | rsto
  deriving DecidableEq, Repr

/-- The conditions of `vcmp` (R38), in encoding order. -/
inductive Cond where
  | eq | ne | lt | le | gt | ge | uno | ord
  deriving DecidableEq, Repr

/-- The operations of the reductions and scans (R38), in encoding order. -/
inductive RedOp where
  | add | min | max | and | or | xor
  deriving DecidableEq, Repr

/-- The locality hints of form YC (R40). -/
inductive Hint where
  | plain | stream | reuse
  deriving DecidableEq, Repr

/-- The widths of `ld` (R34), in encoding order. -/
inductive LdWidth where
  | n8 | n16 | n32 | d64 | i8 | i16 | i32
  deriving DecidableEq, Repr

/-- The widths of `st` (R36), in encoding order. -/
inductive StWidth where
  | n8 | n16 | n32 | d64
  deriving DecidableEq, Repr

/-- The widths of the F engine (R34, R41), in encoding order. -/
inductive FWidth where
  | n8 | n16 | n32 | n64
  deriving DecidableEq, Repr

/-- The directions of a tile operand (R33). -/
inductive Dir where
  | r | c | d
  deriving DecidableEq, Repr

/-- A tile operand field: the tile number and its direction (R33). -/
structure TOp where
  v   : Nat
  dir : Dir
  deriving DecidableEq, Repr

/-- The trip count of `loop` and `loopp` (R36, CL): an immediate or a scalar register. -/
inductive LoopCount where
  | imm (n : Nat)
  | reg (r : Nat)
  deriving DecidableEq, Repr

/-- The four continuation words of an inline shape record (R46), as they stand in the line. -/
structure Shape4 where
  w0 : Nat
  w1 : Nat
  w2 : Nat
  w3 : Nat
  deriving DecidableEq, Repr

/-- An access of the host processor (R179, R180, R435, R436): to a die's host-coherent window, to stack memory by
physical address, to host memory, or to a BAR0 register. What a read returns leaves the machine. -/
inductive HostAccess where
  | windowRead (d off len : Nat)
  | windowWrite (d off : Nat) (bytes : List Byte)
  | stackRead (d off len : Nat)
  | stackWrite (d off : Nat) (bytes : List Byte)
  | hostWrite (p addr : Nat) (bytes : List Byte)
  | barRead (d off : Nat)
  deriving DecidableEq, Repr

/-- An access through the debug port (R427): memory and K registers read, memory and the debug registers of R399
written, each allowed by one bit of KSDBG.MASK. -/
inductive DebugAccess where
  | readMemory (d off len : Nat)
  | writeMemory (d off : Nat) (bytes : List Byte)
  | writeDebug (d c k : Nat) (v : W64)
  | readK (d c k : Nat)
  | requestStop (d c : Nat)
  deriving DecidableEq, Repr

/-- What the two ends of a link bring to a training round (R352): the good lanes at each end, the lane rates each
offers (codes of LSTAT.RATE), and the lane map each proposes (a list of physical lanes in logical order). -/
structure LinkOffer where
  goodHere  : List Nat
  goodThere : List Nat
  rateHere  : Nat
  rateThere : Nat
  mapHere   : List Nat
  mapThere  : List Nat
  deriving DecidableEq, Repr

/-- The instructions and device steps, in the order of spec/opcode_table.json. Each docstring is what the step does
and the rule that gives it. -/
inductive Instr where
  /-- LINE_DELIVERY (R14). The control core delivers one fetch line whole, placing each engine lane in its queue, once every target queue has room and no meet, pending claim or range-checker limit holds it. -/
  | lineDelivery (d c : Nat)
  /-- RESULT_READY (R108). A multi-cycle C result (mul, div and their kin) is written and its destination stops being pending when its latency has elapsed. -/
  | resultReady (d c r : Nat)
  /-- LOAD_RETURN (R116). Data of a scalar load, ldp or callg slot read returns from memory and is written to its destination, poisoned if the line is marked. -/
  | loadReturn (d c n : Nat)
  /-- TOKEN_COMPLETION (R102). An asynchronous command completes or parks and the hardware writes its token with status and timeline number and clears its pending bit. -/
  | tokenCompletion (d c n : Nat)
  /-- ADD (R107). s[d] := s[a] + s[b] modulo 2^64. -/
  | add (d a b : Nat)
  /-- SUB (R107). s[d] := s[a] - s[b] modulo 2^64. -/
  | sub (d a b : Nat)
  /-- MUL (R107). s[d] := low 64 bits of s[a] × s[b]. -/
  | mul (d a b : Nat)
  /-- MULH (R107). s[d] := high 64 bits of the signed 128-bit product. -/
  | mulh (d a b : Nat)
  /-- MULHN (R107). s[d] := high 64 bits of the unsigned 128-bit product. -/
  | mulhn (d a b : Nat)
  /-- DIV (R107). s[d] := signed quotient rounded toward zero, all ones on division by zero. -/
  | div (d a b : Nat)
  /-- DIVN (R107). s[d] := unsigned quotient, all ones on division by zero. -/
  | divn (d a b : Nat)
  /-- REM (R107). s[d] := signed remainder, s[a] on division by zero. -/
  | rem (d a b : Nat)
  /-- REMN (R107). s[d] := unsigned remainder, s[a] on division by zero. -/
  | remn (d a b : Nat)
  /-- AND (R107). s[d] := s[a] and s[b]. -/
  | and (d a b : Nat)
  /-- OR (R107). s[d] := s[a] or s[b]. -/
  | or (d a b : Nat)
  /-- XOR (R107). s[d] := s[a] xor s[b]. -/
  | xor (d a b : Nat)
  /-- SLL (R107). s[d] := s[a] shifted left by s[b][5:0]. -/
  | sll (d a b : Nat)
  /-- SRL (R107). s[d] := s[a] shifted right logically by s[b][5:0]. -/
  | srl (d a b : Nat)
  /-- SRA (R107). s[d] := s[a] shifted right arithmetically by s[b][5:0]. -/
  | sra (d a b : Nat)
  /-- SLT (R107). s[d] := 1 if s[a] < s[b] signed, else 0. -/
  | slt (d a b : Nat)
  /-- SLTN (R107). s[d] := 1 if s[a] < s[b] unsigned, else 0. -/
  | sltn (d a b : Nat)
  /-- MIN (R107). s[d] := the signed smaller of s[a] and s[b]. -/
  | min (d a b : Nat)
  /-- MINN (R107). s[d] := the unsigned smaller of s[a] and s[b]. -/
  | minn (d a b : Nat)
  /-- MAX (R107). s[d] := the signed larger of s[a] and s[b]. -/
  | max (d a b : Nat)
  /-- MAXN (R107). s[d] := the unsigned larger of s[a] and s[b]. -/
  | maxn (d a b : Nat)
  /-- CLZ (R107). s[d] := number of leading zeros of s[a], 64 for zero. -/
  | clz (d a : Nat)
  /-- CTZ (R107). s[d] := number of trailing zeros of s[a], 64 for zero. -/
  | ctz (d a : Nat)
  /-- POPC (R107). s[d] := number of set bits of s[a]. -/
  | popc (d a : Nat)
  /-- ADDI (R109). s[d] := s[a] + sext(imm13). -/
  | addi (d a : Nat) (imm : Int)
  /-- ANDI (R109). s[d] := s[a] and sext(imm13). -/
  | andi (d a : Nat) (imm : Int)
  /-- ORI (R109). s[d] := s[a] or sext(imm13). -/
  | ori (d a : Nat) (imm : Int)
  /-- XORI (R109). s[d] := s[a] xor sext(imm13). -/
  | xori (d a : Nat) (imm : Int)
  /-- SLLI (R109). s[d] := s[a] shifted left by an immediate 0 to 63. -/
  | slli (d a sh : Nat)
  /-- SRLI (R109). s[d] := s[a] shifted right logically by an immediate 0 to 63. -/
  | srli (d a sh : Nat)
  /-- SRAI (R109). s[d] := s[a] shifted right arithmetically by an immediate 0 to 63. -/
  | srai (d a sh : Nat)
  /-- SLTI (R109). s[d] := 1 if s[a] < sext(imm13) signed, else 0. -/
  | slti (d a : Nat) (imm : Int)
  /-- SLTNI (R109). s[d] := 1 if s[a] < sext(imm13) unsigned, else 0. -/
  | sltni (d a : Nat) (imm : Int)
  /-- EXT (R110). s[d] := the sign-extended bit field of s[a] at pos, cut at bit 63. -/
  | ext (d a pos len : Nat)
  /-- EXTN (R110). s[d] := the zero-extended bit field of s[a] at pos, cut at bit 63. -/
  | extn (d a pos len : Nat)
  /-- INS (R110). Inserts the low bits of s[a] into the field of s[d] at pos, keeping its other bits. -/
  | ins (d a pos len : Nat)
  /-- BEQ (R112). Branches to linePC + sext(off13) × 32 when s[a] = s[b]. -/
  | beq (a b : Nat) (off : Int)
  /-- BNE (R112). Branches when s[a] ≠ s[b]. -/
  | bne (a b : Nat) (off : Int)
  /-- BLT (R112). Branches when s[a] < s[b] signed. -/
  | blt (a b : Nat) (off : Int)
  /-- BLTN (R112). Branches when s[a] < s[b] unsigned. -/
  | bltn (a b : Nat) (off : Int)
  /-- BGE (R112). Branches when s[a] ≥ s[b] signed. -/
  | bge (a b : Nat) (off : Int)
  /-- BGEN (R112). Branches when s[a] ≥ s[b] unsigned. -/
  | bgen (a b : Nat) (off : Int)
  /-- JAL (R113). Writes linePC + 32 to s[d] and jumps to linePC + sext(off19) × 32. -/
  | jal (d : Nat) (off : Int)
  /-- CALLG (R113). Reads GOT slot off19 as the target, writes the link to s[d] and jumps. -/
  | callg (d slot : Nat)
  /-- JALR (R113). Jumps to s[a] + sext(imm13) × 32 and writes the link to s[d]. -/
  | jalr (d a : Nat) (imm : Int)
  /-- LOOP (R121). Starts a zero-overhead hardware loop on counter lcK over the body up to the end label, or skips the body for a zero count. -/
  | loop (k : Nat) (cnt : LoopCount) (fin : Nat)
  /-- LOOPP (R121). Starts a software-pipelined loop of trip + stages − 1 iterations that drives the stage predicates. -/
  | loopp (k stages : Nat) (cnt : LoopCount) (fin : Nat)
  /-- LDP (R117). Reads 8 bytes from a parameter window, zero-filling bytes beyond its bound and faulting on an unbound or stale window. -/
  | ldp (d win idx : Nat)
  /-- AMO (R207). Performs an indivisible read-modify-write of 8 bytes at s[a] with s[b] and returns the old value. -/
  | amo (op : AtomicOp) (sc : Scope) (d a b : Nat)
  /-- AMOCAS (R208). Compares 8 bytes at s[a] with s[d], stores s[b] if equal, and returns the old value. -/
  | amocas (sc : Scope) (d a b : Nat)
  /-- FENCE (R206). Orders the core's own accesses as an acquire, a release or both at the named scope. -/
  | fence (kind : FenceKind) (sc : Scope)
  /-- BAR (R211). Arrives at a quad, die or package barrier and stalls until every participant arrives. -/
  | bar (sc : Scope)
  /-- TLWAIT (R205). Stalls until the named timeline counter reaches s[a] and acquires the effects of those commands. -/
  | tlwait (tl : TimelineId) (a : Nat)
  /-- TLREAD (R205). Writes the named timeline counter to s[d] without stalling. -/
  | tlread (tl : TimelineId) (d : Nat)
  /-- TOKW (R103). Waits until some register named in the mask is not pending and returns the lowest such number, or 64 for an empty mask. -/
  | tokw (d a : Nat)
  /-- TOKT (R103). Returns the bits of the mask whose registers are pending now. -/
  | tokt (d a : Nat)
  /-- PROBE (R178). Looks up a 4 KiB block in the context's tag share, returning its slot on a hit or queueing a fill and branching on a miss. -/
  | probe (a b : Nat) (off : Int)
  /-- LAUNCH (R379). Reads a child packet and, quota, depth and pool permitting, accepts it into the pending-launch pool with the next tll number. -/
  | launch (d a : Nat)
  /-- WAITCH (R380). Stalls until child n has ended and returns its end status, acquiring its writes. -/
  | waitch (d a : Nat)
  /-- TASKST (R288). Optionally kicks the context's waiting tasks to their deadline and returns parked, waiting and free task-table counts. -/
  | taskst (d a : Nat)
  /-- MFK (R265). Reads a K register into s[d], subject to its privilege level. -/
  | mfk (d k : Nat)
  /-- MTK (R265). Writes s[a] to a K register, subject to its level, ignoring read-only ones and waiting for engine quiescence on Q registers. -/
  | mtk (a k : Nat)
  /-- ERET (R263). Returns from a trap, optionally skipping the faulting work, ends the hold, reinjects dumped results and replays parked commands. -/
  | eret
  /-- NOP (R103). Performs nothing. -/
  | nop
  /-- TRAP (R264). Code 0 ends the kernel after every command completes; other codes trap with CAUSE 0x14. -/
  | trap (code : Nat)
  /-- SECREQ (R423). Sends a request to the security engine and leaves s[d] pending until the engine answers with a status. -/
  | secreq (d a b : Nat)
  /-- COMMIT (R106). Selects s[a] or s[b] with its poison into s[d] according to the condition in s[d]. -/
  | commit (d a b : Nat)
  /-- CHK (R106). Branches when s[a] or s[b] is poisoned, without faulting. -/
  | chk (a b : Nat) (off : Int)
  /-- LD (R115). Loads 1 to 8 bytes at s[a] + sext(off12), zero- or sign-extended by width, poisoning on a marked line. -/
  | ld (w : LdWidth) (d a : Nat) (off : Int)
  /-- ST (R115). Stores the low 1 to 8 bytes of s[d] at s[a] + sext(off12) as a posted store. -/
  | st (w : StWidth) (d a : Nat) (off : Int)
  /-- LAH (R111). s[d] := linePC + sext(imm20 << 12). -/
  | lah (d : Nat) (imm : Int)
  /-- LIH (R111). s[d] := sext(imm20 << 12). -/
  | lih (d : Nat) (imm : Int)
  /-- VADD (R136). Adds two tiles element by element, rounding floats or wrapping integers. -/
  | vadd (d a b : TOp) (sp : Bool) (rnd : Option Rnd)
  /-- VSUB (R136). Subtracts two tiles element by element. -/
  | vsub (d a b : TOp) (sp : Bool) (rnd : Option Rnd)
  /-- VMUL (R136). Multiplies two tiles element by element. -/
  | vmul (d a b : TOp) (sp : Bool) (rnd : Option Rnd)
  /-- VFMA (R136). Computes A × B + D with one rounding into vd. -/
  | vfma (d a b : TOp) (sp : Bool) (rnd : Option Rnd)
  /-- VFNMA (R136). Computes D − A × B with one rounding into vd. -/
  | vfnma (d a b : TOp) (sp : Bool) (rnd : Option Rnd)
  /-- VMIN (R136). Takes the element-wise smaller of two tiles. -/
  | vmin (d a b : TOp) (sp : Bool) (rnd : Option Rnd)
  /-- VMAX (R136). Takes the element-wise larger of two tiles. -/
  | vmax (d a b : TOp) (sp : Bool) (rnd : Option Rnd)
  /-- VABS (R137). Writes the absolute value of each element. -/
  | vabs (d a : TOp) (sp : Bool) (rnd : Option Rnd)
  /-- VNEG (R137). Writes the negation of each element. -/
  | vneg (d a : TOp) (sp : Bool) (rnd : Option Rnd)
  /-- VAND (R138). Bitwise and of two integer or bits tiles. -/
  | vand (d a b : TOp) (sp : Bool) (rnd : Option Rnd)
  /-- VOR (R138). Bitwise or of two integer or bits tiles. -/
  | vor (d a b : TOp) (sp : Bool) (rnd : Option Rnd)
  /-- VXOR (R138). Bitwise xor of two integer or bits tiles. -/
  | vxor (d a b : TOp) (sp : Bool) (rnd : Option Rnd)
  /-- VNOT (R137). Complements the low w bits of each element. -/
  | vnot (d a : TOp) (sp : Bool) (rnd : Option Rnd)
  /-- VSLL (R138). Shifts each element left by the count in vb. -/
  | vsll (d a b : TOp) (sp : Bool) (rnd : Option Rnd)
  /-- VSRL (R138). Shifts each element right logically by the count in vb. -/
  | vsrl (d a b : TOp) (sp : Bool) (rnd : Option Rnd)
  /-- VSRA (R138). Shifts each element right arithmetically by the count in vb. -/
  | vsra (d a b : TOp) (sp : Bool) (rnd : Option Rnd)
  /-- VCMP (R139). Compares two tiles under a condition and writes a bits mask tile. -/
  | vcmp (cond : Cond) (d a b : TOp) (sp : Bool) (rnd : Rnd)
  /-- VSEL (R140). Selects per element from vb or vx under a mask, carrying the poison of all three sources. -/
  | vsel (d a b : TOp) (x : Nat) (sp : Bool) (rnd : Rnd)
  /-- VCVT (R142). Converts each element into the target format under the latched or overriding rounding mode. -/
  | vcvt (d a : TOp) (fmt : Nat) (sp : Bool) (rnd : Rnd)
  /-- VMOV (R137). Copies a tile with its tag, poison, origin record and block side store. -/
  | vmov (d a : TOp) (sp : Bool) (rnd : Option Rnd)
  /-- VSPLAT (R144). Writes the low bits of s[x] as a code of fmt into every element. -/
  | vsplat (d : TOp) (x fmt : Nat) (sp : Bool) (rnd : Rnd)
  /-- VXTR (R146). Copies element k of a tile into s[x], which was claimed at delivery. -/
  | vxtr (a x k : Nat) (sp : Bool) (rnd : Rnd)
  /-- VTAG (R143). Reinterprets a tile under a new tag without converting values. -/
  | vtag (d a : TOp) (fmt : Nat) (sp : Bool) (rnd : Rnd)
  /-- VCLR (R145). Zeroes every container and the side store and clears poison, keeping the tag. -/
  | vclr (d : TOp) (sp : Bool) (rnd : Option Rnd)
  /-- VCOMMIT (R140). Ends a both-arms region by selecting per element with the chosen arm's poison, faulting on a poisoned mask unless speculative. -/
  | vcommit (d a b : TOp) (x : Nat) (sp : Bool) (rnd : Rnd)
  /-- VPCHK (R141). Writes a mask of the poisoned elements of a tile. -/
  | vpchk (d a : TOp) (sp : Bool) (rnd : Option Rnd)
  /-- VLD (R148). Loads 4096 basin bytes into a tile's containers, poisoning or faulting on bad offsets. -/
  | vld (t a : Nat) (off : Int) (sp : Bool) (rnd : Option Rnd)
  /-- VST (R148). Stores a tile's containers as 4096 basin bytes. -/
  | vst (t a : Nat) (off : Int) (rnd : Option Rnd)
  /-- VLDS (R149). Loads a whole 4288-byte tile image with side store and tag, checking the image at retirement. -/
  | vlds (t a : Nat) (off : Int) (sp : Bool) (rnd : Option Rnd)
  /-- VSTS (R149). Stores a whole 4288-byte tile image. -/
  | vsts (t a : Nat) (off : Int) (rnd : Option Rnd)
  /-- VROTR (R155). Rotates each row by k columns. -/
  | vrotr (d a : TOp) (k : Nat) (sp : Bool) (rnd : Rnd)
  /-- VROTC (R155). Rotates each column by k rows. -/
  | vrotc (d a : TOp) (k : Nat) (sp : Bool) (rnd : Rnd)
  /-- VBCR (R156). Broadcasts row k to every row. -/
  | vbcr (d a : TOp) (k : Nat) (sp : Bool) (rnd : Rnd)
  /-- VBCC (R156). Broadcasts column k to every column. -/
  | vbcc (d a : TOp) (k : Nat) (sp : Bool) (rnd : Rnd)
  /-- VREDR (R157). Reduces each row by a fixed halving tree and writes the result across the row. -/
  | vredr (op : RedOp) (d a : TOp) (sp : Bool) (rnd : Rnd)
  /-- VREDC (R157). Reduces each column by a fixed halving tree and writes the result down the column. -/
  | vredc (op : RedOp) (d a : TOp) (sp : Bool) (rnd : Rnd)
  /-- VSCANR (R158). Computes inclusive prefixes along each row. -/
  | vscanr (op : RedOp) (d a : TOp) (sp : Bool) (rnd : Rnd)
  /-- VSCANC (R158). Computes inclusive prefixes along each column. -/
  | vscanc (op : RedOp) (d a : TOp) (sp : Bool) (rnd : Rnd)
  /-- VPERM (R159). Permutes within each row by the indices in vb. -/
  | vperm (d a b : TOp) (sp : Bool) (rnd : Option Rnd)
  /-- VTRN (R160). Transposes a 64 × 64 matrix held in four tiles. -/
  | vtrn (d a : Nat) (sp : Bool) (rnd : Option Rnd)
  /-- VEXP2 (R161). Computes 2^A per element within the stated accuracy. -/
  | vexp2 (d a : TOp) (sp : Bool) (rnd : Option Rnd)
  /-- VLOG2 (R161). Computes log2 A per element. -/
  | vlog2 (d a : TOp) (sp : Bool) (rnd : Option Rnd)
  /-- VRCP (R161). Computes 1 / A per element. -/
  | vrcp (d a : TOp) (sp : Bool) (rnd : Option Rnd)
  /-- VRSQ (R161). Computes 1 / √A per element. -/
  | vrsq (d a : TOp) (sp : Bool) (rnd : Option Rnd)
  /-- VTANH (R161). Computes tanh A per element. -/
  | vtanh (d a : TOp) (sp : Bool) (rnd : Option Rnd)
  /-- VSIG (R161). Computes the logistic sigmoid per element. -/
  | vsig (d a : TOp) (sp : Bool) (rnd : Option Rnd)
  /-- VRAND (R164). Fills a tile with noise words, one per element, as integers or floats in [0, 1). -/
  | vrand (d : TOp) (fmt : Nat) (sp : Bool)
  /-- VBSCALE (R311). Writes the block multiplier that quantisation into fmt would apply to each element's block. -/
  | vbscale (d a : TOp) (fmt : Nat) (sp : Bool) (rnd : Rnd)
  /-- VQMX (R311). Quantises a float tile into an MX format with OCP block scales. -/
  | vqmx (d a : TOp) (fmt : Nat) (sp : Bool) (rnd : Rnd)
  /-- VQLX (R311). Quantises a float tile into an LX format with shared and group micro-exponents. -/
  | vqlx (d a : TOp) (fmt : Nat) (sp : Bool) (rnd : Rnd)
  /-- VQCB (R311). Quantises a float tile into codebook indices of table k. -/
  | vqcb (d a : TOp) (fmt k : Nat) (sp : Bool) (rnd : Rnd)
  /-- VDQ (R311). Dequantises a block-format tile into fp32, bf16 or fp16. -/
  | vdq (d a : TOp) (fmt k : Nat) (sp : Bool) (rnd : Rnd)
  /-- VSPLIT (R312). Quantises a tile and its residual into a coarse-and-residual pair of tiles. -/
  | vsplit (d a : TOp) (fmt k : Nat) (sp : Bool) (rnd : Rnd)
  /-- VCBLD (R306). Loads codebook table k into the table store and the codebook area. -/
  | vcbld (a : TOp) (fmt k : Nat)
  /-- MMW (R220). Loads a weight tile, optionally with a duplication map, into the back buffer of cascade C. -/
  | mmw (t h cas : Nat) (dup : Bool) (rec : Option Shape4)
  /-- MMA (R222). Multiplies captured activation rows by cascade C's front buffer and accumulates into held cistern positions. -/
  | mma (a : TOp) (t h cas : Nat) (sw : Bool) (rec : Option Shape4)
  /-- MMAR (R349). Fetches activation rows from a peer in the given class and then multiplies them as an mma. -/
  | mmar (a t h : Nat) (cls : RClass) (cas : Nat) (sw : Bool) (rec : Option Shape4)
  /-- TASK (R286). Enters a tile task into the die's confluence task table after its directory and grant checks. -/
  | task (a : TOp) (t h : Nat) (rec : Option Shape4)
  /-- TFWD (R297). Forwards a tile task to the confluence of the weights' die and scatters the returned rows locally. -/
  | tfwd (a : TOp) (t h : Nat) (rec : Option Shape4)
  /-- ACAL (R227). Allocates and zeroes a run of free cistern banks for the context and its sharers, or reports 0x20. -/
  | acal (a b t : Nat)
  /-- ACFR (R228). Frees the named cistern banks that are held for the issuing core. -/
  | acfr (a t : Nat)
  /-- ACZR (R228). Zeroes the named cistern banks that are held for the issuing core. -/
  | aczr (a t : Nat)
  /-- ACDR (R230). Drains a row band of a cistern to a tile, poisoning elements of banks not held. -/
  | acdr (d t h cas : Nat) (rec : Option Shape4)
  /-- SPLR (R321). Registers or, with .rel, releases a split tensor slot, copying the initial hot rows. -/
  | splr (t h : Nat) (rel : Bool) (rec : Option Shape4)
  /-- SPMV (R322). Multiplies a split tensor by an activation vector, counting fired rows and producing hot and cold partial sums. -/
  | spmv (a t h cas : Nat) (rec : Option Shape4)
  /-- SPJN (R325). Joins the slot's product into a tile and writes a report with its hot-map version. -/
  | spjn (d t h : Nat) (rec : Option Shape4)
  /-- SPMG (R326). Migrates the hot set to the rows with the largest counters and increments VER. -/
  | spmg (a t : Nat)
  /-- SPAGE (R326). Halves every firing counter of the slot. -/
  | spage (a t : Nat)
  /-- SPRD (R326). Writes a report of VER, MC, counters and the hot map. -/
  | sprd (a b t : Nat)
  /-- CP (R184). Copies one pattern into another element for element on a copy engine. -/
  | cp (t a b : Nat) (hint : Hint)
  /-- CPM (R185). Copies a pattern and then hands a captured follow-on M instruction to the matrix path. -/
  | cpm (t a b : Nat) (hint : Hint) (follow : Nat)
  /-- GATH (R186). Gathers table rows through an index pattern into a destination. -/
  | gath (t a b : Nat) (hint : Hint)
  /-- SCAT (R186). Scatters source rows into table rows through an index pattern. -/
  | scat (t a b : Nat) (hint : Hint)
  /-- FILL (R187). Writes the low bits of s[a] into every element of a pattern. -/
  | fill (t a b : Nat) (hint : Hint) (rec : Option Shape4)
  /-- SBIND (R194). Binds a stream tile as a spout or drain over a pattern. -/
  | sbind (t a b : Nat) (hint : Hint) (drain : Bool) (rec : Option Shape4)
  /-- SUNB (R195). Ends a stream binding once earlier readers retire or earlier drain tiles are in memory. -/
  | sunb (t a : Nat)
  /-- DFL (R195). Completes when every tile written to the drain before it is in memory. -/
  | dfl (t a : Nat)
  /-- FLUSH (R180). Pushes covered writes in a range to the point where the host reads them. -/
  | flush (t a b : Nat)
  /-- INV (R180). Discards device-side copies of granules in a range. -/
  | inv (t a b : Nat)
  /-- RLD (R340). Loads w bytes at a remote VA of a peer into s[b]. -/
  | rld (t a b : Nat) (cls : RClass) (w : FWidth)
  /-- RST (R340). Stores the low w bytes of s[b] at a remote VA of a peer. -/
  | rst (t a b : Nat) (cls : RClass) (w : FWidth)
  /-- RAMO (R340). Performs a remote atomic read-modify-write and returns the old value. -/
  | ramo (op : AtomicOp) (t a b : Nat) (cls : RClass) (w : FWidth) (sc : Scope)
  /-- RAMOCAS (R340). Performs a remote compare-and-swap and returns the old value. -/
  | ramocas (t a b c : Nat) (cls : RClass) (w : FWidth) (sc : Scope)
  /-- RMC (R342). Stores one value at the same VA on every die of a box of replicas. -/
  | rmc (t a b c : Nat) (cls : RClass) (w : FWidth)
  /-- RTLD (R343). Reads a remote 4288-byte tile image into a tile in 67 flit steps. -/
  | rtld (t a b : Nat) (cls : RClass)
  /-- RFENCE (R345). Holds the F queue until every earlier F command of the masked classes has completed. -/
  | rfence (t mask : Nat)
  /-- TKGET (R347). Draws the next ticket of a remote incast region, creating its entry if needed. -/
  | tkget (t a b : Nat)
  /-- TKWAIT (R347). Waits, holding the F queue, until the region calls the ticket or has no entry. -/
  | tkwait (t a b : Nat)
  /-- TKRET (R347). Returns a ticket, advancing CALL or marking it returned. -/
  | tkret (t a b : Nat)
  /-- RGET (R344). Copies a remote pattern into a local pattern granule by granule. -/
  | rget (t a b : Nat) (cls : RClass) (rec : Option Shape4)
  /-- RPUT (R344). Copies a local pattern to a remote pattern granule by granule. -/
  | rput (t a b : Nat) (cls : RClass) (rec : Option Shape4)
  /-- WDPUB (R351). Publishes or withdraws a weight-directory entry on the issuing die. -/
  | wdpub (t a b : Nat)
  /-- PBAR (R212). Arrives at the partition barrier and lets the core go on; its token completes when all have arrived. -/
  | pbar (t : Nat)
  /-- COPY_GRANULE (R188). A copy engine performs one granule of a copy command after its earlier granules translated and passed their checks. -/
  | copyGranule (d e : Nat)
  /-- SPOUT_PREFETCH (R197). The stream unit fetches the next spout tile into the ring ahead of its readers. -/
  | spoutPrefetch (d c x : Nat)
  /-- DRAIN_WRITE (R198). The stream unit writes a retired drain tile to its pattern position. -/
  | drainWrite (d c x : Nat)
  /-- BARRIER_COMPLETION (R211). A barrier generation completes a fixed number of cycles after its last arrival and releases every participant. -/
  | barrierCompletion (n : Nat)
  /-- PARTITION_BARRIER_COMPLETION (R212). The partition barrier completes every pbar token once all participants have arrived. -/
  | partitionBarrierCompletion (n : Nat)
  /-- CASCADE_SERVE (R232). A cascade takes the next matrix or cistern command in arrival order and serves it. -/
  | cascadeServe (d k : Nat)
  /-- EPILOGUE_ROW (R234). The epilogue unit finishes one task row through scale, bias, activation and convert stages. -/
  | epilogueRow (d k : Nat)
  /-- TASK_DEADLINE (R289). A group head's deadline expires and its group becomes ready. -/
  | taskDeadline (d n : Nat)
  /-- PASS_COMMIT (R290). On a free cascade the confluence commits the earliest eligible ready group as a pass within the board slot. -/
  | passCommit (d k : Nat)
  /-- ROW_SCATTER (R293). A finished row is written at RES + ρ × RSTR under its owner's translation. -/
  | rowScatter (d k : Nat)
  /-- PARKED_ROW_RESCATTER (R295). After the owner's eret, parked rows re-enter the scatter from their positions. -/
  | parkedRowRescatter (d k : Nat)
  /-- TFWD_ROWS_AT_PEER (R297). Forwarded rows arrive at the peer and enter its task table with owner tag 254. -/
  | tfwdRowsAtPeer (d n : Nat)
  /-- TFWD_ROWS_RETURN (R297). Finished forwarded rows return to the issuing die and scatter there. -/
  | tfwdRowsReturn (d n : Nat)
  /-- FREEZE (R270). At a schedule-cycle edge every engine of the core stops where it stands and its work is dumped, completed or kept as records. -/
  | freeze (d c : Nat)
  /-- TRAP_ENTRY (R261). A reported fault holds the context and enters the handler of the target level with the trap registers written. -/
  | trapEntry (d c : Nat)
  /-- DUMPED_RESULT_WRITE (R271). After a resume a dumped result is written when its remaining cycles have elapsed. -/
  | dumpedResultWrite (d c n : Nat)
  /-- PREEMPTION_REQUEST (R272). A pre-emption freezes the core at least 32 cycles after the request and saves the context to KSAVE. -/
  | preemptionRequest (d c : Nat)
  /-- NO_PROGRESS_WATCHDOG (R384). After 2^24 stalled cycles without progress the watchdog faults the earliest-delivered stalled group. -/
  | noProgressWatchdog (d c : Nat)
  /-- KCTX_SAVE (R268). KCTX OP 001 saves the held context to the save area and ends the hold without resuming. -/
  | kctxSave (d c : Nat)
  /-- KCTX_RESTORE (R268). KCTX OP 010 checks and restores a saved context and holds it at the current level. -/
  | kctxRestore (d c : Nat)
  /-- KCTX_RELEASE (R268). KCTX OP 011 frees the die resources of a saved context and clears its MAGIC. -/
  | kctxRelease (d c : Nat)
  /-- KCTX_NOTHING (R268). KCTX OP 000 performs nothing. -/
  | kctxNothing (d c : Nat)
  /-- XINV_ALL_STAGE1 (R251). KXINV KIND 00 removes every stage-1 translation of the context and rereads its range table. -/
  | xinvAllStage1 (d c : Nat)
  /-- XINV_PAGE (R251). KXINV KIND 01 removes the stage-1 translation of the page holding ADDR. -/
  | xinvPage (d c va : Nat)
  /-- XINV_STAGE2 (R251). KXINV KIND 10 removes every stage-2 translation sharing this KS2ROOT and rereads its range table. -/
  | xinvStage2 (d c : Nat)
  /-- RANGE_TABLE_LOAD (R242). A write of KRTAB or KS2RTAB reads the range table whole, leaving unreadable entries to fault on lookup. -/
  | rangeTableLoad (d c stage : Nat) (v : W64)
  /-- CACHE_SHARE_WRITE (R175). A write of KBCACHE checks the share and leaves every entry of the share invalid for the context. -/
  | cacheShareWrite (d c : Nat) (v : W64)
  /-- NOISE_MODE_WRITE (R165). A write of KNOISE, KNLOGB or KNLOGP waits for earlier V instructions and sets the noise log mode, checking its region. -/
  | noiseModeWrite (d c num : Nat) (v : W64)
  /-- MODE_WRITE (R86). A write of KMODE sets FTZ, SAT and RND, faulting on a reserved rounding value. -/
  | modeWrite (d c : Nat) (v : W64)
  /-- ACTIVE_MASK_WRITE (R374). A write of KAMASK.MASK at H changes the active dies, faulting while any partition context exists. -/
  | activeMaskWrite (d c : Nat) (v : W64)
  /-- BOARD_WRITE (R392). A write of KBOARD reads the board table whole and schedules it for a later frame. -/
  | boardWrite (d c : Nat) (v : W64)
  /-- PREEMPT (R394). KPREEMPT OP 001 pre-empts the context on the named core. -/
  | preempt (d c target : Nat)
  /-- PREEMPT_FOR_MIGRATION (R394). KPREEMPT OP 010 pre-empts the context and releases its die-local resources once the save completes. -/
  | preemptForMigration (d c target : Nat)
  /-- RECALL (R394). KPREEMPT OP 011 recalls a lent core within its deadline, saving a held context at once. -/
  | recall (d c target : Nat)
  /-- LEND_WRITE (R395). A write of KLEND lends a core to a borrowing partition with a recall deadline, or ends the lending. -/
  | lendWrite (d c : Nat) (v : W64)
  /-- TRACE_BUFFER_WRITE (R399). A write of KTRB sets the trace buffer and resets PTR to 0 and WRAP. -/
  | traceBufferWrite (d c : Nat) (v : W64)
  /-- REGISTER_WRITE (R436). A write to a register that has no row of its own stores its writable fields under their access codes. -/
  | registerWrite (d off : Nat) (v : W64)
  /-- FRAME_BOUNDARY (R392). A 4096-cycle board frame begins, putting a pending board, profile or DVFS point into force. -/
  | frameBoundary (d : Nat)
  /-- SLOT_BOUNDARY (R393). A board slot begins and, where a cascade's owner changes, empties its weight buffers after begun commands finish. -/
  | slotBoundary (d : Nat)
  /-- SPLIT_UNIT_SERVE (R319). The split unit takes the next split command in arrival order, checking slot ownership and tag. -/
  | splitUnitServe (d : Nat)
  /-- RILL_ROW_MULTIPLY (R328). A rill multiplies the next fired cold row queued at it into its partial. -/
  | rillRowMultiply (d r : Nat)
  /-- FLIT_HOP (R336). A router forwards a flit one hop along its class's route. -/
  | flitHop (n : Nat)
  /-- FLIT_CRC_RETRY (R335). A flit that fails its CRC is resent from the link's retry buffer. -/
  | flitCrcRetry (n : Nat)
  /-- REMOTE_REQUEST_PERFORM (R338). The home die translates and performs a remote request exactly once and sends its response. -/
  | remoteRequestPerform (n : Nat)
  /-- REMOTE_RESPONSE (R340). A response arrives and writes its command's result register and token. -/
  | remoteResponse (n : Nat)
  /-- LINK_TRAINING_ROUND (R352). A link trains, comes up in an agreed configuration, retries at the lowest common one, or goes down. -/
  | linkTrainingRound (d p : Nat) (offer : LinkOffer)
  /-- LINK_RETRAIN_REQUEST (R438). A write of LSTAT RETRAIN requests retraining of the link. -/
  | linkRetrainRequest (d p : Nat)
  /-- LINK_EYE_EVENT (R353). A link lane's margin falls below its threshold and the eye-threshold interrupt names the lane. -/
  | linkEyeEvent (d p lane : Nat)
  /-- SKEW_MEASURE (R407). Each up link measures the counter skew to its neighbour every 2^20 ticks. -/
  | skewMeasure (d p : Nat)
  /-- LAUNCH_TAKE (R373). Arbitration takes an eligible host head or pool entry by level and deficit round-robin and numbers its launch record. -/
  | launchTake (p : Nat)
  /-- UNIT_PLACEMENT (R376). A die places a waiting unit of a launch on the lowest quad with enough free cores and starts its contexts. -/
  | unitPlacement (d : Nat)
  /-- LAUNCH_END (R377). When every placed core has ended, the launch adds its signals and advances its root queue's DONE. -/
  | launchEnd (n : Nat)
  /-- DEBUG_STOP (R400). A stop cycle, breakpoint, single step or port request freezes the core, saves it with REASON 2 and raises the debug-stop interrupt. -/
  | debugStop (d c : Nat)
  /-- SCRUB_VISIT (R412). The scrubber visits the next line, rewriting corrected codewords and marking uncorrectable lines. -/
  | scrubVisit (d : Nat)
  /-- ROW_CLOSE (R418). An open HBM row closes when its hint's idle time expires. -/
  | rowClose (d n : Nat)
  /-- HBM_EYE_EVENT (R414). An HBM lane margin falls below HEYE thresholds, latching the lane and raising the interrupt. -/
  | hbmEyeEvent (d lane : Nat)
  /-- LANE_REPAIR (R415). A write of HREP with GO starts a pseudo-channel retraining with its spare lane, or sets NOSPARE. -/
  | laneRepair (d : Nat) (v : W64)
  /-- SPARE_LANE_RETRAIN_DONE (R415). The pseudo-channel finishes retraining with its spare lane and serves the waiting accesses. -/
  | spareLaneRetrainDone (d pc : Nat)
  /-- ERROR_COUNTS_READ (R416). A read of HERR returns the error counts and clears them. -/
  | errorCountsRead (d : Nat)
  /-- EXTEND (R423). The security engine extends a measurement register with a digest. -/
  | extend (p : Nat)
  /-- QUOTE (R424). The security engine writes a signed record of the selected measurement registers. -/
  | quote (p : Nat)
  /-- READMR (R423). The security engine writes one measurement register to memory. -/
  | readmr (p : Nat)
  /-- TKEY (R423). The security engine installs a fresh HBM key for a tenant. -/
  | tkey (p : Nat)
  /-- TKDEL (R423). The security engine zeroises a tenant's HBM key. -/
  | tkdel (p : Nat)
  /-- NONCE (R423). The security engine draws a fresh unlock nonce into KSNONCE. -/
  | nonce (p : Nat)
  /-- UNLOCK (R427). The security engine checks a signed token, zeroises tenant keys and enters debug-open. -/
  | unlock (p : Nat)
  /-- CHECK_ALARM (R426). An alarm source crosses its check limit, freezing tenant work and trapping A and S contexts to H. -/
  | checkAlarm (p src : Nat)
  /-- MATE_ALARM (R426). An alarm source crosses its mate limit, zeroising every key, counting MATES and resetting the package. -/
  | mateAlarm (p src : Nat)
  /-- PACKAGE_RESET (R439). A package reset clears engine state and starts bring-up from die 0's ROM. -/
  | packageReset (p : Nat)
  /-- BOOT_IMAGE_LOAD (R439). A write of HBOOT makes the engine read and check the firmware image and extend MR1, or raise a boot check. -/
  | bootImageLoad (p : Nat) (v : W64)
  /-- DIE_READY (R439). After firmware bring-up a die sets HSTAT.READY and its queues begin taking packets. -/
  | dieReady (d : Nat)
  /-- THERMAL_THROTTLE (R441). Over-power or over-temperature moves the cascade island one point lower and sets THERM. -/
  | thermalThrottle (d : Nat)
  /-- THERMAL_RECOVERY (R441). After 10 ms below both limits the island returns to the profile's point. -/
  | thermalRecovery (d : Nat)
  /-- PROFILE_WRITE (R442). A write of PROF selects the operating profile from a later frame. -/
  | profileWrite (d : Nat) (v : W64)
  /-- TELEMETRY_UPDATE (R443). TELE updates power, current and temperature every 1 ms. -/
  | telemetryUpdate (d power current tj : Nat)
  /-- HOST_CXL_ACCESS (R179). The host accesses a host-coherent window over CXL.cache or device memory over CXL.io. -/
  | hostCxlAccess (acc : HostAccess)
  /-- DEBUG_PORT_ACCESS (R427). The debug port reads or writes memory, writes the debug registers or reads K registers under KSDBG.MASK, and an access outside the mask or outside debug-open raises a check with SRC 5. -/
  | debugPortAccess (acc : DebugAccess)
  /-- AMO_OLD_VALUE_RETURN (R209). The old value of a local amo or amocas returns from memory, is written to s[d] and clears its pending bit. -/
  | amoOldValueReturn (d c n : Nat)
  /-- STORE_PERFORMED_AT_HOME (R357). A posted scalar store reaches the quad write path and then its home, where it is performed and placed in coherence order. -/
  | storePerformedAtHome (d c n : Nat)
  /-- RESPONSE_ACKNOWLEDGEMENT (R339). The source's acknowledgement of a remote response reaches the home, which drops the recorded response of that replay tag and frees its replay-tag store entry. -/
  | responseAcknowledgement (n : Nat)
  deriving DecidableEq, Repr

end Sys2Proof
end

