-- ==== Sys2Proof/WellFormed.lean ====
section
/-!
DEFINITION. Sys2Proof/WellFormed.lean: which instructions the encodings of R33 to R47 can carry: register and tile
numbers of their fields' widths, immediates in their ranges, an even register where a pair is named, a token other
than s0, an assigned format tag. For a device step: a unit number that a pod can have (R9, R12).
-/
namespace Sys2Proof

/-- A six-bit scalar register or tile number (R33). -/
def isReg (r : Nat) : Bool := decide (r < 64)
/-- A token register: s0 is never one (R102). -/
def tok (t : Nat) : Bool := decide (0 < t ∧ t < 64)
/-- An even register, the first of a pair (R41, R186). -/
def pair (a : Nat) : Bool := decide (a < 64 ∧ a % 2 = 0)
/-- A signed field of n bits (R36). -/
def sfits (n : Nat) (i : Int) : Bool := decide (-(2 ^ (n - 1) : Int) ≤ i ∧ i < 2 ^ (n - 1))

/-- A tile operand of R33. -/
def TOp.ok (t : TOp) : Bool := isReg t.v

/-- The count field of form CL (R36). -/
def LoopCount.ok : LoopCount → Bool
  | .imm n => decide (n < 4096)
  | .reg r => isReg r

/-- One 32-bit word. -/
def isWord (w : Nat) : Bool := decide (w < 2 ^ 32)
/-- Four 32-bit words of an inline record. -/
def Shape4.ok (s : Shape4) : Bool := isWord s.w0 && isWord s.w1 && isWord s.w2 && isWord s.w3
/-- Four words of a shape record: the lay value 11 is reserved (R46, R52). -/
def Shape4.shapeOk (s : Shape4) : Bool := s.ok && decide (s.w3 / 2 ^ 30 ≠ 3)

/-- The handle field: any register in bindless mode (no record), 0 beside an inline record (R39 to R41). -/
def hOk (h : Nat) : Option Shape4 → Bool
  | none => isReg h
  | some s => decide (h = 0) && s.shapeOk
/-- The handle field beside a task record (R281), or a record of which only st3 is read (R321). -/
def hTaskOk (h : Nat) : Option Shape4 → Bool
  | none => isReg h
  | some s => decide (h = 0) && s.ok

/-- The follow-on word of `cpm`: an `mmw`, `mma` or `task` word (R40). -/
def followOk (w : Nat) : Bool := isWord w && (w / 2 ^ 25 == 1 || w / 2 ^ 25 == 2 || w / 2 ^ 25 == 4)

/-- Remote atomics take 32 and 64 bits only (R340). -/
def FWidth.atomicOk : FWidth → Bool
  | .n8 => false
  | .n16 => false
  | .n32 => true
  | .n64 => true

/-- The assigned format tags of R74. -/
def tagAssigned (t : Nat) : Bool :=
  decide (t ≤ 0x05) || decide (0x08 ≤ t ∧ t ≤ 0x0A) || decide (0x10 ≤ t ∧ t ≤ 0x12) ||
  decide (0x20 ≤ t ∧ t ≤ 0x23) || decide (0x28 ≤ t ∧ t ≤ 0x2A) || t == 0x30 || decide (0x40 ≤ t ∧ t ≤ 0x5F)

/-- The well-formed instructions and device steps. -/
def Instr.wf : Instr → Bool
  | .add d a b => isReg d && isReg a && isReg b
  | .sub d a b => isReg d && isReg a && isReg b
  | .mul d a b => isReg d && isReg a && isReg b
  | .mulh d a b => isReg d && isReg a && isReg b
  | .mulhn d a b => isReg d && isReg a && isReg b
  | .div d a b => isReg d && isReg a && isReg b
  | .divn d a b => isReg d && isReg a && isReg b
  | .rem d a b => isReg d && isReg a && isReg b
  | .remn d a b => isReg d && isReg a && isReg b
  | .and d a b => isReg d && isReg a && isReg b
  | .or d a b => isReg d && isReg a && isReg b
  | .xor d a b => isReg d && isReg a && isReg b
  | .sll d a b => isReg d && isReg a && isReg b
  | .srl d a b => isReg d && isReg a && isReg b
  | .sra d a b => isReg d && isReg a && isReg b
  | .slt d a b => isReg d && isReg a && isReg b
  | .sltn d a b => isReg d && isReg a && isReg b
  | .min d a b => isReg d && isReg a && isReg b
  | .minn d a b => isReg d && isReg a && isReg b
  | .max d a b => isReg d && isReg a && isReg b
  | .maxn d a b => isReg d && isReg a && isReg b
  | .clz d a => isReg d && isReg a
  | .ctz d a => isReg d && isReg a
  | .popc d a => isReg d && isReg a
  | .addi d a imm => isReg d && isReg a && sfits 13 imm
  | .andi d a imm => isReg d && isReg a && sfits 13 imm
  | .ori d a imm => isReg d && isReg a && sfits 13 imm
  | .xori d a imm => isReg d && isReg a && sfits 13 imm
  | .slli d a sh => isReg d && isReg a && sh < 64
  | .srli d a sh => isReg d && isReg a && sh < 64
  | .srai d a sh => isReg d && isReg a && sh < 64
  | .slti d a imm => isReg d && isReg a && sfits 13 imm
  | .sltni d a imm => isReg d && isReg a && sfits 13 imm
  | .ext d a pos len => isReg d && isReg a && pos < 64 && 1 ≤ len && len ≤ 64
  | .extn d a pos len => isReg d && isReg a && pos < 64 && 1 ≤ len && len ≤ 64
  | .ins d a pos len => isReg d && isReg a && pos < 64 && 1 ≤ len && len ≤ 64
  | .beq a b off => isReg a && isReg b && sfits 13 off
  | .bne a b off => isReg a && isReg b && sfits 13 off
  | .blt a b off => isReg a && isReg b && sfits 13 off
  | .bltn a b off => isReg a && isReg b && sfits 13 off
  | .bge a b off => isReg a && isReg b && sfits 13 off
  | .bgen a b off => isReg a && isReg b && sfits 13 off
  | .jal d off => isReg d && sfits 19 off
  | .callg d slot => isReg d && slot < 524288
  | .jalr d a imm => isReg d && isReg a && sfits 13 imm
  | .loop k cnt fin => k < 3 && cnt.ok && 2 ≤ fin && fin ≤ 127
  | .loopp k stages cnt fin => k < 3 && 1 ≤ stages && stages ≤ 8 && cnt.ok && 2 ≤ fin && fin ≤ 127
  | .ldp d win idx => isReg d && win < 16 && idx < 4096
  | .amo _ _ d a b => isReg d && isReg a && isReg b
  | .amocas _ d a b => isReg d && isReg a && isReg b
  | .fence _ _ => true
  | .bar _ => true
  | .tlwait _ a => isReg a
  | .tlread _ d => isReg d
  | .tokw d a => isReg d && isReg a
  | .tokt d a => isReg d && isReg a
  | .probe a b off => isReg a && isReg b && sfits 13 off
  | .launch d a => isReg d && isReg a
  | .waitch d a => isReg d && isReg a
  | .taskst d a => isReg d && isReg a
  | .mfk d k => isReg d && k < 8192
  | .mtk a k => isReg a && k < 8192
  | .eret => true
  | .nop => true
  | .trap code => code < 8192
  | .secreq d a b => isReg d && isReg a && isReg b
  | .commit d a b => isReg d && isReg a && isReg b
  | .chk a b off => isReg a && isReg b && sfits 13 off
  | .ld _ d a off => isReg d && isReg a && sfits 12 off
  | .st _ d a off => isReg d && isReg a && sfits 12 off
  | .lah d imm => isReg d && sfits 20 imm
  | .lih d imm => isReg d && sfits 20 imm
  | .vadd d a b _ _ => d.ok && a.ok && b.ok
  | .vsub d a b _ _ => d.ok && a.ok && b.ok
  | .vmul d a b _ _ => d.ok && a.ok && b.ok
  | .vfma d a b _ _ => d.ok && a.ok && b.ok
  | .vfnma d a b _ _ => d.ok && a.ok && b.ok
  | .vmin d a b _ _ => d.ok && a.ok && b.ok
  | .vmax d a b _ _ => d.ok && a.ok && b.ok
  | .vabs d a _ _ => d.ok && a.ok
  | .vneg d a _ _ => d.ok && a.ok
  | .vand d a b _ _ => d.ok && a.ok && b.ok
  | .vor d a b _ _ => d.ok && a.ok && b.ok
  | .vxor d a b _ _ => d.ok && a.ok && b.ok
  | .vnot d a _ _ => d.ok && a.ok
  | .vsll d a b _ _ => d.ok && a.ok && b.ok
  | .vsrl d a b _ _ => d.ok && a.ok && b.ok
  | .vsra d a b _ _ => d.ok && a.ok && b.ok
  | .vcmp _ d a b _ _ => d.ok && a.ok && b.ok
  | .vsel d a b x _ _ => d.ok && a.ok && b.ok && isReg x
  | .vcvt d a fmt _ _ => d.ok && a.ok && tagAssigned fmt
  | .vmov d a _ _ => d.ok && a.ok
  | .vsplat d x fmt _ _ => d.ok && isReg x && tagAssigned fmt
  | .vxtr a x k _ _ => isReg a && isReg x && k < 1024
  | .vtag d a fmt _ _ => d.ok && a.ok && tagAssigned fmt
  | .vclr d _ _ => d.ok
  | .vcommit d a b x _ _ => d.ok && a.ok && b.ok && isReg x
  | .vpchk d a _ _ => d.ok && a.ok
  | .vld t a off _ _ => isReg t && isReg a && sfits 10 off
  | .vst t a off _ => isReg t && isReg a && sfits 10 off
  | .vlds t a off _ _ => isReg t && isReg a && sfits 10 off
  | .vsts t a off _ => isReg t && isReg a && sfits 10 off
  | .vrotr d a k _ _ => d.ok && a.ok && k < 64
  | .vrotc d a k _ _ => d.ok && a.ok && k < 16
  | .vbcr d a k _ _ => d.ok && a.ok && k < 16
  | .vbcc d a k _ _ => d.ok && a.ok && k < 64
  | .vredr _ d a _ _ => d.ok && a.ok
  | .vredc _ d a _ _ => d.ok && a.ok
  | .vscanr _ d a _ _ => d.ok && a.ok
  | .vscanc _ d a _ _ => d.ok && a.ok
  | .vperm d a b _ _ => d.ok && a.ok && b.ok
  | .vtrn d a _ _ => isReg d && isReg a && d % 4 == 0 && a % 4 == 0
  | .vexp2 d a _ _ => d.ok && a.ok
  | .vlog2 d a _ _ => d.ok && a.ok
  | .vrcp d a _ _ => d.ok && a.ok
  | .vrsq d a _ _ => d.ok && a.ok
  | .vtanh d a _ _ => d.ok && a.ok
  | .vsig d a _ _ => d.ok && a.ok
  | .vrand d fmt _ => d.ok && tagAssigned fmt
  | .vbscale d a fmt _ _ => d.ok && a.ok && tagAssigned fmt
  | .vqmx d a fmt _ _ => d.ok && a.ok && tagAssigned fmt
  | .vqlx d a fmt _ _ => d.ok && a.ok && tagAssigned fmt
  | .vqcb d a fmt k _ _ => d.ok && a.ok && tagAssigned fmt && k < 1024
  | .vdq d a fmt k _ _ => d.ok && a.ok && tagAssigned fmt && k < 1024
  | .vsplit d a fmt k _ _ => d.ok && d.v % 2 == 0 && a.ok && tagAssigned fmt && k < 1024
  | .vcbld a fmt k => a.ok && tagAssigned fmt && k < 16
  | .mmw t h cas _ rec => tok t && hOk h rec && cas < 4
  | .mma a t h cas _ rec => a.ok && tok t && hOk h rec && cas < 4
  | .mmar a t h _ cas _ rec => a < 48 && tok t && hOk h rec && cas < 4
  | .task a t h rec => a.ok && tok t && hTaskOk h rec
  | .tfwd a t h rec => a.ok && tok t && hTaskOk h rec
  | .acal a b t => isReg a && isReg b && tok t
  | .acfr a t => isReg a && tok t
  | .aczr a t => isReg a && tok t
  | .acdr d t h cas rec => isReg d && tok t && hOk h rec && cas < 4
  | .splr t h rel rec => tok t && (if rel then hTaskOk h rec else hOk h rec)
  | .spmv a t h cas rec => isReg a && tok t && hOk h rec && cas < 4
  | .spjn d t h rec => isReg d && tok t && hOk h rec
  | .spmg a t => isReg a && tok t
  | .spage a t => isReg a && tok t
  | .sprd a b t => isReg a && isReg b && tok t
  | .cp t a b _ => tok t && isReg a && isReg b
  | .cpm t a b _ follow => tok t && isReg a && isReg b && followOk follow
  | .gath t a b _ => tok t && isReg a && pair b
  | .scat t a b _ => tok t && pair a && isReg b
  | .fill t a b _ rec => tok t && isReg a && hOk b rec
  | .sbind t a b _ _ rec => tok t && isReg a && hOk b rec
  | .sunb t a => tok t && isReg a
  | .dfl t a => tok t && isReg a
  | .flush t a b => tok t && isReg a && isReg b
  | .inv t a b => tok t && isReg a && isReg b
  | .rld t a b _ _ => tok t && pair a && isReg b
  | .rst t a b _ _ => tok t && pair a && isReg b
  | .ramo _ t a b _ w _ => tok t && pair a && isReg b && w.atomicOk
  | .ramocas t a b c _ w _ => tok t && pair a && isReg b && isReg c && w.atomicOk
  | .rmc t a b c _ _ => tok t && pair a && isReg b && isReg c
  | .rtld t a b _ => tok t && pair a && b < 48
  | .rfence t mask => tok t && 1 ≤ mask && mask ≤ 7
  | .tkget t a b => tok t && pair a && isReg b
  | .tkwait t a b => tok t && pair a && isReg b
  | .tkret t a b => tok t && pair a && isReg b
  | .rget t a b _ rec => tok t && pair a && hOk b rec
  | .rput t a b _ rec => tok t && pair a && hOk b rec
  | .wdpub t a b => tok t && pair a && isReg b
  | .pbar t => tok t
  | .lineDelivery d c => d < 4096 && c < 32
  | .resultReady d c r => d < 4096 && c < 32 && r < 64
  | .loadReturn d c _ => d < 4096 && c < 32
  | .tokenCompletion d c _ => d < 4096 && c < 32
  | .copyGranule d e => d < 4096 && e < 16
  | .spoutPrefetch d c x => d < 4096 && c < 32 && 48 ≤ x && x < 64
  | .drainWrite d c x => d < 4096 && c < 32 && 48 ≤ x && x < 64
  | .barrierCompletion _ => true
  | .partitionBarrierCompletion _ => true
  | .cascadeServe d k => d < 4096 && k < 4
  | .epilogueRow d k => d < 4096 && k < 4
  | .taskDeadline d _ => d < 4096
  | .passCommit d k => d < 4096 && k < 4
  | .rowScatter d k => d < 4096 && k < 4
  | .parkedRowRescatter d k => d < 4096 && k < 4
  | .tfwdRowsAtPeer d _ => d < 4096
  | .tfwdRowsReturn d _ => d < 4096
  | .freeze d c => d < 4096 && c < 32
  | .trapEntry d c => d < 4096 && c < 32
  | .dumpedResultWrite d c _ => d < 4096 && c < 32
  | .preemptionRequest d c => d < 4096 && c < 32
  | .noProgressWatchdog d c => d < 4096 && c < 32
  | .kctxSave d c => d < 4096 && c < 32
  | .kctxRestore d c => d < 4096 && c < 32
  | .kctxRelease d c => d < 4096 && c < 32
  | .kctxNothing d c => d < 4096 && c < 32
  | .xinvAllStage1 d c => d < 4096 && c < 32
  | .xinvPage d c va => d < 4096 && c < 32 && va < 2 ^ 56
  | .xinvStage2 d c => d < 4096 && c < 32
  | .rangeTableLoad d c stage _ => d < 4096 && c < 32 && (stage == 1 || stage == 2)
  | .cacheShareWrite d c _ => d < 4096 && c < 32
  | .noiseModeWrite d c num _ => d < 4096 && c < 32 && 0x014 ≤ num && num ≤ 0x016
  | .modeWrite d c _ => d < 4096 && c < 32
  | .activeMaskWrite d c _ => d < 4096 && c < 32
  | .boardWrite d c _ => d < 4096 && c < 32
  | .preempt d c t => d < 4096 && c < 32 && t < 32
  | .preemptForMigration d c t => d < 4096 && c < 32 && t < 32
  | .recall d c t => d < 4096 && c < 32 && t < 32
  | .lendWrite d c _ => d < 4096 && c < 32
  | .traceBufferWrite d c _ => d < 4096 && c < 32
  | .registerWrite d off _ => d < 4096 && off < 65536
  | .frameBoundary d => d < 4096
  | .slotBoundary d => d < 4096
  | .splitUnitServe d => d < 4096
  | .rillRowMultiply d r => d < 4096 && r < 64
  | .flitHop _ => true
  | .flitCrcRetry _ => true
  | .remoteRequestPerform _ => true
  | .remoteResponse _ => true
  | .linkTrainingRound d p _ => d < 4096 && p < 6
  | .linkRetrainRequest d p => d < 4096 && p < 6
  | .linkEyeEvent d p lane => d < 4096 && p < 6 && lane < 128
  | .skewMeasure d p => d < 4096 && p < 6
  | .launchTake _ => true
  | .unitPlacement d => d < 4096
  | .launchEnd _ => true
  | .debugStop d c => d < 4096 && c < 32
  | .scrubVisit d => d < 4096
  | .rowClose d _ => d < 4096
  | .hbmEyeEvent d lane => d < 4096 && lane < 2112
  | .laneRepair d _ => d < 4096
  | .spareLaneRetrainDone d pc => d < 4096 && pc < 64
  | .errorCountsRead d => d < 4096
  | .extend _ => true
  | .quote _ => true
  | .readmr _ => true
  | .tkey _ => true
  | .tkdel _ => true
  | .nonce _ => true
  | .unlock _ => true
  | .checkAlarm _ src => 1 ≤ src && src ≤ 6
  | .mateAlarm _ src => 1 ≤ src && src ≤ 5
  | .packageReset _ => true
  | .bootImageLoad _ _ => true
  | .dieReady d => d < 4096
  | .thermalThrottle d => d < 4096
  | .thermalRecovery d => d < 4096
  | .profileWrite d _ => d < 4096
  | .telemetryUpdate d p i t => d < 4096 && p < 65536 && i < 65536 && t < 65536
  | .hostCxlAccess _ => true
  | .debugPortAccess _ => true
  | .amoOldValueReturn d c _ => d < 4096 && c < 32
  | .storePerformedAtHome d c _ => d < 4096 && c < 32
  | .responseAcknowledgement _ => true

end Sys2Proof
end

