-- ==== Sys2Proof/Decode.lean ====
section
/-!
DEFINITION. Sys2Proof/Decode.lean: from words to instructions, and back. The word formats of R35 to R47 and the opcode
maps of R49 to R51; every encoding that is not an instruction is refused by the name of its reason (R30, R52). The
decoder takes the instruction word and the group's continuation words (R26); the lane's tag chooses the engine.
-/
namespace Sys2Proof

/-- Why an instruction group is not an instruction (R30, R52). Each raises the illegal-instruction fault at issue. -/
inductive DecErr where
  /-- opcode 0x00 (R30) -/
  | opcodeZero
  /-- an opcode its engine's map does not assign (R30) -/
  | opcodeUnassigned
  /-- a must-be-zero or unused field that is not zero (R30) -/
  | mustBeZero
  /-- a field value listed as reserved: direction, class, scope, width, rnd, fn, hint, loop counter, window (R34 to R41) -/
  | reservedValue
  /-- the wrong number of continuation words (R26, R37, R39 to R41) -/
  | contWords
  /-- direction .c or .d on an operand that takes only .r (R71) -/
  | direction
  /-- an unassigned format tag (R38, R74) -/
  | fmtUnassigned
  /-- s0 as a token (R102) -/
  | tokenZero
  /-- an odd register where an even one is needed (R41, R186) -/
  | oddPair
  /-- a tile of v48 to v63 where the form forbids it (R343, R349) -/
  | streamTile
  /-- a follow-on of `cpm` that is not an mmw, mma or task word (R40) -/
  | followOn
  /-- .n8 or .n16 on a remote atomic (R340) -/
  | atomicWidth
  deriving DecidableEq, Repr

abbrev DecResult := Except DecErr Instr

/-- Bits hi down to lo of a word. -/
def bitField (w hi lo : Nat) : Nat := w / 2 ^ lo % 2 ^ (hi + 1 - lo)
/-- The two's-complement value of an n-bit field. -/
def sextField (n v : Nat) : Int := if v < 2 ^ (n - 1) then (v : Int) else (v : Int) - (2 ^ n : Nat)
/-- The n-bit field of a signed value. -/
def unsigned (n : Nat) (i : Int) : Nat := (i % (2 ^ n : Nat)).toNat
def boolBit (b : Bool) : Nat := if b then 1 else 0

/-- Refuse with e when bad, else go on. -/
def refuseIf (bad : Bool) (e : DecErr) (k : DecResult) : DecResult := if bad then .error e else k

/-- A field whose code must name a value. -/
def withCode {α : Type} (o : Option α) (k : α → DecResult) : DecResult :=
  match o with
  | none => .error .reservedValue
  | some a => k a

/-! ### Field codes (R33, R34, R37, R38, R40, R42) -/

def dirOf : Nat → Option Dir
  | 0 => some .r
  | 1 => some .c
  | 2 => some .d
  | _ => none
def Dir.code : Dir → Nat
  | .r => 0
  | .c => 1
  | .d => 2
def TOp.code (t : TOp) : Nat := 4 * t.v + t.dir.code
def scopeOf : Nat → Option Scope
  | 0 => some .lane
  | 1 => some .core
  | 2 => some .quad
  | 3 => some .die
  | 4 => some .pkg
  | 5 => some .pod
  | _ => none
def Scope.code : Scope → Nat
  | .lane => 0
  | .core => 1
  | .quad => 2
  | .die => 3
  | .pkg => 4
  | .pod => 5
def rclassOf : Nat → Option RClass
  | 0 => some .ord
  | 1 => some .adp
  | 2 => some .rnd
  | _ => none
def RClass.code : RClass → Nat
  | .ord => 0
  | .adp => 1
  | .rnd => 2
def atomicOf : Nat → Option AtomicOp
  | 0 => some .add
  | 1 => some .and
  | 2 => some .or
  | 3 => some .xor
  | 4 => some .min
  | 5 => some .minn
  | 6 => some .max
  | 7 => some .maxn
  | 8 => some .swap
  | _ => none
def AtomicOp.code : AtomicOp → Nat
  | .add => 0
  | .and => 1
  | .or => 2
  | .xor => 3
  | .min => 4
  | .minn => 5
  | .max => 6
  | .maxn => 7
  | .swap => 8
def fenceOf : Nat → Option FenceKind
  | 1 => some .acq
  | 2 => some .rel
  | 3 => some .ar
  | _ => none
def FenceKind.code : FenceKind → Nat
  | .acq => 1
  | .rel => 2
  | .ar => 3
def timelineOf : Nat → Option TimelineId
  | 0 => some .tly
  | 1 => some .tlm
  | 2 => some .tlf
  | 3 => some .tln
  | 4 => some .tll
  | _ => none
def TimelineId.code : TimelineId → Nat
  | .tly => 0
  | .tlm => 1
  | .tlf => 2
  | .tln => 3
  | .tll => 4
def rndOf : Nat → Option Rnd
  | 0 => some .latched
  | 1 => some .rne
  | 2 => some .rtz
  | 3 => some .rup
  | 4 => some .rdn
  | 5 => some .rsto
  | _ => none
def Rnd.code : Rnd → Nat
  | .latched => 0
  | .rne => 1
  | .rtz => 2
  | .rup => 3
  | .rdn => 4
  | .rsto => 5
def condOf : Nat → Option Cond
  | 0 => some .eq
  | 1 => some .ne
  | 2 => some .lt
  | 3 => some .le
  | 4 => some .gt
  | 5 => some .ge
  | 6 => some .uno
  | 7 => some .ord
  | _ => none
def Cond.code : Cond → Nat
  | .eq => 0
  | .ne => 1
  | .lt => 2
  | .le => 3
  | .gt => 4
  | .ge => 5
  | .uno => 6
  | .ord => 7
def redOf : Nat → Option RedOp
  | 0 => some .add
  | 1 => some .min
  | 2 => some .max
  | 3 => some .and
  | 4 => some .or
  | 5 => some .xor
  | _ => none
def RedOp.code : RedOp → Nat
  | .add => 0
  | .min => 1
  | .max => 2
  | .and => 3
  | .or => 4
  | .xor => 5
def hintOf : Nat → Option Hint
  | 0 => some .plain
  | 1 => some .stream
  | 2 => some .reuse
  | _ => none
def Hint.code : Hint → Nat
  | .plain => 0
  | .stream => 1
  | .reuse => 2
def ldWidthOf : Nat → Option LdWidth
  | 0 => some .n8
  | 1 => some .n16
  | 2 => some .n32
  | 3 => some .d64
  | 4 => some .i8
  | 5 => some .i16
  | 6 => some .i32
  | _ => none
def LdWidth.code : LdWidth → Nat
  | .n8 => 0
  | .n16 => 1
  | .n32 => 2
  | .d64 => 3
  | .i8 => 4
  | .i16 => 5
  | .i32 => 6
def stWidthOf : Nat → Option StWidth
  | 0 => some .n8
  | 1 => some .n16
  | 2 => some .n32
  | 3 => some .d64
  | _ => none
def StWidth.code : StWidth → Nat
  | .n8 => 0
  | .n16 => 1
  | .n32 => 2
  | .d64 => 3
def fWidthOf : Nat → FWidth
  | 0 => .n8
  | 1 => .n16
  | 2 => .n32
  | _ => .n64
def FWidth.code : FWidth → Nat
  | .n8 => 0
  | .n16 => 1
  | .n32 => 2
  | .n64 => 3

/-! ### Forms of the C engine (R35, R36) -/

def decodeCR3 (f : Nat → Nat → Nat → Instr) (w : Nat) : DecResult :=
  refuseIf (bitField w 6 0 != 0) .mustBeZero (.ok (f (bitField w 24 19) (bitField w 18 13) (bitField w 12 7)))
def decodeCR2 (f : Nat → Nat → Instr) (w : Nat) : DecResult :=
  refuseIf (bitField w 12 0 != 0) .mustBeZero (.ok (f (bitField w 24 19) (bitField w 18 13)))
def decodeCR0 (f : Instr) (w : Nat) : DecResult :=
  refuseIf (bitField w 24 0 != 0) .mustBeZero (.ok f)
def decodeCI (f : Nat → Nat → Int → Instr) (w : Nat) : DecResult :=
  .ok (f (bitField w 24 19) (bitField w 18 13) (sextField 13 (bitField w 12 0)))
def decodeCIsh (f : Nat → Nat → Nat → Instr) (w : Nat) : DecResult :=
  refuseIf (decide (64 ≤ bitField w 12 0)) .reservedValue (.ok (f (bitField w 24 19) (bitField w 18 13) (bitField w 12 0)))
def decodeCF (f : Nat → Nat → Nat → Nat → Instr) (w : Nat) : DecResult :=
  refuseIf (bitField w 0 0 != 0) .mustBeZero
    (.ok (f (bitField w 24 19) (bitField w 18 13) (bitField w 12 7) (bitField w 6 1 + 1)))
def decodeCB (f : Nat → Nat → Int → Instr) (w : Nat) : DecResult :=
  .ok (f (bitField w 24 19) (bitField w 18 13) (sextField 13 (bitField w 12 0)))
def decodeCJ (f : Nat → Int → Instr) (w : Nat) : DecResult :=
  .ok (f (bitField w 24 19) (sextField 19 (bitField w 18 0)))
def decodeCJu (f : Nat → Nat → Instr) (w : Nat) : DecResult :=
  .ok (f (bitField w 24 19) (bitField w 18 0))
/-- The count of form CL: an immediate when i = 1, else a register in cnt[5:0] with cnt[11:6] zero. -/
def loopCountOf (i cnt : Nat) : Option LoopCount :=
  if i = 1 then some (.imm cnt) else if cnt < 64 then some (.reg cnt) else none
def decodeCL (f : Nat → LoopCount → Nat → Instr) (w : Nat) : DecResult :=
  refuseIf (bitField w 24 23 == 3 || decide (bitField w 6 0 < 2)) .reservedValue
    (refuseIf (bitField w 21 19 != 0) .mustBeZero
      (withCode (loopCountOf (bitField w 22 22) (bitField w 18 7)) fun n => .ok (f (bitField w 24 23) n (bitField w 6 0))))
def decodeCLp (f : Nat → Nat → LoopCount → Nat → Instr) (w : Nat) : DecResult :=
  refuseIf (bitField w 24 23 == 3 || decide (bitField w 6 0 < 2)) .reservedValue
    (withCode (loopCountOf (bitField w 22 22) (bitField w 18 7)) fun n =>
      .ok (f (bitField w 24 23) (bitField w 21 19 + 1) n (bitField w 6 0)))
def decodeCP (f : Nat → Nat → Nat → Instr) (w : Nat) : DecResult :=
  refuseIf (decide (16 ≤ bitField w 18 13)) .reservedValue
    (refuseIf (bitField w 0 0 != 0) .mustBeZero (.ok (f (bitField w 24 19) (bitField w 18 13) (bitField w 12 1))))
def decodeCIk (f : Nat → Nat → Instr) (w : Nat) : DecResult :=
  refuseIf (bitField w 18 13 != 0) .mustBeZero (.ok (f (bitField w 24 19) (bitField w 12 0)))
def decodeCIka (f : Nat → Nat → Instr) (w : Nat) : DecResult :=
  refuseIf (bitField w 24 19 != 0) .mustBeZero (.ok (f (bitField w 18 13) (bitField w 12 0)))
def decodeCIt (f : Nat → Instr) (w : Nat) : DecResult :=
  refuseIf (bitField w 24 13 != 0) .mustBeZero (.ok (f (bitField w 12 0)))
def decodeCAamo (f : AtomicOp → Scope → Nat → Nat → Nat → Instr) (w : Nat) : DecResult :=
  withCode (atomicOf (bitField w 6 3)) fun op => withCode (scopeOf (bitField w 2 0)) fun sc =>
    .ok (f op sc (bitField w 24 19) (bitField w 18 13) (bitField w 12 7))
def decodeCAcas (f : Scope → Nat → Nat → Nat → Instr) (w : Nat) : DecResult :=
  refuseIf (bitField w 6 3 != 0) .reservedValue (withCode (scopeOf (bitField w 2 0)) fun sc =>
    .ok (f sc (bitField w 24 19) (bitField w 18 13) (bitField w 12 7)))
def decodeCAfence (f : FenceKind → Scope → Instr) (w : Nat) : DecResult :=
  refuseIf (bitField w 24 7 != 0) .mustBeZero
    (withCode (fenceOf (bitField w 6 3)) fun k => withCode (scopeOf (bitField w 2 0)) fun sc => .ok (f k sc))
def decodeCAbar (f : Scope → Instr) (w : Nat) : DecResult :=
  refuseIf (bitField w 24 7 != 0) .mustBeZero
    (refuseIf (bitField w 6 3 != 0) .reservedValue (withCode (scopeOf (bitField w 2 0)) fun sc => .ok (f sc)))
def decodeCAtlw (f : TimelineId → Nat → Instr) (w : Nat) : DecResult :=
  refuseIf (bitField w 24 19 != 0 || bitField w 12 7 != 0 || bitField w 2 0 != 0) .mustBeZero
    (withCode (timelineOf (bitField w 6 3)) fun tl => .ok (f tl (bitField w 18 13)))
def decodeCAtlr (f : TimelineId → Nat → Instr) (w : Nat) : DecResult :=
  refuseIf (bitField w 18 7 != 0 || bitField w 2 0 != 0) .mustBeZero
    (withCode (timelineOf (bitField w 6 3)) fun tl => .ok (f tl (bitField w 24 19)))
def decodeLd (w : Nat) : DecResult :=
  refuseIf (bitField w 0 0 != 0) .mustBeZero (withCode (ldWidthOf (bitField w 27 25)) fun x =>
    .ok (.ld x (bitField w 24 19) (bitField w 18 13) (sextField 12 (bitField w 12 1))))
def decodeSt (w : Nat) : DecResult :=
  refuseIf (bitField w 0 0 != 0) .mustBeZero (withCode (stWidthOf (bitField w 27 25)) fun x =>
    .ok (.st x (bitField w 24 19) (bitField w 18 13) (sextField 12 (bitField w 12 1))))

/-- Opcodes 0x01 to 0x44 of the C map (R49). -/
def decodeCop (op w : Nat) : DecResult :=
  match op with
  | 0 => .error .opcodeZero
  | 1 => decodeCR3 .add w
  | 2 => decodeCR3 .sub w
  | 3 => decodeCR3 .mul w
  | 4 => decodeCR3 .mulh w
  | 5 => decodeCR3 .mulhn w
  | 6 => decodeCR3 .div w
  | 7 => decodeCR3 .divn w
  | 8 => decodeCR3 .rem w
  | 9 => decodeCR3 .remn w
  | 10 => decodeCR3 .and w
  | 11 => decodeCR3 .or w
  | 12 => decodeCR3 .xor w
  | 13 => decodeCR3 .sll w
  | 14 => decodeCR3 .srl w
  | 15 => decodeCR3 .sra w
  | 16 => decodeCR3 .slt w
  | 17 => decodeCR3 .sltn w
  | 18 => decodeCR3 .min w
  | 19 => decodeCR3 .minn w
  | 20 => decodeCR3 .max w
  | 21 => decodeCR3 .maxn w
  | 22 => decodeCR2 .clz w
  | 23 => decodeCR2 .ctz w
  | 24 => decodeCR2 .popc w
  | 25 => decodeCI .addi w
  | 26 => decodeCI .andi w
  | 27 => decodeCI .ori w
  | 28 => decodeCI .xori w
  | 29 => decodeCIsh .slli w
  | 30 => decodeCIsh .srli w
  | 31 => decodeCIsh .srai w
  | 32 => decodeCI .slti w
  | 33 => decodeCI .sltni w
  | 34 => decodeCF .ext w
  | 35 => decodeCF .extn w
  | 36 => decodeCF .ins w
  | 37 => decodeCB .beq w
  | 38 => decodeCB .bne w
  | 39 => decodeCB .blt w
  | 40 => decodeCB .bltn w
  | 41 => decodeCB .bge w
  | 42 => decodeCB .bgen w
  | 43 => decodeCJ .jal w
  | 44 => decodeCJu .callg w
  | 45 => decodeCI .jalr w
  | 46 => decodeCL .loop w
  | 47 => decodeCLp .loopp w
  | 48 => decodeCP .ldp w
  | 49 => decodeCAamo .amo w
  | 50 => decodeCAcas .amocas w
  | 51 => decodeCAfence .fence w
  | 52 => decodeCAbar .bar w
  | 53 => decodeCAtlw .tlwait w
  | 54 => decodeCAtlr .tlread w
  | 55 => decodeCR2 .tokw w
  | 56 => decodeCR2 .tokt w
  | 57 => decodeCB .probe w
  | 58 => decodeCR2 .launch w
  | 59 => decodeCR2 .waitch w
  | 60 => decodeCR2 .taskst w
  | 61 => decodeCIk .mfk w
  | 62 => decodeCIka .mtk w
  | 63 => decodeCR0 .eret w
  | 64 => decodeCR0 .nop w
  | 65 => decodeCIt .trap w
  | 66 => decodeCR3 .secreq w
  | 67 => decodeCR3 .commit w
  | 68 => decodeCB .chk w
  | _ => .error .opcodeUnassigned

/-- A C group (R49): `ld`, `st`, `lah` and `lih` have shorter opcodes. No C instruction takes continuation words. -/
def decodeC (w : Nat) (cs : List Nat) : DecResult :=
  refuseIf (!cs.isEmpty) .contWords
    (if bitField w 31 28 = 10 then decodeLd w
     else if bitField w 31 28 = 11 then decodeSt w
     else if bitField w 31 26 = 62 then .ok (.lah (bitField w 25 20) (sextField 20 (bitField w 19 0)))
     else if bitField w 31 26 = 63 then .ok (.lih (bitField w 25 20) (sextField 20 (bitField w 19 0)))
     else decodeCop (bitField w 31 25) w)

/-! ### Forms of the V engine (R37, R38) -/

/-- A tile operand field (R33). -/
def topOf (f : Nat) : Option TOp :=
  match dirOf (f % 4) with
  | some d => some ⟨f / 4 % 64, d⟩
  | none => none
/-- A tile operand that its form takes only as .r (R71). -/
def withPlain (f : Nat) (k : Nat → DecResult) : DecResult :=
  if f % 4 = 3 then .error .reservedValue else if f % 4 = 0 then k (f / 4 % 64) else .error .direction

/-- No option word, or one that only overrides the rounding (R37). -/
def vOpt0 (cs : List Nat) (k : Option Rnd → DecResult) : DecResult :=
  match cs with
  | [] => k none
  | [o] => refuseIf (bitField o 28 0 != 0) .mustBeZero (withCode (rndOf (bitField o 31 29)) fun r => k (some r))
  | _ => .error .contWords
/-- The required option word: rnd, fn, x, fmt, imm10 (R37). -/
def vOpt (cs : List Nat) (k : Rnd → Nat → Nat → Nat → Nat → DecResult) : DecResult :=
  match cs with
  | [o] => withCode (rndOf (bitField o 31 29)) fun r =>
      k r (bitField o 28 24) (bitField o 23 18) (bitField o 17 10) (bitField o 9 0)
  | _ => .error .contWords
def spBit (w : Nat) : Bool := bitField w 0 0 == 1

def decodeVR3 (f : TOp → TOp → TOp → Bool → Option Rnd → Instr) (w : Nat) (cs : List Nat) : DecResult :=
  vOpt0 cs fun r => withCode (topOf (bitField w 24 17)) fun d => withCode (topOf (bitField w 16 9)) fun a =>
    withCode (topOf (bitField w 8 1)) fun b => .ok (f d a b (spBit w) r)
def decodeVR2 (f : TOp → TOp → Bool → Option Rnd → Instr) (w : Nat) (cs : List Nat) : DecResult :=
  vOpt0 cs fun r => refuseIf (bitField w 8 1 != 0) .mustBeZero
    (withCode (topOf (bitField w 24 17)) fun d => withCode (topOf (bitField w 16 9)) fun a => .ok (f d a (spBit w) r))
def decodeVR1 (f : TOp → Bool → Option Rnd → Instr) (w : Nat) (cs : List Nat) : DecResult :=
  vOpt0 cs fun r => refuseIf (bitField w 16 1 != 0) .mustBeZero
    (withCode (topOf (bitField w 24 17)) fun d => .ok (f d (spBit w) r))
/-- `vtrn`: plain registers that are multiples of 4 (R160). -/
def decodeVRtrn (f : Nat → Nat → Bool → Option Rnd → Instr) (w : Nat) (cs : List Nat) : DecResult :=
  vOpt0 cs fun r => refuseIf (bitField w 8 1 != 0) .mustBeZero
    (withPlain (bitField w 24 17) fun d => withPlain (bitField w 16 9) fun a =>
      refuseIf (d % 4 != 0 || a % 4 != 0) .reservedValue (.ok (f d a (spBit w) r)))
def decodeVOcmp (f : Cond → TOp → TOp → TOp → Bool → Rnd → Instr) (w : Nat) (cs : List Nat) : DecResult :=
  vOpt cs fun r fn x fmt k => refuseIf (x != 0 || fmt != 0 || k != 0) .mustBeZero (withCode (condOf fn) fun c =>
    withCode (topOf (bitField w 24 17)) fun d => withCode (topOf (bitField w 16 9)) fun a =>
      withCode (topOf (bitField w 8 1)) fun b => .ok (f c d a b (spBit w) r))
def decodeVOsel (f : TOp → TOp → TOp → Nat → Bool → Rnd → Instr) (w : Nat) (cs : List Nat) : DecResult :=
  vOpt cs fun r fn x fmt k => refuseIf (fn != 0 || fmt != 0 || k != 0) .mustBeZero
    (withCode (topOf (bitField w 24 17)) fun d => withCode (topOf (bitField w 16 9)) fun a =>
      withCode (topOf (bitField w 8 1)) fun b => .ok (f d a b x (spBit w) r))
def decodeVOfmt (f : TOp → TOp → Nat → Bool → Rnd → Instr) (w : Nat) (cs : List Nat) : DecResult :=
  vOpt cs fun r fn x fmt k => refuseIf (bitField w 8 1 != 0 || fn != 0 || x != 0 || k != 0) .mustBeZero
    (refuseIf (!tagAssigned fmt) .fmtUnassigned
      (withCode (topOf (bitField w 24 17)) fun d => withCode (topOf (bitField w 16 9)) fun a => .ok (f d a fmt (spBit w) r)))
def decodeVOspl (f : TOp → Nat → Nat → Bool → Rnd → Instr) (w : Nat) (cs : List Nat) : DecResult :=
  vOpt cs fun r fn x fmt k => refuseIf (bitField w 16 1 != 0 || fn != 0 || k != 0) .mustBeZero
    (refuseIf (!tagAssigned fmt) .fmtUnassigned
      (withCode (topOf (bitField w 24 17)) fun d => .ok (f d x fmt (spBit w) r)))
def decodeVOxtr (f : Nat → Nat → Nat → Bool → Rnd → Instr) (w : Nat) (cs : List Nat) : DecResult :=
  vOpt cs fun r fn x fmt k =>
    refuseIf (bitField w 24 17 != 0 || bitField w 8 1 != 0 || fn != 0 || fmt != 0) .mustBeZero
      (withPlain (bitField w 16 9) fun a => .ok (f a x k (spBit w) r))
/-- Rotations and broadcasts: imm10 below the form's limit (R153, R155, R156). -/
def decodeVOk (limit : Nat) (f : TOp → TOp → Nat → Bool → Rnd → Instr) (w : Nat) (cs : List Nat) : DecResult :=
  vOpt cs fun r fn x fmt k => refuseIf (bitField w 8 1 != 0 || fn != 0 || x != 0 || fmt != 0) .mustBeZero
    (refuseIf (decide (limit ≤ k)) .reservedValue <| withCode (topOf (bitField w 24 17)) fun d => withCode (topOf (bitField w 16 9)) fun a => .ok (f d a k (spBit w) r))
def decodeVOred (f : RedOp → TOp → TOp → Bool → Rnd → Instr) (w : Nat) (cs : List Nat) : DecResult :=
  vOpt cs fun r fn x fmt k => refuseIf (bitField w 8 1 != 0 || x != 0 || fmt != 0 || k != 0) .mustBeZero
    (withCode (redOf fn) fun op => withCode (topOf (bitField w 24 17)) fun d => withCode (topOf (bitField w 16 9)) fun a =>
      .ok (f op d a (spBit w) r))
/-- `vrand`: rnd must be 000 (R164). -/
def decodeVOrand (f : TOp → Nat → Bool → Instr) (w : Nat) (cs : List Nat) : DecResult :=
  vOpt cs fun r fn x fmt k =>
    refuseIf (bitField w 16 1 != 0 || decide (r ≠ .latched) || fn != 0 || x != 0 || k != 0) .mustBeZero
      (refuseIf (!tagAssigned fmt) .fmtUnassigned (withCode (topOf (bitField w 24 17)) fun d => .ok (f d fmt (spBit w))))
def decodeVOfk (f : TOp → TOp → Nat → Nat → Bool → Rnd → Instr) (w : Nat) (cs : List Nat) : DecResult :=
  vOpt cs fun r fn x fmt k => refuseIf (bitField w 8 1 != 0 || fn != 0 || x != 0) .mustBeZero
    (refuseIf (!tagAssigned fmt) .fmtUnassigned
      (withCode (topOf (bitField w 24 17)) fun d => withCode (topOf (bitField w 16 9)) fun a => .ok (f d a fmt k (spBit w) r)))
/-- `vsplit`: an even destination (R312). -/
def decodeVOpair (f : TOp → TOp → Nat → Nat → Bool → Rnd → Instr) (w : Nat) (cs : List Nat) : DecResult :=
  refuseIf (bitField w 24 17 / 4 % 2 != 0) .oddPair (decodeVOfk f w cs)
/-- `vcbld`: d8, b8, rnd, fn and x zero, k at most 15, sp = 0 (R306). -/
def decodeVOcb (f : TOp → Nat → Nat → Instr) (w : Nat) (cs : List Nat) : DecResult :=
  vOpt cs fun r fn x fmt k =>
    refuseIf (bitField w 24 17 != 0 || bitField w 8 0 != 0 || decide (r ≠ .latched) || fn != 0 || x != 0) .mustBeZero
      (refuseIf (decide (16 ≤ k)) .reservedValue (refuseIf (!tagAssigned fmt) .fmtUnassigned
        (withCode (topOf (bitField w 16 9)) fun a => .ok (f a fmt k))))
def decodeVM (f : Nat → Nat → Int → Bool → Option Rnd → Instr) (w : Nat) (r : Option Rnd) : DecResult :=
  withPlain (bitField w 24 17) fun t => .ok (f t (bitField w 16 11) (sextField 10 (bitField w 10 1)) (spBit w) r)
def decodeVMst (f : Nat → Nat → Int → Option Rnd → Instr) (w : Nat) (r : Option Rnd) : DecResult :=
  refuseIf (spBit w) .reservedValue
    (withPlain (bitField w 24 17) fun t => .ok (f t (bitField w 16 11) (sextField 10 (bitField w 10 1)) r))

def decodeVop (op w : Nat) (cs : List Nat) : DecResult :=
  match op with
  | 0 => .error .opcodeZero
  | 1 => decodeVR3 .vadd w cs
  | 2 => decodeVR3 .vsub w cs
  | 3 => decodeVR3 .vmul w cs
  | 4 => decodeVR3 .vfma w cs
  | 5 => decodeVR3 .vfnma w cs
  | 6 => decodeVR3 .vmin w cs
  | 7 => decodeVR3 .vmax w cs
  | 8 => decodeVR2 .vabs w cs
  | 9 => decodeVR2 .vneg w cs
  | 10 => decodeVR3 .vand w cs
  | 11 => decodeVR3 .vor w cs
  | 12 => decodeVR3 .vxor w cs
  | 13 => decodeVR2 .vnot w cs
  | 14 => decodeVR3 .vsll w cs
  | 15 => decodeVR3 .vsrl w cs
  | 16 => decodeVR3 .vsra w cs
  | 17 => decodeVOcmp .vcmp w cs
  | 18 => decodeVOsel .vsel w cs
  | 19 => decodeVOfmt .vcvt w cs
  | 20 => decodeVR2 .vmov w cs
  | 21 => decodeVOspl .vsplat w cs
  | 22 => decodeVOxtr .vxtr w cs
  | 23 => decodeVOfmt .vtag w cs
  | 24 => decodeVR1 .vclr w cs
  | 25 => decodeVOsel .vcommit w cs
  | 26 => decodeVR2 .vpchk w cs
  | 32 => vOpt0 cs fun rnd => decodeVM .vld w rnd
  | 33 => vOpt0 cs fun rnd => decodeVMst .vst w rnd
  | 34 => vOpt0 cs fun rnd => decodeVM .vlds w rnd
  | 35 => vOpt0 cs fun rnd => decodeVMst .vsts w rnd
  | 40 => decodeVOk 64 .vrotr w cs
  | 41 => decodeVOk 16 .vrotc w cs
  | 42 => decodeVOk 16 .vbcr w cs
  | 43 => decodeVOk 64 .vbcc w cs
  | 44 => decodeVOred .vredr w cs
  | 45 => decodeVOred .vredc w cs
  | 46 => decodeVOred .vscanr w cs
  | 47 => decodeVOred .vscanc w cs
  | 48 => decodeVR3 .vperm w cs
  | 49 => decodeVRtrn .vtrn w cs
  | 56 => decodeVR2 .vexp2 w cs
  | 57 => decodeVR2 .vlog2 w cs
  | 58 => decodeVR2 .vrcp w cs
  | 59 => decodeVR2 .vrsq w cs
  | 60 => decodeVR2 .vtanh w cs
  | 61 => decodeVR2 .vsig w cs
  | 62 => decodeVOrand .vrand w cs
  | 64 => decodeVOfmt .vbscale w cs
  | 65 => decodeVOfmt .vqmx w cs
  | 66 => decodeVOfmt .vqlx w cs
  | 67 => decodeVOfk .vqcb w cs
  | 68 => decodeVOfk .vdq w cs
  | 69 => decodeVOpair .vsplit w cs
  | 70 => decodeVOcb .vcbld w cs
  | _ => .error .opcodeUnassigned
/-- A V group (R50). -/
def decodeV (w : Nat) (cs : List Nat) : DecResult := decodeVop (bitField w 31 25) w cs

/-! ### Forms of the M, Y and F engines (R39 to R42) -/

def noConts (cs : List Nat) (k : DecResult) : DecResult := refuseIf (!cs.isEmpty) .contWords k
/-- The token field: never s0 (R102). -/
def withTok (t : Nat) (k : DecResult) : DecResult := refuseIf (t == 0) .tokenZero k
/-- The first register of a pair: even (R41, R186). -/
def withPair (a : Nat) (k : DecResult) : DecResult := refuseIf (a % 2 != 0) .oddPair k
/-- The shape record (R39 to R41, R45): none in bindless mode; four words, and then the handle field is 0. -/
def withRecord (h : Nat) (cs : List Nat) (k : Option Shape4 → DecResult) : DecResult :=
  match cs with
  | [] => k none
  | [w0, w1, w2, w3] => refuseIf (h != 0) .mustBeZero (k (some ⟨w0, w1, w2, w3⟩))
  | _ => .error .contWords
/-- A shape record: its lay value 11 is reserved (R46, R52). -/
def withRec (h : Nat) (cs : List Nat) (k : Option Shape4 → DecResult) : DecResult :=
  withRecord h cs fun rec => refuseIf (rec.elim false fun r => decide (r.w3 / 2 ^ 30 = 3)) .reservedValue (k rec)

def mcT (w : Nat) : Nat := bitField w 16 11
def mcH (w : Nat) : Nat := bitField w 10 5

def decodeMCmmw (f : Nat → Nat → Nat → Bool → Option Shape4 → Instr) (w : Nat) (cs : List Nat) : DecResult :=
  withTok (mcT w) (withRec (mcH w) cs fun rec => refuseIf (bitField w 24 17 != 0 || bitField w 4 3 != 0) .mustBeZero
    (.ok (f (mcT w) (mcH w) (bitField w 1 0) (bitField w 2 2 == 1) rec)))
def decodeMCmma (f : TOp → Nat → Nat → Nat → Bool → Option Shape4 → Instr) (w : Nat) (cs : List Nat) : DecResult :=
  withTok (mcT w) (withRec (mcH w) cs fun rec => refuseIf (bitField w 4 3 != 0) .mustBeZero
    (withCode (topOf (bitField w 24 17)) fun a => .ok (f a (mcT w) (mcH w) (bitField w 1 0) (bitField w 2 2 == 1) rec)))
def decodeMCmmar (f : Nat → Nat → Nat → RClass → Nat → Bool → Option Shape4 → Instr) (w : Nat) (cs : List Nat) : DecResult :=
  withTok (mcT w) (withRec (mcH w) cs fun rec => withPlain (bitField w 24 17) fun a =>
    refuseIf (decide (48 ≤ a)) .streamTile (withCode (rclassOf (bitField w 4 3)) fun cls =>
      .ok (f a (mcT w) (mcH w) cls (bitField w 1 0) (bitField w 2 2 == 1) rec)))
def decodeMCtask (f : TOp → Nat → Nat → Option Shape4 → Instr) (w : Nat) (cs : List Nat) : DecResult :=
  withTok (mcT w) (withRecord (mcH w) cs fun rec => refuseIf (bitField w 4 0 != 0) .mustBeZero
    (withCode (topOf (bitField w 24 17)) fun a => .ok (f a (mcT w) (mcH w) rec)))
def decodeMCacdr (f : Nat → Nat → Nat → Nat → Option Shape4 → Instr) (w : Nat) (cs : List Nat) : DecResult :=
  withTok (mcT w) (withRec (mcH w) cs fun rec => refuseIf (bitField w 4 2 != 0) .mustBeZero
    (withPlain (bitField w 24 17) fun d => .ok (f d (mcT w) (mcH w) (bitField w 1 0) rec)))
/-- `splr`; with `.rel` the record's fields but st3 are ignored (R321). -/
def decodeMCsplr (f : Nat → Nat → Bool → Option Shape4 → Instr) (w : Nat) (cs : List Nat) : DecResult :=
  withTok (mcT w) (refuseIf (bitField w 24 17 != 0 || bitField w 4 1 != 0) .mustBeZero
    (if bitField w 0 0 == 1 then withRecord (mcH w) cs fun rec => .ok (f (mcT w) (mcH w) true rec)
     else withRec (mcH w) cs fun rec => .ok (f (mcT w) (mcH w) false rec)))
def decodeMCspmv (f : Nat → Nat → Nat → Nat → Option Shape4 → Instr) (w : Nat) (cs : List Nat) : DecResult :=
  withTok (mcT w) (withRec (mcH w) cs fun rec => refuseIf (bitField w 4 2 != 0) .mustBeZero
    (withPlain (bitField w 24 17) fun a => .ok (f a (mcT w) (mcH w) (bitField w 1 0) rec)))
def decodeMCspjn (f : Nat → Nat → Nat → Option Shape4 → Instr) (w : Nat) (cs : List Nat) : DecResult :=
  withTok (mcT w) (withRec (mcH w) cs fun rec => refuseIf (bitField w 4 0 != 0) .mustBeZero
    (withPlain (bitField w 24 17) fun d => .ok (f d (mcT w) (mcH w) rec)))
def decodeMS3 (f : Nat → Nat → Nat → Instr) (w : Nat) : DecResult :=
  refuseIf (bitField w 6 0 != 0) .mustBeZero
    (withTok (bitField w 12 7) (.ok (f (bitField w 24 19) (bitField w 18 13) (bitField w 12 7))))
def decodeMS2 (f : Nat → Nat → Instr) (w : Nat) : DecResult :=
  refuseIf (bitField w 18 13 != 0 || bitField w 6 0 != 0) .mustBeZero
    (withTok (bitField w 12 7) (.ok (f (bitField w 24 19) (bitField w 12 7))))

def decodeMop (op w : Nat) (cs : List Nat) : DecResult :=
  match op with
  | 0 => .error .opcodeZero
  | 1 => decodeMCmmw .mmw w cs
  | 2 => decodeMCmma .mma w cs
  | 3 => decodeMCmmar .mmar w cs
  | 4 => decodeMCtask .task w cs
  | 5 => decodeMCtask .tfwd w cs
  | 8 => noConts cs (decodeMS3 .acal w)
  | 9 => noConts cs (decodeMS2 .acfr w)
  | 10 => noConts cs (decodeMS2 .aczr w)
  | 11 => decodeMCacdr .acdr w cs
  | 16 => decodeMCsplr .splr w cs
  | 17 => decodeMCspmv .spmv w cs
  | 18 => decodeMCspjn .spjn w cs
  | 19 => noConts cs (decodeMS2 .spmg w)
  | 20 => noConts cs (decodeMS2 .spage w)
  | 21 => noConts cs (decodeMS3 .sprd w)
  | _ => .error .opcodeUnassigned
/-- An M group (R51). -/
def decodeM (w : Nat) (cs : List Nat) : DecResult := decodeMop (bitField w 31 25) w cs

def frT (w : Nat) : Nat := bitField w 24 19
def frA (w : Nat) : Nat := bitField w 18 13
def frB (w : Nat) : Nat := bitField w 12 7

/-- `cp`, `gath` (pairB) and `scat` (pairA): three handles and a hint (R40, R186). -/
def decodeYC (pairA pairB : Bool) (f : Nat → Nat → Nat → Hint → Instr) (w : Nat) : DecResult :=
  withTok (frT w) (refuseIf ((pairA && frA w % 2 != 0) || (pairB && frB w % 2 != 0)) .oddPair
    (refuseIf (bitField w 4 0 != 0) .mustBeZero (withCode (hintOf (bitField w 6 5)) fun h =>
      .ok (f (frT w) (frA w) (frB w) h))))
def decodeYCcpm (f : Nat → Nat → Nat → Hint → Nat → Instr) (w : Nat) (cs : List Nat) : DecResult :=
  match cs with
  | [m] => withTok (frT w) (refuseIf (!followOk m) .followOn
      (refuseIf (bitField w 4 0 != 0) .mustBeZero (withCode (hintOf (bitField w 6 5)) fun h =>
        .ok (f (frT w) (frA w) (frB w) h m))))
  | _ => .error .contWords
def decodeYCfill (f : Nat → Nat → Nat → Hint → Option Shape4 → Instr) (w : Nat) (cs : List Nat) : DecResult :=
  withTok (frT w) (withRec (frB w) cs fun rec => refuseIf (bitField w 4 0 != 0) .mustBeZero
    (withCode (hintOf (bitField w 6 5)) fun h => .ok (f (frT w) (frA w) (frB w) h rec)))
def decodeYCsb (f : Nat → Nat → Nat → Hint → Bool → Option Shape4 → Instr) (w : Nat) (cs : List Nat) : DecResult :=
  withTok (frT w) (withRec (frB w) cs fun rec => refuseIf (bitField w 3 0 != 0) .mustBeZero
    (withCode (hintOf (bitField w 6 5)) fun h => .ok (f (frT w) (frA w) (frB w) h (bitField w 4 4 == 1) rec)))
def decodeYC2 (f : Nat → Nat → Instr) (w : Nat) : DecResult :=
  withTok (frT w) (refuseIf (bitField w 12 0 != 0) .mustBeZero (.ok (f (frT w) (frA w))))
def decodeYC3 (f : Nat → Nat → Nat → Instr) (w : Nat) : DecResult :=
  withTok (frT w) (refuseIf (bitField w 6 0 != 0) .mustBeZero (.ok (f (frT w) (frA w) (frB w))))

def decodeYop (op w : Nat) (cs : List Nat) : DecResult :=
  match op with
  | 0 => .error .opcodeZero
  | 1 => noConts cs (decodeYC false false .cp w)
  | 2 => decodeYCcpm .cpm w cs
  | 3 => noConts cs (decodeYC false true .gath w)
  | 4 => noConts cs (decodeYC true false .scat w)
  | 5 => decodeYCfill .fill w cs
  | 8 => decodeYCsb .sbind w cs
  | 9 => noConts cs (decodeYC2 .sunb w)
  | 10 => noConts cs (decodeYC2 .dfl w)
  | 16 => noConts cs (decodeYC3 .flush w)
  | 17 => noConts cs (decodeYC3 .inv w)
  | _ => .error .opcodeUnassigned
/-- A Y group (R51). -/
def decodeY (w : Nat) (cs : List Nat) : DecResult := decodeYop (bitField w 31 25) w cs

def frCls (w : Nat) : Option RClass := rclassOf (bitField w 6 5)
/-- The F extension word: fn, c, zeros (R41). -/
def fExt (cs : List Nat) (k : Nat → Nat → DecResult) : DecResult :=
  match cs with
  | [x] => refuseIf (bitField x 21 0 != 0) .mustBeZero (k (bitField x 31 28) (bitField x 27 22))
  | _ => .error .contWords

def decodeFRw (f : Nat → Nat → Nat → RClass → FWidth → Instr) (w : Nat) : DecResult :=
  withTok (frT w) (withPair (frA w) (refuseIf (bitField w 2 0 != 0) .mustBeZero (withCode (frCls w) fun cls =>
    .ok (f (frT w) (frA w) (frB w) cls (fWidthOf (bitField w 4 3))))))
def decodeFRamo (f : AtomicOp → Nat → Nat → Nat → RClass → FWidth → Scope → Instr) (w : Nat) (cs : List Nat) : DecResult :=
  fExt cs fun fn c => withTok (frT w) (withPair (frA w) (refuseIf (c != 0) .mustBeZero
    (refuseIf (decide (bitField w 4 3 < 2)) .atomicWidth (withCode (atomicOf fn) fun op => withCode (frCls w) fun cls =>
      withCode (scopeOf (bitField w 2 0)) fun sc =>
        .ok (f op (frT w) (frA w) (frB w) cls (fWidthOf (bitField w 4 3)) sc)))))
def decodeFRcas (f : Nat → Nat → Nat → Nat → RClass → FWidth → Scope → Instr) (w : Nat) (cs : List Nat) : DecResult :=
  fExt cs fun fn c => withTok (frT w) (withPair (frA w) (refuseIf (fn != 0) .reservedValue
    (refuseIf (decide (bitField w 4 3 < 2)) .atomicWidth (withCode (frCls w) fun cls =>
      withCode (scopeOf (bitField w 2 0)) fun sc =>
        .ok (f (frT w) (frA w) (frB w) c cls (fWidthOf (bitField w 4 3)) sc)))))
def decodeFRrmc (f : Nat → Nat → Nat → Nat → RClass → FWidth → Instr) (w : Nat) (cs : List Nat) : DecResult :=
  fExt cs fun fn c => withTok (frT w) (withPair (frA w) (refuseIf (fn != 0) .reservedValue
    (refuseIf (bitField w 2 0 != 0) .mustBeZero (withCode (frCls w) fun cls =>
      .ok (f (frT w) (frA w) (frB w) c cls (fWidthOf (bitField w 4 3)))))))
def decodeFRtld (f : Nat → Nat → Nat → RClass → Instr) (w : Nat) : DecResult :=
  withTok (frT w) (withPair (frA w) (refuseIf (bitField w 4 0 != 0) .mustBeZero
    (refuseIf (decide (48 ≤ frB w)) .streamTile (withCode (frCls w) fun cls => .ok (f (frT w) (frA w) (frB w) cls)))))
def decodeFRfence (f : Nat → Nat → Instr) (w : Nat) : DecResult :=
  withTok (frT w) (refuseIf (frA w != 0 || bitField w 12 10 != 0 || bitField w 6 0 != 0) .mustBeZero
    (refuseIf (bitField w 9 7 == 0) .reservedValue (.ok (f (frT w) (bitField w 9 7)))))
def decodeFR3 (f : Nat → Nat → Nat → Instr) (w : Nat) : DecResult :=
  withTok (frT w) (withPair (frA w) (refuseIf (bitField w 6 0 != 0) .mustBeZero (.ok (f (frT w) (frA w) (frB w)))))
def decodeFRg (f : Nat → Nat → Nat → RClass → Option Shape4 → Instr) (w : Nat) (cs : List Nat) : DecResult :=
  withTok (frT w) (withPair (frA w) (withRec (frB w) cs fun rec => refuseIf (bitField w 4 0 != 0) .mustBeZero
    (withCode (frCls w) fun cls => .ok (f (frT w) (frA w) (frB w) cls rec))))
def decodeFRp (f : Nat → Instr) (w : Nat) : DecResult :=
  withTok (frT w) (refuseIf (bitField w 18 0 != 0) .mustBeZero (.ok (f (frT w))))

def decodeFop (op w : Nat) (cs : List Nat) : DecResult :=
  match op with
  | 0 => .error .opcodeZero
  | 1 => noConts cs (decodeFRw .rld w)
  | 2 => noConts cs (decodeFRw .rst w)
  | 3 => decodeFRamo .ramo w cs
  | 4 => decodeFRcas .ramocas w cs
  | 5 => decodeFRrmc .rmc w cs
  | 6 => noConts cs (decodeFRtld .rtld w)
  | 8 => noConts cs (decodeFRfence .rfence w)
  | 9 => noConts cs (decodeFR3 .tkget w)
  | 10 => noConts cs (decodeFR3 .tkwait w)
  | 11 => noConts cs (decodeFR3 .tkret w)
  | 16 => decodeFRg .rget w cs
  | 17 => decodeFRg .rput w cs
  | 24 => noConts cs (decodeFR3 .wdpub w)
  | 25 => noConts cs (decodeFRp .pbar w)
  | _ => .error .opcodeUnassigned
/-- An F group (R51). -/
def decodeF (w : Nat) (cs : List Nat) : DecResult := decodeFop (bitField w 31 25) w cs

/-- The decoder of the Castal 9: the engine the lane's tag names, the instruction word, the continuation words. -/
def decode (e : Engine) (w : Nat) (cs : List Nat) : DecResult :=
  match e with
  | .c => decodeC w cs
  | .v => decodeV w cs
  | .m => decodeM w cs
  | .y => decodeY w cs
  | .f => decodeF w cs

/-! ### The encoder, from the same tables -/

def encCr (op d a b : Nat) : Nat := op * 2 ^ 25 + d * 2 ^ 19 + a * 2 ^ 13 + b * 2 ^ 7
def encCi (op d a i : Nat) : Nat := op * 2 ^ 25 + d * 2 ^ 19 + a * 2 ^ 13 + i
def imm13 (i : Int) : Nat := unsigned 13 i
def encCf (op d a pos len : Nat) : Nat := op * 2 ^ 25 + d * 2 ^ 19 + a * 2 ^ 13 + pos * 2 ^ 7 + (len - 1) * 2
def encCb (op a b o : Nat) : Nat := op * 2 ^ 25 + a * 2 ^ 19 + b * 2 ^ 13 + o
def encCj (op d o : Nat) : Nat := op * 2 ^ 25 + d * 2 ^ 19 + o
def encCl (op k st : Nat) (cnt : LoopCount) (fin : Nat) : Nat :=
  match cnt with
  | .imm n => op * 2 ^ 25 + k * 2 ^ 23 + 2 ^ 22 + st * 2 ^ 19 + n * 2 ^ 7 + fin
  | .reg r => op * 2 ^ 25 + k * 2 ^ 23 + st * 2 ^ 19 + r * 2 ^ 7 + fin
def encCp (op d win idx : Nat) : Nat := op * 2 ^ 25 + d * 2 ^ 19 + win * 2 ^ 13 + idx * 2
def encCa (op d a b fn sc : Nat) : Nat := op * 2 ^ 25 + d * 2 ^ 19 + a * 2 ^ 13 + b * 2 ^ 7 + fn * 2 ^ 3 + sc
def encCm (op4 w d a o : Nat) : Nat := op4 * 2 ^ 28 + w * 2 ^ 25 + d * 2 ^ 19 + a * 2 ^ 13 + o * 2
def encCu (op6 d i : Nat) : Nat := op6 * 2 ^ 26 + d * 2 ^ 20 + i
def encVr (op d a b : Nat) (sp : Bool) : Nat := op * 2 ^ 25 + d * 2 ^ 17 + a * 2 ^ 9 + b * 2 + boolBit sp
def encVm (op t a o : Nat) (sp : Bool) : Nat := op * 2 ^ 25 + t * 2 ^ 17 + a * 2 ^ 11 + o * 2 + boolBit sp
def encOpt (r : Rnd) (fn x fmt k : Nat) : Nat := r.code * 2 ^ 29 + fn * 2 ^ 24 + x * 2 ^ 18 + fmt * 2 ^ 10 + k
def encOpt0 : Option Rnd → List Nat
  | none => []
  | some r => [encOpt r 0 0 0 0]
def encMc (op a t h cls fl : Nat) : Nat := op * 2 ^ 25 + a * 2 ^ 17 + t * 2 ^ 11 + h * 2 ^ 5 + cls * 2 ^ 3 + fl
def encYc (op t a b hint kd : Nat) : Nat := op * 2 ^ 25 + t * 2 ^ 19 + a * 2 ^ 13 + b * 2 ^ 7 + hint * 2 ^ 5 + kd * 2 ^ 4
def encFr (op t a b cls w sc : Nat) : Nat :=
  op * 2 ^ 25 + t * 2 ^ 19 + a * 2 ^ 13 + b * 2 ^ 7 + cls * 2 ^ 5 + w * 2 ^ 3 + sc
def encExt (fn c : Nat) : Nat := fn * 2 ^ 28 + c * 2 ^ 22
def encRec : Option Shape4 → List Nat
  | none => []
  | some s => [s.w0, s.w1, s.w2, s.w3]

/-- The group of an instruction: its engine and its words, the continuation words after the instruction word. A device
step has none. -/
def encode : Instr → Option (Engine × List Nat)
  | .add d a b => some (.c, [encCr 1 d a b])
  | .sub d a b => some (.c, [encCr 2 d a b])
  | .mul d a b => some (.c, [encCr 3 d a b])
  | .mulh d a b => some (.c, [encCr 4 d a b])
  | .mulhn d a b => some (.c, [encCr 5 d a b])
  | .div d a b => some (.c, [encCr 6 d a b])
  | .divn d a b => some (.c, [encCr 7 d a b])
  | .rem d a b => some (.c, [encCr 8 d a b])
  | .remn d a b => some (.c, [encCr 9 d a b])
  | .and d a b => some (.c, [encCr 10 d a b])
  | .or d a b => some (.c, [encCr 11 d a b])
  | .xor d a b => some (.c, [encCr 12 d a b])
  | .sll d a b => some (.c, [encCr 13 d a b])
  | .srl d a b => some (.c, [encCr 14 d a b])
  | .sra d a b => some (.c, [encCr 15 d a b])
  | .slt d a b => some (.c, [encCr 16 d a b])
  | .sltn d a b => some (.c, [encCr 17 d a b])
  | .min d a b => some (.c, [encCr 18 d a b])
  | .minn d a b => some (.c, [encCr 19 d a b])
  | .max d a b => some (.c, [encCr 20 d a b])
  | .maxn d a b => some (.c, [encCr 21 d a b])
  | .clz d a => some (.c, [encCr 22 d a 0])
  | .ctz d a => some (.c, [encCr 23 d a 0])
  | .popc d a => some (.c, [encCr 24 d a 0])
  | .addi d a imm => some (.c, [encCi 25 d a (imm13 imm)])
  | .andi d a imm => some (.c, [encCi 26 d a (imm13 imm)])
  | .ori d a imm => some (.c, [encCi 27 d a (imm13 imm)])
  | .xori d a imm => some (.c, [encCi 28 d a (imm13 imm)])
  | .slli d a sh => some (.c, [encCi 29 d a sh])
  | .srli d a sh => some (.c, [encCi 30 d a sh])
  | .srai d a sh => some (.c, [encCi 31 d a sh])
  | .slti d a imm => some (.c, [encCi 32 d a (imm13 imm)])
  | .sltni d a imm => some (.c, [encCi 33 d a (imm13 imm)])
  | .ext d a pos len => some (.c, [encCf 34 d a pos len])
  | .extn d a pos len => some (.c, [encCf 35 d a pos len])
  | .ins d a pos len => some (.c, [encCf 36 d a pos len])
  | .beq a b off => some (.c, [encCi 37 a b (imm13 off)])
  | .bne a b off => some (.c, [encCi 38 a b (imm13 off)])
  | .blt a b off => some (.c, [encCi 39 a b (imm13 off)])
  | .bltn a b off => some (.c, [encCi 40 a b (imm13 off)])
  | .bge a b off => some (.c, [encCi 41 a b (imm13 off)])
  | .bgen a b off => some (.c, [encCi 42 a b (imm13 off)])
  | .jal d off => some (.c, [encCj 43 d (unsigned 19 off)])
  | .callg d slot => some (.c, [encCj 44 d slot])
  | .jalr d a imm => some (.c, [encCi 45 d a (imm13 imm)])
  | .loop k cnt fin => some (.c, [encCl 46 k 0 cnt fin])
  | .loopp k stages cnt fin => some (.c, [encCl 47 k (stages - 1) cnt fin])
  | .ldp d win idx => some (.c, [encCp 48 d win idx])
  | .amo op sc d a b => some (.c, [encCa 49 d a b op.code sc.code])
  | .amocas sc d a b => some (.c, [encCa 50 d a b 0 sc.code])
  | .fence kind sc => some (.c, [encCa 51 0 0 0 kind.code sc.code])
  | .bar sc => some (.c, [encCa 52 0 0 0 0 sc.code])
  | .tlwait tl a => some (.c, [encCa 53 0 a 0 tl.code 0])
  | .tlread tl d => some (.c, [encCa 54 d 0 0 tl.code 0])
  | .tokw d a => some (.c, [encCr 55 d a 0])
  | .tokt d a => some (.c, [encCr 56 d a 0])
  | .probe a b off => some (.c, [encCi 57 a b (imm13 off)])
  | .launch d a => some (.c, [encCr 58 d a 0])
  | .waitch d a => some (.c, [encCr 59 d a 0])
  | .taskst d a => some (.c, [encCr 60 d a 0])
  | .mfk d k => some (.c, [encCi 61 d 0 k])
  | .mtk a k => some (.c, [encCi 62 0 a k])
  | .eret => some (.c, [encCr 63 0 0 0])
  | .nop => some (.c, [encCr 64 0 0 0])
  | .trap code => some (.c, [encCi 65 0 0 code])
  | .secreq d a b => some (.c, [encCr 66 d a b])
  | .commit d a b => some (.c, [encCr 67 d a b])
  | .chk a b off => some (.c, [encCi 68 a b (imm13 off)])
  | .vadd d a b sp rnd => some (.v, [encVr 1 d.code a.code b.code sp] ++ encOpt0 rnd)
  | .vsub d a b sp rnd => some (.v, [encVr 2 d.code a.code b.code sp] ++ encOpt0 rnd)
  | .vmul d a b sp rnd => some (.v, [encVr 3 d.code a.code b.code sp] ++ encOpt0 rnd)
  | .vfma d a b sp rnd => some (.v, [encVr 4 d.code a.code b.code sp] ++ encOpt0 rnd)
  | .vfnma d a b sp rnd => some (.v, [encVr 5 d.code a.code b.code sp] ++ encOpt0 rnd)
  | .vmin d a b sp rnd => some (.v, [encVr 6 d.code a.code b.code sp] ++ encOpt0 rnd)
  | .vmax d a b sp rnd => some (.v, [encVr 7 d.code a.code b.code sp] ++ encOpt0 rnd)
  | .vabs d a sp rnd => some (.v, [encVr 8 d.code a.code 0 sp] ++ encOpt0 rnd)
  | .vneg d a sp rnd => some (.v, [encVr 9 d.code a.code 0 sp] ++ encOpt0 rnd)
  | .vand d a b sp rnd => some (.v, [encVr 10 d.code a.code b.code sp] ++ encOpt0 rnd)
  | .vor d a b sp rnd => some (.v, [encVr 11 d.code a.code b.code sp] ++ encOpt0 rnd)
  | .vxor d a b sp rnd => some (.v, [encVr 12 d.code a.code b.code sp] ++ encOpt0 rnd)
  | .vnot d a sp rnd => some (.v, [encVr 13 d.code a.code 0 sp] ++ encOpt0 rnd)
  | .vsll d a b sp rnd => some (.v, [encVr 14 d.code a.code b.code sp] ++ encOpt0 rnd)
  | .vsrl d a b sp rnd => some (.v, [encVr 15 d.code a.code b.code sp] ++ encOpt0 rnd)
  | .vsra d a b sp rnd => some (.v, [encVr 16 d.code a.code b.code sp] ++ encOpt0 rnd)
  | .vcmp cond d a b sp rnd => some (.v, [encVr 17 d.code a.code b.code sp, encOpt rnd cond.code 0 0 0])
  | .vsel d a b x sp rnd => some (.v, [encVr 18 d.code a.code b.code sp, encOpt rnd 0 x 0 0])
  | .vcvt d a fmt sp rnd => some (.v, [encVr 19 d.code a.code 0 sp, encOpt rnd 0 0 fmt 0])
  | .vmov d a sp rnd => some (.v, [encVr 20 d.code a.code 0 sp] ++ encOpt0 rnd)
  | .vsplat d x fmt sp rnd => some (.v, [encVr 21 d.code 0 0 sp, encOpt rnd 0 x fmt 0])
  | .vxtr a x k sp rnd => some (.v, [encVr 22 0 (4 * a) 0 sp, encOpt rnd 0 x 0 k])
  | .vtag d a fmt sp rnd => some (.v, [encVr 23 d.code a.code 0 sp, encOpt rnd 0 0 fmt 0])
  | .vclr d sp rnd => some (.v, [encVr 24 d.code 0 0 sp] ++ encOpt0 rnd)
  | .vcommit d a b x sp rnd => some (.v, [encVr 25 d.code a.code b.code sp, encOpt rnd 0 x 0 0])
  | .vpchk d a sp rnd => some (.v, [encVr 26 d.code a.code 0 sp] ++ encOpt0 rnd)
  | .vld t a off sp rnd => some (.v, [encVm 32 (4 * t) a (unsigned 10 off) sp] ++ encOpt0 rnd)
  | .vst t a off rnd => some (.v, [encVm 33 (4 * t) a (unsigned 10 off) false] ++ encOpt0 rnd)
  | .vlds t a off sp rnd => some (.v, [encVm 34 (4 * t) a (unsigned 10 off) sp] ++ encOpt0 rnd)
  | .vsts t a off rnd => some (.v, [encVm 35 (4 * t) a (unsigned 10 off) false] ++ encOpt0 rnd)
  | .vrotr d a k sp rnd => some (.v, [encVr 40 d.code a.code 0 sp, encOpt rnd 0 0 0 k])
  | .vrotc d a k sp rnd => some (.v, [encVr 41 d.code a.code 0 sp, encOpt rnd 0 0 0 k])
  | .vbcr d a k sp rnd => some (.v, [encVr 42 d.code a.code 0 sp, encOpt rnd 0 0 0 k])
  | .vbcc d a k sp rnd => some (.v, [encVr 43 d.code a.code 0 sp, encOpt rnd 0 0 0 k])
  | .vredr op d a sp rnd => some (.v, [encVr 44 d.code a.code 0 sp, encOpt rnd op.code 0 0 0])
  | .vredc op d a sp rnd => some (.v, [encVr 45 d.code a.code 0 sp, encOpt rnd op.code 0 0 0])
  | .vscanr op d a sp rnd => some (.v, [encVr 46 d.code a.code 0 sp, encOpt rnd op.code 0 0 0])
  | .vscanc op d a sp rnd => some (.v, [encVr 47 d.code a.code 0 sp, encOpt rnd op.code 0 0 0])
  | .vperm d a b sp rnd => some (.v, [encVr 48 d.code a.code b.code sp] ++ encOpt0 rnd)
  | .vtrn d a sp rnd => some (.v, [encVr 49 (4 * d) (4 * a) 0 sp] ++ encOpt0 rnd)
  | .vexp2 d a sp rnd => some (.v, [encVr 56 d.code a.code 0 sp] ++ encOpt0 rnd)
  | .vlog2 d a sp rnd => some (.v, [encVr 57 d.code a.code 0 sp] ++ encOpt0 rnd)
  | .vrcp d a sp rnd => some (.v, [encVr 58 d.code a.code 0 sp] ++ encOpt0 rnd)
  | .vrsq d a sp rnd => some (.v, [encVr 59 d.code a.code 0 sp] ++ encOpt0 rnd)
  | .vtanh d a sp rnd => some (.v, [encVr 60 d.code a.code 0 sp] ++ encOpt0 rnd)
  | .vsig d a sp rnd => some (.v, [encVr 61 d.code a.code 0 sp] ++ encOpt0 rnd)
  | .vrand d fmt sp => some (.v, [encVr 62 d.code 0 0 sp, encOpt .latched 0 0 fmt 0])
  | .vbscale d a fmt sp rnd => some (.v, [encVr 64 d.code a.code 0 sp, encOpt rnd 0 0 fmt 0])
  | .vqmx d a fmt sp rnd => some (.v, [encVr 65 d.code a.code 0 sp, encOpt rnd 0 0 fmt 0])
  | .vqlx d a fmt sp rnd => some (.v, [encVr 66 d.code a.code 0 sp, encOpt rnd 0 0 fmt 0])
  | .vqcb d a fmt k sp rnd => some (.v, [encVr 67 d.code a.code 0 sp, encOpt rnd 0 0 fmt k])
  | .vdq d a fmt k sp rnd => some (.v, [encVr 68 d.code a.code 0 sp, encOpt rnd 0 0 fmt k])
  | .vsplit d a fmt k sp rnd => some (.v, [encVr 69 d.code a.code 0 sp, encOpt rnd 0 0 fmt k])
  | .vcbld a fmt k => some (.v, [encVr 70 0 a.code 0 false, encOpt .latched 0 0 fmt k])
  | .mmw t h cas dup rec => some (.m, [encMc 1 0 t h 0 (cas + 4 * boolBit dup)] ++ encRec rec)
  | .mma a t h cas sw rec => some (.m, [encMc 2 a.code t h 0 (cas + 4 * boolBit sw)] ++ encRec rec)
  | .mmar a t h cls cas sw rec => some (.m, [encMc 3 (4 * a) t h cls.code (cas + 4 * boolBit sw)] ++ encRec rec)
  | .task a t h rec => some (.m, [encMc 4 a.code t h 0 0] ++ encRec rec)
  | .tfwd a t h rec => some (.m, [encMc 5 a.code t h 0 0] ++ encRec rec)
  | .acal a b t => some (.m, [encCr 8 a b t])
  | .acfr a t => some (.m, [encCr 9 a 0 t])
  | .aczr a t => some (.m, [encCr 10 a 0 t])
  | .acdr d t h cas rec => some (.m, [encMc 11 (4 * d) t h 0 cas] ++ encRec rec)
  | .splr t h rel rec => some (.m, [encMc 16 0 t h 0 (boolBit rel)] ++ encRec rec)
  | .spmv a t h cas rec => some (.m, [encMc 17 (4 * a) t h 0 cas] ++ encRec rec)
  | .spjn d t h rec => some (.m, [encMc 18 (4 * d) t h 0 0] ++ encRec rec)
  | .spmg a t => some (.m, [encCr 19 a 0 t])
  | .spage a t => some (.m, [encCr 20 a 0 t])
  | .sprd a b t => some (.m, [encCr 21 a b t])
  | .cp t a b hint => some (.y, [encYc 1 t a b hint.code 0])
  | .cpm t a b hint follow => some (.y, [encYc 2 t a b hint.code 0, follow])
  | .gath t a b hint => some (.y, [encYc 3 t a b hint.code 0])
  | .scat t a b hint => some (.y, [encYc 4 t a b hint.code 0])
  | .fill t a b hint rec => some (.y, [encYc 5 t a b hint.code 0] ++ encRec rec)
  | .sbind t a b hint drain rec => some (.y, [encYc 8 t a b hint.code (boolBit drain)] ++ encRec rec)
  | .sunb t a => some (.y, [encYc 9 t a 0 0 0])
  | .dfl t a => some (.y, [encYc 10 t a 0 0 0])
  | .flush t a b => some (.y, [encYc 16 t a b 0 0])
  | .inv t a b => some (.y, [encYc 17 t a b 0 0])
  | .rld t a b cls w => some (.f, [encFr 1 t a b cls.code w.code 0])
  | .rst t a b cls w => some (.f, [encFr 2 t a b cls.code w.code 0])
  | .ramo op t a b cls w sc => some (.f, [encFr 3 t a b cls.code w.code sc.code, encExt op.code 0])
  | .ramocas t a b c cls w sc => some (.f, [encFr 4 t a b cls.code w.code sc.code, encExt 0 c])
  | .rmc t a b c cls w => some (.f, [encFr 5 t a b cls.code w.code 0, encExt 0 c])
  | .rtld t a b cls => some (.f, [encFr 6 t a b cls.code 0 0])
  | .rfence t mask => some (.f, [encFr 8 t 0 mask 0 0 0])
  | .tkget t a b => some (.f, [encFr 9 t a b 0 0 0])
  | .tkwait t a b => some (.f, [encFr 10 t a b 0 0 0])
  | .tkret t a b => some (.f, [encFr 11 t a b 0 0 0])
  | .rget t a b cls rec => some (.f, [encFr 16 t a b cls.code 0 0] ++ encRec rec)
  | .rput t a b cls rec => some (.f, [encFr 17 t a b cls.code 0 0] ++ encRec rec)
  | .wdpub t a b => some (.f, [encFr 24 t a b 0 0 0])
  | .pbar t => some (.f, [encFr 25 t 0 0 0 0 0])
  | .ld w d a off => some (.c, [encCm 10 w.code d a (unsigned 12 off)])
  | .st w d a off => some (.c, [encCm 11 w.code d a (unsigned 12 off)])
  | .lah d imm => some (.c, [encCu 62 d (unsigned 20 imm)])
  | .lih d imm => some (.c, [encCu 63 d (unsigned 20 imm)])
  | .lineDelivery _ _ => none
  | .resultReady _ _ _ => none
  | .loadReturn _ _ _ => none
  | .tokenCompletion _ _ _ => none
  | .copyGranule _ _ => none
  | .spoutPrefetch _ _ _ => none
  | .drainWrite _ _ _ => none
  | .barrierCompletion _ => none
  | .partitionBarrierCompletion _ => none
  | .cascadeServe _ _ => none
  | .epilogueRow _ _ => none
  | .taskDeadline _ _ => none
  | .passCommit _ _ => none
  | .rowScatter _ _ => none
  | .parkedRowRescatter _ _ => none
  | .tfwdRowsAtPeer _ _ => none
  | .tfwdRowsReturn _ _ => none
  | .freeze _ _ => none
  | .trapEntry _ _ => none
  | .dumpedResultWrite _ _ _ => none
  | .preemptionRequest _ _ => none
  | .noProgressWatchdog _ _ => none
  | .kctxSave _ _ => none
  | .kctxRestore _ _ => none
  | .kctxRelease _ _ => none
  | .kctxNothing _ _ => none
  | .xinvAllStage1 _ _ => none
  | .xinvPage _ _ _ => none
  | .xinvStage2 _ _ => none
  | .rangeTableLoad _ _ _ _ => none
  | .cacheShareWrite _ _ _ => none
  | .noiseModeWrite _ _ _ _ => none
  | .modeWrite _ _ _ => none
  | .activeMaskWrite _ _ _ => none
  | .boardWrite _ _ _ => none
  | .preempt _ _ _ => none
  | .preemptForMigration _ _ _ => none
  | .recall _ _ _ => none
  | .lendWrite _ _ _ => none
  | .traceBufferWrite _ _ _ => none
  | .registerWrite _ _ _ => none
  | .frameBoundary _ => none
  | .slotBoundary _ => none
  | .splitUnitServe _ => none
  | .rillRowMultiply _ _ => none
  | .flitHop _ => none
  | .flitCrcRetry _ => none
  | .remoteRequestPerform _ => none
  | .remoteResponse _ => none
  | .linkTrainingRound _ _ _ => none
  | .linkRetrainRequest _ _ => none
  | .linkEyeEvent _ _ _ => none
  | .skewMeasure _ _ => none
  | .launchTake _ => none
  | .unitPlacement _ => none
  | .launchEnd _ => none
  | .debugStop _ _ => none
  | .scrubVisit _ => none
  | .rowClose _ _ => none
  | .hbmEyeEvent _ _ => none
  | .laneRepair _ _ => none
  | .spareLaneRetrainDone _ _ => none
  | .errorCountsRead _ => none
  | .extend _ => none
  | .quote _ => none
  | .readmr _ => none
  | .tkey _ => none
  | .tkdel _ => none
  | .nonce _ => none
  | .unlock _ => none
  | .checkAlarm _ _ => none
  | .mateAlarm _ _ => none
  | .packageReset _ => none
  | .bootImageLoad _ _ => none
  | .dieReady _ => none
  | .thermalThrottle _ => none
  | .thermalRecovery _ => none
  | .profileWrite _ _ => none
  | .telemetryUpdate _ _ _ _ => none
  | .hostCxlAccess _ => none
  | .debugPortAccess _ => none
  | .amoOldValueReturn _ _ _ => none
  | .storePerformedAtHome _ _ _ => none
  | .responseAcknowledgement _ => none

/-! ### Lines (R22 to R28) -/

/-- What a lane holds (R24); tags 8 to 15 are reserved. -/
inductive LaneTag where
  | nothing | instr (e : Engine) | cont | pre | reserved
  deriving DecidableEq, Repr

def laneTagOf : Nat → LaneTag
  | 0 => .nothing
  | 1 => .instr .c
  | 2 => .instr .v
  | 3 => .instr .m
  | 4 => .instr .y
  | 5 => .instr .f
  | 6 => .cont
  | 7 => .pre
  | _ => .reserved

/-- The tag of lane i (1 to 7) in a header (R23). -/
def headerTag (h i : Nat) : LaneTag := laneTagOf (h / 16 ^ (i - 1) % 16)
/-- The MEET bit (R23). -/
def headerMeet (h : Nat) : Bool := bitField h 31 31 == 1

/-- An instruction group (R26, R27): its lane, engine, word, prefixes and continuation words, in line order. -/
structure Group where
  lane   : Nat
  engine : Engine
  word   : Nat
  pres   : List Nat
  conts  : List Nat
  deriving DecidableEq, Repr

/-- A prefix word's kind: 1 `rep`, 2 `stage`, anything else a reserved code (R27, R43, R44). -/
def preCode (w : Nat) : Nat := bitField w 31 25

/-- The groups of a line from lane i on, with the group being collected and the prefixes waiting for an instruction
(R26, R27); `none` when the line is illegal by one of R29's structural causes. -/
def lineGroups (h : Nat) : List Nat → Nat → Option Group → List Nat → List Group → Option (List Group)
  | [], _, cur, pend, acc =>
    if pend.isEmpty then some (acc ++ cur.toList) else none
  | w :: ws, i, cur, pend, acc =>
    match headerTag h i with
    | .nothing => lineGroups h ws (i + 1) cur pend acc
    | .instr e => lineGroups h ws (i + 1) (some ⟨i, e, w, pend, []⟩) [] (acc ++ cur.toList)
    | .cont =>
      match cur with
      | some g =>
        if !pend.isEmpty || g.conts.length == 4 then none
        else lineGroups h ws (i + 1) (some { g with conts := g.conts ++ [w] }) pend acc
      | none => none
    | .pre =>
      if pend.any (fun p => preCode p == preCode w && (preCode w == 1 || preCode w == 2)) then none
      else lineGroups h ws (i + 1) cur (pend ++ [w]) acc
    | .reserved => none

/-! ### The host's question about one table row -/

/-- Zero continuation words of the count an encoding needs (R37, R39 to R41): none, one or four. -/
def zeroConts : List (List Nat) := [[], [0], [0, 0, 0, 0]]

/-- The first of the candidate groups that decodes. -/
def firstDecoded : List (Engine × List Nat) → Nat → Option (Engine × List Nat × Instr)
  | [], _ => none
  | (e, cs) :: rest, w =>
    match decode e w cs with
    | .ok i => some (e, cs, i)
    | .error _ => firstDecoded rest w

/-- The engines in tag order (R24), each with the continuation words it may need, all zero. An instruction word does
not name its engine (log 6): the first engine whose decoder takes the word is chosen. -/
def tableCandidates : List (Engine × List Nat) :=
  [Engine.c, .v, .m, .y, .f].flatMap fun e => zeroConts.map fun cs => (e, cs)

/-- The instruction the decoder reads from a table word. -/
def decodeTableWord (nbits w : Nat) : Option Instr :=
  (firstDecoded tableCandidates (w % 2 ^ nbits % 2 ^ 32)).map fun r => r.2.2

end Sys2Proof
end

