-- ==== Sys2Proof/Machine/State.lean ====
section
/-!
DEFINITION. Sys2Proof/Machine/State.lean: the state of the machine as plain data, the reasons a step can stop, and the
state after reset. One package or more of eight dies; each die its cores, memories and units (R9 to R13). INVENTORY.md
lists every field with the rule that names it.
-/
namespace Sys2Proof.Machine
open Sys2Proof

/-- Why the machine stops with a fault. None of them is a fault of the hardware: hardware faults are trap entries. -/
inductive Fault where
  /-- raised by `step`: the turn names a die, core or unit that the package does not have. Safe: no such turn exists. -/
  | unitAbsent
  /-- raised by `step`: the turn asks for an instruction of a program as a device step, or for a device step that only
  a register write of a core brings about. Safe: no such turn exists. -/
  | notADeviceStep
  deriving DecidableEq, Repr

/-- Why the model refuses to run an instruction. -/
inductive Refusal where
  /-- raised by an arm of `exec` whose instruction has no meaning yet. Safe. -/
  | notModelled (mnemonic : String)
  deriving DecidableEq, Repr

/-! ### Memory -/

/-- A byte memory: (address, byte) pairs with rising addresses and no listed zero; an unlisted address reads as 0
(log 3). -/
structure Memory where
  cells : List Host.Cell
  deriving DecidableEq, Repr

/-- The canonical form of a list of cells whose addresses all exceed the bound before it. -/
def Memory.wfFrom : List Host.Cell → Nat → Bool
  | [], _ => true
  | (a, b) :: t, lo => decide (lo ≤ a) && decide (b ≠ 0#8) && Memory.wfFrom t (a + 1)

/-- The canonical form of a memory. -/
def Memory.wf (m : Memory) : Bool := Memory.wfFrom m.cells 0

/-- A memory with the state the HBM4E controller and the basin keep per 64-byte line (R410, R411, R422): the lines
marked uncorrectable, the symbols in error of a line, and the key a line was last written under (unlisted: the
platform key of reset, 0). -/
structure Store where
  bytes : Memory
  marks : List Nat
  errs  : List (Nat × Nat)
  keys  : List (Nat × Nat)
  deriving DecidableEq, Repr

def Store.empty : Store := ⟨⟨[]⟩, [], [], []⟩

/-! ### Registers of a core -/

/-- A scalar register: value, pending bit, poison bit (R98). -/
structure SReg where
  val    : W64
  pend   : Bool
  poison : Bool
  deriving DecidableEq, Repr

/-- A tile register: 1024 containers, a poison bit each, the 128-byte side store, the format tag and the origin record
(R76, R128, R131). -/
structure Tile where
  cells  : List W32
  poison : List Bool
  side   : List Byte
  tag    : Nat
  origin : W64
  deriving DecidableEq, Repr

/-- A cleared tile (R128, R145): zero containers, empty side store, no poison, cleared origin. -/
def Tile.zero (tag : Nat) : Tile :=
  ⟨List.replicate 1024 0, List.replicate 1024 false, List.replicate 128 0, tag, 0⟩

/-- One loop level (R121). -/
structure LoopLevel where
  iter  : Nat
  idx   : Nat
  start : Nat
  fin   : Nat
  deriving DecidableEq, Repr

/-- The loop state (R121, R126). -/
structure LoopState where
  l0   : LoopLevel
  l1   : LoopLevel
  l2   : LoopLevel
  d    : Nat
  pipe : Bool
  plvl : Nat
  stg  : Nat
  deriving DecidableEq, Repr

def LoopLevel.zero : LoopLevel := ⟨0, 0, 0, 0⟩
def LoopState.zero : LoopState := ⟨.zero, .zero, .zero, 0, false, 0, 0⟩

/-- What a line's control transfer has decided so far (R114, R121, R263, R274). -/
inductive Decision where
  | undecided
  | notTaken
  | taken (target : Nat)
  | loop (piped : Bool) (k stages cnt fin : Nat)
  /-- as a saved context keeps it (R274): taken with its target, or not, and the count of a `loop` or `loopp` -/
  | kept (taken : Bool) (target cnt : Nat)
  deriving DecidableEq, Repr

/-- One bank of trap registers (R267) with the loop shadow (R123) and the line decision kept at entry (R263). -/
structure TrapBank where
  kcause : W64
  kepc   : W64
  ktval  : W64
  kmpc   : W64
  kxsyn  : W64
  pp     : Nat
  skip   : Bool
  ktvec  : W64
  kscr0  : W64
  kscr1  : W64
  shadow : LoopState
  dec    : Decision
  /-- the line KEPC named at entry: the kept decision counts only while KEPC.LINE still names it (R263) -/
  line   : Nat
  /-- whether the reported fault was one of a C lane, and the delivery rank of its group (R263) -/
  clane  : Bool
  rank   : Nat
  deriving DecidableEq, Repr

def TrapBank.reset : TrapBank := ⟨0, 0, 0, 0, 0, 0, false, 0, 0, 0, .zero, .undecided, 0, false, 0⟩

/-- The K registers of a context that are plain words (R86, R87, R113, R118, R165, R169, R175, R214, R231, R237, R240,
R268, R374, R378, R399). -/
structure KRegs where
  kmode  : W64
  kvstat : W64
  kcstat : W64
  kmstat : W64
  knoise : W64
  knlogb : W64
  knlogp : W64
  kgot   : W64
  kpos   : W64
  kbasin : W64
  kbcache : W64
  ksemb  : W64
  kdtab  : W64
  kscyc  : W64
  kslot  : W64
  klrec  : W64
  deriving DecidableEq, Repr

def KRegs.reset : KRegs := ⟨1, 0, 0, 0, 0, 0, 0, 0, 0, 0, 0, 0, 0, 0, 255, 0⟩

/-- The translation, context-operation and debug registers (R240, R268, R399). -/
structure XRegs where
  krtab   : W64
  kptroot : W64
  ks2rtab : W64
  ks2root : W64
  kdirty  : W64
  ktoff   : W64
  kpmap   : W64
  kctx    : W64
  ksave   : W64
  kdbgc   : W64
  kstopc  : W64
  kbrk0   : W64
  kbrk1   : W64
  kcmsel  : W64
  deriving DecidableEq, Repr

def XRegs.reset : XRegs := ⟨0, 0, 0, 0, 0, 0, 0, 0, 0, 0, 0, 0, 0, 0⟩

/-- A range-table entry as the device read it (R241, R242): its four words, or why it could not be read: the KIND of
R247, and whether the failure was at stage 2 with the IPA and stage-2 level. -/
inductive RangeSlot where
  | entry (lo hi off attr : W64)
  | unread (kind : Nat) (stage2 : Bool) (ipa level : Nat) (range : Bool)
  deriving DecidableEq, Repr

/-- A page translation a die has cached (R248): its stage, the page's first input address and size, and the leaf. -/
structure TlbEntry where
  stage2 : Bool
  base   : Nat
  size   : Nat
  leaf   : W64
  level  : Nat
  deriving DecidableEq, Repr

/-- The two range tables as read, and the cached translations of the context (R242, R248). -/
structure Xlate where
  rt1 : List RangeSlot
  rt2 : List RangeSlot
  tlb : List TlbEntry
  deriving DecidableEq, Repr

/-! ### Commands -/

/-- A resolved pattern (R181): extents, strides of dimensions 1 to 3, tag, layout, base, and whether the codebook table
it names was affine when it was resolved. -/
structure Pattern where
  e0 : Nat
  e1 : Nat
  e2 : Nat
  e3 : Nat
  st1 : Int
  st2 : Int
  st3 : Int
  tag : Nat
  lay : Nat
  base : Nat
  aff : Bool
  deriving DecidableEq, Repr

/-- A codebook table of the table store (R84, R304). -/
structure Codebook where
  affine : Bool
  bf16   : Bool
  codes  : List Nat
  deriving DecidableEq, Repr

/-- One repetition of an asynchronous command as captured at its issue (R43, R97, R269): the instruction, the scalars
read in field order, the resolved patterns or record, the captured tile, the tile number it takes from a stream. -/
structure CmdArg where
  instr : Instr
  scal  : List W64
  pats  : List Pattern
  tile  : Option Tile
  strm  : Option (Nat × Nat)
  /-- the codebook tables it reads, by number, as they stand at its issue (R216) -/
  books : List (Nat × Codebook)
  /-- of an M, F or rill command the scalars read at issue, in field order (R279) -/
  raw   : List W64
  deriving DecidableEq, Repr

/-- Where a command stands (R270, R279): waiting for its unit, at work, its end decided and its token not yet written
(`finished` with its status, `failed` with the fault status it will park with), parked after its token reported a fault, a
withdrawn task, or yielded. -/
inductive CmdSt where
  | waiting
  | running
  | finished (status : Nat)
  | failed (status : Nat)
  | parked
  | withdrawn
  | yielded
  deriving DecidableEq, Repr

/-- An asynchronous command issued and not complete (R102, R193, R269, R279). -/
structure Cmd where
  engine : Engine
  tl     : TimelineId
  num    : Nat
  token  : Nat
  addr   : Nat
  lane   : Nat
  rank   : Nat
  word   : Nat
  kmode  : W64
  args   : List CmdArg
  rep    : Nat
  mpc    : Nat
  st     : CmdSt
  /-- the last fault status reported (R201), 0 if none -/
  status : Nat
  /-- KTVAL and KXSYN of a parked failure (R259) -/
  tval   : W64
  xsyn   : W64
  /-- scalar results to be written before the token (R102): register, value, poison -/
  wb     : List (Nat × W64 × Bool)
  /-- remote or fetched data that has already returned (R269) -/
  data   : List Byte
  /-- state the command's own chapter gives (R279, bytes 192 to 255) -/
  extra  : List Nat
  /-- `cpm`: the follow-on word, its token and its `tlm` number (R185) -/
  follow : Option (Nat × Nat × Nat)
  /-- `cpm`: KMODE as it stood when it issued, which its follow-on runs under (R97, R185) -/
  fmode  : W64
  /-- the scalar stores its issue released to it that may not be performed yet: core and store number (R116, R359) -/
  rel    : List (Nat × Nat)
  /-- the die's cycle in which it reached the matrix path (R385) -/
  cyc    : Nat
  deriving DecidableEq, Repr

/-- An entry of an engine queue (R13, R276). -/
structure QEntry where
  rank  : Nat
  addr  : Nat
  grp   : Group
  /-- the `stage` predicate: its number and its value when the line was delivered (R44) -/
  pred  : Option (Nat × Bool)
  kmode : W64
  /-- a stream tile and the first number of it, fixed by a restored context (R276) -/
  tile0 : Option (Nat × Nat)
  /-- the repetition to run next, and the repetitions of one M, Y or F command captured so far (R43) -/
  rep   : Nat
  acc   : List CmdArg
  deriving DecidableEq, Repr

/-- The line whose lanes the control core is issuing (R14, R114). -/
structure LineBuf where
  addr  : Nat
  words : List Nat
  /-- the lane to issue next; 8 when all have issued -/
  lane  : Nat
  rep   : Nat
  dec   : Decision
  preds : Nat
  rank  : Nat
  /-- the slot value of this line's `callg` once it has been read: value and poison (R113) -/
  slot  : Option (W64 × Bool)
  deriving DecidableEq, Repr

/-- A scalar result of more than one cycle, or a dumped one (R108, R271, R277). -/
structure SRes where
  reg    : Nat
  val    : W64
  poison : Bool
  cycles : Nat
  deriving DecidableEq, Repr

/-- What a scalar read is for (R115, R113, R117): a load of a width, a `callg` slot, or a window word: how many of its bytes
inside the bound lie on the page of the first, and the PA and number of those on the next page. -/
inductive LoadKind where
  | ld (w : LdWidth)
  | ldp (inside : Nat) (next count : Nat)
  | slot
  deriving DecidableEq, Repr

/-- A scalar read that has issued and not returned (R116). -/
structure Load where
  kind : LoadKind
  reg  : Nat
  pa   : Nat
  /-- store number at issue: stores numbered below it are earlier (R116) -/
  seq  : Nat
  deriving DecidableEq, Repr

/-- A posted store in the core's store path (R116, R357): its PA and IPA, its bytes, its key and number; of the store
half of an atomic, the scope within which nothing may come between its halves (R209). -/
structure PStore where
  pa    : Nat
  ipa   : Nat
  bytes : List Byte
  key   : Nat
  seq   : Nat
  lock  : Option Scope
  deriving DecidableEq, Repr

/-- An atomic whose old value has not come back (R209): its register, the old value, and the store number at its issue. -/
structure AmoRet where
  reg : Nat
  old : W64
  seq : Nat
  deriving DecidableEq, Repr

/-- A release fence whose earlier accesses are not all visible yet (R206): its place among the core's stores, its scope, and
the writes of quad-mates that the core had acquired (R360). -/
structure PFence where
  seq   : Nat
  scope : Scope
  wait  : List (Nat × Nat)
  deriving DecidableEq, Repr

/-- A timeline (R203, R204): its counter, the last number given, and the numbers completed above the counter. -/
structure Timeline where
  counter : Nat
  last    : Nat
  ahead   : List Nat
  deriving DecidableEq, Repr

def Timeline.zero : Timeline := ⟨0, 0, []⟩

/-- A spout or a drain (R194). -/
inductive StreamKind where
  | spout | drain
  deriving DecidableEq, Repr

/-- An element a spout could not be filled with, or the tile a drain could not write (R199): the element, the poison CAUSE
of R131 (of a drain the token status), the address, and the KXSYN word and stage of a failed translation. -/
structure RingFail where
  elem   : Nat
  cause  : Nat
  addr   : Nat
  xsyn   : Option W64
  stage2 : Bool
  deriving DecidableEq, Repr

/-- A tile in a ring (R197, R198): its number and content, and the elements a prefetch failed to read. -/
structure RingTile where
  num   : Nat
  tile  : Tile
  fails : List RingFail
  deriving DecidableEq, Repr

/-- A bound stream tile (R194 to R200, R277): its pattern, its position, its ring, and who has used it. -/
structure Binding where
  kind     : StreamKind
  hint     : Hint
  pat      : Pattern
  num      : Nat
  rank     : Nat
  /-- tiles assigned before the ranks listed in `uses` (a restored context's count) -/
  base     : Nat
  /-- delivery rank of each issued group governed by this binding, with the tiles it took -/
  uses     : List (Nat × Nat)
  /-- every tile numbered below it is released, and those in `gone` are too -/
  released : Nat
  gone     : List Nat
  written  : Nat
  /-- tiles in the ring: number and content; of a spout those fetched, of a drain those not yet in memory -/
  ring     : List RingTile
  /-- the drain write that failed (R199) -/
  failed   : Option RingFail
  /-- delivery rank of the `sunb` that has issued (R195, R196) -/
  ending   : Option Nat
  /-- the scalar stores released to it that may not be performed yet (R359) -/
  rel      : List (Nat × Nat)
  deriving DecidableEq, Repr

/-- A parameter window (R117, R370). -/
structure Window where
  base  : Nat
  bound : Nat
  gen   : Nat
  valid : Bool
  deriving DecidableEq, Repr

/-- A fault that has arisen and not been reported (R259, R260). -/
structure PendFault where
  rank  : Nat
  cause : Nat
  sub   : Nat
  tval  : W64
  addr  : Nat
  lane  : Nat
  mpc   : Nat
  xsyn  : Option W64
  stage2 : Bool
  clane : Bool
  deriving DecidableEq, Repr

/-- A line to be fetched again for its C lanes from one on (R263, R275): line, first lane and repetition, the decision kept,
and the line's delivery rank where it is known. -/
structure Refetch where
  line : Nat
  lane : Nat
  rep  : Nat
  dec  : Decision
  rank : Option Nat
  deriving DecidableEq, Repr

/-- A held context (R261, R262): the level its hold was taken at, the level it ran at, where its fetch stands, the
registers that were pending at the freeze, and those written since. -/
structure Hold where
  level    : Nat
  ran      : Nat
  line     : Option LineBuf
  nextLine : Nat
  pend     : List Nat
  wrote    : List Nat
  /-- C lanes the context has still to fetch again (R263, R275) -/
  refetch  : Option Refetch
  deriving DecidableEq, Repr

/-- The context a core runs, as its launch set it (R237, R275, R370, R389). -/
structure Ctx where
  tenant    : Nat
  part      : Nat
  tiles     : Nat
  depth     : Nat
  inline    : Bool
  windows   : List Window
  /-- package and package queue number of the launch's root queue (R371) -/
  rootPkg   : Nat
  rootQueue : Nat
  /-- package that numbered the launch record (R373) -/
  recPkg    : Nat
  deriving DecidableEq, Repr

/-- What a core is doing: no context; running; stopped by a fault at H (R258). -/
inductive RunState where
  | idle | running | stopped
  deriving DecidableEq, Repr

/-- A pre-emption or debug stop that has been asked for (R272, R400): its REASON and the cycles still to pass. -/
structure StopReq where
  reason : Nat
  wait   : Nat
  deriving DecidableEq, Repr

/-- A V result that was dumped and has still to be written (R270, R278): its tile; of a drain's, the `tly` number of the
binding and the tile's number in it. -/
structure VRec where
  dst    : Nat
  num    : Option (Nat × Nat)
  tile   : Tile
  kvstat : Nat
  rows   : List Nat
  deriving DecidableEq, Repr

/-- A V result between its issue and its last row's write (R135, R270): its tile, the tile it replaced, the binding and number
it has in a drain, the KVSTAT bits it set, and the cycles left to each of its 16 rows. The register already holds it, since
whatever names the tile waits; a freeze gives back the rows that are not due. -/
structure VRes where
  dst    : Nat
  num    : Option (Nat × Nat)
  tile   : Tile
  old    : Tile
  kvstat : Nat
  rows   : List Nat
  deriving DecidableEq, Repr

/-- The engine queues of a core (R13). -/
structure Queues where
  v : List QEntry
  m : List QEntry
  y : List QEntry
  f : List QEntry
  deriving DecidableEq, Repr

/-- Work of a core that has issued and not ended. -/
structure InFlight where
  results : List SRes
  loads   : List Load
  stores  : List PStore
  amos    : List AmoRet
  cmds    : List Cmd
  dumped  : List SRes
  vdumped : List VRec
  /-- V results whose rows are not all due (R135, R270) -/
  vres    : List VRes
  /-- number of the next store (R116) -/
  seq     : Nat
  /-- release fences that still hold later stores back (R206) -/
  fences  : List PFence
  /-- quad-mates' stores that the core has acquired and that may not be performed yet: core and store number (R360) -/
  seen    : List (Nat × Nat)
  /-- registers that hold the token of a `pbar`, whose read is an acquire, with the token (R212) -/
  acqs    : List (Nat × W64)
  /-- `tlf` numbers of the `pbar`s that no `tlwait` has acquired (R212) -/
  pbars   : List Nat
  deriving DecidableEq, Repr

/-- The five timelines (R203). -/
structure Timelines where
  tly : Timeline
  tlm : Timeline
  tlf : Timeline
  tln : Timeline
  tll : Timeline
  deriving DecidableEq, Repr

/-- The control state of a core: what it runs, at which level, where its fetch stands, its hold and its pending stops
and faults. -/
structure Control where
  run      : RunState
  level    : Nat
  line     : Option LineBuf
  nextLine : Nat
  rank     : Nat
  hold     : Option Hold
  frozen   : Bool
  faults   : List PendFault
  /-- the stops asked for (R272, R400) -/
  stops    : List StopReq
  noProg   : Nat
  /-- a breakpoint line already checked (R401) -/
  brkDone  : Bool
  /-- C lanes to fetch again after a return (R263) -/
  refetch  : Option Refetch
  /-- the decisions of resolved lines that still have work, by the delivery rank of the line (R261) -/
  decs     : List (Nat × Decision)
  deriving DecidableEq, Repr

/-- One core (R13, R98, R128). -/
structure Core where
  regs   : List SReg
  tiles  : List Tile
  k      : KRegs
  x      : XRegs
  klq    : W64
  xl     : Xlate
  loops  : LoopState
  bankS  : TrapBank
  bankH  : TrapBank
  ctl    : Control
  q      : Queues
  fl     : InFlight
  tls    : Timelines
  strm   : List (Option Binding)
  /-- bindings that a `sunb` has ended and a new `sbind` of their tile has replaced, while groups delivered before the `sunb`
  still use them (R195, R196): tile and binding -/
  ended  : List (Nat × Binding)
  /-- tiles whose register starts anew for groups delivered after the rank of a `sunb` (R196) -/
  unbound : List (Nat × Nat)
  books  : List Codebook
  ctx    : Ctx
  /-- position in the core's noise stream (R163) -/
  noise  : Nat
  deriving DecidableEq, Repr

/-! ### Units of a die -/

/-- A context slot's basin allotment: slot, first page, pages (R172). -/
structure Allot where
  slot  : Nat
  base  : Nat
  count : Nat
  deriving DecidableEq, Repr

/-- A valid entry of the tag table (R176): its index, PENDING, owner slot and A[55:12]. The table's list order is the
recency order, most recent first. -/
structure TagEntry where
  idx     : Nat
  pending : Bool
  owner   : Nat
  block   : Nat
  deriving DecidableEq, Repr

/-- A copy engine (R191): the command it serves (core, timeline number) and the core it last served. -/
structure CopyEngine where
  cur  : Option (Nat × Nat)
  last : Nat
  deriving DecidableEq, Repr

/-- A row open in a subarray (R417, R418): pseudo-channel, bank, subarray, row, the hint of its last access, and the
cycles since it. -/
structure OpenRow where
  pc   : Nat
  bank : Nat
  sub  : Nat
  row  : Nat
  hint : Hint
  idle : Nat
  deriving DecidableEq, Repr

/-- The HBM4E controller's registers and state (R409 to R418). -/
structure Hbm where
  period  : Nat
  enab    : Bool
  ce      : W32
  ue      : W32
  elaLine : Nat
  elaVal  : Bool
  vth     : Nat
  hth     : Nat
  lane    : Nat
  nospare : Bool
  evt     : Bool
  /-- next line the scrubber visits -/
  scrub   : Nat
  /-- pseudo-channels whose spare lane is in use, and those retraining (R415) -/
  spares  : List Nat
  training : List Nat
  rows    : List OpenRow
  deriving DecidableEq, Repr

def Hbm.reset : Hbm := ⟨86400000, true, 0, 0, 0, false, 20, 40, 0, false, false, 0, [], [], []⟩

/-- A store in a quad's write path (R357), oldest first in the list. -/
structure QStore where
  core  : Nat
  pa    : Nat
  ipa   : Nat
  bytes : List Byte
  key   : Nat
  seq   : Nat
  lock  : Option Scope
  deriving DecidableEq, Repr

/-- The interrupt and status registers of a die's BAR0 block (R437). -/
structure HostRegs where
  hint   : W64
  hinten : W64
  stopCore : Nat
  ready  : Bool
  deriving DecidableEq, Repr

/-- A board table (R391): whether it is in force, its rows of 16 slot owners, its weights (tenant, W). -/
structure Board where
  en      : Bool
  rows    : List (List Nat)
  weights : List (Nat × Nat)
  deriving DecidableEq, Repr

/-- The board and frame sequencer of a die (R390 to R393): KBOARD, the board in force, boards waiting with the cycle their
`mtk` completed, cycles since the die's reset, and how many slots and frames have begun. -/
structure Seqr where
  kboard : W64
  board  : Board
  coming : List (Nat × Board)
  cyc    : Nat
  slots  : Nat
  frames : Nat
  deriving DecidableEq, Repr

def Seqr.reset : Seqr := ⟨0, ⟨false, [], []⟩, [], 0, 0, 0⟩

/-- Profile, island points and telemetry of a die (R440 to R443): PATCAP and MODE in force, a write of PROF waiting with its
cycle, the points of the core and cascade islands (0, 1, 2 for P0 to P2), points below the profile's that the cascade
island has been moved for heat, and TELE's fields. -/
structure Power where
  patcap  : Nat
  mode    : Nat
  coming  : List (Nat × Nat × Nat)
  core    : Nat
  casc    : Nat
  low     : Nat
  power   : Nat
  current : Nat
  tj      : Nat
  seq     : Nat
  deriving DecidableEq, Repr

def Power.reset : Power := ⟨65535, 0, [], 0, 0, 0, 0, 0, 0, 0⟩

/-- Lending of a core (R395). -/
structure Lend where
  lent : Bool
  part : Nat
  dl   : Nat
  deriving DecidableEq, Repr

/-- A trace record of the present cycle (R403): its core, its bytes 0 to 23, and DATA; none where the record carries a snapshot's
number (R405). -/
structure TraceRec where
  core : Nat
  head : List Byte
  data : Option W64
  deriving DecidableEq, Repr

/-- The trace and accounting registers of a die (R399 to R407): KTRB, KTRP, the last snapshot's number and the
core-island cycles since it was taken, the conflict matrix (cell, count; unlisted 0), the requester each bank group granted
last, the basin accesses presented and not granted (requester, bank group; R168), KSKEW0 to KSKEW5, and the records that
have arisen in the present cycle. -/
structure Trace where
  ktrb   : W64
  ktrp   : W64
  snap   : Nat
  snapAge : Nat
  matrix : List (Nat × Nat)
  grants : List Nat
  asks   : List (Nat × Nat)
  skew   : List W64
  pend   : List TraceRec
  deriving DecidableEq, Repr

def Trace.reset : Trace := ⟨0, 0, 0, 0, [], List.replicate 64 63, [], List.replicate 6 0x8000000000000000, []⟩

/-- A link port (R335, R352, R353, R438): LSTAT's fields, the retries of the training under way, the flits and CRC errors
of the present count, the physical lane behind each data lane, the lanes that eye events have named, and the
configuration (lane map, rate) that a retry has to use. -/
structure Link where
  crclim : Nat
  elane  : Nat
  lanes  : Nat
  rate   : Nat
  state  : Nat
  eyert  : Bool
  tries  : Nat
  flits  : Nat
  errs   : Nat
  map    : List Nat
  worn   : List Nat
  common : Option (List Nat × Nat)
  deriving DecidableEq, Repr

def Link.reset : Link := ⟨16, 0, 0, 0, 0, false, 0, 0, 0, [], [], none⟩

/-- A row of a weight buffer: its codes and the scale bytes of its blocks, laid out as in a side store (R76, R220). -/
structure WRow where
  codes : List Nat
  side  : List Byte
  deriving DecidableEq, Repr

/-- A weight buffer (R217): tag (0 when empty), N, the tenant and the context slot that loaded it (R218, R280), its duplication
map, its rows from row 0; rows and columns beyond them hold +0. -/
structure WBuf where
  tag    : Nat
  n      : Nat
  tenant : Nat
  slot   : Nat
  dup    : List (Nat × Nat)
  rows   : List WRow
  deriving DecidableEq, Repr

def WBuf.empty : WBuf := ⟨0, 0, 0, 0, [], []⟩

/-- A held cistern bank (R226): its number, the allocator's context slot and tenant, the sharer mask. -/
structure Bank where
  idx    : Nat
  slot   : Nat
  tenant : Nat
  mask   : W32
  deriving DecidableEq, Repr

/-- Where a row of a pass stands (R293 to R295): committed and not entered, entered and not finished, finished, parked,
waiting to scatter again after its owner's return, or finished at the peer of a `tfwd` and to be sent back. -/
inductive RowSt where
  | waiting | entered | finished | parked | again | sent
  deriving DecidableEq, Repr

/-- A row of a pass: the task it belongs to (its arrival number), its row number and position, the pass (its head's arrival
number), the head's tenant and whether the pass was committed in pool slots, what its position holds (accumulators, or what
the stages before the conversion made of them), whether those stages have run, and the bytes it writes once it is
finished. -/
structure PassRow where
  task : Nat
  rho  : Nat
  pos  : Nat
  st   : RowSt
  pass : Nat
  head : Nat
  pool : Bool
  acc  : List W32
  acted : Bool
  out  : Option (List Byte)
  deriving DecidableEq, Repr

/-- A task in the confluence (R286 to R297): the die, core and `tlm` number it comes from and the repetition it is; whose it
is; its record; its captured tile; its arrival and deadline, and whether the deadline has expired; the first row it has still
to scatter; the cascade of its pass. -/
structure Task where
  die    : Nat
  core   : Nat
  num    : Nat
  rep    : Nat
  tenant : Nat
  tag    : Nat
  hash   : Nat
  wid    : Nat
  cls    : Nat
  res    : Nat
  rstr   : Int
  otag   : Nat
  m      : Nat
  kmode  : W64
  tile   : Tile
  dir    : Dir
  arr    : Nat
  dead   : Nat
  ready  : Bool
  seq    : Nat
  first  : Nat
  pass   : Option Nat
  deriving DecidableEq, Repr

/-- A pass on a cascade (R290, R291): its head's arrival number, weight identity, K and N, code hash, σ and bias, and
whether its weights are loaded. Its rows name it. -/
structure Pass where
  id     : Nat
  wid    : Nat
  k      : Nat
  n      : Nat
  hash   : Nat
  sigma  : Nat
  bias   : List Nat
  loaded : Bool
  deriving DecidableEq, Repr

/-- A cascade with its cistern and epilogue (R216 to R236, R290 to R295): weight buffers; the weights the confluence's last
pass left (identity, buffer); the split slot whose hot rows it holds (slot, VER, rows); held banks; cistern rows (bank × 16 +
row: 512 elements; unlisted rows are +0); the pass, its rows and those parked. -/
structure Cascade where
  front : WBuf
  back  : WBuf
  conf  : Option (Nat × WBuf)
  split : Option (Nat × Nat × WBuf)
  banks : List Bank
  cells : List (Nat × List W32)
  pass  : Option Pass
  rows  : List PassRow
  deriving DecidableEq, Repr

def Cascade.reset : Cascade := ⟨.empty, .empty, none, none, [], [], none, []⟩

/-- The unjoined result of a split multiply (R322): the halves, VER, and the fired counts. -/
structure Product where
  hot  : List W32
  cold : List W32
  ver  : Nat
  nh   : Nat
  nc   : Nat
  deriving DecidableEq, Repr

/-- A split tensor (R317). -/
structure Split where
  id     : Nat
  slot   : Nat
  tenant : Nat
  k      : Nat
  n      : Nat
  tag    : Nat
  base   : Nat
  stride : Nat
  h      : Nat
  hot    : Nat
  map    : List Nat
  counts : List Nat
  ver    : Nat
  a      : Nat
  mc     : Nat
  prod   : Option Product
  deriving DecidableEq, Repr

/-- A split multiply that has begun (R322, R324, R328): the context slot and `tln` number of its command, its core, cascade and
tensor slot; the fired rows not yet dispatched; the hot rows dispatched and the hot half once its pass has run; the rows
queued at rills (rill, row, the PA its dispatch translated to), the cold rows dispatched, the rills' partials; the status bits
gathered. -/
structure SplitWork where
  kslot : Nat
  num   : Nat
  core  : Nat
  cas   : Nat
  slot  : Nat
  left  : List Nat
  hot   : List Nat
  half  : Option (List W32)
  queue : List (Nat × Nat × Nat)
  cold  : List Nat
  parts : List (List W32)
  stat  : Nat
  deriving DecidableEq, Repr

/-- An entry of the weight directory (R350): its index and 64 bytes. -/
structure DirEntry where
  idx   : Nat
  bytes : List Byte
  deriving DecidableEq, Repr

/-- What a remote request asks of its home (R340 to R351): bytes read at VAs; units stored (pieces, and whether a line they
were read from was marked); an atomic; the ticket operations; a forwarded task. -/
inductive ROp where
  | load (runs : List (Nat × Nat))
  | store (units : List (List (Nat × List Byte) × Bool)) (bulk : Bool)
  | atomic (op : AtomicOp) (va w : Nat) (b : W64)
  | cas (va w : Nat) (b cmp : W64)
  | tkget (va : Nat)
  | tkwait (va t : Nat)
  | tkret (va t : Nat)
  | rows (t : Task)
  deriving DecidableEq, Repr

/-- What a home answers: bytes with their poison; an old value with its poison; performed; a failure with its status, KTVAL and
KXSYN word; a refusal status; finished rows of a forwarded task (row number, bytes) or the status its task ended with. -/
inductive RRes where
  | data (l : List (List Byte × Bool))
  | value (v : W64) (poison : Bool)
  | done
  | failed (status : Nat) (tval xsyn : W64)
  | refused (status : Nat)
  | finished (rows : List (Nat × List Byte))
  | ended (status : Nat) (tval : W64)
  deriving DecidableEq, Repr

/-- A remote request (R339): its source, the command, repetition, step and part it serves (together its replay tag), its
class, its place in the order of injection, its home, and what it asks. -/
structure Req where
  die    : Nat
  core   : Nat
  slot   : Nat
  tenant : Nat
  tl     : TimelineId
  num    : Nat
  rep    : Nat
  step   : Nat
  part   : Nat
  cls    : RClass
  seq    : Nat
  home   : Nat
  op     : ROp
  /-- the scalar stores released to it that may not be performed yet (R339, R359) -/
  rel    : List (Nat × Nat)
  deriving DecidableEq, Repr

/-- A flit in transit (R335 to R337): its request, its response if it is one, where it is and where it goes, the
intermediate die of RND still to be reached, hops a detour has fixed, and ring directions a detour holds to (dimension,
whether upward). -/
structure Flit where
  req  : Req
  res  : Option RRes
  pos  : Nat
  dst  : Nat
  mid  : Option Nat
  plan : List Nat
  turns : List (Nat × Bool)
  deriving DecidableEq, Repr

/-- An incast entry (R346 to R348): region, NEXT, CALL, returned numbers, who holds which ticket (ticket, die, slot), and the
implicit tickets of `rput`s (ticket, die, slot, number). -/
structure Incast where
  region  : Nat
  next    : Nat
  call    : Nat
  back    : List Nat
  holders : List (Nat × Nat × Nat)
  puts    : List (Nat × Nat × Nat × Nat)
  deriving DecidableEq, Repr

/-- A child launch in the pending-launch pool (R379 to R381): its packet, its parent (launch key, position, `tll` number),
its root queue (package, queue), DEPTH and the parent die's RANK, its place in acceptance order, and the record it became
when it was taken. -/
structure PoolEntry where
  bytes  : List Byte
  launch : Nat
  kpos   : Nat
  num    : Nat
  rootPkg : Nat
  root   : Nat
  depth  : Nat
  rank   : Nat
  order  : Nat
  taken  : Option Nat
  deriving DecidableEq, Repr

/-- A saved context that keeps resources on its die (R172, R280, R284): its slot, tenant, partition and launch record
number, its first page, and its translation registers and tables as they stood at the save. -/
structure Held where
  slot   : Nat
  tenant : Nat
  part   : Nat
  lrec   : Nat
  page   : Nat
  x      : XRegs
  xl     : Xlate
  deriving DecidableEq, Repr

/-- What a save has no place for and a resume needs (log 11): for the context of a launch key and position its commands, queued
groups, line and replaced bindings as they stood, and whether a breakpoint held its next line back (R401). -/
structure Saved where
  launch : Nat
  kpos   : Nat
  cmds   : List Cmd
  entries : List QEntry
  line   : Option LineBuf
  ended  : List (Nat × Binding)
  brk    : Bool
  deriving DecidableEq, Repr

/-- A KPREEMPT operation under way (R394): the core whose `mtk` waits, OP, the core it names, KFRC at its request, and KFRC when
the save had ended. -/
structure PreOp where
  who    : Nat
  op     : Nat
  target : Nat
  since  : Nat
  done   : Option Nat
  /-- the context's save area was out of range when its stop came -/
  bad    : Bool
  deriving DecidableEq, Repr

/-- Where the host's view of a memory differs from the device's (R365): bytes that the device wrote and the host does not see
yet, with what it still sees; bytes that the host wrote and the device does not see yet. -/
structure HostView where
  hidden : List (Nat × Byte)
  fresh  : List (Nat × Byte)
  deriving DecidableEq, Repr

def HostView.same : HostView := ⟨[], []⟩

/-- A byte that a completed `flush` of a context covered (R180, R365): launch key and position of the context, whether it lies
in the stack of a die or in host memory, its address, and its value at the flush. -/
structure Flushed where
  launch : Nat
  kpos   : Nat
  die    : Option Nat
  addr   : Nat
  val    : Byte
  deriving DecidableEq, Repr

/-- One C-die (R12). -/
structure Die where
  cores  : List Core
  stack  : Store
  /-- the host's view of the stack (R180, R365) -/
  hview  : HostView
  basin  : Store
  allots : List Allot
  tags   : List TagEntry
  copies : List CopyEngine
  kfrc   : Nat
  hbm    : Hbm
  qpath  : List QStore
  hreg   : HostRegs
  seqr   : Seqr
  cascs  : List Cascade
  tasks  : List Task
  /-- number of the next task to arrive (R289) -/
  taskNo : Nat
  splits : List Split
  swork  : List SplitWork
  wdir   : List DirEntry
  power  : Power
  lends  : List Lend
  lendOf : Nat
  preempt : Nat
  preOp  : Option PreOp
  trace  : Trace
  links  : List Link
  /-- responses kept by replay tag (R339) -/
  kept   : List (Req × RRes)
  incast : List Incast
  pool   : List PoolEntry
  held   : List Held
  part   : Nat
  amask  : Nat
  deriving DecidableEq, Repr

/-- The clocks of a die (R5, R406, R440): the core island's, the cascade island's, the 1.0 GHz reference. -/
inductive Clock where
  | core | cascade | ref
  deriving DecidableEq, Repr, Inhabited

/-- What comes next (log 2): a cycle of a clock of a die passes; an engine of a core issues; a device step happens. -/
inductive Turn where
  | cycle (d : Nat) (k : Clock)
  | core (d c : Nat) (e : Engine)
  | event (i : Instr)
  deriving DecidableEq, Repr, Inhabited

/-- The group being issued (log 2): die, core, engine, where it stands, its instruction word, its continuation count,
latched KMODE, delivery rank, repetition and repetition count, and the tile number a restored context fixed. -/
structure Focus where
  die    : Nat
  core   : Nat
  engine : Engine
  addr   : Nat
  lane   : Nat
  word   : Nat
  conts  : List Nat
  kmode  : W64
  rank   : Nat
  rep    : Nat
  reps   : Nat
  tile0  : Option (Nat × Nat)
  acc    : List CmdArg
  deriving DecidableEq, Repr

def Focus.zero : Focus := ⟨0, 0, .c, 0, 0, 0, [], 0, 0, 0, 1, none, []⟩

/-- A request at the security engine (R423): who made it and the register that waits, OP and ARG, the value of s[b], the
tenant whose key its accesses use, where the equal pieces of its memory operand lie (PA and IPA), and the cycle it arrived in. -/
structure SecReq where
  die    : Nat
  core   : Nat
  reg    : Nat
  op     : Nat
  arg    : Nat
  val    : W64
  tenant : Nat
  pas    : List (Nat × Nat)
  arr    : Nat
  deriving DecidableEq, Repr

/-- The security engine of a package (R419 to R427): the state fused or entered, mate alarms, the nonce, permissions, alarm
register, tenant keys installed (tenant, key), the platform key, whether a mate has zeroised the attestation key (R426), the next
key to be drawn, the measurements, the
requests in arrival order, port violations since reset, HBOOT and how far the boot has come (R439). -/
structure Security where
  life   : Nat
  mates  : Nat
  nonce  : W64
  mask   : Nat
  count  : Nat
  src    : Nat
  frz    : Bool
  tkeys  : List (Nat × Nat)
  plat   : Nat
  wiped  : Bool
  next   : Nat
  mrs    : List W256
  queue  : List SecReq
  ports  : Nat
  hboot  : W64
  boot   : Nat
  deriving DecidableEq, Repr

/-- Arbitration of a package (R373): the last launch record number, the deficits (tenant, amount), the tenant last
served at each level, and the tenant being served (level, tenant). -/
structure Arbiter where
  recNo    : Nat
  deficits : List (Nat × Nat)
  last     : List (Option Nat)
  serving  : Option (Nat × Nat)
  deriving DecidableEq, Repr

/-- A unit of a launch (R375): the die it is for, its number, its spread package, and whether it has been placed. -/
structure LUnit where
  die    : Nat
  u      : Nat
  pkg    : Nat
  placed : Bool
  deriving DecidableEq, Repr

/-- A launch record (R373, R378): its package and number, its packet and kernel descriptor, the template bytes it was taken
with, tenant and partition, root queue (package, queue) and root packet number, DEPTH, REM, its parent (launch key,
position, `tll` number), its units, how many of its contexts have ended, and its end status. -/
structure LaunchRec where
  pkg    : Nat
  num    : Nat
  packet : List Byte
  kernel : List Byte
  templ  : List Byte
  tenant : Nat
  part   : Nat
  rootPkg : Nat
  root   : Nat
  rootNo : Nat
  depth  : Nat
  rem    : Nat
  parent : Option (Nat × Nat × Nat)
  units  : List LUnit
  gone   : Nat
  status : Nat
  ended  : Bool
  deriving DecidableEq, Repr

/-- A child that a context launched (R380): the parent's launch key and position, its `tll` number, and its end status. -/
structure Child where
  launch : Nat
  kpos   : Nat
  num    : Nat
  status : Option Nat
  deriving DecidableEq, Repr

/-- One package: its host's memory (R435) with the host's view of it (R365), what flushes have covered, its security engine,
and its arbitration. -/
structure Pkg where
  host : Memory
  hview : HostView
  flushed : List Flushed
  sec  : Security
  arb  : Arbiter
  deriving DecidableEq, Repr

/-- A participant of a barrier (R210): the position its context holds in the launch, how often it has arrived, the line and
lane of the `bar` that waits, and whether its kernel has ended (R213). -/
structure BarPart where
  kpos    : Nat
  count   : Nat
  waiting : Option Nat
  ended   : Bool
  deriving DecidableEq, Repr

/-- A barrier network of one launch and one unit of a scope (R210, R212; no scope: the partition barrier), and how many
of its generations have completed. -/
structure BarNet where
  scope : Option Scope
  launch : Nat
  parts : List BarPart
  done  : Nat
  deriving DecidableEq, Repr

/-- The machine: the dies of package p are 8p to 8p + 7. -/
structure State where
  dies  : List Die
  pkgs  : List Pkg
  /-- the pod's extents XE, YE, ZE (R333; log 1) -/
  pod   : Nat × Nat × Nat
  nets  : List BarNet
  recs  : List LaunchRec
  kids  : List Child
  saves : List Saved
  /-- flits in transit, and acknowledgements on their way (home, request) -/
  flits : List Flit
  acks  : List (Nat × Req)
  /-- place of the next request in the order of injection (R338) -/
  reqNo : Nat
  steps : Nat
  sched : List Turn
  cur   : Focus
  deriving DecidableEq, Repr

/-! ### Reset -/

def Core.reset : Core where
  regs := List.replicate 64 ⟨0, false, false⟩
  tiles := List.replicate 64 (Tile.zero 0)
  k := KRegs.reset
  x := XRegs.reset
  klq := 0
  xl := ⟨[], [], []⟩
  loops := .zero
  bankS := .reset
  bankH := .reset
  ctl := ⟨.idle, 2, none, 0, 64, none, false, [], [], 0, false, none, []⟩
  q := ⟨[], [], [], []⟩
  fl := ⟨[], [], [], [], [], [], [], [], 0, [], [], [], []⟩
  tls := ⟨.zero, .zero, .zero, .zero, .zero⟩
  strm := List.replicate 16 none
  ended := []
  unbound := []
  books := List.replicate 16 ⟨false, false, List.replicate 256 0⟩
  ctx := ⟨0, 0, 64, 3, false, [], 0, 0, 0⟩
  noise := 0

def Die.reset : Die where
  cores := List.replicate 32 .reset
  stack := .empty
  hview := .same
  basin := .empty
  allots := []
  tags := []
  copies := (List.range 16).map fun e => ⟨none, 4 * (e / 2) + 3⟩
  kfrc := 0
  hbm := .reset
  qpath := []
  hreg := ⟨0, 0, 0, false⟩
  seqr := .reset
  cascs := List.replicate 4 .reset
  tasks := []
  taskNo := 0
  splits := []
  swork := []
  wdir := []
  power := .reset
  lends := List.replicate 32 ⟨false, 0, 0⟩
  lendOf := 0
  preempt := 0
  preOp := none
  trace := .reset
  links := List.replicate 6 .reset
  kept := []
  incast := []
  pool := []
  held := []
  part := 0
  amask := 0xFF

/-- After a package reset (R420, R423): the fuses are Config's (log 16). -/
def Security.reset : Security where
  life := 2
  mates := 0
  nonce := 0
  mask := 0
  count := 0
  src := 0
  frz := false
  tkeys := []
  plat := 0
  wiped := false
  next := 1
  mrs := List.replicate 16 0
  queue := []
  ports := 0
  hboot := 0
  boot := 0

def Arbiter.reset : Arbiter := ⟨0, [], List.replicate 4 none, none⟩

def State.reset : State where
  dies := List.replicate 8 .reset
  pkgs := [⟨⟨[]⟩, .same, [], .reset, .reset⟩]
  pod := (2, 2, 2)
  nets := []
  recs := []
  kids := []
  saves := []
  flits := []
  acks := []
  reqNo := 0
  steps := 0
  sched := []
  cur := .zero

end Sys2Proof.Machine
end

