-- ==== Sys2Proof/Config.lean ====
section
/-!
DEFINITION. Sys2Proof/Config.lean: what an implementation fixes and the spec leaves open. Every constant here is opaque:
nothing can evaluate it, and a statement that mentions it holds for every value of it.
-/
namespace Sys2Proof.Config
open Sys2Proof.Machine

/-- The order in which agents act and time passes (R8, R445; log 2). -/
opaque nextTurn : Nat → Turn
/-- The bits of the n-th key that an engine has drawn from its noise source (R422; log 15): data key, then tweak key. -/
opaque keyBits : Nat → BitVec 512
/-- Whether an access uses a translation the die has cached, where R244 and R250 allow either (log 14). -/
opaque useCached : Nat → Bool
/-- Bank, subarray and row of a stack line (R417; log 19). -/
opaque bankOf : Nat → Nat
opaque subOf : Nat → Nat
opaque rowOf : Nat → Nat
/-- Which of the four open subarrays of a bank gives way to a fifth (R417; log 19). -/
opaque rowVictim : Nat → Nat
/-- The words of a core's noise stream (R163; log 7): die, core, position. -/
opaque noiseWord : Nat → Nat → Nat → W32
/-- Which of the results within the bound an fp32 special function gives (R161; log 8): function, input code, rounding
mode, noise word. -/
opaque specialPick : Nat → Nat → Nat → Nat → Nat
/-- The code a codebook target takes when every candidate is NaN (R91; log 21), and the bytes of a codebook area entry
that its readers ignore (R304; log 21). -/
opaque noCandidate : Nat
opaque bookFiller : Nat → Byte
/-- Which of several that may go first does (R232, R336; log 23): die, step, count. -/
opaque pick : Nat → Nat → Nat → Nat
/-- Values and addresses the spec does not state (log 21): what it is for, the step. -/
opaque openValue : Nat → Nat → BitVec 64
/-- Fused values (R420, R427; log 16): the device identifier and the authority hash of a package. -/
opaque deviceId : Nat → BitVec 128
opaque authorityHash : Nat → W256
/-- The attestation key of a package, modulus and private exponent, and the salt of a signature it makes at a step (R424;
log 15). -/
opaque attestModulus : Nat → Nat
opaque attestExponent : Nat → Nat
opaque quoteSalt : Nat → Nat → W256
/-- Bring-up (R439; log 15): the ROM of a package, the length of the image at an HBOOT value, whether a package's engine
accepts an image, the configuration its firmware loads. -/
opaque romImage : Nat → List Byte
opaque imageLength : W64 → Nat
opaque imageValid : Nat → List Byte → Bool
opaque bootConfig : Nat → List Byte
end Sys2Proof.Config
end

