-- ==== Sys2Proof/Machine/Cipher.lean ====
section
/-!
DEFINITION. Sys2Proof/Machine/Cipher.lean: little-endian bytes (R4), and AES-256-XTS over a 64-byte line, which R422 names (the
standard's algorithm; log 15).
-/
namespace Sys2Proof.Machine
open Sys2Proof

/-! ### Bytes (R4) -/

/-- Little-endian value of bytes (R4). -/
def leNat : List Byte → Nat
  | [] => 0
  | b :: t => b.toNat + 256 * leNat t
/-- The n little-endian bytes of a value (R4). -/
def leBytes : Nat → Nat → List Byte
  | 0, _ => []
  | n + 1, v => BitVec.ofNat 8 v :: leBytes n (v / 256)
/-- Two strings of bytes, added bit by bit. -/
def xorBytes (a b : List Byte) : List Byte := List.zipWith (· ^^^ ·) a b

/-! ### The field of AES -/

/-- A byte times x, modulo x^8 + x^4 + x^3 + x + 1. -/
def byteDouble (b : Byte) : Byte := if b.msb then (b <<< 1) ^^^ 0x1B else b <<< 1
/-- The product of two bytes, over n bits of the second from its highest. -/
def byteMulBits : Nat → Byte → Byte → Byte
  | 0, _, _ => 0
  | n + 1, a, b => byteDouble (byteMulBits n a (b >>> 1)) ^^^ (if b.getLsbD 0 then a else 0)
def byteMul (a b : Byte) : Byte := byteMulBits 8 a b
/-- b to the power 2^(n+1) − 2: for n = 7 the inverse, with 0 for 0. -/
def bytePow : Nat → Byte → Byte
  | 0, _ => 1
  | n + 1, b => let r := byteMul (bytePow n b) b; byteMul r r
def byteInv (b : Byte) : Byte := bytePow 7 b
/-- The substitution of AES and its inverse. -/
def aesSub (b : Byte) : Byte :=
  let v := byteInv b
  v ^^^ v.rotateLeft 1 ^^^ v.rotateLeft 2 ^^^ v.rotateLeft 3 ^^^ v.rotateLeft 4 ^^^ 0x63
def aesSubBack (b : Byte) : Byte := byteInv (b.rotateLeft 1 ^^^ b.rotateLeft 3 ^^^ b.rotateLeft 6 ^^^ 0x05)

/-! ### AES-256: a block is 16 bytes, byte i in row i mod 4 of column i div 4 -/

/-- The word after the last eight of the key schedule, i counting from the key's first. -/
def aesNextWord (i : Nat) (last : List (List Byte)) : List Byte :=
  let p := last.getLastD []
  let t := if i % 8 = 0 then
      xorBytes ((p.drop 1 ++ p.take 1).map aesSub) [(List.replicate (i / 8 - 1) ()).foldl (fun c _ => byteDouble c) 1, 0, 0, 0]
    else if i % 8 = 4 then p.map aesSub else p
  xorBytes (last.headD []) t
/-- n words of the schedule from word i on, after the eight before it. -/
def aesWords : Nat → Nat → List (List Byte) → List (List Byte)
  | 0, _, _ => []
  | n + 1, i, last => let w := aesNextWord i last; w :: aesWords n (i + 1) (last.drop 1 ++ [w])
/-- The 15 round keys of a 32-byte key. -/
def aesRoundKeys (key : List Byte) : List (List Byte) :=
  let first := (List.range 8).map fun i => (key.drop (4 * i)).take 4
  let all := (first ++ aesWords 52 8 first).flatten
  (List.range 15).map fun r => (all.drop (16 * r)).take 16
/-- The bytes of a block moved along their rows: by its number to the left, or back. -/
def aesRows (right : Bool) (b : List Byte) : List Byte :=
  (List.range 16).map fun i => (b[4 * ((i / 4 + (if right then 4 - i % 4 else i % 4)) % 4) + i % 4]?).getD 0
/-- Every column times the polynomial with these coefficients. -/
def aesColumns (m : List Byte) (b : List Byte) : List Byte :=
  (List.range 16).map fun i => (List.range 4).foldl (fun v j =>
    v ^^^ byteMul ((m[(j + 4 - i % 4) % 4]?).getD 0) ((b[i / 4 * 4 + j]?).getD 0)) 0
/-- One block under round keys. -/
def aesEncrypt (keys : List (List Byte)) (b : List Byte) : List Byte :=
  let mid := (keys.drop 1).take 13
  let b1 := mid.foldl (fun b k => xorBytes (aesColumns [2, 3, 1, 1] (aesRows false (b.map aesSub))) k) (xorBytes b (keys.headD []))
  xorBytes (aesRows false (b1.map aesSub)) (keys.getLastD [])
def aesDecrypt (keys : List (List Byte)) (b : List Byte) : List Byte :=
  let mid := ((keys.drop 1).take 13).reverse
  let b1 := (aesRows true (xorBytes b (keys.getLastD []))).map aesSubBack
  let b2 := mid.foldl (fun b k => (aesRows true (aesColumns [14, 11, 13, 9] (xorBytes b k))).map aesSubBack) b1
  xorBytes b2 (keys.headD [])

/-! ### XTS over a line (R422) -/

/-- The tweak of the next block. -/
def xtsNext (t : Nat) : Nat := (2 * t % 2 ^ 128) ^^^ (if 2 ^ 127 ≤ t then 0x87 else 0)
/-- The blocks of a data unit, each with its tweak. -/
def xtsBlocks (f : List Byte → List Byte) : Nat → Nat → List Byte → List Byte
  | 0, _, _ => []
  | n + 1, t, bs => xorBytes (f (xorBytes (bs.take 16) (leBytes 16 t))) (leBytes 16 t) ++ xtsBlocks f n (xtsNext t) (bs.drop 16)
/-- The two halves of a 64-byte key: for the data and for the tweak. -/
def xtsKeys (key : BitVec 512) : List (List Byte) × List (List Byte) :=
  (aesRoundKeys ((leBytes 64 key.toNat).take 32), aesRoundKeys ((leBytes 64 key.toNat).drop 32))
/-- A line as it stands in the stack, and back: the tweak is its PA. -/
def lineEncrypt (key : BitVec 512) (line : Nat) (bs : List Byte) : List Byte :=
  let k := xtsKeys key
  xtsBlocks (aesEncrypt k.1) 4 (leNat (aesEncrypt k.2 (leBytes 16 (64 * line)))) bs
def lineDecrypt (key : BitVec 512) (line : Nat) (bs : List Byte) : List Byte :=
  let k := xtsKeys key
  xtsBlocks (aesDecrypt k.1) 4 (leNat (aesEncrypt k.2 (leBytes 16 (64 * line)))) bs
/-- The bytes of a line written under one key and read under another (R422). -/
def crossKey (wrote reads line : Nat) (bs : List Byte) : List Byte :=
  lineDecrypt (Config.keyBits reads) line (lineEncrypt (Config.keyBits wrote) line bs)

end Sys2Proof.Machine
end

