-- ==== Sys2Proof/Machine/Mem.lean ====
section
/-!
DEFINITION. Sys2Proof/Machine/Mem.lean: the named operations over memory: bytes, little-endian words (R4), marked lines
(R411), keyed lines (R422), and the physical address map (R246).
-/
namespace Sys2Proof.Machine
open Sys2Proof

/-! ### Bytes -/

def readCells : List Host.Cell → Nat → Byte
  | [], _ => 0
  | (b, v) :: t, a => if a = b then v else if a < b then 0 else readCells t a

def writeCells : List Host.Cell → Nat → Byte → List Host.Cell
  | [], a, v => if v = 0 then [] else [(a, v)]
  | (b, w) :: t, a, v =>
    if a < b then (if v = 0 then (b, w) :: t else (a, v) :: (b, w) :: t)
    else if a = b then (if v = 0 then t else (a, v) :: t)
    else (b, w) :: writeCells t a v

/-- The byte at an address. -/
def Memory.get (m : Memory) (a : Nat) : Byte := readCells m.cells a
/-- One byte written. -/
def Memory.put (m : Memory) (a : Nat) (v : Byte) : Memory := ⟨writeCells m.cells a v⟩
/-- n bytes from a. -/
def Memory.getN (m : Memory) (a n : Nat) : List Byte := (List.range n).map fun i => m.get (a + i)
/-- Bytes written from a. -/
def Memory.putN (m : Memory) (a : Nat) : List Byte → Memory
  | [] => m
  | v :: vs => (m.put a v).putN (a + 1) vs

/-- A 64-bit word of bytes. -/
def leWord (bs : List Byte) : W64 := BitVec.ofNat 64 (leNat bs)

/-! ### Lines: marks, symbol errors, keys -/

/-- The lines that n bytes from a touch. -/
def linesOf (a n : Nat) : List Nat :=
  if n = 0 then [] else (List.range ((a + n - 1) / 64 - a / 64 + 1)).map fun i => a / 64 + i

def assocGet (l : List (Nat × Nat)) (k : Nat) : Nat := ((l.find? fun p => p.1 == k).map (·.2)).getD 0
def assocSet (l : List (Nat × Nat)) (k v : Nat) : List (Nat × Nat) :=
  (if v = 0 then [] else [(k, v)]) ++ l.filter fun p => p.1 != k

/-- A line marked uncorrectable, or one whose more than 4 symbol errors the read finds now (R410, R411). -/
def Store.bad (m : Store) (line : Nat) : Bool := m.marks.contains line || decide (4 < assocGet m.errs line)
/-- Whether n bytes from a touch such a line. -/
def Store.anyBad (m : Store) (a n : Nat) : Bool := (linesOf a n).any m.bad

/-- The byte at a as the holder of key k reads it: 0 in a bad line (R411), decrypted under the wrong key where the line
was written under another (R422). -/
def Store.byte (m : Store) (k a : Nat) : Byte :=
  if m.bad (a / 64) then 0
  else if assocGet m.keys (a / 64) = k then m.bytes.get a
  else ((crossKey (assocGet m.keys (a / 64)) k (a / 64) (m.bytes.getN (a / 64 * 64) 64))[a % 64]?).getD 0
def Store.read (m : Store) (k a n : Nat) : List Byte := (List.range n).map fun i => m.byte k (a + i)

/-- Mark a line: zero data, no symbol errors of its own (R411). -/
def Store.mark (m : Store) (line : Nat) : Store :=
  { m with bytes := m.bytes.putN (64 * line) (List.replicate 64 0)
           marks := if m.marks.contains line then m.marks else line :: m.marks
           errs := assocSet m.errs line 0 }
/-- A whole line written: a fresh codeword, no mark (R411). -/
def Store.putLine (m : Store) (k line : Nat) (bs : List Byte) : Store :=
  { bytes := m.bytes.putN (64 * line) bs, marks := m.marks.filter (· != line), errs := assocSet m.errs line 0
    keys := assocSet m.keys line k }
/-- Bytes of one line written: all 64 clear a mark, fewer are discarded in a marked line (R411), as in one that has more
symbols in error than the code corrects, which a visit of the scrubber then marks; fewer errors stay (log entry 19). A
line of another key is read under the writer's key and written back under it (R422). -/
def Store.putPart (m : Store) (k a : Nat) (bs : List Byte) : Store :=
  if bs.length = 64 then m.putLine k (a / 64) bs
  else if m.bad (a / 64) then m
  else if assocGet m.keys (a / 64) = k then { m with bytes := m.bytes.putN a bs }
  else { m with bytes := (m.bytes.putN (a / 64 * 64) (m.read k (a / 64 * 64) 64)).putN a bs
                keys := assocSet m.keys (a / 64) k }
/-- Bytes written from a, line by line. -/
def Store.writeFuel : Nat → Store → Nat → Nat → List Byte → Store
  | 0, m, _, _, _ => m
  | f + 1, m, k, a, bs =>
    if bs.isEmpty then m
    else Store.writeFuel f (m.putPart k a (bs.take (64 - a % 64))) k (a + (64 - a % 64)) (bs.drop (64 - a % 64))
def Store.write (m : Store) (k a : Nat) (bs : List Byte) : Store := m.writeFuel (bs.length + 1) k a bs
/-- Every line of n bytes from a zeroed with fresh ECC (R172). -/
def Store.zeroRange (m : Store) (a n : Nat) : Store :=
  { bytes := ⟨m.bytes.cells.filter fun c => c.1 < a || a + n ≤ c.1⟩
    marks := m.marks.filter fun l => 64 * l + 63 < a || a + n ≤ 64 * l
    errs := m.errs.filter fun p => 64 * p.1 + 63 < a || a + n ≤ 64 * p.1
    keys := m.keys.filter fun p => 64 * p.1 + 63 < a || a + n ≤ 64 * p.1 }

/-! ### Access to the units -/

def State.die (s : State) (d : Nat) : Die := (s.dies[d]?).getD .reset
def State.core (s : State) (d c : Nat) : Core := ((s.die d).cores[c]?).getD .reset
def State.pkg (s : State) (p : Nat) : Pkg := (s.pkgs[p]?).getD ⟨⟨[]⟩, .same, [], .reset, .reset⟩
def State.updDie (s : State) (d : Nat) (f : Die → Die) : State := { s with dies := s.dies.modify d f }
def Die.updCore (x : Die) (c : Nat) (f : Core → Core) : Die := { x with cores := x.cores.modify c f }
def State.updCore (s : State) (d c : Nat) (f : Core → Core) : State := s.updDie d fun x => x.updCore c f
def State.updPkg (s : State) (p : Nat) (f : Pkg → Pkg) : State := { s with pkgs := s.pkgs.modify p f }
/-- Whether a die and a core of it exist. -/
def State.hasDie (s : State) (d : Nat) : Bool := decide (d < s.dies.length)
def State.hasCore (s : State) (d c : Nat) : Bool := s.hasDie d && decide (c < (s.die d).cores.length)
/-- The package of a die (R9). -/
def pkgOf (d : Nat) : Nat := d / 8

/-! ### Basin banks (R167, R168) -/

/-- The bank group, the bank of the die and the row of a basin line (R167). -/
def basinGroup (line : Nat) : Nat := line % 64
def basinBank (line : Nat) : Nat := 8 * basinGroup line + line / 64 % 8
def basinRow (line : Nat) : Nat := line / 512
/-- A requester presents an access to every line of n bytes from a physical basin address (R168). -/
def Die.present (y : Die) (requester pa n : Nat) : Die :=
  { y with trace := { y.trace with asks := y.trace.asks ++ (linesOf pa n).map fun l => (requester, basinGroup l) } }
/-- The requesters that are no core, no engine and no cascade (R168). -/
def fabricPort : Nat := 53
def windowPort : Nat := 54

/-! ### The host's view (R180, R365) -/

/-- What the host reads at an address, the device holding v there. -/
def HostView.byte (w : HostView) (v : Byte) (a : Nat) : Byte :=
  match w.hidden.find? fun c => c.1 == a with
  | some c => c.2
  | none => ((w.fresh.find? fun c => c.1 == a).map (·.2)).getD v
/-- The n bytes that the host reads from an address over a memory. -/
def HostView.read (w : HostView) (m : Memory) (a n : Nat) : List Byte := (List.range n).map fun i => w.byte (m.get (a + i)) (a + i)
/-- The device writes v where it held `old`: the host goes on seeing what it saw. -/
def HostView.wrote (w : HostView) (a : Nat) (old v : Byte) : HostView :=
  let seen := w.byte old a
  ⟨if w.hidden.any (fun c => c.1 == a) || seen == v then w.hidden else (a, seen) :: w.hidden,
   w.fresh.filter fun c => c.1 != a⟩
/-- The device writes bytes from a over a memory. -/
def HostView.wroteN (w : HostView) (m : Memory) (a : Nat) : List Byte → HostView
  | [] => w
  | v :: vs => (w.wrote a (m.get a) v).wroteN m (a + 1) vs
/-- The host writes bytes from a: the device does not see them yet. -/
def HostView.hostWrote (w : HostView) (a : Nat) : List Byte → HostView
  | [] => w
  | v :: vs => HostView.hostWrote ⟨w.hidden.filter fun c => c.1 != a, (a, v) :: w.fresh.filter fun c => c.1 != a⟩ (a + 1) vs
/-- The host sees value v of a byte that the device has written, the device holding `now` there. -/
def HostView.show (w : HostView) (a : Nat) (v now : Byte) : HostView :=
  { w with hidden := if v = now then w.hidden.filter fun c => c.1 != a
                     else w.hidden.map fun c => if c.1 = a then (a, v) else c }
/-- The bytes of a range that the device has still to take in, lowest address first, and the view without them. -/
def HostView.freshIn (w : HostView) (a n : Nat) : List (Nat × Byte) :=
  ((List.range n).filterMap fun i => w.fresh.find? fun c => c.1 == a + i)
def HostView.dropFresh (w : HostView) (a n : Nat) : HostView :=
  { w with fresh := w.fresh.filter fun c => decide (c.1 < a ∨ a + n ≤ c.1) }

/-! ### Physical addresses (R246) -/

/-- Where a physical address leads on the die that performs the access. -/
inductive PaPlace where
  | stack (off : Nat)
  | window (die off : Nat)
  | host (addr : Nat)
  | unreachable
  deriving DecidableEq, Repr

/-- R246: PA[55:52] selects the region; any other nonzero bit that the table gives as zero is unreachable. -/
def paPlace (d pa : Nat) : PaPlace :=
  if pa < 2 ^ 36 then .stack pa
  else if 2 ^ 52 ≤ pa ∧ pa < 2 ^ 52 + 2 ^ 23 then .window (8 * pkgOf d + (pa - 2 ^ 52) / 2 ^ 20) (pa % 2 ^ 20)
  else if 2 ^ 53 ≤ pa ∧ pa < 2 ^ 53 + 2 ^ 48 then .host (pa - 2 ^ 53)
  else .unreachable

/-- The key an access of a tenant uses (R422): the tenant's, else the package's platform key. -/
def State.keyOf (s : State) (d tenant : Nat) : Nat :=
  ((s.pkg (pkgOf d)).sec.tkeys.find? fun p => p.1 == tenant).elim (s.pkg (pkgOf d)).sec.plat (·.2)

/-- n bytes at a PA, which must not cross a region, and whether a line of them is marked. -/
def State.readPa (s : State) (d k pa n : Nat) : List Byte × Bool :=
  match paPlace d pa with
  | .stack a => ((s.die d).stack.read k a n, (s.die d).stack.anyBad a n)
  | .window w a => ((s.die w).basin.read 0 a n, (s.die w).basin.anyBad a n)
  | .host a => ((s.pkg (pkgOf d)).host.getN a n, false)
  | .unreachable => (List.replicate n 0, false)

/-- Bytes written at a PA, by a requester where it is a window (R168). The host does not see them yet, unless they are
(R365). -/
def State.writePaBy (s : State) (q d k pa : Nat) (bs : List Byte) : State :=
  match paPlace d pa with
  | .stack a => s.updDie d fun x => { x with stack := x.stack.write k a bs, hview := x.hview.wroteN x.stack.bytes a bs }
  | .window w a => s.updDie w fun x => { (x.present q a bs.length) with basin := x.basin.write 0 a bs }
  | .host a => s.updPkg (pkgOf d) fun p => { p with host := p.host.putN a bs, hview := p.hview.wroteN p.host a bs }
  | .unreachable => s
def State.writePa (s : State) (d k pa : Nat) (bs : List Byte) : State := s.writePaBy windowPort d k pa bs

/-- A stack line marked by something other than its own symbol errors (R189, R411): counted and recorded. -/
def Die.markStack (x : Die) (line : Nat) : Die :=
  { x with stack := x.stack.mark line
           hbm := { x.hbm with ue := x.hbm.ue + 1, elaLine := line, elaVal := true } }
/-- Mark the lines that n bytes at a PA touch (R189): in the stack and in the basin; host memory has no marks. -/
def State.markPa (s : State) (d pa n : Nat) : State :=
  match paPlace d pa with
  | .stack a => s.updDie d fun x => (linesOf a n).foldl Die.markStack x
  | .window w a => s.updDie w fun x => { x with basin := (linesOf a n).foldl Store.mark x.basin }
  | _ => s

/-- A stack line an access finds uncorrectable is marked and counted; one with 1 to 4 symbols in error is counted
(R410, R411). -/
def Die.touchLine (x : Die) (line : Nat) : Die :=
  let e := assocGet x.stack.errs line
  if e = 0 || x.stack.marks.contains line then x
  else if e ≤ 4 then { x with hbm := { x.hbm with ce := x.hbm.ce + 1 } }
  else { x with stack := x.stack.mark line
                hbm := { x.hbm with ue := x.hbm.ue + 1, elaLine := line, elaVal := true } }

/-- The row of a stack line that an access opens or finds open (R417), with the access's hint (R418). -/
def Die.openRow (x : Die) (line : Nat) (h : Hint) : Die :=
  let pc := line / 64 % 64
  let b := Config.bankOf line
  let u := Config.subOf line
  let others := x.hbm.rows.filter fun r => !(r.pc == pc && r.bank == b && r.sub == u)
  let full := decide (4 ≤ (others.filter fun r => r.pc == pc && r.bank == b).length)
  let kept := if full then others.filter (fun r => !(r.pc == pc && r.bank == b && r.sub == Config.rowVictim line)) else others
  { x with hbm := { x.hbm with rows := ⟨pc, b, u, Config.rowOf line, h, 0⟩ :: kept } }

/-- What reading n bytes at a PA does to the die (R168, R410, R411, R417). -/
def State.touchPaBy (s : State) (q d pa n : Nat) (h : Hint) : State :=
  match paPlace d pa with
  | .stack a => s.updDie d fun x => (linesOf a n).foldl (fun x l => (x.touchLine l).openRow l h) x
  | .window w a => s.updDie w fun x => x.present q a n
  | _ => s
def State.touchPa (s : State) (d pa n : Nat) (h : Hint) : State := s.touchPaBy windowPort d pa n h
/-- The rows that a write of n bytes at a PA opens (R417), with its hint (R190, R418). -/
def State.openPa (s : State) (d pa n : Nat) (h : Hint) : State :=
  match paPlace d pa with
  | .stack a => s.updDie d fun x => (linesOf a n).foldl (fun x l => x.openRow l h) x
  | _ => s

/-! ### What a flush covers, a release shows and an inv takes in (R180, R365) -/

/-- A line's bytes from the host taken into a stack: a whole line as one write (R411). -/
def Store.takeLine (m : Store) (k : Nat) (line : Nat) (cs : List (Nat × Byte)) : Store :=
  if cs.length = 64 then m.putLine k line (cs.map (·.2)) else cs.foldl (fun m c => m.putPart k c.1 [c.2]) m
/-- The host's writes to n bytes of a die's stack taken in, line by line, under the platform key (R422). -/
def Die.takeFresh (y : Die) (k a n : Nat) : Die :=
  { y with stack := (linesOf a n).foldl (fun m l => m.takeLine k l ((y.hview.freshIn a n).filter fun c => c.1 / 64 == l)) y.stack
           hview := y.hview.dropFresh a n }
def Pkg.takeFresh (p : Pkg) (a n : Nat) : Pkg :=
  { p with host := (p.hview.freshIn a n).foldl (fun m c => m.put c.1 c.2) p.host, hview := p.hview.dropFresh a n }
/-- The host's writes to n bytes at a PA taken in. -/
def State.takeFresh (s : State) (d pa n : Nat) : State :=
  match paPlace d pa with
  | .stack a => s.updDie d fun y => y.takeFresh (s.pkg (pkgOf d)).sec.plat a n
  | .host a => s.updPkg (pkgOf d) fun p => p.takeFresh a n
  | _ => s
/-- Every write of a package's host taken in: its advance of a queue is a release to the kernel (R359). -/
def Die.takeAll (y : Die) (k : Nat) : Die :=
  let ls := (y.hview.fresh.map fun c => c.1 / 64).eraseDups
  ls.foldl (fun y l => y.takeFresh k (64 * l) 64) y
def Pkg.takeAll (p : Pkg) : Pkg :=
  let ls := (p.hview.fresh.map fun c => c.1 / 64).eraseDups
  ls.foldl (fun p l => p.takeFresh (64 * l) 64) p
def State.takeHost (s : State) (p : Nat) : State :=
  ((List.range 8).foldl (fun t i => t.updDie (8 * p + i) fun y => y.takeAll (s.pkg p).sec.plat) s).updPkg p Pkg.takeAll
/-- The bytes that a flush of n bytes at a PA carries to where the host reads them. -/
def State.flushed (s : State) (d launch kpos pa n : Nat) : List Flushed :=
  match paPlace d pa with
  | .stack a => ((s.die d).hview.hidden.filter fun c => decide (a ≤ c.1 ∧ c.1 < a + n)).map fun c =>
      ⟨launch, kpos, some d, c.1, (s.die d).stack.bytes.get c.1⟩
  | .host a => ((s.pkg (pkgOf d)).hview.hidden.filter fun c => decide (a ≤ c.1 ∧ c.1 < a + n)).map fun c =>
      ⟨launch, kpos, none, c.1, (s.pkg (pkgOf d)).host.get c.1⟩
  | _ => []
def Flushed.of (f : Flushed) (launch kpos : Nat) : Bool := f.launch == launch && f.kpos == kpos
/-- A release of a context at the package or wider: what its flushes have covered is shown to the host (R365). -/
def State.publishTo (s : State) (p launch kpos : Nat) : State :=
  let l := (s.pkg p).flushed.filter fun f => f.of launch kpos
  let s1 := l.foldl (fun s f => match f.die with
    | some d => s.updDie d fun y => { y with hview := y.hview.show f.addr f.val (y.stack.bytes.get f.addr) }
    | none => s.updPkg p fun g => { g with hview := g.hview.show f.addr f.val (g.host.get f.addr) }) s
  s1.updPkg p fun g => { g with flushed := g.flushed.filter fun f => !f.of launch kpos }

/-- Whether the pseudo-channel of a stack access is retraining, so that the access waits (R415). -/
def State.channelBusy (s : State) (d pa n : Nat) : Bool :=
  match paPlace d pa with
  | .stack a => (linesOf a n).any fun l => (s.die d).hbm.training.contains (l / 64 % 64)
  | _ => false

end Sys2Proof.Machine
end

