-- ==== Sys2Proof/Machine/Translate.lean ====
section
/-!
DEFINITION. Sys2Proof/Machine/Translate.lean: address translation (R240 to R256): range tables, page-table walks,
permissions, dirty tracking, the partition map, and the events that drop cached translations.
-/
namespace Sys2Proof.Machine
open Sys2Proof

/-- The kinds of access of KXSYN.ACC (R247), in encoding order. -/
inductive Acc where
  | read | write | fetch | atomic
  deriving DecidableEq, Repr

def Acc.code : Acc → Nat
  | .read => 0
  | .write => 1
  | .fetch => 2
  | .atomic => 3

/-- A failed translation (R247): the fields of KXSYN and the address KTVAL takes. -/
structure XFault where
  kind   : Nat
  range  : Bool
  stage2 : Bool
  level  : Nat
  acc    : Nat
  tval   : Nat
  deriving DecidableEq, Repr

/-- KXSYN (R247). -/
def XFault.word (f : XFault) : W64 :=
  BitVec.ofNat 64 (f.kind * 256 + boolBit f.range * 32 + boolBit f.stage2 * 16 + f.level % 4 * 4 + f.acc % 4)
/-- The token status of an engine command's failed translation (R247): 2 for a permission failure, else 1. -/
def XFault.status (f : XFault) : Nat := if f.kind = 2 then 2 else 1

/-- What a translation yields: the IPA, the PA, whether stage 1 named a weight region, and the leaves walked to. -/
structure XOk where
  ipa : Nat
  pa  : Nat
  wgt : Bool
  walked : List TlbEntry
  deriving DecidableEq, Repr

/-- A stage's answer: the output address, its permission bits (R, W, X, WGT, APP), and where it was decided. -/
structure StageOut where
  out   : Nat
  r     : Bool
  w     : Bool
  x     : Bool
  wgt   : Bool
  app   : Bool
  range : Bool
  level : Nat
  walked : List TlbEntry
  deriving DecidableEq, Repr

def fieldOf (v : W64) (hi lo : Nat) : Nat := bitField v.toNat hi lo
def bitOf (v : W64) (i : Nat) : Bool := v.toNat.testBit i

/-! ### Range tables (R241, R242) -/

/-- A nonzero zero field, or W and WGT both set (R241). -/
def rangeBad (lo hi off attr : W64) : Bool :=
  fieldOf lo 63 56 != 0 || fieldOf lo 11 0 != 0 || fieldOf hi 63 56 != 0 || fieldOf hi 11 0 != 0 ||
  fieldOf off 63 56 != 0 || fieldOf off 11 0 != 0 || fieldOf attr 63 6 != 0 || (bitOf attr 2 && bitOf attr 4)

/-- The lowest-numbered range entry that decides address x: a match, a bad match, or an unread entry met first. -/
def lookupRange : List RangeSlot → Nat → Option (Except (Nat × Option (Nat × Nat × Bool)) StageOut)
  | [], _ => none
  | .unread kind stage2 ipa level rng :: _, _ => some (.error (kind, if stage2 then some (ipa, level, rng) else none))
  | .entry lo hi off attr :: t, x =>
    if bitOf attr 0 && decide (fieldOf lo 55 12 ≤ x / 2 ^ 12 ∧ x / 2 ^ 12 ≤ fieldOf hi 55 12) then
      if rangeBad lo hi off attr then some (.error (3, none))
      else some (.ok ⟨(x + off.toNat) % 2 ^ 56, bitOf attr 1, bitOf attr 2, bitOf attr 3, bitOf attr 4, bitOf attr 5, true, 0, []⟩)
    else lookupRange t x

/-! ### The page table (R243) -/

/-- The index of an address at a level (R243). -/
def walkIndex (x : Nat) : Nat → Nat
  | 0 => x / 2 ^ 39
  | 1 => x / 2 ^ 30 % 512
  | 2 => x / 2 ^ 21 % 512
  | _ => x / 2 ^ 12 % 512
/-- The size a leaf maps at a level (R243). -/
def leafSize (e : W64) : Nat → Nat
  | 1 => 2 ^ 30
  | 2 => 2 ^ 21
  | _ => if bitOf e 7 then 2 ^ 16 else 2 ^ 12
/-- A bad entry (R243). -/
def entryBad (e : W64) (l : Nat) : Bool :=
  fieldOf e 63 56 != 0 || fieldOf e 11 8 != 0 || (bitOf e 1 && l == 0) || (!bitOf e 1 && l == 3) ||
  (bitOf e 7 && l != 3) || (!bitOf e 1 && fieldOf e 7 2 != 0) ||
  (bitOf e 1 && e.toNat / 2 ^ 12 % 2 ^ 44 * 2 ^ 12 % leafSize e l != 0) || (bitOf e 3 && bitOf e 5)
/-- The ADDR field of an entry. -/
def entryAddr (e : W64) : Nat := fieldOf e 55 12 * 2 ^ 12
/-- What a leaf answers for x. -/
def leafOut (x : Nat) (e : W64) (l : Nat) (walked : List TlbEntry) : StageOut :=
  ⟨entryAddr e + x % leafSize e l, bitOf e 2, bitOf e 3, bitOf e 4, bitOf e 5, bitOf e 6, false, l, walked⟩

/-- The walk from level l with `fuel` levels left: `rd` reads an 8-byte entry; a miss, a bad entry and an unreadable
entry are reported at their level by `mk` (kind, level). -/
def walkFrom (rd : Nat → Nat → Except XFault W64) (mk : Nat → Nat → XFault) (stage2 : Bool) (x : Nat) :
    Nat → Nat → Nat → Except XFault StageOut
  | 0, l, _ => .error (mk 1 l)
  | fuel + 1, l, t =>
    match rd (t + 8 * walkIndex x l) l with
    | .error f => .error f
    | .ok e =>
      if !bitOf e 0 then .error (mk 1 l)
      else if entryBad e l then .error (mk 3 l)
      else if bitOf e 1 then
        .ok (leafOut x e l [⟨stage2, x / leafSize e l * leafSize e l, leafSize e l, e, l⟩])
      else walkFrom rd mk stage2 x fuel (l + 1) (entryAddr e)

/-- The root register's EN, LEN and BASE (R240), then the walk. -/
def walkRoot (root : W64) (rd : Nat → Nat → Except XFault W64) (mk : Nat → Nat → XFault) (stage2 : Bool) (x : Nat) :
    Except XFault StageOut :=
  if !bitOf root 0 || decide (2 ^ fieldOf root 5 1 ≤ x / 2 ^ 39) then .error (mk 1 0)
  else walkFrom rd mk stage2 x 4 0 (fieldOf root 55 12 * 2 ^ 12)

/-- A cached leaf of a stage that covers x. -/
def cachedLeaf (tlb : List TlbEntry) (stage2 : Bool) (x : Nat) : Option StageOut :=
  (tlb.find? fun t => t.stage2 == stage2 && decide (t.base ≤ x ∧ x < t.base + t.size)).map fun t =>
    leafOut x t.leaf t.level []

/-- An 8-byte table entry at a PA: KIND 6 where nothing is there, KIND 4 on a marked line (R246, R247). -/
def State.tableWord (s : State) (d k pa : Nat) (mk : Nat → XFault) : Except XFault W64 :=
  if paPlace d pa = .unreachable then .error (mk 6)
  else if (s.readPa d k pa 8).2 then .error (mk 4)
  else .ok (leWord (s.readPa d k pa 8).1)

/-- Whether stage 2 is on (R240). -/
def stage2On (x : Core) : Bool := bitOf x.x.ks2root 0 || fieldOf x.x.ks2rtab 6 0 != 0

/-- Stage 2 of an IPA before its permissions are looked at; `acc` is what KXSYN.ACC would hold. -/
def State.stage2 (s : State) (d k : Nat) (x : Core) (acc ipa : Nat) : Except XFault StageOut :=
  match lookupRange x.xl.rt2 ipa with
  | some (.ok o) => .ok o
  | some (.error (kind, _)) => .error ⟨kind, true, true, 0, acc, ipa⟩
  | none =>
    match (if Config.useCached s.steps then cachedLeaf x.xl.tlb true ipa else none) with
    | some o => .ok o
    | none => walkRoot x.x.ks2root (fun pa l => s.tableWord d k pa fun kind => ⟨kind, false, true, l, acc, ipa⟩)
        (fun kind l => ⟨kind, false, true, l, acc, ipa⟩) true ipa

/-- Stage 2 with its permission and reachability checks; the identity where it is off (R240, R245, R246). -/
def State.toPa (s : State) (d k : Nat) (x : Core) (r w f : Bool) (acc ipa : Nat) : Except XFault (Nat × List TlbEntry) :=
  if !stage2On x then .ok (ipa, [])
  else
    match s.stage2 d k x acc ipa with
    | .error e => .error e
    | .ok o =>
      if (r && !o.r) || (w && !o.w) || (f && !o.x) then .error ⟨2, o.range, true, o.level, acc, ipa⟩
      else if paPlace d o.out = .unreachable then .error ⟨6, o.range, true, o.level, acc, ipa⟩
      else .ok (o.out, o.walked)

/-- A stage-1 table entry at an IPA: put through stage 2 with R only (R247), then read. -/
def State.tableWord1 (s : State) (d k : Nat) (x : Core) (va acc ipa l : Nat) : Except XFault W64 :=
  match s.toPa d k x true false false 0 ipa with
  | .error e => .error e
  | .ok (pa, _) => s.tableWord d k pa fun kind =>
      if kind = 6 && stage2On x then ⟨6, false, true, 0, 0, ipa⟩ else ⟨kind, false, false, l, acc, va⟩

/-- Stage 1 of a VA before its permissions are looked at (R243). -/
def State.stage1 (s : State) (d k : Nat) (x : Core) (acc va : Nat) : Except XFault StageOut :=
  match lookupRange x.xl.rt1 va with
  | some (.ok o) => .ok o
  | some (.error (kind, some (ipa, level, rng))) => .error ⟨kind, rng, true, level, 0, ipa⟩
  | some (.error (kind, none)) => .error ⟨kind, true, false, 0, acc, va⟩
  | none =>
    match (if Config.useCached s.steps then cachedLeaf x.xl.tlb false va else none) with
    | some o => .ok o
    | none => walkRoot x.x.kptroot (fun ipa l => s.tableWord1 d k x va acc ipa l)
        (fun kind l => ⟨kind, false, false, l, acc, va⟩) false va

/-- What an access needs (R245). -/
def Acc.needs : Acc → Bool × Bool × Bool
  | .read => (true, false, false)
  | .write => (false, true, false)
  | .fetch => (false, false, true)
  | .atomic => (true, true, false)

/-- The translation of a VA below 2^56 for the context of core record x at level `lvl`, performed on die d (R243 to
R247): both stages, their permissions, and a reachable PA. -/
def State.translate (s : State) (d : Nat) (x : Core) (lvl : Nat) (acc : Acc) (va : Nat) : Except XFault XOk :=
  let k := s.keyOf d x.ctx.tenant
  match s.stage1 d k x acc.code va with
  | .error e => .error e
  | .ok o =>
    let (r, w, f) := acc.needs
    if (r && !o.r) || (w && !o.w) || (f && !o.x) || (lvl == 0 && !o.app) then
      .error ⟨2, o.range, false, o.level, acc.code, va⟩
    else
      match s.toPa d k x r w f acc.code o.out with
      | .error e => .error e
      | .ok (pa, walked) =>
        if !stage2On x && paPlace d pa = .unreachable then .error ⟨6, o.range, false, o.level, acc.code, va⟩
        else .ok ⟨o.out, pa, o.wgt, o.walked ++ walked⟩

/-- The translations a walk leaves cached (R248, R249). -/
def Core.cache (x : Core) (t : List TlbEntry) : Core :=
  { x with xl := { x.xl with tlb := t ++ x.xl.tlb.filter fun e => !t.any fun n => n.stage2 == e.stage2 && n.base == e.base } }

/-! ### Dirty tracking (R253) -/

/-- The dirty bit of a write to an IPA, set before the write: the new state, or the stage-2 fault it raises. -/
def State.setDirty (s : State) (d : Nat) (x : Core) (acc ipa : Nat) : Except XFault State :=
  if !bitOf x.x.kdirty 0 then .ok s
  else
    let g := ipa / 2 ^ 12 % 2 ^ 44
    let pa := fieldOf x.x.kdirty 55 12 * 2 ^ 12 + 8 * (g / 64)
    let k := s.keyOf d x.ctx.tenant
    if 2 ^ fieldOf x.x.kdirty 6 1 ≤ g then .error ⟨5, false, true, 0, acc, ipa⟩
    else if paPlace d pa = .unreachable then .error ⟨6, false, true, 0, acc, ipa⟩
    else if (s.readPa d k pa 8).2 then .error ⟨4, false, true, 0, acc, ipa⟩
    else .ok (s.writePa d k pa (leBytes 8 ((leNat (s.readPa d k pa 8).1) ||| 2 ^ (g % 64))))

/-! ### Reading the range tables (R242) -/

/-- Entry i of the stage-2 table, at a PA. -/
def State.readSlot2 (s : State) (d : Nat) (x : Core) (i : Nat) : RangeSlot :=
  let k := s.keyOf d x.ctx.tenant
  let pa := fieldOf x.x.ks2rtab 55 11 * 2 ^ 11 + 32 * i
  if paPlace d pa = .unreachable then .unread 6 false 0 0 false
  else if (s.readPa d k pa 32).2 then .unread 4 false 0 0 false
  else
    let b := (s.readPa d k pa 32).1
    .entry (leWord (b.take 8)) (leWord ((b.drop 8).take 8)) (leWord ((b.drop 16).take 8)) (leWord (b.drop 24))
/-- Entry i of the stage-1 table, at an IPA put through stage 2. -/
def State.readSlot1 (s : State) (d : Nat) (x : Core) (i : Nat) : RangeSlot :=
  let k := s.keyOf d x.ctx.tenant
  let ipa := fieldOf x.x.krtab 55 11 * 2 ^ 11 + 32 * i
  match s.toPa d k x true false false 0 ipa with
  | .error e => .unread e.kind true ipa e.level e.range
  | .ok (pa, _) =>
    if paPlace d pa = .unreachable then .unread 6 false 0 0 false
    else if (s.readPa d k pa 32).2 then .unread 4 false 0 0 false
    else
      let b := (s.readPa d k pa 32).1
      .entry (leWord (b.take 8)) (leWord ((b.drop 8).take 8)) (leWord ((b.drop 16).take 8)) (leWord (b.drop 24))
/-- COUNT entries of a table, at most 64 (R240). -/
def State.readTab2 (s : State) (d : Nat) (x : Core) : List RangeSlot :=
  (List.range (fieldOf x.x.ks2rtab 6 0)).map (s.readSlot2 d x)
def State.readTab1 (s : State) (d : Nat) (x : Core) : List RangeSlot :=
  (List.range (fieldOf x.x.krtab 6 0)).map (s.readSlot1 d x)

/-! ### The partition map (R255) -/

/-- A peer number: three 4-bit coordinates, x in the high four bits (R255, R333). -/
def peerX (p : Nat) : Nat := p / 256 % 16
def peerY (p : Nat) : Nat := p / 16 % 16
def peerZ (p : Nat) : Nat := p % 16

/-- The physical pod peer of virtual peer p, or the SUB of the peer fault (R255, R259). -/
def State.peer (s : State) (d : Nat) (x : Core) (p : Nat) : Except Nat Nat :=
  if decide (fieldOf x.x.kpmap 11 8 < peerX p) || decide (fieldOf x.x.kpmap 7 4 < peerY p) ||
      decide (fieldOf x.x.kpmap 3 0 < peerZ p) || decide (4096 ≤ p) then .error 1
  else
    let k := s.keyOf d x.ctx.tenant
    let pa := fieldOf x.x.kpmap 55 13 * 2 ^ 13 + 2 * p
    let e := leNat (s.readPa d k pa 2).1
    if paPlace d pa = .unreachable || (s.readPa d k pa 2).2 then .error 4
    else if !e.testBit 15 then .error 2
    else if e.testBit 14 then .error 3
    else if bitField e 13 12 != 0 then .error 4
    else .ok (e % 4096)

end Sys2Proof.Machine
end

