-- ==== Sys2Proof/Machine/Withdraw.lean ====
section
/-!
DEFINITION. Sys2Proof/Machine/Withdraw.lean: the pod's coordinates (R333), and what a freeze takes back of a core's work
elsewhere: its tasks with no row entered (R296) and its waiting tickets (R347).
-/
namespace Sys2Proof.Machine
open Sys2Proof

/-! ### The pod (R333) -/

def State.xe (s : State) : Nat := s.pod.1
def State.ye (s : State) : Nat := s.pod.2.1
def State.ze (s : State) : Nat := s.pod.2.2
/-- The coordinates of die d: package d div 8, packages numbered in x, then y, then z. -/
def State.coords (s : State) (d : Nat) : Nat × Nat × Nat :=
  let p := d / 8
  let m := d % 8
  let w := max 1 (s.xe / 2)
  let h := max 1 (s.ye / 2)
  (2 * (p % w) + m % 2, 2 * (p / w % h) + m / 2 % 2, 2 * (p / (w * h)) + m / 4)
/-- Physical peer number. -/
def State.peerNo (s : State) (d : Nat) : Nat :=
  let c := s.coords d
  c.1 * 256 + c.2.1 * 16 + c.2.2
/-- The die at coordinates. -/
def State.dieAt (s : State) (x y z : Nat) : Nat :=
  let w := max 1 (s.xe / 2)
  let h := max 1 (s.ye / 2)
  8 * (x / 2 + w * (y / 2 + h * (z / 2))) + x % 2 + 2 * (y % 2) + 4 * (z % 2)
/-- The die of a physical peer number. -/
def State.dieOfPeer (s : State) (n : Nat) : Nat := s.dieAt (peerX n) (peerY n) (peerZ n)

/-! ### Tasks withdrawn (R296) -/

/-- A row that has entered its cascade. -/
def PassRow.begun (r : PassRow) : Bool := r.st != .waiting
/-- Whether a task of a die has a row that has entered. -/
def Die.taskBegun (y : Die) (t : Task) : Bool := y.cascs.any fun c => c.rows.any fun r => r.task == t.seq && r.begun
/-- The tasks of a core on die y that a freeze withdraws. -/
def Die.withdrawn (y : Die) (d c : Nat) : List Task := y.tasks.filter fun t => t.die == d && t.core == c && !y.taskBegun t
/-- Whether a row is parked in the confluence (R294, R295). -/
def PassRow.isParked (r : PassRow) : Bool := r.st == .parked || r.st == .again
/-- A pass whose rows have all scattered or parked has ended, and leaves its cascade (R302). -/
def Cascade.endPass (y : Cascade) : Cascade :=
  { y with pass := y.pass.bind fun p => if y.rows.any fun r => r.pass == p.id && !r.isParked then some p else none }
/-- The rows of tasks leave a cascade; a pass that has none left is abandoned. -/
def Cascade.dropRows (y : Cascade) (ts : List Nat) : Cascade :=
  { y with rows := y.rows.filter fun r => !ts.contains r.task }.endPass
/-- Tasks leave a die. -/
def Die.dropTasks (y : Die) (ts : List Nat) : Die :=
  { y with tasks := y.tasks.filter (fun t => !ts.contains t.seq), cascs := y.cascs.map fun c => c.dropRows ts }

/-- What the `extra` words of a task command hold: the status carried from earlier repetitions, and the patience left. -/
def Cmd.carry (k : Cmd) : Nat := k.extra.headD 0
def Cmd.withdraw (k : Cmd) (patience : Nat) : Cmd := { k with st := .withdrawn, extra := [k.carry, patience] }
/-- The command of a task withdrawn with what is left of its patience. -/
def Core.withdrawCmd (x : Core) (num patience : Nat) : Core :=
  { x with fl := { x.fl with cmds := x.fl.cmds.map fun k =>
      if k.tl == .tlm && k.num == num then k.withdraw patience else k } }
/-- A core's tasks on one die withdrawn. -/
def State.withdrawFrom (s : State) (dd d c : Nat) : State :=
  let y := s.die dd
  let ts := y.withdrawn d c
  (s.updDie dd fun y => y.dropTasks (ts.map (·.seq))).updCore d c fun x =>
    ts.foldl (fun x t => x.withdrawCmd t.num (t.dead - y.seqr.cyc)) x
/-- A request of a core, not performed yet, that a freeze takes back of itself: forwarded rows on their way to the peer, a
waiting ticket (R347), a granule of an `rput` that is not admitted (R348). -/
def Flit.takenBack (f : Flit) (d c : Nat) : Bool :=
  f.req.die == d && f.req.core == c && f.res.isNone && (match f.req.op with
    | .rows _ => true
    | .tkwait _ _ => true
    | .store _ bulk => bulk
    | _ => false)
/-- Those, and the ORD requests that would be performed after one of them (R338). -/
def State.goesBack (s : State) (d c : Nat) (f : Flit) : Bool :=
  f.takenBack d c || (f.req.die == d && f.req.core == c && f.res.isNone && f.req.cls == .ord && f.req.tl == .tlf &&
    s.flits.any fun g => g.takenBack d c && g.req.cls == .ord && g.req.tl == .tlf && g.dst == f.dst && decide (g.req.seq < f.req.seq))
/-- Those requests taken back: their commands are sent again on resume. -/
def State.withdrawFlits (s : State) (d c : Nat) : State :=
  let mine := s.flits.filter (s.goesBack d c)
  let s1 := { s with flits := s.flits.filter fun f => !s.goesBack d c f }
  s1.updCore d c fun x => mine.foldl (fun x f =>
    match f.req.op with
    | .rows t => x.withdrawCmd f.req.num t.dead
    | _ => { x with fl := { x.fl with cmds := x.fl.cmds.map fun k =>
        if k.tl == .tlf && k.num == f.req.num then { k with st := .yielded } else k } }) x
/-- Everything of a core that waits elsewhere withdrawn (R270, R296, R347). -/
def State.withdrawAll (s : State) (d c : Nat) : State :=
  ((List.range s.dies.length).foldl (fun s dd => s.withdrawFrom dd d c) s).withdrawFlits d c

end Sys2Proof.Machine
end

