-- ==== Sys2Proof/Machine/Trace.lean ====
section
/-!
DEFINITION. Sys2Proof/Machine/Trace.lean: the trace buffer of a die (R399, R403 to R405): records, loop-exit snapshots of the
conflict matrix.
-/
namespace Sys2Proof.Machine
open Sys2Proof

/-- KTRP (R399). -/
def Trace.ptr (t : Trace) : Nat := fieldOf t.ktrp 31 0
def Trace.wrapped (t : Trace) : Bool := bitOf t.ktrp 63
def ktrpWord (ptr : Nat) (wrap : Bool) : W64 := BitVec.ofNat 64 (ptr % 2 ^ 32 + (if wrap then 2 ^ 63 else 0))
/-- The buffer's size in bytes; 0 turns tracing off. -/
def Trace.size (t : Trace) : Nat := 4096 * fieldOf t.ktrb 11 0
def Trace.base (t : Trace) : Nat := fieldOf t.ktrb 55 12 * 4096
/-- Bytes written at a PA, 32 at a time: none of the pieces crosses a region. -/
def State.writeRun (s : State) (d k pa : Nat) (bs : List Byte) : State :=
  (List.range ((bs.length + 31) / 32)).foldl (fun s i => s.writePa d k (pa + 32 * i) ((bs.drop (32 * i)).take 32)) s
/-- The bytes a record takes from offset p, with data after it from the next 64-byte boundary, if it has any. -/
def recordEnd (p : Nat) (tail : List Byte) : Nat :=
  if tail.isEmpty then p + 32 else (p + 32 + 63) / 64 * 64 + tail.length
/-- R403: a record written whole, at the start of the buffer where it does not fit before the end; KTRP moves. A buffer too
small for the record and its data keeps the record alone (log 25). -/
def State.putRecord (s : State) (d : Nat) (rec tail : List Byte) : State :=
  let t := (s.die d).trace
  if t.size = 0 then s
  else
    let wraps := decide (t.size < recordEnd t.ptr tail)
    let p := if wraps then 0 else t.ptr
    let tail := if t.size < recordEnd p tail then [] else tail
    let s1 := s.writeRun d (s.pkg (pkgOf d)).sec.plat (t.base + p) rec
    let s2 := s1.writeRun d (s.pkg (pkgOf d)).sec.plat (t.base + (p + 32 + 63) / 64 * 64) tail
    s2.updDie d fun y => { y with trace := { y.trace with ktrp := ktrpWord (recordEnd p tail) (wraps || t.wrapped) } }
/-- Bytes 0 to 23 of a record of core c (R403). -/
def State.recordHead (s : State) (d c type : Nat) : List Byte :=
  let k := (s.core d c).k
  [BitVec.ofNat 8 type, BitVec.ofNat 8 (d % 8), BitVec.ofNat 8 c, BitVec.ofNat 8 k.kslot.toNat, 0, 0, 0, 0] ++
    leBytes 8 k.kscyc.toNat ++ leBytes 8 (s.die d).kfrc
/-- A record arises: it is written when the cycle ends, with the others of the cycle. -/
def State.queueRecord (s : State) (d c type : Nat) (data : Option W64) : State :=
  s.updDie d fun y => { y with trace := { y.trace with pend := y.trace.pend ++ [⟨c, s.recordHead d c type, data⟩] } }
/-- The stop record (R401), the trap record (R399), with their DATA. -/
def State.stopRecord (s : State) (d c : Nat) (epc : W64) : State := s.queueRecord d c 1 (some epc)
def State.trapRecord (s : State) (d c cause sub mpc : Nat) : State :=
  if bitOf (s.core d c).x.kdbgc 6 then s.queueRecord d c 2 (some (BitVec.ofNat 64 (cause % 256 * 256 + sub % 256 + mpc % 2 ^ 32 * 2 ^ 16)))
  else s
/-- A loop-exit record (R405). -/
def State.loopRecord (s : State) (d c : Nat) : State :=
  if bitOf (s.core d c).x.kdbgc 7 then s.queueRecord d c 3 none else s
/-- The 16384 bytes of a snapshot: the count of cell n at byte 4n (R405). -/
def Trace.image (t : Trace) : List Byte := (List.range 4096).flatMap fun n => leBytes 4 (assocGet t.matrix n)
/-- A record written; a loop exit with a snapshot where none was taken in the 4096 cycles before (R405). -/
def State.flushRecord (s : State) (d : Nat) (q : TraceRec) : State :=
  let t := (s.die d).trace
  match q.data with
  | some v => s.putRecord d (q.head ++ leBytes 8 v.toNat) []
  | none =>
    if t.size = 0 then s
    else if t.snap = 0 || decide (4096 < t.snapAge) then
      (s.putRecord d (q.head ++ leBytes 8 ((t.snap + 1) % 2 ^ 32)) t.image).updDie d fun y =>
        { y with trace := { y.trace with snap := t.snap + 1, snapAge := 0 } }
    else s.putRecord d (q.head ++ leBytes 8 (t.snap % 2 ^ 32)) []
/-- The records of a cycle are written in ascending core number, those of one core in the order they arose (R403). -/
def State.flushTrace (s : State) (d : Nat) : State :=
  let l := (s.die d).trace.pend
  ((List.range 32).foldl (fun s c => (l.filter fun q => q.core == c).foldl (fun s q => s.flushRecord d q) s) s).updDie d fun y =>
    { y with trace := { y.trace with pend := [] } }

end Sys2Proof.Machine
end

