-- ==== Sys2Proof/Machine/Ops.lean ====
section
/-!
DEFINITION. Sys2Proof/Machine/Ops.lean: the named operations over registers and memory that the meanings share: scalar
registers with their pending and poison bits, the store path, the claims of commands, and above all taking an exception
(R258 to R262, R270) and returning from one (R263).
-/
namespace Sys2Proof.Machine
open Sys2Proof

/-- The outcome of a meaning. -/
abbrev Out := Host.Outcome State Fault Refusal

/-! ### The core in focus -/

/-- The core whose group is issuing. -/
def State.me (s : State) : Core := s.core s.cur.die s.cur.core
def State.updMe (s : State) (f : Core → Core) : State := s.updCore s.cur.die s.cur.core f
/-- The die in focus. -/
def State.myDie (s : State) : Die := s.die s.cur.die
def State.updMyDie (s : State) (f : Die → Die) : State := s.updDie s.cur.die f
/-- The package of the die in focus. -/
def State.myPkg (s : State) : Pkg := s.pkg (pkgOf s.cur.die)
/-- Whether the core in focus exists. -/
def State.focusOk (s : State) : Bool := s.hasCore s.cur.die s.cur.core

/-! ### Scalar registers (R98 to R100, R262) -/

/-- A scalar register; s0 always reads zero, is never pending and never poisoned (R98). -/
def Core.reg (x : Core) (r : Nat) : SReg := if r = 0 then ⟨0, false, false⟩ else (x.regs[r]?).getD ⟨0, false, false⟩
def Core.val (x : Core) (r : Nat) : W64 := (x.reg r).val
def Core.poisoned (x : Core) (r : Nat) : Bool := (x.reg r).poison
/-- Whether a register was pending when the context was held: then a handler's read does not stall and its write is
discarded (R262). -/
def Core.heldPending (x : Core) (r : Nat) : Bool := x.ctl.hold.elim false fun h => h.pend.contains r
/-- Whether the core's earlier loads and atomics have returned. -/
def Core.loadsBack (x : Core) : Bool := x.fl.loads.isEmpty && x.fl.amos.isEmpty
/-- Whether a register holds the token of a `pbar` and earlier loads are out: its read is an acquire and waits for them
(R206, R212). -/
def Core.acquires (x : Core) (r : Nat) : Bool := !x.loadsBack && x.fl.acqs.any fun a => a.1 == r && a.2 == x.val r
/-- Whether a read or write of a register stalls (R99, R212, R262). -/
def Core.stalls (x : Core) (r : Nat) : Bool := ((x.reg r).pend && !x.heldPending r) || x.acquires r
def Core.updReg (x : Core) (r : Nat) (f : SReg → SReg) : Core :=
  if r = 0 then x else { x with regs := x.regs.modify r f }
/-- A register written by a C lane: discarded for s0 (R98) and for a register pending at the hold (R262). -/
def Core.write (x : Core) (r : Nat) (v : W64) (p : Bool) : Core :=
  if x.heldPending r then x else x.updReg r fun _ => ⟨v, false, p⟩
/-- A register left pending for a result still to come. -/
def Core.pendReg (x : Core) (r : Nat) : Core :=
  if x.heldPending r then x else x.updReg r fun g => { g with pend := true }
/-- A register written by a completing result or command: during the hold its pending bit stays until the hold ends
(R262). -/
def Core.land (x : Core) (r : Nat) (v : W64) (p : Bool) : Core :=
  match x.ctl.hold with
  | some h =>
    if h.pend.contains r then
      { x.updReg r (fun _ => ⟨v, true, p⟩) with ctl := { x.ctl with hold := some { h with wrote := r :: h.wrote } } }
    else x.updReg r fun _ => ⟨v, false, p⟩
  | none => x.updReg r fun _ => ⟨v, false, p⟩
/-- A claim released unchanged (R102, R263). -/
def Core.release (x : Core) (r : Nat) : Core := x.updReg r fun g => { g with pend := false }

def Core.setCtl (x : Core) (f : Control → Control) : Core := { x with ctl := f x.ctl }
def Core.setFl (x : Core) (f : InFlight → InFlight) : Core := { x with fl := f x.fl }
def Core.setK (x : Core) (f : KRegs → KRegs) : Core := { x with k := f x.k }
def Core.setQ (x : Core) (f : Queues → Queues) : Core := { x with q := f x.q }

/-- The level the core's context runs at: the held level while a handler runs (R262). -/
def Core.ctxLevel (x : Core) : Nat := x.ctl.hold.elim x.ctl.level (·.ran)

/-- The queue of an engine; the C lanes have none. -/
def Queues.get (q : Queues) : Engine → List QEntry
  | .c => []
  | .v => q.v
  | .m => q.m
  | .y => q.y
  | .f => q.f
def Queues.set (q : Queues) (e : Engine) (l : List QEntry) : Queues :=
  match e with
  | .c => q
  | .v => { q with v := l }
  | .m => { q with m := l }
  | .y => { q with y := l }
  | .f => { q with f := l }
/-- Every queued group. -/
def Queues.all (q : Queues) : List QEntry := q.v ++ q.m ++ q.y ++ q.f

/-! ### Line addresses and micro-PCs -/

/-- KMPC of a single-step group in repetition r (R17). -/
def mpcOf (rep step : Nat) : Nat := rep * 2 ^ 24 + step
/-- KEPC (R267). -/
def epcWord (line lane : Nat) : W64 := BitVec.ofNat 64 (line % 2 ^ 56 / 32 * 32 + 4 * lane)
/-- The address a branch of `off` lines names (R36), modulo 2^64. -/
def lineTarget (addr : Nat) (off : Int) : Nat := (((addr : Int) + 32 * off) % (2 ^ 64 : Nat)).toNat

/-! ### Stores in flight (R116, R357) -/

/-- Whether two byte ranges overlap. -/
def overlaps (a n b m : Nat) : Bool := decide (a < b + m ∧ b < a + n ∧ 0 < n ∧ 0 < m)
/-- Whether n bytes at a PA of die d share a byte with m bytes at a PA of die e. -/
def placesOverlap (d pa n e qa m : Nat) : Bool :=
  match paPlace d pa, paPlace e qa with
  | .stack a, .stack b => d == e && overlaps a n b m
  | .window v a, .window w b => v == w && overlaps a n b m
  | .host a, .host b => pkgOf d == pkgOf e && overlaps a n b m
  | _, _ => false
/-- The quad of a die core (R12). -/
def quadOf (c : Nat) : Nat := c / 4
/-- Whether core c of die d lies in the unit of a scope around core f of die e (R206, R209). -/
def inScope (sc : Scope) (d c e f : Nat) : Bool :=
  match sc with
  | .lane => d == e && c == f
  | .core => d == e && c == f
  | .quad => d == e && quadOf c == quadOf f
  | .die => d == e
  | .pkg => pkgOf d == pkgOf e
  | .pod => true

def PStore.toQ (t : PStore) (c : Nat) : QStore := ⟨c, t.pa, t.ipa, t.bytes, t.key, t.seq, t.lock⟩
/-- Stores performed at their homes, in order. -/
def State.writeAll (s : State) (d : Nat) (l : List QStore) : State := l.foldl (fun s t => s.writePa d t.key t.pa t.bytes) s
/-- The stores a core sees that are not at their homes: its quad's write path, then its own store path up to store number
`seq` (R116, R357). -/
def State.seenStores (s : State) (d c seq : Nat) : List QStore :=
  ((s.die d).qpath.filter fun t => quadOf t.core == quadOf c) ++
  (((s.core d c).fl.stores.filter fun t => decide (t.seq < seq)).map fun t => t.toQ c)
/-- What core c reads at a PA: what the memory would hold if the stores it sees were performed. -/
def State.coreRead (s : State) (d c pa n seq : Nat) : List Byte × Bool :=
  (s.writeAll d (s.seenStores d c seq)).readPa d (s.keyOf d (s.core d c).ctx.tenant) pa n

/-- The stores of a core that are not at their homes, with those of quad-mates that it has acquired: what a release of it
covers (R206, R360). -/
def State.unperformed (s : State) (d c : Nat) : List (Nat × Nat) :=
  ((s.core d c).fl.stores.map fun t => (c, t.seq)) ++
  (((s.die d).qpath.filter fun t => t.core == c || (s.core d c).fl.seen.contains (t.core, t.seq)).map fun t => (t.core, t.seq))
/-- Those of a list that are not at their homes yet, oldest first. -/
def State.stillOut (s : State) (d : Nat) (rel : List (Nat × Nat)) : List QStore :=
  if rel.isEmpty then [] else
  ((s.die d).qpath.filter fun t => rel.contains (t.core, t.seq)) ++
  ((rel.map (·.1)).eraseDups.flatMap fun c =>
    ((s.core d c).fl.stores.filter fun t => rel.contains (c, t.seq)).map fun t => t.toQ c)
/-- The machine as an engine reads it: the stores released to its command are performed, for it alone (R359). -/
def State.released (s : State) (d : Nat) (rel : List (Nat × Nat)) : State := s.writeAll d (s.stillOut d rel)
/-- Whether a store released to a command still has to reach some of n bytes at a PA of die e: the command's own write there
waits for it (R361). -/
def State.storeAhead (s : State) (d : Nat) (rel : List (Nat × Nat)) (e pa n : Nat) : Bool :=
  (s.stillOut d rel).any fun t => placesOverlap d t.pa t.bytes.length e pa n

/-- The dirty bit of a store set again, before the store becomes visible further out (R253, R254). -/
def State.redirty (s : State) (d c ipa : Nat) : State :=
  match s.setDirty d (s.core d c) Acc.write.code ipa with
  | .ok t => t
  | .error _ => s
/-- A store performed at its home. -/
def State.performStore (s : State) (d : Nat) (t : QStore) : State :=
  ((s.redirty d t.core t.ipa).writePa d t.key t.pa t.bytes).openPa d t.pa t.bytes.length .plain
/-- The quad-path stores of a die that meet a predicate are performed at their homes, oldest first. -/
def State.performQuad (s : State) (d : Nat) (p : QStore → Bool) : State :=
  (((s.die d).qpath.filter p).foldl (fun s t => s.performStore d t) s).updDie d fun x =>
    { x with qpath := x.qpath.filter fun t => !p t }
/-- The core-path stores of core c that meet a predicate move to the quad's write path, oldest first. -/
def State.toQuad (s : State) (d c : Nat) (p : PStore → Bool) : State :=
  let go := ((s.core d c).fl.stores.filter p).map fun t => t.toQ c
  ((go.foldl (fun s t => s.redirty d c t.ipa) s).updDie d fun x => { x with qpath := x.qpath ++ go }).updCore d c fun x =>
    x.setFl fun f => { f with stores := f.stores.filter fun t => !p t }
/-- Every store of core c performed, when its context leaves the core; those of quad-mates that stand before them, or that
the context has acquired, first (R360, R361). -/
def State.drainStores (s : State) (d c : Nat) : State :=
  let x := s.core d c
  let mine := (s.die d).qpath.filter (fun t => t.core == c) ++ x.fl.stores.map fun t => t.toQ c
  if mine.isEmpty && x.fl.seen.isEmpty then s
  else (s.toQuad d c fun _ => true).performQuad d fun t => t.core == c || (quadOf t.core == quadOf c &&
    (x.fl.seen.contains (t.core, t.seq) || mine.any fun o => overlaps o.pa o.bytes.length t.pa t.bytes.length))

/-! ### The halves of atomics (R209) -/

/-- Whether a store is the second half of an atomic on n bytes at a PA of die d, by core f of die e, within whose scope core c
of die d lies, while the scope `sc` of the latter's own atomic holds the former. -/
def QStore.locks (t : QStore) (e : Nat) (sc : Scope) (d c pa n : Nat) : Bool :=
  t.lock.elim false fun l => placesOverlap e t.pa t.bytes.length d pa n && inScope l e t.core d c && inScope sc d c e t.core
/-- The dies on which stores to a PA of die d can be on their way. -/
def storeDies (d pa : Nat) : List Nat :=
  match paPlace d pa with
  | .stack _ => [d]
  | _ => (List.range 8).map fun i => 8 * pkgOf d + i
/-- The second halves of atomics of one core of die e that nothing may come before. -/
def State.settleCore (s : State) (e f : Nat) (sc : Scope) (d c pa n : Nat) : State :=
  match ((s.core e f).fl.stores.filter fun t => (t.toQ f).locks e sc d c pa n).getLast? with
  | none => s
  | some l => s.toQuad e f fun t => decide (t.seq ≤ l.seq) && placesOverlap e t.pa t.bytes.length d pa n
/-- Those of a die performed, with what stands before them in the same quad's path. -/
def State.settleDie (s : State) (e : Nat) (sc : Scope) (d c pa n : Nat) : State :=
  let s1 := (List.range 32).foldl (fun s f => s.settleCore e f sc d c pa n) s
  let quads := ((s1.die e).qpath.filter fun t => t.locks e sc d c pa n).map fun t => quadOf t.core
  s1.performQuad e fun t => quads.contains (quadOf t.core) && placesOverlap e t.pa t.bytes.length d pa n
/-- Before an atomic of core c of die d with a scope touches n bytes at a PA: an atomic begun there by another core, each in
the other's scope, is ended (R209). -/
def State.settle (s : State) (sc : Scope) (d c pa n : Nat) : State :=
  (storeDies d pa).foldl (fun s e => s.settleDie e sc d c pa n) s

/-! ### Loads (R115 to R117) -/

def ldBytes : LdWidth → Nat
  | .n8 => 1
  | .i8 => 1
  | .n16 => 2
  | .i16 => 2
  | .n32 => 4
  | .i32 => 4
  | .d64 => 8
/-- A loaded value extended as its width says (R115). -/
def ldExtend (w : LdWidth) (v : Nat) : W64 :=
  match w with
  | .i8 => (BitVec.ofNat 8 v).signExtend 64
  | .i16 => (BitVec.ofNat 16 v).signExtend 64
  | .i32 => (BitVec.ofNat 32 v).signExtend 64
  | _ => BitVec.ofNat 64 v
/-- The bytes a scalar read takes. -/
def LoadKind.bytes : LoadKind → Nat
  | .ld w => ldBytes w
  | .ldp n _ _ => n
  | .slot => 8
/-- The value a scalar read yields from its bytes: window bytes beyond the bound read as zero (R117). -/
def LoadKind.value (k : LoadKind) (bs : List Byte) : W64 :=
  match k with
  | .ld w => ldExtend w (leNat bs)
  | .ldp _ _ _ => BitVec.ofNat 64 (leNat bs)
  | .slot => BitVec.ofNat 64 (leNat bs)
/-- The places a scalar read takes its bytes from: PA and count. -/
def Load.places (l : Load) : List (Nat × Nat) :=
  match l.kind with
  | .ldp n next count => if count = 0 then [(l.pa, n)] else [(l.pa, n), (next, count)]
  | k => [(l.pa, k.bytes)]
/-- Whether a scalar read takes a byte of n bytes at a PA. -/
def Load.reads (l : Load) (pa n : Nat) : Bool := l.places.any fun p => overlaps p.1 p.2 pa n
/-- What an outstanding read returns now: its value and poison. -/
def State.loadValue (s : State) (d c : Nat) (l : Load) : W64 × Bool :=
  let r := l.places.map fun p => s.coreRead d c p.1 p.2 l.seq
  if r.any (·.2) then (0, true) else (l.kind.value (r.flatMap (·.1)), false)

/-! ### The freeze (R270) -/

/-- The registers pending now. -/
def Core.pendList (x : Core) : List Nat := (List.range 64).filter fun r => (x.reg r).pend

/-- The first stream tile (R194). -/
def firstStream : Nat := 48
/-- The bindings of tile t changed that meet a predicate: the present one and those replaced (R196). -/
def Core.updBindings (x : Core) (t : Nat) (p : Binding → Bool) (f : Binding → Option Binding) : Core :=
  { x with strm := x.strm.modify (t - firstStream) fun b => b.bind fun b => if p b then f b else some b
           ended := x.ended.filterMap fun e => if e.1 == t && p e.2 then (f e.2).map fun b => (t, b) else some e }
/-- Every binding of a core changed. -/
def Core.mapBindings (x : Core) (f : Binding → Binding) : Core :=
  { x with strm := x.strm.map fun b => b.map f, ended := x.ended.map fun e => (e.1, f e.2) }
/-- Whether some row of a V result has cycles left. -/
def VRes.late (v : VRes) : Bool := v.rows.any (· != 0)
/-- The V record of a result that is not all written (R270, R278). -/
def VRes.dump (v : VRes) : VRec := ⟨v.dst, v.num, v.tile, v.kvstat, v.rows⟩
/-- Of two lists of rows of n entries, the second's rows where `done` holds and the first's elsewhere. -/
def mergeRows {α : Type} (n : Nat) (done : Nat → Bool) (old new : List α) : List α :=
  List.zipWith (fun p e => if done ((p : Nat) / n) then e.2 else e.1) (List.range old.length) (old.zip new)
/-- A tile some of whose 16 rows have been written (R128, R135): its tag and origin record are the new ones since the issue
(R97). -/
def Tile.halfway (old new : Tile) (done : Nat → Bool) : Tile :=
  { new with cells := mergeRows 64 done old.cells new.cells, poison := mergeRows 64 done old.poison new.poison
             side := mergeRows 8 done old.side new.side }
/-- What the freeze leaves of a V result: the rows that are not due are as they were; of a drain's tile nothing has entered
the ring; the KVSTAT bits it set are still to be set. -/
def Core.giveBack (x : Core) (v : VRes) : Core :=
  let y := match v.num with
    | none => { x with tiles := x.tiles.set v.dst (v.old.halfway v.tile fun r => (v.rows[r]?).getD 0 == 0) }
    | some n => x.updBindings v.dst (fun b => b.num == n.1) fun b => some { b with ring := b.ring.filter fun t => t.num != n.2 }
  y.setK fun k => { k with kvstat := k.kvstat &&& ~~~ BitVec.ofNat 64 v.kvstat }

/-- A queued group none of whose repetitions counts as captured. -/
def QEntry.anew (e : QEntry) : QEntry := { e with rep := 0, acc := [] }
/-- What a freeze does with the core's own work (R270): results of more than one cycle keep their remaining cycles, V
results too; loads and atomics issued are awaited and kept with 0 remaining; the slot read of a `callg` is given up
with its lane; groups only captured so far stay queued whole; copies and fills begun stop at their next step; spout
rings are discarded (R200); tasks with no row entered and waiting tickets are withdrawn (R296, R347). -/
def State.freezeCore (s : State) (d c : Nat) : State :=
  let x := s.core d c
  let loads := x.fl.loads.filterMap fun l =>
    match l.kind with
    | .slot => none
    | _ => some (⟨l.reg, (s.loadValue d c l).1, (s.loadValue d c l).2, 0⟩ : SRes)
  let amos := x.fl.amos.map fun a => (⟨a.reg, a.old, false, 0⟩ : SRes)
  let vs := x.fl.vres.filter VRes.late
  ((s.withdrawAll d c).updCore d c fun x =>
    { (vs.foldl (fun x v => x.giveBack v) x).mapBindings (fun b => if b.kind == .spout then { b with ring := [] } else b) with
      fl := { x.fl with results := [], loads := [], amos := [], dumped := x.fl.dumped ++ x.fl.results ++ loads ++ amos
                        vres := [], vdumped := x.fl.vdumped ++ vs.map VRes.dump
                        cmds := x.fl.cmds.map fun k =>
                          if k.engine == .y && k.st == .running then { k with st := .waiting } else k }
      q := ⟨x.q.v, x.q.m.map QEntry.anew, x.q.y.map QEntry.anew, x.q.f.map QEntry.anew⟩
      ctl := { x.ctl with frozen := true } }).updDie d fun y =>
    { y with copies := y.copies.map fun e => if e.cur.elim false (fun p => p.1 == c) then { e with cur := none } else e }

/-! ### Lanes of a line -/

/-- The C lanes of a line from a lane on. -/
def cGroups (words : List Nat) (lane : Nat) : List Group :=
  match words with
  | [] => []
  | h :: ws => ((lineGroups h ws 1 none [] []).getD []).filter fun g => g.engine == .c && decide (lane ≤ g.lane)
/-- Whether every C lane of the line has issued. -/
def LineBuf.done (l : LineBuf) : Bool := (cGroups l.words l.lane).isEmpty

/-! ### Taking an exception (R258 to R262) -/

def levelA : Nat := 0
def levelS : Nat := 1
def levelH : Nat := 2

/-- The trap registers of a level (R266): S has one bank, H the other. -/
def Core.bank (x : Core) (lvl : Nat) : TrapBank := if lvl = 1 then x.bankS else x.bankH
def Core.setBank (x : Core) (lvl : Nat) (f : TrapBank → TrapBank) : Core :=
  if lvl = 1 then { x with bankS := f x.bankS } else { x with bankH := f x.bankH }
/-- KTVEC.LINE. -/
def TrapBank.vector (b : TrapBank) : Nat := fieldOf b.ktvec 55 5 * 32

/-- Where a trap goes (R258): the target level, one level higher where KTVEC.LINE is 0; `none` when the core stops. -/
def trapTarget (x : Core) (lvl : Nat) (toH : Bool) : Option Nat :=
  let h := if x.bankH.vector = 0 then none else some 2
  if lvl = 0 then (if toH then h else if x.bankS.vector = 0 then h else some 1)
  else if lvl = 1 then h
  else none

/-- A fault at H, or one with no handler above it: the core stops and HINT.CSTOP is raised (R258, R437). -/
def State.stopCore (s : State) (d c : Nat) : State :=
  (s.updCore d c fun x => x.setCtl fun t => { t with run := .stopped }).updDie d fun y =>
    { y with hreg := { y.hreg with hint := y.hreg.hint ||| 1, stopCore := c } }

/-- The fault reported: the one of the group delivered first (R260). -/
def firstFault (f : PendFault) (rest : List PendFault) : PendFault :=
  rest.foldl (fun a b => if b.rank < a.rank then b else a) f

/-- Whether a fault goes to H from A (R258). -/
def PendFault.toH (f : PendFault) : Bool := f.stage2 || f.cause == 0x40

/-- What is known of the decision of the line of a delivery rank (R261, R263): the line whose C lanes are issuing, or one that
has resolved and has work left. -/
def Control.decOf (t : Control) (rank : Nat) : Decision :=
  match t.line with
  | some l => if l.rank = rank / 8 * 8 then l.dec else ((t.decs.find? fun p => p.1 == rank / 8 * 8).map (·.2)).getD .undecided
  | none => ((t.decs.find? fun p => p.1 == rank / 8 * 8).map (·.2)).getD .undecided
/-- No loop is active (R123): a handler starts so. -/
def LoopState.idle (l : LoopState) : LoopState := { l with d := 0, pipe := false, plvl := 0, stg := 0 }

/-- Trap entry proper (R261), the context being held: the bank written, the loop state shadowed, the level raised, the
handler's line next. -/
def Core.enterBank (x : Core) (tgt : Nat) (f : PendFault) : Core :=
  let x1 := x.setBank tgt fun b =>
    { b with kcause := BitVec.ofNat 64 (f.cause * 256 + f.sub), ktval := f.tval, kepc := epcWord f.addr f.lane
             kmpc := BitVec.ofNat 64 f.mpc, kxsyn := f.xsyn.getD b.kxsyn, pp := x.ctl.level, skip := false
             shadow := x.loops, dec := x.ctl.decOf f.rank, line := f.addr, clane := f.clane, rank := f.rank }
  { x1 with
    loops := x.loops.idle
    ctl := { x.ctl with level := tgt, line := none, nextLine := (x1.bank tgt).vector, faults := [], refetch := none
                        noProg := 0, brkDone := false } }

/-- The hold a trap takes (R261, R262): what the context was doing, and the registers pending. -/
def Core.holdOf (x : Core) (tgt : Nat) : Hold :=
  ⟨tgt, x.ctl.level, x.ctl.line, x.ctl.nextLine, x.pendList, [], x.ctl.refetch⟩

/-- A stop has fallen due (R400): the core freezes at this edge. -/
def Core.stopNow (x : Core) (reason : Nat) : Core :=
  x.setCtl fun t => { t with stops := ⟨reason, 0⟩ :: t.stops.filter fun r => decide (1 < r.wait) }
/-- The cycle of an armed stop (R400): the edge at its end is the stop's. -/
def Core.endsAtStop (x : Core) : Bool := bitOf x.x.kdbgc 0 && x.k.kscyc == x.x.kstopc
/-- Every C lane of the delivered line has issued under STEP (R400). -/
def Core.stepDone (x : Core) : Bool := bitOf x.x.kdbgc 3 && x.ctl.line.elim false LineBuf.done
/-- The REASON of the stop that falls on the edge at the end of this cycle, if one does (R272, R400, R402): that of a debug
stop wins. -/
def Core.edgeStop (x : Core) : Option Nat :=
  let l := x.ctl.stops.filter fun r => decide (r.wait ≤ 1)
  if x.ctl.hold.isSome || x.ctl.run != .running || x.ctl.frozen then none
  else if x.endsAtStop || x.stepDone then some 2
  else if l.isEmpty then none else some ((l.map (·.reason)).foldl max 0)
/-- Whether a fault gives way to a stop at the same edge: an issue fault does, and arises again after the resume (R402). -/
def PendFault.yields (f : PendFault) : Bool := f.cause != 0x20 && f.cause != 0x40

/-- TRAP ENTRY (R261): the reported fault is the earliest delivered of `f` and those pending; the context is frozen and
held unless it is held already; the target level's handler is next. A stop on the same edge as an issue fault is taken
instead (R402). -/
def State.takeTrap (s : State) (d c : Nat) (f0 : PendFault) : State :=
  let x := s.core d c
  let f := firstFault f0 x.ctl.faults
  match (if f.yields then x.edgeStop else none) with
  | some reason => s.updCore d c fun x => x.stopNow reason
  | none =>
    match trapTarget x x.ctl.level f.toH with
    | none => s.stopCore d c
    | some tgt =>
      let s1 := match x.ctl.hold with
        | some _ => s.updCore d c fun x => x.enterBank tgt f
        | none => (s.freezeCore d c).updCore d c fun y =>
            (y.enterBank tgt f).setCtl fun t => { t with hold := some (x.holdOf tgt) }
      s1.trapRecord d c f.cause f.sub f.mpc

/-- Whether the repetitions of a group are captured one by one into one command (R43). -/
def gathers : Engine → Bool
  | .m => true
  | .y => true
  | .f => true
  | _ => false
/-- The fault of the group in focus, precise at its lane (R31, R105): its repetition stands in KMPC[31:24] (R17); of a group
that has only been captured so far nothing is done, and it starts again from its first repetition (R19). -/
def State.faultHere (s : State) (cause sub : Nat) (tval : W64) : PendFault :=
  ⟨s.cur.rank, cause, sub, tval, s.cur.addr, s.cur.lane, if gathers s.cur.engine then 0 else mpcOf s.cur.rep 0, none, false,
   s.cur.engine == .c⟩
/-- The head of a queue whose repetitions are captured forgets them. -/
def Core.forget (x : Core) (e : Engine) : Core :=
  if gathers e then x.setQ fun q => q.set e (match q.get e with
    | [] => []
    | h :: t => h.anew :: t) else x
/-- Raise a fault of the group in focus. -/
def State.raisePend (s : State) (f : PendFault) : Out :=
  .next ((s.updMe fun x => x.forget s.cur.engine).takeTrap s.cur.die s.cur.core f)
def State.raise (s : State) (cause sub : Nat) (tval : W64) : Out := s.raisePend (s.faultHere cause sub tval)
/-- A translation fault of the group in focus (R247): KXSYN is written, stage 2 goes to H. -/
def State.raiseX (s : State) (e : XFault) : Out :=
  s.raisePend
    { s.faultHere 0x0D 0 (BitVec.ofNat 64 e.tval) with xsyn := some e.word, stage2 := e.stage2 }
/-- The instruction word in focus. -/
def State.wordHere (s : State) : W64 := BitVec.ofNat 64 s.cur.word
/-- Illegal instruction, format mismatch, privilege (R259). -/
def State.illegal (s : State) : Out := s.raise 0x02 0 s.wordHere
def State.formatFault (s : State) : Out := s.raise 0x03 0 s.wordHere
def State.privFault (s : State) : Out := s.raise 0x12 0 s.wordHere
/-- A poisoned scalar consumed (R105): KTVAL is the register number. -/
def State.poisonFault (s : State) (r : Nat) : Out := s.raise 0x07 1 (BitVec.ofNat 64 r)
/-- Nothing moves: the group waits and is tried again (R99). -/
def State.stall (s : State) : Out := .next s

/-! ### Issue -/

/-- The group in focus has issued: a C lane moves on, or to its next repetition (R14, R43); the head of a queue leaves
it, or goes to its next repetition. The context has progressed (R384). -/
def Core.issued (x : Core) (e : Engine) (rep reps : Nat) : Core :=
  match e with
  | .c => x.setCtl fun t =>
      { t with noProg := 0
               line := t.line.map fun l =>
                 if rep + 1 < reps then { l with rep := rep + 1 } else { l with rep := 0, lane := l.lane + 1 } }
  | _ =>
    { x with
      ctl := { x.ctl with noProg := 0 }
      q := x.q.set e (match x.q.get e with
        | [] => []
        | h :: t => if rep + 1 < reps then { h with rep := rep + 1 } :: t else t) }
def State.issued (s : State) : State := s.updMe fun x => x.issued s.cur.engine s.cur.rep s.cur.reps
/-- The context has progressed (R384). -/
def Core.progress (x : Core) : Core := x.setCtl fun t => { t with noProg := 0 }
/-- What the line's control transfer decides (R114). -/
def Core.setDec (x : Core) (dec : Decision) : Core :=
  x.setCtl fun t => { t with line := t.line.map fun l => { l with dec := dec } }

/-- A C lane that reads the registers `rs` and writes d, none of which stalls (R99, R100). -/
def State.cReady (s : State) (rs : List Nat) : Bool := !rs.any s.me.stalls
/-- The first poisoned register of a list (R105): the one KTVAL names where several are poisoned; the lists are in the order
of the operand fields, which is the model's choice (log 32). -/
def Core.firstPoison (x : Core) (rs : List Nat) : Option Nat := rs.find? x.poisoned

/-! ### Returning from an exception (R263) -/

/-- The hold ends (R262, R263): the pending bits of registers written during it clear. -/
def Core.endPend (x : Core) (h : Hold) : Core := h.wrote.foldl Core.release x

/-- The fetch after a return (R263): for a C-lane cause the line at KEPC is fetched again and only its C lanes from
KEPC's lane issue, the first from the repetition that faulted (R17, R19); else the context goes on where it stood. -/
def Core.resumeFetch (x : Core) (b : TrapBank) (h : Option Hold) : Core :=
  let line := fieldOf b.kepc 55 5 * 32
  let lane := fieldOf b.kepc 4 2
  let dec := if line = b.line then b.dec else .undecided
  let past := b.skip || b.kcause.toNat / 256 == 0x14
  let again : Refetch := ⟨line, if past then lane + 1 else lane, if past then 0 else fieldOf b.kmpc 31 24, dec,
    if line = b.line then some (b.rank / 8 * 8) else none⟩
  if b.clane then x.setCtl fun t => { t with line := none, refetch := some again }
  else
    match h with
    | some h => x.setCtl fun t => { t with line := h.line, nextLine := h.nextLine, refetch := h.refetch }
    | none => x.setCtl fun t => { t with line := none, nextLine := line, refetch := none }

/-- SKIP on a return (R263): a parked command completes with its fault status kept; a queued group is removed: `leave` releases
what it claimed and gives up the stream tiles that its delivery numbered (R102, R197, R198). -/
def Core.skipWork (x : Core) (b : TrapBank) (leave : QEntry → Core → Core) : Core :=
  if b.kcause.toNat / 256 == 0x20 then
    x.setFl fun f => { f with cmds := f.cmds.map fun k =>
      if k.rank == b.rank && k.st == .parked then { k with st := .finished k.status } else k }
  else if b.clane then x
  else
    let drop := fun (l : List QEntry) => l.filter fun g => g.rank != b.rank
    let gone := x.q.all.filter fun g => g.rank == b.rank
    (gone.foldl (fun x e => leave e x) x).setQ fun q => ⟨drop q.v, drop q.m, drop q.y, drop q.f⟩

/-- Parked and withdrawn commands replay from their records (R263, R269). -/
def Cmd.replay (k : Cmd) : Cmd :=
  match k.st with
  | .parked => { k with st := .waiting }
  | .withdrawn => { k with st := .waiting }
  | .yielded => { k with st := .waiting }
  | _ => k

/-- The drain writes that failed are tried again (R199). -/
def Core.retryDrains (x : Core) : Core :=
  x.mapBindings fun b => { b with failed := none }

/-- The return (R263) at the current level, which is S or H and has a held context at or below it. -/
def Core.eretCore (x : Core) (leave : QEntry → Core → Core) : Core :=
  let lvl := x.ctl.level
  let b := x.bank lvl
  let x1 := { x with loops := b.shadow, ctl := { x.ctl with level := b.pp } }
  match x.ctl.hold with
  | none => x1
  | some h =>
    let x2 := if b.skip then x1.skipWork b leave else x1
    if b.pp = 0 || h.level = lvl then
      (((x2.endPend h).setCtl (fun t => { t with hold := none, frozen := false })).setFl (fun f =>
        { f with cmds := f.cmds.map Cmd.replay })).retryDrains.resumeFetch b (some h)
    else x2.resumeFetch b none

end Sys2Proof.Machine
end

