-- ==== Sys2Proof/Machine/Scalar.lean ====
section
/-!
DEFINITION. Sys2Proof/Machine/Scalar.lean: the control core's integer, bit-field, constant, select and token
instructions (R98 to R112).
-/
namespace Sys2Proof.Machine
open Sys2Proof

/-! ### Arithmetic (R107, R109, R110) -/

def boolWord (b : Bool) : W64 := if b then 1 else 0
def mulHigh (a b : W64) : W64 := ((a.signExtend 128 * b.signExtend 128) >>> 64).setWidth 64
def mulHighU (a b : W64) : W64 := ((a.zeroExtend 128 * b.zeroExtend 128) >>> 64).setWidth 64
def divS (a b : W64) : W64 := if b = 0 then BitVec.allOnes 64 else a.sdiv b
def divU (a b : W64) : W64 := if b = 0 then BitVec.allOnes 64 else a / b
def remS (a b : W64) : W64 := if b = 0 then a else a.srem b
def remU (a b : W64) : W64 := if b = 0 then a else a % b
/-- A register shift uses s[b][5:0] (R107). -/
def shiftAmount (b : W64) : Nat := b.toNat % 64
def sllW (a b : W64) : W64 := a <<< shiftAmount b
def srlW (a b : W64) : W64 := a >>> shiftAmount b
def sraW (a b : W64) : W64 := a.sshiftRight (shiftAmount b)
def minS (a b : W64) : W64 := if a.slt b then a else b
def maxS (a b : W64) : W64 := if a.slt b then b else a
def minU (a b : W64) : W64 := if a.ult b then a else b
def maxU (a b : W64) : W64 := if a.ult b then b else a
def clzW (a : W64) : W64 := BitVec.ofNat 64 (if a = 0 then 64 else 63 - a.toNat.log2)
/-- The set bits of a word, lowest first. -/
def setBits (v : Nat) (n : Nat) : List Nat := (List.range n).filter v.testBit
def ctzW (a : W64) : W64 := BitVec.ofNat 64 ((setBits a.toNat 64).headD 64)
def popcW (a : W64) : W64 := BitVec.ofNat 64 (setBits a.toNat 64).length
/-- A signed immediate as a word. -/
def immW (i : Int) : W64 := BitVec.ofInt 64 i

/-- The width a bit field keeps (R110): cut at the register edge. -/
def fieldWidth (pos len : Nat) : Nat := min len (64 - pos)
def extS (a : W64) (pos len : Nat) : W64 := BitVec.ofInt 64 (sextField (fieldWidth pos len) (a.toNat / 2 ^ pos % 2 ^ fieldWidth pos len))
def extU (a : W64) (pos len : Nat) : W64 := BitVec.ofNat 64 (a.toNat / 2 ^ pos % 2 ^ fieldWidth pos len)
def insW (d a : W64) (pos len : Nat) : W64 :=
  let m := BitVec.ofNat 64 ((2 ^ fieldWidth pos len - 1) * 2 ^ pos)
  (d &&& ~~~ m) ||| ((a <<< pos) &&& m)

/-! ### Results -/

/-- A result of one cycle (R108): written at once; poison is carried forward (R104). -/
def State.result1 (s : State) (d : Nat) (v : W64) (p : Bool) : Out := .next (s.updMe fun x => x.write d v p).issued
/-- A result of more than one cycle: the destination is pending until RESULT_READY writes it (R100, R108). -/
def State.resultLater (s : State) (d : Nat) (v : W64) (p : Bool) (cycles : Nat) : Out :=
  if d = 0 || s.me.heldPending d then .next s.issued
  else .next (s.updMe fun x => (x.pendReg d).setFl fun f => { f with results := f.results ++ [⟨d, v, p, cycles⟩] }).issued

/-- A two-source form (R107): stalls on a pending source or destination (R99); poison of either source (R104). -/
def State.alu2 (s : State) (d a b : Nat) (f : W64 → W64 → W64) : Out :=
  if s.cReady [d, a, b] then s.result1 d (f (s.me.val a) (s.me.val b)) (s.me.poisoned a || s.me.poisoned b) else s.stall
/-- A two-source form with a latency of more than one cycle (R108). -/
def State.alu2Late (s : State) (d a b cycles : Nat) (f : W64 → W64 → W64) : Out :=
  if s.cReady [d, a, b] then s.resultLater d (f (s.me.val a) (s.me.val b)) (s.me.poisoned a || s.me.poisoned b) cycles
  else s.stall
/-- A one-source form (R107, R109, R110). -/
def State.alu1 (s : State) (d a : Nat) (f : W64 → W64) : Out :=
  if s.cReady [d, a] then s.result1 d (f (s.me.val a)) (s.me.poisoned a) else s.stall
/-- A form without sources: an unpoisoned constant (R104). -/
def State.alu0 (s : State) (d : Nat) (v : W64) : Out := if s.cReady [d] then s.result1 d v false else s.stall

/-! ### The register forms (R107) -/

def execAdd (d a b : Nat) (s : State) : Out := s.alu2 d a b (· + ·)
def execSub (d a b : Nat) (s : State) : Out := s.alu2 d a b (· - ·)
def execMul (d a b : Nat) (s : State) : Out := s.alu2Late d a b 3 (· * ·)
def execMulh (d a b : Nat) (s : State) : Out := s.alu2Late d a b 3 mulHigh
def execMulhn (d a b : Nat) (s : State) : Out := s.alu2Late d a b 3 mulHighU
def execDiv (d a b : Nat) (s : State) : Out := s.alu2Late d a b 34 divS
def execDivn (d a b : Nat) (s : State) : Out := s.alu2Late d a b 34 divU
def execRem (d a b : Nat) (s : State) : Out := s.alu2Late d a b 34 remS
def execRemn (d a b : Nat) (s : State) : Out := s.alu2Late d a b 34 remU
def execAnd (d a b : Nat) (s : State) : Out := s.alu2 d a b (· &&& ·)
def execOr (d a b : Nat) (s : State) : Out := s.alu2 d a b (· ||| ·)
def execXor (d a b : Nat) (s : State) : Out := s.alu2 d a b (· ^^^ ·)
def execSll (d a b : Nat) (s : State) : Out := s.alu2 d a b sllW
def execSrl (d a b : Nat) (s : State) : Out := s.alu2 d a b srlW
def execSra (d a b : Nat) (s : State) : Out := s.alu2 d a b sraW
def execSlt (d a b : Nat) (s : State) : Out := s.alu2 d a b fun x y => boolWord (x.slt y)
def execSltn (d a b : Nat) (s : State) : Out := s.alu2 d a b fun x y => boolWord (x.ult y)
def execMin (d a b : Nat) (s : State) : Out := s.alu2 d a b minS
def execMinn (d a b : Nat) (s : State) : Out := s.alu2 d a b minU
def execMax (d a b : Nat) (s : State) : Out := s.alu2 d a b maxS
def execMaxn (d a b : Nat) (s : State) : Out := s.alu2 d a b maxU
def execClz (d a : Nat) (s : State) : Out := s.alu1 d a clzW
def execCtz (d a : Nat) (s : State) : Out := s.alu1 d a ctzW
def execPopc (d a : Nat) (s : State) : Out := s.alu1 d a popcW

/-! ### The immediate forms (R109) -/

def execAddi (d a : Nat) (imm : Int) (s : State) : Out := s.alu1 d a (· + immW imm)
def execAndi (d a : Nat) (imm : Int) (s : State) : Out := s.alu1 d a (· &&& immW imm)
def execOri (d a : Nat) (imm : Int) (s : State) : Out := s.alu1 d a (· ||| immW imm)
def execXori (d a : Nat) (imm : Int) (s : State) : Out := s.alu1 d a (· ^^^ immW imm)
def execSlli (d a sh : Nat) (s : State) : Out := s.alu1 d a (· <<< sh)
def execSrli (d a sh : Nat) (s : State) : Out := s.alu1 d a (· >>> sh)
def execSrai (d a sh : Nat) (s : State) : Out := s.alu1 d a fun x => x.sshiftRight sh
def execSlti (d a : Nat) (imm : Int) (s : State) : Out := s.alu1 d a fun x => boolWord (x.slt (immW imm))
def execSltni (d a : Nat) (imm : Int) (s : State) : Out := s.alu1 d a fun x => boolWord (x.ult (immW imm))

/-! ### Bit fields and constants (R110, R111) -/

def execExt (d a pos len : Nat) (s : State) : Out := s.alu1 d a fun x => extS x pos len
def execExtn (d a pos len : Nat) (s : State) : Out := s.alu1 d a fun x => extU x pos len
/-- `ins` reads s[d] as a source, and its poison too (R104, R110). -/
def execIns (d a pos len : Nat) (s : State) : Out := s.alu2 d d a fun x y => insW x y pos len
def execLih (d : Nat) (imm : Int) (s : State) : Out := s.alu0 d (BitVec.ofInt 64 (imm * 4096))
def execLah (d : Nat) (imm : Int) (s : State) : Out := s.alu0 d (BitVec.ofInt 64 (s.cur.addr + imm * 4096))

/-! ### commit, nop, tokens (R103, R106) -/

/-- R106: a poisoned condition is a consumer; the result carries the chosen arm's poison. -/
def execCommit (d a b : Nat) (s : State) : Out :=
  if s.cReady [d, a, b] then
    if s.me.poisoned d then s.poisonFault d
    else if s.me.val d ≠ 0 then s.result1 d (s.me.val a) (s.me.poisoned a)
    else s.result1 d (s.me.val b) (s.me.poisoned b)
  else s.stall

def execNop (s : State) : Out := .next s.issued

/-- The registers a token mask names (R103): bit 0 is ignored. -/
def tokenSet (m : W64) : List Nat := (setBits m.toNat 64).filter (· != 0)
/-- A mask of register numbers. -/
def maskOf (rs : List Nat) : Nat := rs.foldl (fun m r => m ||| 2 ^ r) 0

/-- R103: the registers of the mask pending now. -/
def execTokt (d a : Nat) (s : State) : Out :=
  if s.cReady [d, a] then
    if s.me.poisoned a then s.poisonFault a
    else s.result1 d (BitVec.ofNat 64 (maskOf ((tokenSet (s.me.val a)).filter fun r => (s.me.reg r).pend))) false
  else s.stall
/-- R103: waits until some register of the mask is not pending; its number. -/
def execTokw (d a : Nat) (s : State) : Out :=
  if s.cReady [d, a] then
    if s.me.poisoned a then s.poisonFault a
    else if (tokenSet (s.me.val a)).isEmpty then s.result1 d 64 false
    else
      match (tokenSet (s.me.val a)).find? fun r => !(s.me.reg r).pend with
      | some r => s.result1 d (BitVec.ofNat 64 r) false
      | none => s.stall
  else s.stall

/-! ### RESULT_READY (R108) -/

/-- The first element of a list that meets p, and the list without it. -/
def takeFirst {α : Type} (p : α → Bool) : List α → Option (α × List α)
  | [] => none
  | a :: t => if p a then some (a, t) else (takeFirst p t).map fun r => (r.1, a :: r.2)

/-- RESULT_READY: the result of register r whose latency has elapsed is written and r stops being pending. -/
def execResultReady (d c r : Nat) (s : State) : Out :=
  match takeFirst (fun (e : SRes) => e.reg == r && e.cycles == 0) (s.core d c).fl.results with
  | some (e, rest) => .next (s.updCore d c fun x => (x.land r e.val e.poison).setFl fun f => { f with results := rest })
  | none => .next s

end Sys2Proof.Machine
end

