-- ==== Sys2Proof/Machine/Branch.lean ====
section
/-!
DEFINITION. Sys2Proof/Machine/Branch.lean: branches, jumps, calls, loops, `chk` (R106, R112 to R126), and the choice of
the next line (R122).
-/
namespace Sys2Proof.Machine
open Sys2Proof

/-! ### Loop state (R121, R122, R125, R126) -/

def LoopState.lvl (l : LoopState) : Nat → LoopLevel
  | 0 => l.l0
  | 1 => l.l1
  | _ => l.l2
def LoopState.setLvl (l : LoopState) (k : Nat) (v : LoopLevel) : LoopState :=
  match k with
  | 0 => { l with l0 := v }
  | 1 => { l with l1 := v }
  | _ => { l with l2 := v }
/-- One level left: a `loopp` of that level is over. -/
def LoopState.pop (l : LoopState) : LoopState :=
  { l with d := l.d - 1, pipe := l.pipe && decide (l.plvl ≠ l.d - 1) }

/-- The predicate pq of the active `loopp` (R125): its trip count is ITER − (stages − 1). -/
def LoopState.pred (l : LoopState) (q : Nat) : Bool :=
  l.pipe && decide (q ≤ l.stg) && decide (q ≤ (l.lvl l.plvl).idx) &&
    decide ((l.lvl l.plvl).idx < q + ((l.lvl l.plvl).iter - l.stg))
/-- p7 to p0 as a number. -/
def LoopState.preds (l : LoopState) : Nat := maskOf ((List.range 8).filter l.pred)

/-- A taken transfer to T leaves every loop whose body does not hold T (R122). -/
def leaveLoops : Nat → LoopState → Nat → LoopState
  | 0, l, _ => l
  | f + 1, l, t =>
    if l.d = 0 then l
    else if (l.lvl (l.d - 1)).start ≤ t ∧ t < (l.lvl (l.d - 1)).fin then l
    else leaveLoops f l.pop t
/-- The end-of-body step (R122): the next line, and the loop state. -/
def endOfBody : Nat → LoopState → Nat → LoopState × Nat
  | 0, l, n => (l, n)
  | f + 1, l, n =>
    if l.d = 0 then (l, n)
    else
      let v := l.lvl (l.d - 1)
      if n ≠ v.fin then (l, n)
      else if v.idx + 1 < v.iter then (l.setLvl (l.d - 1) { v with idx := v.idx + 1 }, v.start)
      else endOfBody f l.pop n
/-- The line that follows a line at `addr` once its C lanes have issued (R121, R122). An iteration count of a `loopp` near 2^32 is
kept whole; the registers show it modulo 2^32, which is the model's choice (log 33). -/
def nextOf (l : LoopState) (addr : Nat) : Decision → LoopState × Nat
  | .taken t => (leaveLoops 3 l t, t)
  | .kept true t _ => (leaveLoops 3 l t, t)
  | .loop piped k stages cnt fin =>
    if cnt = 0 then endOfBody 3 l (addr + 32 * fin)
    else
      let l1 := l.setLvl k ⟨if piped then cnt + stages - 1 else cnt, 0, addr + 32, addr + 32 * fin⟩
      ({ l1 with d := l.d + 1, pipe := l.pipe || piped
                 plvl := if piped then k else l.plvl, stg := if piped then stages - 1 else l.stg }, addr + 32)
  | _ => endOfBody 3 l (addr + 32)

/-! ### Branches (R112) and chk (R106) -/

/-- The lane has issued with its decision. -/
def State.transfer (s : State) (dec : Decision) : Out := .next (s.updMe fun x => x.setDec dec).issued
/-- The branch target linePC + sext(off) × 32 (R36). -/
def State.branch (s : State) (cond : Bool) (off : Int) : Out :=
  s.transfer (if cond then .taken (lineTarget s.cur.addr off) else .notTaken)
/-- A branch on two registers: a poisoned operand is a consumer (R104). -/
def State.branch2 (s : State) (a b : Nat) (off : Int) (f : W64 → W64 → Bool) : Out :=
  if s.cReady [a, b] then
    match s.me.firstPoison [a, b] with
    | some r => s.poisonFault r
    | none => s.branch (f (s.me.val a) (s.me.val b)) off
  else s.stall

def execBeq (a b : Nat) (off : Int) (s : State) : Out := s.branch2 a b off (· == ·)
def execBne (a b : Nat) (off : Int) (s : State) : Out := s.branch2 a b off (· != ·)
def execBlt (a b : Nat) (off : Int) (s : State) : Out := s.branch2 a b off fun x y => x.slt y
def execBltn (a b : Nat) (off : Int) (s : State) : Out := s.branch2 a b off fun x y => x.ult y
def execBge (a b : Nat) (off : Int) (s : State) : Out := s.branch2 a b off fun x y => !x.slt y
def execBgen (a b : Nat) (off : Int) (s : State) : Out := s.branch2 a b off fun x y => !x.ult y
/-- `chk` is taken when either operand is poisoned; it consumes nothing (R106). -/
def execChk (a b : Nat) (off : Int) (s : State) : Out :=
  if s.cReady [a, b] then s.branch (s.me.poisoned a || s.me.poisoned b) off else s.stall

/-! ### Jumps and calls (R113) -/

/-- The link value (R36). -/
def State.link (s : State) : W64 := BitVec.ofNat 64 (s.cur.addr + 32)
/-- Link and transfer. -/
def State.jump (s : State) (d : Nat) (t : Nat) : Out :=
  .next ((s.updMe fun x => (x.write d s.link false).setDec (.taken t))).issued

def execJal (d : Nat) (off : Int) (s : State) : Out :=
  if s.cReady [d] then s.jump d (lineTarget s.cur.addr off) else s.stall
/-- `jalr`: the target is read before s[d] is written; nonzero bits [4:0] fault (R36, R113). -/
def execJalr (d a : Nat) (imm : Int) (s : State) : Out :=
  if s.cReady [d, a] then
    if s.me.poisoned a then s.poisonFault a
    else
      let t := (s.me.val a + BitVec.ofInt 64 (32 * imm)).toNat
      if t % 32 ≠ 0 then s.raise 0x08 0 (BitVec.ofNat 64 t) else s.jump d t
  else s.stall

/-- The GOT slot's address (R113). -/
def slotAddr (kgot : W64) (slot : Nat) : Nat := fieldOf kgot 55 3 * 8 + 8 * slot
/-- The slot read of a `callg`: a scalar read through translation, precise at the lane (R113). -/
def State.callgRead (s : State) (slot : Nat) : Out :=
  let a := slotAddr s.me.k.kgot slot
  if 2 ^ 56 ≤ a then s.raise 0x0A 0 (BitVec.ofNat 64 a)
  else if 2 ^ 56 - 2 ^ 28 ≤ a then s.raise 0x0A 0 (BitVec.ofNat 64 a)
  else
    match s.translate s.cur.die s.me s.me.ctl.level .read a with
    | .error e => s.raiseX e
    | .ok o => .next (s.updMe fun x => (x.cache o.walked).setFl fun f =>
        { f with loads := f.loads ++ [⟨.slot, 0, o.pa, f.seq⟩] })
/-- `callg` (R113): the slot is read first; then the link is written and the line transfers. The lane waits between. -/
def execCallg (d slot : Nat) (s : State) : Out :=
  if s.cReady [d] then
    if 4096 * fieldOf s.me.k.kgot 63 56 ≤ slot then s.raise 0x02 0 (BitVec.ofNat 64 slot)
    else
      match s.me.ctl.line.bind (·.slot) with
      | some (v, p) =>
        if p then s.raise 0x07 1 (BitVec.ofNat 64 (slotAddr s.me.k.kgot slot))
        else if v.toNat % 32 ≠ 0 then s.raise 0x08 0 v
        else s.jump d v.toNat
      | none => if s.me.fl.loads.any fun l => l.kind == .slot then s.stall else s.callgRead slot
  else s.stall

/-! ### Loops (R119, R120) -/

/-- The registers and the value of a count (R36, R119). -/
def countRegs : LoopCount → List Nat
  | .imm _ => []
  | .reg r => [r]
def countVal (x : Core) : LoopCount → W64
  | .imm n => BitVec.ofNat 64 n
  | .reg r => x.val r
/-- R120: what makes a loop illegal at the lane. -/
def loopIllegal (x : Core) (addr : Nat) (piped : Bool) (k : Nat) (fin : Nat) : Bool :=
  decide (k ≠ x.loops.d) || decide (x.ctx.depth ≤ x.loops.d) ||
    (decide (0 < x.loops.d) && decide ((x.loops.lvl (x.loops.d - 1)).fin < addr + 32 * fin)) || (piped && x.loops.pipe)
/-- `loop` and `loopp` (R119 to R121): the count is read, and the line's successor is decided. -/
def State.loopStart (s : State) (piped : Bool) (k stages : Nat) (cnt : LoopCount) (fin : Nat) : Out :=
  if s.cReady (countRegs cnt) then
    if loopIllegal s.me s.cur.addr piped k fin || decide (2 ^ 32 ≤ (countVal s.me cnt).toNat) then s.illegal
    else
      match s.me.firstPoison (countRegs cnt) with
      | some r => s.poisonFault r
      | none => s.transfer (.loop piped k stages (countVal s.me cnt).toNat fin)
  else s.stall
def execLoop (k : Nat) (cnt : LoopCount) (fin : Nat) (s : State) : Out := s.loopStart false k 1 cnt fin
def execLoopp (k stages : Nat) (cnt : LoopCount) (fin : Nat) (s : State) : Out := s.loopStart true k stages cnt fin

end Sys2Proof.Machine
end

