-- ==== Sys2Proof/Machine/Access.lean ====
section
/-!
DEFINITION. Sys2Proof/Machine/Access.lean: scalar loads and stores, window reads, local atomics, fences, barriers and
timelines (R115 to R118, R203 to R213), and the device steps that complete them.
-/
namespace Sys2Proof.Machine
open Sys2Proof

/-! ### Address checks of scalar accesses (R115, R171, R209) -/

/-- The fault a scalar access of n bytes at a 64-bit address meets before translation: the address fault for nonzero
bits [63:56] or the basin aperture, then the alignment fault; its CAUSE. -/
def addrFault (a : W64) (n : Nat) : Option Nat :=
  if 2 ^ 56 ≤ a.toNat then some 0x0A
  else if 2 ^ 56 - 2 ^ 28 ≤ a.toNat then some 0x0A
  else if a.toNat % n ≠ 0 then some 0x09
  else none

/-- A translation at the current level for the core in focus, after the address checks: continue with the PA. -/
def State.scalarPa (s : State) (acc : Acc) (a : W64) (n : Nat) (k : State → XOk → Out) : Out :=
  match addrFault a n with
  | some cause => s.raise cause 0 a
  | none =>
    match s.translate s.cur.die s.me s.me.ctl.level acc a.toNat with
    | .error e => s.raiseX e
    | .ok o => k (s.updMe fun x => x.cache o.walked) o

/-! ### ld, st (R115, R116) -/

/-- The load has issued: s[d] is pending until LOAD_RETURN (R116). -/
def State.sendLoad (s : State) (kind : LoadKind) (d pa : Nat) : Out :=
  let r := if s.me.heldPending d then 0 else d
  .next (s.updMe fun x => (x.pendReg d).setFl fun f => { f with loads := f.loads ++ [⟨kind, r, pa, f.seq⟩] }).issued

def execLd (w : LdWidth) (d a : Nat) (off : Int) (s : State) : Out :=
  if s.cReady [d, a] then
    if s.me.poisoned a then s.poisonFault a
    else
      let va := s.me.val a + immW off
      s.scalarPa .read va (ldBytes w) fun s o => s.sendLoad (.ld w) d o.pa
  else s.stall

def stBytes : StWidth → Nat
  | .n8 => 1
  | .n16 => 2
  | .n32 => 4
  | .d64 => 8

/-- The store is posted (R116): its dirty bit is set first (R253). -/
def State.postStore (s : State) (ipa pa : Nat) (bs : List Byte) : Out :=
  match s.setDirty s.cur.die s.me Acc.write.code ipa with
  | .error e => s.raiseX e
  | .ok s =>
    .next (s.updMe fun x => x.setFl fun f =>
      { f with stores := f.stores ++ [⟨pa, ipa, bs, s.keyOf s.cur.die x.ctx.tenant, f.seq, none⟩], seq := f.seq + 1 }).issued

def execSt (w : StWidth) (d a : Nat) (off : Int) (s : State) : Out :=
  if s.cReady [d, a] then
    match s.me.firstPoison [d, a] with
    | some r => s.poisonFault r
    | none =>
      let va := s.me.val a + immW off
      s.scalarPa .write va (stBytes w) fun s o => s.postStore o.ipa o.pa (leBytes (stBytes w) (s.me.val d).toNat)
  else s.stall

/-! ### ldp (R117, R371) -/

/-- WGEN of the launch's root queue (R369, R371): bytes 28 and 29 of its block, in its home die's window. -/
def State.wgen (s : State) (x : Core) : Nat :=
  let q := x.ctx.rootQueue
  leNat (((s.die (8 * x.ctx.rootPkg + q / 512)).basin.read 0 (1024 * (q % 512) + 28) 2))

/-- The bytes of a window word inside the bound (R117). -/
def insideBytes (bound idx : Nat) : Nat := min 8 (bound - 8 * idx)

def execLdp (d win idx : Nat) (s : State) : Out :=
  if s.cReady [d] then
    match s.me.ctx.windows[win]? with
    | none => s.raise 0x05 1 (BitVec.ofNat 64 win)
    | some w =>
      if !w.valid then s.raise 0x05 1 (BitVec.ofNat 64 win)
      else if w.gen ≠ s.wgen s.me then s.raise 0x05 2 (BitVec.ofNat 64 win)
      else
        let n := insideBytes w.bound idx
        let flag := fun (x : Core) => if n < 8 then x.setK fun k => { k with kcstat := k.kcstat ||| 1 } else x
        if n = 0 then (s.updMe flag).result1 d 0 false
        else
          let va := w.base + 8 * idx
          let head := min n (4096 - va % 4096)
          s.scalarPa .read (BitVec.ofNat 64 va) 1 fun s o =>
            if head = n then (s.updMe flag).sendLoad (.ldp n 0 0) d o.pa
            else s.scalarPa .read (BitVec.ofNat 64 (va + head)) 1 fun s p =>
              (s.updMe flag).sendLoad (.ldp head p.pa (n - head)) d o.pa
  else s.stall

/-- LOAD_RETURN: the data of outstanding read n comes back (R116): written, poisoned if the line is marked (R115); the
slot of a `callg` goes to its lane. It waits for an earlier read of the same bytes (R116, R358), and while the
pseudo-channel retrains (R415). -/
def execLoadReturn (d c n : Nat) (s : State) : Out :=
  match (s.core d c).fl.loads[n]? with
  | none => .next s
  | some l =>
    if (l.places.any fun p => s.channelBusy d p.1 p.2) ||
        (((s.core d c).fl.loads.take n).any fun o => l.places.any fun p => o.reads p.1 p.2) then .next s
    else
      let v := s.loadValue d c l
      .next ((l.places.foldl (fun s p => s.touchPa d p.1 p.2 .plain) s).updCore d c fun x =>
        let x1 := x.setFl fun f => { f with loads := f.loads.eraseIdx n }
        match l.kind with
        | .slot => x1.setCtl fun t => { t with line := t.line.map fun b => { b with slot := some v } }
        | _ => x1.land l.reg v.1 v.2)

/-! ### The store path (R116, R357) -/

/-- Whether a store may move on: no older overlapping store stands before it, and no older overlapping load of its core
is still out (R116). -/
def olderOverlap (l : List PStore) (st : PStore) : Bool :=
  l.any fun o => decide (o.seq < st.seq) && overlaps o.pa o.bytes.length st.pa st.bytes.length
def loadBlocks (l : List Load) (st : PStore) : Bool :=
  l.any fun o => decide (o.seq ≤ st.seq) && o.reads st.pa st.bytes.length
/-- Whether a release fence is done (R206, R360): the loads and atomics before it have returned, and the stores before it,
with those of quad-mates that the core had acquired, are visible at its scope. -/
def State.fenceMet (s : State) (d c : Nat) (f : PFence) : Bool :=
  let x := s.core d c
  let back := !(x.fl.loads.any fun l => decide (l.seq ≤ f.seq)) && !(x.fl.amos.any fun a => decide (a.seq ≤ f.seq))
  let left := !x.fl.stores.any fun t => decide (t.seq < f.seq)
  match f.scope with
  | .lane => back
  | .core => back
  | .quad => back && left
  | _ => back && left && !(s.die d).qpath.any fun t => (t.core == c && decide (t.seq < f.seq)) || f.wait.contains (t.core, t.seq)
/-- Whether a release fence holds back what stands at store number `seq` of the core (R206). -/
def State.fenceHolds (s : State) (d c seq : Nat) : Bool :=
  (s.core d c).fl.fences.any fun f => decide (f.seq < seq) && !s.fenceMet d c f

/-- STORE_PERFORMED_AT_HOME: store n of the core, counted through its store path and then its quad's write path, goes
one place further: from the core's path to the quad's, from there to the home, where it is performed (R357). -/
def execStorePerformedAtHome (d c n : Nat) (s : State) : Out :=
  let x := s.core d c
  match x.fl.stores[n]? with
  | some st =>
    if olderOverlap x.fl.stores st || loadBlocks x.fl.loads st || s.fenceHolds d c st.seq then .next s
    else .next (s.toQuad d c fun t => t.seq == st.seq)
  | none =>
    match (s.die d).qpath[n - x.fl.stores.length]? with
    | none => .next s
    | some st =>
      if (((s.die d).qpath.take (n - x.fl.stores.length)).any fun o =>
          quadOf o.core == quadOf st.core && overlaps o.pa o.bytes.length st.pa st.bytes.length) ||
          s.channelBusy d st.pa st.bytes.length then .next s
      else .next (s.performQuad d fun t => t.core == st.core && t.seq == st.seq)

/-! ### amo, amocas (R207 to R209) -/

/-- The new value of an atomic on n bits (R207, R340). -/
def atomicNew (op : AtomicOp) (n old b : Nat) : Nat :=
  let o := BitVec.ofNat n old
  let v := BitVec.ofNat n b
  (match op with
  | .add => o + v
  | .and => o &&& v
  | .or => o ||| v
  | .xor => o ^^^ v
  | .min => if o.slt v then o else v
  | .minn => if o.ult v then o else v
  | .max => if o.slt v then v else o
  | .maxn => if o.ult v then v else o
  | .swap => v).toNat

/-- The read-modify-write (R209). It waits for a release fence before it (R206), for an earlier load of its bytes (R116) and for a pseudo-channel that is
retraining (R415).
Atomics that another core has begun there end first where each lies in the other's scope; then the word is read as
the core sees it; a marked line faults and nothing is written. The new value is posted as a store that no such
atomic may come before: towards any other agent the two halves are a load and a store. s[d] is pending until
AMO_OLD_VALUE_RETURN. `new` answers the new value or `none` to leave the word. -/
def State.localAtomic (s : State) (sc : Scope) (d : Nat) (va : W64) (new : W64 → Option W64) : Out :=
  let dd := s.cur.die
  let c := s.cur.core
  if s.fenceHolds dd c s.me.fl.seq then s.stall
  else
    s.scalarPa .atomic va 8 fun s o =>
      if (s.me.fl.loads.any fun l => l.reads o.pa 8) || s.channelBusy dd o.pa 8 then s.stall
      else
        let s := (s.settle sc dd c o.pa 8).touchPa dd o.pa 8 .plain
        let r := s.coreRead dd c o.pa 8 s.me.fl.seq
        let old := leWord r.1
        let reg := if s.me.heldPending d then 0 else d
        let back := fun (s : State) => s.updMe fun x => (x.pendReg d).setFl fun f => { f with amos := f.amos ++ [⟨reg, old, f.seq⟩] }
        if r.2 then s.raise 0x0E 0 va
        else
          match new old with
          | none => .next (back s).issued
          | some v =>
            match s.setDirty dd s.me Acc.atomic.code o.ipa with
            | .error e => s.raiseX e
            | .ok s => .next ((back s).updMe fun x => x.setFl fun f =>
                { f with stores := f.stores ++ [⟨o.pa, o.ipa, leBytes 8 v.toNat, s.keyOf dd x.ctx.tenant, f.seq, some sc⟩]
                         seq := f.seq + 1 }).issued

def execAmo (op : AtomicOp) (sc : Scope) (d a b : Nat) (s : State) : Out :=
  if sc = .lane then s.illegal
  else if s.cReady [d, a, b] then
    match s.me.firstPoison [a, b] with
    | some r => s.poisonFault r
    | none => s.localAtomic sc d (s.me.val a) fun old => some (BitVec.ofNat 64 (atomicNew op 64 old.toNat (s.me.val b).toNat))
  else s.stall

/-- `amocas` reads s[d] as the compare value (R208). -/
def execAmocas (sc : Scope) (d a b : Nat) (s : State) : Out :=
  if sc = .lane then s.illegal
  else if s.cReady [d, a, b] then
    match s.me.firstPoison [d, a, b] with
    | some r => s.poisonFault r
    | none => s.localAtomic sc d (s.me.val a) fun old => if old = s.me.val d then some (s.me.val b) else none
  else s.stall

/-- AMO_OLD_VALUE_RETURN: the old value of outstanding atomic n is written (R209). -/
def execAmoOldValueReturn (d c n : Nat) (s : State) : Out :=
  match (s.core d c).fl.amos[n]? with
  | none => .next s
  | some a => .next (s.updCore d c fun x => (x.setFl fun f => { f with amos := f.amos.eraseIdx n }).land a.reg a.old false)

/-! ### Fences (R206) -/

/-- The launch a context belongs to: the package that numbered its record, and the number (R373, R378). -/
def Core.launchKey (x : Core) : Nat := x.ctx.recPkg * 2 ^ 64 + x.k.klrec.toNat
/-- The position of a core in its launch: KPOS without PHYS (R237). -/
def Core.place (x : Core) : Nat := x.k.kpos.toNat / 65536
/-- An acquire (R206, R211): what quad-mates have in the write path of the quad is what the core has acquired of them. -/
def State.acquire (s : State) : State :=
  let l := (s.myDie.qpath.filter fun t => t.core != s.cur.core && quadOf t.core == quadOf s.cur.core).map fun t => (t.core, t.seq)
  s.updMe fun x => x.setFl fun f => { f with seen := l }
/-- Whether a scope reaches the package or beyond: a release there shows the host what flushes have covered (R365). -/
def wideScope : Scope → Bool
  | .pkg => true
  | .pod => true
  | _ => false
/-- What every release at a scope does for the host (R365). -/
def State.publish (s : State) (sc : Scope) : State :=
  if wideScope sc then s.publishTo (pkgOf s.cur.die) s.me.launchKey s.me.place else s
/-- A release fence takes its place among the core's stores: those after it wait for what stands before it (R206). -/
def State.postFence (s : State) (sc : Scope) : State :=
  let live := s.me.fl.fences.filter fun f => !s.fenceMet s.cur.die s.cur.core f
  let wait := s.me.fl.seen.filter fun p => s.myDie.qpath.any fun t => (t.core, t.seq) == p
  (s.updMe fun x => x.setFl fun f => { f with fences := live ++ [⟨f.seq, sc, wait⟩], seq := f.seq + 1 }).publish sc
/-- Whether the core's earlier stores, and those of its quad-mates that it has acquired, are visible at a scope (R357,
R360). -/
def State.storesAt (s : State) (sc : Scope) : Bool :=
  match sc with
  | .lane => true
  | .core => true
  | .quad => s.me.fl.stores.isEmpty
  | _ => (s.unperformed s.cur.die s.cur.core).isEmpty

/-- `fence` (R206): an acquire waits until the earlier loads and atomics have returned; a release holds back the later stores
and atomics, and nothing else. -/
def execFence (kind : FenceKind) (sc : Scope) (s : State) : Out :=
  if sc = .lane then s.illegal
  else
    match kind with
    | .rel => .next (s.postFence sc).issued
    | .acq => if s.me.loadsBack then .next s.acquire.issued else s.stall
    | .ar => if s.me.loadsBack then .next (s.postFence sc).acquire.issued else s.stall

/-! ### Barriers (R210 to R213) -/

/-- The first network of a launch and scope that has the position among its participants. -/
def State.findNet (s : State) (sc : Option Scope) (launch kpos : Nat) : Option Nat :=
  s.nets.findIdx? fun n => n.scope == sc && n.launch == launch && n.parts.any fun p => p.kpos == kpos
def BarNet.part (n : BarNet) (kpos : Nat) : Option BarPart := n.parts.find? fun p => p.kpos == kpos
def BarNet.setPart (n : BarNet) (kpos : Nat) (f : BarPart → BarPart) : BarNet :=
  { n with parts := n.parts.map fun p => if p.kpos == kpos then f p else p }
/-- Whether the next generation can complete: every participant has arrived at it or has ended (R211, R213). -/
def BarNet.full (n : BarNet) : Bool := n.parts.all fun p => p.ended || decide (n.done < p.count)
def State.updNet (s : State) (i : Nat) (f : BarNet → BarNet) : State := { s with nets := s.nets.modify i f }
/-- A lone participant completes each barrier at once (R210). -/
def BarNet.lone (n : BarNet) : Bool := n.parts.length == 1

/-- Which `bar` waits: its line and lane. -/
def State.barKey (s : State) : Nat := s.cur.addr * 8 + s.cur.lane
/-- The `bar`s of a context that its `eret` does not come back to are left: its next `bar` of the scope arrives anew (R211,
R263). -/
def State.leaveBars (s : State) (x : Core) (key : Nat) : State :=
  { s with nets := s.nets.map fun n => if n.launch == x.launchKey then
      n.setPart x.place fun p => { p with waiting := if p.waiting = some key then p.waiting else none } else n }
/-- `bar` (R211): the arrival is a release at the scope; the lane waits until its generation has completed, which is an
acquire. A core that no network counts is its launch's only participant. -/
def execBar (sc : Scope) (s : State) : Out :=
  if sc = .lane || sc = .core || sc = .pod then s.illegal
  else
    match s.findNet (some sc) s.me.launchKey s.me.place with
    | none => if s.me.loadsBack && s.storesAt sc then .next ((s.publish sc).acquire).issued else s.stall
    | some i =>
      let n := (s.nets[i]?).getD ⟨none, 0, [], 0⟩
      let kp := s.me.place
      match n.part kp with
      | none => s.stall
      | some p =>
        if p.waiting = some s.barKey then
          if p.count ≤ n.done then .next ((s.updNet i fun n => n.setPart kp fun p => { p with waiting := none }).acquire).issued
          else s.stall
        else if s.me.loadsBack && s.storesAt sc then
          if n.lone then .next (((s.publish sc).updNet i fun n =>
            { n.setPart kp (fun p => { p with count := p.count + 1 }) with done := n.done + 1 }).acquire).issued
          else .next ((s.publish sc).updNet i fun n => n.setPart kp fun p => { p with count := p.count + 1, waiting := some s.barKey })
        else s.stall

/-- BARRIER_COMPLETION: a generation of network n completes when every participant has arrived (R211). -/
def State.completeNet (s : State) (n : Nat) (partition : Bool) : Out :=
  match s.nets[n]? with
  | none => .next s
  | some b =>
    if b.scope.isNone == partition && b.full && b.parts.any (fun p => !p.ended) then
      .next (s.updNet n fun b => { b with done := b.done + 1 })
    else .next s
def execBarrierCompletion (n : Nat) (s : State) : Out := s.completeNet n false

/-! ### Timelines (R203 to R205) -/

def Timelines.get (t : Timelines) : TimelineId → Timeline
  | .tly => t.tly
  | .tlm => t.tlm
  | .tlf => t.tlf
  | .tln => t.tln
  | .tll => t.tll
def Timelines.set (t : Timelines) (i : TimelineId) (v : Timeline) : Timelines :=
  match i with
  | .tly => { t with tly := v }
  | .tlm => { t with tlm := v }
  | .tlf => { t with tlf := v }
  | .tln => { t with tln := v }
  | .tll => { t with tll := v }
/-- The counter after completions ahead of it are taken in, lowest first (R204). -/
def advanceTo : Nat → Nat → List Nat → Nat × List Nat
  | 0, c, a => (c, a)
  | f + 1, c, a => if a.contains (c + 1) then advanceTo f (c + 1) (a.filter (· != c + 1)) else (c, a)
/-- Command n of a timeline has completed (R204). -/
def Timeline.complete (t : Timeline) (n : Nat) : Timeline :=
  let r := advanceTo (t.ahead.length + 1) t.counter (n :: t.ahead)
  ⟨r.1, t.last, r.2⟩

def execTlread (tl : TimelineId) (d : Nat) (s : State) : Out :=
  s.alu0 d (BitVec.ofNat 64 (s.me.tls.get tl).counter)
/-- `tlwait` (R205); one of `tlf` that covers a `pbar` is an acquire, and waits for the earlier loads (R206, R212). -/
def execTlwait (tl : TimelineId) (a : Nat) (s : State) : Out :=
  if s.cReady [a] then
    if s.me.poisoned a then s.poisonFault a
    else if (s.me.val a).toNat ≤ (s.me.tls.get tl).counter then
      if tl = .tlf ∧ s.me.fl.pbars.any (fun n => decide (n ≤ (s.me.val a).toNat)) then
        if s.me.loadsBack then
          .next (s.updMe fun x => x.setFl fun f => { f with pbars := f.pbars.filter fun n => decide ((x.val a).toNat < n) }).issued
        else s.stall
      else .next s.issued
    else s.stall
  else s.stall

end Sys2Proof.Machine
end

