-- ==== Sys2Proof/Machine/Flags.lean ====
section
/-!
DEFINITION. Sys2Proof/Machine/Flags.lean: the status registers (R87, R118, R231): sticky bits set by results, cleared by
writing ones.
-/
namespace Sys2Proof.Machine
open Sys2Proof

/-- Bits joined into KVSTAT (R87). -/
def KRegs.orStat (k : KRegs) (st : Nat) : KRegs := { k with kvstat := k.kvstat ||| BitVec.ofNat 64 (st % 16) }
def Core.orStat (x : Core) (st : Nat) : Core := x.setK fun k => k.orStat st
/-- A W1C register after a write (R87): the ones of the value clear the named bits. -/
def w1c (old v : W64) (bits : Nat) : W64 := old &&& ~~~ (v &&& BitVec.ofNat 64 bits)

end Sys2Proof.Machine
end

