-- ==== Sys2Proof/Machine/Number.lean ====
section
/-!
DEFINITION. Sys2Proof/Machine/Number.lean: exact numbers, the scalar formats (R79), rounding and `cvt` (R88 to R92), the
exact operations of R94, and the special functions of R161 and R162.
-/
namespace Sys2Proof.Machine
open Sys2Proof

/-! ### Exact values -/

/-- An exact value: NaN, an infinity, or ± m × 2^e (a zero keeps its sign). -/
inductive Num where
  | nan
  | inf (neg : Bool)
  | fin (neg : Bool) (m : Nat) (e : Int)
  deriving DecidableEq, Repr

def Num.zero (neg : Bool) : Num := .fin neg 0 0
def Num.ofInt (i : Int) : Num := .fin (decide (i < 0)) i.natAbs 0
def Num.isNan : Num → Bool
  | .nan => true
  | _ => false
def Num.isZero : Num → Bool
  | .fin _ m _ => m == 0
  | _ => false
def Num.isFin : Num → Bool
  | .fin _ _ _ => true
  | _ => false
def Num.neg : Num → Num
  | .nan => .nan
  | .inf s => .inf (!s)
  | .fin s m e => .fin (!s) m e
def Num.abs : Num → Num
  | .nan => .nan
  | .inf _ => .inf false
  | .fin _ m e => .fin false m e
/-- The signed coefficient of a finite value at exponent e0 ≤ its own. -/
def coefAt (neg : Bool) (m : Nat) (e e0 : Int) : Int :=
  let v : Int := (m * 2 ^ (e - e0).toNat : Nat)
  if neg then -v else v

/-- The exact sum (R94): an invalid sum is NaN with INV; an exact zero sum is +0 (−0 under `rdn`), two zeros of one sign
keep it. -/
def Num.add (rdn : Bool) : Num → Num → Num × Bool
  | .nan, _ => (.nan, false)
  | _, .nan => (.nan, false)
  | .inf s, .inf t => if s = t then (.inf s, false) else (.nan, true)
  | .inf s, .fin _ _ _ => (.inf s, false)
  | .fin _ _ _, .inf t => (.inf t, false)
  | .fin s m e, .fin t n f =>
    let g := min e f
    let c := coefAt s m e g + coefAt t n f g
    if c ≠ 0 then (.fin (decide (c < 0)) c.natAbs g, false)
    else if m = 0 && n = 0 && s == t then (.zero s, false)
    else (.zero rdn, false)

/-- The exact product (R94): 0 × ∞ is NaN with INV. -/
def Num.mul : Num → Num → Num × Bool
  | .nan, _ => (.nan, false)
  | _, .nan => (.nan, false)
  | .inf s, .inf t => (.inf (s != t), false)
  | .inf s, .fin t n _ => if n = 0 then (.nan, true) else (.inf (s != t), false)
  | .fin s m _, .inf t => if m = 0 then (.nan, true) else (.inf (s != t), false)
  | .fin s m e, .fin t n f => (.fin (s != t) (m * n) (e + f), false)

/-- Exact comparison of two values that are not NaN; zeros are equal. -/
def Num.cmp : Num → Num → Ordering
  | .inf s, .inf t => if s = t then .eq else if s then .lt else .gt
  | .inf s, _ => if s then .lt else .gt
  | _, .inf t => if t then .gt else .lt
  | .fin s m e, .fin t n f =>
    let g := min e f
    compare (coefAt s m e g) (coefAt t n f g)
  | _, _ => .eq
def Num.sign : Num → Bool
  | .nan => false
  | .inf s => s
  | .fin s _ _ => s
/-- a before b, −0 before +0 (R136). -/
def Num.less (a b : Num) : Bool :=
  match a.cmp b with
  | .lt => true
  | .gt => false
  | .eq => a.isZero && b.isZero && a.sign && !b.sign

/-! ### Modes (R86) -/

/-- The arithmetic mode of an instruction (R86, R97, R134). -/
structure Mode where
  rnd : Rnd
  sat : Bool
  ftz : Bool
  deriving DecidableEq, Repr

/-- The rounding mode of KMODE.RND (R86). -/
def rndOfMode (k : W64) : Rnd :=
  match fieldOf k 2 0 with
  | 2 => .rtz
  | 3 => .rup
  | 4 => .rdn
  | 5 => .rsto
  | _ => .rne
where
  fieldOf (v : W64) (hi lo : Nat) : Nat := bitField v.toNat hi lo

/-- The mode latched from KMODE, with the rounding of an option word where one is given (R134). -/
def modeOf (k : W64) (rnd : Option Rnd) : Mode :=
  let r := match rnd with
    | none => rndOfMode k
    | some .latched => rndOfMode k
    | some r => r
  ⟨r, k.toNat.testBit 3, k.toNat.testBit 4⟩

/-- KVSTAT bits (R87). -/
def stSat : Nat := 1
def stInv : Nat := 2
def stDz : Nat := 4
def stUfl : Nat := 8

/-! ### Rounding on a grid (R88, R89) -/

/-- One rounding: the integer nearest p / q × 2^e / 2^u in the sense of the mode, for a positive magnitude; r are the 24
noise bits of `rsto`. -/
def roundGrid (rnd : Rnd) (neg : Bool) (r : Nat) (p q : Nat) (e u : Int) : Nat :=
  let n := p * 2 ^ (e - u).toNat
  let d := q * 2 ^ (u - e).toNat
  let k := n / d
  let rest := n % d
  if rest = 0 then k
  else
    match rnd with
    | .rtz => k
    | .rup => if neg then k else k + 1
    | .rdn => if neg then k + 1 else k
    | .rsto => if r < rest * 2 ^ 24 / d then k + 1 else k
    | _ => if 2 * rest < d then k else if d < 2 * rest then k + 1 else k + k % 2

/-- floor(log2 (p / q × 2^e)) of a positive value. -/
def floorLog (p q : Nat) (e : Int) : Int :=
  let g : Int := (p.log2 : Int) - (q.log2 : Int)
  -- p / q lies in (2^(g−1), 2^(g+1))
  let below := if 0 ≤ g then decide (p < q * 2 ^ g.toNat) else decide (p * 2 ^ (-g).toNat < q)
  if below then g - 1 + e else g + e

/-! ### Scalar formats (R79, R81) -/

/-- A floating-point element format: width, mantissa bits, exponent of the smallest normal and of the top binade, the
largest finite magnitude code, the infinity code and the canonical NaN code where it has them, and whether FTZ reaches
it (R93). -/
structure Fmt where
  w     : Nat
  man   : Nat
  emin  : Int
  emax  : Int
  top   : Nat
  inf   : Option Nat
  nan   : Option Nat
  flush : Bool
  deriving DecidableEq, Repr

def fmtFp32 : Fmt := ⟨32, 23, -126, 127, 0x7F7FFFFF, some 0x7F800000, some 0x7FC00000, true⟩
def fmtBf16 : Fmt := ⟨16, 7, -126, 127, 0x7F7F, some 0x7F80, some 0x7FC0, true⟩
def fmtFp16 : Fmt := ⟨16, 10, -14, 15, 0x7BFF, some 0x7C00, some 0x7E00, true⟩
def fmtE4 : Fmt := ⟨8, 3, -6, 8, 0x7E, none, some 0x7F, true⟩
def fmtE5 : Fmt := ⟨8, 2, -14, 15, 0x7B, some 0x7C, some 0x7E, true⟩
def fmtE2 : Fmt := ⟨4, 1, 0, 2, 7, none, none, false⟩

/-- The scalar floating-point format of a tag (R74). -/
def floatFmt : Nat → Option Fmt
  | 0x01 => some fmtFp32
  | 0x02 => some fmtBf16
  | 0x03 => some fmtFp16
  | 0x04 => some fmtE4
  | 0x05 => some fmtE5
  | _ => none
/-- The element format of an MX tag (R81): FTZ does not touch it. -/
def mxFmt : Nat → Option Fmt
  | 0x08 => some fmtE2
  | 0x09 => some { fmtE4 with flush := false }
  | 0x0A => some { fmtE5 with flush := false }
  | _ => none

/-- Whether a magnitude code is a NaN. -/
def Fmt.isNanMag (f : Fmt) (g : Nat) : Bool :=
  match f.inf, f.nan with
  | some i, _ => decide (i < g)
  | none, some n => g == n
  | none, none => false

/-- The value of a code (R79 to R81); with FTZ a subnormal reads as zero (R93). -/
def Fmt.value (f : Fmt) (ftz : Bool) (code : Nat) : Num :=
  let neg := code.testBit (f.w - 1)
  let g := code % 2 ^ (f.w - 1)
  if f.isNanMag g then .nan
  else if f.inf = some g then .inf neg
  else
    let x := g / 2 ^ f.man
    let u := f.emin - f.man
    if x = 0 then (if ftz && f.flush then .zero neg else .fin neg g u)
    else .fin neg (2 ^ f.man + g % 2 ^ f.man) (u + x - 1)

/-- A signed code. -/
def Fmt.code (f : Fmt) (neg : Bool) (g : Nat) : Nat := if neg then g + 2 ^ (f.w - 1) else g

/-- `cvt` of a positive magnitude p / q × 2^e with a sign (R90): code and KVSTAT bits. -/
def Fmt.cvtMag (f : Fmt) (md : Mode) (r : Nat) (neg : Bool) (p q : Nat) (e : Int) : Nat × Nat :=
  let u0 := f.emin - f.man
  let u := min (max (floorLog p q e) f.emin) f.emax - f.man
  let g := (u - u0).toNat * 2 ^ f.man + roundGrid md.rnd neg r p q e u
  if f.top < g then
    match f.inf with
    | some i =>
      if md.sat then (f.code neg f.top, stSat)
      else
        match md.rnd with
        | .rtz => (f.code neg f.top, stSat)
        | .rup => if neg then (f.code neg f.top, stSat) else (f.code neg i, 0)
        | .rdn => if neg then (f.code neg i, 0) else (f.code neg f.top, stSat)
        | _ => (f.code neg i, 0)
    | none => (f.code neg f.top, stSat)
  else if md.ftz && f.flush && decide (0 < g ∧ g < 2 ^ f.man) then (f.code neg 0, stUfl)
  else (f.code neg g, 0)

/-- `cvt` (R90). -/
def Fmt.cvt (f : Fmt) (md : Mode) (r : Nat) : Num → Nat × Nat
  | .nan => match f.nan with
    | some n => (n, 0)
    | none => (0, stInv)
  | .inf s => match f.inf with
    | some i => (f.code s i, 0)
    | none => (f.code s f.top, stSat)
  | .fin s m e => if m = 0 then (f.code s 0, 0) else f.cvtMag md r s m 1 e

/-- Rounding to nearest into a format, nothing else of the mode (R95, R309). -/
def modeRne : Mode := ⟨.rne, false, false⟩
def Fmt.rne (f : Fmt) (x : Num) : Nat := (f.cvt modeRne 0 x).1

/-! ### Integer formats (R85, R92) -/

/-- Width and signedness of an integer tag. -/
def intFmt : Nat → Option (Nat × Bool)
  | 0x20 => some (8, true)
  | 0x21 => some (16, true)
  | 0x22 => some (32, true)
  | 0x28 => some (8, false)
  | 0x29 => some (16, false)
  | 0x2A => some (32, false)
  | _ => none
def intLo (w : Nat) (s : Bool) : Int := if s then -(2 ^ (w - 1) : Nat) else 0
def intHi (w : Nat) (s : Bool) : Int := if s then (2 ^ (w - 1) : Nat) - 1 else (2 ^ w : Nat) - 1
/-- A value clamped into an integer format, with SAT (R92, R142). -/
def clampInt (w : Nat) (s : Bool) (i : Int) : Int × Nat :=
  if i < intLo w s then (intLo w s, stSat) else if intHi w s < i then (intHi w s, stSat) else (i, 0)
/-- Conversion to an integer format (R92). -/
def cvtInt (w : Nat) (s : Bool) (rnd : Rnd) (r : Nat) : Num → Int × Nat
  | .nan => (0, stInv)
  | .inf n => (if n then intLo w s else intHi w s, stSat)
  | .fin n m e =>
    let k : Int := roundGrid rnd n r m 1 e 0
    clampInt w s (if n then -k else k)
/-- The value of an integer container. -/
def intVal (s : Bool) (w : Nat) (c : W32) : Int := if s then sextField w (c.toNat % 2 ^ w) else (c.toNat % 2 ^ w : Nat)
/-- An integer wrapped to w bits and extended into its container (R76, R136). -/
def intCell (w : Nat) (s : Bool) (i : Int) : W32 :=
  let v := (i % (2 ^ w : Nat)).toNat
  if s then BitVec.ofInt 32 (sextField w v) else BitVec.ofNat 32 v

/-! ### Tags (R74, R76) -/

/-- A block-format tag (R132). -/
def isBlock (t : Nat) : Bool := decide (0x08 ≤ t ∧ t ≤ 0x12) || decide (0x40 ≤ t ∧ t ≤ 0x5F)
def isFloat (t : Nat) : Bool := (floatFmt t).isSome
def isInt (t : Nat) : Bool := (intFmt t).isSome
def tagBits : Nat := 0x30
/-- The arithmetic float tags of the vector engine (R136). -/
def isArithFloat (t : Nat) : Bool := t == 0x01 || t == 0x02 || t == 0x03
/-- m of an LX tag (R82). -/
def lxM : Nat → Option Nat
  | 0x10 => some 2
  | 0x11 => some 4
  | 0x12 => some 7
  | _ => none
/-- The codebook table a tag names (R74). -/
def cbTable (t : Nat) : Option Nat := if 0x40 ≤ t ∧ t ≤ 0x5F then some (t % 16) else none
/-- The element width of a tag in a container (R74, R76, R82). -/
def tagWidth (t : Nat) : Nat :=
  match floatFmt t, intFmt t, lxM t with
  | some f, _, _ => f.w
  | _, some i, _ => i.1
  | _, _, some m => m + 1
  | _, _, _ => if t = 0x08 then 4 else if t = 0x09 ∨ t = 0x0A then 8 else if 0x40 ≤ t ∧ t ≤ 0x4F then 4
               else if 0x50 ≤ t ∧ t ≤ 0x5F then 8 else if t = 0x23 then 64 else 32
/-- A code extended into its container under a tag (R76). R76 does not name LX codes: they are two's complement (R82) and are
sign-extended, which is the model's choice (log 31). -/
def cellOf (t code : Nat) : W32 :=
  let w := min (tagWidth t) 32
  let s := (intFmt t).elim (lxM t).isSome (·.2)
  intCell w s (code % 2 ^ w : Nat)

/-! ### Irrational functions (R161; log 9) -/

/-- Bits of the working fixed point. -/
def fxBits : Nat := 400
def fxOne : Nat := 2 ^ fxBits
/-- Σ x^k / k! from term k on, in fixed point, for 0 ≤ x ≤ 1. -/
def expTail : Nat → Nat → Nat → Nat → Nat
  | 0, _, _, _ => 0
  | n + 1, x, k, t => t + expTail n x (k + 1) (t * x / fxOne / (k + 1))
def fxExp (x : Nat) : Nat := expTail 110 x 0 fxOne
/-- Σ z^(2k+1) / (2k+1), in fixed point: artanh z for z ≤ 1/3. -/
def artanhTail : Nat → Nat → Nat → Nat → Nat
  | 0, _, _, _ => 0
  | n + 1, z2, k, t => t / (2 * k + 1) + artanhTail n z2 (k + 1) (t * z2 / fxOne)
def fxArtanh (z : Nat) : Nat := artanhTail 140 (z * z / fxOne) 0 z
def fxLn2 : Nat := 2 * fxArtanh (fxOne / 3)
/-- 2^t for a signed fixed-point t: a coefficient and an exponent. -/
def fxExp2 (t : Int) : Nat × Int :=
  let n := t / (fxOne : Int)
  let f := (t % (fxOne : Int)).toNat
  (fxExp (f * fxLn2 / fxOne), n - fxBits)
/-- An inexact coefficient: the odd number just above it at half the step, so that every rounding goes as for the exact
value. -/
def sticky (neg : Bool) (m : Nat) (e : Int) : Num := .fin neg (2 * m + 1) (e - 1)
/-- A signed fixed-point value of a finite dyadic number whose exponent is not below −fxBits. -/
def fxOf (neg : Bool) (m : Nat) (e : Int) : Int := coefAt neg m e (-(fxBits : Int))
/-- Whether ± m × 2^e is an integer. -/
def isIntegral (m : Nat) (e : Int) : Bool := decide (0 ≤ e) || decide (m % 2 ^ (-e).toNat = 0)
/-- |m × 2^e| ≥ 2^k. -/
def atLeast (m : Nat) (e : Int) (k : Int) : Bool := decide (m ≠ 0) && decide (k ≤ floorLog m 1 e)

/-- 2^A for a finite A. -/
def exp2Of (neg : Bool) (m : Nat) (e : Int) : Num :=
  if m = 0 then .fin false 1 0
  else if atLeast m e 11 then .fin false 1 (if neg then -4096 else 4096)
  else if isIntegral m e then .fin false 1 (coefAt neg m e (min e 0) / (2 ^ (-(min e 0)).toNat : Nat))
  else
    let r := fxExp2 (fxOf neg m e)
    sticky false r.1 r.2
/-- log2 A for a finite A > 0. -/
def log2Of (m : Nat) (e : Int) : Num :=
  let l := m.log2
  if m = 2 ^ l then .ofInt (l + e)
  else
    let y := m * fxOne / 2 ^ l
    let ln := 2 * fxArtanh ((y - fxOne) * fxOne / (y + fxOne))
    let t : Int := (l + e) * (fxOne : Int) + (ln * fxOne / fxLn2 : Nat)
    let t2 := 2 * t + 1
    .fin (decide (t2 < 0)) t2.natAbs (-(fxBits : Int) - 1)
/-- 1 / √A for a finite A > 0. -/
def rsqOf (m : Nat) (e : Int) : Num :=
  let odd := e % 2 = 1
  let m1 := if odd then 2 * m else m
  let e1 := if odd then e - 1 else e
  let r := Nat.sqrt (2 ^ (2 * fxBits) / m1)
  if r * r * m1 = 2 ^ (2 * fxBits) then .fin false r (-(fxBits : Int) - e1 / 2)
  else sticky false r (-(fxBits : Int) - e1 / 2)
/-- e^x in fixed point for |x| < 2^9: 2^(x / ln 2). -/
def fxExpSigned (x : Int) : Nat × Int := fxExp2 (x * (fxOne : Int) / (fxLn2 : Int))
/-- Just below 1. -/
def nearOne (neg : Bool) : Num := .fin neg (2 ^ 300 - 1) (-300)
/-- tanh A for a finite A. -/
def tanhOf (neg : Bool) (m : Nat) (e : Int) : Num :=
  if m = 0 then .zero neg
  else if atLeast m e 7 then nearOne neg
  else if !atLeast m e (-40) then .fin neg (m * 2 ^ 300 - 1) (e - 300)
  else
    let r := fxExpSigned (2 * fxOf false m e)
    -- r is at least 1: bring it to fixed point
    let x := r.1 * 2 ^ (r.2 + fxBits).toNat
    sticky neg ((x - fxOne) * fxOne / (x + fxOne)) (-(fxBits : Int))
/-- 1 / (1 + e^−A) for a finite A. -/
def sigOf (neg : Bool) (m : Nat) (e : Int) : Num :=
  if m = 0 then .fin false 1 (-1)
  else if atLeast m e 7 then (if neg then .fin false 1 (-4096) else nearOne false)
  else
    -- E = e^−|A| < 1
    let r := fxExpSigned (-(fxOf false m e))
    let x := r.1 / 2 ^ (-(r.2 + fxBits)).toNat
    let up := fxOne * fxOne / (fxOne + x)
    if neg then sticky false (x * fxOne / (fxOne + x)) (-(fxBits : Int)) else sticky false up (-(fxBits : Int))

/-- The six functions of R161. -/
inductive SpecialFn where
  | exp2 | log2 | rcp | rsq | tanh | sig
  deriving DecidableEq, Repr
def SpecialFn.code : SpecialFn → Nat
  | .exp2 => 0
  | .log2 => 1
  | .rcp => 2
  | .rsq => 3
  | .tanh => 4
  | .sig => 5
/-- The bound of an fp32 result in ulps; 0 where it is correctly rounded (R161). -/
def SpecialFn.ulps : SpecialFn → Nat
  | .rcp => 0
  | .tanh => 2
  | .sig => 2
  | _ => 1

/-- What a special function comes to before its rounding: an exact special result with its status (R162), or a value. -/
inductive SpecialOut where
  | exact (v : Num) (st : Nat)
  | recip (neg : Bool) (m : Nat) (e : Int)
  | approx (v : Num)
  deriving DecidableEq, Repr

/-- R161, R162. -/
def SpecialFn.apply : SpecialFn → Num → SpecialOut
  | _, .nan => .exact .nan 0
  | .exp2, .inf s => .exact (if s then .zero false else .inf false) 0
  | .exp2, .fin s m e => if m = 0 then .exact (.fin false 1 0) 0 else .approx (exp2Of s m e)
  | .log2, .inf s => if s then .exact .nan stInv else .exact (.inf false) 0
  | .log2, .fin s m e =>
    if m = 0 then .exact (.inf true) stDz else if s then .exact .nan stInv else .approx (log2Of m e)
  | .rcp, .inf s => .exact (.zero s) 0
  | .rcp, .fin s m e => if m = 0 then .exact (.inf s) stDz else .recip s m e
  | .rsq, .inf s => if s then .exact .nan stInv else .exact (.zero false) 0
  | .rsq, .fin s m e =>
    if m = 0 then .exact (.inf s) stDz else if s then .exact .nan stInv else .approx (rsqOf m e)
  | .tanh, .inf s => .exact (.fin s 1 0) 0
  | .tanh, .fin s m e => if m = 0 then .exact (.zero s) 0 else .approx (tanhOf s m e)
  | .sig, .inf s => .exact (if s then .zero false else .fin false 1 0) 0
  | .sig, .fin s m e => if m = 0 then .exact (.fin false 1 (-1)) 0 else .approx (sigOf s m e)

/-- The multiples k of the fp32 step at a value that lie within b steps of it: the least, and how many there are. -/
def ulpRange (f : Fmt) (p : Nat) (e : Int) (b : Nat) : Int × Nat × Nat :=
  let u := (if p = 0 then f.emin else min (max (floorLog p 1 e) f.emin) f.emax) - f.man
  let n := p * 2 ^ (e - u).toNat
  let d := 2 ^ (u - e).toNat
  let lo := (n + d - 1) / d - b
  let hi := n / d + b
  (u, lo, hi + 1 - lo)

/-- The result of a special function in a format (R161, R162): correctly rounded in 16-bit formats and for `vrcp`; in
fp32 a free one of the values within the bound (log 8), which depends on the function, the input, the mode and the noise
word alone. R161 says that a correctly rounded result is exact wherever it is representable, and that this holds for `vexp2` of an
integer and `vlog2` of a power of two; whether that covers their fp32 results, which have a bound, it leaves open: they stay free
within the bound (log 36). -/
def SpecialFn.result (fn : SpecialFn) (f : Fmt) (md : Mode) (r code : Nat) : Nat × Nat :=
  match fn.apply (f.value md.ftz code) with
  | .exact v st =>
    let c := f.cvt md r v
    (c.1, c.2 ||| st)
  | .recip s m e => f.cvtMag md r s 1 m (-e)
  | .approx v =>
    if f.w = 32 then
      match v with
      | .fin s m e =>
        let b := fn.ulps + boolBit (md.rnd != .rne)
        let g := ulpRange f m e b
        let k := g.2.1 + Config.specialPick fn.code code (rndCode md.rnd) r % g.2.2
        f.cvt md r (.fin s k g.1)
      | _ => f.cvt md r v
    else f.cvt md r v
where
  rndCode : Rnd → Nat
    | .latched => 0
    | .rne => 1
    | .rtz => 2
    | .rup => 3
    | .rdn => 4
    | .rsto => 5

end Sys2Proof.Machine
end

