-- ==== Sys2Proof/Machine/Pattern.lean ====
section
/-!
DEFINITION. Sys2Proof/Machine/Pattern.lean: patterns over memory (R46, R47, R77, R78, R181, R182), the addresses of their
elements and scales, and the basin allotment (R169 to R171).
-/
namespace Sys2Proof.Machine
open Sys2Proof

/-! ### Extents and offsets (R77) -/

/-- The number of elements of a pattern. -/
def Pattern.count (p : Pattern) : Nat := p.e0 * p.e1 * p.e2 * p.e3
/-- Element width in bits in memory (R74). -/
def Pattern.bits (p : Pattern) : Nat := tagWidth p.tag
/-- The offset of the n-th element in pattern order (R77, R182). -/
def Pattern.offset (p : Pattern) (n : Nat) : Int :=
  (n % p.e0 : Nat) + (n / p.e0 % p.e1 : Nat) * p.st1 + (n / (p.e0 * p.e1) % p.e2 : Nat) * p.st2 +
    (n / (p.e0 * p.e1 * p.e2) : Nat) * p.st3

/-! ### Addresses (R78) -/

/-- The block size of a tag, 1 where it has none. -/
def blockOf (t : Nat) : Nat := if isBlock t then 32 else 1
/-- The bytes of an LX block (R82). -/
def lxBytes (m : Nat) : Nat := 2 + 4 * (m + 1)
/-- The bytes of a block's scale in memory (R78). -/
def Pattern.scaleBytes (p : Pattern) : Nat := if p.aff && (cbTable p.tag).isSome then 4 else 1
/-- S of R78: the element bytes of a split pattern, rounded up to 64. -/
def Pattern.splitBytes (p : Pattern) : Nat := (p.count * p.bits / 8 + 63) / 64 * 64

/-- Where the code of element offset o lies: its first byte, the bit it starts at, as an address that may lie outside
the address space. LX codes are packed in their block (R82). -/
def Pattern.codeAt (p : Pattern) (o : Int) : Int × Nat :=
  let q := o / 32
  let k := (o % 32).toNat
  match lxM p.tag with
  | some m => (p.base + q * lxBytes m + 2 + (k * (m + 1) / 8 : Nat), k * (m + 1) % 8)
  | none =>
    if isBlock p.tag && p.lay == 1 then
      (p.base + q * (32 * p.bits / 8 + p.scaleBytes : Nat) + (k * p.bits / 8 : Nat), k * p.bits % 8)
    else (p.base + o * p.bits / 8, (o * p.bits % 8).toNat)
/-- The bytes that hold a code: those from its first byte. -/
def Pattern.codeBytes (p : Pattern) (o : Int) : Nat := ((p.codeAt o).2 + p.bits + 7) / 8
/-- Where the scale of the block of offset o lies, and its bytes: of an LX block E and µ. -/
def Pattern.scaleAt (p : Pattern) (o : Int) : Int × Nat :=
  let q := o / 32
  match lxM p.tag with
  | some m => (p.base + q * lxBytes m, 2)
  | none =>
    if p.lay = 1 then (p.base + q * (32 * p.bits / 8 + p.scaleBytes : Nat) + (32 * p.bits / 8 : Nat), p.scaleBytes)
    else (p.base + p.splitBytes + q * p.scaleBytes, p.scaleBytes)

/-! ### The checks of a resolved pattern (R78, R181) -/

/-- What R181 makes a format mismatch. -/
def Pattern.formatBad (p : Pattern) : Bool :=
  !tagAssigned p.tag || p.tag == 0 ||
  (if isBlock p.tag then
    p.e0 % 32 != 0 || p.st1 % 32 != 0 || p.st2 % 32 != 0 || p.st3 % 32 != 0 ||
      (if (lxM p.tag).isSome then p.lay != 0 else p.lay == 0)
   else p.lay != 0)

/-! ### The basin allotment (R169 to R171) -/

def apertureBase : Nat := 2 ^ 56 - 2 ^ 28
/-- The bytes of the context's allotment. -/
def Core.basinBytes (x : Core) : Nat := fieldOf x.k.kbasin 44 32 * 65536
/-- The physical basin address of an offset (R170). -/
def Core.basinAddr (x : Core) (o : Nat) : Nat := fieldOf x.k.kbasin 11 0 * 65536 + o

/-- The class of an element address (R182). -/
inductive ElemClass where
  | basin (off : Nat)
  | memory (va : Nat)
  | outside
  deriving DecidableEq, Repr
def elemClass (a : Int) : ElemClass :=
  if a < 0 then .outside
  else if 2 ^ 56 ≤ a.toNat then .outside
  else if apertureBase ≤ a.toNat then .basin (a.toNat - apertureBase)
  else .memory a.toNat

/-! ### Footprints of patterns (R173) -/

/-- Least and greatest offset of a pattern, from its extents and strides alone. -/
def Pattern.span (p : Pattern) : Int × Int :=
  let part := fun (e : Nat) (s : Int) => (min 0 ((e - 1 : Nat) * s), max 0 ((e - 1 : Nat) * s))
  let a := part p.e1 p.st1
  let b := part p.e2 p.st2
  let c := part p.e3 p.st3
  (a.1 + b.1 + c.1, (p.e0 - 1 : Nat) + a.2 + b.2 + c.2)
/-- The bytes a pattern can touch: from the lowest to past the highest (R173). -/
def Pattern.byteSpan (p : Pattern) : Int × Int :=
  let s := p.span
  let lo := (p.codeAt s.1).1
  let hi := (p.codeAt s.2).1 + p.codeBytes s.2
  if isBlock p.tag then
    (min lo (p.scaleAt s.1).1, max hi ((p.scaleAt s.2).1 + (p.scaleAt s.2).2))
  else (lo, hi)
/-- The basin interval of a pattern, if it meets the aperture: offsets from lo to before hi. -/
def Pattern.basinSpan (p : Pattern) : Option (Nat × Nat) :=
  let s := p.byteSpan
  let lo := max s.1 apertureBase
  let hi := min s.2 (2 ^ 56 : Nat)
  if lo < hi then some ((lo - apertureBase).toNat, (hi - apertureBase).toNat) else none

/-! ### Footprints of commands (R173) -/

/-- Whether a command has ended but for its token. -/
def Cmd.over (k : Cmd) : Bool :=
  match k.st with
  | .finished _ => true
  | _ => false

/-- A footprint: offsets from lo to before hi, and whether it writes. -/
structure Print where
  lo    : Nat
  hi    : Nat
  write : Bool
  deriving DecidableEq, Repr

def Print.clash (a b : Print) : Bool := decide (a.lo < b.hi ∧ b.lo < a.hi) && (a.write || b.write)
/-- The print of a pattern's basin side. -/
def Pattern.print (p : Pattern) (write : Bool) : List Print :=
  match p.basinSpan with
  | some (lo, hi) => [⟨lo, hi, write⟩]
  | none => []
/-- The exact prints of an issued command (R173): resolved patterns are destination (or table of a `scat`), source (or
table), index; a probe's fill writes its slot, the offset its second scalar. -/
def CmdArg.prints (a : CmdArg) : List Print :=
  match a.instr with
  | .cp .. => ((a.pats.take 1).flatMap fun p => p.print true) ++ ((a.pats.drop 1).flatMap fun p => p.print false)
  | .cpm .. => ((a.pats.take 1).flatMap fun p => p.print true) ++ ((a.pats.drop 1).flatMap fun p => p.print false)
  | .gath .. => ((a.pats.take 1).flatMap fun p => p.print true) ++ ((a.pats.drop 1).flatMap fun p => p.print false)
  | .scat .. => ((a.pats.take 1).flatMap fun p => p.print true) ++ ((a.pats.drop 1).flatMap fun p => p.print false)
  | .fill .. => (a.pats.take 1).flatMap fun p => p.print true
  | .rget .. => (a.pats.take 1).flatMap fun p => p.print true
  | .rput .. => (a.pats.take 1).flatMap fun p => p.print false
  | .probe .. => match a.scal with
    | _ :: o :: _ => [⟨o.toNat, o.toNat + 4096, true⟩]
    | _ => []
  | _ => []
def Cmd.prints (k : Cmd) : List Print := if k.over then [] else k.args.flatMap CmdArg.prints
end Sys2Proof.Machine
end

