-- ==== Sys2Proof/Machine/Issue.lean ====
section
/-!
DEFINITION. Sys2Proof/Machine/Issue.lean: the fetch line and its delivery (R14, R22 to R29, R102, R122), the prefixes
(R43, R44), and which group an engine issues next (R385).
-/
namespace Sys2Proof.Machine
open Sys2Proof

/-! ### The rep prefix (R43) -/

/-- The steps of a `rep`: its count and the signed steps of d, a, b and c. -/
structure Rep where
  n  : Nat
  dd : Int
  da : Int
  db : Int
  dc : Int
  deriving DecidableEq, Repr

def Rep.one : Rep := ⟨1, 0, 0, 0, 0⟩
/-- The `rep` word (R43); `none` when bits [6:0] are not zero. -/
def repOf (w : Nat) : Option Rep :=
  if bitField w 6 0 != 0 then none
  else some ⟨bitField w 24 19 + 1, sextField 3 (bitField w 18 16), sextField 3 (bitField w 15 13),
             sextField 3 (bitField w 12 10), sextField 3 (bitField w 9 7)⟩
/-- (field + r × step) mod 64. -/
def stepN (f : Nat) (st : Int) (r : Nat) : Nat := (((f : Int) + r * st) % 64).toNat
def stepT (t : TOp) (st : Int) (r : Nat) : TOp := { t with v := stepN t.v st r }

/-- Which of the fields d, a, b, c of an instruction a `rep` may step: those it has that name a register; the token and
handle fields never (R43). -/
def stepFields : Instr → Bool × Bool × Bool × Bool
  | .add _ _ _ => (true, true, true, false)
  | .sub _ _ _ => (true, true, true, false)
  | .mul _ _ _ => (true, true, true, false)
  | .mulh _ _ _ => (true, true, true, false)
  | .mulhn _ _ _ => (true, true, true, false)
  | .div _ _ _ => (true, true, true, false)
  | .divn _ _ _ => (true, true, true, false)
  | .rem _ _ _ => (true, true, true, false)
  | .remn _ _ _ => (true, true, true, false)
  | .and _ _ _ => (true, true, true, false)
  | .or _ _ _ => (true, true, true, false)
  | .xor _ _ _ => (true, true, true, false)
  | .sll _ _ _ => (true, true, true, false)
  | .srl _ _ _ => (true, true, true, false)
  | .sra _ _ _ => (true, true, true, false)
  | .slt _ _ _ => (true, true, true, false)
  | .sltn _ _ _ => (true, true, true, false)
  | .min _ _ _ => (true, true, true, false)
  | .minn _ _ _ => (true, true, true, false)
  | .max _ _ _ => (true, true, true, false)
  | .maxn _ _ _ => (true, true, true, false)
  | .clz _ _ => (true, true, false, false)
  | .ctz _ _ => (true, true, false, false)
  | .popc _ _ => (true, true, false, false)
  | .addi _ _ _ => (true, true, false, false)
  | .andi _ _ _ => (true, true, false, false)
  | .ori _ _ _ => (true, true, false, false)
  | .xori _ _ _ => (true, true, false, false)
  | .slli _ _ _ => (true, true, false, false)
  | .srli _ _ _ => (true, true, false, false)
  | .srai _ _ _ => (true, true, false, false)
  | .slti _ _ _ => (true, true, false, false)
  | .sltni _ _ _ => (true, true, false, false)
  | .ext _ _ _ _ => (true, true, false, false)
  | .extn _ _ _ _ => (true, true, false, false)
  | .ins _ _ _ _ => (true, true, false, false)
  | .beq _ _ _ => (false, false, false, false)
  | .bne _ _ _ => (false, false, false, false)
  | .blt _ _ _ => (false, false, false, false)
  | .bltn _ _ _ => (false, false, false, false)
  | .bge _ _ _ => (false, false, false, false)
  | .bgen _ _ _ => (false, false, false, false)
  | .jal _ _ => (false, false, false, false)
  | .callg _ _ => (false, false, false, false)
  | .jalr _ _ _ => (false, false, false, false)
  | .loop _ _ _ => (false, false, false, false)
  | .loopp _ _ _ _ => (false, false, false, false)
  | .ldp _ _ _ => (true, false, false, false)
  | .amo _ _ _ _ _ => (true, true, true, false)
  | .amocas _ _ _ _ => (true, true, true, false)
  | .fence _ _ => (false, false, false, false)
  | .bar _ => (false, false, false, false)
  | .tlwait _ _ => (false, true, false, false)
  | .tlread _ _ => (true, false, false, false)
  | .tokw _ _ => (true, true, false, false)
  | .tokt _ _ => (true, true, false, false)
  | .probe _ _ _ => (false, false, false, false)
  | .launch _ _ => (false, false, false, false)
  | .waitch _ _ => (true, true, false, false)
  | .taskst _ _ => (true, true, false, false)
  | .mfk _ _ => (true, false, false, false)
  | .mtk _ _ => (false, false, false, false)
  | .eret => (false, false, false, false)
  | .nop => (false, false, false, false)
  | .trap _ => (false, false, false, false)
  | .secreq _ _ _ => (false, false, false, false)
  | .commit _ _ _ => (true, true, true, false)
  | .chk _ _ _ => (false, false, false, false)
  | .ld _ _ _ _ => (true, true, false, false)
  | .st _ _ _ _ => (true, true, false, false)
  | .lah _ _ => (true, false, false, false)
  | .lih _ _ => (true, false, false, false)
  | .vadd _ _ _ _ _ => (true, true, true, false)
  | .vsub _ _ _ _ _ => (true, true, true, false)
  | .vmul _ _ _ _ _ => (true, true, true, false)
  | .vfma _ _ _ _ _ => (true, true, true, false)
  | .vfnma _ _ _ _ _ => (true, true, true, false)
  | .vmin _ _ _ _ _ => (true, true, true, false)
  | .vmax _ _ _ _ _ => (true, true, true, false)
  | .vabs _ _ _ _ => (true, true, false, false)
  | .vneg _ _ _ _ => (true, true, false, false)
  | .vand _ _ _ _ _ => (true, true, true, false)
  | .vor _ _ _ _ _ => (true, true, true, false)
  | .vxor _ _ _ _ _ => (true, true, true, false)
  | .vnot _ _ _ _ => (true, true, false, false)
  | .vsll _ _ _ _ _ => (true, true, true, false)
  | .vsrl _ _ _ _ _ => (true, true, true, false)
  | .vsra _ _ _ _ _ => (true, true, true, false)
  | .vcmp _ _ _ _ _ _ => (true, true, true, false)
  | .vsel _ _ _ _ _ _ => (true, true, true, true)
  | .vcvt _ _ _ _ _ => (true, true, false, false)
  | .vmov _ _ _ _ => (true, true, false, false)
  | .vsplat _ _ _ _ _ => (true, false, false, true)
  | .vxtr _ _ _ _ _ => (false, true, false, true)
  | .vtag _ _ _ _ _ => (true, true, false, false)
  | .vclr _ _ _ => (true, false, false, false)
  | .vcommit _ _ _ _ _ _ => (true, true, true, true)
  | .vpchk _ _ _ _ => (true, true, false, false)
  | .vld _ _ _ _ _ => (true, true, false, false)
  | .vst _ _ _ _ => (true, true, false, false)
  | .vlds _ _ _ _ _ => (true, true, false, false)
  | .vsts _ _ _ _ => (true, true, false, false)
  | .vrotr _ _ _ _ _ => (true, true, false, false)
  | .vrotc _ _ _ _ _ => (true, true, false, false)
  | .vbcr _ _ _ _ _ => (true, true, false, false)
  | .vbcc _ _ _ _ _ => (true, true, false, false)
  | .vredr _ _ _ _ _ => (true, true, false, false)
  | .vredc _ _ _ _ _ => (true, true, false, false)
  | .vscanr _ _ _ _ _ => (true, true, false, false)
  | .vscanc _ _ _ _ _ => (true, true, false, false)
  | .vperm _ _ _ _ _ => (true, true, true, false)
  | .vtrn _ _ _ _ => (true, true, false, false)
  | .vexp2 _ _ _ _ => (true, true, false, false)
  | .vlog2 _ _ _ _ => (true, true, false, false)
  | .vrcp _ _ _ _ => (true, true, false, false)
  | .vrsq _ _ _ _ => (true, true, false, false)
  | .vtanh _ _ _ _ => (true, true, false, false)
  | .vsig _ _ _ _ => (true, true, false, false)
  | .vrand _ _ _ => (true, false, false, false)
  | .vbscale _ _ _ _ _ => (true, true, false, false)
  | .vqmx _ _ _ _ _ => (true, true, false, false)
  | .vqlx _ _ _ _ _ => (true, true, false, false)
  | .vqcb _ _ _ _ _ _ => (true, true, false, false)
  | .vdq _ _ _ _ _ _ => (true, true, false, false)
  | .vsplit _ _ _ _ _ _ => (true, true, false, false)
  | .vcbld _ _ _ => (false, true, false, false)
  | .mmw _ _ _ _ _ => (false, false, false, false)
  | .mma _ _ _ _ _ _ => (false, true, false, false)
  | .mmar _ _ _ _ _ _ _ => (false, true, false, false)
  | .task _ _ _ _ => (false, true, false, false)
  | .tfwd _ _ _ _ => (false, true, false, false)
  | .acal _ _ _ => (false, true, true, false)
  | .acfr _ _ => (false, true, false, false)
  | .aczr _ _ => (false, true, false, false)
  | .acdr _ _ _ _ _ => (false, true, false, false)
  | .splr _ _ _ _ => (false, false, false, false)
  | .spmv _ _ _ _ _ => (false, true, false, false)
  | .spjn _ _ _ _ => (false, true, false, false)
  | .spmg _ _ => (false, true, false, false)
  | .spage _ _ => (false, true, false, false)
  | .sprd _ _ _ => (false, true, true, false)
  | .cp _ _ _ _ => (false, true, true, false)
  | .cpm _ _ _ _ _ => (false, false, false, false)
  | .gath _ _ _ _ => (false, true, true, false)
  | .scat _ _ _ _ => (false, true, true, false)
  | .fill _ _ _ _ rec => (false, true, rec.isNone, false)
  | .sbind _ _ _ _ _ rec => (false, true, rec.isNone, false)
  | .sunb _ _ => (false, true, false, false)
  | .dfl _ _ => (false, true, false, false)
  | .flush _ _ _ => (false, true, true, false)
  | .inv _ _ _ => (false, true, true, false)
  | .rld _ _ _ _ _ => (false, true, true, false)
  | .rst _ _ _ _ _ => (false, true, true, false)
  | .ramo _ _ _ _ _ _ _ => (false, true, true, false)
  | .ramocas _ _ _ _ _ _ _ => (false, true, true, true)
  | .rmc _ _ _ _ _ _ => (false, true, true, true)
  | .rtld _ _ _ _ => (false, true, true, false)
  | .rfence _ _ => (false, false, false, false)
  | .tkget _ _ _ => (false, true, true, false)
  | .tkwait _ _ _ => (false, true, true, false)
  | .tkret _ _ _ => (false, true, true, false)
  | .rget _ _ _ _ rec => (false, true, rec.isNone, false)
  | .rput _ _ _ _ rec => (false, true, rec.isNone, false)
  | .wdpub _ _ _ => (false, true, true, false)
  | .pbar _ => (false, false, false, false)
  | _ => (false, false, false, false)

/-- Repetition r of an instruction (R43). -/
def stepInstr (p : Rep) (r : Nat) : Instr → Instr
  | .add d a b => .add (stepN d p.dd r) (stepN a p.da r) (stepN b p.db r)
  | .sub d a b => .sub (stepN d p.dd r) (stepN a p.da r) (stepN b p.db r)
  | .mul d a b => .mul (stepN d p.dd r) (stepN a p.da r) (stepN b p.db r)
  | .mulh d a b => .mulh (stepN d p.dd r) (stepN a p.da r) (stepN b p.db r)
  | .mulhn d a b => .mulhn (stepN d p.dd r) (stepN a p.da r) (stepN b p.db r)
  | .div d a b => .div (stepN d p.dd r) (stepN a p.da r) (stepN b p.db r)
  | .divn d a b => .divn (stepN d p.dd r) (stepN a p.da r) (stepN b p.db r)
  | .rem d a b => .rem (stepN d p.dd r) (stepN a p.da r) (stepN b p.db r)
  | .remn d a b => .remn (stepN d p.dd r) (stepN a p.da r) (stepN b p.db r)
  | .and d a b => .and (stepN d p.dd r) (stepN a p.da r) (stepN b p.db r)
  | .or d a b => .or (stepN d p.dd r) (stepN a p.da r) (stepN b p.db r)
  | .xor d a b => .xor (stepN d p.dd r) (stepN a p.da r) (stepN b p.db r)
  | .sll d a b => .sll (stepN d p.dd r) (stepN a p.da r) (stepN b p.db r)
  | .srl d a b => .srl (stepN d p.dd r) (stepN a p.da r) (stepN b p.db r)
  | .sra d a b => .sra (stepN d p.dd r) (stepN a p.da r) (stepN b p.db r)
  | .slt d a b => .slt (stepN d p.dd r) (stepN a p.da r) (stepN b p.db r)
  | .sltn d a b => .sltn (stepN d p.dd r) (stepN a p.da r) (stepN b p.db r)
  | .min d a b => .min (stepN d p.dd r) (stepN a p.da r) (stepN b p.db r)
  | .minn d a b => .minn (stepN d p.dd r) (stepN a p.da r) (stepN b p.db r)
  | .max d a b => .max (stepN d p.dd r) (stepN a p.da r) (stepN b p.db r)
  | .maxn d a b => .maxn (stepN d p.dd r) (stepN a p.da r) (stepN b p.db r)
  | .clz d a => .clz (stepN d p.dd r) (stepN a p.da r)
  | .ctz d a => .ctz (stepN d p.dd r) (stepN a p.da r)
  | .popc d a => .popc (stepN d p.dd r) (stepN a p.da r)
  | .addi d a imm => .addi (stepN d p.dd r) (stepN a p.da r) imm
  | .andi d a imm => .andi (stepN d p.dd r) (stepN a p.da r) imm
  | .ori d a imm => .ori (stepN d p.dd r) (stepN a p.da r) imm
  | .xori d a imm => .xori (stepN d p.dd r) (stepN a p.da r) imm
  | .slli d a sh => .slli (stepN d p.dd r) (stepN a p.da r) sh
  | .srli d a sh => .srli (stepN d p.dd r) (stepN a p.da r) sh
  | .srai d a sh => .srai (stepN d p.dd r) (stepN a p.da r) sh
  | .slti d a imm => .slti (stepN d p.dd r) (stepN a p.da r) imm
  | .sltni d a imm => .sltni (stepN d p.dd r) (stepN a p.da r) imm
  | .ext d a pos len => .ext (stepN d p.dd r) (stepN a p.da r) pos len
  | .extn d a pos len => .extn (stepN d p.dd r) (stepN a p.da r) pos len
  | .ins d a pos len => .ins (stepN d p.dd r) (stepN a p.da r) pos len
  | .ldp d win idx => .ldp (stepN d p.dd r) win idx
  | .amo op sc d a b => .amo op sc (stepN d p.dd r) (stepN a p.da r) (stepN b p.db r)
  | .amocas sc d a b => .amocas sc (stepN d p.dd r) (stepN a p.da r) (stepN b p.db r)
  | .tlwait tl a => .tlwait tl (stepN a p.da r)
  | .tlread tl d => .tlread tl (stepN d p.dd r)
  | .tokw d a => .tokw (stepN d p.dd r) (stepN a p.da r)
  | .tokt d a => .tokt (stepN d p.dd r) (stepN a p.da r)
  | .waitch d a => .waitch (stepN d p.dd r) (stepN a p.da r)
  | .taskst d a => .taskst (stepN d p.dd r) (stepN a p.da r)
  | .mfk d k => .mfk (stepN d p.dd r) k
  | .commit d a b => .commit (stepN d p.dd r) (stepN a p.da r) (stepN b p.db r)
  | .ld w d a off => .ld w (stepN d p.dd r) (stepN a p.da r) off
  | .st w d a off => .st w (stepN d p.dd r) (stepN a p.da r) off
  | .lah d imm => .lah (stepN d p.dd r) imm
  | .lih d imm => .lih (stepN d p.dd r) imm
  | .vadd d a b sp rnd => .vadd (stepT d p.dd r) (stepT a p.da r) (stepT b p.db r) sp rnd
  | .vsub d a b sp rnd => .vsub (stepT d p.dd r) (stepT a p.da r) (stepT b p.db r) sp rnd
  | .vmul d a b sp rnd => .vmul (stepT d p.dd r) (stepT a p.da r) (stepT b p.db r) sp rnd
  | .vfma d a b sp rnd => .vfma (stepT d p.dd r) (stepT a p.da r) (stepT b p.db r) sp rnd
  | .vfnma d a b sp rnd => .vfnma (stepT d p.dd r) (stepT a p.da r) (stepT b p.db r) sp rnd
  | .vmin d a b sp rnd => .vmin (stepT d p.dd r) (stepT a p.da r) (stepT b p.db r) sp rnd
  | .vmax d a b sp rnd => .vmax (stepT d p.dd r) (stepT a p.da r) (stepT b p.db r) sp rnd
  | .vabs d a sp rnd => .vabs (stepT d p.dd r) (stepT a p.da r) sp rnd
  | .vneg d a sp rnd => .vneg (stepT d p.dd r) (stepT a p.da r) sp rnd
  | .vand d a b sp rnd => .vand (stepT d p.dd r) (stepT a p.da r) (stepT b p.db r) sp rnd
  | .vor d a b sp rnd => .vor (stepT d p.dd r) (stepT a p.da r) (stepT b p.db r) sp rnd
  | .vxor d a b sp rnd => .vxor (stepT d p.dd r) (stepT a p.da r) (stepT b p.db r) sp rnd
  | .vnot d a sp rnd => .vnot (stepT d p.dd r) (stepT a p.da r) sp rnd
  | .vsll d a b sp rnd => .vsll (stepT d p.dd r) (stepT a p.da r) (stepT b p.db r) sp rnd
  | .vsrl d a b sp rnd => .vsrl (stepT d p.dd r) (stepT a p.da r) (stepT b p.db r) sp rnd
  | .vsra d a b sp rnd => .vsra (stepT d p.dd r) (stepT a p.da r) (stepT b p.db r) sp rnd
  | .vcmp cond d a b sp rnd => .vcmp cond (stepT d p.dd r) (stepT a p.da r) (stepT b p.db r) sp rnd
  | .vsel d a b x sp rnd => .vsel (stepT d p.dd r) (stepT a p.da r) (stepT b p.db r) (stepN x p.dc r) sp rnd
  | .vcvt d a fmt sp rnd => .vcvt (stepT d p.dd r) (stepT a p.da r) fmt sp rnd
  | .vmov d a sp rnd => .vmov (stepT d p.dd r) (stepT a p.da r) sp rnd
  | .vsplat d x fmt sp rnd => .vsplat (stepT d p.dd r) (stepN x p.dc r) fmt sp rnd
  | .vxtr a x k sp rnd => .vxtr (stepN a p.da r) (stepN x p.dc r) k sp rnd
  | .vtag d a fmt sp rnd => .vtag (stepT d p.dd r) (stepT a p.da r) fmt sp rnd
  | .vclr d sp rnd => .vclr (stepT d p.dd r) sp rnd
  | .vcommit d a b x sp rnd => .vcommit (stepT d p.dd r) (stepT a p.da r) (stepT b p.db r) (stepN x p.dc r) sp rnd
  | .vpchk d a sp rnd => .vpchk (stepT d p.dd r) (stepT a p.da r) sp rnd
  | .vld t a off sp rnd => .vld (stepN t p.dd r) (stepN a p.da r) off sp rnd
  | .vst t a off rnd => .vst (stepN t p.dd r) (stepN a p.da r) off rnd
  | .vlds t a off sp rnd => .vlds (stepN t p.dd r) (stepN a p.da r) off sp rnd
  | .vsts t a off rnd => .vsts (stepN t p.dd r) (stepN a p.da r) off rnd
  | .vrotr d a k sp rnd => .vrotr (stepT d p.dd r) (stepT a p.da r) k sp rnd
  | .vrotc d a k sp rnd => .vrotc (stepT d p.dd r) (stepT a p.da r) k sp rnd
  | .vbcr d a k sp rnd => .vbcr (stepT d p.dd r) (stepT a p.da r) k sp rnd
  | .vbcc d a k sp rnd => .vbcc (stepT d p.dd r) (stepT a p.da r) k sp rnd
  | .vredr op d a sp rnd => .vredr op (stepT d p.dd r) (stepT a p.da r) sp rnd
  | .vredc op d a sp rnd => .vredc op (stepT d p.dd r) (stepT a p.da r) sp rnd
  | .vscanr op d a sp rnd => .vscanr op (stepT d p.dd r) (stepT a p.da r) sp rnd
  | .vscanc op d a sp rnd => .vscanc op (stepT d p.dd r) (stepT a p.da r) sp rnd
  | .vperm d a b sp rnd => .vperm (stepT d p.dd r) (stepT a p.da r) (stepT b p.db r) sp rnd
  | .vtrn d a sp rnd => .vtrn (stepN d p.dd r) (stepN a p.da r) sp rnd
  | .vexp2 d a sp rnd => .vexp2 (stepT d p.dd r) (stepT a p.da r) sp rnd
  | .vlog2 d a sp rnd => .vlog2 (stepT d p.dd r) (stepT a p.da r) sp rnd
  | .vrcp d a sp rnd => .vrcp (stepT d p.dd r) (stepT a p.da r) sp rnd
  | .vrsq d a sp rnd => .vrsq (stepT d p.dd r) (stepT a p.da r) sp rnd
  | .vtanh d a sp rnd => .vtanh (stepT d p.dd r) (stepT a p.da r) sp rnd
  | .vsig d a sp rnd => .vsig (stepT d p.dd r) (stepT a p.da r) sp rnd
  | .vrand d fmt sp => .vrand (stepT d p.dd r) fmt sp
  | .vbscale d a fmt sp rnd => .vbscale (stepT d p.dd r) (stepT a p.da r) fmt sp rnd
  | .vqmx d a fmt sp rnd => .vqmx (stepT d p.dd r) (stepT a p.da r) fmt sp rnd
  | .vqlx d a fmt sp rnd => .vqlx (stepT d p.dd r) (stepT a p.da r) fmt sp rnd
  | .vqcb d a fmt k sp rnd => .vqcb (stepT d p.dd r) (stepT a p.da r) fmt k sp rnd
  | .vdq d a fmt k sp rnd => .vdq (stepT d p.dd r) (stepT a p.da r) fmt k sp rnd
  | .vsplit d a fmt k sp rnd => .vsplit (stepT d p.dd r) (stepT a p.da r) fmt k sp rnd
  | .vcbld a fmt k => .vcbld (stepT a p.da r) fmt k
  | .mma a t h cas sw rec => .mma (stepT a p.da r) t h cas sw rec
  | .mmar a t h cls cas sw rec => .mmar (stepN a p.da r) t h cls cas sw rec
  | .task a t h rec => .task (stepT a p.da r) t h rec
  | .tfwd a t h rec => .tfwd (stepT a p.da r) t h rec
  | .acal a b t => .acal (stepN a p.da r) (stepN b p.db r) t
  | .acfr a t => .acfr (stepN a p.da r) t
  | .aczr a t => .aczr (stepN a p.da r) t
  | .acdr d t h cas rec => .acdr (stepN d p.da r) t h cas rec
  | .spmv a t h cas rec => .spmv (stepN a p.da r) t h cas rec
  | .spjn d t h rec => .spjn (stepN d p.da r) t h rec
  | .spmg a t => .spmg (stepN a p.da r) t
  | .spage a t => .spage (stepN a p.da r) t
  | .sprd a b t => .sprd (stepN a p.da r) (stepN b p.db r) t
  | .cp t a b hint => .cp t (stepN a p.da r) (stepN b p.db r) hint
  | .gath t a b hint => .gath t (stepN a p.da r) (stepN b p.db r) hint
  | .scat t a b hint => .scat t (stepN a p.da r) (stepN b p.db r) hint
  | .fill t a b hint rec => .fill t (stepN a p.da r) (stepN b p.db r) hint rec
  | .sbind t a b hint drain rec => .sbind t (stepN a p.da r) (stepN b p.db r) hint drain rec
  | .sunb t a => .sunb t (stepN a p.da r)
  | .dfl t a => .dfl t (stepN a p.da r)
  | .flush t a b => .flush t (stepN a p.da r) (stepN b p.db r)
  | .inv t a b => .inv t (stepN a p.da r) (stepN b p.db r)
  | .rld t a b cls w => .rld t (stepN a p.da r) (stepN b p.db r) cls w
  | .rst t a b cls w => .rst t (stepN a p.da r) (stepN b p.db r) cls w
  | .ramo op t a b cls w sc => .ramo op t (stepN a p.da r) (stepN b p.db r) cls w sc
  | .ramocas t a b c cls w sc => .ramocas t (stepN a p.da r) (stepN b p.db r) (stepN c p.dc r) cls w sc
  | .rmc t a b c cls w => .rmc t (stepN a p.da r) (stepN b p.db r) (stepN c p.dc r) cls w
  | .rtld t a b cls => .rtld t (stepN a p.da r) (stepN b p.db r) cls
  | .tkget t a b => .tkget t (stepN a p.da r) (stepN b p.db r)
  | .tkwait t a b => .tkwait t (stepN a p.da r) (stepN b p.db r)
  | .tkret t a b => .tkret t (stepN a p.da r) (stepN b p.db r)
  | .rget t a b cls rec => .rget t (stepN a p.da r) (stepN b p.db r) cls rec
  | .rput t a b cls rec => .rput t (stepN a p.da r) (stepN b p.db r) cls rec
  | .wdpub t a b => .wdpub t (stepN a p.da r) (stepN b p.db r)
  | i => i

/-- The tile registers an instruction names (R129): of `vtrn` its two groups (R160), of `vsplit` its two destinations (R312). -/
def tilesOf : Instr → List Nat
  | .vadd d a b _ _ => [d.v, a.v, b.v]
  | .vsub d a b _ _ => [d.v, a.v, b.v]
  | .vmul d a b _ _ => [d.v, a.v, b.v]
  | .vfma d a b _ _ => [d.v, a.v, b.v]
  | .vfnma d a b _ _ => [d.v, a.v, b.v]
  | .vmin d a b _ _ => [d.v, a.v, b.v]
  | .vmax d a b _ _ => [d.v, a.v, b.v]
  | .vabs d a _ _ => [d.v, a.v]
  | .vneg d a _ _ => [d.v, a.v]
  | .vand d a b _ _ => [d.v, a.v, b.v]
  | .vor d a b _ _ => [d.v, a.v, b.v]
  | .vxor d a b _ _ => [d.v, a.v, b.v]
  | .vnot d a _ _ => [d.v, a.v]
  | .vsll d a b _ _ => [d.v, a.v, b.v]
  | .vsrl d a b _ _ => [d.v, a.v, b.v]
  | .vsra d a b _ _ => [d.v, a.v, b.v]
  | .vcmp _ d a b _ _ => [d.v, a.v, b.v]
  | .vsel d a b x _ _ => [d.v, a.v, b.v, x]
  | .vcvt d a _ _ _ => [d.v, a.v]
  | .vmov d a _ _ => [d.v, a.v]
  | .vsplat d _ _ _ _ => [d.v]
  | .vxtr a _ _ _ _ => [a]
  | .vtag d a _ _ _ => [d.v, a.v]
  | .vclr d _ _ => [d.v]
  | .vcommit d a b x _ _ => [d.v, a.v, b.v, x]
  | .vpchk d a _ _ => [d.v, a.v]
  | .vld t _ _ _ _ => [t]
  | .vst t _ _ _ => [t]
  | .vlds t _ _ _ _ => [t]
  | .vsts t _ _ _ => [t]
  | .vrotr d a _ _ _ => [d.v, a.v]
  | .vrotc d a _ _ _ => [d.v, a.v]
  | .vbcr d a _ _ _ => [d.v, a.v]
  | .vbcc d a _ _ _ => [d.v, a.v]
  | .vredr _ d a _ _ => [d.v, a.v]
  | .vredc _ d a _ _ => [d.v, a.v]
  | .vscanr _ d a _ _ => [d.v, a.v]
  | .vscanc _ d a _ _ => [d.v, a.v]
  | .vperm d a b _ _ => [d.v, a.v, b.v]
  | .vtrn d a _ _ => [d, d + 1, d + 2, d + 3, a, a + 1, a + 2, a + 3]
  | .vexp2 d a _ _ => [d.v, a.v]
  | .vlog2 d a _ _ => [d.v, a.v]
  | .vrcp d a _ _ => [d.v, a.v]
  | .vrsq d a _ _ => [d.v, a.v]
  | .vtanh d a _ _ => [d.v, a.v]
  | .vsig d a _ _ => [d.v, a.v]
  | .vrand d _ _ => [d.v]
  | .vbscale d a _ _ _ => [d.v, a.v]
  | .vqmx d a _ _ _ => [d.v, a.v]
  | .vqlx d a _ _ _ => [d.v, a.v]
  | .vqcb d a _ _ _ _ => [d.v, a.v]
  | .vdq d a _ _ _ _ => [d.v, a.v]
  | .vsplit d a _ _ _ _ => [d.v, d.v + 1, a.v]
  | .vcbld a _ _ => [a.v]
  | .mma a _ _ _ _ _ => [a.v]
  | .mmar a _ _ _ _ _ _ => [a]
  | .task a _ _ _ => [a.v]
  | .tfwd a _ _ _ => [a.v]
  | .acdr d _ _ _ _ => [d]
  | .spmv a _ _ _ _ => [a]
  | .spjn d _ _ _ => [d]
  | .rtld _ _ b _ => [b]
  | _ => []

/-- Instructions that `rep` may not prefix: the control transfers of R28, and `mtk`, `secreq`, `launch`, `cpm` (R43). -/
def repForbidden : Instr → Bool
  | .beq .. | .bne .. | .blt .. | .bltn .. | .bge .. | .bgen .. | .jal .. | .callg .. | .jalr .. | .loop .. | .loopp ..
  | .probe .. | .chk .. | .eret | .trap .. | .mtk .. | .secreq .. | .launch .. | .cpm .. => true
  | _ => false

/-- The `rep` is legal for the instruction: no step on a field it lacks, and in every repetition registers the fields
may name and tiles below T (R43, R129). -/
def repLegal (tiles : Nat) (p : Rep) (hasRep : Bool) (i : Instr) : Bool :=
  let f := stepFields i
  (!hasRep || !repForbidden i) && (p.dd == 0 || f.1) && (p.da == 0 || f.2.1) && (p.db == 0 || f.2.2.1) && (p.dc == 0 || f.2.2.2) &&
  (List.range p.n).all fun r => (stepInstr p r i).wf && (tilesOf (stepInstr p r i)).all fun t => decide (t < tiles)

/-- Whether an instruction carries its record as the kernel's descriptor mode asks (R39 to R41, R45). -/
def recordOk (inline : Bool) : Instr → Bool
  | .mmw _ _ _ _ rec => rec.isSome == inline
  | .mma _ _ _ _ _ rec => rec.isSome == inline
  | .mmar _ _ _ _ _ _ rec => rec.isSome == inline
  | .task _ _ _ rec => rec.isSome == inline
  | .tfwd _ _ _ rec => rec.isSome == inline
  | .acdr _ _ _ _ rec => rec.isSome == inline
  | .splr _ _ _ rec => rec.isSome == inline
  | .spmv _ _ _ _ rec => rec.isSome == inline
  | .spjn _ _ _ rec => rec.isSome == inline
  | .fill _ _ _ _ rec => rec.isSome == inline
  | .sbind _ _ _ _ _ rec => rec.isSome == inline
  | .rget _ _ _ _ rec => rec.isSome == inline
  | .rput _ _ _ _ rec => rec.isSome == inline
  | _ => true

/-! ### Claims (R102, R146) -/

/-- The words of a group that matter to its claims: its `rep`, if it has a well-formed one. -/
def groupRep (g : Group) : Rep := ((g.pres.find? fun w => preCode w == 1).bind repOf).getD .one
/-- The distinct values a field takes over the repetitions. -/
def stepSet (f : Nat) (st : Int) (n : Nat) : List Nat := ((List.range n).map (stepN f st)).eraseDups
/-- Whether a `stage` prefix is present, and its predicate number (R44). -/
def groupStage (g : Group) : Option Nat := (g.pres.find? fun w => preCode w == 2).map fun w => bitField w 24 22

/-- The registers a group claims, field by field, from its words (R102): the token, the token of a `cpm` follow-on
(R185), the s[b] of `rld`, `ramo`, `ramocas` and `tkget`, the s[x] of `vxtr` (R146). No claim is made of s0. -/
def groupClaims (g : Group) : List Nat :=
  let op := bitField g.word 31 25
  let p := groupRep g
  (match g.engine with
  | .c => []
  | .v => if op = 0x16 then (g.conts.head?.map fun o => stepSet (bitField o 23 18) p.dc p.n).getD [] else []
  | .m => if (1 ≤ op ∧ op ≤ 5) ∨ op = 0x0B ∨ (0x10 ≤ op ∧ op ≤ 0x12) then [bitField g.word 16 11]
          else if (8 ≤ op ∧ op ≤ 0x0A) ∨ (0x13 ≤ op ∧ op ≤ 0x15) then [bitField g.word 12 7] else []
  | .y => if (1 ≤ op ∧ op ≤ 5) ∨ (8 ≤ op ∧ op ≤ 0x0A) ∨ op = 0x10 ∨ op = 0x11 then
            bitField g.word 24 19 :: (if op = 2 then (g.conts.head?.map fun m => [bitField m 16 11]).getD [] else [])
          else []
  | .f => if (1 ≤ op ∧ op ≤ 6) ∨ (8 ≤ op ∧ op ≤ 0x0B) ∨ op = 0x10 ∨ op = 0x11 ∨ op = 0x18 ∨ op = 0x19 then
            bitField g.word 24 19 :: (if op = 1 ∨ op = 3 ∨ op = 4 ∨ op = 9 then stepSet (bitField g.word 12 7) p.db p.n else [])
          else []).filter (· != 0)

/-- The claims of a queued group: none when its predicate was off (R44). -/
def entryClaims (e : QEntry) : List Nat := if e.pred.elim false (fun p => !p.2) then [] else groupClaims e.grp

/-! ### Illegal lines (R29, R259) -/

/-- The control-transfer opcodes of R28. -/
def isTransferOp (w : Nat) : Bool :=
  let op := bitField w 31 25
  decide (0x25 ≤ op ∧ op ≤ 0x2F) || op == 0x39 || op == 0x44 || op == 0x3F || op == 0x41
def isTransfer (g : Group) : Bool := g.engine == .c && isTransferOp g.word

/-- The first SUB of R259 that makes a line illegal, in the order of the table; 0 when the line is legal. -/
def lineFault (h : Nat) (ws : List Nat) (held : Bool) : Nat :=
  let tags := (List.range 7).map fun i => headerTag h (i + 1)
  if tags.contains .reserved then 1
  else if bitField h 30 28 != 0 then 2
  else if h = 0 then 3
  else
    match lineGroups h ws 1 none [] [] with
    | none => if orphaned h ws 1 none [] then 4 else 5
    | some gs =>
      if 1 < (gs.filter isTransfer).length then 6
      else if held && gs.any fun g => g.engine != .c then 7
      else if (gs.flatMap groupClaims).eraseDups.length ≠ (gs.flatMap groupClaims).length then 8
      else 0
where
  /-- whether the line holds an orphaned or fifth continuation word (R26), looked for before any prefix cause -/
  orphaned (h : Nat) : List Nat → Nat → Option Nat → List Nat → Bool
  | [], _, _, _ => false
  | w :: ws, i, cur, pend =>
    match headerTag h i with
    | .instr _ => orphaned h ws (i + 1) (some 0) []
    | .cont =>
      match cur with
      | none => true
      | some k => !pend.isEmpty || k == 4 || orphaned h ws (i + 1) (some (k + 1)) pend
    | .pre => orphaned h ws (i + 1) cur (w :: pend)
    | _ => orphaned h ws (i + 1) cur pend

/-! ### LINE_DELIVERY (R14) -/

/-- Whether a group or a command of the line of a rank is still under way. -/
def Core.lineLives (x : Core) (rank : Nat) : Bool :=
  (x.q.all.any fun e => e.rank / 8 * 8 == rank) || x.fl.cmds.any fun k => k.rank / 8 * 8 == rank
/-- The line has resolved: the next line is chosen (R122), the loop state moves; what the line's transfer decided is kept
while the line has work left (R261). -/
def Core.resolve (x : Core) (l : LineBuf) : Core :=
  let r := nextOf x.loops l.addr l.dec
  let own := if l.dec = .undecided then [] else [(l.rank, l.dec)]
  { x with loops := r.1, ctl := { x.ctl with line := none, nextLine := r.2
                                             decs := (own ++ x.ctl.decs).filter fun p => x.lineLives p.1 } }

/-- Whether a group has a basin footprint before it issues (R173, R174): a `probe` may queue a fill. -/
def hasFootprint (g : Group) : Bool :=
  let op := bitField g.word 31 25
  match g.engine with
  | .v => (decide (0x20 ≤ op ∧ op ≤ 0x23)) || op == 0x46
  | .y => decide (1 ≤ op ∧ op ≤ 5) || op == 8
  | .f => op == 0x10 || op == 0x11
  | .c => op == 0x39
  | _ => false
/-- The groups of the line in hand that may still touch the basin: the `probe` that has not issued. -/
def Core.unissued (x : Core) : List Group :=
  (x.ctl.line.elim [] fun l => cGroups l.words l.lane).filter hasFootprint
/-- The bindings of a core. -/
def Core.bindings (x : Core) : List Binding := x.strm.filterMap id ++ x.ended.map (·.2)
/-- Footprints the range checker holds for a core (R174): the line in hand, queued groups, issued commands with basin accesses
still to perform, bound streams over the basin. -/
def Core.footprints (x : Core) : Nat :=
  x.unissued.length + (x.q.all.filter fun e => hasFootprint e.grp).length +
  (x.fl.cmds.filter fun k => !k.prints.isEmpty).length +
  (x.bindings.filter fun b => b.pat.basinSpan.isSome).length

/-- What holds a legal line back (R14, R102, R174): room in its queues, the meet bit, a pending claim, the range checker. -/
def Core.holdsLine (x : Core) (h : Nat) (gs : List Group) (preds : Nat) : Bool :=
  let on := fun (g : Group) => (groupStage g).elim true preds.testBit
  let room := [Engine.v, .m, .y, .f].all fun e =>
    decide ((x.q.get e).length + (gs.filter fun g => g.engine == e).length ≤ 16)
  let met := !headerMeet h || x.ctl.hold.isSome || x.q.all.isEmpty
  let free := !((gs.filter on).flatMap groupClaims).any fun r => (x.reg r).pend
  let fits := decide (x.footprints + (gs.filter hasFootprint).length ≤ 64)
  !(room && met && free && fits)

/-- The line enters: engine groups their queues with the mode and predicate latched (R44, R97), claims made (R102), the
C lanes the control core. Delivery ranks order groups by line and by lane (R276). -/
def Core.deliver (x : Core) (addr : Nat) (words : List Nat) (gs : List Group) (preds : Nat) : Core :=
  let entry := fun (g : Group) =>
    (⟨x.ctl.rank + g.lane, addr, g, (groupStage g).map fun q => (q, preds.testBit q), x.k.kmode, none, 0, []⟩ : QEntry)
  let add := fun (e : Engine) (l : List QEntry) => l ++ (gs.filter fun g => g.engine == e).map entry
  let claims := (gs.map entry).flatMap entryClaims
  let x1 := claims.foldl (fun x r => x.updReg r fun g => { g with pend := true }) x
  { x1 with
    q := ⟨add .v x.q.v, add .m x.q.m, add .y x.q.y, add .f x.q.f⟩
    ctl := { x.ctl with line := some ⟨addr, words, 1, 0, .undecided, preds, x.ctl.rank, none⟩, rank := x.ctl.rank + 8
                        brkDone := x.ctl.brkDone && x.ctl.hold.isSome } }

/-- A fault at fetch: precise at the line, KEPC with lane 0 (R29). -/
def fetchFault (x : Core) (cause sub : Nat) (tval : W64) (addr : Nat) : PendFault :=
  ⟨x.ctl.rank, cause, sub, tval, addr, 0, 0, none, false, false⟩

/-- Whether a breakpoint holds the line (R400). -/
def Core.breaks (x : Core) (addr : Nat) : Bool :=
  x.ctl.hold.isNone && !x.ctl.brkDone &&
    ((bitOf x.x.kdbgc 1 && fieldOf x.x.kbrk0 55 5 == addr / 32) || (bitOf x.x.kdbgc 2 && fieldOf x.x.kbrk1 55 5 == addr / 32))

/-- A decision as a saved context keeps it, put in the terms of the line's own transfer (R274). -/
def settleDec (words : List Nat) : Decision → Decision
  | .kept t target cnt =>
    match (cGroups words 1).find? isTransfer with
    | none => if t then .taken target else .notTaken
    | some g =>
      match decode .c g.word g.conts with
      | .ok (.loop k _ fin) => .loop false k 1 cnt fin
      | .ok (.loopp k n _ fin) => .loop true k n cnt fin
      | _ => if t then .taken target else .notTaken
  | d => d
/-- The line at `addr` fetched and delivered, or its fault taken, or nothing while it is held back or its pseudo-channel
retrains (R415). -/
def State.fetchLine (s : State) (d c addr : Nat) (only : Option Refetch) : State :=
  let x := s.core d c
  if 2 ^ 56 - 2 ^ 28 ≤ addr then s.takeTrap d c (fetchFault x 0x0A 0 (BitVec.ofNat 64 addr) addr)
  else
    match s.translate d x x.ctl.level .fetch addr with
    | .error e => s.takeTrap d c
        { fetchFault x 0x0D 0 (BitVec.ofNat 64 e.tval) addr with xsyn := some e.word, stage2 := e.stage2 }
    | .ok o =>
      if s.channelBusy d o.pa 32 then s
      else
      let s := (s.touchPa d o.pa 32 .plain).updCore d c fun x => x.cache o.walked
      let r := s.coreRead d c o.pa 32 x.fl.seq
      let words := (List.range 8).map fun i => leNat ((r.1.drop (4 * i)).take 4)
      let h := words.headD 0
      if r.2 then s.takeTrap d c (fetchFault x 0x0E 0 (BitVec.ofNat 64 addr) addr)
      else
        let f := lineFault h words.tail x.ctl.hold.isSome
        if f ≠ 0 then s.takeTrap d c (fetchFault x 0x01 f (BitVec.ofNat 64 h) addr)
        else
          match only with
          | some r => s.updCore d c fun x => x.setCtl fun t =>
              { t with line := some ⟨addr, words, r.lane, r.rep, settleDec words r.dec, x.loops.preds, r.rank.getD t.rank, none⟩
                       refetch := none, rank := t.rank + 8 }
          | none =>
            let gs := (lineGroups h words.tail 1 none [] []).getD []
            if x.holdsLine h gs x.loops.preds then s
            else s.updCore d c fun x => x.deliver addr words gs x.loops.preds

/-- Whether a stop that was asked for is due: its cycles have passed and no context is held (R272, R400, R402). -/
def Core.stopDue (x : Core) : Bool := x.ctl.hold.isNone && x.ctl.stops.any fun r => r.wait == 0

/-- Whether the core fetches: it runs, no stop is due, and it is not frozen without a handler. -/
def Core.fetches (x : Core) : Bool :=
  x.ctl.run == .running && (!x.ctl.frozen || x.ctl.hold.isSome) && !x.stopDue

/-- A stop asked for, with the cycles that have to pass first (R272, R400). -/
def Core.askStop (x : Core) (reason wait : Nat) : Core := x.setCtl fun t => { t with stops := t.stops ++ [⟨reason, wait⟩] }

/-! ### What an engine issues next -/

/-- The next group of an engine: its words and where it stands. -/
structure Slot where
  grp   : Group
  addr  : Nat
  kmode : W64
  rank  : Nat
  rep   : Nat
  pred  : Bool
  tile0 : Option (Nat × Nat)
  acc   : List CmdArg

/-- The next C lane of the current line (R14), or the head of a queue (R15); engines are still while frozen (R262). -/
def Core.slot (x : Core) : Engine → Option Slot
  | .c =>
    if (x.ctl.frozen && x.ctl.hold.isNone) || x.stopDue then none
    else x.ctl.line.bind fun l => (cGroups l.words l.lane).head?.map fun g =>
      ⟨g, l.addr, x.k.kmode, l.rank + g.lane, if g.lane = l.lane then l.rep else 0,
       (groupStage g).elim true l.preds.testBit, none, []⟩
  | e =>
    if x.ctl.frozen || x.stopDue then none
    else (x.q.get e).head?.map fun h => ⟨h.grp, h.addr, h.kmode, h.rank, h.rep, h.pred.elim true (·.2), h.tile0, h.acc⟩

/-- What the group to issue turns out to be (R27, R30, R43, R44): illegal; dropped by its predicate; or the instruction
of the repetition to run next. -/
inductive Pick where
  | illegal
  | off
  | run (i : Instr) (reps : Nat)
  deriving DecidableEq, Repr

/-- A legal prefix list: codes 1 and 2 only, must-be-zero bits zero (R27, R43, R44). -/
def presLegal (ps : List Nat) : Bool :=
  ps.all fun w => (preCode w == 1 && (repOf w).isSome) || (preCode w == 2 && bitField w 21 0 == 0)

def pickInstr (x : Ctx) (g : Group) (rep : Nat) (pred : Bool) : Pick :=
  if !presLegal g.pres then .illegal
  else
    match decode g.engine g.word g.conts with
    | .error _ => .illegal
    | .ok i =>
      if !repLegal x.tiles (groupRep g) (g.pres.any fun w => preCode w == 1) i || !recordOk x.inline i then .illegal
      else if !pred then .off
      else .run (stepInstr (groupRep g) rep i) (groupRep g).n

/-- The focus of a group about to issue. -/
def Slot.focus (p : Slot) (d c reps : Nat) : Focus :=
  ⟨d, c, p.grp.engine, p.addr, p.grp.lane, p.grp.word, p.grp.conts, p.kmode, p.rank, p.rep, reps, p.tile0, p.acc⟩

/-- The C line stands at lane n. -/
def Core.atLane (x : Core) (n : Nat) : Core :=
  x.setCtl fun t => { t with line := t.line.map fun l => if l.lane = n then l else { l with lane := n, rep := 0 } }

/-- The state in which the group of a slot issues: in focus, and for a C lane the line standing at it. -/
def State.aim (s : State) (p : Slot) (d c reps : Nat) : State :=
  let s1 := { s with cur := p.focus d c reps }
  if p.grp.engine = .c then s1.updCore d c fun x => x.atLane p.grp.lane else s1

/-! ### Fetching an instruction where it stands -/

/-- Where the next group of an engine of a core stands: nothing to issue, a fault to take, or an instruction to run in
the state aimed at it. -/
inductive Fetched where
  | nothing (s : State)
  | faulted (o : Out)
  | instr (i : Instr) (s : State)

/-- R385: what the engine's turn brings. -/
def State.fetchGroup (s : State) (d c : Nat) (e : Engine) : Fetched :=
  let x := s.core d c
  if x.ctl.run ≠ .running then .nothing s
  else
    match x.slot e with
    | none => .nothing s
    | some p =>
      match pickInstr x.ctx p.grp p.rep p.pred with
      | .illegal => .faulted (s.aim p d c 1).illegal
      | .off => .nothing (s.aim p d c 1).issued
      | .run i reps => .instr i (s.aim p d c reps)

end Sys2Proof.Machine
end

