-- ==== Sys2Proof/Machine/Order.lean ====
section
/-!
DEFINITION. Sys2Proof/Machine/Order.lean: what holds an issued or queued group back: the range checker over basin
footprints (R173, R174), the tile interlock between queues (R225), stream governance (R196 to R198) and the codebook
waits (R307).
-/
namespace Sys2Proof.Machine
open Sys2Proof

/-! ### What a queued group names -/

/-- The tiles an instruction reads (R133, R185, R222, R286, R322). -/
def tileReads : Instr → List Nat
  | .vadd _ a b _ _ => [a.v, b.v]
  | .vsub _ a b _ _ => [a.v, b.v]
  | .vmul _ a b _ _ => [a.v, b.v]
  | .vfma d a b _ _ => [a.v, b.v, d.v]
  | .vfnma d a b _ _ => [a.v, b.v, d.v]
  | .vmin _ a b _ _ => [a.v, b.v]
  | .vmax _ a b _ _ => [a.v, b.v]
  | .vabs _ a _ _ => [a.v]
  | .vneg _ a _ _ => [a.v]
  | .vand _ a b _ _ => [a.v, b.v]
  | .vor _ a b _ _ => [a.v, b.v]
  | .vxor _ a b _ _ => [a.v, b.v]
  | .vnot _ a _ _ => [a.v]
  | .vsll _ a b _ _ => [a.v, b.v]
  | .vsrl _ a b _ _ => [a.v, b.v]
  | .vsra _ a b _ _ => [a.v, b.v]
  | .vcmp _ _ a b _ _ => [a.v, b.v]
  | .vsel _ a b x _ _ => [a.v, b.v, x]
  | .vcvt _ a _ _ _ => [a.v]
  | .vmov _ a _ _ => [a.v]
  | .vxtr a _ _ _ _ => [a]
  | .vtag _ a _ _ _ => [a.v]
  | .vcommit _ a b x _ _ => [a.v, b.v, x]
  | .vpchk _ a _ _ => [a.v]
  | .vst t _ _ _ => [t]
  | .vsts t _ _ _ => [t]
  | .vrotr _ a _ _ _ => [a.v]
  | .vrotc _ a _ _ _ => [a.v]
  | .vbcr _ a _ _ _ => [a.v]
  | .vbcc _ a _ _ _ => [a.v]
  | .vredr _ _ a _ _ => [a.v]
  | .vredc _ _ a _ _ => [a.v]
  | .vscanr _ _ a _ _ => [a.v]
  | .vscanc _ _ a _ _ => [a.v]
  | .vperm _ a b _ _ => [a.v, b.v]
  | .vtrn _ a _ _ => [a, a + 1, a + 2, a + 3]
  | .vexp2 _ a _ _ => [a.v]
  | .vlog2 _ a _ _ => [a.v]
  | .vrcp _ a _ _ => [a.v]
  | .vrsq _ a _ _ => [a.v]
  | .vtanh _ a _ _ => [a.v]
  | .vsig _ a _ _ => [a.v]
  | .vbscale _ a _ _ _ => [a.v]
  | .vqmx _ a _ _ _ => [a.v]
  | .vqlx _ a _ _ _ => [a.v]
  | .vqcb _ a _ _ _ _ => [a.v]
  | .vdq _ a _ _ _ _ => [a.v]
  | .vsplit _ a _ _ _ _ => [a.v]
  | .vcbld a _ _ => [a.v]
  | .mma a _ _ _ _ _ => [a.v]
  | .task a _ _ _ => [a.v]
  | .tfwd a _ _ _ => [a.v]
  | .spmv a _ _ _ _ => (List.range (64 - a)).map (a + ·)
  | .cpm _ _ _ _ f => if f / 2 ^ 25 = 1 then [] else [bitField f 24 19]
  | _ => []

/-- The tiles an instruction writes, in the order of its results (R133, R160, R312, R343, R349). -/
def tileWrites : Instr → List Nat
  | .vadd d _ _ _ _ => [d.v]
  | .vsub d _ _ _ _ => [d.v]
  | .vmul d _ _ _ _ => [d.v]
  | .vfma d _ _ _ _ => [d.v]
  | .vfnma d _ _ _ _ => [d.v]
  | .vmin d _ _ _ _ => [d.v]
  | .vmax d _ _ _ _ => [d.v]
  | .vabs d _ _ _ => [d.v]
  | .vneg d _ _ _ => [d.v]
  | .vand d _ _ _ _ => [d.v]
  | .vor d _ _ _ _ => [d.v]
  | .vxor d _ _ _ _ => [d.v]
  | .vnot d _ _ _ => [d.v]
  | .vsll d _ _ _ _ => [d.v]
  | .vsrl d _ _ _ _ => [d.v]
  | .vsra d _ _ _ _ => [d.v]
  | .vcmp _ d _ _ _ _ => [d.v]
  | .vsel d _ _ _ _ _ => [d.v]
  | .vcvt d _ _ _ _ => [d.v]
  | .vmov d _ _ _ => [d.v]
  | .vsplat d _ _ _ _ => [d.v]
  | .vtag d _ _ _ _ => [d.v]
  | .vclr d _ _ => [d.v]
  | .vcommit d _ _ _ _ _ => [d.v]
  | .vpchk d _ _ _ => [d.v]
  | .vld t _ _ _ _ => [t]
  | .vlds t _ _ _ _ => [t]
  | .vrotr d _ _ _ _ => [d.v]
  | .vrotc d _ _ _ _ => [d.v]
  | .vbcr d _ _ _ _ => [d.v]
  | .vbcc d _ _ _ _ => [d.v]
  | .vredr _ d _ _ _ => [d.v]
  | .vredc _ d _ _ _ => [d.v]
  | .vscanr _ d _ _ _ => [d.v]
  | .vscanc _ d _ _ _ => [d.v]
  | .vperm d _ _ _ _ => [d.v]
  | .vtrn d _ _ _ => [d, d + 1, d + 2, d + 3]
  | .vexp2 d _ _ _ => [d.v]
  | .vlog2 d _ _ _ => [d.v]
  | .vrcp d _ _ _ => [d.v]
  | .vrsq d _ _ _ => [d.v]
  | .vtanh d _ _ _ => [d.v]
  | .vsig d _ _ _ => [d.v]
  | .vrand d _ _ => [d.v]
  | .vbscale d _ _ _ _ => [d.v]
  | .vqmx d _ _ _ _ => [d.v]
  | .vqlx d _ _ _ _ => [d.v]
  | .vqcb d _ _ _ _ _ => [d.v]
  | .vdq d _ _ _ _ _ => [d.v]
  | .vsplit d _ _ _ _ _ => [d.v, d.v + 1]
  | .mmar a _ _ _ _ _ _ => [a]
  | .acdr d _ _ _ _ => [d]
  | .spjn d _ _ _ => [d]
  | .rtld _ _ b _ => [b]
  | _ => []

/-- The instructions of a group, one for each repetition from the r-th on; none where it performs nothing (R43, R44). -/
def groupInstrs (g : Group) (on : Bool) (from' : Nat) : List Instr :=
  if !on || !presLegal g.pres then []
  else
    match decode g.engine g.word g.conts with
    | .error _ => []
    | .ok i => (List.range ((groupRep g).n - from')).map fun r => stepInstr (groupRep g) (from' + r) i
def QEntry.on (e : QEntry) : Bool := e.pred.elim true (·.2)
/-- The repetitions of a queued group still to perform: those of an M, Y or F command are performed with its last. -/
def QEntry.left (e : QEntry) : List Instr := groupInstrs e.grp e.on (if e.grp.engine = .v then e.rep else 0)
/-- Every repetition of a queued group. -/
def QEntry.whole (e : QEntry) : List Instr := groupInstrs e.grp e.on 0

/-! ### The tile interlock (R225) -/

/-- Whether two lists of tiles meet. -/
def meets (a b : List Nat) : Bool := a.any b.contains
/-- The tiles an issued command writes or has still to write. -/
def Cmd.tileOut (k : Cmd) : List Nat := k.args.flatMap fun a => tileWrites a.instr
/-- Whether a V result has still to be written to one of the tiles (R135, R271, R278). -/
def Core.dumpedTo (x : Core) (l : List Nat) : Bool :=
  (x.fl.vdumped.any fun v => l.contains v.dst) || x.fl.vres.any fun v => v.late && l.contains v.dst
/-- The V results and drain tiles that a save would have to record (R274). -/
def Core.vCount (x : Core) : Nat :=
  x.fl.vdumped.length + (x.fl.vres.filter fun v => v.late && v.num.isNone).length + ((x.bindings.filter fun b => b.kind == .drain).map (·.ring.length)).sum
/-- Whether n more results would leave a save without a record for one of them (R274, log 27). -/
def Core.vFull (x : Core) (n : Nat) : Bool := decide (0 < n ∧ 8 < x.vCount + n)
/-- A V group of a rank that reads and writes the named tiles waits (R225): for an earlier M, F or `cpm` group still to
issue that names a tile it writes, for one still to issue or to complete that writes a tile it names. -/
def Core.vWaits (x : Core) (rank : Nat) (rd wr : List Nat) : Bool :=
  ((x.q.m ++ x.q.y ++ x.q.f).any fun e => decide (e.rank < rank) && e.left.any fun i =>
    meets (tileReads i) wr || meets (tileWrites i) (rd ++ wr)) ||
  (x.fl.cmds.any fun k => decide (k.rank < rank) && meets k.tileOut (rd ++ wr)) || x.dumpedTo (rd ++ wr)
/-- An M, F or `cpm` group that reads the named tiles waits for every earlier V group that writes one (R225), and for an
earlier command that has still to write one. -/
def Core.mReadWaits (x : Core) (rank : Nat) (rd : List Nat) : Bool :=
  (x.q.v.any fun e => decide (e.rank < rank) && e.left.any fun i => meets (tileWrites i) rd) ||
  ((x.q.m ++ x.q.y ++ x.q.f).any fun e => decide (e.rank < rank) && e.left.any fun i => meets (tileWrites i) rd) ||
  (x.fl.cmds.any fun k => decide (k.rank < rank) && meets k.tileOut rd) || x.dumpedTo rd
/-- A command that writes the named tiles waits, before it writes, for every earlier V group that names one (R225), and
for earlier groups of the other queues that do. -/
def Core.mWriteWaits (x : Core) (rank : Nat) (wr : List Nat) : Bool :=
  (x.q.all.any fun e => decide (e.rank < rank) && e.left.any fun i => meets (tileReads i ++ tileWrites i) wr) ||
  (x.fl.cmds.any fun k => decide (k.rank < rank) && meets k.tileOut wr) || x.dumpedTo wr

/-! ### Streams (R196 to R198) -/

/-- The bindings of tile t: the present one and those it has replaced. -/
def Core.boundTo (x : Core) (t : Nat) : List Binding :=
  ((x.strm[t - firstStream]?).getD none).toList ++ (x.ended.filter fun e => e.1 == t).map (·.2)
/-- Whether a binding governs a group of a rank (R196). -/
def Binding.governs (b : Binding) (rank : Nat) : Bool := decide (b.rank < rank) && b.ending.elim true (fun e => decide (rank < e))
/-- The binding that governs tile t for a group of a rank (R196). -/
def Core.bindingAt (x : Core) (t rank : Nat) : Option Binding :=
  if t < firstStream then none
  else (x.boundTo t).find? fun b => b.governs rank
/-- That binding changed. -/
def Core.updBinding (x : Core) (t rank : Nat) (f : Binding → Option Binding) : Core :=
  x.updBindings t (fun b => b.governs rank) f

/-- Whether a Y group is an `sbind` or a `sunb`. -/
def bindsOrEnds (g : Group) : Bool := bitField g.word 31 25 == 8 || bitField g.word 31 25 == 9
/-- A V or M group that names a stream tile waits until every `sbind` and `sunb` before it has issued (R196). -/
def Core.bindWaits (x : Core) (rank : Nat) (tiles : List Nat) : Bool :=
  tiles.any (fun t => decide (firstStream ≤ t)) &&
    x.q.y.any fun e => decide (e.rank < rank) && e.on && bindsOrEnds e.grp

/-- How many tiles of stream t an instruction takes: one for its reads of a spout, one for each write into a drain
(R197, R198). -/
def takes (k : StreamKind) (t : Nat) (i : Instr) : Nat :=
  match k with
  | .spout => if (tileReads i).contains t then 1 else 0
  | .drain => (tileWrites i).count t
/-- The first tile number of a group of a rank under binding b of tile t: the tiles that groups delivered before it take
(R197, R198). -/
def Core.firstNumber (x : Core) (b : Binding) (t rank : Nat) : Nat :=
  let queued := (x.q.v ++ x.q.m).filter fun e => decide (b.rank < e.rank ∧ e.rank < rank)
  let waiting := fun r => queued.any fun e => e.rank == r
  b.base + ((b.uses.filter fun u => decide (u.1 < rank) && !waiting u.1).map (·.2)).sum +
    ((queued.map fun e => (e.whole.map (takes b.kind t)).sum).sum)
/-- The tile number that repetition `rep` of the group in focus takes of stream t: `whole` are its repetitions. -/
def Core.streamNumber (x : Core) (b : Binding) (t rank rep : Nat) (tile0 : Option (Nat × Nat)) (whole : List Instr) : Nat :=
  (tile0.bind fun p => if p.1 = t then some p.2 else none).getD (x.firstNumber b t rank) + ((whole.take rep).map (takes b.kind t)).sum
/-- Tiles of a stream (R194). -/
def Binding.length (b : Binding) : Nat := b.pat.count / 1024

/-- The tiles gone from a release count on, taken in (R197). -/
def releaseTo : Nat → Nat → List Nat → Nat × List Nat
  | 0, c, a => (c, a)
  | f + 1, c, a => if a.contains c then releaseTo f (c + 1) (a.filter (· != c)) else (c, a)
/-- A reader has taken tile n of spout t, or a writer has written it into drain t. -/
def Binding.take (b : Binding) (rank n count : Nat) : Binding :=
  { b with
    uses := b.uses ++ [(rank, count)]
    released := match b.kind with
      | .spout => (releaseTo (b.gone.length + 1) b.released (n :: b.gone)).1
      | .drain => b.released
    gone := match b.kind with
      | .spout => (releaseTo (b.gone.length + 1) b.released (n :: b.gone)).2
      | .drain => b.gone
    ring := match b.kind with
      | .spout => b.ring.filter fun r => r.num != n
      | .drain => b.ring }

/-- A queued group removed unissued by a return with SKIP (R263): it releases what it claimed (R102), and the stream tiles that
its delivery gave it stay its own (R197, R198): of a spout they are released, into a drain they are not written. -/
def Core.dropGroup (e : QEntry) (x : Core) : Core :=
  let tiles := ((e.left.flatMap fun i => tileReads i ++ tileWrites i).filter fun t => decide (firstStream ≤ t)).eraseDups
  tiles.foldl (fun x t =>
    match x.bindingAt t e.rank with
    | none => x
    | some b =>
      let done := ((b.uses.filter fun u => u.1 == e.rank).map (·.2)).sum
      let all := (e.whole.map (takes b.kind t)).sum
      let first := x.streamNumber b t e.rank 0 e.tile0 e.whole
      x.updBinding t e.rank fun b => some (((List.range all).drop done).foldl (fun b i => b.take e.rank (first + i) 1) b))
    ((entryClaims e).foldl Core.release x)

/-- The register behind tile t as a group of a rank finds it: started anew after a `sunb` (R196). -/
def Core.tileAt (x : Core) (t rank : Nat) : Tile :=
  if x.unbound.any fun u => u.1 == t && decide (u.2 < rank) then Tile.zero 0 else (x.tiles[t]?).getD (Tile.zero 0)
/-- A tile register written whole by a group of a rank. -/
def Core.setTile (x : Core) (t rank : Nat) (v : Tile) : Core :=
  { x with tiles := x.tiles.set t v, unbound := x.unbound.filter fun u => !(u.1 == t && decide (u.2 < rank)) }
/-- The tag a form that keeps its destination's tag finds (R145, R148, R198). -/
def Core.tagAt (x : Core) (t rank : Nat) : Nat :=
  match x.bindingAt t rank with
  | some b => if b.kind = .drain then b.pat.tag else (x.tileAt t rank).tag
  | none => (x.tileAt t rank).tag

/-! ### Codebook waits (R307) -/

/-- The table a `vcbld` word's option names. -/
def cbldTable (g : Group) : Option Nat :=
  if g.engine = .v ∧ bitField g.word 31 25 = 0x46 then g.conts.head?.map fun o => bitField o 9 0 else none
/-- A reader of table t waits for every `vcbld` of t before it. -/
def Core.bookWaits (x : Core) (rank t : Nat) : Bool :=
  x.q.v.any fun e => decide (e.rank < rank) && e.on && cbldTable e.grp == some t
/-- Whether a group whose pattern is in its line may name table t: its record's tag says so, or it names it by handle (R46,
R307). -/
def groupMayName (g : Group) (t : Nat) : Bool :=
  match g.conts with
  | [_, _, _, w] => cbTable (bitField w 23 16) == some t
  | _ => true
/-- Whether the buffers of cascade `cas` of die d hold a tag that names table t, or may before an `mma` there reaches its
turn: some `mmw` to it that has not loaded yet may have such a tag (R216, R217). -/
def State.cascadeMayName (s : State) (d cas t : Nat) : Bool :=
  let y := s.die d
  let b := (y.cascs[cas]?).getD .reset
  let names := fun tag => cbTable tag == some t
  names b.front.tag || names b.back.tag || y.cores.any fun x =>
    (x.q.m.any fun e => e.on && bitField e.grp.word 31 25 == 1 && e.grp.word % 4 == cas && groupMayName e.grp t) ||
    (x.fl.cmds.any fun k => !k.over && k.args.any fun a => match a.instr with
      | .mmw .. => k.word % 4 == cas && a.pats.any fun p => names p.tag
      | _ => false)
/-- The follow-on of a `cpm` word's group, if it is an `mma`: its cascade (R185). -/
def followCascade (f : Nat) : Option Nat := if f / 2 ^ 25 = 2 then some (f % 4) else none
/-- A `vcbld` of table t waits for every group before it that reads t, or may (R307): an `mma`, alone or handed over by a
`cpm`, whose cascade may name t; a Y group whose pattern may. -/
def State.bookHeld (s : State) (d c rank t : Nat) : Bool :=
  let x := s.core d c
  (x.q.m.any fun e => decide (e.rank < rank) && e.on && bitField e.grp.word 31 25 == 2 && s.cascadeMayName d (e.grp.word % 4) t) ||
  (x.q.y.any fun e => decide (e.rank < rank) && e.on &&
    ((decide (1 ≤ bitField e.grp.word 31 25 ∧ bitField e.grp.word 31 25 ≤ 5) || bitField e.grp.word 31 25 == 8) && groupMayName e.grp t ||
     (bitField e.grp.word 31 25 == 2 && (e.grp.conts.head?.bind followCascade).elim false fun cas => s.cascadeMayName d cas t))) ||
  (x.fl.cmds.any fun k => decide (k.rank < rank) &&
    (k.follow.bind fun f => followCascade f.1).elim false fun cas => s.cascadeMayName d cas t)

/-! ### Basin footprints (R173, R174) -/

/-- Whether an unissued group with a footprint can write basin bytes (R174). -/
def canWriteBasin (g : Group) : Bool :=
  let op := bitField g.word 31 25
  match g.engine with
  | .v => op == 0x21 || op == 0x23 || op == 0x46
  | .y => decide (1 ≤ op ∧ op ≤ 5) || (op == 8 && bitField g.word 4 4 == 1)
  | .f => op == 0x10
  | .c => true
  | .m => false
/-- The prints of everything delivered before a rank that has basin accesses still to perform (R174). -/
def Core.printsBefore (x : Core) (rank : Nat) : List Print :=
  ((x.q.all.filter fun e => decide (e.rank < rank) && e.on && hasFootprint e.grp).map fun e =>
    ⟨0, x.basinBytes, canWriteBasin e.grp⟩) ++
  ((x.unissued.filter fun g => decide (x.ctl.line.elim 0 (·.rank) + g.lane < rank)).map fun _ => ⟨0, x.basinBytes, true⟩) ++
  ((x.fl.cmds.filter fun k => decide (k.rank < rank)).flatMap Cmd.prints) ++
  (x.bindings.flatMap fun b => if b.rank < rank then b.pat.print (b.kind == .drain) else [])
/-- Whether the basin accesses of something of a rank may be performed now. -/
def Core.basinFree (x : Core) (rank : Nat) (ps : List Print) : Bool :=
  !(ps.any fun p => (x.printsBefore rank).any p.clash)

end Sys2Proof.Machine
end

