-- ==== Sys2Proof/Machine/Operands.lean ====
section
/-!
DEFINITION. Sys2Proof/Machine/Operands.lean: the operand forms of the vector engine: tile operands under a direction
(R132), stream tiles (R197 to R199), poison and origin records (R130, R151), noise words (R163 to R166), and the one way
in which every V instruction runs (R133, R134).
-/
namespace Sys2Proof.Machine
open Sys2Proof

/-! ### Directions (R132) -/

/-- The physical element of a logical one. -/
def physOf (dir : Dir) (e : Nat) : Nat :=
  let i := e / 64
  let q := e % 64 / 16
  let c := e % 16
  match dir with
  | .r => e
  | .c => 64 * c + 16 * q + i
  | .d => 64 * i + 16 * q + (c + i) % 16
/-- The logical element that a physical one holds. -/
def logicalOf (dir : Dir) (e : Nat) : Nat :=
  let i := e / 64
  let q := e % 64 / 16
  let c := e % 16
  match dir with
  | .r => e
  | .c => 64 * c + 16 * q + i
  | .d => 64 * i + 16 * q + (c + 16 - i) % 16

/-- An element as an operand supplies it: container and poison bit. -/
abbrev Elem := W32 × Bool
/-- The logical elements of a tile under a direction. -/
def Tile.elems (t : Tile) (dir : Dir) : List Elem :=
  let l := t.cells.zip t.poison
  if dir = .r then l else (List.range 1024).map fun e => (l[physOf dir e]?).getD (0, false)
/-- The elements of a tile in its own order. -/
def Tile.plain (t : Tile) : List Elem := t.cells.zip t.poison

/-! ### Results -/

/-- One element of a result: container, poison, KVSTAT bits. -/
structure ERes where
  cell   : W32
  poison : Bool
  st     : Nat
  deriving DecidableEq, Repr
/-- A poisoned result: container 0, no status (R87, R130). -/
def ERes.bad : ERes := ⟨0, true, 0⟩
def ERes.ok (c : W32) : ERes := ⟨c, false, 0⟩
/-- The status bits of a result (R87). -/
def statOf (l : List ERes) : Nat := l.foldl (fun s r => s ||| r.st) 0

/-- The rows of several element lists, one row per element. -/
def rowsOf (ls : List (List Elem)) : List (List Elem) :=
  ls.foldr (fun l rows => l.zipWith List.cons rows) (List.replicate 1024 [])
/-- An element-wise computation (R133, R136): each row of elements gives one element, poisoned when any of them is; the
e-th element has the e-th noise word. -/
def eachRow (f : Nat → List W32 → W32 × Nat) : List Nat → List (List Elem) → List ERes
  | _, [] => []
  | ws, row :: rows =>
    (if row.any (·.2) then .bad else
      let r := f (ws.headD 0) (row.map (·.1))
      ⟨r.1, false, r.2⟩) :: eachRow f ws.tail rows

/-- The index of the first poisoned element. -/
def firstBad (l : List ERes) : Option Nat := l.findIdx? (·.poison)
/-- Whether element e of an operand is poisoned. -/
def badAt (l : List Elem) (e : Nat) : Bool := ((l[e]?).map (·.2)).getD false
/-- A tile as an instruction reads it: with the records of the elements that a deferred fault of this reading poisons (R151,
R199), by physical element. -/
structure Src extends Tile where
  own : List (Nat × W64)
/-- What a source gives each element of a result: whether it supplies it a poisoned element, its record, and the record of
that element where the reading itself poisoned it. -/
structure Supply where
  bad : Nat → Bool
  record : W64
  own : Nat → Option W64
/-- A source whose logical element `at' e` goes into result element e, where `on e` holds. -/
def Src.supply (t : Src) (dir : Dir) (on : Nat → Bool) (at' : Nat → Nat) : Supply :=
  ⟨fun e => on e && badAt (t.elems dir) (at' e), t.origin,
   fun e => if on e then (t.own.find? fun o => o.1 == physOf dir (at' e)).map (·.2) else none⟩
/-- A source that may supply a poisoned element from any of the logical elements `at' e` (R151). -/
def Src.supplyAny (t : Src) (dir : Dir) (at' : Nat → List Nat) : Supply :=
  ⟨fun e => (at' e).any fun i => badAt (t.elems dir) i, t.origin,
   fun e => (at' e).findSome? fun i => (t.own.find? fun o => o.1 == physOf dir i).map (·.2)⟩
/-- The origin record of a result (R151), from the lowest poisoned element e: of a deferred fault of this instruction where one
poisoned e; else of the first source which supplied a poisoned element to e. -/
def originFrom (l : List ERes) (srcs : List Supply) : W64 :=
  match firstBad l with
  | none => 0
  | some e => (srcs.findSome? fun s => s.own e).getD (((srcs.find? fun s => s.bad e).map (·.record)).getD 0)
/-- An origin record (R131) written by the group in focus. -/
def State.originHere (s : State) (cause : Nat) : W64 :=
  BitVec.ofNat 64 (cause * 2 ^ 56 + s.cur.addr % 2 ^ 56 / 32 * 32 + s.cur.lane * 4 + 1)

/-- A result laid out as a tile under a direction. -/
def tileOf (dir : Dir) (tag : Nat) (side : List Byte) (origin : W64) (l : List ERes) : Tile :=
  let m := if dir = .r then l else (List.range 1024).map fun e => (l[logicalOf dir e]?).getD (.ok 0)
  ⟨m.map (·.cell), m.map (·.poison), side, tag, origin⟩
/-- An empty side store. -/
def noSide : List Byte := List.replicate 128 0

/-! ### Noise (R163 to R166) -/

/-- The address in the basin of the next logged word. -/
def Core.logAddr (x : Core) (i : Nat) : Nat :=
  x.basinAddr (fieldOf x.k.knlogb 31 0 + fieldOf x.k.knlogp 31 0 + 4 * i)
/-- One word logged (R166): written, PTR advanced, wrapped at SIZE. -/
def State.logWord (s : State) (d c : Nat) (w : W32) : State :=
  let x := s.core d c
  let p := fieldOf x.k.knlogp 31 0 + 4
  let size := fieldOf x.k.knlogb 63 32
  let s := s.updDie d fun y => { y with basin := y.basin.write 0 (x.logAddr 0) (leBytes 4 w.toNat) }
  s.updCore d c fun x => x.setK fun k =>
    if p = size then { k with knlogp := 0, knoise := k.knoise ||| 0x80 } else { k with knlogp := BitVec.ofNat 64 p }
/-- The accesses of n words of the log to its lines (R168). -/
def State.presentLog (s : State) (d c n : Nat) : State :=
  let x := s.core d c
  let size := fieldOf x.k.knlogb 63 32
  let ls := ((List.range n).map fun i =>
    x.basinAddr (fieldOf x.k.knlogb 31 0 + (fieldOf x.k.knlogp 31 0 + 4 * i) % (if size = 0 then 1 else size)) / 64).eraseDups
  s.updDie d fun y => ls.foldl (fun y l => y.present c (64 * l) 64) y
/-- n words for a core (R163, R166): the words, and the state after; `none` where replay has run out. -/
def State.draw (s : State) (d c n : Nat) : Option (List Nat × State) :=
  if n = 0 then some ([], s)
  else
    let x := s.core d c
    match fieldOf x.k.knoise 1 0 with
    | 2 =>
      if fieldOf x.k.knlogb 63 32 < fieldOf x.k.knlogp 31 0 + 4 * n then none
      else
        some ((List.range n).map fun i => leNat ((s.die d).basin.read 0 (x.logAddr i) 4),
          (s.presentLog d c n).updCore d c fun x => x.setK fun k => { k with knlogp := k.knlogp + BitVec.ofNat 64 (4 * n) })
    | m =>
      let ws := (List.range n).map fun i => Config.noiseWord d c (x.noise + i)
      let s1 := s.updCore d c fun x => { x with noise := x.noise + n }
      some (ws.map (·.toNat), if m = 1 then ws.foldl (fun s w => s.logWord d c w) (s1.presentLog d c n) else s1)
/-- The 24 bits a rounding takes of its word (R163). -/
def noise24 (w : Nat) : Nat := w % 2 ^ 24

/-! ### Running a V instruction -/

/-- What the checks at issue say of an instruction (R134): a fault, or the noise words it takes and the tag of its
results. -/
inductive VCheck where
  | illegal
  | format
  | ok (words tag : Nat)
  deriving DecidableEq, Repr

/-- What an instruction comes to: a precise fault at retirement (cause, SUB, KTVAL), or its results. -/
inductive VOut where
  | fault (cause sub : Nat) (tval : W64)
  | format
  | done (outs : List (Nat × Tile)) (st : Nat)
  /-- `vld`, `vlds`: a tile loaded from n bytes at a basin address -/
  | loaded (outs : List (Nat × Tile)) (pa n : Nat)
  /-- `vxtr`: the scalar written -/
  | scalar (r : Nat) (v : W64)
  /-- `vst`, `vsts`: bytes written at a basin address -/
  | store (pa : Nat) (bs : List Byte)
  /-- `vcbld`: the table, and the bytes of its copy in the codebook area -/
  | book (k : Nat) (b : Codebook) (pa : Nat) (bs : List Byte)

/-- The tiles that an outcome writes. -/
def VOut.outs : VOut → List (Nat × Tile)
  | .done l _ => l
  | .loaded l _ _ => l
  | _ => []

/-! ### Occupancy and latency (R135, R154, R313) -/

/-- Occupancy and latency after it, from the tags of the first source (0 without one) and of the result (log 41). -/
abbrev VTime := Nat → Nat → Nat × Nat
/-- A tag of 32 bits: fp32, i32, n32, bits. -/
def tag32 (t : Nat) : Bool := t == 0x01 || t == 0x22 || t == 0x2A || t == tagBits
/-- A form whose occupancy goes by its operands' tag; block formats count as 32 bits (R135). -/
def VTime.byTag (wide narrow latency : Nat) : VTime := fun a r =>
  let t := if a = 0 then r else a
  (if tag32 t || isBlock t then wide else narrow, latency)
/-- A form whose occupancy goes by either tag. -/
def VTime.byEither (wide narrow latency : Nat) : VTime := fun a r => (if tag32 a || tag32 r then wide else narrow, latency)
def VTime.fixed (occupancy latency : Nat) : VTime := fun _ _ => (occupancy, latency)
/-- The cycles from an issue to the write of each of the 16 rows: a row group enters the engine as it is occupied, and is
written its latency later (log 41). -/
def rowCycles (t : Nat × Nat) : List Nat := (List.range 16).map fun r => ((r + 1) * t.1 + 15) / 16 + t.2

/-- A ring tile as its reader gets it: with `.sp` the failing elements poisoned and a record made (R199). -/
def RingTile.given (r : RingTile) (s : State) : Tile :=
  let bad := fun e => r.fails.any fun f => f.elem == e
  let p := r.tile.poison.mapIdx fun e b => b || bad e
  match p.findIdx? id with
  | none => r.tile
  | some e =>
    { r.tile with cells := r.tile.cells.mapIdx fun e c => if bad e then 0 else c
                  poison := p
                  origin := s.originHere (((r.fails.find? fun f => f.elem == e).map (·.cause)).getD 0x03) }

/-- Streams of the group in focus: what a tile it reads or writes is. -/
inductive TileUse where
  | plain
  | spout (b : Binding) (n : Nat)
  | drain (b : Binding) (n : Nat)
/-- The instructions of the group in focus, one per repetition. -/
def State.wholeHere (s : State) (e : Engine) : List Instr :=
  match (s.me.q.get e).head? with
  | some h => h.whole
  | none => []
def State.useOf (s : State) (t : Nat) : TileUse :=
  let x := s.me
  match x.bindingAt t s.cur.rank with
  | none => .plain
  | some b =>
    let n := x.streamNumber b t s.cur.rank s.cur.rep s.cur.tile0 (s.wholeHere s.cur.engine)
    match b.kind with
    | .spout => .spout b n
    | .drain => .drain b n

/-- A tile as the group in focus reads it: of a spout the ring's tile of its number, or an empty one of its tag. -/
def State.readTile (s : State) (t : Nat) : Tile :=
  match s.useOf t with
  | .plain => s.me.tileAt t s.cur.rank
  | .spout b n => ((b.ring.find? fun r => r.num == n).map (·.given s)).getD (Tile.zero b.pat.tag)
  | .drain b _ => Tile.zero b.pat.tag

/-- The elements of a tile that its prefetch could not read, where the reader poisons them for that: a failed translation,
permission, address or range, not an uncorrectable line (R151, R199). -/
def State.ownFails (s : State) (t : Nat) : List (Nat × W64) :=
  match s.useOf t with
  | .spout b n => ((b.ring.find? fun r => r.num == n).map fun r =>
      (r.fails.filter fun f => f.cause != 0x03).map fun f => (f.elem, s.originHere f.cause)).getD []
  | _ => []
/-- A tile as the instruction of the group in focus reads it. -/
def State.readSrc (s : State) (t : Nat) : Src := ⟨s.readTile t, s.ownFails t⟩

/-- What stands in the way of the stream tiles a group reads: past the end, not arrived, or a failed prefetch. -/
inductive StreamBar where
  | clear
  | waits
  | ends (t : Nat)
  | fails (t n : Nat) (f : RingFail)
def State.readBar (s : State) (sp : Bool) : List Nat → StreamBar
  | [] => .clear
  | t :: ts =>
    match s.useOf t with
    | .spout b n =>
      if b.length ≤ n then .ends t
      else
        match b.ring.find? fun r => r.num == n with
        | none => .waits
        | some r =>
          match r.fails.find? fun f => f.cause != 0x03 with
          | some f => if sp then s.readBar sp ts else .fails t n f
          | none => s.readBar sp ts
    | _ => s.readBar sp ts
def State.writeBar (s : State) : List Nat → StreamBar
  | [] => .clear
  | t :: ts =>
    match s.useOf t with
    | .drain b n => if b.length ≤ n then .ends t else if 2 ≤ b.ring.length then .waits else s.writeBar ts
    | _ => s.writeBar ts

/-- Reading a drain or writing a spout (R197, R198). -/
def State.streamMisuse (s : State) (rd wr : List Nat) : Bool :=
  (rd.any fun t => match s.useOf t with | .drain _ _ => true | _ => false) ||
  (wr.any fun t => match s.useOf t with | .spout _ _ => true | _ => false)
/-- A result tag that a drain it goes to does not have (R198). -/
def State.drainTagBad (s : State) (wr : List Nat) (tag : Nat) : Bool :=
  wr.any fun t => match s.useOf t with | .drain b _ => b.pat.tag != tag | _ => false
/-- A stream fault (R199): the tile is to be fetched again. -/
def State.streamFault (s : State) (t n : Nat) (f : RingFail) : Out :=
  (s.updMe fun x => x.updBinding t s.cur.rank fun b => some { b with ring := b.ring.filter fun r => r.num != n }).raisePend
    { s.faultHere 0x10 0 (BitVec.ofNat 64 f.addr) with xsyn := f.xsyn, stage2 := f.stage2 }

/-- The spout tiles that a group has read are released (R197). -/
def State.takeSpouts (s : State) (rd : List Nat) : State :=
  rd.eraseDups.foldl (fun s t =>
    match s.useOf t with
    | .spout _ n => s.updMe fun x => x.updBinding t s.cur.rank fun b => some (b.take s.cur.rank n 1)
    | _ => s) s
/-- A result on its way to its rows (R135, R270): what it replaces, and the status bits it is the one to set. -/
def State.resultOf (s : State) (o : Nat × Tile) (st : Nat) (rows : List Nat) : VRes :=
  ⟨o.1, match s.useOf o.1 with
    | .drain b n => some (b.num, n)
    | _ => none, o.2, s.me.tileAt o.1 s.cur.rank, (BitVec.ofNat 64 st &&& ~~~ s.me.k.kvstat).toNat, rows⟩
/-- The results written: into registers, or into the rings of drains (R198). The uses are those of the state before the first
is written. -/
def State.putTiles (s : State) (outs : List (Nat × Tile)) : State :=
  outs.foldl (fun s' o =>
    match s.useOf o.1 with
    | .drain _ n => s'.updMe fun x => x.updBinding o.1 s.cur.rank fun b =>
        some { b.take s.cur.rank n 1 with ring := b.ring ++ [⟨n, o.2, []⟩] }
    | _ => s'.updMe fun x => x.setTile o.1 s.cur.rank o.2) s
/-- The results of an instruction put in place, their rows on their way (R135). -/
def State.putResults (s : State) (outs : List (Nat × Tile)) (st : Nat) (rows : List Nat) : State :=
  let l := outs.map fun o => s.resultOf o st rows
  (s.putTiles outs).updMe fun x => x.setFl fun f => { f with vres := f.vres ++ l }
/-- A poisoned result on its way into a drain (R198): the record of the first. -/
def State.drainPoison (s : State) (outs : List (Nat × Tile)) : Option W64 :=
  (outs.find? fun o => match s.useOf o.1 with | .drain _ _ => o.2.poison.any id | _ => false).map (·.2.origin)

/-- A deferred tile poison fault (R150). -/
def State.tilePoison (s : State) (origin : W64) : Out := s.raise 0x07 2 origin

/-- The results of a V instruction take effect (R133): it retires. `t` is its occupancy and latency. -/
def State.retire (s : State) (rd : List Nat) (t : Nat × Nat) : VOut → Out
  | .fault c sub v => s.raise c sub v
  | .format => s.formatFault
  | .done outs st => .next (((s.putResults outs st (rowCycles t)).takeSpouts rd).updMe fun x => x.orStat st).issued
  | .loaded outs pa n => .next (((s.putResults outs 0 (rowCycles t)).takeSpouts rd).updMyDie fun y => y.present s.cur.core pa n).issued
  | .scalar r v => .next ((s.takeSpouts rd).updMe fun x =>
      if r = 0 then x else x.setFl fun f => { f with results := f.results ++ [⟨r, v, false, t.1 + t.2⟩] }).issued
  | .store pa bs => .next ((s.takeSpouts rd).updMyDie fun y =>
      { (y.present s.cur.core pa bs.length) with basin := y.basin.write 0 pa bs }).issued
  | .book k b pa bs =>
    .next (((s.takeSpouts rd).updMyDie fun y =>
      { (y.present s.cur.core pa bs.length) with basin := y.basin.write 0 pa bs }).updMe fun x =>
      { x with books := x.books.set k b }).issued

/-- The one way a V instruction runs (R133, R134, R150, R197 to R199): it waits for its tiles and scalars; its form and
tags are checked; then its scalars, its stream tiles, its noise; and it retires with its results. `check` and `run` see
each tile as the instruction reads it. A save has room for eight V results that are on their way (R274): a ninth waits. -/
def State.vrun (s : State) (tm : VTime) (rd wr : List Nat) (sp : Bool) (scal : List Nat) (check : (Nat → Tile) → VCheck)
    (run : (Nat → Src) → List Nat → VOut) : Out :=
  let x := s.me
  if x.bindWaits s.cur.rank (rd ++ wr) || x.vWaits s.cur.rank rd wr || scal.any x.stalls || x.vFull wr.length then s.stall
  else if s.streamMisuse rd wr then s.illegal
  else
    match check s.readTile with
    | .illegal => s.illegal
    | .format => s.formatFault
    | .ok words tag =>
      if s.drainTagBad wr tag then s.formatFault
      else
        match x.firstPoison scal with
        | some r => s.poisonFault r
        | none =>
          match s.readBar sp rd, s.writeBar wr with
          | .waits, _ => s.stall
          | .ends t, _ => s.raise 0x0F 0 (BitVec.ofNat 64 t)
          | .fails t n f, _ => s.streamFault t n f
          | .clear, .waits => s.stall
          | .clear, .ends t => s.raise 0x0F 0 (BitVec.ofNat 64 t)
          | .clear, .fails _ _ _ => s.stall
          | .clear, .clear =>
            match s.draw s.cur.die s.cur.core words with
            | none => s.raise 0x11 0 s.me.k.knlogp
            | some (ws, s1) =>
              match run s.readSrc ws with
              | .fault c sub v => s.raise c sub v
              | .format => s.formatFault
              | r =>
                -- a precise fault changes nothing: the words drawn are drawn again
                match s.drainPoison r.outs with
                | some o => s.tilePoison o
                | none => s1.retire rd (tm ((rd.head?.map fun t => (s.readTile t).tag).getD 0) tag) r

end Sys2Proof.Machine
end

