-- ==== Sys2Proof/Machine/Vector.lean ====
section
/-!
DEFINITION. Sys2Proof/Machine/Vector.lean: the element-wise vector instructions (R136 to R146): arithmetic, bitwise forms
and shifts, compares, selects, conversion, tagging and scalar exchange.
-/
namespace Sys2Proof.Machine
open Sys2Proof

/-! ### Shared -/

/-- A block-format operand under a direction other than `.r` (R132). -/
def dirBad (t : TOp) (tag : Nat) : Bool := isBlock tag && decide (t.dir ≠ .r)
/-- Noise words of an instruction that rounds every element (R89). -/
def wordsFor (m : Mode) (rounds : Bool) (n : Nat) : Nat := if rounds && m.rnd == .rsto then n else 0
/-- The origin sources of element-wise operands (R151). -/
def elemSources (rd : Nat → Src) (ts : List TOp) : List Supply :=
  ts.map fun t => (rd t.v).supply t.dir (fun _ => true) id
/-- An element-wise form (R133): its sources, the tag of its result, and what it computes from the tag of its first source. -/
def elementwise (d : TOp) (srcs : List TOp) (tag : Nat → Nat) (f : Nat → Nat → List W32 → W32 × Nat)
    (rd : Nat → Src) (ws : List Nat) : VOut :=
  let t := ((srcs.head?).map fun a => (rd a.v).tag).getD 0
  let l := eachRow (f t) ws (rowsOf (srcs.map fun a => (rd a.v).elems a.dir))
  .done [(d.v, tileOf d.dir (tag t) noSide (originFrom l (elemSources rd srcs)) l)] (statOf l)
/-- A mask element (R139). -/
def maskCell (b : Bool) : W32 := if b then 0xFFFFFFFF else 0
/-- The canonical NaN code of a float tag (R80). -/
def nanCode (f : Fmt) : Nat := f.nan.getD 0

/-! ### Arithmetic (R136) -/

inductive ArithOp where
  | add | sub | mul | fma | fnma
  deriving DecidableEq, Repr

/-- a × b + c, exact, with the NaN rules of R94. -/
def mulAdd (rdn : Bool) (a b c : Num) : Num × Bool :=
  if a.isNan || b.isNan || c.isNan then (.nan, false)
  else
    let p := a.mul b
    let q := p.1.add rdn c
    (q.1, p.2 || q.2)
/-- The exact operation on floats; INV where it is invalid (R94). -/
def ArithOp.num (op : ArithOp) (rdn : Bool) (l : List Num) : Num × Bool :=
  match op, l with
  | .add, [a, b] => a.add rdn b
  | .sub, [a, b] => a.add rdn b.neg
  | .mul, [a, b] => a.mul b
  | .fma, [a, b, d] => mulAdd rdn a b d
  | .fnma, [a, b, d] => mulAdd rdn a.neg b d
  | _, _ => (.nan, false)
/-- The exact operation on integers. -/
def ArithOp.int (op : ArithOp) (l : List Int) : Int :=
  match op, l with
  | .add, [a, b] => a + b
  | .sub, [a, b] => a - b
  | .mul, [a, b] => a * b
  | .fma, [a, b, d] => a * b + d
  | .fnma, [a, b, d] => d - a * b
  | _, _ => 0
/-- One element of an arithmetic form (R136). -/
def ArithOp.elem (op : ArithOp) (m : Mode) (tag : Nat) (w : Nat) (l : List W32) : W32 × Nat :=
  match floatFmt tag, intFmt tag with
  | some f, _ =>
    let r := op.num (m.rnd == .rdn) (l.map fun c => f.value m.ftz c.toNat)
    let c := f.cvt m (noise24 w) r.1
    (BitVec.ofNat 32 c.1, c.2 ||| if r.2 then stInv else 0)
  | none, some i => (intCell i.1 i.2 (op.int (l.map (intVal i.2 i.1))), 0)
  | none, none => (0, 0)
/-- The tags of R136. -/
def arithCheck (m : Mode) (rounds : Bool) (tags : List Nat) : VCheck :=
  match tags with
  | [] => .format
  | t :: ts =>
    if ts.all (· == t) && (isArithFloat t || isInt t) then .ok (wordsFor m (rounds && isFloat t) 1024) t else .format
/-- Occupancy and latency (R135). -/
def ArithOp.time : ArithOp → VTime
  | .add => .byTag 4 2 2
  | .sub => .byTag 4 2 2
  | _ => .byTag 4 2 4
def State.arith (s : State) (op : ArithOp) (d : TOp) (srcs : List TOp) (sp : Bool) (rnd : Option Rnd) : Out :=
  let m := modeOf s.cur.kmode rnd
  s.vrun op.time (srcs.map (·.v)) [d.v] sp [] (fun rd => arithCheck m true (srcs.map fun t => (rd t.v).tag))
    (elementwise d srcs id fun t => op.elem m t)

def execVadd (d a b : TOp) (sp : Bool) (rnd : Option Rnd) (s : State) : Out := s.arith .add d [a, b] sp rnd
def execVsub (d a b : TOp) (sp : Bool) (rnd : Option Rnd) (s : State) : Out := s.arith .sub d [a, b] sp rnd
def execVmul (d a b : TOp) (sp : Bool) (rnd : Option Rnd) (s : State) : Out := s.arith .mul d [a, b] sp rnd
def execVfma (d a b : TOp) (sp : Bool) (rnd : Option Rnd) (s : State) : Out := s.arith .fma d [a, b, d] sp rnd
def execVfnma (d a b : TOp) (sp : Bool) (rnd : Option Rnd) (s : State) : Out := s.arith .fnma d [a, b, d] sp rnd

/-- An exact result as a code of its own format: NaN canonical, a subnormal flushed under FTZ (R136, R137). -/
def Fmt.exactCode (f : Fmt) (x : Num) : Nat := f.rne x
/-- The smaller or larger of two elements (R136): NaN wins, −0 is below +0. -/
def extremeElem (wantMin : Bool) (m : Mode) (tag : Nat) (a b : W32) : W32 :=
  match floatFmt tag, intFmt tag with
  | some f, _ =>
    let x := f.value m.ftz a.toNat
    let y := f.value m.ftz b.toNat
    if x.isNan || y.isNan then BitVec.ofNat 32 (nanCode f)
    else BitVec.ofNat 32 (f.exactCode (if x.less y == wantMin then x else y))
  | none, some i =>
    let x := intVal i.2 i.1 a
    let y := intVal i.2 i.1 b
    intCell i.1 i.2 (if wantMin then min x y else max x y)
  | none, none => 0
def State.extreme (s : State) (wantMin : Bool) (d a b : TOp) (sp : Bool) (rnd : Option Rnd) : Out :=
  let m := modeOf s.cur.kmode rnd
  s.vrun (.byTag 4 2 2) [a.v, b.v] [d.v] sp [] (fun rd => arithCheck m false [(rd a.v).tag, (rd b.v).tag])
    (elementwise d [a, b] id fun t _ l => match l with
      | [x, y] => (extremeElem wantMin m t x y, 0)
      | _ => (0, 0))
def execVmin (d a b : TOp) (sp : Bool) (rnd : Option Rnd) (s : State) : Out := s.extreme true d a b sp rnd
def execVmax (d a b : TOp) (sp : Bool) (rnd : Option Rnd) (s : State) : Out := s.extreme false d a b sp rnd

/-! ### One operand (R137) -/

/-- A form of one tile source whose result keeps its tag. -/
def State.unary (s : State) (accepts : Nat → Bool) (d a : TOp) (sp : Bool) (f : Nat → W32 → W32) : Out :=
  s.vrun (.byTag 4 2 2) [a.v] [d.v] sp [] (fun rd => if accepts (rd a.v).tag then .ok 0 (rd a.v).tag else .format)
    (elementwise d [a] id fun t _ l => (f t (l.headD 0), 0))

def absElem (m : Mode) (tag : Nat) (a : W32) : W32 :=
  match floatFmt tag, intFmt tag with
  | some f, _ => BitVec.ofNat 32 (f.exactCode (f.value m.ftz a.toNat).abs)
  | none, some i => intCell i.1 i.2 (intVal i.2 i.1 a).natAbs
  | none, none => 0
def negElem (m : Mode) (tag : Nat) (a : W32) : W32 :=
  match floatFmt tag, intFmt tag with
  | some f, _ => BitVec.ofNat 32 (f.exactCode (f.value m.ftz a.toNat).neg)
  | none, some i => intCell i.1 i.2 (-(intVal i.2 i.1 a))
  | none, none => 0
/-- The complement of the low w bits, extended (R137). -/
def notElem (tag : Nat) (a : W32) : W32 := cellOf tag (~~~ a).toNat
def execVabs (d a : TOp) (sp : Bool) (rnd : Option Rnd) (s : State) : Out :=
  s.unary (fun t => isFloat t || isInt t) d a sp (absElem (modeOf s.cur.kmode rnd))
def execVneg (d a : TOp) (sp : Bool) (rnd : Option Rnd) (s : State) : Out :=
  s.unary (fun t => isFloat t || isInt t) d a sp (negElem (modeOf s.cur.kmode rnd))
def execVnot (d a : TOp) (sp : Bool) (_rnd : Option Rnd) (s : State) : Out :=
  s.unary (fun t => isInt t || t == tagBits) d a sp notElem

/-- A copy of a tile's elements under another tag: poison and record with them (R137, R143). -/
def copyElems (d a : TOp) (tag : Nat) (side : List Byte) (f : W32 → W32) (rd : Nat → Src) : VOut :=
  let l := ((rd a.v).elems a.dir).map fun e => if e.2 then ERes.bad else .ok (f e.1)
  .done [(d.v, tileOf d.dir tag side (originFrom l (elemSources rd [a])) l)] 0
def execVmov (d a : TOp) (sp : Bool) (_rnd : Option Rnd) (s : State) : Out :=
  s.vrun (.byTag 4 2 2) [a.v] [d.v] sp []
    (fun rd => if (rd a.v).tag == 0 || dirBad a (rd a.v).tag || dirBad d (rd a.v).tag then .format else .ok 0 (rd a.v).tag)
    fun rd _ => copyElems d a (rd a.v).tag (rd a.v).side id rd

/-! ### Bitwise forms and shifts (R138) -/

def isBitTag (t : Nat) : Bool := isInt t || t == tagBits
def State.bitwise (s : State) (d a b : TOp) (sp : Bool) (f : W32 → W32 → W32) : Out :=
  s.vrun (.byTag 4 2 2) [a.v, b.v] [d.v] sp []
    (fun rd => if isBitTag (rd a.v).tag && (rd b.v).tag == (rd a.v).tag then .ok 0 (rd a.v).tag else .format)
    (elementwise d [a, b] id fun t _ l => match l with
      | [x, y] => (cellOf t (f x y).toNat, 0)
      | _ => (0, 0))
def execVand (d a b : TOp) (sp : Bool) (_rnd : Option Rnd) (s : State) : Out := s.bitwise d a b sp (· &&& ·)
def execVor (d a b : TOp) (sp : Bool) (_rnd : Option Rnd) (s : State) : Out := s.bitwise d a b sp (· ||| ·)
def execVxor (d a b : TOp) (sp : Bool) (_rnd : Option Rnd) (s : State) : Out := s.bitwise d a b sp (· ^^^ ·)

inductive ShiftOp where
  | sll | srl | sra
  deriving DecidableEq, Repr
/-- A shift of the low w bits by bits [5:0] of the count (R138). -/
def ShiftOp.elem (op : ShiftOp) (tag : Nat) (a b : W32) : W32 :=
  let w := tagWidth tag
  let n := b.toNat % 64
  let x := a.toNat % 2 ^ w
  match op with
  | .sll => if w ≤ n then 0 else cellOf tag (x * 2 ^ n)
  | .srl => if w ≤ n then 0 else cellOf tag (x / 2 ^ n)
  | .sra => cellOf tag (unsigned w (sextField w x / (2 ^ min n (w - 1) : Nat)))
def State.shift (s : State) (op : ShiftOp) (d a b : TOp) (sp : Bool) : Out :=
  s.vrun (.byTag 4 2 2) [a.v, b.v] [d.v] sp []
    (fun rd => if isBitTag (rd a.v).tag && isBitTag (rd b.v).tag then .ok 0 (rd a.v).tag else .format)
    (elementwise d [a, b] id fun t _ l => match l with
      | [x, y] => (op.elem t x y, 0)
      | _ => (0, 0))
def execVsll (d a b : TOp) (sp : Bool) (_rnd : Option Rnd) (s : State) : Out := s.shift .sll d a b sp
def execVsrl (d a b : TOp) (sp : Bool) (_rnd : Option Rnd) (s : State) : Out := s.shift .srl d a b sp
def execVsra (d a b : TOp) (sp : Bool) (_rnd : Option Rnd) (s : State) : Out := s.shift .sra d a b sp

/-! ### Compare, select, commit (R139 to R141) -/

/-- Whether a condition holds of an order, `none` where an operand is NaN (R139). -/
def condHolds : Cond → Option Ordering → Bool
  | .eq, o => o == some .eq
  | .ne, o => o != some .eq
  | .lt, o => o == some .lt
  | .le, o => o == some .lt || o == some .eq
  | .gt, o => o == some .gt
  | .ge, o => o == some .gt || o == some .eq
  | .uno, o => o.isNone
  | .ord, o => o.isSome
def orderElem (m : Mode) (tag : Nat) (a b : W32) : Option Ordering :=
  match floatFmt tag, intFmt tag with
  | some f, _ =>
    let x := f.value m.ftz a.toNat
    let y := f.value m.ftz b.toNat
    if x.isNan || y.isNan then none else some (x.cmp y)
  | none, some i => some (compare (intVal i.2 i.1 a) (intVal i.2 i.1 b))
  | none, none => none
def execVcmp (cond : Cond) (d a b : TOp) (sp : Bool) (rnd : Rnd) (s : State) : Out :=
  let m := modeOf s.cur.kmode (some rnd)
  s.vrun (.byTag 4 2 2) [a.v, b.v] [d.v] sp []
    (fun rd => if (isFloat (rd a.v).tag || isInt (rd a.v).tag) && (rd b.v).tag == (rd a.v).tag then .ok 0 tagBits else .format)
    (elementwise d [a, b] (fun _ => tagBits) fun t _ l => match l with
      | [x, y] => (maskCell (condHolds cond (orderElem m t x y)), 0)
      | _ => (0, 0))

/-- The checks of `vsel` and `vcommit` (R140): mask bits, arms of one tag, no direction on a block format. -/
def selCheck (d a b : TOp) (x : Nat) (rd : Nat → Tile) : VCheck :=
  if (rd a.v).tag == tagBits && (rd b.v).tag != 0 && (rd x).tag == (rd b.v).tag && !dirBad b (rd b.v).tag && !dirBad d (rd b.v).tag
  then .ok 0 (rd b.v).tag else .format
/-- Arms of a block format with different side stores (R140). -/
def sidesDiffer (b : TOp) (x : Nat) (rd : Nat → Src) : Bool := isBlock (rd b.v).tag && (rd b.v).side != (rd x).side
/-- The three logical element lists of a select. -/
def selRows (a b : TOp) (x : Nat) (rd : Nat → Src) : List (Elem × Elem × Elem) :=
  ((rd a.v).elems a.dir).zip (((rd b.v).elems b.dir).zip ((rd x).elems .r))
def selTile (d a b : TOp) (x : Nat) (rd : Nat → Src) (l : List ERes) (pick : Bool) : VOut :=
  let am := (rd a.v).elems a.dir
  let chosen := fun e => !pick || ((am[e]?).map (·.1)).getD 0 != 0
  let other := fun e => !pick || ((am[e]?).map (·.1)).getD 0 == 0
  .done [(d.v, tileOf d.dir (rd b.v).tag (rd b.v).side (originFrom l
    [(rd a.v).supply a.dir (fun _ => true) id, (rd b.v).supply b.dir chosen id, (rd x).supply .r other id]) l)] 0
def execVsel (d a b : TOp) (x : Nat) (sp : Bool) (_rnd : Rnd) (s : State) : Out :=
  s.vrun (.byTag 4 2 2) [a.v, b.v, x] [d.v] sp [] (selCheck d a b x) fun rd _ =>
    if sidesDiffer b x rd then .format
    else
      selTile d a b x rd ((selRows a b x rd).map fun r =>
        if r.1.2 || r.2.1.2 || r.2.2.2 then .bad else .ok (if r.1.1 ≠ 0 then r.2.1.1 else r.2.2.1)) false
def execVcommit (d a b : TOp) (x : Nat) (sp : Bool) (_rnd : Rnd) (s : State) : Out :=
  s.vrun (.byTag 4 2 2) [a.v, b.v, x] [d.v] sp [] (selCheck d a b x) fun rd _ =>
    if sidesDiffer b x rd then .format
    else if !sp && ((rd a.v).poison.any id) then .fault 0x07 2 (rd a.v).origin
    else
      selTile d a b x rd ((selRows a b x rd).map fun r =>
        if r.1.2 then .bad
        else
          let pick := if r.1.1 ≠ 0 then r.2.1 else r.2.2
          if pick.2 then .bad else .ok pick.1) true
/-- `vpchk` never faults on poison (R141). -/
def execVpchk (d a : TOp) (sp : Bool) (_rnd : Option Rnd) (s : State) : Out :=
  s.vrun (.byTag 4 2 2) [a.v] [d.v] sp [] (fun rd => if dirBad a (rd a.v).tag then .format else .ok 0 tagBits) fun rd _ =>
    .done [(d.v, tileOf d.dir tagBits noSide 0 (((rd a.v).elems a.dir).map fun e => .ok (maskCell e.2)))] 0

/-! ### Conversion, tagging, scalar exchange (R142 to R146) -/

/-- One element converted (R142). -/
def convertElem (m : Mode) (src dst w : Nat) (c : W32) : W32 × Nat :=
  match floatFmt src, intFmt src, floatFmt dst, intFmt dst with
  | some f, _, some g, _ =>
    let r := g.cvt m (noise24 w) (f.value m.ftz c.toNat)
    (BitVec.ofNat 32 r.1, r.2)
  | some f, _, none, some i =>
    let r := cvtInt i.1 i.2 m.rnd (noise24 w) (f.value m.ftz c.toNat)
    (intCell i.1 i.2 r.1, r.2)
  | none, some j, some g, _ =>
    let r := g.cvt m (noise24 w) (.ofInt (intVal j.2 j.1 c))
    (BitVec.ofNat 32 r.1, r.2)
  | none, some j, none, some i =>
    let r := clampInt i.1 i.2 (intVal j.2 j.1 c)
    (intCell i.1 i.2 r.1, r.2)
  | _, _, _, _ => (0, 0)
/-- Whether a `vcvt` rounds (R89, R142). -/
def cvtRounds (src dst : Nat) : Bool := src != dst && !(isInt src && isInt dst)
def execVcvt (d a : TOp) (fmt : Nat) (sp : Bool) (rnd : Rnd) (s : State) : Out :=
  let m := modeOf s.cur.kmode (some rnd)
  s.vrun (.byEither 4 2 3) [a.v] [d.v] sp []
    (fun rd =>
      if (isFloat (rd a.v).tag || isInt (rd a.v).tag) && (isFloat fmt || isInt fmt)
      then .ok (wordsFor m (cvtRounds (rd a.v).tag fmt) 1024) fmt else .format)
    (elementwise d [a] (fun _ => fmt) fun t w l => convertElem m t fmt w (l.headD 0))

/-- `vtag` reinterprets codes (R143). -/
def execVtag (d a : TOp) (fmt : Nat) (sp : Bool) (_rnd : Rnd) (s : State) : Out :=
  s.vrun (.fixed 4 1) [a.v] [d.v] sp []
    (fun rd => if fmt == 0x23 || dirBad a (rd a.v).tag || dirBad d fmt then .format else .ok 0 fmt)
    fun rd _ => copyElems d a fmt (if isBlock (rd a.v).tag && isBlock fmt then (rd a.v).side else noSide)
      (fun c => cellOf fmt c.toNat) rd
/-- `vsplat` (R144). -/
def execVsplat (d : TOp) (x fmt : Nat) (sp : Bool) (_rnd : Rnd) (s : State) : Out :=
  s.vrun (.fixed 4 1) [] [d.v] sp [x] (fun _ => if isFloat fmt || isBitTag fmt then .ok 0 fmt else .format) fun _ _ =>
    .done [(d.v, tileOf .r fmt noSide 0 (List.replicate 1024 (.ok (cellOf fmt (s.me.val x).toNat))))] 0
/-- `vclr` keeps the tag (R145). R132 gives a fault for a block-format operand under `.c` or `.d`, R145 none for any tag of this
destination: the model clears the register without one (log 30). -/
def execVclr (d : TOp) (sp : Bool) (_rnd : Option Rnd) (s : State) : Out :=
  s.vrun (.fixed 4 1) [] [d.v] sp [] (fun _ => .ok 0 (s.me.tagAt d.v s.cur.rank)) fun _ _ =>
    .done [(d.v, Tile.zero (s.me.tagAt d.v s.cur.rank))] 0
/-- The scalar a `vxtr` gives (R146). -/
def extractWord (tag : Nat) (c : W32) : W64 :=
  if ((intFmt tag).map (·.2)).getD false then c.signExtend 64 else c.zeroExtend 64
def execVxtr (a x k : Nat) (sp : Bool) (_rnd : Rnd) (s : State) : Out :=
  s.vrun (.fixed 1 3) [a] [] sp [] (fun rd => if (rd a).tag == 0 then .format else .ok 0 0) fun rd _ =>
    if badAt (rd a).plain k then .fault 0x07 2 (rd a).origin
    else .scalar x (extractWord (rd a).tag (((rd a).cells[k]?).getD 0))

end Sys2Proof.Machine
end

