-- ==== Sys2Proof/Machine/Across.lean ====
section
/-!
DEFINITION. Sys2Proof/Machine/Across.lean: instructions that move values between elements, the special functions and the
noise source (R153 to R166).
-/
namespace Sys2Proof.Machine
open Sys2Proof

/-! ### Moves (R155, R156, R159, R160) -/

/-- A source tag these forms accept: anything but untagged and block formats (R153). -/
def moveTag (t : Nat) : Bool := t != 0 && !isBlock t
/-- A result whose element e is source element `src e` (R155, R156). -/
def gathered (d a : TOp) (src : Nat → Nat) (rd : Nat → Src) : VOut :=
  let l := (rd a.v).elems a.dir
  let r := (List.range 1024).map fun e => match l[src e]? with
    | some (c, p) => if p then ERes.bad else .ok c
    | none => .ok 0
  .done [(d.v, tileOf d.dir (rd a.v).tag noSide (originFrom r [(rd a.v).supply a.dir (fun _ => true) src]) r)] 0
/-- A move with an index below a limit (R153). -/
def State.moves (s : State) (tm : VTime) (d a : TOp) (k limit : Nat) (sp : Bool) (src : Nat → Nat) : Out :=
  s.vrun tm [a.v] [d.v] sp []
    (fun rd => if limit ≤ k then .illegal else if moveTag (rd a.v).tag then .ok 0 (rd a.v).tag else .format)
    fun rd _ => gathered d a src rd
def execVrotr (d a : TOp) (k : Nat) (sp : Bool) (_rnd : Rnd) (s : State) : Out :=
  s.moves (.byTag 8 4 4) d a k 64 sp fun e => e / 64 * 64 + (e % 64 + k) % 64
def execVrotc (d a : TOp) (k : Nat) (sp : Bool) (_rnd : Rnd) (s : State) : Out :=
  s.moves (.byTag 4 2 2) d a k 16 sp fun e => (e / 64 + k) % 16 * 64 + e % 64
def execVbcr (d a : TOp) (k : Nat) (sp : Bool) (_rnd : Rnd) (s : State) : Out :=
  s.moves (.byTag 4 2 2) d a k 16 sp fun e => k * 64 + e % 64
def execVbcc (d a : TOp) (k : Nat) (sp : Bool) (_rnd : Rnd) (s : State) : Out :=
  s.moves (.byTag 8 4 4) d a k 64 sp fun e => e / 64 * 64 + k

/-- `vperm` (R159). -/
def permTag (t : Nat) : Bool := t == 0x28 || t == 0x29 || t == 0x2A || t == tagBits
def execVperm (d a b : TOp) (sp : Bool) (_rnd : Option Rnd) (s : State) : Out :=
  s.vrun (.fixed 8 6) [a.v, b.v] [d.v] sp []
    (fun rd => if moveTag (rd a.v).tag && permTag (rd b.v).tag then .ok 0 (rd a.v).tag else .format) fun rd _ =>
    let l := (rd a.v).elems a.dir
    let x := (rd b.v).elems b.dir
    let src := fun (e : Nat) => e / 64 * 64 + ((x[e]?).getD (0, false)).1.toNat % 64
    let r := (List.range 1024).map fun e =>
      if badAt x e || badAt l (src e) then ERes.bad else .ok (((l[src e]?).map (·.1)).getD 0)
    .done [(d.v, tileOf d.dir (rd a.v).tag noSide
      (originFrom r [(rd a.v).supply a.dir (fun _ => true) src, (rd b.v).supply b.dir (fun _ => true) id]) r)] 0

/-- The tile and element that element e of result u of a `vtrn` copies (R160). -/
def trnSource (u e : Nat) : Nat × Nat := (e % 64 / 16, e % 64 % 16 * 64 + 16 * u + e / 64)
def trnTile (a u : Nat) (rd : Nat → Src) : Tile :=
  let at' := fun (e : Nat) => ((rd (a + (trnSource u e).1)).plain[(trnSource u e).2]?).getD (0, false)
  let r := (List.range 1024).map fun e => if (at' e).2 then ERes.bad else .ok (at' e).1
  tileOf .r (rd a).tag noSide (originFrom r ((List.range 4).map fun v =>
    (rd (a + v)).supply .r (fun e => (trnSource u e).1 == v) fun e => (trnSource u e).2)) r
/-- `vtrn` transposes a 64 × 64 matrix in four tiles (R160). -/
def execVtrn (d a : Nat) (sp : Bool) (_rnd : Option Rnd) (s : State) : Out :=
  if d % 4 ≠ 0 || a % 4 ≠ 0 then s.illegal
  else
    s.vrun (.fixed 16 8) [a, a + 1, a + 2, a + 3] [d, d + 1, d + 2, d + 3] sp []
      (fun rd => if moveTag (rd a).tag && [1, 2, 3].all (fun u => (rd (a + u)).tag == (rd a).tag) then .ok 0 (rd a).tag else .format)
      fun rd _ => .done ((List.range 4).map fun u => (d + u, trnTile a u rd)) 0

/-! ### Reductions and scans (R157, R158) -/

/-- Whether a tag is accepted for an operation (R157). -/
def redTag (op : RedOp) (t : Nat) : Bool :=
  match op with
  | .add => isArithFloat t || isInt t
  | .min => isFloat t || isInt t
  | .max => isFloat t || isInt t
  | _ => isBitTag t
/-- The combining step c(x, y) (R157). -/
def redStep (op : RedOp) (m : Mode) (tag w : Nat) (x y : W32) : W32 × Nat :=
  match op with
  | .add => ArithOp.add.elem m tag w [x, y]
  | .min => (extremeElem true m tag x y, 0)
  | .max => (extremeElem false m tag x y, 0)
  | .and => (cellOf tag (x &&& y).toNat, 0)
  | .or => (cellOf tag (x ||| y).toNat, 0)
  | .xor => (cellOf tag (x ^^^ y).toNat, 0)
/-- A running computation: values, status so far, noise words left. -/
abbrev RedAcc := List W32 × Nat × List Nat
/-- The words a step takes: one where it rounds under `rsto` (R157). -/
def wordsLeft (draws : Bool) (ws : List Nat) : List Nat := if draws then ws.tail else ws
/-- One halving: x[t] := c(x[t], x[t + w]) for t from 0 (R157). -/
def halve (c : Nat → W32 → W32 → W32 × Nat) (draws : Bool) : List W32 → List W32 → Nat → List Nat → RedAcc
  | x :: xs, y :: ys, st, ws =>
    let r := c (ws.headD 0) x y
    let t := halve c draws xs ys (st ||| r.2) (wordsLeft draws ws)
    (r.1 :: t.1, t.2)
  | _, _, st, ws => ([], st, ws)
/-- The fixed halving tree over 2^n elements (R157). -/
def tree (c : Nat → W32 → W32 → W32 × Nat) (draws : Bool) : Nat → List W32 → Nat → List Nat → RedAcc
  | 0, xs, st, ws => (xs, st, ws)
  | n + 1, xs, st, ws =>
    let r := halve c draws (xs.take (2 ^ n)) (xs.drop (2 ^ n)) st ws
    tree c draws n r.1 r.2.1 r.2.2
/-- The chain y[t] := c(y[t − 1], x[t]) (R158); status only of steps whose result is not poisoned (R87). -/
def chain (c : Nat → W32 → W32 → W32 × Nat) (draws : Bool) : W32 → Bool → List Elem → List Nat → List ERes × List Nat
  | _, _, [], ws => ([], ws)
  | y, bad, x :: xs, ws =>
    let r := c (ws.headD 0) y x.1
    let b := bad || x.2
    let t := chain c draws r.1 b xs (wordsLeft draws ws)
    ((if b then .bad else ⟨r.1, false, r.2⟩) :: t.1, t.2)
/-- One row or column reduced: its results, and the words left. -/
def reduceLine (c : Nat → W32 → W32 → W32 × Nat) (draws : Bool) (n : Nat) (l : List Elem) (ws : List Nat) : List ERes × List Nat :=
  let r := tree c draws n (l.map (·.1)) 0 ws
  let v := r.1.headD 0
  (List.replicate (2 ^ n) (if l.any (·.2) then .bad else ⟨v, false, r.2.1⟩), r.2.2)
def scanLine (c : Nat → W32 → W32 → W32 × Nat) (draws : Bool) (l : List Elem) (ws : List Nat) : List ERes × List Nat :=
  match l with
  | [] => ([], ws)
  | x :: xs =>
    let t := chain c draws x.1 x.2 xs ws
    ((if x.2 then .bad else .ok x.1) :: t.1, t.2)
/-- Every line in ascending order. -/
def eachLine (f : List Elem → List Nat → List ERes × List Nat) : List (List Elem) → List Nat → List (List ERes)
  | [], _ => []
  | l :: ls, ws =>
    let r := f l ws
    r.1 :: eachLine f ls r.2
/-- The rows or the columns of a list of elements. -/
def linesOfTile (rows : Bool) (l : List Elem) : List (List Elem) :=
  if rows then (List.range 16).map fun i => (l.drop (64 * i)).take 64
  else (List.range 64).map fun j => (List.range 16).map fun i => (l[64 * i + j]?).getD (0, false)
/-- Lines put back in element order. -/
def joinLines (rows : Bool) (ls : List (List ERes)) : List ERes :=
  if rows then ls.flatten
  else (List.range 1024).map fun e => (((ls[e % 64]?).getD [])[e / 64]?).getD (.ok 0)
/-- The elements that element e of a reduction or scan along rows or columns depends on (R157, R158). -/
def lineBefore (rows scan : Bool) (e : Nat) : List Nat :=
  let l := if rows then (List.range 64).map fun j => e / 64 * 64 + j else (List.range 16).map fun i => 64 * i + e % 64
  if scan then l.filter fun i => decide (i ≤ e) else l
/-- Occupancy and latency of a reduction or scan (R154). -/
def acrossTime (op : RedOp) (rows scan : Bool) : VTime := fun a r =>
  let long := op == .add && isFloat a
  (match scan, rows with
   | false, false => VTime.byTag 4 2 6
   | false, true => .byTag 8 4 10
   | true, false => .byTag 4 2 (if long then 16 else 4)
   | true, true => .byTag 16 8 (if long then 64 else 8)) a r
/-- A reduction or a scan along rows or columns. -/
def State.across (s : State) (op : RedOp) (rows scan : Bool) (d a : TOp) (sp : Bool) (rnd : Rnd) : Out :=
  let m := modeOf s.cur.kmode (some rnd)
  let rounds := fun (t : Nat) => op == .add && isFloat t
  let calls := if rows then 16 * 63 else 64 * 15
  s.vrun (acrossTime op rows scan) [a.v] [d.v] sp []
    (fun rd => if redTag op (rd a.v).tag then .ok (wordsFor m (rounds (rd a.v).tag) calls) (rd a.v).tag else .format)
    fun rd ws =>
      let t := (rd a.v).tag
      let draws := rounds t && m.rnd == .rsto
      let c := redStep op m t
      let n := if rows then 6 else 4
      let l := joinLines rows (eachLine (fun l ws => if scan then scanLine c draws l ws else reduceLine c draws n l ws)
        (linesOfTile rows ((rd a.v).elems a.dir)) ws)
      .done [(d.v, tileOf d.dir t noSide (originFrom l [(rd a.v).supplyAny a.dir (lineBefore rows scan)]) l)] (statOf l)
def execVredr (op : RedOp) (d a : TOp) (sp : Bool) (rnd : Rnd) (s : State) : Out := s.across op true false d a sp rnd
def execVredc (op : RedOp) (d a : TOp) (sp : Bool) (rnd : Rnd) (s : State) : Out := s.across op false false d a sp rnd
def execVscanr (op : RedOp) (d a : TOp) (sp : Bool) (rnd : Rnd) (s : State) : Out := s.across op true true d a sp rnd
def execVscanc (op : RedOp) (d a : TOp) (sp : Bool) (rnd : Rnd) (s : State) : Out := s.across op false true d a sp rnd

/-! ### Special functions (R161, R162) -/

def State.special (s : State) (fn : SpecialFn) (d a : TOp) (sp : Bool) (rnd : Option Rnd) : Out :=
  let m := modeOf s.cur.kmode rnd
  s.vrun (.byTag 8 4 12) [a.v] [d.v] sp []
    (fun rd => if isArithFloat (rd a.v).tag then .ok (wordsFor m true 1024) (rd a.v).tag else .format)
    (elementwise d [a] id fun t w l => match floatFmt t with
      | some f =>
        let r := fn.result f m (noise24 w) (l.headD 0).toNat
        (BitVec.ofNat 32 r.1, r.2)
      | none => (0, 0))
def execVexp2 (d a : TOp) (sp : Bool) (rnd : Option Rnd) (s : State) : Out := s.special .exp2 d a sp rnd
def execVlog2 (d a : TOp) (sp : Bool) (rnd : Option Rnd) (s : State) : Out := s.special .log2 d a sp rnd
def execVrcp (d a : TOp) (sp : Bool) (rnd : Option Rnd) (s : State) : Out := s.special .rcp d a sp rnd
def execVrsq (d a : TOp) (sp : Bool) (rnd : Option Rnd) (s : State) : Out := s.special .rsq d a sp rnd
def execVtanh (d a : TOp) (sp : Bool) (rnd : Option Rnd) (s : State) : Out := s.special .tanh d a sp rnd
def execVsig (d a : TOp) (sp : Bool) (rnd : Option Rnd) (s : State) : Out := s.special .sig d a sp rnd

/-! ### Noise (R164) -/

/-- An element of a noise word in a format (R164). -/
def noiseElem (fmt q : Nat) : W32 :=
  match fmt with
  | 0x01 => BitVec.ofNat 32 (fmtFp32.rne (.fin false (q / 2 ^ 8) (-24)))
  | 0x02 => BitVec.ofNat 32 (fmtBf16.rne (.fin false (q / 2 ^ 24) (-8)))
  | 0x03 => BitVec.ofNat 32 (fmtFp16.rne (.fin false (q / 2 ^ 21) (-11)))
  | _ => cellOf fmt q
def execVrand (d : TOp) (fmt : Nat) (sp : Bool) (s : State) : Out :=
  s.vrun (.fixed 4 1) [] [d.v] sp []
    (fun _ => if permTag fmt || isArithFloat fmt then .ok 1024 fmt else .format)
    fun _ ws => .done [(d.v, tileOf d.dir fmt noSide 0 (ws.map fun q => .ok (noiseElem fmt q)))] 0

end Sys2Proof.Machine
end

