-- ==== Sys2Proof/Machine/Blocks.lean ====
section
/-!
DEFINITION. Sys2Proof/Machine/Blocks.lean: block formats (R76, R81 to R84): the value of an element under its block's
scale, the choice of a scale (R309) and the encoding of an element (R91, R310).
-/
namespace Sys2Proof.Machine
open Sys2Proof

/-! ### Scales and values -/

/-- A block's scale as its side-store bytes give it (R76): E8M0 of MX and symmetric codebooks, E and µ of LX, scale and
offset codes of an affine codebook. -/
inductive BlockScale where
  | e8m0 (x : Nat)
  | lx (e mu : Nat)
  | affine (scale off : Nat)
  deriving DecidableEq, Repr

/-- A byte of a side store. -/
def sideAt (side : List Byte) (i : Nat) : Nat := ((side[i]?).getD 0).toNat
/-- The scale of block b of a tile (R76). -/
def scaleOf (tag : Nat) (bk : Codebook) (side : List Byte) (b : Nat) : BlockScale :=
  if (lxM tag).isSome then .lx (sideAt side (2 * b)) (sideAt side (2 * b + 1))
  else if (cbTable tag).isSome && bk.affine then
    .affine (sideAt side (4 * b) + 256 * sideAt side (4 * b + 1)) (sideAt side (4 * b + 2) + 256 * sideAt side (4 * b + 3))
  else .e8m0 (sideAt side b)
/-- The bytes a scale takes in the side store. -/
def BlockScale.bytes : BlockScale → List Byte
  | .e8m0 x => [BitVec.ofNat 8 x]
  | .lx e mu => [BitVec.ofNat 8 e, BitVec.ofNat 8 mu]
  | .affine s o => leBytes 2 s ++ leBytes 2 o
/-- A side store of the scales of the blocks in order (R76). -/
def sideOf (l : List BlockScale) : List Byte := ((l.flatMap BlockScale.bytes) ++ List.replicate 128 0).take 128

/-- x × 2^k, exact. -/
def Num.scale (x : Num) (k : Int) : Num :=
  match x with
  | .fin s m e => .fin s m (e + k)
  | x => x
/-- The entry format of a table and its entries (R84); their subnormals are never flushed (R93). -/
def Codebook.fmt (bk : Codebook) : Fmt := if bk.bf16 then fmtBf16 else fmtE4
def Codebook.entry (bk : Codebook) (c : Nat) : Num := bk.fmt.value false ((bk.codes[c]?).getD 0)
/-- entry × scale + offset; the offset alone where the scale is a zero (R84). An exact zero sum is +0 whatever the rounding mode of
the instruction (log 28). -/
def affineValue (x : Num) (scale off : Nat) : Num :=
  let sc := fmtBf16.value false scale
  let o := fmtBf16.value false off
  if sc.isZero then o else ((x.mul sc).1.add false o).1
/-- The µ of element k's group (R82). -/
def muOf (mu k : Nat) : Nat := mu / 4 ^ (k / 8) % 4
/-- The exact value of element k of a block with a code (R81, R82, R84). -/
def blockValue (tag : Nat) (bk : Codebook) (sc : BlockScale) (k code : Nat) : Num :=
  match sc with
  | .affine s o => affineValue (bk.entry (code % 2 ^ tagWidth tag)) s o
  | .lx e mu =>
    match lxM tag with
    | none => .nan
    | some m =>
      if e = 0xFF then .nan
      else
        let q := sextField (m + 1) (code % 2 ^ (m + 1))
        if q = 0 then .zero false
        else (Num.ofInt q).scale ((e : Int) - 127 - (m - 1) - muOf mu k)
  | .e8m0 x =>
    if x = 0xFF then .nan
    else
      match mxFmt tag with
      | some f => (f.value false (code % 2 ^ f.w)).scale ((x : Int) - 127)
      | none => (bk.entry (code % 2 ^ tagWidth tag)).scale ((x : Int) - 127)
/-- Whether a block is a NaN block (R81, R83). -/
def BlockScale.isNan : BlockScale → Bool
  | .e8m0 x => x == 0xFF
  | .lx e _ => e == 0xFF
  | .affine _ _ => false

/-! ### Extremes of a block -/

/-- The larger of two finite values. -/
def Num.maxF (a b : Num) : Num := if (a.cmp b) == .lt then b else a
def Num.minF (a b : Num) : Num := if (a.cmp b) == .gt then b else a
/-- The largest |x| over the finite elements, 0 where there is none (R309). -/
def amaxOf (l : List Num) : Num := (l.filter Num.isFin).foldl (fun a x => a.maxF x.abs) (.zero false)
/-- Coefficient and exponent of a finite value. -/
def Num.parts : Num → Nat × Int
  | .fin _ m e => (m, e)
  | _ => (0, 0)
/-- floor(log2 x) of a finite x > 0. -/
def Num.logf (x : Num) : Int := floorLog x.parts.1 1 x.parts.2
def clampE (e : Int) : Nat := (max 0 (min e 254)).toNat

/-! ### Scale choice (R309) -/

/-- rne(|x| × 2^k) as an integer. -/
def rneInt (x : Num) (k : Int) : Nat := roundGrid .rne false 0 x.parts.1 1 (x.parts.2 + k) 0
/-- The candidates of a codebook tag: its first 16 entries, or all 256 (R91). -/
def candidates (tag : Nat) (bk : Codebook) : List Num :=
  (List.range (if tag < 0x50 then 16 else 256)).map bk.entry
/-- (a − b) / (c − d) rounded to bf16 (R309), a > b and c > d. -/
def ratioBf16 (a b c d : Num) : Nat :=
  let n := (a.add false b.neg).1.parts
  let m := (c.add false d.neg).1.parts
  (fmtBf16.cvtMag modeRne 0 false n.1 m.1 (n.2 - m.2)).1
/-- µ of a group of elements under E (R309). -/
def groupMu (m : Nat) (e : Int) (q : Num) : Nat :=
  if q.isZero then 0
  else (([3, 2, 1, 0] : List Nat).find? fun (u : Nat) => decide (rneInt q ((m : Int) - 1 - (e - 127 - u)) ≤ 2 ^ m - 1)).getD 0
/-- The scale of a block of values for a target tag (R309). -/
def chooseScale (tag : Nat) (bk : Codebook) (l : List Num) : BlockScale :=
  let amax := amaxOf l
  match lxM tag, mxFmt tag with
  | some m, _ =>
    if l.any Num.isNan then .lx 0xFF 0
    else if amax.isZero then .lx 0 0
    else
      let e0 := amax.logf + 127
      let e1 := if 2 ^ m - 1 < rneInt amax ((m : Int) - 1 - (e0 - 127)) then e0 + 1 else e0
      let e := clampE e1
      .lx e (((List.range 4).map fun g => groupMu m e (amaxOf ((l.drop (8 * g)).take 8)) * 4 ^ g).sum)
  | none, some f =>
    if amax.isZero then .e8m0 0 else .e8m0 (clampE (amax.logf - f.emax + 127))
  | none, none =>
    let c := (candidates tag bk).filter Num.isFin
    if bk.affine then
      match l.filter Num.isFin with
      | [] => .affine 0 0
      | x :: xs =>
        let lo := xs.foldl Num.minF x
        let hi := xs.foldl Num.maxF x
        let emin := c.foldl Num.minF (c.headD (.zero false))
        let emax := c.foldl Num.maxF (c.headD (.zero false))
        if hi.cmp lo == .eq || emax.cmp emin == .eq then
          .affine 0 (fmtBf16.rne ((lo.add false hi).1.scale (-1)))
        else
          let s := ratioBf16 hi lo emax emin
          .affine s (fmtBf16.rne (lo.add false (emin.mul (fmtBf16.value false s)).1.neg).1)
    else
      let cmax := amaxOf c
      if amax.isZero || cmax.isZero then .e8m0 0
      else
        let a := amax.parts
        let b := cmax.parts
        let k := floorLog a.1 b.1 (a.2 - b.2)
        .e8m0 (clampE ((if amax.cmp (cmax.scale k) == .eq then k else k + 1) + 127))

/-! ### Encoding (R91, R310) -/

/-- |x − c| for finite values. -/
def distance (x c : Num) : Num := (x.add false c.neg).1.abs
/-- The index of the best of the listed values under a measure: among equals the lowest even index, else the lowest
(R91). -/
def bestOf (l : List (Nat × Num)) : Option Nat :=
  match l with
  | [] => none
  | p :: ps =>
    let b := ps.foldl (fun a x => a.minF x.2) p.2
    let eq := (l.filter fun x => x.2.cmp b == .eq).map (·.1)
    some ((eq.find? (· % 2 == 0)).getD (eq.headD 0))
/-- A value encoded into a codebook (R91): its index and status. -/
def bookCode (cands : List Num) (x : Num) : Nat × Nat :=
  let l := cands.mapIdx fun i c => (i, c)
  let ok := l.filter fun p => !p.2.isNan
  let top := ok.foldl (fun a p => a.maxF p.2) ((ok.head?).elim (.zero false) (·.2))
  let low := ok.foldl (fun a p => a.minF p.2) ((ok.head?).elim (.zero false) (·.2))
  let at' := fun (v : Num) => ((bestOf (ok.filter fun p => p.2.cmp v == .eq)).getD Config.noCandidate)
  match x with
  | .nan => ((bestOf (ok.map fun p => (p.1, p.2.abs))).getD Config.noCandidate, stInv)
  | x =>
    if ok.isEmpty then (Config.noCandidate, 0)
    else if top.cmp x == .lt then (at' top, stSat)
    else if x.cmp low == .lt then (at' low, stSat)
    else
      match x with
      | .fin _ _ _ => ((bestOf ((ok.filter fun p => p.2.isFin).map fun p => (p.1, distance x p.2))).getD Config.noCandidate, 0)
      | .inf s => (at' (if s then low else top), stSat)
      | .nan => (Config.noCandidate, stInv)
/-- An LX code: cvt into the grid of its group (R310). -/
def lxCode (m : Nat) (step : Int) (md : Mode) (r : Nat) (x : Num) : Nat × Nat :=
  let out := fun (q : Int) => unsigned (m + 1) q
  match x with
  | .nan => (0, 0)
  | .inf s => (out (if s then -(2 ^ m : Nat) else (2 ^ m : Nat) - 1), stSat)
  | .fin s c e =>
    let k : Int := roundGrid md.rnd s r c 1 e step
    let q := if s then -k else k
    if (2 ^ m : Nat) - 1 < q then (out ((2 ^ m : Nat) - 1), stSat)
    else if q < -(2 ^ m : Nat) then (out (-(2 ^ m : Nat)), stSat)
    else (out q, 0)
/-- Element k of a block encoded under its scale (R310): code and status. -/
def encodeElem (tag : Nat) (bk : Codebook) (sc : BlockScale) (md : Mode) (r k : Nat) (x : Num) : Nat × Nat :=
  match sc with
  | .lx e mu =>
    match lxM tag with
    | some m =>
      if e = 0xFF then (0, 0)
      else lxCode m ((e : Int) - 127 - (m - 1) - muOf mu k) md r x
    | none => (0, 0)
  | .e8m0 s =>
    match mxFmt tag with
    | some f => f.cvt md r (x.scale (127 - (s : Int)))
    | none => bookCode ((candidates tag bk).map fun c => c.scale ((s : Int) - 127)) x
  | .affine s o => bookCode ((candidates tag bk).map fun c => affineValue c s o) x

/-- Blocks of 32 in order. -/
def blocksOf {α : Type} (l : List α) : List (List α) := (List.range ((l.length + 31) / 32)).map fun b => (l.drop (32 * b)).take 32
/-- A zero block of LX: every code is 0 (R83, R309). -/
def isZeroBlock (tag : Nat) (l : List Num) : Bool := (lxM tag).isSome && (amaxOf l).isZero
/-- Values quantised into a tag, block by block, one noise word an element (R308 to R310): codes with their status, and
the scales. -/
def quantise (tag : Nat) (bk : Codebook) (md : Mode) (l : List Num) (ws : List Nat) : List (Nat × Nat) × List BlockScale :=
  let bs := blocksOf l
  let sc := bs.map (chooseScale tag bk)
  let one := fun (b : Nat) (p : List Num × BlockScale) =>
    p.1.mapIdx fun k x => if isZeroBlock tag p.1 then (0, 0) else encodeElem tag bk p.2 md (((ws[32 * b + k]?).getD 0) % 2 ^ 24) k x
  (((bs.zip sc).mapIdx one).flatten, sc)

end Sys2Proof.Machine
end

