-- ==== Sys2Proof/Machine/Quant.lean ====
section
/-!
DEFINITION. Sys2Proof/Machine/Quant.lean: the quantising and dequantising vector instructions and the loading of codebook
tables (R304 to R312).
-/
namespace Sys2Proof.Machine
open Sys2Proof

/-- Table t of the core's table store (R304). -/
def Core.book (x : Core) (t : Nat) : Codebook := (x.books[t]?).getD ⟨false, false, []⟩
/-- The table of a tag; any where the tag names none. -/
def Core.bookOf (x : Core) (tag : Nat) : Codebook := x.book ((cbTable tag).getD 0)
/-- The tags a quantiser accepts (R311). -/
def isMx (t : Nat) : Bool := (mxFmt t).isSome
def isLx (t : Nat) : Bool := (lxM t).isSome
def isCb (t : Nat) : Bool := (cbTable t).isSome
/-- k must be the table a codebook tag names, 0 without one (R308). -/
def kOk (tag k : Nat) : Bool := k == (cbTable tag).getD 0

/-- The exact values of a source's elements; a poisoned one reads as 0 (R308). -/
def sourceNums (m : Mode) (tag : Nat) (l : List Elem) : List Num :=
  l.map fun e => match floatFmt tag with
    | some f => if e.2 then .zero false else f.value m.ftz e.1.toNat
    | none => .nan
/-- Codes and status put into result elements, poisoned where the source is. -/
def codedElems (tag : Nat) (l : List Elem) (cs : List (Nat × Nat)) : List ERes :=
  (l.zip cs).map fun p => if p.1.2 then .bad else ⟨cellOf tag p.2.1, false, p.2.2⟩
/-- The record of a result whose poison is its one source's (R151). -/
def originOf1 (t : Src) (dir : Dir) (l : List ERes) : W64 := originFrom l [t.supply dir (fun _ => true) id]

/-! ### vqmx, vqlx, vqcb, vbscale, vdq -/

/-- Occupancy and latency of a quantiser to a format (R313); of `vsplit` twice that occupancy. -/
def quantTime (fmt k latency : Nat) : VTime := fun a r =>
  let t := if isCb fmt && tagWidth fmt == 8 then (16, 12) else VTime.byEither 8 4 8 a r
  (k * t.1, if latency = 0 then t.2 else latency)
/-- A quantiser (R308 to R311). -/
def State.quantiser (s : State) (d a : TOp) (fmt : Nat) (accepts : Bool) (sp : Bool) (rnd : Rnd) : Out :=
  let m := modeOf s.cur.kmode (some rnd)
  s.vrun (quantTime fmt 1 0) [a.v] [d.v] sp []
    (fun rd => if accepts && isArithFloat (rd a.v).tag && !dirBad d fmt then .ok (wordsFor m true 1024) fmt else .format)
    fun rd ws =>
      let l := (rd a.v).elems a.dir
      let q := quantise fmt (s.me.bookOf fmt) m (sourceNums m (rd a.v).tag l) ws
      let r := codedElems fmt l q.1
      .done [(d.v, tileOf d.dir fmt (sideOf q.2) (originOf1 (rd a.v) a.dir r) r)] (statOf r)
def execVqmx (d a : TOp) (fmt : Nat) (sp : Bool) (rnd : Rnd) (s : State) : Out := s.quantiser d a fmt (isMx fmt) sp rnd
def execVqlx (d a : TOp) (fmt : Nat) (sp : Bool) (rnd : Rnd) (s : State) : Out := s.quantiser d a fmt (isLx fmt) sp rnd
def execVqcb (d a : TOp) (fmt k : Nat) (sp : Bool) (rnd : Rnd) (s : State) : Out :=
  s.quantiser d a fmt (isCb fmt && kOk fmt k) sp rnd

/-- The block multiplier of element k (R311). -/
def multiplier (tag : Nat) (sc : BlockScale) (k : Nat) : Num :=
  match sc with
  | .e8m0 x => (Num.ofInt 1).scale ((x : Int) - 127)
  | .lx e mu => if e = 0xFF then .nan else (Num.ofInt 1).scale ((e : Int) - 127 - muOf mu k)
  | .affine s _ => if isCb tag then fmtBf16.value false s else .nan
def execVbscale (d a : TOp) (fmt : Nat) (sp : Bool) (rnd : Rnd) (s : State) : Out :=
  let m := modeOf s.cur.kmode (some rnd)
  s.vrun (.byEither 8 4 8) [a.v] [d.v] sp []
    (fun rd => if isBlock fmt && isArithFloat (rd a.v).tag then .ok (wordsFor m true 1024) 0x01 else .format)
    fun rd ws =>
      let l := (rd a.v).elems a.dir
      let sc := (blocksOf (sourceNums m (rd a.v).tag l)).map (chooseScale fmt (s.me.bookOf fmt))
      let cs := (List.range 1024).map fun e =>
        fmtFp32.cvt m (noise24 ((ws[e]?).getD 0)) (multiplier fmt ((sc[e / 32]?).getD (.e8m0 0)) (e % 32))
      let r := codedElems 0x01 l cs
      .done [(d.v, tileOf d.dir 0x01 noSide (originOf1 (rd a.v) a.dir r) r)] (statOf r)

/-- The exact values of a block-format tile (R81, R82, R84). -/
def Tile.blockNums (t : Tile) (bk : Codebook) : List Num :=
  t.cells.mapIdx fun e c => blockValue t.tag bk (scaleOf t.tag bk t.side (e / 32)) (e % 32) c.toNat
def execVdq (d a : TOp) (fmt k : Nat) (sp : Bool) (rnd : Rnd) (s : State) : Out :=
  let m := modeOf s.cur.kmode (some rnd)
  s.vrun (.byEither 4 2 4) [a.v] [d.v] sp []
    (fun rd =>
      if isArithFloat fmt && isBlock (rd a.v).tag && a.dir == .r && kOk (rd a.v).tag k then .ok (wordsFor m true 1024) fmt else .format)
    fun rd ws =>
      let t := rd a.v
      match floatFmt fmt with
      | none => .format
      | some f =>
        let cs := (t.blockNums (s.me.bookOf t.tag)).mapIdx fun e x => f.cvt m (noise24 ((ws[e]?).getD 0)) x
        let r := codedElems fmt t.plain cs
        .done [(d.v, tileOf d.dir fmt noSide (originOf1 t .r r) r)] (statOf r)

/-! ### vsplit (R312) -/

/-- The residual of an element: exact, +0 where the source is poisoned, NaN or infinite, or its block is a NaN block. An exact
zero is +0 whatever the rounding mode (log 28). -/
def residual (tag : Nat) (bk : Codebook) (sc : List BlockScale) (e : Nat) (bad : Bool) (x : Num) (code : Nat) : Num :=
  let b := (sc[e / 32]?).getD (.e8m0 0)
  if x.isFin && !bad && !b.isNan then (x.add false (blockValue tag bk b (e % 32) code).neg).1 else .zero false
def execVsplit (d a : TOp) (fmt k : Nat) (sp : Bool) (rnd : Rnd) (s : State) : Out :=
  let m := modeOf s.cur.kmode (some rnd)
  if d.v % 2 ≠ 0 || s.me.ctx.tiles ≤ d.v + 1 then s.illegal
  else
    s.vrun (quantTime fmt 2 16) [a.v] [d.v, d.v + 1] sp []
      (fun rd => if isBlock fmt && kOk fmt k && isArithFloat (rd a.v).tag && d.dir == .r then .ok (wordsFor m true 2048) fmt else .format)
      fun rd ws =>
        let l := (rd a.v).elems a.dir
        let bk := s.me.bookOf fmt
        let xs := sourceNums m (rd a.v).tag l
        let q1 := quantise fmt bk m xs ws
        let rs := (xs.zip (q1.1.map (·.1))).mapIdx fun e p => residual fmt bk q1.2 e (badAt l e) p.1 p.2
        let q2 := quantise fmt bk m rs (ws.drop 1024)
        let r1 := codedElems fmt l q1.1
        let r2 := codedElems fmt l q2.1
        .done [(d.v, tileOf .r fmt (sideOf q1.2) (originOf1 (rd a.v) a.dir r1) r1),
               (d.v + 1, tileOf .r fmt (sideOf q2.2) (originOf1 (rd a.v) a.dir r2) r2)] (statOf r1 ||| statOf r2)

/-! ### vcbld (R306) -/

/-- The offset of table k in the codebook area (R304). -/
def Core.areaOff (x : Core) (k : Nat) : Nat := x.basinBytes - 8448 + 528 * k
/-- The 528 bytes of a table (R304); the ignored ones are free (log 21). -/
def Codebook.image (b : Codebook) : List Byte :=
  let used := if b.bf16 then b.codes.flatMap (leBytes 2) else b.codes.map (BitVec.ofNat 8)
  let first : Byte := (Config.bookFiller 0 &&& 0xFC) ||| BitVec.ofNat 8 (boolBit b.affine + 2 * boolBit b.bf16)
  [first] ++ (List.range 15).map (fun i => Config.bookFiller (i + 1)) ++ used ++
    (List.range (512 - used.length)).map fun i => Config.bookFiller (16 + used.length + i)
def execVcbld (a : TOp) (fmt k : Nat) (s : State) : Out :=
  let x := s.me
  if s.bookHeld s.cur.die s.cur.core s.cur.rank k || !x.basinFree s.cur.rank (if x.basinBytes = 0 then [] else [⟨x.areaOff k, x.areaOff k + 528, true⟩]) then s.stall
  else
    s.vrun (.fixed 9 24) [a.v] [] false []
      (fun rd => if (fmt == 0x04 || fmt == 0x02) && (rd a.v).tag == fmt then .ok 0 0 else .format) fun rd _ =>
      let l := (rd a.v).elems a.dir
      if (l.take 257).any (·.2) then .fault 0x07 2 (rd a.v).origin
      else if x.basinBytes = 0 then .fault 0x0C 0 0
      else
        let bf := fmt == 0x02
        let b : Codebook := ⟨(((l[256]?).getD (0, false)).1).getLsbD 0, bf,
          (l.take 256).map fun e => e.1.toNat % (if bf then 65536 else 256)⟩
        .book k b (x.basinAddr (x.areaOff k)) b.image

end Sys2Proof.Machine
end

