-- ==== Sys2Proof/Machine/Basin.lean ====
section
/-!
DEFINITION. Sys2Proof/Machine/Basin.lean: the vector engine's basin loads and stores (R147 to R150).
-/
namespace Sys2Proof.Machine
open Sys2Proof

/-- The byte offset B of a VM form, a signed 64-bit sum (R147). -/
def State.basinOffset (s : State) (a : Nat) (off : Int) : Int := (s.me.val a + BitVec.ofInt 64 (64 * off)).toInt
/-- The bytes of [b, b + n) as a footprint: the part above 0. -/
def vPrint (b : Int) (n : Nat) (write : Bool) : List Print := [⟨b.toNat, (b + n).toNat, write⟩]
/-- Whether n bytes from b lie in the allotment (R170). -/
def Core.inAllot (x : Core) (b : Int) (n : Nat) : Bool := decide (0 ≤ b) && decide (b + n ≤ (x.basinBytes : Int))
/-- How many of n bytes from b a load reads: an aligned one those inside the allotment (R147, R168). -/
def Core.loadable (x : Core) (b : Int) (n : Nat) : Nat := if b % 64 ≠ 0 then 0 else min (b + n).toNat x.basinBytes - b.toNat
/-- The fault of a basin access without `.sp` (R147). -/
def Core.basinFault (x : Core) (b : Int) (n : Nat) : Option VOut :=
  if b % 64 ≠ 0 then some (.fault 0x0B 0 (BitVec.ofInt 64 b))
  else if !x.inAllot b n then some (.fault 0x0C 0 (BitVec.ofInt 64 b))
  else none

/-- Element e of an image at b as a load finds it: its container, or the poison CAUSE (R131, R147). -/
def State.loadElem (s : State) (b : Int) (e : Nat) : W32 × Option Nat :=
  let x := s.me
  if !x.inAllot (b + (4 * e : Nat)) 4 then (0, some 0x01)
  else
    let p := x.basinAddr (b + (4 * e : Nat)).toNat
    if s.myDie.basin.bad (p / 64) then (0, some 0x03)
    else (BitVec.ofNat 32 (leNat (s.myDie.basin.read 0 p 4)), none)
/-- The result elements of a load and its origin record (R147, R151). -/
def State.loadElems (s : State) (b : Int) : List ERes × W64 :=
  let l := if b % 64 ≠ 0 then (List.range 1024).map fun _ => ((0 : W32), some 0x02)
           else (List.range 1024).map (s.loadElem b)
  (l.map fun p => if p.2.isSome then .bad else .ok p.1,
   (l.findSome? fun p => p.2.map s.originHere).getD 0)

/-- `vld`: the tag is kept, bits where it was none (R148). -/
def vldTag (t : Nat) : Nat := if t = 0 then tagBits else t
def execVld (t a : Nat) (off : Int) (sp : Bool) (_rnd : Option Rnd) (s : State) : Out :=
  let b := s.basinOffset a off
  let tag := s.me.tagAt t s.cur.rank
  if !s.me.basinFree s.cur.rank (vPrint b 4096 false) then s.stall
  else
    s.vrun (.fixed 16 24) [] [t] sp [a] (fun _ => if isBlock tag then .format else .ok 0 (vldTag tag)) fun _ _ =>
      match if sp then none else s.me.basinFault b 4096 with
      | some f => f
      | none =>
        let l := s.loadElems b
        .loaded [(t, tileOf .r (vldTag tag) noSide l.2 l.1)] (s.me.basinAddr b.toNat) (s.me.loadable b 4096)

/-- The bytes of a tile image (R149). -/
def Tile.image (t : Tile) : List Byte :=
  (t.cells.flatMap fun c => leBytes 4 c.toNat) ++ t.side ++ [BitVec.ofNat 8 t.tag] ++ List.replicate 63 0
/-- What a basin store of a tile needs of it: a tag the form accepts, no poison (R148, R149). -/
def State.basinStore (s : State) (t a : Nat) (off : Int) (n : Nat) (accepts : Nat → Bool) (bytes : Tile → List Byte) : Out :=
  let b := s.basinOffset a off
  if !s.me.basinFree s.cur.rank (vPrint b n true) then s.stall
  else
    s.vrun (.fixed (n / 256) 24) [t] [] false [a] (fun rd => if accepts (rd t).tag then .ok 0 0 else .format) fun rd _ =>
      if (rd t).poison.any id then .fault 0x07 2 (rd t).origin
      else
        match s.me.basinFault b n with
        | some f => f
        | none => .store (s.me.basinAddr b.toNat) (bytes (rd t).toTile)
def execVst (t a : Nat) (off : Int) (_rnd : Option Rnd) (s : State) : Out :=
  s.basinStore t a off 4096 (fun g => g != 0 && !isBlock g) fun t => t.cells.flatMap fun c => leBytes 4 c.toNat
def execVsts (t a : Nat) (off : Int) (_rnd : Option Rnd) (s : State) : Out :=
  s.basinStore t a off 4288 (fun g => g != 0) Tile.image

/-- A tag byte that an image may not hold (R149). -/
def imageTagBad (t : Nat) : Bool := !tagAssigned t || t == 0 || t == 0x23
/-- The tail of an image: its side store, tag and trailing bytes. -/
def State.imageTail (s : State) (b : Int) : List Byte := s.myDie.basin.read 0 (s.me.basinAddr (b + 4096).toNat) 192
def tailTag (bs : List Byte) : Nat := ((bs[128]?).getD 0).toNat
def tailBad (bs : List Byte) : Bool := imageTagBad (tailTag bs) || (bs.drop 129).any (· != 0)
/-- A tile every element of which is poisoned by a fault of its own load (R149). -/
def State.badTile (s : State) (cause : Nat) : Tile := tileOf .r tagBits noSide (s.originHere cause) (List.replicate 1024 .bad)
/-- What a `vlds` loads (R149): a tile, or `none` where the image is bad and the form is not speculative. R149 gives a marked
line among bytes 4096 to 4287 no effect of its own: they are read as they stand there; nor does it call nonzero side-store bytes
under a tag that is no block format bad: they are kept (log 35). -/
def State.loadImage (s : State) (b : Int) (sp : Bool) : Option Tile :=
  if b % 64 ≠ 0 then some (s.badTile 0x02)
  else
    let l := s.loadElems b
    if !s.me.inAllot (b + 4096) 192 then some (tileOf .r tagBits noSide l.2 l.1)
    else
      let tail := s.imageTail b
      if tailBad tail then (if sp then some (s.badTile 0x04) else none)
      else some (tileOf .r (tailTag tail) (tail.take 128) l.2 l.1)
def execVlds (t a : Nat) (off : Int) (sp : Bool) (_rnd : Option Rnd) (s : State) : Out :=
  let b := s.basinOffset a off
  let fault := if sp then none else s.me.basinFault b 4288
  if !s.me.basinFree s.cur.rank (vPrint b 4288 false) then s.stall
  else
    s.vrun (.fixed 17 24) [] [t] sp [a]
      (fun _ =>
        if fault.isSome || s.me.poisoned a then .ok 0 (s.me.tagAt t s.cur.rank)
        else match s.loadImage b sp with
          | none => .format
          | some v => .ok 0 v.tag)
      fun _ _ =>
        match fault with
        | some f => f
        | none =>
          match s.loadImage b sp with
          | none => .format
          | some v => .loaded [(t, v)] (s.me.basinAddr b.toNat) (s.me.loadable b 4288)

end Sys2Proof.Machine
end

