-- ==== Sys2Proof/Machine/Command.lean ====
section
/-!
DEFINITION. Sys2Proof/Machine/Command.lean: asynchronous commands: how a pattern operand is resolved at issue (R45 to R48,
R181), how a command issues and is numbered (R43, R101, R203), how it fails and parks (R189, R202, R269), and how its
token is written (R102).
-/
namespace Sys2Proof.Machine
open Sys2Proof

/-! ### Faults at issue, in the order of R260 -/

/-- A fault a group meets at issue. -/
inductive Bad where
  | illegal
  | privilege
  | format
  | fault (cause sub : Nat) (tval : W64)
  | xlate (e : XFault)
  deriving DecidableEq, Repr

/-- The place of a fault in the order of R260. -/
def Bad.order : Bad → Nat
  | .illegal => 0
  | .privilege => 1
  | .format => 2
  | .fault c _ _ => if c = 0x04 then 3 else if c = 0x06 then 5 else if c = 0x07 then 6 else 7
  | .xlate _ => 8
/-- The fault reported of several (R260). -/
def worstOf : List Bad → Option Bad
  | [] => none
  | b :: bs => some (bs.foldl (fun a c => if c.order < a.order then c else a) b)
def State.raiseBad (s : State) : Bad → Out
  | .illegal => s.illegal
  | .privilege => s.privFault
  | .format => s.formatFault
  | .fault c sub v => s.raise c sub v
  | .xlate e => s.raiseX e
/-- The faults of several results. -/
def badsOf {α : Type} (l : List (Except Bad α)) : List Bad := l.filterMap fun r => match r with
  | .error e => some e
  | .ok _ => none

/-! ### Handles (R47, R48) -/

/-- n bytes at a VA as a scalar read at issue would take them (R48): the address fault, the translation fault, the
memory-poison fault. -/
def State.readAtIssue (s : State) (va n : Nat) : Except Bad (List Byte) :=
  let d := s.cur.die
  let x := s.me
  if apertureBase ≤ va then .error (.fault 0x0A 0 (BitVec.ofNat 64 va))
  else
    match s.translate d x x.ctxLevel .read va with
    | .error e => .error (.xlate e)
    | .ok o =>
      let r := s.coreRead d s.cur.core o.pa n x.fl.seq
      if r.2 then .error (.fault 0x0E 0 (BitVec.ofNat 64 va)) else .ok r.1

/-- Bytes lo to lo + n − 1 of a record as a number. -/
def leAt (bs : List Byte) (lo n : Nat) : Nat := leNat ((bs.drop lo).take n)
/-- The pattern an entry names (R47), and why it may not (R48). -/
def entryPattern (x : Core) (h : Nat) (bs : List Byte) : Except Bad Pattern :=
  let gv := leAt bs 30 2
  let bad := fun (sub : Nat) => Bad.fault 0x04 sub (BitVec.ofNat 64 h)
  let tag := leAt bs 28 1
  if !gv.testBit 15 then .error (bad 2)
  else if gv % 4096 ≠ h % 4096 then .error (bad 3)
  else if bitField gv 14 12 != 0 || bitField (leAt bs 29 1) 7 2 != 0 || leAt bs 29 1 % 4 == 3 ||
      leAt bs 39 1 != 0 || leNat (bs.drop 40) != 0 ||
      leAt bs 0 4 == 0 || leAt bs 4 4 == 0 || leAt bs 8 4 == 0 || leAt bs 12 4 == 0 then .error (bad 4)
  else .ok ⟨leAt bs 0 4, leAt bs 4 4, leAt bs 8 4, leAt bs 12 4, sextField 32 (leAt bs 16 4), sextField 32 (leAt bs 20 4),
            sextField 32 (leAt bs 24 4), tag, leAt bs 29 1 % 4, leAt bs 32 7,
            ((cbTable tag).map fun t => ((x.books[t]?).map (·.affine)).getD false).getD false⟩
/-- A record's bytes through a handle (R47, R48): the 64-byte entry. -/
def State.handleBytes (s : State) (h : W64) : Except Bad (List Byte) :=
  let x := s.me
  let slot := h.toNat / 4096
  if 2 ^ 32 ≤ h.toNat ∨ 2 ^ fieldOf x.k.kdtab 63 59 ≤ slot then .error (.fault 0x04 1 h)
  else s.readAtIssue (fieldOf x.k.kdtab 55 6 * 64 + 64 * slot) 64
def State.handlePattern (s : State) (h : W64) : Except Bad Pattern :=
  match s.handleBytes h with
  | .error e => .error e
  | .ok bs => entryPattern s.me h.toNat bs
/-- The format checks of R181 on top. -/
def checkPattern (r : Except Bad Pattern) : Except Bad Pattern :=
  match r with
  | .error e => .error e
  | .ok p => if p.formatBad then .error .format else .ok p

/-! ### Inline records (R46) -/

/-- The register a 16-bit field substitutes, if it is a marker. -/
def markerReg (f : Nat) : Option Nat := if f / 16 = 0xFFF then some (48 + f % 16) else none
/-- The 16-bit fields of a record: e0, e1, e2, e3, st1, st2, st3. -/
def recFields (r : Shape4) : List Nat :=
  [r.w0 % 65536, r.w0 / 65536, r.w1 % 65536, r.w1 / 65536, r.w2 % 65536, r.w2 / 65536, r.w3 % 65536]
def recTag (r : Shape4) : Nat := bitField r.w3 23 16
def recBs (r : Shape4) : Nat := bitField r.w3 29 24
def recLay (r : Shape4) : Nat := bitField r.w3 31 30
/-- The scalars a record reads at issue. -/
def recScalars (r : Shape4) : List Nat := (recBs r) :: (recFields r).filterMap markerReg
/-- An extent: literal or substituted. -/
def extentOf (x : Core) (f : Nat) : Nat := (markerReg f).elim f fun r => (x.val r).toNat % 2 ^ 32
/-- A stride: literal or substituted. -/
def strideOf (x : Core) (f : Nat) : Int := (markerReg f).elim (sextField 16 f) fun r => (x.val r).toInt
/-- The pattern an inline record names. -/
def recPattern (x : Core) (r : Shape4) : Except Bad Pattern :=
  match (recFields r) with
  | [f0, f1, f2, f3, g1, g2, g3] =>
    let p : Pattern := ⟨extentOf x f0, extentOf x f1, extentOf x f2, extentOf x f3, strideOf x g1, strideOf x g2, strideOf x g3,
      (recTag r), (recLay r), (x.val (recBs r)).toNat, ((cbTable (recTag r)).map fun t => ((x.books[t]?).map (·.affine)).getD false).getD false⟩
    if (recLay r) = 3 || p.e0 = 0 || p.e1 = 0 || p.e2 = 0 || p.e3 = 0 then .error .illegal else .ok p
  | _ => .error .illegal
/-- Whether an instruction carries its record in the way the kernel's mode asks (R39, R45). -/
def modeMatches (x : Core) (rec : Option Shape4) : Bool := rec.isSome == x.ctx.inline
/-- The scalars a pattern operand under R45 reads: the handle, or those of the record. -/
def operandScalars (h : Nat) : Option Shape4 → List Nat
  | none => [h]
  | some r => recScalars r
/-- A pattern operand under R45. -/
def State.operandPattern (s : State) (h : Nat) (rec : Option Shape4) : Except Bad Pattern :=
  if !modeMatches s.me rec then .error .illegal
  else
    match rec with
    | none => s.handlePattern (s.me.val h)
    | some r => recPattern s.me r

/-! ### Issuing a command -/

/-- The scalars an engine group reads at issue are ready (R101); it reads one it claimed itself without waiting for its own
claim (R102), and reading the token of a `pbar` is an acquire (R212). -/
def State.eReady (s : State) (rs : List Nat) : Bool :=
  let own := match (s.me.q.get s.cur.engine).head? with
    | some h => groupClaims h.grp
    | none => []
  !rs.any fun r => ((s.me.reg r).pend && !own.contains r) || s.me.acquires r
/-- How many commands of a kind a core may have issued and not completed (R274): those of a timeline. -/
def cmdLimit : TimelineId → Nat
  | .tlf => 16
  | .tln => 8
  | _ => 4
/-- Whether the limit is reached. -/
def State.cmdsFull (s : State) (tl : TimelineId) : Bool :=
  decide (cmdLimit tl ≤ (s.me.fl.cmds.filter fun k => k.tl == tl).length +
    (if tl = .tlm then (s.me.fl.cmds.filter fun k => k.follow.isSome).length else 0))
/-- The next number of a timeline (R203). -/
def Core.nextNum (x : Core) (tl : TimelineId) : Nat := (x.tls.get tl).last + 1
def Core.takeNum (x : Core) (tl : TimelineId) : Core :=
  { x with tls := x.tls.set tl { x.tls.get tl with last := (x.tls.get tl).last + 1 } }
/-- The registers a task's inline record names (R281). -/
def taskRegs (r : Shape4) : List Nat := [bitField r.w2 29 24, bitField r.w2 21 16, bitField r.w2 13 8, bitField r.w2 5 0]
/-- The scalars a task record is read from. -/
def taskScalars (h : Nat) : Option Shape4 → List Nat
  | none => [h]
  | some r => taskRegs r
/-- The one scalar a `splr.rel` reads: its handle, or the register that stands for st3 (R321). -/
def relScalars (h : Nat) : Option Shape4 → List Nat
  | none => [h]
  | some r => (markerReg (r.w3 % 65536)).toList
/-- The scalars an M, F or rill command reads at issue, in field order, with s[a+1] after s[a] where it reads a pair (R279). -/
def issueScalars : Instr → List Nat
  | .mmw _ h _ _ rec => operandScalars h rec
  | .mma _ _ h _ _ rec => operandScalars h rec
  | .mmar _ _ h _ _ _ rec => operandScalars h rec
  | .acdr _ _ h _ rec => operandScalars h rec
  | .task _ _ h rec => taskScalars h rec
  | .tfwd _ _ h rec => taskScalars h rec
  | .acal a b _ => [a, b]
  | .acfr a _ => [a]
  | .aczr a _ => [a]
  | .splr _ h true rec => relScalars h rec
  | .splr _ h false rec => operandScalars h rec
  | .spmv _ _ h _ rec => operandScalars h rec
  | .spjn _ _ h rec => operandScalars h rec
  | .spmg a _ => [a]
  | .spage a _ => [a]
  | .sprd a b _ => [a, b]
  | .rld _ a _ _ _ => [a, (a + 1) % 64]
  | .rst _ a b _ _ => [a, (a + 1) % 64, b]
  | .ramo _ _ a b _ _ _ => [a, (a + 1) % 64, b]
  | .ramocas _ a b c _ _ _ => [a, (a + 1) % 64, b, c]
  | .rmc _ a b c _ _ => [a, (a + 1) % 64, b, c]
  | .rtld _ a _ _ => [a, (a + 1) % 64]
  | .tkget _ a _ => [a, (a + 1) % 64]
  | .tkwait _ a b => [a, (a + 1) % 64, b]
  | .tkret _ a b => [a, (a + 1) % 64, b]
  | .rget _ a b _ rec => a :: (a + 1) % 64 :: operandScalars b rec
  | .rput _ a b _ rec => a :: (a + 1) % 64 :: operandScalars b rec
  | .wdpub _ a b => [a, (a + 1) % 64, b]
  | _ => []
/-- What a command of one repetition holds that names no pattern: its instruction and scalars. -/
def plainArg (i : Instr) (scal : List W64) : CmdArg := ⟨i, scal, [], none, none, [], []⟩
/-- What a command of one repetition holds that names patterns. -/
def patArg (i : Instr) (scal : List W64) (ps : List Pattern) : CmdArg := ⟨i, scal, ps, none, none, [], []⟩
/-- A new command of the group in focus: its issue releases the core's stores to it (R116, R188, R359; log 13). -/
def State.newCmd (s : State) (tl : TimelineId) (token : Nat) (args : List CmdArg) : Cmd :=
  ⟨s.cur.engine, tl, s.me.nextNum tl, token, s.cur.addr, s.cur.lane, s.cur.rank, s.cur.word, s.cur.kmode, args, 0, 0,
   .waiting, 0, 0, 0, [], [], [], none, s.me.k.kmode, s.unperformed s.cur.die s.cur.core, s.myDie.seqr.cyc⟩
/-- The stream tiles that the repetitions of a group took, taken by it (R197, R198). -/
def Core.takeAll (x : Core) (rank : Nat) (l : List CmdArg) : Core :=
  l.foldl (fun x a => match a.strm with
    | some (t, n) => x.updBinding t rank fun b => some (b.take rank n 1)
    | none => x) x
/-- A repetition of a group captured: the group waits for its next (R43). -/
def State.captureRep (s : State) (args : List CmdArg) : State :=
  (s.updMe fun x => x.setQ fun q => q.set s.cur.engine (match q.get s.cur.engine with
    | [] => []
    | h :: t => { h with acc := h.acc ++ args } :: t)).issued
/-- The last repetition of a group has been captured: its command is numbered and enters; `f` completes it. Earlier
repetitions are added to the group (R43). -/
def State.issueCmd (s : State) (tl : TimelineId) (token : Nat) (arg0 : CmdArg) (f : Cmd → Cmd) : Out :=
  let arg := { arg0 with raw := (issueScalars arg0.instr).map s.me.val }
  if s.cur.rep + 1 < s.cur.reps then
    .next (s.captureRep [arg])
  else
    let k := f (s.newCmd tl token (s.cur.acc ++ [arg]))
    .next (s.updMe fun x => ((x.takeAll s.cur.rank (s.cur.acc ++ [arg])).takeNum tl).setFl fun g => { g with cmds := g.cmds ++ [k] }).issued
/-- What holds a command at its queue head, or makes it illegal, before anything of it is read: its scalars, the limits
of R274, the last number of its timeline (R203). -/
def State.issueGate (s : State) (tl : TimelineId) (scal : List Nat) (k : State → Out) : Out :=
  if !s.eReady scal || s.cmdsFull tl then s.stall
  else if 2 ^ 56 ≤ s.me.nextNum tl then s.illegal
  else k s

/-! ### Failing and completing -/

/-- A failed step (R189, R201, R259): token status, KTVAL, and the KXSYN word of a failed translation. -/
structure EngErr where
  status : Nat
  tval   : W64
  xsyn   : W64
  deriving DecidableEq, Repr

/-- A failed translation as an engine reports it (R247). -/
def XFault.engine (e : XFault) : EngErr := ⟨e.status, BitVec.ofNat 64 e.tval, e.word⟩
/-- A command whose step failed: its token will report it, and it parks (R202). -/
def Cmd.fail (k : Cmd) (e : EngErr) : Cmd := { k with st := .failed e.status, tval := e.tval, xsyn := e.xsyn }
def Cmd.finish (k : Cmd) (status : Nat) : Cmd := { k with st := .finished status }
/-- A command of a core, named by its timeline and number, changed. -/
def Core.updCmd (x : Core) (tl : TimelineId) (num : Nat) (f : Cmd → Cmd) : Core :=
  x.setFl fun g => { g with cmds := g.cmds.map fun k => if k.tl == tl && k.num == num then f k else k }
def Core.cmd? (x : Core) (tl : TimelineId) (num : Nat) : Option Cmd := x.fl.cmds.find? fun k => k.tl == tl && k.num == num
def State.updCmd (s : State) (d c : Nat) (tl : TimelineId) (num : Nat) (f : Cmd → Cmd) : State :=
  s.updCore d c fun x => x.updCmd tl num f

/-- The token word (R102). -/
def tokenWord (status num : Nat) : W64 := BitVec.ofNat 64 (status * 2 ^ 56 + num % 2 ^ 56)
/-- The engine fault a parked command reports (R259): a failed translation writes KXSYN, whose KIND is never 0. -/
def Cmd.fault (k : Cmd) (status : Nat) : PendFault :=
  ⟨k.rank, 0x20, status, k.tval, k.addr, k.lane, mpcOf k.rep k.mpc,
   if k.xsyn = 0 then none else some k.xsyn, bitOf k.xsyn 4, false⟩
/-- The scalar results a command claimed, written before its token (R102). -/
def Core.landAll (x : Core) : List (Nat × W64 × Bool) → Core
  | [] => x
  | w :: ws => (x.land w.1 w.2.1 w.2.2).landAll ws

end Sys2Proof.Machine
end

