-- ==== Sys2Proof/Machine/Copy.lean ====
section
/-!
DEFINITION. Sys2Proof/Machine/Copy.lean: the copy engines (R181 to R193): what a granule moves and where, the copy commands
at issue, `flush` and `inv` (R180), the software-managed cache (R175 to R178), and COPY_GRANULE.
-/
namespace Sys2Proof.Machine
open Sys2Proof

/-! ### Bytes an engine reads and writes -/

/-- n bytes from an address that may lie outside the address space (R182). -/
structure Run where
  lo : Int
  n  : Nat
  deriving DecidableEq, Repr

/-- Where a piece of a run lies: a physical basin address, or a PA with its IPA. -/
inductive Loc where
  | basin (pa : Nat)
  | mem (pa ipa : Nat)
  deriving DecidableEq, Repr

/-- A located piece. -/
structure Piece where
  loc : Loc
  n   : Nat
  deriving DecidableEq, Repr

/-- A run cut where a page may end. -/
def Run.pieces : Nat → Int → Nat → List Run
  | 0, _, _ => []
  | f + 1, a, n =>
    if n = 0 then []
    else
      let k := min n (4096 - (a % 4096).toNat)
      ⟨a, k⟩ :: Run.pieces f (a + k) (n - k)

/-- One piece located for an access (R170, R182, R189): its address class, its allotment check or its translation at the
level of the context. -/
def State.locate (s : State) (d : Nat) (x : Core) (acc : Acc) (r : Run) : Except EngErr Piece :=
  match elemClass r.lo with
  | .outside => .error ⟨3, BitVec.ofInt 64 r.lo, 0⟩
  | .basin o =>
    if o + r.n ≤ x.basinBytes then .ok ⟨.basin (x.basinAddr o), r.n⟩ else .error ⟨4, BitVec.ofInt 64 r.lo, 0⟩
  | .memory va =>
    match s.translate d x x.ctxLevel acc va with
    | .error e => .error e.engine
    | .ok o => .ok ⟨.mem o.pa o.ipa, r.n⟩
/-- Every answer, or the first failure. -/
def allOk {α ε : Type} : List (Except ε α) → Except ε (List α)
  | [] => .ok []
  | .error e :: _ => .error e
  | .ok a :: t =>
    match allOk t with
    | .error e => .error e
    | .ok l => .ok (a :: l)
/-- Runs located piece by piece. -/
def State.locateRuns (s : State) (d : Nat) (x : Core) (acc : Acc) (rs : List Run) : Except EngErr (List Piece) :=
  allOk ((rs.flatMap fun r => Run.pieces (r.n / 4096 + 2) r.lo r.n).map (s.locate d x acc))

/-- The bytes of a piece, and whether a line of it is marked. -/
def State.readPiece (s : State) (d k : Nat) (p : Piece) : List Byte × Bool :=
  match p.loc with
  | .basin pa => ((s.die d).basin.read 0 pa p.n, (s.die d).basin.anyBad pa p.n)
  | .mem pa _ => s.readPa d k pa p.n
def State.readPieces (s : State) (d k : Nat) (ps : List Piece) : List Byte × Bool :=
  ((ps.flatMap fun p => (s.readPiece d k p).1), ps.any fun p => (s.readPiece d k p).2)
/-- Bytes written at a place by a requester of the basin (R168), with the hint of the command (R190). -/
def State.writeLoc (s : State) (q d k : Nat) (h : Hint) (l : Loc) (bs : List Byte) : State :=
  match l with
  | .basin pa => s.updDie d fun x => { (x.present q pa bs.length) with basin := x.basin.write 0 pa bs }
  | .mem pa _ => (s.writePa d k pa bs).openPa d pa bs.length h
/-- The lines of a piece marked uncorrectable (R189). -/
def State.markPiece (s : State) (d : Nat) (p : Piece) : State :=
  match p.loc with
  | .basin pa => s.updDie d fun x => { x with basin := (linesOf pa p.n).foldl Store.mark x.basin }
  | .mem pa _ => s.markPa d pa p.n
/-- What reading a piece does: in the basin an access (R168), in the stack counts and rows (R190). -/
def State.touchPiece (s : State) (q d : Nat) (h : Hint) (p : Piece) : State :=
  match p.loc with
  | .basin pa => s.updDie d fun x => x.present q pa p.n
  | .mem pa _ => s.touchPa d pa p.n h
/-- Whether a store released to a command has still to reach some of a piece, or its pseudo-channel is retraining: the
command's own write there waits (R361, R415). -/
def State.pieceBehind (s : State) (d : Nat) (rel : List (Nat × Nat)) (p : Piece) : Bool :=
  match p.loc with
  | .basin _ => false
  | .mem pa _ => s.storeAhead d rel d pa p.n || s.channelBusy d pa p.n
/-- Whether an access to a piece waits for a retraining pseudo-channel (R415). -/
def State.pieceBusy (s : State) (d : Nat) (p : Piece) : Bool :=
  match p.loc with
  | .basin _ => false
  | .mem pa _ => s.channelBusy d pa p.n

/-- The place right after n bytes of a place. -/
def Loc.after : Loc → Nat → Loc
  | .basin pa, n => .basin (pa + n)
  | .mem pa ipa, n => .mem (pa + n) (ipa + n)
/-- Adjoining pieces joined: one access to the bytes that lie together. -/
def joinPieces : List Piece → List Piece
  | [] => []
  | p :: ps =>
    match joinPieces ps with
    | q :: rest => if q.loc = p.loc.after p.n then ⟨p.loc, p.n + q.n⟩ :: rest else p :: q :: rest
    | [] => [p]
/-- Bytes for pieces, adjoining pieces joined, so that a line written whole is written as one. -/
def joinWrites : List Piece → List Byte → List (Loc × List Byte)
  | [], _ => []
  | p :: ps, bs =>
    let me := bs.take p.n
    match joinWrites ps (bs.drop p.n) with
    | (l, w) :: rest => if l = p.loc.after p.n then (p.loc, me ++ w) :: rest else (p.loc, me) :: (l, w) :: rest
    | [] => [(p.loc, me)]
/-- The dirty bits of pieces set before they are written by an access of a kind (R253). -/
def State.dirtyAll (s : State) (d : Nat) (x : Core) (acc : Acc) : List Piece → Except EngErr State
  | [] => .ok s
  | p :: ps =>
    match p.loc with
    | .basin _ => s.dirtyAll d x acc ps
    | .mem _ ipa =>
      match s.setDirty d x acc.code ipa with
      | .error e => .error e.engine
      | .ok s => s.dirtyAll d x acc ps

/-- A unit of a granule: its source (or the constant it writes) and its destination. -/
structure Move where
  src   : List Piece
  const : List Byte
  dst   : List Piece
  deriving DecidableEq, Repr

/-- The units of one step performed (R188, R189): everything is read before anything is written, and a destination line
that takes anything of a unit read from a marked line is marked. `v` is the machine as the command reads it (R359), q its
requester at the basin. -/
def State.perform (s v : State) (q d : Nat) (x : Core) (h : Hint) (ms : List Move) : Except EngErr State :=
  let k := s.keyOf d x.ctx.tenant
  let reads := ms.map fun m => v.readPieces d k m.src
  let bytes := (ms.zip reads).flatMap fun p => if p.1.src.isEmpty then p.1.const else p.2.1
  let touched := (joinPieces (ms.flatMap (·.src))).foldl (fun s p => s.touchPiece q d h p) s
  match touched.dirtyAll d x .write (ms.flatMap (·.dst)) with
  | .error e => .error e
  | .ok s1 =>
    let s2 := (joinWrites (ms.flatMap (·.dst)) bytes).foldl (fun s w => s.writeLoc q d k h w.1 w.2) s1
    .ok (((ms.zip reads).filter fun p => p.2.2).foldl (fun s p => p.1.dst.foldl (fun s q => s.markPiece d q) s) s2)

/-! ### Granules (R183, R184, R186) -/

/-- G (R183): elements of a step. -/
def granuleOf (tag : Nat) : Nat :=
  match lxM tag with
  | some 2 => 128
  | some 4 => 64
  | some _ => 32
  | none => 512 / tagWidth tag
/-- The runs of the unit whose first element has offset o: an element, or a block with its scale. -/
def Pattern.unitRuns (p : Pattern) (o : Int) : List Run :=
  match lxM p.tag with
  | some m => [⟨(p.scaleAt o).1, lxBytes m⟩]
  | none =>
    if isBlock p.tag then [⟨(p.codeAt o).1, 4 * p.bits⟩, ⟨(p.scaleAt o).1, (p.scaleAt o).2⟩]
    else [⟨(p.codeAt o).1, p.bits / 8⟩]
/-- The pattern whose elements count the steps: the destination, of a `scat` the source. -/
def CmdArg.data (a : CmdArg) : Option Pattern :=
  match a.instr with
  | .scat .. => a.pats[1]?
  | _ => a.pats[0]?
/-- The steps of one repetition of a copy command. -/
def CmdArg.steps (a : CmdArg) : Nat :=
  match a.instr with
  | .flush .. => 1
  | .inv .. => 1
  | .probe .. => 64
  | _ => (a.data.map fun p => (p.count + granuleOf p.tag - 1) / granuleOf p.tag).getD 0
/-- The first elements of the units of step n of a data pattern. -/
def Pattern.unitStarts (p : Pattern) (n : Nat) : List Nat :=
  let g := granuleOf p.tag
  let b := blockOf p.tag
  ((List.range (g / b)).map fun i => n * g + i * b).filter fun e => decide (e < p.count)

/-- Index element m (R186): its value, or the failure that parks the command. -/
def State.readIndex (s : State) (d : Nat) (x : Core) (ix : Pattern) (rows m : Nat) : Except EngErr Nat :=
  let r : Run := ⟨(ix.codeAt (ix.offset m)).1, ix.bits / 8⟩
  match s.locateRuns d x .read [r] with
  | .error e => .error e
  | .ok ps =>
    let v := s.readPieces d (s.keyOf d x.ctx.tenant) ps
    if v.2 then .error ⟨8, BitVec.ofInt 64 r.lo, 0⟩
    else if rows ≤ leNat v.1 then .error ⟨5, BitVec.ofNat 64 (leNat v.1), 0⟩
    else .ok (leNat v.1)
/-- The indices of the rows that a step touches: the first row's is the one its own first step read. -/
def State.stepIndices (s : State) (d : Nat) (x : Core) (k : Cmd) (ix : Pattern) (rows e0 : Nat) (starts : List Nat) :
    Except EngErr (List (Nat × Nat)) :=
  allOk ((starts.map (· / e0)).eraseDups.map fun m =>
    match starts.head?, k.extra with
    | some e, i :: _ => if e / e0 = m ∧ e % e0 ≠ 0 then .ok (m, i) else (s.readIndex d x ix rows m).map fun v => (m, v)
    | _, _ => (s.readIndex d x ix rows m).map fun v => (m, v))

/-- One unit located: the source first. -/
def State.locateMove (s : State) (d : Nat) (x : Core) (src dst : List Run) : Except EngErr Move :=
  match s.locateRuns d x .read src with
  | .error e => .error e
  | .ok a =>
    match s.locateRuns d x .write dst with
    | .error e => .error e
    | .ok b => .ok ⟨a, [], b⟩
/-- The units of step n of a copy command, and the index its last row read. -/
def State.stepMoves (s : State) (d : Nat) (x : Core) (k : Cmd) (a : CmdArg) (n : Nat) : Except EngErr (List Move × List Nat) :=
  match a.instr, a.pats with
  | .fill .., p :: _ =>
    match allOk ((p.unitStarts n).map fun e => s.locateRuns d x .write (p.unitRuns (p.offset e))) with
    | .error e => .error e
    | .ok l => .ok (l.map fun b => ⟨[], leBytes (p.bits / 8) (a.scal.headD 0).toNat, b⟩, [])
  | .probe .., _ =>
    match a.scal with
    | va :: slot :: _ =>
      match s.locateMove d x [⟨(va.toNat / 4096 * 4096 + 64 * n : Nat), 64⟩] [⟨(apertureBase + slot.toNat + 64 * n : Nat), 64⟩] with
      | .error e => .error e
      | .ok m => .ok ([m], [])
    | _ => .ok ([], [])
  | .gath .., p :: t :: ix :: _ =>
    match s.stepIndices d x k ix t.e1 t.e0 (p.unitStarts n) with
    | .error e => .error e
    | .ok rows =>
      match allOk ((p.unitStarts n).map fun e =>
        let o : Int := (e % t.e0 : Nat) + (assocGet rows (e / t.e0) : Nat) * t.st1
        s.locateMove d x (t.unitRuns o) (p.unitRuns (p.offset e))) with
      | .error e => .error e
      | .ok ms => .ok (ms, (rows.getLast?.map (·.2)).toList)
  | .scat .., t :: p :: ix :: _ =>
    match s.stepIndices d x k ix t.e1 t.e0 (p.unitStarts n) with
    | .error e => .error e
    | .ok rows =>
      match allOk ((p.unitStarts n).map fun e =>
        let o : Int := (e % t.e0 : Nat) + (assocGet rows (e / t.e0) : Nat) * t.st1
        s.locateMove d x (p.unitRuns (p.offset e)) (t.unitRuns o)) with
      | .error e => .error e
      | .ok ms => .ok (ms, (rows.getLast?.map (·.2)).toList)
  | _, p :: q :: _ =>
    match allOk ((p.unitStarts n).map fun e => s.locateMove d x (q.unitRuns (q.offset e)) (p.unitRuns (p.offset e))) with
    | .error e => .error e
    | .ok ms => .ok (ms, [])
  | _, _ => .ok ([], [])

/-! ### flush and inv (R180) -/

/-- The pages of a range, as the first address of each in the range. -/
def pagesOf (a n : Nat) : List Nat :=
  (List.range ((a + n - 1) / 4096 - a / 4096 + 1)).map fun i => max a ((a / 4096 + i) * 4096)
/-- The granules of n bytes from a on the page of an address p in the range: the first byte and how many (R180). -/
def granulesOn (a n p : Nat) : Nat × Nat :=
  let hi := min (a + n) ((p / 4096 + 1) * 4096)
  (p / 64 * 64, (hi + 63) / 64 * 64 - p / 64 * 64)
/-- What `flush` or `inv` does with the granules of one page at a PA (R180): a `flush` carries what the device has written to
where the host reads it, which a release shows (R365); after an `inv` the device reads what the host has written. -/
def State.maintainAt (s : State) (d : Nat) (x : Core) (flush : Bool) (pa n : Nat) : State :=
  if flush then
    let l := s.flushed d x.launchKey x.place pa n
    s.updPkg (pkgOf d) fun p => { p with flushed := p.flushed ++ l }
  else s.takeFresh d pa n
/-- The single step of `flush` and `inv`. A range that touches a host-coherent window completes and does nothing, also where
another page of it fails translation: R180 gives both outcomes and no order (log 38). -/
def State.maintain (s : State) (d : Nat) (x : Core) (flush : Bool) (a n : W64) : Except EngErr State :=
  if n = 0 then .ok s
  else if 2 ^ 56 ≤ a.toNat then .error ⟨3, a, 0⟩
  else if 2 ^ 56 < a.toNat + n.toNat then .error ⟨3, BitVec.ofNat 64 (2 ^ 56), 0⟩
  else if apertureBase < a.toNat + n.toNat then .ok s
  else
    let rs := (pagesOf a.toNat n.toNat).map fun p => (s.translate d x x.ctxLevel .read p).map fun o =>
      let g := granulesOn a.toNat n.toNat p
      (o.pa - (p - g.1), g.2)
    let window := rs.any fun r => match r with
      | .ok o => (match paPlace d o.1 with | .window _ _ => true | _ => false)
      | .error _ => false
    if window then .ok s
    else
      match allOk rs with
      | .error e => .error e.engine
      | .ok l => .ok (l.foldl (fun s o => s.maintainAt d x flush o.1 o.2) s)

/-! ### The copy commands at issue -/

/-- What the head of a Y queue comes to (R101, R104, R181, R260): it waits, it faults, or it may issue with what it has
read; a `cpm` with its follow-on word and the follow-on's token. -/
inductive Plan where
  | waits
  | bad (b : Bad)
  | go (args : List CmdArg) (token : Nat) (follow : Option (Nat × Nat))

/-- The codebook wait of R307 for resolved patterns. -/
def Core.booksWait (x : Core) (rank : Nat) (ps : List Pattern) : Bool :=
  ps.any fun p => (cbTable p.tag).elim false (x.bookWaits rank)
/-- The deferred poison fault of the first poisoned scalar (R104). -/
def poisonBads (x : Core) (rs : List Nat) : List Bad :=
  match x.firstPoison rs with
  | none => []
  | some r => [.fault 0x07 1 (BitVec.ofNat 64 r)]
/-- The step limit of R17. -/
def stepBads (a : CmdArg) : List Bad := if 2 ^ 24 < a.steps then [.illegal] else []
/-- A plan from resolved patterns: the codebook wait, then the first of every fault that applies (R260): those of the
patterns, with `more` of them where all resolve, and of the poisoned scalars; then the command. -/
def State.planFrom (s : State) (scal : List Nat) (ps : List (Except Bad Pattern)) (more : List Pattern → List Bad)
    (mk : List Pattern → Plan) : Plan :=
  let l := ps.filterMap Except.toOption
  if s.me.booksWait s.cur.rank l then .waits
  else
    match worstOf ((if l.length = ps.length then more l else []) ++ badsOf (ps.map checkPattern) ++ poisonBads s.me scal) with
    | some b => .bad b
    | none => mk l
/-- The pair checks of `cp` (R184). -/
def copyBads : List Pattern → List Bad
  | p :: q :: _ => (if p.count ≠ q.count then [.illegal] else []) ++ (if p.tag ≠ q.tag then [.format] else [])
  | _ => []
/-- The checks of `gath` and `scat` (R186) on table, data and index. -/
def rowBads (t p ix : Pattern) : List Bad :=
  (if t.e2 ≠ 1 ∨ t.e3 ≠ 1 ∨ p.count ≠ t.e0 * ix.count then [.illegal] else []) ++
  (if !(ix.tag == 0x28 || ix.tag == 0x29 || ix.tag == 0x2A) || p.tag ≠ t.tag then [.format] else [])

/-- The tile of a `cpm`'s follow-on word, if it has one: a `mmw` has none (R185). -/
def followTile (f : Nat) : Option Nat := if f / 2 ^ 25 = 1 then none else some (bitField f 24 19)
/-- Whether the capture of the follow-on's tile waits (R185, R225). -/
def State.followWaits (s : State) (f : Nat) : Bool :=
  (followTile f).elim false fun t => decide (t < firstStream) && s.me.mReadWaits s.cur.rank [t]
/-- The faults of the follow-on at the `cpm` (R185): a stream tile, a poisoned tile. -/
def State.followBads (s : State) (f : Nat) : List Bad :=
  match followTile f with
  | none => []
  | some t =>
    if firstStream ≤ t then [.illegal]
    else
      let tile := s.me.tileAt t s.cur.rank
      if tile.poison.any id then [.fault 0x07 2 tile.origin] else []
/-- What a `cpm` captures for its follow-on: the value of its handle's register, and its tile. -/
def State.followArg (s : State) (f : Nat) : CmdArg :=
  ⟨.nop, [s.me.val (bitField f 10 5)], [], (followTile f).map fun t => s.me.tileAt t s.cur.rank, none, [], []⟩

/-- The plan of a copy command (R180, R184 to R187) in a state whose core has it at the head of its Y queue. -/
def State.copyPlan (s : State) (i : Instr) : Plan :=
  let x := s.me
  if s.cmdsFull .tly then .waits
  else if 2 ^ 56 ≤ x.nextNum .tly then .bad .illegal
  else
    let hp := fun r => s.handlePattern (x.val r)
    let arg := patArg i []
    match i with
    | .cp t a b _ =>
      if !s.eReady [a, b] then .waits
      else s.planFrom [a, b] [hp a, hp b] (fun ps => copyBads ps ++ stepBads (arg ps)) fun ps => .go [arg ps] t none
    | .cpm t a b _ f =>
      let h := bitField f 10 5
      if !s.eReady [a, b, h] || s.cmdsFull .tlm || s.followWaits f then .waits
      else if 2 ^ 56 ≤ x.nextNum .tlm then .bad .illegal
      else
        match s.planFrom [a, b, h] [hp a, hp b] (fun ps => copyBads ps ++ stepBads (arg ps)) fun ps =>
            .go [arg ps, s.followArg f] t (some (f, bitField f 16 11)) with
        | .waits => .waits
        | .bad b => .bad ((worstOf (b :: s.followBads f)).getD b)
        | p => (worstOf (s.followBads f)).elim p .bad
    | .gath t a b _ =>
      if !s.eReady [a, b, b + 1] then .waits
      else s.planFrom [a, b, b + 1] [hp a, hp b, hp (b + 1)]
        (fun ps => (match ps with | [p, t, ix] => rowBads t p ix | _ => []) ++ stepBads (arg ps)) fun ps => .go [arg ps] t none
    | .scat t a b _ =>
      if !s.eReady [a, a + 1, b] then .waits
      else s.planFrom [a, a + 1, b] [hp a, hp b, hp (a + 1)]
        (fun ps => (match ps with | [t, p, ix] => rowBads t p ix | _ => []) ++ stepBads (arg ps)) fun ps => .go [arg ps] t none
    | .fill t a b _ rec =>
      if !s.eReady (a :: operandScalars b rec) then .waits
      else if !modeMatches x rec then .bad .illegal
      else s.planFrom (operandScalars b rec ++ [a]) [s.operandPattern b rec]
        (fun ps => (if ps.any fun p => isBlock p.tag then [.format] else []) ++ stepBads (arg ps)) fun ps =>
        .go [{ arg ps with scal := [x.val a] }] t none
    | .flush t a b =>
      if !s.eReady [a, b] then .waits
      else s.planFrom [a, b] [] (fun _ => if 2 ^ 32 < (x.val b).toNat then [.illegal] else []) fun _ =>
        .go [plainArg i [x.val a, x.val b]] t none
    | .inv t a b =>
      if !s.eReady [a, b] then .waits
      else s.planFrom [a, b] [] (fun _ => if 2 ^ 32 < (x.val b).toNat then [.illegal] else []) fun _ =>
        .go [plainArg i [x.val a, x.val b]] t none
    | _ => .waits

/-! ### Which command an engine takes (R191) -/

/-- The tenant that owns a board row's slot now, if one does (R390, R391). -/
def Die.slotOwner (y : Die) (row : Nat) : Option Nat :=
  let t := ((y.seqr.board.rows[row]?).bind fun r => r[y.seqr.slots % 16]?).getD 0xFFFF
  if !y.seqr.board.en || t == 0xFFFF then none else some t
/-- The copy command of a core that waits for an engine: the earliest. -/
def Core.copyWaiting (x : Core) : Option Cmd :=
  if x.ctl.frozen || x.ctl.run != .running then none
  else x.fl.cmds.find? fun k => k.tl == .tly && (k.st == .waiting || k.st == .yielded) && k.args.any fun a =>
    match a.instr with
    | .sbind .. => false
    | .sunb .. => false
    | .dfl .. => false
    | _ => true
/-- Whether an instruction is served by a copy engine. -/
def isCopy : Instr → Bool
  | .cp .. => true
  | .cpm .. => true
  | .gath .. => true
  | .scat .. => true
  | .fill .. => true
  | .flush .. => true
  | .inv .. => true
  | _ => false
/-- Whether the Y head of a core is a copy that can issue. -/
def State.copyHead (s : State) (d c : Nat) : Bool :=
  match s.fetchGroup d c .y with
  | .instr i t => isCopy i && decide (t.cur.rep + 1 = t.cur.reps) &&
      (match t.copyPlan i with
       | .go _ _ _ => true
       | _ => false)
  | _ => false
def State.presents (s : State) (d c : Nat) : Bool := (s.core d c).copyWaiting.isSome || s.copyHead d c
/-- The quad's cores in rotating order after the one an engine served last. -/
def rotation (q last : Nat) : List Nat := (List.range 4).map fun i => 4 * q + (last + 1 + i) % 4
/-- The core whose command a free engine takes: the next in rotating order, those of the slot's owner first. -/
def State.nextCore (s : State) (d e : Nat) : Option Nat :=
  let y := s.die d
  let rot := rotation (e / 2) ((y.copies[e]?).map (·.last) |>.getD 0)
  match y.slotOwner (4 + e) with
  | none => rot.find? (s.presents d)
  | some t =>
    match rot.find? fun c => (s.core d c).ctx.tenant == t && s.presents d c with
    | some c => some c
    | none => rot.find? (s.presents d)
def State.engineCur (s : State) (d e : Nat) : Option (Nat × Nat) := ((s.die d).copies[e]?).bind (·.cur)
def State.setEngine (s : State) (d e : Nat) (cur : Option (Nat × Nat)) : State :=
  s.updDie d fun y => { y with copies := y.copies.modify e fun g =>
    ⟨cur, cur.elim g.last (·.1)⟩ }
/-- The free engine of its quad that takes the Y head of core c now. -/
def State.engineFor (s : State) (d c : Nat) : Option Nat :=
  [2 * quadOf c, 2 * quadOf c + 1].find? fun e => (s.engineCur d e).isNone && s.nextCore d e == some c

/-- A copy command at the head of its queue (R188, R191, R203): with an engine free for it, it is numbered and begins. -/
def State.issueCopy (s : State) (i : Instr) : Out :=
  let d := s.cur.die
  let c := s.cur.core
  match s.copyPlan i with
  | .waits => s.stall
  | .bad b => s.raiseBad b
  | .go args token follow =>
    if s.cur.rep + 1 < s.cur.reps then
      .next (s.captureRep args)
    else
      match s.engineFor d c with
      | none => s.stall
      | some e =>
        let k := { s.newCmd .tly token (s.cur.acc ++ args) with
          st := .running, follow := follow.map fun f => (f.1, f.2, s.me.nextNum .tlm) }
        let s1 := s.updMe fun x =>
          let y := (x.takeNum .tly).setFl fun g => { g with cmds := g.cmds ++ [k] }
          if follow.isSome then y.takeNum .tlm else y
        .next ((s1.setEngine d e (some (c, k.num))).issued)

def execCp (t a b : Nat) (hint : Hint) (s : State) : Out := s.issueCopy (.cp t a b hint)
def execCpm (t a b : Nat) (hint : Hint) (follow : Nat) (s : State) : Out := s.issueCopy (.cpm t a b hint follow)
def execGath (t a b : Nat) (hint : Hint) (s : State) : Out := s.issueCopy (.gath t a b hint)
def execScat (t a b : Nat) (hint : Hint) (s : State) : Out := s.issueCopy (.scat t a b hint)
def execFill (t a b : Nat) (hint : Hint) (rec : Option Shape4) (s : State) : Out := s.issueCopy (.fill t a b hint rec)
def execFlush (t a b : Nat) (s : State) : Out := s.issueCopy (.flush t a b)
def execInv (t a b : Nat) (s : State) : Out := s.issueCopy (.inv t a b)

/-! ### COPY_GRANULE -/

/-- The hint a copy command carries (R190). -/
def hintOf : Instr → Hint
  | .cp _ _ _ h => h
  | .cpm _ _ _ h _ => h
  | .gath _ _ _ h => h
  | .scat _ _ _ h => h
  | .fill _ _ _ h _ => h
  | .sbind _ _ _ h _ _ => h
  | _ => .plain
/-- The repetitions of a command. A `cpm` has one: its second argument is the follow-on's. -/
def Cmd.reps (k : Cmd) : Nat := if k.follow.isSome then 1 else k.args.length
/-- A step of a command is complete: the next step, the next repetition, or its end. -/
def Cmd.stepped (k : Cmd) (steps : Nat) (extra : List Nat) : Cmd :=
  if k.mpc + 1 < steps then { k with mpc := k.mpc + 1, extra := extra }
  else if k.rep + 1 < k.reps then { k with mpc := 0, rep := k.rep + 1, extra := [] }
  else k.finish 0
/-- One step of command k of core c on die d, which an engine serves. -/
def State.copyStep (s : State) (d e c : Nat) (k : Cmd) : State :=
  let x := s.core d c
  match k.args[k.rep]? with
  | none => (s.updCmd d c .tly k.num fun k => k.finish 0).setEngine d e none
  | some a =>
    let failed := fun (err : EngErr) => (s.updCmd d c .tly k.num fun k => k.fail err).setEngine d e none
    let done := fun (t : State) (extra : List Nat) =>
      let k1 := k.stepped a.steps extra
      let t1 := t.updCmd d c .tly k.num fun _ => k1
      if k1.over then t1.setEngine d e none else t1
    if !x.basinFree k.rank a.prints then s
    else
      match a.instr, a.scal with
      | .flush .., va :: n :: _ =>
        if !(s.stillOut d k.rel).isEmpty then s
        else
          match s.maintain d x true va n with
          | .error err => failed err
          | .ok t => done t []
      | .inv .., va :: n :: _ =>
        match s.maintain d x false va n with
        | .error err => failed err
        | .ok t => done t []
      | _, _ =>
        let v := s.released d k.rel
        match v.stepMoves d x k a k.mpc with
        | .error err => failed err
        | .ok (ms, extra) =>
          if ms.any fun m => (m.src ++ m.dst).any (s.pieceBusy d) || m.dst.any (s.pieceBehind d k.rel) then s
          else
            match s.perform v (32 + e) d x (hintOf a.instr) ms with
            | .error err => failed err
            | .ok t => done t extra

/-- The command an engine serves now, with its core. -/
def State.served (s : State) (d e : Nat) : Option (Nat × Cmd) :=
  (s.engineCur d e).bind fun p => ((s.core d p.1).cmd? .tly p.2).bind fun k => if k.st = .running then some (p.1, k) else none
/-- Whether the command an engine serves yields it to the slot's owner (R191). -/
def State.yields (s : State) (d e c : Nat) : Bool :=
  match (s.die d).slotOwner (4 + e) with
  | none => false
  | some t => (s.core d c).ctx.tenant != t &&
      (rotation (e / 2) 3).any fun q => (s.core d q).ctx.tenant == t && s.presents d q

/-- COPY_GRANULE: engine e performs the next granule of the command it serves, having taken one that waits if it was free,
or yields it (R188, R191). -/
def execCopyGranule (d e : Nat) (s : State) : Out :=
  match s.served d e with
  | some (c, k) =>
    if s.yields d e c then .next ((s.updCmd d c .tly k.num fun k => { k with st := .yielded }).setEngine d e none)
    else .next (s.copyStep d e c k)
  | none =>
    let s := s.setEngine d e none
    match s.nextCore d e with
    | none => .next s
    | some c =>
      match (s.core d c).copyWaiting with
      | none => .next s
      | some k =>
        .next (((s.updCmd d c .tly k.num fun k => { k with st := .running }).setEngine d e (some (c, k.num))).copyStep d e c
          { k with st := .running })

/-! ### probe (R175 to R178) -/

/-- The share's fields (R175). -/
def Core.cacheEnt (x : Core) : Nat := fieldOf x.k.kbcache 56 44
def Core.cacheFirst (x : Core) : Nat := fieldOf x.k.kbcache 43 32
/-- The 8 tag entries of the set of a block (R176). -/
def Core.cacheWays (x : Core) (block : Nat) : List Nat :=
  (List.range 8).map fun u => x.cacheFirst + 8 * (block % (x.cacheEnt / 8)) + u
/-- The slot of a tag entry (R176). -/
def Core.cacheSlot (x : Core) (idx : Nat) : Nat := fieldOf x.k.kbcache 27 0 + 4096 * (idx - x.cacheFirst)
/-- A way the probing context finds valid (R177). -/
def Die.tagOf (y : Die) (owner idx : Nat) : Option TagEntry := y.tags.find? fun t => t.idx == idx && t.owner == owner
/-- The victim among the ways (R178): none while every one is pending; else the lowest invalid one, else the least recent. -/
def Die.victim (y : Die) (owner : Nat) (ways : List Nat) : Option Nat :=
  if ways.all fun w => (y.tagOf owner w).any (·.pending) then none
  else
    match ways.find? fun w => (y.tagOf owner w).isNone with
    | some w => some w
    | none => (y.tags.reverse.find? fun t => ways.contains t.idx && t.owner == owner).map (·.idx)
/-- An entry becomes the most recent, with its new content. -/
def Die.setTag (y : Die) (t : TagEntry) : Die := { y with tags := t :: y.tags.filter fun u => u.idx != t.idx }

/-- The miss of a `probe` (R178): the victim is taken, the fill queued, the token pending, the branch taken. -/
def State.probeMiss (s : State) (a b : Nat) (off : Int) (idx owner block : Nat) : Out :=
  let x := s.me
  let slot := x.cacheSlot idx
  let k := { s.newCmd .tly (if x.heldPending a then 0 else a)
      [plainArg (.probe a b off) [x.val b, BitVec.ofNat 64 slot]] with engine := .y }
  let s1 := (s.updMyDie fun y => y.setTag ⟨idx, true, owner, block⟩).updMe fun x =>
    (((x.takeNum .tly).pendReg a).setFl fun g => { g with cmds := g.cmds ++ [k] }).setDec
      (.taken (lineTarget s.cur.addr off))
  .next s1.issued

/-- The block of a `probe` checked: an address in the aperture is not translated, since the fill may read there (R171); any
other is translated for read, precisely. -/
def State.probeBlock (s : State) (va : W64) (k : State → Out) : Out :=
  if apertureBase ≤ va.toNat ∧ va.toNat < 2 ^ 56 then k s else s.scalarPa .read va 1 fun s _ => k s
def execProbe (a b : Nat) (off : Int) (s : State) : Out :=
  if s.cReady [a, b] then
    let x := s.me
    let va := x.val b
    if x.cacheEnt = 0 then s.raise 0x0C 0 va
    else if x.poisoned b then s.poisonFault b
    else
      s.probeBlock va fun s =>
        let x := s.me
        let block := fieldOf va 55 12
        let owner := x.k.kslot.toNat
        let ways := x.cacheWays block
        match ways.findSome? fun w => (s.myDie.tagOf owner w).bind fun t => if t.block = block then some t else none with
        | some t =>
          if t.pending then s.stall
          else
            .next (((s.updMyDie fun y => y.setTag t).updMe fun x =>
              (x.write a (BitVec.ofNat 64 (x.cacheSlot t.idx)) false).setDec .notTaken)).issued
        | none =>
          match s.myDie.victim owner ways with
          | none => s.stall
          | some idx =>
            if s.cmdsFull .tly then s.stall
            else if 2 ^ 56 ≤ x.nextNum .tly then s.illegal
            else s.probeMiss a b off idx owner block
  else s.stall

end Sys2Proof.Machine
end

