-- ==== Sys2Proof/Machine/Streams.lean ====
section
/-!
DEFINITION. Sys2Proof/Machine/Streams.lean: stream bindings (R194 to R200): `sbind`, `sunb`, `dfl`, and the stream unit's
SPOUT_PREFETCH and DRAIN_WRITE.
-/
namespace Sys2Proof.Machine
open Sys2Proof

/-! ### sbind, sunb, dfl at issue -/

def Core.stream (x : Core) (t : Nat) : Option Binding := if t < firstStream then none else (x.strm[t - firstStream]?).getD none
/-- The stream tile a group names, as a register holds it. -/
def isStreamTile (v : W64) : Bool := decide (48 ≤ v.toNat ∧ v.toNat ≤ 63)
/-- Whether x is bound for a Y group at its issue (R194 to R196): every `sbind` and `sunb` before it has issued. -/
def Core.boundNow (x : Core) (t : Nat) : Bool := (x.stream t).elim false fun b => b.ending.isNone

/-- A new binding (R194). -/
def newBinding (drain : Bool) (hint : Hint) (p : Pattern) (num rank : Nat) (rel : List (Nat × Nat)) : Binding :=
  ⟨if drain then .drain else .spout, hint, p, num, rank, 0, [], 0, [], 0, [], none, none, rel⟩
/-- A binding of tile t in place. One whose `sunb` has issued and not completed stays for the groups before it (R195, R196). -/
def Core.bindTile (x : Core) (t : Nat) (b : Binding) : Core :=
  { x with strm := x.strm.set (t - firstStream) (some b)
           ended := x.ended ++ (x.stream t).toList.map fun o => (t, o) }
/-- What one repetition of an issued `sbind` puts in place. -/
def CmdArg.bind (a : CmdArg) (num rank : Nat) (rel : List (Nat × Nat)) (x : Core) : Core :=
  match a.instr, a.scal, a.pats with
  | .sbind _ _ _ hint drain _, v :: _, p :: _ => x.bindTile v.toNat (newBinding drain hint p num rank rel)
  | _, _, _ => x

/-- The faults of an `sbind` (R194): those of x alone, and those of its pattern. -/
def bindBads (x : Core) (v : W64) (taken : Bool) (p : Except Bad Pattern) : List Bad :=
  (if !isStreamTile v || decide (x.ctx.tiles < 64) || taken then [.illegal] else []) ++
  (p.toOption.elim [] fun p => (if p.count % 1024 ≠ 0 then [.illegal] else []) ++ (if p.tag = 0x23 then [.format] else [])) ++
  badsOf [checkPattern p]

/-- `sbind` (R194): the binding is in place with the issue, and the token reports it. It waits for no V or M group (R196). -/
def execSbind (t a b : Nat) (hint : Hint) (drain : Bool) (rec : Option Shape4) (s : State) : Out :=
  s.issueGate .tly (a :: operandScalars b rec) fun s =>
    let x := s.me
    let v := x.val a
    if !modeMatches x rec then s.illegal
    else
      let p := s.operandPattern b rec
      let before := s.cur.acc.any fun c => c.scal.head? == some v
      if x.booksWait s.cur.rank p.toOption.toList then s.stall
      else
        match worstOf (bindBads x v (x.boundNow v.toNat || before) p ++ poisonBads x (operandScalars b rec ++ [a])), p with
        | some f, _ => s.raiseBad f
        | none, .error f => s.raiseBad f
        | none, .ok p =>
          let arg : CmdArg := patArg (.sbind t a b hint drain rec) [v] [p]
          if s.cur.rep + 1 < s.cur.reps then s.issueCmd .tly t arg id
          else
            let num := x.nextNum .tly
            let rel := s.unperformed s.cur.die s.cur.core
            (s.updMe fun x => (s.cur.acc ++ [arg]).foldl (fun x c => c.bind num s.cur.rank rel x) x).issueCmd .tly t arg
              fun k => k.finish 0

/-- The end of a binding has issued (R195, R196): groups delivered after it see an ordinary register that starts anew. -/
def Core.endTile (x : Core) (t rank : Nat) : Core :=
  { x.updBindings t (fun b => b.ending.isNone) fun b => some { b with ending := some rank } with
    unbound := (t, rank) :: x.unbound.filter fun u => u.1 != t }

/-- The checks `sunb` and `dfl` share (R195). -/
def State.streamEnd (s : State) (a : Nat) (drainOnly : Bool) (k : State → W64 → Out) : Out :=
  s.issueGate .tly [a] fun s =>
    let x := s.me
    let v := x.val a
    if !isStreamTile v || !x.boundNow v.toNat then s.illegal
    else if drainOnly && (x.stream v.toNat).elim true (fun b => b.kind = .spout) then s.illegal
    else if x.poisoned a then s.poisonFault a
    else k s v

def execSunb (t a : Nat) (s : State) : Out :=
  s.streamEnd a false fun s v =>
    if s.cur.acc.any fun c => c.scal.head? == some v then s.illegal
    else
      let arg : CmdArg := plainArg (.sunb t a) [v]
      if s.cur.rep + 1 < s.cur.reps then s.issueCmd .tly t arg id
      else
        (s.updMe fun x => (s.cur.acc ++ [arg]).foldl (fun x c => x.endTile (c.scal.headD 0).toNat s.cur.rank) x).issueCmd
          .tly t arg id
def execDfl (t a : Nat) (s : State) : Out :=
  s.streamEnd a true fun s v => s.issueCmd .tly t (plainArg (.dfl t a) [v]) id

/-! ### The end of sunb and dfl (R195, R199) -/

/-- Whether a group delivered before a rank may still take a tile of stream t under binding b: queued, or an M command still
to write it. -/
def Core.usersBefore (x : Core) (b : Binding) (t rank : Nat) : Bool :=
  ((x.q.v ++ x.q.m).any fun e => decide (b.rank < e.rank ∧ e.rank < rank) && e.left.any fun i => decide (0 < takes b.kind t i)) ||
  (x.fl.cmds.any fun k => decide (b.rank < k.rank ∧ k.rank < rank) && !k.over && k.tileOut.contains t) || x.dumpedTo [t]
/-- Whether every tile written before a rank is in memory. -/
def Core.drained (x : Core) (b : Binding) (t rank : Nat) : Bool :=
  b.ring.all fun r => decide (x.firstNumber b t rank ≤ r.num)

/-- How one `sunb` or `dfl` stands: it waits, a drain write failed, or it is through. -/
inductive StreamEnd where
  | waits
  | fails (f : RingFail)
  | through
  deriving DecidableEq, Repr
def Core.streamEnd (x : Core) (t rank : Nat) : StreamEnd :=
  match (x.boundTo t).find? fun b => b.ending == some rank || b.governs rank with
  | none => .through
  | some b =>
    match b.failed with
    | some f => .fails f
    | none => if x.usersBefore b t rank || (b.kind == .drain && !x.drained b t rank) then .waits else .through
/-- The stream tiles a command ends or flushes. -/
def Cmd.ends (k : Cmd) : List Nat := k.args.filterMap fun a =>
  match a.instr, a.scal with
  | .sunb .., v :: _ => some v.toNat
  | .dfl .., v :: _ => some v.toNat
  | _, _ => none
/-- The bindings a `sunb` ends, removed (R195). -/
def Cmd.unbind (k : Cmd) (x : Core) : Core :=
  k.args.foldl (fun x a => match a.instr, a.scal with
    | .sunb .., v :: _ => x.updBindings v.toNat (fun b => b.ending == some k.rank) fun _ => none
    | _, _ => x) x
/-- A waiting `sunb` or `dfl` that is through has finished; one whose drain write failed has failed (R199). -/
def Core.settleStream (x : Core) (k : Cmd) : Core :=
  if k.st = .waiting && !k.ends.isEmpty && !x.ctl.frozen then
    match k.ends.findSome? fun t => match x.streamEnd t k.rank with | .fails f => some f | _ => none with
    | some f => x.updCmd k.tl k.num fun k => k.fail ⟨f.cause, BitVec.ofNat 64 f.addr, f.xsyn.getD 0⟩
    | none =>
      if k.ends.all fun t => x.streamEnd t k.rank == .through then (k.unbind x).updCmd k.tl k.num fun k => k.finish 0
      else x
  else x

/-! ### SPOUT_PREFETCH (R197, R199, R200) -/

/-- The poison CAUSE and address of a failed read (R199). -/
def EngErr.ringFail (e : EngErr) (elem : Nat) : RingFail :=
  ⟨elem, if e.status = 4 then 0x01 else 0x10, e.tval.toNat, if e.status = 1 ∨ e.status = 2 then some e.xsyn else none,
   (e.status == 1 || e.status == 2) && bitOf e.xsyn 4⟩
/-- The bytes of a run, or why an element that needs them is poisoned. -/
def State.readRun (s : State) (d : Nat) (x : Core) (elem : Nat) (r : Run) : Except RingFail (List Byte) :=
  match s.locateRuns d x .read [r] with
  | .error e => .error (e.ringFail elem)
  | .ok ps =>
    let v := s.readPieces d (s.keyOf d x.ctx.tenant) ps
    if v.2 then .error ⟨elem, 0x03, r.lo.toNat, none, false⟩ else .ok v.1
/-- Element e of a tile of a pattern, whose pattern element is n: its container, or its failure, its block's scale counting
with it (R199). -/
def State.readElem (s : State) (d : Nat) (x : Core) (p : Pattern) (e n : Nat) : Except RingFail W32 :=
  let o := p.offset n
  match s.readRun d x e ⟨(p.codeAt o).1, p.codeBytes o⟩ with
  | .error f => .error f
  | .ok bs =>
    let code := leNat bs / 2 ^ (p.codeAt o).2 % 2 ^ p.bits
    if isBlock p.tag then
      (s.readRun d x e ⟨(p.scaleAt o).1, (p.scaleAt o).2⟩).map fun _ => cellOf p.tag code
    else .ok (cellOf p.tag code)
/-- The side store of a tile of a pattern: the scale bytes of its 32 blocks, zero where they cannot be read (R76). -/
def State.readSide (s : State) (d : Nat) (x : Core) (p : Pattern) (k : Nat) : List Byte :=
  if isBlock p.tag then
    (((List.range 32).flatMap fun b =>
      let o := p.offset (1024 * k + 32 * b)
      match s.readRun d x (32 * b) ⟨(p.scaleAt o).1, (p.scaleAt o).2⟩ with
      | .ok bs => bs
      | .error _ => List.replicate (p.scaleAt o).2 0) ++ noSide).take 128
  else noSide
/-- Tile k of a pattern as the stream unit fetches it. -/
def State.fetchTile (s : State) (d : Nat) (x : Core) (p : Pattern) (k : Nat) : RingTile :=
  let l := (List.range 1024).map fun e => s.readElem d x p e (1024 * k + e)
  ⟨k, { Tile.zero p.tag with cells := l.map fun r => r.toOption.getD 0, side := s.readSide d x p k },
   l.filterMap fun r => match r with
     | .error f => some f
     | .ok _ => none⟩
/-- The next tile of a spout to fetch: within 4 of its oldest unreleased tile, not there yet, not gone. -/
def Binding.nextFetch (b : Binding) : Option Nat :=
  ((List.range 4).map (b.released + ·)).find? fun k =>
    decide (k < b.length) && !b.gone.contains k && !b.ring.any fun r => r.num == k

/-- A spout as its ring sees it: the tiles that a group at its queue head has captured, and takes when it issues, make room for
those after them (R197). -/
def Core.behind (x : Core) (t : Nat) (b : Binding) : Binding :=
  (x.q.m.filter fun e => b.governs e.rank).foldl (fun b e => e.acc.foldl (fun b a => match a.strm with
    | some (v, n) => if v = t then { b.take e.rank n 1 with ring := b.ring } else b
    | none => b) b) b
/-- The accesses of a tile's elements, scales among them, lines that lie together joined. -/
def State.tilePieces (s : State) (d : Nat) (x : Core) (p : Pattern) (k : Nat) : List Piece :=
  joinPieces (((List.range (1024 / blockOf p.tag)).map (blockOf p.tag * ·)).flatMap fun e =>
    ((s.locateRuns d x .read (p.unitRuns (p.offset (1024 * k + e)))).toOption).getD [])
/-- The bindings of a tile, the oldest first. -/
def Core.boundInOrder (x : Core) (t : Nat) : List Binding :=
  (x.ended.filter fun e => e.1 == t).map (·.2) ++ (x.stream t).toList

/-- SPOUT_PREFETCH: the next tile of spout v<x> enters its ring. Its basin reads obey the range checker (R174); its memory
reads take the binding's hint (R190), wait for a pseudo-channel that is retraining (R415) and see the stores released to
it (R359). -/
def execSpoutPrefetch (d c x : Nat) (s : State) : Out :=
  let y := s.core d c
  match ((y.boundInOrder x).filter fun b => b.kind == .spout).findSome? fun b => (y.behind x b).nextFetch.map fun k => (b, k) with
  | none => .next s
  | some (b, k) =>
    if y.ctl.frozen || y.ctl.run != .running || !y.basinFree b.rank (b.pat.print false) ||
      (s.tilePieces d y b.pat k).any (s.pieceBusy d) then .next s
    else
      let v := s.released d b.rel
      let t := (s.tilePieces d y b.pat k).foldl (fun s p => s.touchPiece c d b.hint p) s
      .next (t.updCore d c fun z => z.updBindings x (fun o => o.num == b.num) fun b =>
        some { b with ring := b.ring ++ [v.fetchTile d y b.pat k] })

/-! ### DRAIN_WRITE (R198, R199) -/

/-- The bytes of a block of 32 codes (R77, R82): the codes packed from the low bit up. -/
def packCodes (w : Nat) : List W32 → Nat
  | [] => 0
  | c :: cs => c.toNat % 2 ^ w + 2 ^ w * packCodes w cs
/-- The scale bytes of block b of a side store (R76). -/
def sideBytes (p : Pattern) (side : List Byte) (b : Nat) : List Byte :=
  let n := (p.scaleAt 0).2
  (side.drop (n * b)).take n
/-- What the unit at element e of a tile writes: the bytes of its runs in order. -/
def Pattern.unitBytes (p : Pattern) (t : Tile) (e : Nat) : List Byte :=
  if isBlock p.tag then
    let codes := leBytes (4 * p.bits) (packCodes p.bits ((t.cells.drop e).take 32))
    let sc := sideBytes p t.side (e / 32)
    if (lxM p.tag).isSome then sc ++ codes else codes ++ sc
  else leBytes (p.bits / 8) ((t.cells[e]?).getD 0).toNat
/-- The units of tile k of a pattern, located for writing. -/
def State.tileMoves (s : State) (d : Nat) (x : Core) (p : Pattern) (k : Nat) (t : Tile) : Except EngErr (List Move) :=
  allOk (((List.range (1024 / blockOf p.tag)).map (blockOf p.tag * ·)).map fun e =>
    (s.locateRuns d x .write (p.unitRuns (p.offset (1024 * k + e)))).map fun ps => ⟨[], p.unitBytes t e, ps⟩)

/-- The ring's lowest tile of a drain. -/
def Binding.lowest (b : Binding) : Option RingTile :=
  b.ring.foldl (fun (m : Option RingTile) r => match m with
    | none => some r
    | some q => some (if r.num < q.num then r else q)) none
/-- Whether a tile of a drain is still on its way to the ring: its writer's rows are not all due (R135). -/
def Core.ringLate (x : Core) (b : Binding) (n : Nat) : Bool := x.fl.vres.any fun v => v.late && v.num == some (b.num, n)
/-- That tile written to its pattern position, or its failure kept. -/
def State.writeDrain (s : State) (d c x : Nat) (b : Binding) : State :=
  let y := s.core d c
  match b.lowest with
  | none => s
  | some r =>
    if b.failed.isSome || y.ringLate b r.num then s
    else
      let upd := fun (s : State) (f : Binding → Binding) =>
        s.updCore d c fun z => z.updBindings x (fun o => o.num == b.num) fun b => some (f b)
      match s.tileMoves d y b.pat r.num r.tile with
      | .error e => upd s fun b => { b with failed := some { e.ringFail 0 with cause := e.status } }
      | .ok ms =>
        if ms.any fun m => m.dst.any (s.pieceBehind d b.rel) then s
        else
          match s.perform s c d y b.hint ms with
          | .error e => upd s fun b => { b with failed := some { e.ringFail 0 with cause := e.status } }
          | .ok t => upd t fun b => { b with ring := b.ring.filter (fun q => q.num != r.num), written := b.written + 1 }

/-- DRAIN_WRITE: the stream unit writes a drain tile whose writer has retired, of the oldest binding first. Its basin writes obey
the range checker. -/
def execDrainWrite (d c x : Nat) (s : State) : Out :=
  let y := s.core d c
  match (y.boundInOrder x).find? fun b => b.kind == .drain && !b.ring.isEmpty with
  | none => .next s
  | some b => if y.basinFree b.rank (b.pat.print true) then .next (s.writeDrain d c x b) else .next s

end Sys2Proof.Machine
end

