-- ==== Sys2Proof/Machine/Matrix.lean ====
section
/-!
DEFINITION. Sys2Proof/Machine/Matrix.lean: the cascades: operand values and row arithmetic (R95, R96, R216 to R222), the
matrix and cistern commands at issue (`mmw`, `mma`, `acal`, `acfr`, `aczr`, `acdr`), and what each does when its cascade
serves it (R217 to R230).
-/
namespace Sys2Proof.Machine
open Sys2Proof

/-! ### Width classes (R216) -/

/-- The class of a weight or activation tag: element width in bits. -/
def tagClass (t : Nat) : Option Nat :=
  if t = 0x02 ∨ t = 0x03 then some 16
  else if t = 0x04 ∨ t = 0x05 ∨ t = 0x09 ∨ t = 0x0A ∨ t = 0x12 ∨ (0x50 ≤ t ∧ t ≤ 0x5F) then some 8
  else if t = 0x08 ∨ t = 0x10 ∨ t = 0x11 ∨ (0x40 ≤ t ∧ t ≤ 0x4F) then some 4
  else none
/-- K of a class. -/
def classK (c : Nat) : Nat := if c = 4 then 2048 else 1024
/-- N of a class. -/
def classN (c : Nat) : Nat := if c = 16 then 512 else 1024

/-! ### Operand values (R95, R96) -/

/-- A subnormal code of a format that FTZ reaches. -/
def Fmt.flushed (f : Fmt) (ftz : Bool) (code : Nat) : Bool :=
  let g := code % 2 ^ (f.w - 1)
  ftz && f.flush && decide (0 < g ∧ g < 2 ^ f.man)
/-- Whether reading an element sets UFL (R96). -/
def operandUfl (tag : Nat) (ftz : Bool) (code : Nat) : Bool := (floatFmt tag).elim false fun f => f.flushed ftz code
/-- The exact value of element k of a block of an operand (R81, R82, R84): an affine codebook's is rounded to bf16 once. -/
def operandNum (tag : Nat) (bk : Codebook) (ftz : Bool) (sc : BlockScale) (k code : Nat) : Num :=
  match floatFmt tag with
  | some f => f.value ftz code
  | none =>
    let v := blockValue tag bk sc k code
    match sc with
    | .affine _ _ => fmtBf16.value false (fmtBf16.rne v)
    | _ => v

/-! ### Row arithmetic (R95, R96) -/

/-- The exact sum of the products of a block, and whether it is invalid without a NaN operand (R95). -/
def blockSum (ts : List (Num × Num)) : Num × Bool :=
  let quiet := ts.any fun t => t.1.isNan || t.2.isNan
  match ts.map fun t => t.1.mul t.2 with
  | [] => (.zero false, false)
  | p :: ps =>
    let r := ps.foldl (fun a q => ((a.1.add false q.1).1, a.2 || q.2 || (a.1.add false q.1).2)) p
    (r.1, r.2 && !quiet)
def cascadeMode (ftz : Bool) : Mode := ⟨.rne, false, ftz⟩
/-- One block added into an accumulator (R95, R96): two roundings; code and status. -/
def accStep (ftz : Bool) (acc : Nat × Nat) (ts : List (Num × Num)) : Nat × Nat :=
  let s := blockSum ts
  let r := fmtFp32.cvt (cascadeMode ftz) 0 s.1
  let a := (fmtFp32.value ftz acc.1).add false (fmtFp32.value ftz r.1)
  let c := fmtFp32.cvt (cascadeMode ftz) 0 a.1
  (c.1, acc.2 ||| r.2 ||| c.2 ||| (if fmtFp32.flushed ftz acc.1 then stUfl else 0) ||| (if s.2 || a.2 then stInv else 0))
/-- A row's blocks of 32 products added in order. -/
def accRow (ftz : Bool) (acc : Nat) (ts : List (Num × Num)) : Nat × Nat := (blocksOf ts).foldl (accStep ftz) (acc, 0)

/-! ### Weight buffers (R217, R218, R221) -/

def WBuf.code (w : WBuf) (k j : Nat) : Option Nat :=
  if j < w.n then (w.rows[k]?).bind fun r => r.codes[j]? else none
/-- The value of weight (k, j); +0 beyond what was loaded (R220). -/
def WBuf.value (w : WBuf) (bk : Codebook) (ftz : Bool) (k j : Nat) : Num :=
  match w.code k j with
  | none => .zero false
  | some c => operandNum w.tag bk ftz (scaleOf w.tag bk (((w.rows[k]?).map (·.side)).getD []) (j / 32)) (j % 32) c
def WBuf.ufl (w : WBuf) (ftz : Bool) (k j : Nat) : Bool := (w.code k j).elim false (operandUfl w.tag ftz)
/-- The activation row after the duplication map (R221): index i stands for weight row k0 + i. -/
def applyDup {α : Type} (dup : List (Nat × Nat)) (k0 : Nat) (a : List α) : List α :=
  dup.foldl (fun r e =>
    if k0 ≤ e.1 ∧ e.1 < k0 + a.length ∧ k0 ≤ e.2 ∧ e.2 < k0 + a.length then
      match a[e.1 - k0]? with
      | some v => r.set (e.2 - k0) v
      | none => r
    else r) a
/-- An activation element: its value and whether reading it sets UFL. -/
abbrev Act := Num × Bool
/-- A row times a buffer from weight row k0, added to the accumulators of n columns (R95, R222): codes, and the status of
the row. -/
def WBuf.mulRow (w : WBuf) (bk : Codebook) (ftz : Bool) (k0 : Nat) (row : List Act) (accs : List Nat) : List Nat × Nat :=
  let a := applyDup w.dup k0 row
  let cols := accs.mapIdx fun j acc =>
    let r := accRow ftz acc (a.mapIdx fun i x => (x.1, w.value bk ftz (k0 + i) j))
    (r.1, r.2 ||| (if (List.range a.length).any fun i => w.ufl ftz (k0 + i) j then stUfl else 0))
  (cols.map (·.1), (cols.foldl (fun s c => s ||| c.2) 0) ||| (if row.any (·.2) then stUfl else 0))
/-- A row times an empty buffer (R218): acc + (+0). -/
def zeroRow (ftz : Bool) (row : List Act) (accs : List Nat) : List Nat × Nat :=
  let cols := accs.map fun acc => accStep ftz (acc, 0) []
  (cols.map (·.1), (cols.foldl (fun s c => s ||| c.2) 0) ||| (if row.any (·.2) then stUfl else 0))

/-- The activation elements of a captured tile, flat in element order (R222). -/
def Tile.acts (t : Tile) (dir : Dir) (bk : Codebook) (ftz : Bool) : List Act :=
  (t.elems dir).mapIdx fun e c =>
    (operandNum t.tag bk ftz (scaleOf t.tag bk t.side (e / 32)) (e % 32) c.1.toNat, operandUfl t.tag ftz c.1.toNat)

/-! ### The cistern (R226, R229) -/

def State.casc (s : State) (d k : Nat) : Cascade := ((s.die d).cascs[k]?).getD .reset
def State.updCasc (s : State) (d k : Nat) (f : Cascade → Cascade) : State :=
  s.updDie d fun y => { y with cascs := y.cascs.modify k f }
/-- A cistern row: 512 elements; an unlisted row is +0. -/
def Cascade.row (c : Cascade) (bank r : Nat) : List W32 :=
  ((c.cells.find? fun p => p.1 == 16 * bank + r).map (·.2)).getD (List.replicate 512 0)
def Cascade.setRow (c : Cascade) (bank r : Nat) (l : List W32) : Cascade :=
  { c with cells := (16 * bank + r, l) :: c.cells.filter fun p => p.1 != 16 * bank + r }
/-- Elements col onward of a row. -/
def Cascade.putRow (c : Cascade) (bank r : Nat) (l : List W32) : Cascade :=
  c.setRow bank r (l ++ (c.row bank r).drop l.length)
/-- Every element of a bank +0. -/
def Cascade.clearBank (c : Cascade) (bank : Nat) : Cascade := { c with cells := c.cells.filter fun p => p.1 / 16 != bank }
/-- Whether a bank is held for a core and the context it runs (R229). -/
def Cascade.holds (c : Cascade) (core : Nat) (x : Core) (bank : Nat) : Bool :=
  c.banks.any fun b => b.idx == bank && b.tenant == x.ctx.tenant &&
    (b.slot == x.k.kslot.toNat || b.mask.toNat.testBit core)

/-! ### Records (R219 to R222) -/

/-- The bs field of an inline matrix record must be 0 (R219). -/
def bsBad (rec : Option Shape4) : Bool := rec.elim false fun r => recBs r != 0
/-- The bank of position p with results of columns 512·half onward, from first position p0 and N columns (R222). -/
def bankOf (n p0 p half : Nat) : Nat := if n ≤ 512 then p / 16 else p0 / 16 + 2 * (p / 16 - p0 / 16) + half
/-- The limits of an `mma` record (R219, R222), its base aside. -/
def mmaLimits (p : Pattern) : Bool :=
  match tagClass p.tag with
  | none => false
  | some c =>
    let p0 := p.e3 - 1
    p.lay == 0 && p.st2 == 0 && decide (p.e0 ≤ 1024 ∧ p.e1 ≤ 16 ∧ p.e1 * p.e0 ≤ 1024 ∧ p.e2 ≤ classN c ∧ p0 ≤ 2047) &&
      decide (0 ≤ p.st1 ∧ p.st1 % 32 = 0 ∧ p.st1.toNat + p.e0 ≤ classK c) &&
      (if p.e2 ≤ 512 then decide (p0 + p.e1 ≤ 2048)
       else decide (p0 / 16 % 2 = 0 ∧ bankOf p.e2 p0 (p0 + p.e1 - 1) 1 ≤ 127))
/-- The format checks of an activation tile against the weight tag (R132, R216, R222). -/
def mmaFormat (p : Pattern) (dir : Dir) (tag : Nat) : Bool :=
  tagClass tag == tagClass p.tag && (!isBlock tag || (dir == .r && p.e0 % 32 == 0))
/-- The limits of an `acdr` record (R219). -/
def acdrLimits (p : Pattern) : Bool :=
  p.base == 0 && p.lay == 0 && p.st1 == 0 && p.st2 == 0 && p.st3 == 0 && p.tag == 0x01 &&
    decide (p.e0 ≤ 64 ∧ p.e1 ≤ 16 ∧ p.e2 - 1 + p.e0 ≤ 512 ∧ p.e3 - 1 + p.e1 ≤ 2048)
/-- The limits of an `mmw` record (R220). -/
def mmwLimits (p : Pattern) : Bool :=
  p.e2 == 1 && p.e3 == 1 && (tagClass p.tag).elim true fun c => decide (p.e1 ≤ classK c ∧ p.e0 ≤ classN c)

/-! ### Issue -/

/-- The record operand of an M instruction (R45, R219): it waits for what the record makes it wait for; then the first in the
order of R260 of the faults of the record, those its own chapter gives, and the poisoned scalars. -/
def State.recordThen (s : State) (h : Nat) (rec : Option Shape4) (waits : Pattern → Bool) (bads : Pattern → List Bad)
    (k : Pattern → Out) : Out :=
  if !modeMatches s.me rec then s.illegal
  else
    let poison := poisonBads s.me (operandScalars h rec)
    match s.operandPattern h rec with
    | .error b => s.raiseBad ((worstOf (b :: poison)).getD b)
    | .ok p =>
      if waits p then s.stall
      else
        match worstOf (bads p ++ poison) with
        | some b => s.raiseBad b
        | none => k p
/-- The codebook tables of tags as they stand now (R216). -/
def Core.booksFor (x : Core) (tags : List Nat) : List (Nat × Codebook) :=
  (tags.filterMap cbTable).map fun t => (t, ((x.books[t]?).getD ⟨false, false, []⟩))
def CmdArg.book (a : CmdArg) (tag : Nat) : Codebook :=
  ((a.books.find? fun b => cbTable tag == some b.1).map (·.2)).getD ⟨false, false, []⟩
/-- Whether a reader of tables for tags waits (R307). -/
def Core.tagsWait (x : Core) (rank : Nat) (tags : List Nat) : Bool := (tags.filterMap cbTable).any (x.bookWaits rank)

/-- The stream tile that tile t is for the repetition in focus: of a spout the one it reads, of a drain the one it writes (R197,
R198). The group takes it when its last repetition has been captured. -/
def State.streamTile (s : State) (t : Nat) : Option (Nat × Nat) :=
  match s.useOf t with
  | .plain => none
  | .spout _ n => some (t, n)
  | .drain _ n => some (t, n)
/-- The tile an M group captures whole at its issue (R222, R223, R286): the stream's end, a failed prefetch, poison. -/
def State.captureTile (s : State) (a : Nat) (k : Tile → Option (Nat × Nat) → Out) : Out :=
  match s.readBar false [a] with
  | .waits => s.stall
  | .ends t => s.raise 0x0F 0 (BitVec.ofNat 64 t)
  | .fails t n f => s.streamFault t n f
  | .clear =>
    let tile := s.readTile a
    if tile.poison.any id then s.tilePoison tile.origin else k tile (s.streamTile a)

/-- What an `mma` command holds. -/
def mmaArg (x : Core) (i : Instr) (p : Pattern) (tile : Tile) (strm : Option (Nat × Nat)) : CmdArg :=
  ⟨i, [], [p], some tile, strm, x.booksFor [tile.tag, p.tag], []⟩
/-- The faults of an `mma` record on a tile of a tag (R219, R222). -/
def mmaBads (p : Pattern) (dir : Dir) (tag : Nat) : List Bad :=
  (if p.base != 0 || p.st3 != 0 || !mmaLimits p then [.illegal] else []) ++ (if mmaFormat p dir tag then [] else [.format])
def execMma (a : TOp) (t h cas : Nat) (sw : Bool) (rec : Option Shape4) (s : State) : Out :=
  s.issueGate .tlm (operandScalars h rec) fun s =>
    let x := s.me
    if x.bindWaits s.cur.rank [a.v] || x.mReadWaits s.cur.rank [a.v] then s.stall
    else if s.streamMisuse [a.v] [] || bsBad rec then s.illegal
    else
      let tag := (s.readTile a.v).tag
      s.recordThen h rec (fun p => x.tagsWait s.cur.rank [tag, p.tag]) (fun p => mmaBads p a.dir tag) fun p =>
        s.captureTile a.v fun tile n => s.issueCmd .tlm t (mmaArg x (.mma a t h cas sw rec) p tile n) id

def mmwFaults (p : Pattern) : List Bad :=
  (if mmwLimits p then [] else [.illegal]) ++ (if (tagClass p.tag).isNone || p.formatBad then [.format] else [])
def execMmw (t h cas : Nat) (dup : Bool) (rec : Option Shape4) (s : State) : Out :=
  s.issueGate .tlm (operandScalars h rec) fun s =>
    s.recordThen h rec (fun p => s.me.booksWait s.cur.rank [p]) mmwFaults fun p =>
      s.issueCmd .tlm t (patArg (.mmw t h cas dup rec) [] [p]) id

/-- The request word of R227. -/
def reqCount (r : W64) : Nat := fieldOf r 23 16
def reqFirst (r : W64) : Nat := fieldOf r 14 8
def reqCas (r : W64) : Nat := fieldOf r 1 0
def reqBad (r : W64) : Bool :=
  fieldOf r 63 24 != 0 || bitOf r 15 || fieldOf r 7 2 != 0 || reqCount r == 0 || decide (128 < reqFirst r + reqCount r)
def reqBanks (r : W64) : List Nat := (List.range (reqCount r)).map (reqFirst r + ·)
def execAcal (a b t : Nat) (s : State) : Out :=
  s.issueGate .tlm [a, b] fun s =>
    let x := s.me
    if reqBad (x.val a) || fieldOf (x.val b) 63 32 != 0 then s.illegal
    else
      match x.firstPoison [a, b] with
      | some r => s.poisonFault r
      | none => s.issueCmd .tlm t (plainArg (.acal a b t) [x.val a, x.val b]) id
/-- `acfr` and `aczr` (R228). -/
def State.issueBanks (s : State) (a t : Nat) (i : Instr) : Out :=
  s.issueGate .tlm [a] fun s =>
    let x := s.me
    if reqBad (x.val a) then s.illegal
    else if x.poisoned a then s.poisonFault a
    else s.issueCmd .tlm t (plainArg i [x.val a]) id
def execAcfr (a t : Nat) (s : State) : Out := s.issueBanks a t (.acfr a t)
def execAczr (a t : Nat) (s : State) : Out := s.issueBanks a t (.aczr a t)

/-- A tile that an M command will write: the end of a drain, room in its ring (R198). -/
def State.claimTile (s : State) (d : Nat) (k : Option (Nat × Nat) → Out) : Out :=
  match s.writeBar [d] with
  | .ends n => s.raise 0x0F 0 (BitVec.ofNat 64 n)
  | .waits => s.stall
  | _ => k (s.streamTile d)
def execAcdr (d t h cas : Nat) (rec : Option Shape4) (s : State) : Out :=
  s.issueGate .tlm (operandScalars h rec) fun s =>
    if s.me.bindWaits s.cur.rank [d] then s.stall
    else if s.streamMisuse [] [d] || bsBad rec then s.illegal
    else
      s.recordThen h rec (fun _ => false)
        (fun p => (if acdrLimits p then [] else [.illegal]) ++ (if s.drainTagBad [d] 0x01 then [.format] else [])) fun p =>
        s.claimTile d fun n => s.issueCmd .tlm t { patArg (.acdr d t h cas rec) [] [p] with strm := n } id

/-! ### Serving -/

/-- What serving one repetition of a command comes to: it waits, it fails, or it is done with a token status. -/
inductive Served where
  | waits
  | fails (e : EngErr) (s : State)
  | done (status : Nat) (s : State)

/-- KMSTAT bits (R231). -/
def msUnalloc : Nat := 1
def msUnheld : Nat := 2
def msWbuf : Nat := 4
def Core.orMstat (x : Core) (b : Nat) : Core := x.setK fun k => { k with kmstat := k.kmstat ||| BitVec.ofNat 64 b }

/-- The line of n bytes at a PA that is marked, as the address of a run's byte in it. -/
def badLineAddr (r : Run) : W64 := BitVec.ofInt 64 (r.lo / 64 * 64)
/-- The runs of row k of a weight pattern: its blocks with their scales, or its columns as one run (R78, R220). -/
def Pattern.rowRuns (p : Pattern) (k : Nat) : List Run :=
  let o : Int := k * p.st1
  if isBlock p.tag then (List.range (p.e0 / 32)).flatMap fun b => p.unitRuns (o + (32 * b : Nat))
  else [⟨(p.codeAt o).1, p.e0 * p.bits / 8⟩]
/-- A code of a row from the bytes of its unit runs. -/
def Pattern.rowCode (p : Pattern) (k j : Nat) (rd : Run → List Byte) : Nat :=
  let o : Int := k * p.st1 + j
  leNat (rd ⟨(p.codeAt o).1, p.codeBytes o⟩) / 2 ^ (p.codeAt o).2 % 2 ^ p.bits
/-- The scale bytes of a row's blocks. -/
def Pattern.rowSide (p : Pattern) (k : Nat) (rd : Run → List Byte) : List Byte :=
  if isBlock p.tag then (List.range (p.e0 / 32)).flatMap fun b =>
    rd ⟨(p.scaleAt (k * p.st1 + (32 * b : Nat))).1, (p.scaleAt (k * p.st1 + (32 * b : Nat))).2⟩
  else []
/-- The bytes of a run that has been located, zero where it cannot be. -/
def State.runBytes (s : State) (d : Nat) (x : Core) (r : Run) : List Byte :=
  match s.locateRuns d x .read [r] with
  | .ok ps => (s.readPieces d (s.keyOf d x.ctx.tenant) ps).1
  | .error _ => List.replicate r.n 0
/-- Runs checked for reading (R220): located in order, then their first marked line; `v` is the machine as the command reads it
(R359). -/
def State.readable (s v : State) (d : Nat) (x : Core) (rs : List Run) : Except EngErr (List Piece) :=
  match s.locateRuns d x .read rs with
  | .error e => .error e
  | .ok ps =>
    let lines := rs.flatMap fun r => Run.pieces (r.n / 4096 + 2) r.lo r.n
    match (lines.zip ps).find? fun p => (v.readPiece d (s.keyOf d x.ctx.tenant) p.2).2 with
    | some (r, p) =>
      let off := ((List.range p.n).find? fun i =>
        (v.readPiece d 0 ⟨p.loc.after i, 1⟩).2).getD 0
      .error ⟨8, badLineAddr ⟨r.lo + (off : Nat), 1⟩, 0⟩
    | none => .ok ps
/-- The rows of a weight pattern as a buffer stores them. -/
def State.weightRows (s : State) (d : Nat) (x : Core) (p : Pattern) : List WRow :=
  (List.range p.e1).map fun k =>
    ⟨(List.range p.e0).map fun j => p.rowCode k j (s.runBytes d x), p.rowSide k (s.runBytes d x)⟩
/-- The valid entries of a duplication map (R221). -/
def dupEntries (k : Nat) (bs : List Byte) : List (Nat × Nat) :=
  ((List.range 64).map fun i => leAt bs (4 * i) 4).filterMap fun e =>
    if e.testBit 31 && bitField e 30 27 == 0 && bitField e 15 11 == 0 && decide (bitField e 26 16 < k ∧ bitField e 10 0 < k)
    then some (bitField e 26 16, bitField e 10 0) else none

/-- `mmw` at its cascade (R217, R220, R221): a single step. The weights of the confluence's last pass are held no longer (R291);
the hot rows of a split slot, which stand in the front buffer, are (R324). -/
def State.serveMmw (s : State) (d c cas : Nat) (k : Cmd) (dup : Bool) (p : Pattern) : Served :=
  let x := s.core d c
  let v := s.released d k.rel
  let map : Run := ⟨(p.base : Int) - 256, 256⟩
  let rs := ((List.range p.e1).flatMap p.rowRuns) ++ (if dup then [map] else [])
  match s.readable v d x rs with
  | .error e => .fails e s
  | .ok ps =>
    let w : WBuf := ⟨p.tag, p.e0, x.ctx.tenant, x.k.kslot.toNat,
      if dup then dupEntries (classK ((tagClass p.tag).getD 16)) (v.runBytes d x map) else [], v.weightRows d x p⟩
    .done 0 (((joinPieces ps).foldl (fun s q => s.touchPiece (48 + cas) d .plain q) s).updCasc d cas fun y =>
      { y with back := w, conf := none })

/-- The front buffer as an `mma` of a tenant and weight tag reads it (R218). -/
def Cascade.usable (y : Cascade) (tenant tag : Nat) : Bool :=
  y.front.tag != 0 && y.front.tag == tag && y.front.tenant == tenant
/-- The accumulators of a row's n columns at position p. -/
def Cascade.accs (y : Cascade) (n p0 p : Nat) : List Nat :=
  ((y.row (bankOf n p0 p 0) (p % 16) ++ (if n ≤ 512 then [] else y.row (bankOf n p0 p 1) (p % 16))).take n).map (·.toNat)
/-- One activation row (R222): its results written where their bank is held; the cascade, KVSTAT and KMSTAT bits. -/
def Cascade.mmaRow (y : Cascade) (core : Nat) (x : Core) (ftz : Bool) (bk : Codebook) (p : Pattern) (rho : Nat)
    (row : List Act) : Cascade × Nat × Nat :=
  let pos := p.e3 - 1 + rho
  let accs := y.accs p.e2 (p.e3 - 1) pos
  let ok := y.usable x.ctx.tenant p.tag
  let r := if ok then y.front.mulRow bk ftz p.st1.toNat row accs else zeroRow ftz row accs
  let vals := r.1.map (BitVec.ofNat 32)
  let put := fun (a : Cascade × Nat) (half : Nat) =>
    let b := bankOf p.e2 (p.e3 - 1) pos half
    let l := (vals.drop (512 * half)).take 512
    if l.isEmpty then a
    else if y.holds core x b then (a.1.putRow b (pos % 16) l, a.2)
    else (a.1, a.2 ||| msUnheld)
  let w := [0, 1].foldl put (y, if ok then 0 else msWbuf)
  (w.1, r.2, w.2)
/-- The rows of an `mma` in order. -/
def Cascade.mmaRows (y : Cascade) (core : Nat) (x : Core) (ftz : Bool) (bk : Codebook) (p : Pattern) (acts : List Act) :
    Cascade × Nat × Nat :=
  (List.range p.e1).foldl (fun a rho =>
    let r := a.1.mmaRow core x ftz bk p rho ((acts.drop (rho * p.e0)).take p.e0)
    (r.1, a.2.1 ||| r.2.1, a.2.2 ||| r.2.2)) (y, 0, 0)
/-- `mma` at its cascade (R217, R222): the exchange, then its rows. -/
def State.serveMma (s : State) (d c cas : Nat) (sw ftz : Bool) (dir : Dir) (a : CmdArg) (p : Pattern) (t : Tile) : State :=
  let x := s.core d c
  let y := s.casc d cas
  let y1 := if sw then { y with front := y.back, back := y.front, conf := none, split := none } else y
  let r := y1.mmaRows c x ftz (a.book p.tag) p (t.acts dir (a.book t.tag) ftz)
  (s.updCasc d cas fun _ => r.1).updCore d c fun x => (x.orStat r.2.1).orMstat r.2.2

/-- The launch record of a core's context (R373, R378). -/
def State.recOf (s : State) (x : Core) : Option LaunchRec := s.recs.find? fun r => r.pkg == x.ctx.recPkg && r.num == x.k.klrec.toNat
/-- BANKS of the context's kernel (R430). -/
def State.bankLimit (s : State) (x : Core) : Nat := (s.recOf x).elim 128 fun r => leAt r.kernel 26 1
/-- The banks a context of a die holds by allocation. -/
def State.banksHeld (s : State) (d : Nat) (x : Core) : Nat :=
  ((s.die d).cascs.map fun y => (y.banks.filter fun b => b.slot == x.k.kslot.toNat && b.tenant == x.ctx.tenant).length).sum
/-- Banks 64 to 127 are the confluence's (R292); a held or reserved bank cannot be allocated. -/
def Cascade.bankTaken (y : Cascade) (b : Nat) : Bool := decide (64 ≤ b) || y.banks.any fun k => k.idx == b
/-- `acal` (R227). -/
def State.serveAcal (s : State) (d c : Nat) (req mask : W64) : Served :=
  let x := s.core d c
  let bs := reqBanks req
  if bs.any (s.casc d (reqCas req)).bankTaken || decide (s.bankLimit x < s.banksHeld d x + bs.length) then .done 0x20 s
  else
    .done 0 (s.updCasc d (reqCas req) fun y =>
      bs.foldl (fun y b =>
        { y.clearBank b with banks := ⟨b, x.k.kslot.toNat, x.ctx.tenant, BitVec.ofNat 32 mask.toNat⟩ :: y.banks }) y)
/-- `acfr` and `aczr` (R228): the named banks held for the core freed or zeroed. -/
def State.serveBanks (s : State) (d c : Nat) (req : W64) (free : Bool) : Served :=
  let x := s.core d c
  let y := s.casc d (reqCas req)
  let mine := (reqBanks req).filter (y.holds c x)
  let s1 := s.updCasc d (reqCas req) fun y =>
    if free then { y with banks := y.banks.filter fun b => !mine.contains b.idx } else mine.foldl Cascade.clearBank y
  .done 0 (s1.updCore d c fun x => x.orMstat (if mine.length < reqCount req then msUnheld else 0))

/-- Element e of what an `acdr` drains (R230). -/
def Cascade.drainElem (y : Cascade) (core : Nat) (x : Core) (p : Pattern) (e : Nat) : ERes :=
  let i := e / 64
  let j := e % 64
  if i < p.e1 ∧ j < p.e0 then
    let pos := p.e3 - 1 + i
    if y.holds core x (pos / 16) then .ok (((y.row (pos / 16) (pos % 16))[p.e2 - 1 + j]?).getD 0) else .bad
  else .ok 0
/-- An origin record written for a command's group (R131). -/
def Cmd.origin (k : Cmd) (cause : Nat) : W64 :=
  BitVec.ofNat 64 (cause * 2 ^ 56 + k.addr % 2 ^ 56 / 32 * 32 + k.lane * 4 + 1)
/-- The tile of a command put into the drain it was numbered in (R198). -/
def Core.drainTile (x : Core) (t rank n : Nat) (tile : Tile) : Core :=
  x.updBinding t rank fun b => some { b with ring := b.ring ++ [⟨n, tile, []⟩] }
/-- Whether a drain has no room for a tile, or a save none for another record (R198, R274). -/
def Core.drainFull (x : Core) (t rank : Nat) : Bool :=
  decide (2 ≤ (((x.bindingAt t rank).map (·.ring.length)).getD 0)) || x.vFull 1
/-- `acdr` at its cascade (R225, R230): it waits for its tile, for room in a drain's ring; poison into a drain parks it. -/
def State.serveAcdr (s : State) (d c cas : Nat) (k : Cmd) (v : Nat) (a : CmdArg) (p : Pattern) : Served :=
  let x := s.core d c
  let l := (List.range 1024).map ((s.casc d cas).drainElem c x p)
  let bad := l.any (·.poison)
  let tile := tileOf .r 0x01 noSide (if bad then k.origin 0x20 else 0) l
  let flag := fun (x : Core) => x.orMstat (if bad then msUnalloc else 0)
  if x.mWriteWaits k.rank [v] then .waits
  else
    match a.strm with
    | none => .done 0 (s.updCore d c fun x => flag (x.setTile v k.rank tile))
    | some (_, n) =>
      if x.drainFull v k.rank then .waits
      else if bad then .fails ⟨8, Config.openValue 0 s.steps, 0⟩ (s.updCore d c flag)
      else .done 0 (s.updCore d c fun x => x.drainTile v k.rank n tile)

/-- One repetition of a direct command served at its cascade. -/
def State.serveRep (s : State) (d c : Nat) (k : Cmd) (a : CmdArg) : Served :=
  let ftz := k.kmode.toNat.testBit 4
  match a.instr, a.pats, a.scal with
  | .mmw _ _ cas dup _, p :: _, _ => s.serveMmw d c cas k dup p
  | .mma v _ _ cas sw _, p :: _, _ =>
    match a.tile with
    | some t => .done 0 (s.serveMma d c cas sw ftz v.dir a p t)
    | none => .done 0 s
  | .mmar v _ _ _ cas sw _, p :: _, _ =>
    .done 0 (s.serveMma d c cas sw ftz .r a p ((s.core d c).tileAt v k.rank))
  | .acdr v _ _ cas _, p :: _, _ => s.serveAcdr d c cas k v a p
  | .acal _ _ _, _, r :: m :: _ => s.serveAcal d c r m
  | .acfr _ _, _, r :: _ => s.serveBanks d c r true
  | .aczr _ _, _, r :: _ => s.serveBanks d c r false
  | _, _, _ => .done 0 s
/-- The cascade a repetition goes to. -/
def CmdArg.cascade (a : CmdArg) : Option Nat :=
  match a.instr, a.scal with
  | .mmw _ _ cas _ _, _ => some cas
  | .mma _ _ _ cas _ _, _ => some cas
  | .mmar _ _ _ _ cas _ _, _ => some cas
  | .acdr _ _ _ cas _, _ => some cas
  | .acal _ _ _, r :: _ => some (reqCas r)
  | .acfr _ _, r :: _ => some (reqCas r)
  | .aczr _ _, r :: _ => some (reqCas r)
  | _, _ => none
def Cmd.cascade (k : Cmd) : Option Nat := (k.args[k.rep]?).bind CmdArg.cascade
/-- The 64-byte requests of an `mmar`'s fetch (R349): elements of the tile's tag, as many as its rows take. -/
def CmdArg.fetches (a : CmdArg) : Nat :=
  match a.instr, a.pats, a.scal with
  | .mmar .., p :: _, _ :: _ :: tag :: _ => (p.e1 * p.e0 * tagWidth tag.toNat + 511) / 512
  | _, _, _ => 0
/-- Whether a command is an `mmar` that still fetches. -/
def Cmd.fetching (k : Cmd) : Bool := (k.args[k.rep]?).elim false fun a => decide (k.mpc < a.fetches)
/-- The repetitions of a command at one cascade, served one after another from its next on; `st` is the status of those
before (log 22: the first refusal's). A repetition that waits leaves the command there. -/
def State.serveReps : Nat → State → Nat → Nat → Cmd → Nat → Nat → State
  | 0, s, _, _, _, _, _ => s
  | f + 1, s, d, c, k, cas, st =>
    match k.args[k.rep]? with
    | none => s.updCmd d c .tlm k.num fun k => k.finish st
    | some a =>
      if a.cascade ≠ some cas ∨ k.st ≠ .waiting ∨ k.fetching then s
      else
        match s.serveRep d c k a with
        | .waits => s
        | .fails e t => t.updCmd d c .tlm k.num fun k => k.fail e
        | .done r t =>
          let st1 := if st = 0 then r else st
          let k1 := { k with rep := k.rep + 1, mpc := 0, extra := if st1 = 0 then [] else [st1] }
          (t.updCmd d c .tlm k.num fun _ => if k1.rep < k1.args.length then k1 else { k with extra := [] }.finish st1).serveReps f d c k1 cas st1

/-- The command of a core that waits for cascade `cas` (R232): the earliest issued of those that go there. -/
def Core.cascadeWaiting (x : Core) (cas : Nat) : Option Cmd :=
  (x.fl.cmds.find? fun k => k.tl == .tlm && k.cascade == some cas && !k.over).bind fun k =>
    if k.st = .waiting && !k.fetching && !x.ctl.frozen && x.ctl.run == .running then some k else none
/-- Whether a command of a core is a split multiply whose hot half has still to pass through cascade `cas` (R324). -/
def Die.hotAhead (y : Die) (c cas : Nat) (k : Cmd) : Bool :=
  k.tl == .tln && !k.over && (List.range k.args.length).any fun j =>
    decide (k.rep ≤ j) && (match ((k.args[j]?).getD (plainArg .nop [])).instr with
    | .spmv _ _ _ cas' _ => cas' == cas
    | _ => false) && !(j == k.rep && y.swork.any fun w => w.core == c && w.num == k.num && w.half.isSome)
/-- Whether a command could be served now (R225, R393): its slot, its place behind the hot passes of its core that were
issued before it (R232), and the tile it writes. -/
def State.cascadeReady (s : State) (d cas : Nat) (c : Nat) : Bool :=
  match (s.core d c).cascadeWaiting cas with
  | none => false
  | some k =>
    ((s.die d).slotOwner cas).elim true (fun t => t == (s.core d c).ctx.tenant) &&
      !((s.core d c).fl.cmds.any fun j => decide (j.rank < k.rank) && (s.die d).hotAhead c cas j) &&
      match (k.args[k.rep]?).map (s.serveRep d c k) with
      | some .waits => false
      | _ => true
/-- The cores with a command that could be served. -/
def State.cascadeCores (s : State) (d cas : Nat) : List Nat :=
  (List.range (s.die d).cores.length).filter (s.cascadeReady d cas)
/-- The cycle in which the command of a core reached the matrix path. -/
def State.cascadeCyc (s : State) (d cas c : Nat) : Nat := (((s.core d c).cascadeWaiting cas).map (·.cyc)).getD 0
/-- The core whose command arrives first (R232; log 23): of those that reached the path in one cycle the lowest (R385). -/
def State.cascadePick (s : State) (d cas : Nat) : Option Nat :=
  let l := s.cascadeCores d cas
  let first := l.filter fun c => !l.any fun b => decide (b < c) && s.cascadeCyc d cas b == s.cascadeCyc d cas c
  first[Config.pick d s.steps first.length % first.length]?
/-- A direct command served. -/
def State.serveDirect (s : State) (d cas : Nat) : State :=
  match s.cascadePick d cas with
  | none => s
  | some c =>
    match (s.core d c).cascadeWaiting cas with
    | none => s
    | some k => s.serveReps (k.args.length + 1) d c k cas (k.extra.headD 0)

end Sys2Proof.Machine
end

