-- ==== Sys2Proof/Machine/Confluence.lean ====
section
/-!
DEFINITION. Sys2Proof/Machine/Confluence.lean: the confluence (R281 to R298): task records, `task`, `tfwd` and `taskst`, the
task table, the forming and running of passes, the epilogue unit (R234, R235), the scatter, parking and resumption.
-/
namespace Sys2Proof.Machine
open Sys2Proof

/-! ### Task records (R281 to R283) -/

/-- A task record as read at issue. -/
structure TaskRec where
  hash : Nat
  wid  : Nat
  res  : Nat
  rstr : Int
  cls  : Nat
  otag : Nat
  pat  : Nat
  m    : Nat
  peer : Nat
  deriving DecidableEq, Repr

/-- The record of a 64-byte slot (R281): the checks of R48 are those of its valid and generation bits and its zero bytes. -/
def taskOfBytes (h : Nat) (bs : List Byte) : Except Bad TaskRec :=
  let gv := leAt bs 30 2
  let bad := fun (sub : Nat) => Bad.fault 0x04 sub (BitVec.ofNat 64 h)
  if !gv.testBit 15 then .error (bad 2)
  else if gv % 4096 ≠ h % 4096 then .error (bad 3)
  else if bitField gv 14 12 != 0 || leAt bs 35 1 != 0 || leNat (bs.drop 38) != 0 then .error (bad 4)
  else .ok ⟨leAt bs 0 8, leAt bs 8 8, leAt bs 16 8, sextField 32 (leAt bs 24 4), leAt bs 28 1, leAt bs 29 1, leAt bs 32 2,
            leAt bs 34 1, leAt bs 36 2⟩
/-- Nonzero zero fields of an inline record. -/
def taskWordsBad (r : Shape4) : Bool :=
  bitField r.w1 23 12 != 0 || bitField r.w2 31 30 != 0 || bitField r.w2 23 22 != 0 || bitField r.w2 15 14 != 0 ||
  bitField r.w2 7 6 != 0 || r.w3 != 0
def taskOfWords (x : Core) (r : Shape4) : TaskRec :=
  let v := fun (i : Nat) => (x.val (((taskRegs r)[i]?).getD 0)).toNat
  ⟨v 0, v 1, v 2, sextField 32 (v 3 % 2 ^ 32), bitField r.w0 15 8, bitField r.w0 7 0, bitField r.w0 31 16, bitField r.w1 31 24,
   bitField r.w1 11 0⟩
/-- The tags a task's output may have (R281). -/
def isOtag (t : Nat) : Bool :=
  decide (1 ≤ t ∧ t ≤ 5) || decide (0x20 ≤ t ∧ t ≤ 0x22) || decide (0x28 ≤ t ∧ t ≤ 0x2A) || decide (0x08 ≤ t ∧ t ≤ 0x0A) ||
  decide (0x10 ≤ t ∧ t ≤ 0x12)
/-- The limits of R281 to R283. -/
def TaskRec.legal (r : TaskRec) (fwd : Bool) : Bool :=
  bitField r.hash 7 5 == 0 && decide (bitField r.hash 4 2 ≤ 4) && decide (r.res < 2 ^ 56 ∧ r.res % 64 = 0 ∧ r.rstr % 64 = 0) &&
  decide (r.cls < 32 ∧ 1 ≤ r.m ∧ r.m ≤ 16 ∧ r.peer < 4096) && isOtag r.otag && (fwd || r.peer == 0)
/-- The capacity of a class (R283). -/
def classRows (cls : Nat) : Nat := 16 * (cls % 32 + 1)

/-! ### The weight directory as the confluence reads it (R284, R350) -/

def DirEntry.wid (e : DirEntry) : Nat := leAt e.bytes 0 8
def DirEntry.base (e : DirEntry) : Nat := leAt e.bytes 8 7
def DirEntry.k (e : DirEntry) : Nat := leAt e.bytes 16 2
def DirEntry.n (e : DirEntry) : Nat := leAt e.bytes 18 2
def DirEntry.stride (e : DirEntry) : Nat := leAt e.bytes 20 4
def DirEntry.tag (e : DirEntry) : Nat := leAt e.bytes 24 1
def DirEntry.pub (e : DirEntry) : Nat := leAt e.bytes 25 1
def DirEntry.valid (e : DirEntry) : Bool := (leAt e.bytes 26 1).testBit 0
def DirEntry.sigma (e : DirEntry) : Nat := leAt e.bytes 28 4
def DirEntry.bias (e : DirEntry) : Nat := leAt e.bytes 32 8
def DirEntry.grants (e : DirEntry) : List Nat := (List.range 8).map fun i => leAt e.bytes (40 + 2 * i) 2
/-- 0xFFFF marks an unused place. -/
def DirEntry.granted (e : DirEntry) (tenant : Nat) : Bool := decide (tenant ≠ 0xFFFF) && e.grants.contains tenant
/-- The advertised entry of an identity. -/
def Die.advertised (y : Die) (wid : Nat) : Option DirEntry := y.wdir.find? fun e => e.valid && e.wid == wid
/-- SEQ (R350). -/
def DirEntry.seq (e : DirEntry) : Nat := leAt e.bytes 56 8
/-- An entry withdrawn: VALID clear, SEQ moved on by the two increments of a rewrite. -/
def DirEntry.withdrawn (e : DirEntry) : DirEntry :=
  { e with bytes := e.bytes.take 26 ++ [0] ++ (e.bytes.drop 27).take 29 ++ leBytes 8 ((e.seq + 2) % 2 ^ 64) }
def Die.withdrawEntry (y : Die) (p : DirEntry → Bool) : Die :=
  { y with wdir := y.wdir.map fun e => if e.valid && p e then e.withdrawn else e }
/-- The weight pattern of an entry (R284): interleaved for MX tags, plain otherwise. -/
def DirEntry.pattern (e : DirEntry) : Pattern :=
  ⟨e.n, e.k, 1, 1, e.stride, 0, 0, e.tag, if (mxFmt e.tag).isSome then 1 else 0, e.base, false⟩
/-- Bytes of K × N weights under R78. -/
def weightBytes (tag k n : Nat) : Nat :=
  match lxM tag with
  | some m => k * n / 32 * lxBytes m
  | none => if isBlock tag then k * n / 32 * (4 * tagWidth tag + 1) else k * n * tagWidth tag / 8
/-- Lw (R291). -/
def DirEntry.lw (e : DirEntry) : Nat := (weightBytes e.tag e.k e.n + 511) / 512

/-! ### Issue (R285, R286, R297) -/

/-- The patience a task takes (R396, R442): PAT, capped on a lent core and in latency mode. -/
def pointMHz (p : Nat) : Nat := if p = 0 then 1600 else if p = 1 then 1300 else 1000
def pointTp (p : Nat) : Nat := if p = 0 then 4000 else if p = 1 then 4924 else 6400
def lendCap (y : Die) (l : Lend) : Nat :=
  min 65535 ((l.dl - pointTp (max y.power.core y.power.casc)) * pointMHz y.power.casc / 1000)
def Die.patience (y : Die) (c pat : Nat) : Nat :=
  let p := match y.lends[c]? with
    | some l => if l.lent then min pat (lendCap y l) else pat
    | none => pat
  if y.power.mode = 1 then min p y.power.patcap else p

/-- What the directory checks of R285 come to. -/
inductive TaskCheck where
  | refused
  | bad (b : Bad)
  | ok
  deriving DecidableEq, Repr
def TaskCheck.bads : TaskCheck → List Bad
  | .bad b => [b]
  | _ => []
def checkTask (y : Die) (tenant : Nat) (r : TaskRec) (tag : Nat) (dir : Dir) : TaskCheck :=
  match y.advertised r.wid with
  | none => .refused
  | some e =>
    if (cbTable tag).isSome || tagClass tag != tagClass e.tag || (isBlock tag && dir != .r) then .bad .format
    else if decide (1024 < r.m * e.k) || (isBlock tag && e.k % 32 != 0) || (isBlock r.otag && e.n % 32 != 0) then .bad .illegal
    else if !e.granted tenant then .refused
    else .ok
/-- A captured task: its record as scalars, the die it runs on, a refusal's token status, 0 for none, and the spout tile it
takes. -/
def taskArg (i : Instr) (r : TaskRec) (pat dd refusal : Nat) (tile : Option Tile) (strm : Option (Nat × Nat)) : CmdArg :=
  ⟨i, [BitVec.ofNat 64 r.hash, BitVec.ofNat 64 r.wid, BitVec.ofNat 64 r.res, BitVec.ofInt 64 r.rstr, BitVec.ofNat 64 r.cls,
    BitVec.ofNat 64 r.otag, BitVec.ofNat 64 pat, BitVec.ofNat 64 r.m, BitVec.ofNat 64 dd, BitVec.ofNat 64 refusal],
   [], tile, strm, [], []⟩
def CmdArg.word (a : CmdArg) (i : Nat) : Nat := ((a.scal[i]?).getD 0).toNat
def CmdArg.refusal (a : CmdArg) : Nat := a.word 9
def CmdArg.isTask (a : CmdArg) : Bool :=
  match a.instr with
  | .task .. => true
  | .tfwd .. => true
  | _ => false
def CmdArg.dir (a : CmdArg) : Dir :=
  match a.instr with
  | .task v _ _ _ => v.dir
  | .tfwd v _ _ _ => v.dir
  | _ => .r
def CmdArg.forwards (a : CmdArg) : Bool :=
  match a.instr with
  | .tfwd .. => true
  | _ => false
/-- The task of repetition `rep` of a command, for die dd. Its deadline field holds its patience until it arrives. -/
def taskOf (d c : Nat) (x : Core) (k : Cmd) (a : CmdArg) (patience : Nat) : Task :=
  ⟨d, c, k.num, k.rep, x.ctx.tenant, if a.forwards then 254 else x.k.kslot.toNat, a.word 0, a.word 1, a.word 4, a.word 2,
   ((a.scal[3]?).getD 0).toInt, a.word 5, a.word 7, k.kmode, a.tile.getD (Tile.zero 0), a.dir, 0, patience, false, 0, k.mpc, none⟩

/-- The order of arrivals of one cycle (R289): the die's own tasks by core, then forwarded ones by peer and core. -/
def State.arrivalKey (s : State) (t : Task) : Nat :=
  (if t.tag = 254 then 4096 * 64 + s.peerNo t.die * 64 else 0) + t.core
def State.insertTask (s : State) (t : Task) : List Task → List Task
  | [] => [t]
  | u :: us => if u.arr = t.arr ∧ s.arrivalKey t < s.arrivalKey u then t :: u :: us else u :: s.insertTask t us
/-- A task arrives in the table of die dd (R289). -/
def State.arrive (s : State) (dd : Nat) (t : Task) : State :=
  s.updDie dd fun y =>
    { y with tasks := s.insertTask { t with arr := y.seqr.cyc, dead := y.seqr.cyc + t.dead, seq := y.taskNo, pass := none } y.tasks
             taskNo := y.taskNo + 1 }
/-- Tasks of a die not yet committed. -/
def Die.waitingTasks (y : Die) : List Task := y.tasks.filter fun t => t.pass.isNone
def Die.tableFull (y : Die) : Bool := decide (1024 ≤ y.waitingTasks.length)

/-- A request put into the fabric. -/
def State.send (s : State) (q : Req) (dst : Nat) (mid : Option Nat) : State :=
  { s with flits := s.flits ++ [⟨{ q with seq := s.reqNo, home := dst }, none, q.die, dst, mid, [], []⟩], reqNo := s.reqNo + 1 }
/-- A response put into the fabric at its home. -/
def State.answer (s : State) (q : Req) (r : RRes) (home : Nat) (mid : Option Nat) : State :=
  { s with flits := s.flits ++ [⟨q, some r, home, q.die, mid, [], []⟩] }

/-- The request that carries a forwarded task (R297). -/
def Task.req (t : Task) (slot : Nat) (rel : List (Nat × Nat)) : Req :=
  ⟨t.die, t.core, slot, t.tenant, .tlm, t.num, t.rep, 0, 0, .ord, 0, 0, .rows t, rel⟩
/-- A repetition of a task command has ended with a token status: the next repetition, or the end of the command. -/
def Cmd.taskEnd (k : Cmd) (status : Nat) : Cmd :=
  let st := if k.carry = 0 then status else k.carry
  if k.rep + 1 < k.args.length then { k with rep := k.rep + 1, mpc := 0, st := .waiting, extra := [st] }
  else { k with extra := [] }.finish st
/-- Whether a command is a task that waits to enter a table. -/
def Cmd.entersTable (k : Cmd) : Bool := k.tl == .tlm && k.st == .waiting && (k.args[k.rep]?).elim false CmdArg.isTask
/-- One waiting task command enters its table, sends its rows, or ends its refused repetition (R285, R286, R297). -/
def State.enterCmd (s : State) (d c : Nat) (k : Cmd) : State :=
  match k.args[k.rep]? with
  | none => s
  | some a =>
    if a.refusal ≠ 0 then s.updCmd d c .tlm k.num fun k => k.taskEnd a.refusal
    else
      let t := taskOf d c (s.core d c) k a ((k.extra[1]?).getD (a.word 6))
      let going := fun (s : State) => s.updCmd d c .tlm k.num fun k => { k with st := .running }
      if a.forwards then
        going (s.send (t.req (s.core d c).k.kslot.toNat k.rel) (a.word 8) none)
      else if (s.die d).tableFull then s
      else going (s.arrive d t)
/-- The waiting task commands of a core that runs enter in order: as often as there are repetitions to pass over. -/
def State.letIn : Nat → State → Nat → Nat → State
  | 0, s, _, _ => s
  | f + 1, s, d, c =>
    if (s.core d c).ctl.frozen then s
    else (((s.core d c).fl.cmds.filter Cmd.entersTable).foldl (fun s k => s.enterCmd d c k) s).letIn f d c
def State.admitAll (s : State) (d : Nat) : State :=
  (List.range (s.die d).cores.length).foldl (fun s c => s.letIn 64 d c) s
/-- Whether a withdrawn task of the die waits to re-enter, ahead of every task in an M queue (R296). -/
def State.entrantsWait (s : State) (d : Nat) : Bool :=
  (s.die d).cores.any fun x => !x.ctl.frozen && x.fl.cmds.any Cmd.entersTable

/-- The record under R45. -/
def State.taskRecord (s : State) (h : Nat) (rec : Option Shape4) : Except Bad TaskRec :=
  match rec with
  | none =>
    match s.handleBytes (s.me.val h) with
    | .error e => .error e
    | .ok bs => taskOfBytes (s.me.val h).toNat bs
  | some r => if taskWordsBad r then .error .illegal else .ok (taskOfWords s.me r)
/-- The die a task runs on: its own, or the peer of a `tfwd` (R297). -/
def State.taskDie (s : State) (r : TaskRec) (fwd : Bool) : Except Bad Nat :=
  if fwd then
    match s.peer s.cur.die s.me r.peer with
    | .error sub => .error (.fault 0x06 sub (BitVec.ofNat 64 r.peer))
    | .ok p => .ok (s.dieOfPeer p)
  else .ok s.cur.die
/-- A task command captured; with its last repetition it enters (R286). -/
def State.issueTask (s : State) (t : Nat) (a : CmdArg) : Out :=
  match s.issueCmd .tlm t a id with
  | .next u => if s.cur.rep + 1 < s.cur.reps then .next u else .next (u.letIn 64 s.cur.die s.cur.core)
  | o => o
/-- `task` and `tfwd` at the M head: the faults of the record, of the peer, of R285 and of poisoned scalars, the first in the
order of R260. A refused one takes its spout tile unread. -/
def State.taskIssue (s : State) (i : Instr) (a : TOp) (t h : Nat) (fwd : Bool) (rec : Option Shape4) : Out :=
  s.issueGate .tlm (taskScalars h rec) fun s =>
    let x := s.me
    if x.bindWaits s.cur.rank [a.v] || x.mReadWaits s.cur.rank [a.v] then s.stall
    else if s.streamMisuse [a.v] [] || !modeMatches x rec then s.illegal
    else
      let poison := poisonBads x (taskScalars h rec)
      match s.taskRecord h rec with
      | .error b => s.raiseBad ((worstOf (b :: poison)).getD b)
      | .ok r =>
        let legal := if r.legal fwd then [] else [.illegal]
        match s.taskDie r fwd with
        | .error b => s.raiseBad ((worstOf (legal ++ b :: poison)).getD b)
        | .ok dd =>
          if !fwd && ((s.die dd).tableFull || s.entrantsWait dd) then s.stall
          else
            let pat := s.myDie.patience s.cur.core r.pat
            let check := checkTask (s.die dd) x.ctx.tenant r (s.readTile a.v).tag a.dir
            match worstOf (legal ++ check.bads ++ poison) with
            | some b => s.raiseBad b
            | none =>
              if check = .refused then
                s.issueTask t (taskArg i r pat dd (if fwd && ((s.die dd).advertised r.wid).isNone then 0x23 else 0x22) none (s.streamTile a.v))
              else s.captureTile a.v fun tile n => s.issueTask t (taskArg i r pat dd 0 (some tile) n)
def execTask (a : TOp) (t h : Nat) (rec : Option Shape4) (s : State) : Out := s.taskIssue (.task a t h rec) a t h false rec
def execTfwd (a : TOp) (t h : Nat) (rec : Option Shape4) (s : State) : Out := s.taskIssue (.tfwd a t h rec) a t h true rec

/-- The tasks of a core on its die. -/
def Die.tasksOf (y : Die) (d c : Nat) : List Task := y.tasks.filter fun t => t.die == d && t.core == c
/-- The word of `taskst` (R288). -/
def Die.taskWord (y : Die) (d c : Nat) : W64 :=
  let mine := (y.tasksOf d c).map (·.seq)
  let park := (y.cascs.map fun k => (k.rows.filter fun r => r.isParked && mine.contains r.task).length).sum
  let wait := ((y.tasksOf d c).filter fun t => t.pass.isNone).length
  BitVec.ofNat 64 (park % 65536 * 2 ^ 32 + wait % 65536 * 2 ^ 16 + (1024 - y.waitingTasks.length))
/-- KICK (R288). -/
def Die.kick (y : Die) (d c : Nat) : Die :=
  { y with tasks := y.tasks.map fun t =>
      if t.die == d && t.core == c && t.pass.isNone then { t with dead := y.seqr.cyc } else t }
/-- `taskst` (R288): a nonzero s[a][63:1] is illegal before a poisoned s[a] is looked at (R260). -/
def execTaskst (d a : Nat) (s : State) : Out :=
  if s.cReady [d, a] then
    let v := s.me.val a
    if fieldOf v 63 1 != 0 then s.illegal
    else if s.me.poisoned a then s.poisonFault a
    else
      let s1 := if bitOf v 0 then s.updMyDie fun y => y.kick s.cur.die s.cur.core else s
      s1.resultLater d (s1.myDie.taskWord s.cur.die s.cur.core) false 8
  else s.stall

/-! ### Groups and passes (R289, R290) -/

def Task.sameGroup (t u : Task) : Bool := t.hash == u.hash && t.wid == u.wid && t.cls == u.cls
def Die.groupOf (y : Die) (t : Task) : List Task := y.waitingTasks.filter t.sameGroup
/-- The heads of the groups, in order of arrival. -/
def Die.heads (y : Die) : List Task :=
  y.waitingTasks.filter fun t => ((y.groupOf t).head?.map (·.seq)) == some t.seq
/-- Whether a head's deadline has expired. -/
def Die.expired (y : Die) (t : Task) : Bool := t.ready || decide (t.dead ≤ y.seqr.cyc)
/-- Whether a head's group is ready (R289, R442). -/
def Die.groupReady (y : Die) (t : Task) : Bool :=
  y.expired t || (y.power.mode != 2 && decide (classRows t.cls ≤ ((y.groupOf t).map (·.m)).sum))

/-- TASK_DEADLINE: the deadline of task n of the table, the head of its group, has expired (R289). -/
def execTaskDeadline (d n : Nat) (s : State) : Out :=
  .next (s.updDie d fun y =>
    match y.tasks[n]? with
    | none => y
    | some t =>
      if (y.heads.any fun h => h.seq == t.seq) && decide (t.dead ≤ y.seqr.cyc) then
        { y with tasks := y.tasks.set n { t with ready := true } }
      else y)

/-- The first cycle a board governs whose `mtk` completed at cycle t (R392). -/
def frameAfter (t : Nat) : Nat := (t + 4096 + 4095) / 4096 * 4096
/-- The board in force at a cycle. -/
def Die.boardAt (y : Die) (cyc : Nat) : Board :=
  ((y.seqr.coming.filter fun p => decide (frameAfter p.1 ≤ cyc)).getLast?.map (·.2)).getD y.seqr.board
/-- The owner of a row's slot at a cycle (R391, R392). -/
def Die.ownerAt (y : Die) (row cyc : Nat) : Option Nat :=
  let b := y.boardAt cyc
  let t := ((b.rows[row]?).bind fun r => r[cyc / 256 % 16]?).getD 0xFFFF
  if !b.en || t == 0xFFFF then none else some t
/-- The owner of every slot that cycles u to u + b − 1 touch. -/
def Die.ownersOver (y : Die) (row u b : Nat) : List (Option Nat) :=
  (List.range ((u + b - 1) / 256 - u / 256 + 1)).map fun i => y.ownerAt row ((u / 256 + i) * 256)
/-- Whether a cascade still holds the weights of an identity (R291). -/
def Cascade.holdsWid (y : Cascade) (wid : Nat) : Bool := y.conf.elim false fun p => p.1 == wid
/-- B(g, c) (R290). -/
def Die.bound (y : Die) (k : Nat) (t : Task) : Nat :=
  1024 + (if ((y.cascs[k]?).getD .reset).holdsWid t.wid then 0 else (y.advertised t.wid).elim 0 DirEntry.lw)
/-- Whether a ready head may go now on cascade k, and whether in pool slots. -/
def Die.slotFits (y : Die) (k : Nat) (t : Task) : Bool :=
  let l := y.ownersOver k y.seqr.cyc (y.bound k t)
  l.all (· == none) || l.all (· == some t.tenant)
def Die.inPool (y : Die) (k : Nat) (t : Task) : Bool := (y.ownersOver k y.seqr.cyc (y.bound k t)).all (· == none)
/-- A cascade free for a pass (R290, R302): every row of the last one has scattered or parked. -/
def Cascade.free (y : Cascade) : Bool := y.pass.isNone
/-- The positions that count as free for a head (R290, R292). -/
def Die.freePositions (y : Die) (k : Nat) (t : Task) : List Nat :=
  let c := (y.cascs[k]?).getD .reset
  let owns := y.slotOwner k == some t.tenant
  let tenantOf := fun (n : Nat) => (y.tasks.find? fun u => u.seq == n).map (·.tenant)
  (List.range 512).filter fun p => !c.rows.any fun r => r.pos == p && !(owns && r.isParked && tenantOf r.task != some t.tenant)
/-- Tasks taken whole until the next would bring the rows above cap. -/
def takeTasks : Nat → List Task → List Task
  | _, [] => []
  | cap, t :: ts => if t.m ≤ cap then t :: takeTasks (cap - t.m) ts else []
/-- What would be committed on cascade k now: the pass's tasks and its rows' positions. -/
def Die.passFor (y : Die) (k : Nat) : Option (List Task × List Nat) :=
  if !((y.cascs[k]?).getD .reset).free then none
  else
    ((y.heads.filter fun t => y.groupReady t && y.slotFits k t).head?).bind fun h =>
      let free := y.freePositions k h
      let cap := min (classRows h.cls) free.length
      let l := takeTasks cap (y.groupOf h)
      if l.isEmpty then none else some (l, free.take ((l.map (·.m)).sum))

/-- Parked rows released (R295): the positions freed, the task kept as a parked or withdrawn one with no patience left; at once a
new arrival where its owner has resumed. -/
def State.releaseTask (s : State) (dd : Nat) (t : Task) : State :=
  let resumed := (s.die dd).cascs.any fun c => c.rows.any fun r => r.task == t.seq && r.st == .again
  let s1 := s.updDie dd fun y => y.dropTasks [t.seq]
  s1.updCmd t.die t.core .tlm t.num fun k =>
    { k with st := if resumed then .waiting
                   else match k.st with
                     | .failed st => .failed st
                     | .parked => .parked
                     | _ => .withdrawn
             extra := [k.carry, 0] }
/-- A repetition ended with a status, at the die it ran on: a forwarded one answers its source. -/
def State.endTask (s : State) (dd : Nat) (t : Task) (status : Nat) : State :=
  let s1 := s.updDie dd fun y => y.dropTasks [t.seq]
  if t.tag = 254 then
    s1.answer (t.req t.tag []) (.ended status 0) dd none
  else (s1.updCmd t.die t.core .tlm t.num fun k => k.taskEnd status).letIn 64 t.die t.core
/-- The rows of a task at their positions. -/
def rowsFor (id head : Nat) (pool : Bool) (t : Task) (pos : List Nat) : List PassRow :=
  (List.range t.m).map fun r => ⟨t.seq, r, (pos[r]?).getD 0, .waiting, id, head, pool, [], false, none⟩
def rowsAll (id head : Nat) (pool : Bool) : List Task → List Nat → List PassRow
  | [], _ => []
  | t :: ts, pos => rowsFor id head pool t pos ++ rowsAll id head pool ts (pos.drop t.m)

/-- The tasks of a pass whose grant still stands at commit, and the others (R291). -/
def Die.grantedNow (y : Die) (t : Task) : Bool := (y.advertised t.wid).elim false fun e => e.granted t.tenant
/-- A pass committed on cascade k of die d (R290 to R292). -/
def State.commitPass (s : State) (d k : Nat) (l : List Task) (pos : List Nat) : State :=
  let y := s.die d
  let ok := l.filter y.grantedNow
  let s1 := (l.filter fun t => !y.grantedNow t).foldl (fun s t => s.endTask d t 0x22) s
  match ok, l with
  | h :: _, h0 :: _ =>
    match y.advertised h.wid with
    | none => s1
    | some e =>
      let used := pos.take ((ok.map (·.m)).sum)
      let evicted := ((y.cascs[k]?).getD .reset).rows.filter fun r => used.contains r.pos
      let gone := y.tasks.filter fun t => evicted.any fun r => r.task == t.seq
      let s2 := gone.foldl (fun s t => s.releaseTask d t) s1
      let s3 := s2.updDie d fun y =>
        { y with
          tasks := y.tasks.map fun t => if ok.any fun u => u.seq == t.seq then { t with pass := some k } else t
          cascs := y.cascs.modify k fun c =>
            { c with pass := some ⟨h.seq, e.wid, e.k, e.n, h.hash, e.sigma, [], false⟩
                     rows := c.rows ++ rowsAll h.seq h0.tenant (y.inPool k h0) ok used } }
      s3.admitAll d
  | _, _ => s1.admitAll d
/-- PASS_COMMIT: the confluence commits the pass that is due on cascade k, the lower-numbered cascades coming first. -/
def execPassCommit (d k : Nat) (s : State) : Out :=
  if (List.range k).any fun j => ((s.die d).passFor j).isSome then .next s
  else
    match (s.die d).passFor k with
    | none => .next s
    | some (l, pos) => .next (s.commitPass d k l pos)

/-! ### Running a pass (R291) -/

/-- The context in whose name a slot of a die translates: the one that runs, or the saved one the die keeps (R284). -/
def Die.publisher (y : Die) (slot : Nat) : Option Core :=
  match y.cores.find? fun x => x.k.kslot.toNat == slot && x.ctl.run != .idle with
  | some x => some x
  | none => (y.held.find? fun h => h.slot == slot).map fun h =>
      { Core.reset with x := h.x, xl := h.xl, ctx := { Core.reset.ctx with tenant := h.tenant } }
/-- Why weights cannot be read. -/
inductive WeightErr where
  | denied
  | marked (addr : W64)
/-- A run of a weight region located: every page must translate with R and WGT (R291). -/
def State.weightPiece (s : State) (d : Nat) (x : Core) (r : Run) : Except WeightErr Piece :=
  match elemClass r.lo with
  | .memory va =>
    match s.translate d x levelS .read va with
    | .ok o => if o.wgt then .ok ⟨.mem o.pa o.ipa, r.n⟩ else .error .denied
    | .error _ => .error .denied
  | _ => .error .denied
/-- Runs of a weight region located, page by page. -/
def State.weightPieces (s : State) (d : Nat) (x : Core) (rs : List Run) : Except WeightErr (List (Run × Piece)) :=
  allOk ((rs.flatMap fun r => Run.pieces (r.n / 4096 + 2) r.lo r.n).map fun r => (s.weightPiece d x r).map fun p => (r, p))
def State.weightRuns (s : State) (d : Nat) (x : Core) (rs : List Run) : Except WeightErr (List Byte) :=
  match s.weightPieces d x rs with
  | .error e => .error e
  | .ok ps =>
    match ps.find? fun p => (s.readPiece d (s.keyOf d x.ctx.tenant) p.2).2 with
    | some (r, p) =>
      let off := ((List.range p.n).find? fun i => (s.readPiece d 0 ⟨p.loc.after i, 1⟩).2).getD 0
      .error (.marked (badLineAddr ⟨r.lo + (off : Nat), 1⟩))
    | none => .ok (s.readPieces d (s.keyOf d x.ctx.tenant) (ps.map (·.2))).1
/-- The bytes of a run of a region that has been checked. -/
def State.weightByte (s : State) (d : Nat) (x : Core) (r : Run) : List Byte :=
  match s.weightRuns d x [r] with
  | .ok bs => bs
  | .error _ => List.replicate r.n 0
/-- What a pass reads of an entry's region (R291): its weights, unless the cascade holds them still, and its bias where the pass
has that stage on. -/
def DirEntry.passRuns (e : DirEntry) (held biasOn : Bool) : List Run :=
  (if held then [] else (List.range e.pattern.e1).flatMap e.pattern.rowRuns) ++
  (if biasOn && e.bias != 0 then [⟨e.bias, 2 * e.n⟩] else [])
/-- The weight tile of an entry, where the pass loads it, and the bias. -/
def State.loadWeights (s : State) (d : Nat) (e : DirEntry) (held biasOn : Bool) : Except WeightErr (Option WBuf × List Nat) :=
  match (s.die d).publisher e.pub with
  | none => if (e.passRuns held biasOn).isEmpty then .ok (none, []) else .error .denied
  | some x =>
    let p := e.pattern
    match s.weightRuns d x (e.passRuns held biasOn) with
    | .error er => .error er
    | .ok _ =>
      let rows := (List.range p.e1).map fun k =>
        (⟨(List.range p.e0).map fun j => p.rowCode k j (s.weightByte d x), p.rowSide k (s.weightByte d x)⟩ : WRow)
      let b := s.weightByte d x ⟨e.bias, 2 * e.n⟩
      .ok (if held then none else some ⟨e.tag, e.n, 0, 0, [], rows⟩,
        if biasOn && e.bias != 0 then (List.range e.n).map fun j => leAt b (2 * j) 2 else [])
/-- What the load does to the memory it reads. -/
def State.touchWeights (s : State) (d k : Nat) (e : DirEntry) (held biasOn : Bool) : State :=
  match ((s.die d).publisher e.pub).map fun x => s.weightPieces d x (e.passRuns held biasOn) with
  | some (.ok ps) => (joinPieces (ps.map (·.2))).foldl (fun s p => s.touchPiece (48 + k) d .plain p) s
  | _ => s
/-- The tasks of the pass at a cascade. -/
def State.passTasks (s : State) (d k : Nat) (id : Nat) : List Task :=
  (s.die d).tasks.filter fun t => (s.casc d k).rows.any fun r => r.pass == id && r.task == t.seq
/-- Both weight buffers count as emptied for direct users (R218, R291). -/
def Cascade.emptied (y : Cascade) : Cascade := { y with front := .empty, back := .empty }
/-- A task of a failed weight load parks with status 0x08 at micro-PC 0 (R291): it leaves the table, with no patience left. -/
def State.parkWeights (s : State) (d : Nat) (addr : W64) (t : Task) : State :=
  let s1 := s.updDie d fun y => y.dropTasks [t.seq]
  if t.tag = 254 then s1.answer (t.req t.tag []) (.ended 8 addr) d none
  else s1.updCmd t.die t.core .tlm t.num fun k => { k.fail ⟨8, addr, 0⟩ with mpc := 0, extra := [k.carry, 0] }
/-- The sums at confluence position pos for n columns (R292): banks 64 and up, a pair where n exceeds 512. -/
def Cascade.sums (y : Cascade) (n pos : Nat) : List W32 :=
  (y.row (bankOf n 1024 (1024 + pos) 0) (pos % 16) ++
    (if n ≤ 512 then [] else y.row (bankOf n 1024 (1024 + pos) 1) (pos % 16))).take n
def Cascade.setSums (y : Cascade) (n pos : Nat) (l : List W32) : Cascade :=
  let z := y.putRow (bankOf n 1024 (1024 + pos) 0) (pos % 16) (l.take 512)
  if n ≤ 512 then z else z.putRow (bankOf n 1024 (1024 + pos) 1) (pos % 16) (l.drop 512)
/-- The first step of a pass (R291): its weights, unless the cascade holds them still, its bias; then its positions are +0. -/
def State.loadPass (s : State) (d k : Nat) (p : Pass) : State :=
  let done := fun (s : State) (bias : List Nat) => s.updCasc d k fun y =>
    (y.rows.filter fun r => r.pass == p.id).foldl (fun y r => y.setSums p.n r.pos (List.replicate p.n 0))
      { y.emptied with pass := some { p with loaded := true, bias := bias } }
  let held := (s.casc d k).holdsWid p.wid
  let biasOn := p.hash.testBit 1
  match (s.die d).advertised p.wid with
  | none =>
    if held && !biasOn then done s []
    else (s.passTasks d k p.id).foldl (fun s t => s.endTask d t 0x22) s
  | some e =>
    match s.loadWeights d e held biasOn with
    | .ok (w, bias) =>
      let s1 := s.touchWeights d k e held biasOn
      (match w with
       | none => done s1 bias
       | some w => done (s1.updCasc d k fun y => { y with conf := some (p.wid, w), split := none }) bias)
    | .error .denied =>
      (s.passTasks d k p.id).foldl (fun s t => s.endTask d t 0x22) (s.updDie d fun y => y.withdrawEntry fun u => u.idx == e.idx)
    | .error (.marked a) => (s.passTasks d k p.id).foldl (fun s t => s.parkWeights d a t) s

def Task.ftz (t : Task) : Bool := t.kmode.toNat.testBit 4
/-- KVSTAT bits go to a row's owner (R87, R293). -/
def State.ownerStat (s : State) (t : Task) (st : Nat) : State := s.updCore t.die t.core fun x => x.orStat st
/-- A row enters: its products with the weights, added to what its position holds, +0 (R95, R291, R292). -/
def State.enterRow (s : State) (d k : Nat) (p : Pass) (r : PassRow) : State :=
  match (s.die d).tasks.find? fun t => t.seq == r.task, (s.casc d k).conf with
  | some t, some (_, w) =>
    let acts := ((t.tile.acts t.dir ⟨false, false, []⟩ t.ftz).drop (r.rho * p.k)).take p.k
    let v := w.mulRow ⟨false, false, []⟩ t.ftz 0 acts (((s.casc d k).sums p.n r.pos).map (·.toNat))
    (s.updCasc d k fun y =>
      { y.setSums p.n r.pos (v.1.map (BitVec.ofNat 32)) with rows := y.rows.map fun q =>
          if q.task == r.task && q.rho == r.rho then { q with st := .entered } else q }).ownerStat t v.2
  | _, _ => s
/-- The next row of a pass to enter. -/
def State.nextRow (s : State) (d k : Nat) (p : Pass) : Option PassRow :=
  (s.casc d k).rows.find? fun r => r.pass == p.id && r.st == .waiting
/-- The pass at a cascade served: its weights, then its next row. -/
def State.servePass (s : State) (d k : Nat) (p : Pass) : State :=
  if !p.loaded then s.loadPass d k p
  else
    match s.nextRow d k p with
    | none => s
    | some r => s.enterRow d k p r

/-! ### The epilogue (R234, R235) -/

/-- One stage: an exact result rounded into fp32 with `rne`; with its status. -/
def stage32 (ftz : Bool) (st : Nat) (r : Num × Bool) : Nat × Nat :=
  let c := fmtFp32.cvt (cascadeMode ftz) 0 r.1
  (c.1, st ||| c.2 ||| (if r.2 then stInv else 0))
/-- The act stage of a code hash (R282). -/
def actStage (act : Nat) (ftz : Bool) (x : Nat × Nat) : Nat × Nat :=
  let special := fun (fn : SpecialFn) =>
    let r := fn.result fmtFp32 (cascadeMode ftz) 0 x.1
    (r.1, x.2 ||| r.2)
  match act with
  | 1 => ((extremeElem false (cascadeMode ftz) 0x01 (BitVec.ofNat 32 x.1) 0).toNat, x.2)
  | 2 => special .tanh
  | 3 => special .sig
  | 4 =>
    let g := special .sig
    stage32 ftz g.2 ((fmtFp32.value ftz x.1).mul (fmtFp32.value ftz g.1))
  | _ => x
/-- An input of a stage that FTZ reads as zero (R93); the flush sets UFL, as R96 says of the flushes it names (DEDUCED from R234:
FTZ follows R96). -/
def flushUfl (f : Fmt) (ftz : Bool) (code : Nat) : Nat := if f.flushed ftz code then stUfl else 0
/-- Load, scale, bias and act of column j (R234). -/
def epilogueCol (p : Pass) (ftz : Bool) (j : Nat) (acc : W32) : Nat × Nat :=
  let x0 : Nat × Nat := (fmtFp32.rne (fmtFp32.value ftz acc.toNat), flushUfl fmtFp32 ftz acc.toNat)
  let x1 := if p.hash.testBit 0 then
      stage32 ftz (x0.2 ||| flushUfl fmtFp32 ftz p.sigma) ((fmtFp32.value ftz x0.1).mul (fmtFp32.value ftz p.sigma))
    else x0
  let b := (p.bias[j]?).getD 0
  let x2 := if p.hash.testBit 1 then
      stage32 ftz (x1.2 ||| flushUfl fmtBf16 ftz b) ((fmtFp32.value ftz x1.1).add false (fmtBf16.value ftz b))
    else x1
  actStage (bitField p.hash 4 2) ftz x2
/-- The convert stage of a row: its bytes in memory (R77, R78, R293) and its status. -/
def convertRow (otag : Nat) (m : Mode) (cols : List (Nat × Nat)) (ws : List Nat) : List Byte × Nat :=
  let st := cols.foldl (fun s c => s ||| c.2) 0
  let n := cols.length
  let pat : Pattern := ⟨n, 1, 1, 1, 0, 0, 0, otag, if (mxFmt otag).isSome then 1 else 0, 0, false⟩
  let tile := fun (codes : List W32) (side : List Byte) => { Tile.zero otag with cells := codes, side := side }
  if isBlock otag then
    let q := quantise otag ⟨false, false, []⟩ m (cols.map fun c => fmtFp32.value m.ftz c.1) ws
    let t := tile (q.1.map fun c => cellOf otag c.1) (sideOf q.2)
    (((List.range (n / 32)).flatMap fun b => pat.unitBytes t (32 * b)), q.1.foldl (fun s c => s ||| c.2) st)
  else
    let r := cols.mapIdx fun j c => convertElem m 0x01 otag ((ws[j]?).getD 0) (BitVec.ofNat 32 c.1)
    (((List.range n).flatMap fun j => pat.unitBytes (tile (r.map (·.1)) []) j), r.foldl (fun s c => s ||| c.2) st)

def Task.mode (t : Task) : Mode := modeOf t.kmode none
/-- A row of a cascade replaced, or gone; with the last of them its pass has ended (R302). -/
def State.setRow (s : State) (d k : Nat) (r : PassRow) : State :=
  s.updCasc d k fun y => ({ y with rows := y.rows.map fun q => if q.task == r.task && q.rho == r.rho then r else q } : Cascade).endPass
def State.dropRow (s : State) (d k : Nat) (r : PassRow) : State :=
  s.updCasc d k fun y => ({ y with rows := y.rows.filter fun q => !(q.task == r.task && q.rho == r.rho) } : Cascade).endPass
def State.taskNum (s : State) (d n : Nat) : Option Task := (s.die d).tasks.find? fun t => t.seq == n
/-- The stages before the conversion, run on a row that has entered (R234): the row, and the state with its status. -/
def State.actRow (s : State) (d k : Nat) (t : Task) (r : PassRow) : PassRow × State :=
  match r.acted, (s.casc d k).pass with
  | false, some p =>
    let cols := ((s.casc d k).sums p.n r.pos).mapIdx fun j c => epilogueCol p t.ftz j c
    ({ r with acc := cols.map fun c => BitVec.ofNat 32 c.1, acted := true },
      s.ownerStat t (cols.foldl (fun s c => s ||| c.2) 0))
  | _, _ => (r, s)
/-- The conversion of a row (R234, R235): `none` where replay has run out of noise. -/
def State.convert (s : State) (t : Task) (r : PassRow) : Option (List Byte × State) :=
  (s.draw t.die t.core (wordsFor t.mode true r.acc.length)).map fun w =>
    let c := convertRow t.otag t.mode (r.acc.map fun a => (a.toNat, 0)) w.1
    (c.1, w.2.ownerStat t c.2)

/-! ### Parking (R235, R294) -/

/-- A row made fit to park: entered, its stages before the conversion run. -/
def State.settleRow (s : State) (d k : Nat) (t : Task) (r : PassRow) : PassRow × State :=
  match r.st, (s.casc d k).pass with
  | .waiting, some p =>
    let s1 := s.enterRow d k p r
    s1.actRow d k t (((s1.casc d k).rows.find? fun q => q.task == r.task && q.rho == r.rho).getD r)
  | _, _ => s.actRow d k t r
/-- The rows of a task's owner in a pass, each with its task. -/
def State.ownRows (s : State) (d k : Nat) (t : Task) (pass : Nat) : List (PassRow × Task) :=
  (s.casc d k).rows.filterMap fun r => (s.taskNum d r.task).bind fun u =>
    if r.pass == pass && u.die == t.die && u.core == t.core && u.tag == t.tag then some (r, u) else none
/-- The tasks of those rows. -/
def tasksOfRows (l : List (PassRow × Task)) : List Task :=
  l.foldl (fun a p => if a.any fun u => u.seq == p.2.seq then a else a ++ [p.2]) []
/-- Every row of a task's owner in its pass that has not scattered parks; a row below the first that its task has still to
scatter has done so before, and is done with (R287, R295). Where `again` is set they run the conversion again. Their commands
fail with the token status, micro-PC at the first row of each. Rows of a forwarded task are not held: the source forwards
it again (R297). -/
def State.parkOwner (s : State) (d k : Nat) (t : Task) (pass : Nat) (again : Bool) (e : EngErr) : State :=
  let rows := s.ownRows d k t pass
  if t.tag = 254 then
    (tasksOfRows rows).foldl (fun s u =>
      (s.updDie d fun y => y.dropTasks [u.seq]).answer (u.req u.tag []) (.ended e.status e.tval) d none) s
  else
    let s1 := rows.foldl (fun s p =>
      if p.1.rho < p.2.first then s.dropRow d k p.1
      else
        let q := s.settleRow d k p.2 p.1
        q.2.setRow d k { q.1 with st := .parked, out := if again then none else q.1.out }) s
    (tasksOfRows rows).foldl (fun s u => s.updCmd u.die u.core .tlm u.num fun k =>
      match k.st with
      | .running => k.fail e
      | _ => k) s1

/-! ### EPILOGUE_ROW -/

/-- The row that stands lowest in position among some. -/
def lowest (l : List PassRow) : Option PassRow :=
  l.foldl (fun m r => match m with
    | none => some r
    | some q => some (if r.pos < q.pos then r else q)) none
/-- KNLOGP as the fault reports it. -/
def State.logPtr (s : State) (t : Task) : W64 := (s.core t.die t.core).k.knlogp
/-- A finished row below the first that scatters is dropped (R295). -/
def State.finishRow (s : State) (d k : Nat) (t : Task) (r : PassRow) : State :=
  if r.rho < t.first then s.dropRow d k r
  else
    let a := s.actRow d k t r
    match a.2.convert t a.1 with
    | none => a.2.parkOwner d k t r.pass true ⟨0x0C, s.logPtr t, 0⟩
    | some (bs, u) => u.setRow d k { a.1 with st := .finished, out := some bs }
/-- EPILOGUE_ROW: the unit of cascade k finishes the next row that has entered, in position order (R234,
R293). -/
def execEpilogueRow (d k : Nat) (s : State) : Out :=
  match lowest ((s.casc d k).rows.filter fun r => r.st == .entered) with
  | none => .next s
  | some r =>
    match s.taskNum d r.task with
    | none => .next s
    | some t => .next (s.finishRow d k t r)

/-! ### The scatter (R293 to R295) -/

/-- A piece of a row located for its owner: addresses outside the space and in the aperture fail (R294). -/
def State.scatterPiece (s : State) (d : Nat) (x : Core) (r : Run) : Except EngErr Piece :=
  match elemClass r.lo with
  | .memory _ => s.locate d x .write r
  | _ => .error ⟨3, BitVec.ofInt 64 r.lo, 0⟩
def State.scatterPieces (s : State) (d : Nat) (x : Core) (a : Int) (n : Nat) : Except EngErr (List Piece) :=
  allOk ((Run.pieces (n / 4096 + 2) a n).map (s.scatterPiece d x))
/-- Where row ρ of a task goes. -/
def Task.rowVa (t : Task) (rho : Nat) : Int := (t.res : Int) + rho * t.rstr
/-- Whether a store released to a task (R286) has still to reach some of row ρ: the row waits for it (R361). -/
def State.rowBehind (s : State) (t : Task) (rho n : Nat) : Bool :=
  let x := s.core t.die t.core
  match s.scatterPieces t.die x (t.rowVa rho) n with
  | .error _ => false
  | .ok ps => ps.any (s.pieceBehind t.die (((x.cmd? .tlm t.num).map (·.rel)).getD []))
/-- A row's bytes written under its owner's translation (R293), dirty bits first. -/
def State.scatterBytes (s : State) (d : Nat) (x : Core) (a : Int) (bs : List Byte) : Except EngErr State :=
  match s.scatterPieces d x a bs.length with
  | .error e => .error e
  | .ok ps => s.perform s 54 d x .plain [⟨[], bs, ps⟩]
/-- Row ρ of a task on its issuing die: written, or why not (R294). -/
def State.scatterAt (s : State) (t : Task) (rho : Nat) (bs : List Byte) : Except EngErr State :=
  match s.scatterBytes t.die (s.core t.die t.core) (t.rowVa rho) bs with
  | .error e => .error ⟨0x0B, e.tval, e.xsyn⟩
  | .ok u => .ok (u.updCmd t.die t.core .tlm t.num fun k => { k with mpc := rho + 1 })
/-- A row that has scattered leaves its position; after a task's last row its repetition has ended. -/
def State.afterScatter (s : State) (d k : Nat) (t : Task) (r : PassRow) : State :=
  let s1 := (s.dropRow d k r).updDie d fun y =>
    { y with tasks := y.tasks.map fun u => if u.seq == t.seq then { u with first := r.rho + 1 } else u }
  if r.rho + 1 < t.m then s1 else (s1.endTask d t 0).admitAll d
def State.scatterRow (s : State) (d k : Nat) (t : Task) (r : PassRow) (bs : List Byte) : State :=
  match s.scatterAt t r.rho bs with
  | .error e => s.parkOwner d k t r.pass false e
  | .ok u => u.afterScatter d k t r

/-- Rows of a pass that come back before a later pass's (R295). -/
def State.heldBack (s : State) (d k : Nat) (r : PassRow) : Bool :=
  (s.casc d k).rows.any fun q => q.st == .again && q.pass != r.pass &&
    (r.pool || (s.taskNum d q.task).elim false fun u => u.tenant == r.head)
/-- A finished row of a forwarded task waits at its position until all are, and then they travel back (R297). -/
def State.sendRows (s : State) (d k : Nat) (t : Task) (r : PassRow) : State :=
  let s1 := s.setRow d k { r with st := .sent }
  let rows := (s1.casc d k).rows.filter fun q => q.task == t.seq
  if rows.all fun q => q.st == .sent then
    (s1.answer (t.req t.tag []) (.finished (rows.filterMap fun q => q.out.map fun b => (q.rho, b))) d none).updDie d fun y =>
      y.dropTasks [t.seq]
  else s1
/-- ROW_SCATTER: the next finished row of cascade k is written, or sent back to its die. -/
def execRowScatter (d k : Nat) (s : State) : Out :=
  match (s.casc d k).rows.find? fun r => r.st == .finished with
  | none => .next s
  | some r =>
    match s.taskNum d r.task, r.out with
    | some t, some bs =>
      if s.heldBack d k r || (t.tag != 254 && s.rowBehind t r.rho bs.length) then .next s
      else if t.tag = 254 then .next ((s.sendRows d k t r).admitAll d)
      else .next (s.scatterRow d k t r bs)
    | _, _ => .next s

/-- Whether a row that comes back waits for a pass that another tenant, the owner of the slot, heads (R295, R298). -/
def Cascade.rowWaits (y : Cascade) (t : Task) : Bool := y.rows.any fun q => !q.pool && q.head != t.tenant && !q.isParked
/-- The first row that comes back and need not wait, with its task. -/
def State.comesBack (s : State) (d k : Nat) : Option (PassRow × Task) :=
  (s.casc d k).rows.findSome? fun r => (s.taskNum d r.task).bind fun t =>
    if r.st == .again && !(s.casc d k).rowWaits t then some (r, t) else none
/-- PARKED_ROW_RESCATTER: the first row of cascade k that waits to scatter again, and need not wait for a pass of the slot's owner,
does, its conversion run again where noise had run out (R235, R295). -/
def execParkedRowRescatter (d k : Nat) (s : State) : Out :=
  match s.comesBack d k with
  | none => .next s
  | some (r, t) =>
    if s.rowBehind t r.rho ((r.out.map (·.length)).getD (4 * r.acc.length)) then .next s
    else
      match r.out with
      | some bs => .next (s.scatterRow d k t r bs)
      | none =>
        match s.convert t r with
        | none => .next (s.parkOwner d k t r.pass true ⟨0x0C, s.logPtr t, 0⟩)
        | some (bs, u) => .next (u.scatterRow d k t { r with out := some bs } bs)

/-! ### Resumption and saving (R295, R296) -/

/-- After an `eret`: the commands that replay are tasks again. One whose rows are parked scatters from them; any other
re-enters as a new arrival. -/
def State.resumeTasks (s : State) (d c : Nat) : State :=
  let ks := (s.core d c).fl.cmds.filter Cmd.entersTable
  let s1 := ks.foldl (fun s k =>
    match (s.die d).tasks.find? fun t => t.die == d && t.core == c && t.num == k.num && t.tag != 254 && t.pass.isSome with
    | none => s
    | some t =>
      (s.updDie d fun y => { y with cascs := y.cascs.map fun q => { q with rows := q.rows.map fun r =>
        if r.task == t.seq && r.st == .parked then { r with st := .again } else r } }).updCmd d c .tlm k.num fun k =>
          { k with st := .running }) s
  s1.letIn 64 d c
/-- At a save: the parked rows of a core's context released (R295). -/
def State.releaseParked (s : State) (d c : Nat) : State :=
  ((s.die d).tasksOf d c).foldl (fun s t => if t.pass.isSome && t.tag != 254 then s.releaseTask d t else s) s

/-! ### TFWD_ROWS_AT_PEER, TFWD_ROWS_RETURN (R297) -/

/-- TFWD_ROWS_AT_PEER: the rows that flit n of those in transit carries have reached the peer and enter its table. -/
def execTfwdRowsAtPeer (d n : Nat) (s : State) : Out :=
  match s.flits[n]? with
  | none => .next s
  | some f =>
    match f.res, f.req.op with
    | none, .rows t =>
      if f.pos = d ∧ f.dst = d ∧ !(s.die d).tableFull then .next ({ s with flits := s.flits.eraseIdx n }.arrive d t)
      else .next s
    | _, _ => .next s
/-- The returned rows scattered in order from the command's micro-PC on (R297). -/
def State.scatterBack (s : State) (t : Task) : List (Nat × List Byte) → State
  | [] => (s.updCmd t.die t.core .tlm t.num fun k => k.taskEnd 0).letIn 64 t.die t.core
  | (rho, bs) :: rest =>
    match s.scatterAt t rho bs with
    | .error e => s.updCmd t.die t.core .tlm t.num fun k => k.fail e
    | .ok u => u.scatterBack t rest
/-- TFWD_ROWS_RETURN: the answer that flit n carries has reached the issuing die: its rows are scattered, or its task's end
reported. -/
def execTfwdRowsReturn (d n : Nat) (s : State) : Out :=
  match s.flits[n]? with
  | none => .next s
  | some f =>
    let s1 := { s with flits := s.flits.eraseIdx n }
    match f.res, f.req.op with
    | some r, .rows t =>
      if f.pos ≠ d ∨ f.dst ≠ d then .next s
      else
        match r with
        | .finished rows =>
          if rows.any fun q => s.rowBehind t q.1 q.2.length then .next s else .next (s1.scatterBack t rows)
        | .ended st tval =>
          if st < 0x20 then .next (s1.updCmd t.die t.core .tlm t.num fun k => { k.fail ⟨st, tval, 0⟩ with extra := [k.carry, 0] })
          else .next ((s1.updCmd t.die t.core .tlm t.num fun k => k.taskEnd st).letIn 64 t.die t.core)
        | _ => .next s1
    | _, _ => .next s

end Sys2Proof.Machine
end

