-- ==== Sys2Proof/Machine/Split.lean ====
section
/-!
DEFINITION. Sys2Proof/Machine/Split.lean: split tensors (R317 to R330): the six split instructions at issue, the split unit
(R319), the hot pass (R324), the rills (R328), and CASCADE_SERVE (R232), which serves passes, hot passes and direct commands.
-/
namespace Sys2Proof.Machine
open Sys2Proof

/-! ### Rows of a tensor (R317, R318, R330) -/

/-- Bytes of n elements of a row in the plain layout. -/
def rowBytes (tag n : Nat) : Nat :=
  match lxM tag with
  | some m => (n + 31) / 32 * lxBytes m
  | none => n * tagWidth tag / 8
/-- The smallest power of two not below n. -/
def pow2Above (n : Nat) : Nat := if n ≤ 1 then 1 else 2 ^ ((n - 1).log2 + 1)
/-- Limits of a tensor tag: H and N at most (R317). -/
def tensorLimits (tag : Nat) : Option (Nat × Nat) :=
  if tag = 0x02 then some (1024, 512)
  else if tag = 0x04 ∨ tag = 0x12 then some (1024, 1024)
  else if tag = 0x11 then some (2048, 1024)
  else none
/-- A row of n elements from its bytes. -/
def rowOfBytes (tag n : Nat) (bs : List Byte) : WRow :=
  let p : Pattern := ⟨n, 1, 1, 1, 0, 0, 0, tag, 0, 0, false⟩
  ⟨(List.range n).map fun j => leAt bs (p.codeAt j).1.toNat (p.codeBytes j) / 2 ^ (p.codeAt j).2 % 2 ^ p.bits,
   if isBlock tag then (List.range ((n + 31) / 32)).flatMap fun b => (bs.drop (p.scaleAt (32 * b : Nat)).1.toNat).take 2 else []⟩
/-- The value of column j of a row. -/
def WRow.value (r : WRow) (tag : Nat) (ftz : Bool) (j : Nat) : Num :=
  operandNum tag ⟨false, false, []⟩ ftz (scaleOf tag ⟨false, false, []⟩ r.side (j / 32)) (j % 32) ((r.codes[j]?).getD 0)
def WRow.ufl (r : WRow) (tag : Nat) (ftz : Bool) (j : Nat) : Bool := operandUfl tag ftz ((r.codes[j]?).getD 0)

def Split.rowVa (t : Split) (k : Nat) : Nat := t.base + k * t.stride
def Split.hotOff (t : Split) (i : Nat) : Nat := t.hot + i * t.stride
/-- The hot slot of a row, if it is hot. -/
def Split.slotOf (t : Split) (k : Nat) : Option Nat := t.map.findIdx? (· == k)

/-! ### Records (R320) and issue -/

/-- The record of `splr` (R317, R318, R320, R330). -/
def splrLimits (p : Pattern) : Bool :=
  match tensorLimits p.tag with
  | none => false
  | some (h, n) =>
    let stride := pow2Above (rowBytes p.tag p.st1.toNat)
    p.lay == 0 && decide (p.e0 ≤ n ∧ p.e1 ≤ 16384 ∧ p.e2 ≤ min p.e1 h ∧ p.e3 - 1 ≤ 65518 ∧ 0 < p.st1 ∧ 0 ≤ p.st2 ∧
      0 ≤ p.st3 ∧ p.st3 ≤ 63 ∧ p.base % 4096 = 0 ∧ p.base < 2 ^ 56 ∧ 64 ≤ stride ∧ stride ≤ 4096 ∧ rowBytes p.tag p.e0 ≤ stride)
def spmvLimits (p : Pattern) : Bool :=
  (tensorLimits p.tag).isSome && p.lay == 0 && p.e1 == 1 && p.e2 == 1 && p.e3 == 1 && p.st1 == 0 && p.st2 == 0 &&
    decide (p.e0 ≤ 16384 ∧ 0 ≤ p.st3 ∧ p.st3 ≤ 63 ∧ p.base < 2 ^ 32)
def spjnLimits (p : Pattern) : Bool :=
  p.tag == 0x01 && p.lay == 0 && p.e0 == 1 && p.e1 == 1 && p.e2 == 1 && p.e3 == 1 && p.st1 == 0 && p.st2 == 0 &&
    decide (0 ≤ p.st3 ∧ p.st3 ≤ 63 ∧ p.base < 2 ^ 56 ∧ p.base % 8 = 0)
/-- The slot of `splr.rel`, the only field it reads (R321). -/
def State.relSlot (s : State) (h : Nat) (rec : Option Shape4) : Except Bad Int :=
  match rec with
  | some r => .ok (strideOf s.me (r.w3 % 65536))
  | none =>
    match s.handleBytes (s.me.val h) with
    | .error e => .error e
    | .ok bs =>
      let gv := leAt bs 30 2
      if !gv.testBit 15 then .error (.fault 0x04 2 (s.me.val h))
      else if gv % 4096 ≠ (s.me.val h).toNat % 4096 then .error (.fault 0x04 3 (s.me.val h))
      else .ok (sextField 32 (leAt bs 24 4))
def execSplr (t h : Nat) (rel : Bool) (rec : Option Shape4) (s : State) : Out :=
  if rel then
    s.issueGate .tln (relScalars h rec) fun s =>
      if !modeMatches s.me rec then s.illegal
      else
        let poison := poisonBads s.me (relScalars h rec)
        match s.relSlot h rec with
        | .error b => s.raiseBad ((worstOf (b :: poison)).getD b)
        | .ok n =>
          if n < 0 ∨ 63 < n then s.illegal
          else
            match worstOf poison with
            | some b => s.raiseBad b
            | none => s.issueCmd .tln t (plainArg (.splr t h rel rec) [BitVec.ofNat 64 n.toNat]) id
  else
    s.issueGate .tln (operandScalars h rec) fun s =>
      s.recordThen h rec (fun _ => false) (fun p => if splrLimits p then [] else [.illegal]) fun p =>
        s.issueCmd .tln t (patArg (.splr t h rel rec) [BitVec.ofNat 64 p.st3.toNat] [p]) id

/-- The tiles of the x vector (R322). -/
def groupTiles (a kx : Nat) : List Nat := (List.range ((kx + 1023) / 1024)).map (a + ·)
/-- A tile group captured as one: its elements and side stores in order. -/
def joinTiles (l : List Tile) : Tile :=
  ⟨l.flatMap (·.cells), l.flatMap (·.poison), l.flatMap (·.side), (l.head?.map (·.tag)).getD 0, (l.head?.map (·.origin)).getD 0⟩
/-- Whether a tile may hold part of an x vector (R322). -/
def xTagOk (tag kx xt : Nat) : Bool :=
  (cbTable xt).isNone && tagClass xt == tagClass tag && (!isBlock xt || kx % 32 == 0)
/-- The faults of an `spmv` record on the tiles it names (R322). -/
def State.spmvBads (s : State) (a : Nat) (p : Pattern) : List Bad :=
  let g := groupTiles a p.e0
  (if !spmvLimits p || decide (a % g.length ≠ 0 ∨ s.me.ctx.tiles < a + g.length) || s.streamMisuse g [] ||
      (decide (1 < g.length) && g.any fun v => (s.me.bindingAt v s.cur.rank).isSome) then [.illegal] else []) ++
  (if g.all fun v => xTagOk p.tag p.e0 (s.readTile v).tag then [] else [.format])
/-- The operands of an `spmv`: θ, the slot, Kx, the tags of its tiles; the tile group captured as one (R322). -/
def spmvArg (i : Instr) (p : Pattern) (l : List Tile) (strm : Option (Nat × Nat)) : CmdArg :=
  { patArg i ([BitVec.ofNat 64 p.base, BitVec.ofNat 64 p.st3.toNat, BitVec.ofNat 64 p.e0] ++ l.map fun v => BitVec.ofNat 64 v.tag) [p] with
    tile := some (joinTiles l), strm := strm }
def execSpmv (a t h cas : Nat) (rec : Option Shape4) (s : State) : Out :=
  s.issueGate .tln (operandScalars h rec) fun s =>
    s.recordThen h rec
      (fun p => s.me.bindWaits s.cur.rank (groupTiles a p.e0) || s.me.mReadWaits s.cur.rank (groupTiles a p.e0))
      (s.spmvBads a) fun p =>
        let g := groupTiles a p.e0
        let tiles := g.map s.readTile
        match s.readBar false g with
        | .waits => s.stall
        | .ends n => s.raise 0x0F 0 (BitVec.ofNat 64 n)
        | .fails v n f => s.streamFault v n f
        | .clear =>
          let left := fun (i : Nat) => min 1024 (p.e0 - 1024 * i)
          match (tiles.mapIdx fun i v => (i, v)).find? fun q => (q.2.poison.take (left q.1)).any id with
          | some q => s.tilePoison q.2.origin
          | none => s.issueCmd .tln t (spmvArg (.spmv a t h cas rec) p tiles (s.streamTile a)) id
def execSpjn (d t h : Nat) (rec : Option Shape4) (s : State) : Out :=
  s.issueGate .tln (operandScalars h rec) fun s =>
    if s.me.bindWaits s.cur.rank [d] then s.stall
    else if s.streamMisuse [] [d] then s.illegal
    else
      s.recordThen h rec (fun _ => false)
        (fun p => (if spjnLimits p then [] else [.illegal]) ++ (if s.drainTagBad [d] 0x01 then [.format] else [])) fun p =>
        s.claimTile d fun n => s.issueCmd .tln t
          { patArg (.spjn d t h rec) [BitVec.ofNat 64 p.base, BitVec.ofNat 64 p.st3.toNat] [p] with strm := n } id
/-- `spmg`, `spage`, `sprd` (R326): the slot in s[a]. -/
def State.issueSlot (s : State) (a t : Nat) (rs : List Nat) (i : Instr) (ok : Core → Bool) : Out :=
  s.issueGate .tln rs fun s =>
    let x := s.me
    if fieldOf (x.val a) 63 6 != 0 || !ok x then s.illegal
    else
      match x.firstPoison rs with
      | some r => s.poisonFault r
      | none => s.issueCmd .tln t (plainArg i (rs.reverse.map x.val)) id
def execSpmg (a t : Nat) (s : State) : Out := s.issueSlot a t [a] (.spmg a t) fun _ => true
def execSpage (a t : Nat) (s : State) : Out := s.issueSlot a t [a] (.spage a t) fun _ => true
def execSprd (a b t : Nat) (s : State) : Out := s.issueSlot a t [a, b] (.sprd a b t) fun x => (x.val b).toNat % 64 == 0

/-! ### The split unit (R319) -/

/-- The slot a split command names. -/
def CmdArg.splitSlot (a : CmdArg) : Nat :=
  match a.instr, a.scal with
  | .splr .., n :: _ => n.toNat
  | .spmv .., _ :: n :: _ => n.toNat
  | .spjn .., _ :: n :: _ => n.toNat
  | .sprd .., _ :: n :: _ => n.toNat
  | _, n :: _ => n.toNat
  | _, [] => 0
def Die.split (y : Die) (n : Nat) : Option Split := y.splits.find? fun t => t.id == n
/-- A slot as its context holds it. -/
def Die.splitOf (y : Die) (x : Core) (n : Nat) : Option Split :=
  (y.split n).bind fun t => if t.slot == x.k.kslot.toNat && t.tenant == x.ctx.tenant then some t else none
/-- A slot released (R327): its counters, map and product go, and no cascade holds its rows. -/
def Die.dropSplit (y : Die) (n : Nat) : Die :=
  { y with splits := y.splits.filter (fun t => t.id != n)
           cascs := y.cascs.map fun c => if c.split.elim false fun p => p.1 == n then { c with split := none } else c }
def Die.setSplit (y : Die) (t : Split) : Die := { y with splits := t :: y.splits.filter fun u => u.id != t.id }
/-- The failure of R319. -/
def notHeld (n : Nat) : EngErr := ⟨2, BitVec.ofNat 64 n, 0x200⟩

/-- A permission failure for want of WGT (R318). -/
def State.wgtFault (s : State) (d : Nat) (x : Core) (va : Nat) : EngErr :=
  match s.stage1 d (s.keyOf d x.ctx.tenant) x Acc.read.code va with
  | .ok o => (⟨2, o.range, false, o.level, Acc.read.code, va⟩ : XFault).engine
  | .error e => e.engine
/-- A master row's PA (R318, R321): read with R and WGT, in the die's own stack. -/
def State.masterPa (s : State) (d : Nat) (x : Core) (va : Nat) : Except EngErr Nat :=
  match elemClass va with
  | .memory _ =>
    match s.translate d x x.ctxLevel .read va with
    | .error e => .error e.engine
    | .ok o =>
      if !o.wgt then .error (s.wgtFault d x va)
      else
        match paPlace d o.pa with
        | .stack _ => .ok o.pa
        | _ => .error ⟨3, BitVec.ofNat 64 va, 0⟩
  | _ => .error ⟨3, BitVec.ofNat 64 va, 0⟩
/-- One master row copied into a hot slot, line by line, marks with the bytes (R189, R321), by the split unit (R168); `v` is the
machine as the command reads it. -/
def State.copyRow (s v : State) (d : Nat) (x : Core) (t : Split) (k i : Nat) : Except EngErr State :=
  match s.masterPa d x (t.rowVa k) with
  | .error e => .error e
  | .ok pa =>
    let n := rowBytes t.tag t.n
    if x.basinBytes < t.hotOff i + n then .error ⟨4, BitVec.ofNat 64 (max (t.hotOff i) x.basinBytes), 0⟩
    else
      s.perform v 52 d x .plain ((List.range ((n + 63) / 64)).map fun m =>
        let b := min 64 (n - 64 * m)
        ⟨[⟨.mem (pa + 64 * m) 0, b⟩], [], [⟨.basin (x.basinAddr (t.hotOff i + 64 * m)), b⟩]⟩)
/-- Rows copied in order. -/
def State.copyRows (s v : State) (d : Nat) (x : Core) (t : Split) : List (Nat × Nat) → Except EngErr State
  | [] => .ok s
  | (k, i) :: rest =>
    match s.copyRow v d x t k i with
    | .error e => .error e
    | .ok u => u.copyRows v d x t rest
/-- `splr` (R321). A failure leaves the slot unheld and no row copied (R19). -/
def State.serveSplr (s : State) (d c : Nat) (q : Cmd) (p : Pattern) : Served :=
  let x := s.core d c
  let n := p.st3.toNat
  let y := s.die d
  let other := ((y.splits.filter fun t => t.id != n).map (·.k)).sum
  if ((y.split n).isSome && (y.splitOf x n).isNone) || decide (1048576 < other + p.e1) then .done 0x21 s
  else
    let s1 := s.updDie d fun y => y.dropSplit n
    let t : Split := ⟨n, x.k.kslot.toNat, x.ctx.tenant, p.e1, p.e0, p.tag, p.base, pow2Above (rowBytes p.tag p.st1.toNat), p.e2,
      64 * p.st2.toNat, List.range p.e2, List.replicate p.e1 0, 1, p.e3 - 1, 0, none⟩
    match allOk ((List.range p.e1).map fun k => s1.masterPa d x (t.rowVa k)) with
    | .error e => .fails e s1
    | .ok _ =>
      match s1.copyRows (s1.released d q.rel) d x t ((List.range p.e2).map fun i => (i, i)) with
      | .error e => .fails e s1
      | .ok u => .done 0 (u.updDie d fun y => y.setSplit t)

/-- The H rows with the largest counters, ties to the lower (R326). -/
def Split.best (t : Split) : List Nat :=
  let l := t.counts.mapIdx fun k c => (k, c)
  (l.filter fun p => decide ((l.filter fun q => decide (p.2 < q.2 ∨ (q.2 = p.2 ∧ q.1 < p.1))).length < t.h)).map (·.1)
/-- The copies of an `spmg`: joining rows in ascending order into freed slots in ascending order. -/
def Split.moves (t : Split) : List (Nat × Nat) :=
  let best := t.best
  let join := best.filter fun k => !t.map.contains k
  let free := (List.range t.map.length).filter fun i => !best.contains ((t.map[i]?).getD 0)
  join.zip free
/-- `spmg` (R326). A failure leaves no row copied (R19). -/
def State.serveSpmg (s : State) (d c : Nat) (q : Cmd) (n : Nat) : Served :=
  let x := s.core d c
  match (s.die d).splitOf x n with
  | none => .fails (notHeld n) s
  | some t =>
    if (s.die d).power.mode = 2 then .done 0 s
    else
      match s.copyRows (s.released d q.rel) d x t t.moves with
      | .error e => .fails e s
      | .ok u => .done 0 (u.updDie d fun y =>
          y.setSplit { t with map := t.moves.foldl (fun m p => m.set p.2 p.1) t.map, ver := (t.ver + 1) % 2 ^ 32 })
def halved (l : List Nat) : List Nat := l.map (· / 2)
/-- `spage` (R326). -/
def State.serveSpage (s : State) (d c n : Nat) : Served :=
  match (s.die d).splitOf (s.core d c) n with
  | none => .fails (notHeld n) s
  | some t => .done 0 (s.updDie d fun y => y.setSplit { t with counts := halved t.counts })
/-- The report of `sprd` (R326). -/
def Split.report (t : Split) : List Byte :=
  leBytes 4 t.ver ++ leBytes 4 t.mc ++ leBytes 2 t.k ++ leBytes 2 t.h ++ List.replicate 52 0 ++
    t.counts.flatMap (leBytes 2) ++ t.map.flatMap (leBytes 2)
/-- Granules of a report written from step m on: a failure at its granule. -/
def State.writeReport (s : State) (d : Nat) (x : Core) (va : Nat) (bs : List Byte) : Nat → Nat → Except (EngErr × Nat) State × State
  | 0, _ => (.ok s, s)
  | f + 1, m =>
    let l := (bs.drop (64 * m)).take 64
    if l.isEmpty then (.ok s, s)
    else
      match s.locateRuns d x .write [⟨(va + 64 * m : Nat), l.length⟩] with
      | .error e => (.error (e, m), s)
      | .ok ps =>
        match s.perform s 54 d x .plain [⟨[], l, ps⟩] with
        | .error e => (.error (e, m), s)
        | .ok u => u.writeReport d x va bs f (m + 1)
/-- Whether a store released to a command has still to reach some of a report it writes: the command waits for it (R361). -/
def State.reportBehind (s : State) (d : Nat) (x : Core) (k : Cmd) (va n : Nat) : Bool :=
  match s.locateRuns d x .write [⟨(va : Nat), n⟩] with
  | .error _ => false
  | .ok ps => ps.any (s.pieceBehind d k.rel)
/-- `sprd` (R326). -/
def State.serveSprd (s : State) (d c n va : Nat) (k : Cmd) : Served :=
  let x := s.core d c
  match (s.die d).splitOf x n with
  | none => .fails (notHeld n) s
  | some t =>
    if s.reportBehind d x k va t.report.length then .waits
    else
      match s.writeReport d x va t.report (t.report.length / 64 + 2) k.mpc with
      | (.error (e, m), u) => .fails e (u.updCmd d c .tln k.num fun k => { k with mpc := m })
      | (.ok u, _) => .done 0 u
/-- Column j of a joined product (R325), with its status (R87, R93, R96). -/
def Product.join (p : Product) (ftz : Bool) (j : Nat) : Nat × Nat :=
  let h := ((p.hot[j]?).getD 0).toNat
  let c := ((p.cold[j]?).getD 0).toNat
  stage32 ftz (flushUfl fmtFp32 ftz h ||| flushUfl fmtFp32 ftz c) ((fmtFp32.value ftz h).add false (fmtFp32.value ftz c))
/-- The tile of a join of n columns, poisoned where there is no product, and the status bits. -/
def joinTile (prod : Option Product) (ftz : Bool) (n : Nat) (origin : W64) : Tile × Nat :=
  let cols := (List.range n).map fun j => (prod.map fun p => p.join ftz j).getD (0, 0)
  (tileOf .r 0x01 noSide (if prod.isNone then origin else 0) ((List.range 1024).map fun j =>
     if prod.isNone then .bad else .ok (BitVec.ofNat 32 ((cols[j]?).getD (0, 0)).1)),
   cols.foldl (fun s c => s ||| c.2) 0)
/-- `spjn` (R325): the tile and the report, or a poisoned tile. -/
def State.serveSpjn (s : State) (d c : Nat) (k : Cmd) (v n va : Nat) (a : CmdArg) : Served :=
  let x := s.core d c
  match (s.die d).splitOf x n with
  | none => .fails (notHeld n) s
  | some t =>
    let j := joinTile t.prod (k.kmode.toNat.testBit 4) t.n (k.origin 0x21)
    let put := fun (s : State) => s.updCore d c fun x => match a.strm with
      | none => x.setTile v k.rank j.1
      | some (_, m) => x.drainTile v k.rank m j.1
    if x.mWriteWaits k.rank [v] || (a.strm.isSome && x.drainFull v k.rank) || s.reportBehind d x k va 8 then .waits
    else
      match t.prod with
      | none => if a.strm.isSome then .fails ⟨8, Config.openValue 0 s.steps, 0⟩ s else .done 0 (put s)
      | some p =>
        let bs := leBytes 4 p.ver ++ leBytes 2 p.nh ++ leBytes 2 p.nc
        match s.locateRuns d x .atomic [⟨(va : Nat), 8⟩] with
        | .error e => .fails e s
        | .ok ps =>
          match s.perform s 54 d x .plain [⟨[], bs, ps⟩] with
          | .error e => .fails e s
          | .ok u => .done 0 (((put u).updDie d fun y => y.setSplit { t with prod := none }).updCore d c fun x => x.orStat j.2)

/-! ### spmv (R322 to R324, R328) -/

/-- x_k of a captured vector: its value and whether reading it sets UFL. -/
def CmdArg.xAt (a : CmdArg) (ftz : Bool) (k : Nat) : Act :=
  let t := a.tile.getD (Tile.zero 0)
  let tag := a.word (3 + k / 1024)
  let e := k % 1024
  let c := ((t.cells[k]?).getD 0).toNat
  (operandNum tag ⟨false, false, []⟩ ftz (scaleOf tag ⟨false, false, []⟩ (t.side.drop (128 * (k / 1024))) (e / 32)) (e % 32) c,
   operandUfl tag ftz c)
/-- The rows that fire (R322); θ is read as an input of the command (R93). -/
def CmdArg.fired (a : CmdArg) (ftz : Bool) (t : Split) : List Nat :=
  let th := fmtFp32.value ftz (a.word 0)
  (List.range (min (a.word 2) t.k)).filter fun k =>
    let x := (a.xAt ftz k).1
    !x.isNan && !th.isNan && x.abs.cmp th == .gt
/-- A begun multiply. -/
def newWork (x : Core) (c : Nat) (k : Cmd) (cas : Nat) (t : Split) (a : CmdArg) (ftz : Bool) : SplitWork :=
  ⟨x.k.kslot.toNat, k.num, c, cas, t.id, a.fired ftz t, [], none, [], [], List.replicate 64 (List.replicate t.n 0),
   flushUfl fmtFp32 ftz (a.word 0) ||| (if (List.range (a.word 2)).any fun i => (a.xAt ftz i).2 then stUfl else 0)⟩
def SplitWork.is (w v : SplitWork) : Bool := w.kslot == v.kslot && w.num == v.num
def Die.setWork (y : Die) (w : SplitWork) : Die := { y with swork := y.swork.map fun v => if v.is w then w else v }
def Die.dropWork (y : Die) (w : SplitWork) : Die := { y with swork := y.swork.filter fun v => !v.is w }
/-- The multiply at work: the one whose command runs. -/
def Die.working (y : Die) : Option (SplitWork × Cmd) :=
  y.swork.findSome? fun w => (((y.cores[w.core]?).getD .reset).cmd? .tln w.num).bind fun k =>
    if k.st = .running then some (w, k) else none

/-- The bytes of a hot row. -/
def State.hotRow (s : State) (d : Nat) (x : Core) (t : Split) (i : Nat) : List Byte :=
  (s.die d).basin.read 0 (x.basinAddr (t.hotOff i)) (rowBytes t.tag t.n)
/-- The first marked line of n bytes, as an offset of it from the first. -/
def State.markedOff (s : State) (d : Nat) (l : Loc) (n : Nat) : Option Nat :=
  ((List.range ((n + 63) / 64)).map (64 * ·)).find? fun i => (s.readPiece d 0 ⟨l.after i, min 64 (n - i)⟩).2
/-- One fired row dispatched (R322, R324): counted, then to the hot list or, with the PA of its master, to its rill. -/
def State.dispatch (s : State) (d : Nat) (t : Split) (w : SplitWork) (q : Cmd) (k : Nat) (rest : List Nat) : Except EngErr State :=
  let x := s.core d w.core
  let v := s.released d q.rel
  let n := rowBytes t.tag t.n
  let count := { t with counts := t.counts.modify k fun c => min (c + 1) 65535 }
  match t.slotOf k with
  | some i =>
    match s.markedOff d (.basin (x.basinAddr (t.hotOff i))) n with
    | some o => .error ⟨8, BitVec.ofNat 64 (apertureBase + t.hotOff i + o), 0⟩
    | none => .ok (s.updDie d fun y => (y.setSplit count).setWork { w with left := rest, hot := w.hot ++ [k] })
  | none =>
    match s.masterPa d x (t.rowVa k) with
    | .error e => .error e
    | .ok pa =>
      match v.markedOff d (.mem pa 0) n with
      | some o => .error ⟨8, BitVec.ofNat 64 (t.rowVa k + o), 0⟩
      | none => .ok (s.updDie d fun y => (y.setSplit count).setWork
          { w with left := rest, cold := w.cold ++ [k], queue := w.queue ++ [(pa / 4096 % 64, k, pa)] })
/-- The cold half: the rills' partials added in order (R323); codes and status. -/
def coldSum (ftz : Bool) (parts : List (List W32)) (n : Nat) : List W32 × Nat :=
  let cols := (List.range n).map fun j =>
    parts.foldl (fun (a : Nat × Nat) p =>
      stage32 ftz a.2 ((fmtFp32.value ftz a.1).add false (fmtFp32.value ftz (((p[j]?).getD 0).toNat)))) (0, 0)
  (cols.map fun c => BitVec.ofNat 32 c.1, cols.foldl (fun s c => s ||| c.2) 0)
/-- A multiply whose two halves are there: the product, MC and the ageing (R322), then its end. -/
def State.finishWork (s : State) (d : Nat) (t : Split) (w : SplitWork) (k : Cmd) (ftz : Bool) : State :=
  let c := coldSum ftz w.parts t.n
  let mc := t.mc + 1
  let t1 := { t with prod := some ⟨w.half.getD [], c.1, t.ver, w.hot.length, w.cold.length⟩
                     mc := mc, counts := if 0 < t.a ∧ mc % t.a = 0 then halved t.counts else t.counts }
  ((s.updDie d fun y => (y.setSplit t1).dropWork w).updCore d w.core fun x => x.orStat (w.stat ||| c.2)).updCmd d w.core .tln k.num
    fun k => if k.rep + 1 < k.args.length then { k with rep := k.rep + 1, mpc := 0, st := .waiting } else k.finish 0
/-- The multiply at work goes one step further: the next row dispatched, or its end once both halves are there. -/
def State.serveWork (s : State) (d : Nat) (w : SplitWork) (k : Cmd) : State :=
  let ftz := k.kmode.toNat.testBit 4
  match (s.die d).split w.slot with
  | none => s.updCmd d w.core .tln k.num fun k => k.fail (notHeld w.slot)
  | some t =>
    match w.left with
    | r :: rest =>
      match s.dispatch d t w k r rest with
      | .error e => s.updCmd d w.core .tln k.num fun k => k.fail e
      | .ok u => u.updCmd d w.core .tln k.num fun k => { k with mpc := k.mpc + 1 }
    | [] => if w.half.isSome && w.queue.isEmpty then s.finishWork d t w k ftz else s
/-- `spmv` begins, or goes on where it parked. -/
def State.beginSpmv (s : State) (d c : Nat) (k : Cmd) (cas : Nat) (a : CmdArg) (p : Pattern) : State :=
  let x := s.core d c
  let n := a.splitSlot
  let run := fun (s : State) => s.updCmd d c .tln k.num fun k => { k with st := .running }
  match (s.die d).splitOf x n with
  | none => s.updCmd d c .tln k.num fun k => k.fail (notHeld n)
  | some t =>
    if t.tag ≠ p.tag then s.updCmd d c .tln k.num fun k => k.fail (notHeld n)
    else
      let w := newWork x c k cas t a (k.kmode.toNat.testBit 4)
      if (s.die d).swork.any fun v => v.is w then
        run (s.updDie d fun y => { y with swork := y.swork.map fun v => if v.is w then { v with core := c } else v })
      else run (s.updDie d fun y => { y with swork := y.swork ++ [w] })
/-- A command other than `spmv` served whole. -/
def State.serveSlot (s : State) (d c : Nat) (k : Cmd) (a : CmdArg) : Served :=
  match a.instr, a.pats, a.scal with
  | .splr _ _ true _, _, n :: _ =>
    if ((s.die d).splitOf (s.core d c) n.toNat).isSome then .done 0 (s.updDie d fun y => y.dropSplit n.toNat) else .done 0 s
  | .splr _ _ false _, p :: _, _ => s.serveSplr d c k p
  | .spjn v _ _ _, _, va :: n :: _ => s.serveSpjn d c k v n.toNat va.toNat a
  | .spmg .., _, n :: _ => s.serveSpmg d c k n.toNat
  | .spage .., _, n :: _ => s.serveSpage d c n.toNat
  | .sprd .., _, va :: n :: _ => s.serveSprd d c n.toNat va.toNat k
  | _, _, _ => .done 0 s
def State.startSplit (s : State) (d c : Nat) (k : Cmd) : State :=
  match k.args[k.rep]? with
  | none => s.updCmd d c .tln k.num fun k => k.finish k.carry
  | some a =>
    match a.instr, a.pats with
    | .spmv _ _ _ cas _, p :: _ => s.beginSpmv d c k cas a p
    | _, _ =>
      match s.serveSlot d c k a with
      | .waits => s
      | .fails e u => u.updCmd d c .tln k.num fun k => k.fail e
      | .done st u => u.updCmd d c .tln k.num fun k =>
          let st1 := if k.carry = 0 then st else k.carry
          if k.rep + 1 < k.args.length then { k with rep := k.rep + 1, mpc := 0, extra := [st1] } else { k with extra := [] }.finish st1
/-- Whether the token of a command of slot n is still to be written (R204, R319). -/
def Die.slotOwed (y : Die) (n : Nat) : Bool := y.cores.any fun x => x.fl.cmds.any fun k =>
  k.tl == .tln && (match k.st with
    | .finished _ => true
    | .failed _ => true
    | _ => false) && k.args.any fun a => a.splitSlot == n
/-- The command of a core that waits for the split unit: its earliest, once an earlier command of its slot is complete. -/
def Die.splitWaiting (y : Die) (c : Nat) : Option Cmd :=
  let x := (y.cores[c]?).getD .reset
  if x.ctl.frozen || x.ctl.run != .running then none
  else (x.fl.cmds.find? fun k => k.tl == .tln && !k.over).bind fun k =>
    if k.st = .waiting && !y.slotOwed (((k.args[k.rep]?).map CmdArg.splitSlot).getD 64) then some k else none
/-- The cores whose commands the split unit could take. -/
def Die.splitCores (y : Die) : List Nat := (List.range y.cores.length).filter fun c => (y.splitWaiting c).isSome
/-- SPLIT_UNIT_SERVE: the multiply at work goes a step further, or the unit takes the next command to arrive (R319). -/
def execSplitUnitServe (d : Nat) (s : State) : Out :=
  match (s.die d).working with
  | some (w, k) => .next (s.serveWork d w k)
  | none =>
    let l := (s.die d).splitCores
    match l[Config.pick d s.steps l.length % l.length]? with
    | none => .next s
    | some c =>
      match (s.die d).splitWaiting c with
      | none => .next s
      | some k => .next (s.startSplit d c k)

/-- RILL_ROW_MULTIPLY: rill r multiplies the next row queued at it into its partial (R323, R328). -/
def State.rillRow (s : State) (d r : Nat) (w : SplitWork) (k : Cmd) (t : Split) (row pa : Nat) : State :=
  let n := rowBytes t.tag t.n
  let ftz := k.kmode.toNat.testBit 4
  let a := (k.args[k.rep]?).getD (plainArg .nop [])
  let x := (a.xAt ftz row).1
  let v := rowOfBytes t.tag t.n ((s.released d k.rel).readPa d (s.keyOf d (s.core d w.core).ctx.tenant) pa n).1
  let cols := (((w.parts[r]?).getD []).mapIdx fun j p =>
    let m := x.mul (v.value t.tag ftz j)
    let z := (fmtFp32.value ftz p.toNat).add false m.1
    stage32 ftz (if v.ufl t.tag ftz j then stUfl else 0)
      (z.1, (z.2 || m.2) && !(x.isNan || (v.value t.tag ftz j).isNan)))
  let i := w.queue.findIdx fun q => q.1 == r
  (s.touchPa d pa n .plain).updDie d fun y => y.setWork
    { w with queue := w.queue.eraseIdx i, parts := w.parts.set r (cols.map fun c => BitVec.ofNat 32 c.1)
             stat := cols.foldl (fun s c => s ||| c.2) w.stat }
def execRillRowMultiply (d r : Nat) (s : State) : Out :=
  match (s.die d).working with
  | none => .next s
  | some (w, k) =>
    match w.queue.find? fun q => q.1 == r, (s.die d).split w.slot with
    | some (_, row, pa), some t => .next (s.rillRow d r w k t row pa)
    | _, _ => .next s

/-! ### The hot pass (R324) and CASCADE_SERVE (R232) -/

/-- The hot rows in a cascade's buffer. -/
def State.hotBuf (s : State) (d : Nat) (x : Core) (t : Split) : WBuf :=
  ⟨t.tag, t.n, 0, 0, [], (List.range t.map.length).map fun i => rowOfBytes t.tag t.n (s.hotRow d x t i)⟩
/-- The hot rows a cascade holds of a slot at its present version (R324). -/
def Cascade.heldHot (y : Cascade) (t : Split) : Option WBuf :=
  match y.split with
  | some (n, v, b) => if n = t.id ∧ v = t.ver then some b else none
  | none => none
/-- The basin accesses of a load of the hot slots (R168). -/
def Die.presentHot (y : Die) (cas : Nat) (x : Core) (t : Split) : Die :=
  (List.range t.map.length).foldl (fun y i => y.present (48 + cas) (x.basinAddr (t.hotOff i)) (rowBytes t.tag t.n)) y
/-- The hot pass of a multiply: its slots loaded, which empties the buffers for direct users, unless the cascade holds them at
this VER; one row of fired hot rows. The weights of the confluence's last pass are held no longer (R291). -/
def State.hotPass (s : State) (d cas : Nat) (w : SplitWork) (k : Cmd) (t : Split) : State :=
  let ftz := k.kmode.toNat.testBit 4
  let a := (k.args[k.rep]?).getD (plainArg .nop [])
  let x := s.core d w.core
  let held := (s.casc d cas).heldHot t
  let buf := held.getD (s.hotBuf d x t)
  let row := fun (r : Nat) => (buf.rows[(t.slotOf r).getD 0]?).getD ⟨[], []⟩
  let cols := (List.range t.n).map fun j =>
    let v := accRow ftz 0 (w.hot.map fun r => ((a.xAt ftz r).1, (row r).value t.tag ftz j))
    (v.1, v.2 ||| (if w.hot.any fun r => (row r).ufl t.tag ftz j then stUfl else 0))
  let s1 := if held.isSome then s.updCasc d cas fun y => { y with conf := none }
    else (s.updDie d fun y => y.presentHot cas x t).updCasc d cas fun y =>
      { y.emptied with conf := none, split := some (t.id, t.ver, buf) }
  s1.updDie d fun y => y.setWork
    { w with half := some (cols.map fun c => BitVec.ofNat 32 c.1), stat := cols.foldl (fun s c => s ||| c.2) w.stat }
/-- Whether a direct command of a core, issued before a multiply, has still to pass through the cascade (R232); none holds the
multiply back while the core is frozen, when it completes (R270). -/
def Core.directAhead (x : Core) (cas : Nat) (k : Cmd) : Bool :=
  !x.ctl.frozen && x.fl.cmds.any fun j => j.tl == .tlm && !j.over && decide (j.rank < k.rank) &&
    (j.args.drop j.rep).any fun a => a.cascade == some cas
/-- The multiply that waits for its hot pass at a cascade, in a slot that lets it in (R393). -/
def State.hotWaiting (s : State) (d cas : Nat) : Option (SplitWork × Cmd × Split) :=
  (s.die d).working.bind fun p =>
    ((s.die d).split p.1.slot).bind fun t =>
      if decide (p.1.cas = cas) && p.1.left.isEmpty && p.1.half.isNone && ((s.die d).slotOwner cas).elim true (· == t.tenant) &&
          !(s.core d p.1.core).directAhead cas p.2 then some (p.1, p.2, t)
      else none
end Sys2Proof.Machine
end

