-- ==== Sys2Proof/Machine/Routes.lean ====
section
/-!
DEFINITION. Sys2Proof/Machine/Routes.lean: the links and the router (R333 to R337, R352, R353, R438): which way a flit goes,
FLIT_HOP, FLIT_CRC_RETRY, and the training of links.
-/
namespace Sys2Proof.Machine
open Sys2Proof

/-! ### Ports (R333) -/

def State.ext (s : State) (dim : Nat) : Nat := if dim = 0 then s.xe else if dim = 1 then s.ye else s.ze
def State.coord (s : State) (d dim : Nat) : Nat :=
  if dim = 0 then (s.coords d).1 else if dim = 1 then (s.coords d).2.1 else (s.coords d).2.2
/-- Ports +x, −x, +y, −y, +z, −z. -/
def portOf (dim : Nat) (up : Bool) : Nat := 2 * dim + (if up then 0 else 1)
/-- The die on a port: each dimension is a ring. -/
def State.beside (s : State) (d dim : Nat) (up : Bool) : Nat :=
  let n := s.ext dim
  let v := (s.coord d dim + (if up then 1 else n - 1)) % n
  let c := s.coords d
  if dim = 0 then s.dieAt v c.2.1 c.2.2 else if dim = 1 then s.dieAt c.1 v c.2.2 else s.dieAt c.1 c.2.1 v
/-- Whether a port is on-package: + of an even coordinate, − of an odd one. -/
def State.onPackage (s : State) (d dim : Nat) (up : Bool) : Bool := up == (s.coord d dim % 2 == 0)
/-- In a ring of extent 2 the off-package ports stay down. -/
def State.neverUp (s : State) (d p : Nat) : Bool := s.ext (p / 2) == 2 && !s.onPackage d (p / 2) (p % 2 == 0)
def State.port (s : State) (d p : Nat) : Link := ((s.die d).links[p]?).getD .reset
def State.updLink (s : State) (d p : Nat) (f : Link → Link) : State :=
  s.updDie d fun y => { y with links := y.links.modify p f }
/-- The far end of a link: the die on the port and its port back. -/
def State.farEnd (s : State) (d p : Nat) : Nat × Nat := (s.beside d (p / 2) (p % 2 == 0), if p % 2 = 0 then p + 1 else p - 1)
/-- Both ends of a link changed alike. -/
def State.updEnds (s : State) (d p : Nat) (f : Link → Link) : State :=
  (s.updLink d p f).updLink (s.farEnd d p).1 (s.farEnd d p).2 f
/-- An interrupt cause of a die raised (R437). -/
def State.raiseHint (s : State) (d b : Nat) : State :=
  s.updDie d fun y => { y with hreg := { y.hreg with hint := y.hreg.hint ||| BitVec.ofNat 64 (2 ^ b) } }

/-! ### Training (R352, R353, R438) -/

def linkDown : Nat := 0
def linkTraining : Nat := 1
def linkUp : Nat := 2
/-- A link begins to train: nothing passes on it. -/
def State.startTraining (s : State) (d p : Nat) : State :=
  if s.neverUp d p then s else s.updEnds d p fun l =>
    { l with state := linkTraining, tries := 0, flits := 0, errs := 0, common := none }
/-- What KSKEWp reads while its link is not up (R407). -/
def noSkew : W64 := 0x8000000000000000
/-- KSKEWp measured (R407): the neighbour's counter less this die's, to one tick either way. -/
def State.measureSkew (s : State) (d p : Nat) : State :=
  let e := (s.farEnd d p).1
  let v := BitVec.ofInt 64 ((s.die e).kfrc - (s.die d).kfrc + (Config.pick d s.steps 3 % 3 : Nat) - 1)
  s.updDie d fun y => { y with trace := { y.trace with skew := y.trace.skew.set p v } }
/-- SKEW_MEASURE: of an up link (R407). -/
def execSkewMeasure (d p : Nat) (s : State) : Out := if (s.port d p).state = linkUp then .next (s.measureSkew d p) else .next s
/-- Nominal data lanes of a port (R335). -/
def State.nominalLanes (s : State) (d p : Nat) : Nat := if s.onPackage d (p / 2) (p % 2 == 0) then 72 else 30
/-- The lowest common map of n data lanes (R352): the lanes that may be used in ascending order, spares in place of those that
may not while there are any. -/
def laneMap (n : Nat) (good : List Nat) : List Nat :=
  ((List.range n).foldl (fun (a : List Nat × List Nat) i =>
    if good.contains i then (a.1 ++ [i], a.2)
    else match a.2 with
      | [] => a
      | t :: ts => (a.1 ++ [t], ts)) ([], (List.range 128).filter fun i => decide (n ≤ i) && good.contains i)).1
/-- The lanes good at both ends that no eye event has named (R352, R353). -/
def State.goodLanes (s : State) (d p : Nat) (o : LinkOffer) : List Nat :=
  let worn := (s.port d p).worn ++ (s.port (s.farEnd d p).1 (s.farEnd d p).2).worn
  o.goodHere.eraseDups.filter fun i => o.goodThere.contains i && !worn.contains i
/-- The configuration a round agrees on (R352): the one both ends propose, where its lanes can be used; in a retry the lowest
common one, where both ends still can. -/
def Link.agreed (l : Link) (n : Nat) (good : List Nat) (o : LinkOffer) : Option (List Nat × Nat) :=
  match l.common with
  | some c => if c.1.all good.contains && decide (c.2 ≤ o.rateHere ∧ c.2 ≤ o.rateThere) then some c else none
  | none =>
    if o.mapHere == o.mapThere && o.rateHere == o.rateThere && o.mapHere.all good.contains &&
        decide (o.mapHere.eraseDups.length = o.mapHere.length ∧ o.mapHere.length ≤ n ∧ n ≤ 2 * o.mapHere.length) then
      some (o.mapHere, o.rateHere)
    else none
/-- LINK_TRAINING_ROUND: one round of the training of port p with what the two ends bring (R352): the link comes up as agreed,
retries at the lowest common configuration, or goes down. -/
def execLinkTrainingRound (d p : Nat) (o : LinkOffer) (s : State) : Out :=
  let l := s.port d p
  let common := (o.goodHere.eraseDups.filter o.goodThere.contains).length
  let n := s.nominalLanes d p
  let good := s.goodLanes d p o
  let down := fun (s : State) =>
    ((s.updEnds d p fun l => { l with state := linkDown, lanes := 0 }).raiseHint d 5).raiseHint (s.farEnd d p).1 5
  if l.state ≠ linkTraining ∨ s.neverUp d p then .next s
  else if 2 * common < n then .next (down s)
  else
    match l.agreed n good o with
    | some c =>
      let up := s.updEnds d p fun l => { l with state := linkUp, lanes := c.1.length % 256, rate := c.2 % 4, map := c.1, common := none }
      .next ((up.measureSkew d p).measureSkew (s.farEnd d p).1 (s.farEnd d p).2)
    | none =>
      if 3 ≤ l.tries then .next (down s)
      else .next (s.updEnds d p fun l =>
        { l with tries := l.tries + 1, common := some (laneMap n good, min o.rateHere o.rateThere) })
/-- LINK_RETRAIN_REQUEST: a write of LSTAT.RETRAIN (R438). -/
def execLinkRetrainRequest (d p : Nat) (s : State) : Out :=
  if (s.port d p).state = linkTraining then .next s else .next (s.startTraining d p)
/-- LINK_EYE_EVENT: lane `lane` of port p has fallen below its threshold (R353, R438): a training that follows puts a spare in its
place, and one starts at once where the host has set EYERT and the link is up. -/
def execLinkEyeEvent (d p lane : Nat) (s : State) : Out :=
  let s1 := (s.updLink d p fun l => { l with elane := lane % 128, worn := (lane % 128 :: l.worn).eraseDups }).raiseHint d 4
  .next (if (s.port d p).eyert && (s.port d p).state == linkUp then s1.startTraining d p else s1)

/-! ### Routes (R336, R337) -/

/-- What becomes of a flit at a router: it waits, it has nowhere to go, or it takes a port, with the hops its detour fixes and
the ring directions it holds to. -/
inductive Hop where
  | wait
  | lost
  | go (p : Nat) (plan : List Nat) (turns : List (Nat × Bool))
  deriving DecidableEq, Repr

/-- The minimal direction: + when f ≤ n − f. -/
def State.minimalUp (s : State) (a b dim : Nat) : Bool :=
  let n := s.ext dim
  let f := (s.coord b dim + n - s.coord a dim) % n
  decide (f ≤ n - f)
/-- A port of die a that leads to die b: the first that is up, else whether one trains. -/
def State.portTo (s : State) (a b : Nat) : Hop :=
  let ps := (List.range 6).filter fun p => (s.farEnd a p).1 == b
  match ps.find? fun p => (s.port a p).state == linkUp with
  | some p => .go p [] []
  | none => if ps.any fun p => (s.port a p).state == linkTraining then .wait else .lost
/-- The ways round a dimension that has no link up at die a (R337): a hop in the next dimension, the hop there, in the path's own
direction first, and the hop back. The other way round holds for the rest of the ring. -/
def State.detours (s : State) (a dim : Nat) (own : Bool) (turns : List (Nat × Bool)) : List (Nat × Nat × Hop) :=
  let nd := (dim + 1) % 3
  [(true, own), (false, own), (true, !own), (false, !own)].map fun q =>
    let n1 := s.beside a nd q.1
    let n2 := s.beside n1 dim q.2
    ((s.port a (portOf nd q.1)).state, (s.port n1 (portOf dim q.2)).state,
      .go (portOf nd q.1) [n2, s.beside n2 nd (!q.1)] (if q.2 = own then turns else (dim, q.2) :: turns))
/-- The detour over the next dimension: the first whose links are up; it waits while one trains, and is lost when none does. -/
def State.sidestep (s : State) (a dim : Nat) (own : Bool) (turns : List (Nat × Bool)) : Hop :=
  let l := s.detours a dim own turns
  match l.find? fun q => q.1 == linkUp && q.2.1 == linkUp with
  | some q => q.2.2
  | none => if l.any fun q => q.1 != linkDown && q.2.1 != linkDown then .wait else .lost
/-- One hop in a dimension in direction `want`, or the other way round its ring, or over the next dimension. -/
def State.ringHop (s : State) (a dim : Nat) (want : Bool) (turns : List (Nat × Bool)) : Hop :=
  let held := (turns.find? fun t => t.1 == dim).map (·.2)
  let up := held.getD want
  let st := (s.port a (portOf dim up)).state
  let other := (s.port a (portOf dim (!up))).state
  if st = linkUp then .go (portOf dim up) [] turns
  else if st = linkTraining then .wait
  else if held.isNone && other == linkUp then .go (portOf dim (!up)) [] ((dim, !up) :: turns)
  else if held.isNone && other == linkTraining then .wait
  else s.sidestep a dim up (turns.filter fun t => t.1 != dim || held.isSome)
/-- The directions of a dimension that bring a flit nearer (R336): both where the ring is as long either way. -/
def State.nearer (s : State) (a b dim : Nat) : List (Nat × Bool) :=
  let n := s.ext dim
  let f := (s.coord b dim + n - s.coord a dim) % n
  if f = 0 then [] else (if f ≤ n - f then [(dim, true)] else []) ++ (if n - f ≤ f then [(dim, false)] else [])
/-- Where a flit goes next from die a toward die b (R336): ORD and RND by x, y, z; ADP by any dimension and direction that brings
it nearer, of those whose port is up if there is one (log 23). A fixed hop whose links have gone down is given up for a fresh
route (R337). -/
def State.freshHop (s : State) (f : Flit) (b : Nat) : Hop :=
  match f.req.cls with
  | .adp =>
    let all := (List.range 3).flatMap fun i => s.nearer f.pos b i
    let up := all.filter fun q => (s.port f.pos (portOf q.1 q.2)).state == linkUp
    let l := if up.isEmpty then all else up
    (l[Config.pick f.pos s.steps l.length % l.length]?).elim .wait fun q => s.ringHop f.pos q.1 q.2 f.turns
  | _ => (((List.range 3).filter fun i => s.coord f.pos i != s.coord b i).head?).elim .wait fun i =>
      s.ringHop f.pos i (s.minimalUp f.pos b i) f.turns
def State.hopTo (s : State) (f : Flit) (b : Nat) : Hop :=
  match f.plan with
  | p :: rest =>
    match s.portTo f.pos p with
    | .go q _ _ => .go q rest f.turns
    | .wait => .wait
    | .lost => s.freshHop f b
  | [] => s.freshHop f b
/-- The die a flit travels to now. -/
def Flit.target (f : Flit) : Nat := f.mid.getD f.dst
/-- Whether a flit has reached the die it is for. -/
def Flit.arrived (f : Flit) : Bool := f.pos == f.dst && f.mid.isNone

/-- A lost flit's command ends with status 0x0A (R337); a forwarded task is sent again with the patience of its record (R297). -/
def Cmd.lose (k : Cmd) (tval : W64) : Cmd := k.fail ⟨0x0A, tval, 0⟩
def State.loseFlit (s : State) (n : Nat) (f : Flit) : State :=
  ({ s with flits := s.flits.eraseIdx n }).updCmd f.req.die f.req.core f.req.tl f.req.num fun k =>
    k.lose (Config.openValue 1 s.steps)
/-- A flit counted on a link; 2^20 flits end a count of errors (R438). -/
def Link.count (l : Link) : Link :=
  if l.flits + 1 < 2 ^ 20 then { l with flits := l.flits + 1 } else { l with flits := 0, errs := 0 }

/-- FLIT_HOP: flit n goes one hop on; at the intermediate die of RND its second leg begins (R336). -/
def execFlitHop (n : Nat) (s : State) : Out :=
  match s.flits[n]? with
  | none => .next s
  | some f =>
    if f.arrived then .next s
    else if f.pos = f.target then .next { s with flits := s.flits.set n { f with mid := none, turns := [], plan := [] } }
    else
      match s.hopTo f f.target with
      | .wait => .next s
      | .lost => .next (s.loseFlit n f)
      | .go p plan turns =>
        let there := (s.farEnd f.pos p).1
        let keep := turns.filter fun t => s.coord there t.1 != s.coord f.target t.1
        .next ({ s with flits := s.flits.set n { f with pos := there, plan := plan, turns := keep } }.updLink f.pos p Link.count)
/-- FLIT_CRC_RETRY: flit n failed its CRC on the link it is about to cross and is sent again (R335): nothing of it changes;
errors above the limit start a training (R352). -/
def execFlitCrcRetry (n : Nat) (s : State) : Out :=
  match s.flits[n]? with
  | none => .next s
  | some f =>
    match s.hopTo f f.target with
    | .go p _ _ =>
      if f.pos = f.target then .next s
      else
        let s1 := s.updLink f.pos p fun l => { l with errs := l.errs + 1 }
        .next (if (s1.port f.pos p).crclim < (s1.port f.pos p).errs then s1.startTraining f.pos p else s1)
    | _ => .next s

end Sys2Proof.Machine
end

