-- ==== Sys2Proof/Machine/Fabric.lean ====
section
/-!
DEFINITION. Sys2Proof/Machine/Fabric.lean: the F engine (R338 to R351, R212) and the fetch of `mmar` (R349): issue, the
requests a command sends step by step, what the home die performs, and the responses. CASCADE_SERVE stands here too.
-/
namespace Sys2Proof.Machine
open Sys2Proof

/-! ### Arguments -/

def wBytes : FWidth → Nat
  | .n8 => 1
  | .n16 => 2
  | .n32 => 4
  | .n64 => 8
/-- A remote command's operands: VA, virtual peer, s[b], s[c], then the dies its peers map to. -/
def remoteArg (i : Instr) (va vp b c : W64) (homes : List Nat) (ps : List Pattern) : CmdArg :=
  patArg i ([va, vp, b, c] ++ homes.map (BitVec.ofNat 64)) ps
def CmdArg.homes (a : CmdArg) : List Nat := (a.scal.drop 4).map (·.toNat)
def CmdArg.home (a : CmdArg) : Nat := a.homes.headD 0
/-- The class a remote command travels in; ticket commands travel in ORD (R347). -/
def CmdArg.cls (a : CmdArg) : Option RClass :=
  match a.instr with
  | .rld _ _ _ c _ => some c
  | .rst _ _ _ c _ => some c
  | .ramo _ _ _ _ c _ _ => some c
  | .ramocas _ _ _ _ c _ _ => some c
  | .rmc _ _ _ _ c _ => some c
  | .rtld _ _ _ c => some c
  | .rget _ _ _ c _ => some c
  | .rput _ _ _ c _ => some c
  | .tkget _ _ _ => some .ord
  | .tkwait _ _ _ => some .ord
  | .tkret _ _ _ => some .ord
  | .mmar _ _ _ c _ _ _ => some c
  | _ => none
/-- The requests of one repetition (R18, R343, R344, R349). -/
def CmdArg.remoteSteps (a : CmdArg) : Nat :=
  match a.instr with
  | .rtld .. => 67
  | .rget .. => a.steps
  | .rput .. => a.steps
  | .mmar .. => a.fetches
  | _ => 1
/-- The remote pattern of a bulk transfer (R344). -/
def CmdArg.remotePattern (a : CmdArg) (p : Pattern) : Pattern := { p with base := a.word 0 }
/-- A remote address as 64 bits: one outside the address space stays outside. -/
def remoteAddr (a : Int) : Nat := (BitVec.ofInt 64 a).toNat
/-- Bytes laid along runs. -/
def cutRuns : List Run → List Byte → List (Nat × List Byte)
  | [], _ => []
  | r :: rs, bs => (remoteAddr r.lo, bs.take r.n) :: cutRuns rs (bs.drop r.n)

/-! ### Requests (R338, R339) -/

/-- The dies of a die's partition that are active (R336, R374). -/
def State.activeDies (s : State) (d : Nat) : List Nat :=
  (List.range s.dies.length).filter fun e => (s.die e).part == (s.die d).part && (s.die e).amask.testBit (e % 8)
/-- The intermediate die of RND (log 23). -/
def State.midFor (s : State) (d : Nat) (cls : RClass) : Option Nat :=
  let l := s.activeDies d
  if cls = .rnd then l[Config.pick d s.steps l.length % l.length]? else none
/-- A request of the step a command stands at; its tag is source die, context slot, number and step. -/
def requestOf (d c : Nat) (x : Core) (k : Cmd) (part : Nat) (cls : RClass) (op : ROp) : Req :=
  ⟨d, c, x.k.kslot.toNat, x.ctx.tenant, k.tl, k.num, k.rep, k.mpc, part, cls, 0, 0, op, k.rel⟩
/-- Whether two requests carry the same replay tag (R339). -/
def Req.sameTag (q r : Req) : Bool :=
  q.die == r.die && q.core == r.core && q.slot == r.slot && q.tl == r.tl && q.num == r.num && q.rep == r.rep &&
    q.step == r.step && q.part == r.part
/-- A request sent; one to a die that is not there is lost (R337). -/
def State.request (s : State) (q : Req) (home : Nat) : State :=
  if s.hasDie home then
    (s.send q home (s.midFor q.die q.cls)).updCmd q.die q.core q.tl q.num fun k => { k with st := .running }
  else s.updCmd q.die q.core q.tl q.num fun k => k.fail ⟨0x0A, Config.openValue 1 s.steps, 0⟩
/-- Flits of a command still under way. -/
def State.underWay (s : State) (d c : Nat) (k : Cmd) : Bool :=
  s.flits.any fun f => f.req.die == d && f.req.core == c && f.req.tl == k.tl && f.req.num == k.num

/-- A step of a command complete: its next step or repetition waits to be sent, or the command ends, with the first
repetition's refusal as its status (log 22). An `mmar` that has fetched waits for its cascade. -/
def Cmd.remoteNext (k : Cmd) (a : CmdArg) (status : Nat) : Cmd :=
  let st := if k.carry = 0 then status else k.carry
  if k.tl = .tlm || decide (k.mpc + 1 < a.remoteSteps) then { k with mpc := k.mpc + 1, st := .waiting }
  else if k.rep + 1 < k.args.length then { k with mpc := 0, rep := k.rep + 1, st := .waiting, extra := if st = 0 then [] else [st] }
  else { k with extra := [] }.finish st

/-- What `rput` sends in a step: the units of its granule as they are read locally (R344); `v` is the machine as the command reads
it (R359). -/
def State.putUnits (s v : State) (d : Nat) (x : Core) (p rp : Pattern) (m : Nat) :
    Except EngErr (List (List (Nat × List Byte) × Bool)) :=
  allOk ((p.unitStarts m).map fun e =>
    (s.locateRuns d x .read (p.unitRuns (p.offset e))).map fun ps =>
      let r := v.readPieces d (s.keyOf d x.ctx.tenant) ps
      (cutRuns (rp.unitRuns (rp.offset e)) r.1, r.2))
/-- What the step a command stands at asks of its home, or its local failure. -/
def State.stepOp (s : State) (d : Nat) (x : Core) (k : Cmd) (a : CmdArg) : Except EngErr ROp :=
  let va := a.word 0
  let b := (a.scal[2]?).getD 0
  match a.instr, a.pats with
  | .rld _ _ _ _ w, _ => .ok (.load [(va, (wBytes w))])
  | .rst _ _ _ _ w, _ => .ok (.store [([(va, leBytes (wBytes w) b.toNat)], false)] false)
  | .ramo op _ _ _ _ w _, _ => .ok (.atomic op va (wBytes w) b)
  | .ramocas _ _ _ _ _ w _, _ => .ok (.cas va (wBytes w) b ((a.scal[3]?).getD 0))
  | .rmc _ _ _ _ _ w, _ => .ok (.store [([(va, leBytes (wBytes w) b.toNat)], false)] false)
  | .rtld .., _ => .ok (.load [(va + 64 * k.mpc, 64)])
  | .tkget .., _ => .ok (.tkget va)
  | .tkwait .., _ => .ok (.tkwait va (b.toNat % 2 ^ 32))
  | .tkret .., _ => .ok (.tkret va (b.toNat % 2 ^ 32))
  | .mmar .., p :: _ => .ok (.load [(va + 64 * k.mpc, min 64 (p.e1 * p.e0 * tagWidth b.toNat / 8 - 64 * k.mpc))])
  | .rget .., p :: _ =>
    let rp := a.remotePattern p
    .ok (.load ((rp.unitStarts k.mpc).flatMap fun e => (rp.unitRuns (rp.offset e)).map fun r => (remoteAddr r.lo, r.n)))
  | .rput .., p :: _ => (s.putUnits (s.released d k.rel) d x p (a.remotePattern p) k.mpc).map fun us => .store us true
  | _, _ => .error ⟨0x0A, 0, 0⟩

/-- Whether an ORD request of command k must stay behind an earlier ORD command to one of its homes that has requests still
to send (R338). -/
def State.ordWaits (s : State) (d c : Nat) (k : Cmd) (a : CmdArg) : Bool :=
  k.tl == .tlf && a.cls == some .ord && (s.core d c).fl.cmds.any fun j =>
    j.tl == .tlf && decide (j.num < k.num) && (j.st == .waiting || j.st == .running) &&
      (j.args[j.rep]?).elim false fun b => b.cls == some .ord && b.homes.any a.homes.contains &&
        (j.st == .waiting || decide (j.mpc + 1 < b.remoteSteps) || decide (j.rep + 1 < j.args.length))

/-! ### wdpub (R351) -/

/-- The entry a record publishes, all but its SEQ; VALID where it advertises. -/
def publishedBytes (wid : W64) (slot : Nat) (valid : Bool) (seq : Nat) (rec : List Byte) : List Byte :=
  leBytes 8 wid.toNat ++ ((rec.drop 8).take 7) ++ [0] ++ ((rec.drop 16).take 9) ++
    [BitVec.ofNat 8 slot, BitVec.ofNat 8 (boolBit valid), 0] ++ ((rec.drop 28).take 28) ++ leBytes 8 seq
/-- Whether a record may advertise: a tag of R216 and its limits (R351). -/
def DirEntry.sound (e : DirEntry) : Bool :=
  (cbTable e.tag).isNone && decide (e.n ≤ e.stride ∧ e.base % 64 = 0) &&
    (tagClass e.tag).elim false fun c => decide (1 ≤ e.k ∧ e.k ≤ classK c ∧ 1 ≤ e.n ∧ e.n ≤ classN c)
/-- A page of an entry that no translation reaches, outside the address space or in the aperture: status 0x01 (R351). -/
def unmappedFault (a : Int) : EngErr := (⟨1, false, false, 0, Acc.read.code, remoteAddr a⟩ : XFault).engine
/-- Every page of the weights and the bias translates with R and WGT. -/
def State.weightsOpen (s : State) (d : Nat) (x : Core) (e : DirEntry) : Except EngErr Unit :=
  let rs := ((List.range e.k).flatMap e.pattern.rowRuns) ++ (if e.bias = 0 then [] else [⟨e.bias, 2 * e.n⟩])
  match allOk ((rs.flatMap fun r => Run.pieces (r.n / 4096 + 2) r.lo r.n).map fun r =>
      match elemClass r.lo with
      | .memory va =>
        match s.translate d x x.ctxLevel .read va with
        | .error f => .error f.engine
        | .ok o => if o.wgt then .ok () else .error (s.wgtFault d x va)
      | _ => .error (unmappedFault r.lo)) with
  | .error f => .error f
  | .ok _ => .ok ()
/-- The place of an identity in the directory: its own entry, unless another publishes it, or the lowest free one (R351). -/
def Die.dirPlace (y : Die) (slot wid : Nat) : Option Nat :=
  match y.wdir.find? fun e => e.valid && e.wid == wid with
  | some e => if e.pub = slot then some e.idx else none
  | none => (List.range 1024).find? fun i => !y.wdir.any fun e => e.idx == i && e.valid
def Die.setDir (y : Die) (e : DirEntry) : Die := { y with wdir := e :: y.wdir.filter fun f => f.idx != e.idx }
/-- `wdpub` on the issuing die: its status, or why it parks. -/
def State.publishEntry (s : State) (d : Nat) (x : Core) (k : Cmd) (a : CmdArg) : Except EngErr (Nat × State) :=
  let slot := x.k.kslot.toNat
  let wid := (a.scal[0]?).getD 0
  if (a.scal[1]?).getD 0 ≠ 0 then
    .ok (0, s.updDie d fun y => y.withdrawEntry fun e => e.valid && e.wid == wid.toNat && e.pub == slot)
  else
    match (s.die d).dirPlace slot wid.toNat with
    | none => .ok (0x21, s)
    | some i =>
      let va := (a.scal[2]?).getD 0
      match s.locateRuns d x .read [⟨va.toNat, 64⟩] with
      | .error e => .error e
      | .ok ps =>
        let r := (s.released d k.rel).readPieces d (s.keyOf d x.ctx.tenant) ps
        if r.2 then .error ⟨8, va, 0⟩
        else
          let seq := (((s.die d).wdir.find? fun e => e.idx == i).elim 0 DirEntry.seq) + 2
          let off : DirEntry := ⟨i, publishedBytes wid slot false seq r.1⟩
          let put := fun (e : DirEntry) => s.updDie d fun y => y.setDir e
          if !off.sound then .ok (0, put off)
          else
            match s.weightsOpen d x off with
            | .error e => .error e
            | .ok _ => .ok (0, put ⟨i, publishedBytes wid slot true seq r.1⟩)

/-! ### Sending -/

/-- The replicas of `rmc` not yet recorded are sent, all at once (R342). -/
def State.sendReplicas (s : State) (d c : Nat) (k : Cmd) (a : CmdArg) (cls : RClass) (op : ROp) : State :=
  let done := k.extra.headD 0
  let x := s.core d c
  ((List.range a.homes.length).filter fun i => !done.testBit i).foldl (fun s i =>
    s.request (requestOf d c x k i cls op) ((a.homes[i]?).getD 0)) s
/-- The generation a `pbar` waits for. -/
def Cmd.generation (k : Cmd) : Nat := (k.extra[1]?).getD 0
/-- One command that waits goes on: its next request leaves, or what it does on its own die is done. -/
def State.launchCmd (s : State) (d c : Nat) (k : Cmd) : State :=
  let x := s.core d c
  match k.args[k.rep]? with
  | none => s.updCmd d c k.tl k.num fun k => k.finish 0
  | some a =>
    match a.instr, a.cls with
    | .wdpub .., _ =>
      (match s.publishEntry d x k a with
       | .error e => s.updCmd d c k.tl k.num fun k => k.fail e
       | .ok (st, t) => t.updCmd d c k.tl k.num fun k => k.remoteNext a st)
    | .pbar _, _ =>
      (match s.findNet none x.launchKey x.place with
       | none => s.updCmd d c k.tl k.num fun k => k.finish 0
       | some i =>
         if k.generation ≤ ((s.nets[i]?).map (·.done)).getD 0 then s.updCmd d c k.tl k.num fun k => k.finish 0
         else s.updCmd d c k.tl k.num fun k => { k with st := .running })
    | _, none => s
    | _, some cls =>
      if s.ordWaits d c k a then s
      else
        match s.stepOp d x k a with
        | .error e => s.updCmd d c k.tl k.num fun k => k.fail e
        | .ok op =>
          match a.instr with
          | .rmc .. => s.sendReplicas d c k a cls op
          | _ => s.request (requestOf d c x k 0 cls op) a.home
/-- Whether a command waits for the fabric. -/
def Cmd.wantsFabric (k : Cmd) : Bool := k.st == .waiting && (k.tl == .tlf || k.fetching)
/-- Every command of a core that waits for the fabric goes on, in order; none while it is frozen (R270). -/
def State.launchF (s : State) (d c : Nat) : State :=
  let x := s.core d c
  if x.ctl.frozen || x.ctl.run != .running then s
  else (x.fl.cmds.filter Cmd.wantsFabric).foldl (fun s k => s.launchCmd d c k) s
def State.launchAll (s : State) (d : Nat) : State :=
  (List.range (s.die d).cores.length).foldl (fun s c => s.launchF d c) s

/-! ### Issue (R334, R339) -/

/-- A `tkwait` that has not ended holds the F queue head (R347). -/
def Core.ticketHolds (x : Core) : Bool := x.fl.cmds.any fun k =>
  k.tl == .tlf && !k.over && k.args.any fun a => match a.instr with
    | .tkwait .. => true
    | _ => false
/-- A remote command captured; with its last repetition its first request leaves. -/
def State.issueF (s : State) (tl : TimelineId) (t : Nat) (a : CmdArg) (f : Cmd → Cmd) : Out :=
  match s.issueCmd tl t a f with
  | .next u => if s.cur.rep + 1 < s.cur.reps then .next u else .next (u.launchF s.cur.die s.cur.core)
  | o => o
/-- The gate of every F command: it waits; then the first in the order of R260 of the faults its form gives and of poisoned
scalars. -/
def State.gateF (s : State) (reads : List Nat) (waits : State → Bool) (bads : State → List Bad) (k : State → Out) : Out :=
  s.issueGate .tlf reads fun s =>
    if s.me.ticketHolds || waits s then s.stall
    else
      match worstOf (bads s ++ poisonBads s.me reads) with
      | some b => s.raiseBad b
      | none => k s
/-- The die of a virtual peer, or the peer fault. -/
def State.peerDie (s : State) (vp : Nat) (tval : W64) : Except Bad Nat :=
  match s.peer s.cur.die s.me vp with
  | .error sub => .error (.fault 0x06 sub tval)
  | .ok p => .ok (s.dieOfPeer p)
/-- The address checks of R339: the address fault, the alignment fault. -/
def remoteBads (va : W64) (n : Nat) : List Bad :=
  match addrFault va n with
  | some c => [.fault c 0 va]
  | none => []
/-- The die a virtual peer in a scalar names. -/
def State.peerIn (s : State) (vp : W64) : Except Bad Nat :=
  if 4096 ≤ vp.toNat then .error .illegal else s.peerDie vp.toNat vp
/-- A remote command with the pair s[a], s[a+1] and further scalars to read: continue with the VA, the peer, its die. -/
def State.remoteThen (s : State) (a n : Nat) (reads : List Nat) (waits : State → Bool) (bads : State → List Bad)
    (k : State → W64 → W64 → Nat → Out) : Out :=
  s.gateF (a :: (a + 1) % 64 :: reads) waits
    (fun s => bads s ++ badsOf [s.peerIn (s.me.val ((a + 1) % 64))] ++ remoteBads (s.me.val a) n) fun s =>
      let vp := s.me.val ((a + 1) % 64)
      match s.peerIn vp with
      | .error b => s.raiseBad b
      | .ok d => k s (s.me.val a) vp d
/-- Nothing more to wait for, no fault of its own. -/
def noWait (_ : State) : Bool := false
def noBads (_ : State) : List Bad := []

def execRld (t a b : Nat) (cls : RClass) (w : FWidth) (s : State) : Out :=
  s.remoteThen a (wBytes w) [] noWait noBads fun s va vp h => s.issueF .tlf t (remoteArg (.rld t a b cls w) va vp 0 0 [h] []) id
def execRst (t a b : Nat) (cls : RClass) (w : FWidth) (s : State) : Out :=
  s.remoteThen a (wBytes w) [b] noWait noBads fun s va vp h =>
    s.issueF .tlf t (remoteArg (.rst t a b cls w) va vp (s.me.val b) 0 [h] []) id
/-- The widths and scopes of remote atomics (R340). -/
def remoteAtomicOk (w : FWidth) (sc : Scope) : Bool :=
  (w == .n32 || w == .n64) && (sc == .die || sc == .pkg || sc == .pod)
def execRamo (op : AtomicOp) (t a b : Nat) (cls : RClass) (w : FWidth) (sc : Scope) (s : State) : Out :=
  if !remoteAtomicOk w sc then s.illegal
  else
    s.remoteThen a (wBytes w) [b] noWait noBads fun s va vp h =>
      s.issueF .tlf t (remoteArg (.ramo op t a b cls w sc) va vp (s.me.val b) 0 [h] []) id
def execRamocas (t a b c : Nat) (cls : RClass) (w : FWidth) (sc : Scope) (s : State) : Out :=
  if !remoteAtomicOk w sc then s.illegal
  else
    s.remoteThen a (wBytes w) [b, c] noWait noBads fun s va vp h =>
      s.issueF .tlf t (remoteArg (.ramocas t a b c cls w sc) va vp (s.me.val b) (s.me.val c) [h] []) id

/-- The replicas of a box, by index, as unwrapped coordinates (R342). -/
def boxOf (vp box : W64) : List (Nat × Nat × Nat) :=
  let dx := fieldOf box 3 0 + 1
  let dy := fieldOf box 7 4 + 1
  let dz := fieldOf box 11 8 + 1
  (List.range (dx * dy * dz)).map fun i =>
    (peerX vp.toNat + i % dx, peerY vp.toNat + i / dx % dy, peerZ vp.toNat + i / (dx * dy))
/-- The die of a replica, or its peer fault. -/
def State.replica (s : State) (q : Nat × Nat × Nat) : Except Bad Nat :=
  let tval := BitVec.ofNat 64 (q.1 * 2 ^ 16 + q.2.1 * 2 ^ 8 + q.2.2)
  if 15 < q.1 ∨ 15 < q.2.1 ∨ 15 < q.2.2 then .error (.fault 0x06 1 tval)
  else s.peerDie (q.1 * 256 + q.2.1 * 16 + q.2.2) tval
def boxBad (box : W64) : Bool :=
  fieldOf box 63 12 != 0 || decide (512 < (fieldOf box 3 0 + 1) * (fieldOf box 7 4 + 1) * (fieldOf box 11 8 + 1))
def execRmc (t a b c : Nat) (cls : RClass) (w : FWidth) (s : State) : Out :=
  let vp := fun (x : Core) => x.val ((a + 1) % 64)
  let bad := fun (x : Core) => decide (4096 ≤ (vp x).toNat) || boxBad (x.val c)
  s.gateF [a, (a + 1) % 64, b, c] noWait (fun s =>
      if bad s.me then [.illegal]
      else badsOf ((boxOf (vp s.me) (s.me.val c)).map s.replica) ++ remoteBads (s.me.val a) (wBytes w)) fun s =>
    s.issueF .tlf t (remoteArg (.rmc t a b c cls w) (s.me.val a) (vp s.me) (s.me.val b) (s.me.val c)
      (((boxOf (vp s.me) (s.me.val c)).map s.replica).filterMap Except.toOption) []) id
def execRtld (t a b : Nat) (cls : RClass) (s : State) : Out :=
  if firstStream ≤ b then s.illegal
  else
    s.remoteThen a 64 [] (fun s => s.me.mWriteWaits s.cur.rank [b]) noBads fun s va vp h =>
      s.issueF .tlf t (remoteArg (.rtld t a b cls) va vp 0 0 [h] []) id

/-- Whether a mask of `rfence` names a command's class (R345). -/
def Cmd.inMask (k : Cmd) (mask : Nat) : Bool :=
  k.tl == .tlf && k.args.any fun a => match a.cls with
    | some .ord => mask.testBit 0
    | some .adp => mask.testBit 1
    | some .rnd => mask.testBit 2
    | none => false
/-- `rfence` holds the F queue head until every earlier command of the masked classes has completed (R345). -/
def execRfence (t mask : Nat) (s : State) : Out :=
  s.gateF [] (fun s => s.me.fl.cmds.any fun k => k.inMask mask) noBads fun s =>
    s.issueCmd .tlf t (plainArg (.rfence t mask) []) fun k => k.finish 0

def execTkget (t a b : Nat) (s : State) : Out :=
  s.remoteThen a 1 [] noWait noBads fun s va vp h => s.issueF .tlf t (remoteArg (.tkget t a b) va vp 0 0 [h] []) id
def execTkwait (t a b : Nat) (s : State) : Out :=
  s.remoteThen a 1 [b] noWait noBads fun s va vp h =>
    s.issueF .tlf t (remoteArg (.tkwait t a b) va vp (s.me.val b) 0 [h] []) id
def execTkret (t a b : Nat) (s : State) : Out :=
  s.remoteThen a 1 [b] noWait noBads fun s va vp h =>
    s.issueF .tlf t (remoteArg (.tkret t a b) va vp (s.me.val b) 0 [h] []) id

/-- The local pattern of a bulk transfer: its faults (R181), its step count (R17). -/
def bulkBads (i : Instr) : Except Bad Pattern → List Bad
  | .error b => [b]
  | .ok p => stepBads (remoteArg i 0 0 0 0 [] [p]) ++ (if p.formatBad then [.format] else [])
/-- Whether its codebook or its basin side is not free (R174, R307). -/
def State.bulkWaits (s : State) (i : Instr) : Except Bad Pattern → Bool
  | .error _ => false
  | .ok p => s.me.booksWait s.cur.rank [p] || !s.me.basinFree s.cur.rank (remoteArg i 0 0 0 0 [] [p]).prints
/-- `rget` and `rput` (R344): the local pattern resolved, its codebook and its basin side free. -/
def State.issueBulk (s : State) (i : Instr) (t a b : Nat) (rec : Option Shape4) : Out :=
  if !modeMatches s.me rec then s.illegal
  else
    s.remoteThen a 1 (operandScalars b rec) (fun s => s.bulkWaits i (s.operandPattern b rec))
      (fun s => bulkBads i (s.operandPattern b rec)) fun s va vp h =>
        match s.operandPattern b rec with
        | .error bad => s.raiseBad bad
        | .ok p => s.issueF .tlf t (remoteArg i va vp 0 0 [h] [p]) id
def execRget (t a b : Nat) (cls : RClass) (rec : Option Shape4) (s : State) : Out := s.issueBulk (.rget t a b cls rec) t a b rec
def execRput (t a b : Nat) (cls : RClass) (rec : Option Shape4) (s : State) : Out := s.issueBulk (.rput t a b cls rec) t a b rec

def execWdpub (t a b : Nat) (s : State) : Out :=
  s.gateF [a, (a + 1) % 64, b] noWait (fun s => if 1 < (s.me.val ((a + 1) % 64)).toNat then [.illegal] else []) fun s =>
    s.issueF .tlf t (plainArg (.wdpub t a b) [s.me.val a, s.me.val ((a + 1) % 64), s.me.val b]) id

/-- `pbar` arrives and lets the core go on (R212): its issue is a release at `.pod`, which its stores and those it has acquired
have reached. -/
def execPbar (t : Nat) (s : State) : Out :=
  s.gateF [] (fun s => !s.me.loadsBack || !s.storesAt .pod) noBads fun s =>
    let x := s.me
    let s0 := s.publish .pod
    match s.findNet none x.launchKey x.place with
    | none => s0.issueF .tlf t (plainArg (.pbar t) []) id
    | some i =>
      let s1 := s0.updNet i fun n =>
        let n1 := n.setPart x.place fun p => { p with count := p.count + 1 }
        if n.lone then { n1 with done := n1.done + 1 } else n1
      let gen := (((s1.nets[i]?).bind fun n => n.part x.place).map (·.count)).getD 0
      s1.issueF .tlf t (plainArg (.pbar t) []) fun k => { k with extra := [0, gen] }
/-- A `pbar` whose generation has completed ends. -/
def Cmd.passBarrier (k : Cmd) (done : Nat) : Cmd :=
  if (k.args.any fun a => match a.instr with
      | .pbar _ => true
      | _ => false) && k.st == .running && decide (k.generation ≤ done) then k.finish 0
  else k
def Core.passBarrier (x : Core) (b : BarNet) : Core :=
  if x.launchKey == b.launch then { x with fl := { x.fl with cmds := x.fl.cmds.map fun k => k.passBarrier b.done } } else x
/-- PARTITION_BARRIER_COMPLETION: a generation of a launch's partition barrier completes, and with it the `pbar`s that wait
for it (R212). -/
def execPartitionBarrierCompletion (n : Nat) (s : State) : Out :=
  match s.completeNet n true with
  | .next t =>
    let b := (t.nets[n]?).getD ⟨some .pod, 0, [], 0⟩
    if b.scope.isSome then .next t
    else .next { t with dies := t.dies.map fun y => { y with cores := y.cores.map fun x => x.passBarrier b } }
  | o => o

/-- The extra checks of `mmar` (R349). -/
def mmarTagBad (p : Pattern) (tag : Nat) : Bool :=
  isBlock tag || (cbTable tag).isSome || tagClass tag != tagClass p.tag || (tagClass tag).isNone
/-- The faults of an `mmar` record into a tile of a tag. -/
def State.mmarBads (s : State) (tag : Nat) (p : Pattern) : List Bad :=
  let ill := !mmaLimits p || decide (2 ^ 56 ≤ p.base ∨ p.base % 64 ≠ 0 ∨ p.st3 < 0 ∨ 4096 ≤ p.st3)
  (if ill then [.illegal] else badsOf [s.peerDie p.st3.toNat (BitVec.ofNat 64 p.st3.toNat)]) ++
  (if mmarTagBad p tag then [.format] else [])
def execMmar (v t h : Nat) (cls : RClass) (cas : Nat) (sw : Bool) (rec : Option Shape4) (s : State) : Out :=
  s.issueGate .tlm (operandScalars h rec) fun s =>
    let x := s.me
    if firstStream ≤ v || bsBad rec then s.illegal
    else if x.mWriteWaits s.cur.rank [v] then s.stall
    else
      let tag := (x.tileAt v s.cur.rank).tag
      s.recordThen h rec (fun p => x.tagsWait s.cur.rank [p.tag]) (s.mmarBads tag) fun p =>
        match s.peerDie p.st3.toNat (BitVec.ofNat 64 p.st3.toNat) with
        | .error b => s.raiseBad b
        | .ok d =>
          let a := remoteArg (.mmar v t h cls cas sw rec) (BitVec.ofNat 64 p.base) (BitVec.ofNat 64 p.st3.toNat)
            (BitVec.ofNat 64 tag) 0 [d] [{ p with base := 0, st3 := 0 }]
          s.issueF .tlm t { a with books := x.booksFor [p.tag] } id

/-! ### CASCADE_SERVE -/

/-- Cascade k serves its pass while it has rows to enter, else a hot pass or the next direct command to arrive (R232, R290, R324). -/
def State.serveCascade (s : State) (d k : Nat) : State :=
  match (s.casc d k).pass.bind fun p => if !p.loaded || (s.nextRow d k p).isSome then some p else none with
  | some p => s.servePass d k p
  | none =>
    match s.hotWaiting d k with
    | some (w, c, t) =>
      if (s.cascadeCores d k).isEmpty || Config.pick d s.steps 2 % 2 = 0 then s.hotPass d k w c t
      else s.serveDirect d k
    | none => s.serveDirect d k
/-- CASCADE_SERVE; a further repetition of an `mmar` then begins its fetch (R349). -/
def execCascadeServe (d k : Nat) (s : State) : Out := .next ((s.serveCascade d k).launchAll d)


/-! ### The home (R338 to R351) -/

/-- The window of the weight directory (R350). -/
def dirBase : Nat := 0x00FFFFFFEFFF0000
def inDirWindow (va n : Nat) : Bool := decide (dirBase ≤ va ∧ va + n ≤ dirBase + 65536)
def Die.dirByte (y : Die) (o : Nat) : Byte :=
  ((y.wdir.find? fun e => e.idx == o / 64).bind fun e => e.bytes[o % 64]?).getD 0
/-- The issuing context as the home translates for it. -/
def State.srcCore (s : State) (q : Req) : Core :=
  let x := s.core q.die q.core
  { x with xl := { x.xl with tlb := [] } }
/-- A piece located at home h: in its own stack or window, else status 0x09 (R339). -/
def State.homePiece (s : State) (h : Nat) (x : Core) (acc : Acc) (r : Run) : Except EngErr Piece :=
  let bad := fun (xs : W64) => .error ⟨9, BitVec.ofInt 64 r.lo, xs⟩
  match elemClass r.lo with
  | .memory va =>
    match s.translate h x x.ctxLevel acc va with
    | .error e => bad e.word
    | .ok o =>
      match paPlace h o.pa with
      | .stack _ => .ok ⟨.mem o.pa o.ipa, r.n⟩
      | .window w _ => if w = h then .ok ⟨.mem o.pa o.ipa, r.n⟩ else bad 0
      | _ => bad 0
  | _ => bad 0
def State.homePieces (s : State) (h : Nat) (x : Core) (acc : Acc) (va n : Nat) : Except EngErr (List Piece) :=
  allOk ((Run.pieces (n / 4096 + 2) va n).map (s.homePiece h x acc))
/-- A remote read: the directory window, where the form may reach it (R350), or memory of the home; `v` is the machine as the
command reads it. -/
def State.homeRead (s v : State) (h : Nat) (x : Core) (dir : Bool) (r : Nat × Nat) : Except EngErr (List Byte × Bool) :=
  if dir && inDirWindow r.1 r.2 then .ok ((List.range r.2).map fun i => (s.die h).dirByte (r.1 - dirBase + i), false)
  else (s.homePieces h x .read r.1 r.2).map (v.readPieces h (s.keyOf h x.ctx.tenant))
/-- What the reads do to the home's stack. -/
def State.touchHome (s : State) (h : Nat) (x : Core) (dir : Bool) (rs : List (Nat × Nat)) : State :=
  rs.foldl (fun s r =>
    if dir && inDirWindow r.1 r.2 then s
    else match s.homePieces h x .read r.1 r.2 with
      | .ok ps => ps.foldl (fun s p => s.touchPiece 53 h .plain p) s
      | .error _ => s) s
/-- A write or atomic to the directory window: status 0x02 (R350). -/
def windowFault (acc : Acc) (va : Nat) : EngErr := (⟨2, false, false, 0, acc.code, va⟩ : XFault).engine
/-- The pieces of one unit of a store, each with the VA it begins at. -/
def State.unitPieces (s : State) (h : Nat) (x : Core) (u : List (Nat × List Byte)) : Except EngErr (List (Nat × Piece)) :=
  (allOk (u.map fun p =>
    if inDirWindow p.1 p.2.length then .error (windowFault .write p.1)
    else (s.homePieces h x .write p.1 p.2.length).map fun l => l.map fun q => (p.1, q))).map List.flatten
/-- A dirty bit that cannot be set fails the remote access at its VA (R253, R339). -/
def State.dirtyAt (s : State) (h : Nat) (x : Core) (acc : Acc) (l : List (Nat × Piece)) (e : EngErr) : EngErr :=
  let va := (l.find? fun q => match s.dirtyAll h x acc [q.2] with
    | .error _ => true
    | .ok _ => false).map (·.1)
  ⟨9, BitVec.ofNat 64 (va.getD 0), e.xsyn⟩
/-- A remote store: every piece located, dirty bits, the bytes, and the marks of units read from marked lines (R344). -/
def State.homeStore (s : State) (h : Nat) (x : Core) (us : List (List (Nat × List Byte) × Bool)) : Except EngErr State :=
  match allOk (us.map fun u => s.unitPieces h x u.1) with
  | .error e => .error e
  | .ok ls =>
    match s.perform s 53 h x .plain ((us.zip ls).map fun p => ⟨[], p.1.1.flatMap (·.2), p.2.map (·.2)⟩) with
    | .error e => .error (s.dirtyAt h x .write ls.flatten e)
    | .ok t => .ok (((us.zip ls).filter fun p => p.1.2).foldl (fun s p => p.2.foldl (fun s q => s.markPiece h q.2) s) t)
/-- A remote atomic (R340, R341): a marked line answers poison and is not written. A local atomic that has begun there, each in
the other's scope, ends first; `v` is the machine as the command reads it. -/
def State.homeAtomic (s0 : State) (h : Nat) (x : Core) (rel : State → State) (sc : Scope) (va w : Nat) (new : Nat → Option Nat) :
    Except EngErr (RRes × State) :=
  if inDirWindow va w then .error (windowFault .atomic va)
  else
    match s0.homePieces h x .atomic va w with
    | .error e => .error e
    | .ok ps =>
      let s := ps.foldl (fun s p => match p.loc with
        | .mem pa _ => s.settle sc h 32 pa p.n
        | .basin _ => s) s0
      let s1 := ps.foldl (fun s p => s.touchPiece 53 h .plain p) s
      let k := s.keyOf h x.ctx.tenant
      let r := (rel s1).readPieces h k ps
      if r.2 then .ok (.value 0 true, s1)
      else
        match s1.dirtyAll h x .atomic ps with
        | .error e => .error (s1.dirtyAt h x .atomic (ps.map fun p => (va, p)) e)
        | .ok s2 =>
          let old := leNat r.1
          .ok (.value (BitVec.ofNat 64 old) false, (new old).elim s2 fun v =>
            (joinWrites ps (leBytes w v)).foldl (fun s p => s.writeLoc 53 h k .plain p.1 p.2) s2)

/-! ### Tickets (R346 to R348) -/

def Die.entry? (y : Die) (region : Nat) : Option Incast := y.incast.find? fun e => e.region == region
/-- An entry put back: freed when CALL = NEXT (R346). -/
def Die.setIncast (y : Die) (e : Incast) : Die :=
  let rest := y.incast.filter fun f => f.region != e.region
  { y with incast := if e.call = e.next then rest else e :: rest }
/-- CALL advanced past every returned number it reaches. -/
def Incast.advance : Nat → Incast → Incast
  | 0, e => e
  | f + 1, e => if e.back.contains e.call then Incast.advance f { e with call := (e.call + 1) % 2 ^ 32, back := e.back.filter (· != e.call) } else e
/-- A ticket returned (R347). -/
def Incast.giveBack (e : Incast) (t : Nat) : Incast :=
  let e1 := { e with holders := e.holders.filter (fun p => p.1 != t), puts := e.puts.filter (fun p => p.1 != t) }
  if t = e.call then Incast.advance (e.back.length + 1) { e1 with call := (e.call + 1) % 2 ^ 32 }
  else if (t + 2 ^ 32 - e.call) % 2 ^ 32 < (e.next + 2 ^ 32 - e.call) % 2 ^ 32 ∧ !e.back.contains t then { e1 with back := t :: e.back }
  else e
def Die.returnTicket (y : Die) (region t : Nat) : Die :=
  match y.entry? region with
  | none => y
  | some e => y.setIncast (e.giveBack t)
/-- The ticket an entry hands out next. -/
def Incast.draw (e : Incast) : Incast := { e with next := (e.next + 1) % 2 ^ 32 }
/-- Whether `tkwait` for ticket t may end. -/
def Die.ticketCalled (y : Die) (region t : Nat) : Bool :=
  (y.entry? region).elim true fun e => t == e.call || decide (2 ^ 31 ≤ (t + 2 ^ 32 - e.call) % 2 ^ 32)
/-- The region of an address (R346, R347): the failure is status 0x09. -/
def State.regionOf (s : State) (h : Nat) (x : Core) (va : Nat) : Except EngErr Nat :=
  if inDirWindow va 1 then .error ⟨9, BitVec.ofNat 64 va, 0⟩
  else
    match s.homePiece h x .atomic ⟨va, 1⟩ with
    | .error e => .error e
    | .ok p => match p.loc with
      | .mem pa _ => .ok (pa / 65536)
      | .basin pa => .ok (pa / 65536)
/-- `tkget` at its home. -/
def State.drawTicket (s : State) (h : Nat) (q : Req) (region : Nat) : RRes × State :=
  match (s.die h).entry? region with
  | some e => (.value (BitVec.ofNat 64 e.next) false,
      s.updDie h fun y => y.setIncast { e.draw with holders := (e.next, q.die, q.slot) :: e.holders })
  | none =>
    if 256 ≤ (s.die h).incast.length then (.refused 0x21, s)
    else (.value 0 false, s.updDie h fun y => y.setIncast ⟨region, 1, 0, [], [(0, q.die, q.slot)], []⟩)
/-- The implicit ticket of an `rput`, with its entry. -/
def Die.putTicket (y : Die) (q : Req) : Option (Incast × Nat) :=
  y.incast.findSome? fun e => (e.puts.find? fun p => p.2.1 == q.die && p.2.2.1 == q.slot && p.2.2.2 == q.num).map fun p => (e, p.1)
/-- Whether a granule of an `rput` is admitted (R348); its first granule may take an implicit ticket. -/
def State.admitPut (s : State) (h : Nat) (q : Req) (pa : Nat) : Bool × State :=
  match (s.die h).putTicket q with
  | some (e, t) => (t == e.call, s)
  | none =>
    match (s.die h).entry? (pa / 65536) with
    | none => (true, s)
    | some e =>
      if q.step ≠ 0 ∨ e.holders.contains (e.call, q.die, q.slot) then (true, s)
      else (false, s.updDie h fun y => y.setIncast { e.draw with puts := (e.next, q.die, q.slot, q.num) :: e.puts })
/-- The implicit tickets of a command returned when it completes. -/
def Die.returnPuts (y : Die) (d slot num : Nat) : Die :=
  (y.incast.flatMap fun e => (e.puts.filter fun p => p.2.1 == d && p.2.2.1 == slot && p.2.2.2 == num).map fun p => (e.region, p.1)).foldl
    (fun y p => y.returnTicket p.1 p.2) y

/-! ### REMOTE_REQUEST_PERFORM -/

/-- What performing a request comes to: it waits at the home, or it is answered. -/
inductive AtHome where
  | waits (s : State)
  | answers (r : RRes) (s : State)
def AtHome.of (s : State) : Except EngErr (RRes × State) → AtHome
  | .error e => .answers (.failed e.status e.tval e.xsyn) s
  | .ok p => .answers p.1 p.2
/-- A ticket operation on the region of its address. -/
def State.onRegion (s : State) (h : Nat) (x : Core) (va : Nat) (k : Nat → AtHome) : AtHome :=
  match s.regionOf h x va with
  | .error e => .answers (.failed e.status e.tval e.xsyn) s
  | .ok r => k r
/-- The PA a bulk store's granule begins at. -/
def State.firstPa (s : State) (h : Nat) (x : Core) (us : List (List (Nat × List Byte) × Bool)) : Option Nat :=
  match us with
  | (((va, _) :: _), _) :: _ =>
    match s.homePiece h x .write ⟨va, 1⟩ with
    | .ok p => match p.loc with
      | .mem pa _ => some pa
      | .basin pa => some pa
    | .error _ => none
  | _ => none
/-- The scope of a remote atomic, as its command has it. -/
def State.reqScope (s : State) (q : Req) : Scope :=
  match (((s.core q.die q.core).cmd? q.tl q.num).bind fun k => (k.args[q.rep]?).map (·.instr) : Option Instr) with
  | some (.ramo _ _ _ _ _ _ sc) => sc
  | some (.ramocas _ _ _ _ _ _ sc) => sc
  | _ => .pod
/-- The VA ranges a request writes at its home. -/
def Req.writes (q : Req) : List (Nat × Nat) :=
  match q.op with
  | .store us _ => us.flatMap fun u => u.1.map fun p => (p.1, p.2.length)
  | .atomic _ va w _ => [(va, w)]
  | .cas va w _ _ => [(va, w)]
  | _ => []
/-- The VA ranges a request reads at its home without writing them. -/
def Req.loads (q : Req) : List (Nat × Nat) :=
  match q.op with
  | .load rs => rs
  | _ => []
/-- Whether a request waits at its home: a store released to its command has still to reach bytes it writes (R361), or a
pseudo-channel of its bytes is retraining (R415). -/
def State.reqBehind (s : State) (h : Nat) (q : Req) : Bool :=
  let waits := fun (a : Acc) (f : Piece → Bool) (r : Nat × Nat) =>
    match s.homePieces h (s.srcCore q) a r.1 r.2 with
    | .error _ => false
    | .ok ps => ps.any f
  q.writes.any (waits .write fun p => match p.loc with
    | .basin _ => false
    | .mem pa _ => s.storeAhead q.die q.rel h pa p.n || s.channelBusy h pa p.n) ||
  q.loads.any (waits .read (s.pieceBusy h))
/-- A request performed at its home h, which reads memory with the stores released to its command performed (R359). -/
def State.performReq (s : State) (h : Nat) (q : Req) : AtHome :=
  let x := s.srcCore q
  let rel := fun (t : State) => t.released q.die q.rel
  let dir := q.tl == .tlf
  if s.reqBehind h q then .waits s
  else
  match q.op with
  | .load rs =>
    .of s ((allOk (rs.map (s.homeRead (rel s) h x dir))).map fun l => (.data l, s.touchHome h x dir rs))
  | .store us bulk =>
    let put := fun (s : State) => AtHome.of s ((s.homeStore h x us).map fun t => (.done, t))
    if !bulk then put s
    else
      match s.firstPa h x us with
      | none => put s
      | some pa =>
        let a := s.admitPut h q pa
        if a.1 then put a.2 else .waits a.2
  | .atomic op va w b => .of s (s.homeAtomic h x rel (s.reqScope q) va w fun old => some (atomicNew op (8 * w) old (b.toNat % 2 ^ (8 * w))))
  | .cas va w b cmp =>
    .of s (s.homeAtomic h x rel (s.reqScope q) va w fun old => if old = cmp.toNat % 2 ^ (8 * w) then some (b.toNat % 2 ^ (8 * w)) else none)
  | .tkget va => s.onRegion h x va fun r => .answers (s.drawTicket h q r).1 (s.drawTicket h q r).2
  | .tkwait va t => s.onRegion h x va fun r => if (s.die h).ticketCalled r t then .answers .done s else .waits s
  | .tkret va t => s.onRegion h x va fun r => .answers .done (s.updDie h fun y => y.returnTicket r t)
  | .rows _ => .waits s
/-- Whether an ORD request must wait at its home for an earlier one of its core (R338). -/
def State.ordBehind (s : State) (f : Flit) : Bool :=
  f.req.cls == .ord && s.flits.any fun g => g.res.isNone && g.req.cls == .ord && g.req.tl == .tlf && f.req.tl == .tlf &&
    g.req.die == f.req.die && g.req.core == f.req.core && g.dst == f.dst && decide (g.req.seq < f.req.seq)
/-- REMOTE_REQUEST_PERFORM: request n, which has reached its home, is performed there once and answered (R338, R339); a
request whose tag the home has answered with its effect before receives that answer; one that failed is performed anew. -/
def execRemoteRequestPerform (n : Nat) (s : State) : Out :=
  match s.flits[n]? with
  | none => .next s
  | some f =>
    let h := f.dst
    let gone := fun (s : State) => { s with flits := s.flits.eraseIdx n }
    if !f.arrived || f.res.isSome || s.ordBehind f then .next s
    else
      match (s.die h).kept.find? fun p => p.1.sameTag f.req with
      | some p => .next ((gone s).answer f.req p.2 h (s.midFor h f.req.cls))
      | none =>
        match s.performReq h f.req with
        | .waits t => .next t
        | .answers r t =>
          let keeps := match r with
            | .failed .. => false
            | _ => true
          let u := if keeps then (gone t).updDie h fun y => { y with kept := (f.req, r) :: y.kept } else gone t
          .next (u.answer f.req r h (s.midFor h f.req.cls))

/-! ### REMOTE_RESPONSE (R340 to R349) -/

/-- A step of a tile image lands (R343): containers, side store, then the tag with the image's check. -/
def Tile.landStep (t : Tile) (m : Nat) (bs : List Byte) (bad : Bool) (org : Nat → W64) : Tile :=
  if m < 64 then
    let cells := (List.range 16).map fun i => BitVec.ofNat 32 (leAt bs (4 * i) 4)
    let t1 := { t with
      cells := t.cells.take (16 * m) ++ cells ++ t.cells.drop (16 * m + 16)
      poison := t.poison.take (16 * m) ++ List.replicate 16 bad ++ t.poison.drop (16 * m + 16) }
    { t1 with origin := match t1.poison.findIdx? id with
      | none => 0
      | some e => if bad && e / 16 == m then org 3 else t1.origin }
  else if m < 66 then { t with side := t.side.take (64 * (m - 64)) ++ bs ++ t.side.drop (64 * (m - 64) + 64) }
  else if imageTagBad ((bs[0]?).getD 0).toNat || (bs.drop 1).any (· != 0) then
    ⟨List.replicate 1024 0, List.replicate 1024 true, noSide, tagBits, org 4⟩
  else { t with tag := ((bs[0]?).getD 0).toNat }
/-- A fetched step of an `mmar` lands (R349): elements of the tile's tag, poison cleared. -/
def Tile.landFetch (t : Tile) (m : Nat) (bs : List Byte) : Tile :=
  let w := tagWidth t.tag
  let e0 := 512 * m / w
  let n := 8 * bs.length / w
  let cells := (List.range n).map fun i => cellOf t.tag (leNat bs / 2 ^ (i * w) % 2 ^ w)
  let poison := t.poison.take e0 ++ List.replicate n false ++ t.poison.drop (e0 + n)
  { t with cells := t.cells.take e0 ++ cells ++ t.cells.drop (e0 + n), poison := poison
           origin := if poison.any id then t.origin else 0 }
/-- What came back for the runs of a unit, unit by unit. -/
def groupRuns : List Nat → List (List Byte × Bool) → List (List Byte × Bool)
  | [], _ => []
  | n :: ns, l => (((l.take n).flatMap (·.1)), (l.take n).any (·.2)) :: groupRuns ns (l.drop n)
/-- The local pieces of granule m of an `rget`, unit by unit. -/
def State.granulePieces (s : State) (d : Nat) (x : Core) (p : Pattern) (m : Nat) : Except EngErr (List (List Piece)) :=
  allOk ((p.unitStarts m).map fun e => s.locateRuns d x .write (p.unitRuns (p.offset e)))
/-- The granule an `rget` has fetched is written locally, marks with it (R344). -/
def State.landGranule (s : State) (d : Nat) (x : Core) (p : Pattern) (m : Nat) (l : List (List Byte × Bool)) : Except EngErr State :=
  match s.granulePieces d x p m with
  | .error e => .error e
  | .ok ds =>
    let got := groupRuns ((p.unitStarts m).map fun e => (p.unitRuns (p.offset e)).length) l
    match s.perform s 53 d x .plain ((got.zip ds).map fun q => ⟨[], q.1.1, q.2⟩) with
    | .error e => .error e
    | .ok t => .ok (((got.zip ds).filter fun q => q.1.2).foldl (fun s q => q.2.foldl (fun s r => s.markPiece d r) s) t)
/-- The register a remote command writes its result to (R340, R347). -/
def resultReg : Instr → Option Nat
  | .rld _ _ b _ _ => some b
  | .ramo _ _ _ b _ _ _ => some b
  | .ramocas _ _ b _ _ _ _ => some b
  | .tkget _ _ b => some b
  | _ => none
/-- A step's result taken in at the source: the state with the command moved on, or why it parks. -/
def State.takeResult (s : State) (d c : Nat) (k : Cmd) (a : CmdArg) (r : RRes) : Except EngErr State :=
  let x := s.core d c
  let next := fun (s : State) (st : Nat) (wb : List (Nat × W64 × Bool)) =>
    s.updCmd d c k.tl k.num fun k => { k with wb := k.wb ++ wb }.remoteNext a st
  match r, a.instr with
  | .failed st v xs, _ => .error ⟨st, v, xs⟩
  | .data ((bs, bad) :: _), .rtld _ _ b _ =>
    .ok (next (s.updCore d c fun x => x.setTile b k.rank ((x.tileAt b k.rank).landStep k.mpc bs bad k.origin)) 0 [])
  | .data ((bs, bad) :: _), .mmar v _ _ _ _ _ _ =>
    if bad then .error ⟨8, BitVec.ofNat 64 (a.word 0 + 64 * k.mpc), 0⟩
    else .ok (next (s.updCore d c fun x => x.setTile v k.rank ((x.tileAt v k.rank).landFetch k.mpc bs)) 0 [])
  | .data l, .rget .. =>
    match a.pats with
    | p :: _ => (s.landGranule d x p k.mpc l).map fun t => next t 0 []
    | [] => .ok (next s 0 [])
  | .data ((bs, bad) :: _), i => .ok (next s 0 ((resultReg i).toList.map fun b => (b, BitVec.ofNat 64 (leNat bs), bad)))
  | .value v bad, i => .ok (next s 0 ((resultReg i).toList.map fun b => (b, v, bad)))
  | .refused st, _ => .ok (next s st [])
  | _, _ => .ok (next s 0 [])
/-- A replica's answer: recorded, or its failure kept if it is the lowest of the round; when the round is over the command
moves on or parks (R342). Its `extra`: the recorded replicas, then index + 1, status and KXSYN of a failure. -/
def State.takeReplica (s : State) (d c : Nat) (k : Cmd) (a : CmdArg) (i : Nat) (r : RRes) : State :=
  let done := k.extra.headD 0
  let e1 := match r with
    | .failed st _ xs =>
      let old := (k.extra[1]?).getD 0
      if old ≠ 0 ∧ old ≤ i + 1 then k.extra else [done, i + 1, st, xs.toNat]
    | _ => (done ||| 2 ^ i) :: k.extra.drop 1
  let k1 := { k with extra := e1 }
  let k2 :=
    if s.underWay d c k then k1
    else if (e1[1]?).getD 0 ≠ 0 then
      { k1.fail ⟨(e1[2]?).getD 9, BitVec.ofNat 64 (a.word 0), BitVec.ofNat 64 ((e1[3]?).getD 0)⟩ with extra := e1.take 1 }
    else if (List.range a.homes.length).all (e1.headD 0).testBit then { k1 with extra := [] }.remoteNext a 0
    else k1
  s.updCmd d c k.tl k.num fun _ => k2
/-- Whether a step's landing still waits for a store released to its command (R361). -/
def State.landBehind (s : State) (d : Nat) (x : Core) (k : Cmd) (a : CmdArg) : Bool :=
  match a.instr, a.pats with
  | .rget .., p :: _ =>
    match s.granulePieces d x p k.mpc with
    | .error _ => false
    | .ok ds => ds.flatten.any (s.pieceBehind d k.rel)
  | _, _ => false
/-- REMOTE_RESPONSE: answer n has reached its source: its command takes it in and goes on, and the home is told (R339,
R340). The answer to an `rget` whose step fails on the source's own side is not acknowledged, so the step, sent again,
receives it again; an `mmar` fetches afresh (R349). -/
def execRemoteResponse (n : Nat) (s : State) : Out :=
  match s.flits[n]? with
  | none => .next s
  | some f =>
    match f.res with
    | none => .next s
    | some r =>
      let q := f.req
      let s1 := { s with flits := s.flits.eraseIdx n }
      let acked := fun (t : State) => { t with acks := t.acks ++ [(q.home, q)] }
      if !f.arrived then .next s
      else
        match q.op with
        | .rows _ => .next s
        | _ =>
          match (s.core q.die q.core).cmd? q.tl q.num with
          | none => .next (acked s1)
          | some k =>
            match k.args[k.rep]? with
            | none => .next (acked s1)
            | some a =>
              match a.instr with
              | .rmc .. => .next ((acked (s1.takeReplica q.die q.core k a q.part r)).launchF q.die q.core)
              | _ =>
                if k.st ≠ .running ∨ k.rep ≠ q.rep ∨ k.mpc ≠ q.step then .next (acked s1)
                else if s.landBehind q.die (s.core q.die q.core) k a then .next s
                else
                  match s1.takeResult q.die q.core k a r with
                  | .error e =>
                    let t := s1.updCmd q.die q.core q.tl q.num fun k => k.fail e
                    .next (match a.instr with
                      | .rget .. => t
                      | _ => acked t)
                  | .ok t => .next ((acked t).launchF q.die q.core)

end Sys2Proof.Machine
end

