-- ==== Sys2Proof/Machine/Complete.lean ====
section
/-!
DEFINITION. Sys2Proof/Machine/Complete.lean: TOKEN_COMPLETION (R102, R202, R204), the hand-over of a `cpm` follow-on (R185),
and RESPONSE_ACKNOWLEDGEMENT (R339).
-/
namespace Sys2Proof.Machine
open Sys2Proof

/-! ### The follow-on of cpm (R185) -/

/-- A check of a follow-on that fails at its hand-over, as an engine fault. -/
def Bad.handed (word h : W64) : Bad → EngErr
  | .illegal => ⟨0x0D, word, 0⟩
  | .privilege => ⟨0x0D, word, 0⟩
  | .format => ⟨6, word, 0⟩
  | .fault c _ v => if c = 0x04 then ⟨7, h, 0⟩ else if c = 0x0E then ⟨8, v, 0⟩ else ⟨3, v, 0⟩
  | .xlate e => e.engine
/-- The tiles of a follow-on lie below T (R129). -/
def Core.tilesFit (x : Core) (i : Instr) : Bool := (tilesOf i).all fun t => decide (t < x.ctx.tiles)
/-- The record a follow-on's handle names, checked for instruction i. -/
def State.followRecord (s : State) (i : Instr) (h : W64) (tile : Option Tile) : Except Bad CmdArg :=
  match i with
  | .mmw .. =>
    match s.handlePattern h with
    | .error b => .error b
    | .ok p =>
      match worstOf (mmwFaults p) with
      | some b => .error b
      | none => .ok (patArg i [] [p])
  | .mma v _ _ _ _ _ =>
    match s.handlePattern h with
    | .error b => .error b
    | .ok p =>
      let t := tile.getD (Tile.zero 0)
      match worstOf (mmaBads p v.dir t.tag) with
      | some b => .error b
      | none => .ok (mmaArg s.me i p t none)
  | .task v _ _ _ =>
    match s.handleBytes h with
    | .error b => .error b
    | .ok bs =>
      match taskOfBytes h.toNat bs with
      | .error b => .error b
      | .ok r =>
        let t := tile.getD (Tile.zero 0)
        let pat := s.myDie.patience s.cur.core r.pat
        if !r.legal false then .error .illegal
        else
          match checkTask s.myDie s.me.ctx.tenant r t.tag v.dir with
          | .refused => .ok (taskArg i r pat s.cur.die 0x22 none none)
          | .bad b => .error b
          | .ok => .ok (taskArg i r pat s.cur.die 0 (some t) none)
  | _ => .error .illegal
/-- A follow-on command still to be checked holds its handle and its tile. -/
def Cmd.unchecked (k : Cmd) : Option (W64 × Option Tile) :=
  match k.args with
  | [⟨.nop, [h], _, t, _, _, _⟩] => if k.tl == .tlm && k.st == .waiting then some (h, t) else none
  | _ => none
/-- The tables a follow-on reads, whose loads before it must have retired first (R307). -/
def State.followBooksWait (s : State) (d c : Nat) (k : Cmd) (i : Instr) (h : W64) (t : Option Tile) : Bool :=
  match i, s.handlePattern h with
  | .mma .., .ok p => (s.core d c).tagsWait k.rank [p.tag, (t.getD (Tile.zero 0)).tag]
  | .mmw .., .ok p => (s.core d c).tagsWait k.rank [p.tag]
  | _, _ => false
/-- A follow-on at the matrix path: its own checks, and what fails of them (R185). A follow-on word that names `s0` as its token
is illegal here, as every check of its own is (log 34). -/
def State.handOver (s : State) (d c : Nat) (k : Cmd) : State :=
  match k.unchecked with
  | none => s
  | some (h, t) =>
    let w := BitVec.ofNat 64 k.word
    let at' := { s with cur := { s.cur with die := d, core := c, engine := .m, addr := k.addr, lane := k.lane, word := k.word
                                            kmode := k.kmode, rank := k.rank } }
    let ends := fun (b : Bad) => s.updCmd d c .tlm k.num fun k => k.fail (b.handed w h)
    match decode .m k.word [] with
    | .error _ => ends .illegal
    | .ok i =>
      if at'.followBooksWait d c k i h t then s
      else if !(s.core d c).tilesFit i then ends .illegal
      else
        match at'.followRecord i h t with
        | .error b => ends b
        | .ok a => s.updCmd d c .tlm k.num fun k =>
            { k with args := [{ a with raw := [h] }], cyc := (s.die d).seqr.cyc }
/-- Every follow-on of a core that waits at the matrix path, and the tasks among them. -/
def State.handOverAll (s : State) (d c : Nat) : State :=
  (((s.core d c).fl.cmds.filter fun k => k.unchecked.isSome).foldl (fun s k => s.handOver d c k) s).letIn 64 d c
/-- The command a completed `cpm` hands over: its word, token and number were fixed at the `cpm`'s issue, and so was its mode
(R97, R185). -/
def Cmd.followCmd (k : Cmd) : Option Cmd :=
  k.follow.map fun f =>
    { k with engine := .m, tl := .tlm, num := f.2.2, token := f.2.1, word := f.1, args := k.args.drop 1, rep := 0, mpc := 0, kmode := k.fmode
             st := .waiting, status := 0, wb := [], data := [], extra := [], follow := none }

/-! ### TOKEN_COMPLETION -/

/-- The registers a command claimed beside its token. -/
def Cmd.dataRegs (k : Cmd) : List Nat := k.args.filterMap fun a => resultReg a.instr
/-- A `sunb` skipped ends its binding all the same (R195, R263). -/
def Cmd.unbindSkipped (k : Cmd) (x : Core) : Core :=
  k.ends.foldl (fun x t => x.updBindings t (fun b => b.ending == some k.rank) fun _ => none) x
/-- The follow-on of a `cpm` that was skipped is never handed over: its token is released and its number counts as completed
(log 22). -/
def Cmd.dropFollow (k : Cmd) (x : Core) : Core :=
  match k.follow with
  | none => x
  | some f => { x.release f.2.1 with tls := x.tls.set .tlm ((x.tls.get .tlm).complete f.2.2) }
/-- The token of a `pbar` lands: its read, or a `tlwait` that covers its number, acquires (R212). -/
def Cmd.barToken (k : Cmd) (status : Nat) (x : Core) : Core :=
  if k.args.any fun a => match a.instr with
      | .pbar _ => true
      | _ => false then
    x.setFl fun f => { f with
      acqs := (k.token, tokenWord status k.num) :: f.acqs.filter (fun a => a.1 != k.token), pbars := k.num :: f.pbars }
  else x
/-- A command completes: its other registers first, written or released, then its token; its timeline advances; it is gone,
and a `cpm`'s follow-on takes its place (R102, R185, R204). -/
def Core.completeCmd (x : Core) (n : Nat) (k : Cmd) (status : Nat) : Core :=
  let x1 := (k.dataRegs.foldl Core.release (x.landAll k.wb)).land k.token (tokenWord status k.num) false
  let x2 := { x1 with
    tls := x1.tls.set k.tl ((x1.tls.get k.tl).complete k.num)
    fl := { x1.fl with cmds := x1.fl.cmds.eraseIdx n ++ (if status = 0 then k.followCmd.toList else []) } }
  k.barToken status (if status = 0 then x2 else k.unbindSkipped (k.dropFollow x2))
/-- A command parks: its token reports the fault, and its fault is pending unless the context is held, when it is reported
only after a replay (R202, R260, R262, R269). -/
def Core.parkCmd (x : Core) (n : Nat) (k : Cmd) (status : Nat) : Core :=
  let x1 := x.land k.token (tokenWord status k.num) false
  { x1 with fl := { x1.fl with cmds := x1.fl.cmds.set n { k with st := .parked, status := status } }
            ctl := if x1.ctl.frozen then x1.ctl else { x1.ctl with faults := x1.ctl.faults ++ [k.fault status] } }
/-- Whether a home still keeps an answer of a command. -/
def Cmd.keptBy (k : Cmd) (d c : Nat) (p : Req × RRes) : Bool :=
  p.1.die == d && p.1.core == c && p.1.tl == k.tl && p.1.num == k.num
/-- What the fabric holds of a completed command is given up: answers kept at homes are acknowledged, implicit tickets
returned (R339, R348). -/
def State.leaveFabric (s : State) (d c slot : Nat) (k : Cmd) : State :=
  if k.tl = .tlf || k.tl = .tlm then
    let acks := (List.range s.dies.length).flatMap fun h =>
      ((s.die h).kept.filter fun p => k.keptBy d c p).map fun p => (h, p.1)
    { s with acks := s.acks ++ acks.filter fun a => !s.acks.contains a
             dies := if k.tl = .tlf then s.dies.map fun y => y.returnPuts d slot k.num else s.dies }
  else s
/-- The entry a fill was for is no longer PENDING, also where a return skipped the fill (R178, R263). -/
def Cmd.fillEnds (k : Cmd) (owner : Nat) (x : Core) (y : Die) : Die :=
  match k.args with
  | [a] => match a.instr with
    | .probe .. => { y with tags := y.tags.map fun t =>
        if t.owner == owner && t.block == a.word 0 / 4096 % 2 ^ 44 && x.cacheSlot t.idx == a.word 1 then
          { t with pending := false } else t }
    | _ => y
  | _ => y
/-- What a command that a return skips has in the die's units goes with it (R263): a task and its parked rows, a multiply in
the split unit. -/
def State.abandon (s : State) (d c slot : Nat) (k : Cmd) : State :=
  match k.tl with
  | .tlm => (s.updDie d fun y =>
      y.dropTasks ((y.tasks.filter fun t => t.die == d && t.core == c && t.num == k.num && t.tag != 254).map (·.seq))).admitAll d
  | .tln => s.updDie d fun y => { y with swork := y.swork.filter fun w => !(w.kslot == slot && w.num == k.num) }
  | _ => s
/-- What a completed command leaves in the units of its die and of the pod. -/
def State.leaveUnits (s : State) (d c : Nat) (k : Cmd) (status : Nat) : State :=
  let x := s.core d c
  let slot := x.k.kslot.toNat
  let s1 := (s.leaveFabric d c slot k).updDie d (k.fillEnds slot x)
  if status = 0 then s1 else s1.abandon d c slot k
/-- TOKEN_COMPLETION: command n of the core, whose end is decided, writes its token. -/
def execTokenCompletion (d c n : Nat) (s0 : State) : Out :=
  let s := match (s0.core d c).fl.cmds[n]? with
    | some k => s0.updCore d c fun x => x.settleStream k
    | none => s0
  match (s.core d c).fl.cmds[n]? with
  | none => .next s
  | some k =>
    match k.st with
    | .finished st =>
      let s1 := (s.leaveUnits d c k st).updCore d c fun x => (x.completeCmd n k st).progress
      .next ((s1.handOverAll d c).launchF d c)
    | .failed st => .next (s.updCore d c fun x => (x.parkCmd n k st).progress)
    | _ => .next s

/-- RESPONSE_ACKNOWLEDGEMENT: acknowledgement n on its way reaches its home, which drops the answer it keeps (R339). -/
def execResponseAcknowledgement (n : Nat) (s : State) : Out :=
  match s.acks[n]? with
  | none => .next s
  | some a =>
    .next ({ s with acks := s.acks.eraseIdx n }.updDie a.1 fun y => { y with kept := y.kept.filter fun p => !p.1.sameTag a.2 })

end Sys2Proof.Machine
end

