-- ==== Sys2Proof/Machine/Registers.lean ====
section
/-!
DEFINITION. Sys2Proof/Machine/Registers.lean: the K registers (R265 to R268, R399, R420): their numbers, their levels, what a
read returns, which bits a write changes and which values it rejects, and the writes that only change a register of the
context.
-/
namespace Sys2Proof.Machine
open Sys2Proof

/-- The K registers (R266, R399, R374, R378, R390 to R395, R420). -/
inductive KName where
  | kcause | kepc | ktval | kmpc | kxsyn | kpriv | ktvec | kscr0 | kscr1
  | kmode | kvstat | kcstat | kmstat | knoise | knlogb | knlogp
  | klc (k : Nat) | kls (k : Nat) | kle (k : Nat) | klstate
  | kgot | kpos | kbasin | kbcache | ksemb | kdtab | ktime | kscyc | kslot
  | krtab | kptroot | ks2rtab | ks2root | kdirty | ktoff | kpmap | kxinv
  | kctx | ksave
  | kdbgc | kstopc | kbrk0 | kbrk1 | ktrb | ktrp | kcmsel | kcmval | kskew (p : Nat) | kfrc
  | klrec | klq | kboard | kpreempt | klend | kamask
  | kslife | ksdevid0 | ksdevid1 | ksnonce | ksdbg | ksalarm | kskeys
  deriving DecidableEq, Repr

/-- K register numbers (R266, R399, R374, R378, R390, R394, R395, R420): the trap, mode, status and noise registers. -/
def kTable0 : List (Nat × KName) :=
  [(0x000, .kcause), (0x001, .kepc), (0x002, .ktval), (0x003, .kmpc), (0x004, .kxsyn), (0x005, .kpriv), (0x006, .ktvec),
   (0x007, .kscr0), (0x008, .kscr1), (0x010, .kmode), (0x011, .kvstat), (0x012, .kcstat), (0x013, .kmstat),
   (0x014, .knoise), (0x015, .knlogb), (0x016, .knlogp)]
/-- K register numbers (R266, R399, R374, R378, R390, R394, R395, R420): the loop registers and those of R237 to R268. -/
def kTable1 : List (Nat × KName) :=
  [(0x020, .klc 0), (0x021, .klc 1), (0x022, .klc 2), (0x023, .kls 0), (0x024, .kls 1), (0x025, .kls 2), (0x026, .kle 0),
   (0x027, .kle 1), (0x028, .kle 2), (0x029, .klstate), (0x030, .kgot), (0x031, .kpos), (0x032, .kbasin),
   (0x033, .kbcache), (0x034, .ksemb), (0x035, .kdtab), (0x036, .ktime), (0x037, .kscyc), (0x038, .kslot)]
/-- K register numbers (R266, R399, R374, R378, R390, R394, R395, R420): the translation, context and debug registers. -/
def kTable2 : List (Nat × KName) :=
  [(0x040, .krtab), (0x041, .kptroot), (0x042, .ks2rtab), (0x043, .ks2root), (0x044, .kdirty), (0x045, .ktoff),
   (0x046, .kpmap), (0x047, .kxinv), (0x050, .kctx), (0x051, .ksave), (0x060, .kdbgc), (0x061, .kstopc),
   (0x062, .kbrk0), (0x063, .kbrk1), (0x064, .ktrb), (0x065, .ktrp), (0x066, .kcmsel), (0x067, .kcmval)]
/-- K register numbers (R266, R399, R374, R378, R390, R394, R395, R420): the rest. -/
def kTable3 : List (Nat × KName) :=
  [(0x068, .kskew 0), (0x069, .kskew 1), (0x06A, .kskew 2), (0x06B, .kskew 3), (0x06C, .kskew 4), (0x06D, .kskew 5),
   (0x06E, .kfrc), (0x070, .klrec), (0x071, .klq), (0x072, .kboard), (0x073, .kpreempt), (0x074, .klend),
   (0x075, .kamask), (0x080, .kslife), (0x081, .ksdevid0), (0x082, .ksdevid1), (0x083, .ksnonce), (0x084, .ksdbg),
   (0x085, .ksalarm), (0x086, .kskeys)]
def kTable : List (Nat × KName) := kTable0 ++ kTable1 ++ kTable2 ++ kTable3
/-- The register a number names. -/
def kName (n : Nat) : Option KName := (kTable.find? fun p => p.1 == n).map (·.2)

/-! ### Levels (R265, R266) -/

/-- The lowest level that may read a register. -/
def KName.readLevel : KName → Nat
  | .kcause | .kepc | .ktval | .kmpc | .kxsyn | .kpriv | .ktvec | .kscr0 | .kscr1 => 1
  | .krtab | .kptroot | .kxinv | .kctx | .ksave => 1
  | .ks2rtab | .ks2root | .kdirty | .ktoff | .kpmap => 2
  | .kdbgc | .kstopc | .kbrk0 | .kbrk1 | .ktrb | .ktrp | .kcmsel | .kcmval | .kskew _ | .kfrc => 1
  | .kboard | .ksdbg | .ksalarm => 1
  | .kpreempt | .klend | .ksnonce => 2
  | _ => 0
/-- The lowest level whose write is no privilege fault. -/
def KName.writeLevel : KName → Nat
  | .kcause | .kepc | .ktval | .kmpc | .kxsyn | .kpriv | .ktvec | .kscr0 | .kscr1 => 1
  | .kgot | .kbasin | .kbcache | .ksemb | .krtab | .kptroot | .kxinv | .kctx | .ksave => 1
  | .ks2rtab | .ks2root | .kdirty | .ktoff | .kpmap => 2
  | .kdbgc | .kstopc | .kbrk0 | .kbrk1 | .ktrb | .ktrp => 2
  | .kcmsel | .kcmval | .kskew _ | .kfrc => 1
  | .kboard | .kpreempt | .klend | .kamask => 2
  | _ => 0
/-- Q of R266: the write waits for the context's engine groups and commands. -/
def KName.queued : KName → Bool
  | .kgot | .kbasin | .kbcache | .ksemb | .kdtab | .krtab | .kptroot | .ks2rtab | .ks2root | .kdirty | .ktoff | .kpmap => true
  | _ => false

/-! ### Fields -/

/-- Bits hi to lo. -/
def bits (hi lo : Nat) : Nat := 2 ^ (hi + 1) - 2 ^ lo
/-- The bits a write sets and clears: the RW fields (R6). KNLOGP.PTR is a multiple of 4 and KTRP.PTR one of 32 (R165, R399); what
a write of another value does is not said: the low bits are dropped (DESIGN CHOICE, log 29). -/
def KName.rw : KName → Nat
  | .kepc => bits 55 2
  | .kpriv => bits 2 0
  | .ktvec => bits 55 5
  | .kscr0 | .kscr1 => bits 63 0
  | .kmode => bits 4 0
  | .knoise => bits 1 0
  | .knlogb => bits 63 0
  | .knlogp => bits 31 2
  | .kgot => bits 63 3
  | .kbasin => bits 44 32 + bits 11 0
  | .kbcache => bits 56 32 + bits 27 0
  | .ksemb => bits 55 9
  | .kdtab => bits 63 59 + bits 55 6
  | .krtab | .ks2rtab => bits 55 11 + bits 6 0
  | .kptroot | .ks2root => bits 55 12 + bits 5 0
  | .kdirty => bits 55 12 + bits 6 0
  | .ktoff | .kstopc => bits 63 0
  | .kpmap => bits 55 13 + bits 11 0
  | .ksave | .kcmsel => bits 11 0
  | .kdbgc => bits 7 6 + bits 3 0
  | .kbrk0 | .kbrk1 => bits 55 5
  | .ktrb => bits 55 0
  | .ktrp => bits 31 5
  | .kboard => bits 55 10 + 1
  | _ => 0
/-- The W1C fields (R6). -/
def KName.w1cBits : KName → Nat
  | .kvstat => 15
  | .kcstat => 1
  | .kmstat => 7
  | .knoise => 0x80
  | .ktrp => 2 ^ 63
  | _ => 0
/-- A register's value after v is written over `old` (R6). -/
def KName.merge (k : KName) (old v : W64) : W64 :=
  let rw := BitVec.ofNat 64 k.rw
  (w1c old v k.w1cBits &&& ~~~ rw) ||| (v &&& rw)
/-- What a save area or a template gives a register: its fields, reserved bits dropped. -/
def KName.clean (k : KName) (v : W64) : W64 := v &&& BitVec.ofNat 64 (k.rw ||| k.w1cBits)

/-- The values a register's rule rejects (R86, R169, R175, R240, R251, R267, R268, R399): the illegal-instruction fault. `count`
is KBASIN.COUNT. The rule of the noise registers is `noiseLegal`; R165's second bullet speaks of a MODE that is set, so a write
of KBASIN that leaves the log region outside the allotment is accepted (DESIGN CHOICE, log 37). -/
def KName.rejects (k : KName) (v : W64) (count : Nat) : Bool :=
  match k with
  | .kmode => fieldOf v 2 0 == 0 || decide (5 < fieldOf v 2 0)
  | .kpriv => fieldOf v 1 0 == 3
  | .kbasin => decide (0 < fieldOf v 44 32) && (decide (fieldOf v 11 0 < 16) || decide (4096 < fieldOf v 11 0 + fieldOf v 44 32))
  | .kbcache => fieldOf v 56 44 % 8 != 0 || fieldOf v 43 32 % 8 != 0 || fieldOf v 27 0 % 4096 != 0 ||
      decide (4096 < fieldOf v 56 44) || decide (4096 < fieldOf v 43 32 + fieldOf v 56 44) ||
      decide (65536 * count < fieldOf v 27 0 + 4096 * fieldOf v 56 44)
  | .kdtab => decide (20 < fieldOf v 63 59)
  | .krtab | .ks2rtab => decide (64 < fieldOf v 6 0)
  | .kptroot | .ks2root => decide (17 < fieldOf v 5 1)
  | .kdirty => decide (44 < fieldOf v 6 1)
  | .kxinv => fieldOf v 1 0 == 3
  | .kctx => decide (4 ≤ fieldOf v 2 0)
  | .ktrb => decide (2 ^ 56 < fieldOf v 55 12 * 4096 + 4096 * fieldOf v 11 0)
  | _ => false
/-- R165: MODE 11 never; a log mode only over an aligned region inside the allotment, with PTR below SIZE. -/
def KRegs.noiseLegal (k : KRegs) : Bool :=
  let mode := fieldOf k.knoise 1 0
  let size := fieldOf k.knlogb 63 32
  let base := fieldOf k.knlogb 31 0
  mode != 3 && (mode == 0 || (base % 64 == 0 && size % 64 == 0 && size != 0 && decide (fieldOf k.knlogp 31 0 < size) &&
    decide (base + size ≤ 65536 * fieldOf k.kbasin 44 32)))

/-! ### Reading -/

/-- KPRIV (R267) as the current level sees it. -/
def Core.kpriv (x : Core) : W64 :=
  let b := x.bank x.ctl.level
  let held := x.ctl.hold.elim false fun h => h.level == x.ctl.level
  BitVec.ofNat 64 (x.ctl.level * 256 + boolBit held * 8 + boolBit b.skip * 4 + b.pp)
/-- The loop registers (R126) of a loop state. -/
def LoopState.klc (l : LoopState) (k : Nat) : W64 := BitVec.ofNat 64 ((l.lvl k).iter % 2 ^ 32 * 2 ^ 32 + (l.lvl k).idx % 2 ^ 32)
def LoopState.kls (l : LoopState) (k : Nat) : W64 := BitVec.ofNat 64 ((l.lvl k).start % 2 ^ 56)
def LoopState.kle (l : LoopState) (k : Nat) : W64 := BitVec.ofNat 64 ((l.lvl k).fin % 2 ^ 56)
def LoopState.klstate (l : LoopState) : W64 :=
  BitVec.ofNat 64 (l.preds * 256 + l.stg % 8 * 32 + boolBit l.pipe * 16 + l.plvl % 4 * 4 + l.d % 4)
/-- Their reverse, for a restored context. -/
def loopOf (klc kls kle : Nat → W64) (st : W64) : LoopState :=
  let lvl := fun k => (⟨fieldOf (klc k) 63 32, fieldOf (klc k) 31 0, fieldOf (kls k) 55 0, fieldOf (kle k) 55 0⟩ : LoopLevel)
  ⟨lvl 0, lvl 1, lvl 2, fieldOf st 1 0, bitOf st 4, fieldOf st 3 2, fieldOf st 7 5⟩
/-- RANK of a die (R374): its rank among the active dies of its package. -/
def Die.rankOf (y : Die) (d : Nat) : Nat := ((List.range (d % 8)).filter y.amask.testBit).length
/-- KAMASK (R374). -/
def State.kamask (s : State) (d : Nat) : W64 := BitVec.ofNat 64 ((s.die d).rankOf d * 256 + (s.die d).amask % 256)
/-- KLQ (R378): DEPTH and the REM the launch record holds for all its cores. -/
def State.klq (s : State) (d c : Nat) : W64 :=
  match s.recOf (s.core d c) with
  | some r => BitVec.ofNat 64 (r.depth % 32 * 65536 + r.rem % 65536)
  | none => (s.core d c).klq
/-- KLEND (R395) of the core last named. -/
def Die.klend (y : Die) : W64 :=
  let l := (y.lends[y.lendOf]?).getD ⟨false, 0, 0⟩
  BitVec.ofNat 64 (l.dl % 65536 * 2 ^ 24 + l.part % 4096 * 2 ^ 12 + boolBit l.lent * 2 ^ 11 + y.lendOf % 32)
/-- KSALARM (R420). -/
def Security.ksalarm (e : Security) : W64 := BitVec.ofNat 64 (e.count % 256 * 256 + e.src % 8 * 2 + boolBit e.frz)
/-- The registers that belong to the context as plain words, with the current level's bank. -/
def Core.kword (x : Core) : KName → W64
  | .kcause => (x.bank x.ctl.level).kcause
  | .kepc => (x.bank x.ctl.level).kepc
  | .ktval => (x.bank x.ctl.level).ktval
  | .kmpc => (x.bank x.ctl.level).kmpc
  | .kxsyn => (x.bank x.ctl.level).kxsyn
  | .kpriv => x.kpriv
  | .ktvec => (x.bank x.ctl.level).ktvec
  | .kscr0 => (x.bank x.ctl.level).kscr0
  | .kscr1 => (x.bank x.ctl.level).kscr1
  | .kmode => x.k.kmode
  | .kvstat => x.k.kvstat
  | .kcstat => x.k.kcstat
  | .kmstat => x.k.kmstat
  | .knoise => x.k.knoise
  | .knlogb => x.k.knlogb
  | .knlogp => x.k.knlogp
  | .klc k => x.loops.klc k
  | .kls k => x.loops.kls k
  | .kle k => x.loops.kle k
  | .klstate => x.loops.klstate
  | .kgot => x.k.kgot
  | .kpos => x.k.kpos
  | .kbasin => x.k.kbasin
  | .kbcache => x.k.kbcache
  | .ksemb => x.k.ksemb
  | .kdtab => x.k.kdtab
  | .kscyc => x.k.kscyc
  | .kslot => x.k.kslot
  | .krtab => x.x.krtab
  | .kptroot => x.x.kptroot
  | .ks2rtab => x.x.ks2rtab
  | .ks2root => x.x.ks2root
  | .kdirty => x.x.kdirty
  | .ktoff => x.x.ktoff
  | .kpmap => x.x.kpmap
  | .kctx => x.x.kctx
  | .ksave => x.x.ksave
  | .kdbgc => x.x.kdbgc
  | .kstopc => x.x.kstopc
  | .kbrk0 => x.x.kbrk0
  | .kbrk1 => x.x.kbrk1
  | .kcmsel => x.x.kcmsel
  | .klrec => x.k.klrec
  | _ => 0
/-- What a read of a K register returns on core c of die d. -/
def State.readK (s : State) (d c : Nat) (k : KName) : W64 :=
  let y := s.die d
  let x := s.core d c
  let e := (s.pkg (pkgOf d)).sec
  match k with
  | .ktime => BitVec.ofNat 64 y.kfrc + x.x.ktoff
  | .ktrb => y.trace.ktrb
  | .ktrp => y.trace.ktrp
  | .kcmval => BitVec.ofNat 64 (assocGet y.trace.matrix (fieldOf x.x.kcmsel 11 0))
  | .kskew p => if (s.port d p).state = linkUp then (y.trace.skew[p]?).getD noSkew else noSkew
  | .kfrc => BitVec.ofNat 64 y.kfrc
  | .klq => s.klq d c
  | .kboard => y.seqr.kboard
  | .kpreempt => BitVec.ofNat 64 (y.preempt % 256 * 2 ^ 56)
  | .klend => y.klend
  | .kamask => s.kamask d
  | .kslife => BitVec.ofNat 64 (e.mates % 256 * 256 + e.life % 8)
  | .ksdevid0 => (Config.deviceId (pkgOf d)).truncate 64
  | .ksdevid1 => ((Config.deviceId (pkgOf d)) >>> 64).truncate 64
  | .ksnonce => e.nonce
  | .ksdbg => BitVec.ofNat 64 (e.mask % 16)
  | .ksalarm => e.ksalarm
  | .kskeys => BitVec.ofNat 64 (e.tkeys.length % 512)
  | k => x.kword k

/-! ### Writing a register of the context -/

/-- A plain register of the context set. -/
def Core.setK1 (x : Core) (k : KName) (v : W64) : Core :=
  let bank := fun (f : TrapBank → TrapBank) => x.setBank x.ctl.level f
  match k with
  | .kepc => bank fun b => { b with kepc := if fieldOf v 4 2 = 0 then v ||| 4 else v }
  | .kpriv => bank fun b => { b with skip := bitOf v 2, pp := fieldOf v 1 0 }
  | .ktvec => bank fun b => { b with ktvec := v }
  | .kscr0 => bank fun b => { b with kscr0 := v }
  | .kscr1 => bank fun b => { b with kscr1 := v }
  | .kmode => x.setK fun r => { r with kmode := v }
  | .kvstat => x.setK fun r => { r with kvstat := v }
  | .kcstat => x.setK fun r => { r with kcstat := v }
  | .kmstat => x.setK fun r => { r with kmstat := v }
  | .knoise => x.setK fun r => { r with knoise := v }
  | .knlogb => x.setK fun r => { r with knlogb := v }
  | .knlogp => x.setK fun r => { r with knlogp := v }
  | .kgot => x.setK fun r => { r with kgot := v }
  | .kbasin => x.setK fun r => { r with kbasin := v }
  | .kbcache => x.setK fun r => { r with kbcache := v }
  | .ksemb => x.setK fun r => { r with ksemb := v }
  | .kdtab => x.setK fun r => { r with kdtab := v }
  | .krtab => { x with x := { x.x with krtab := v } }
  | .kptroot => { x with x := { x.x with kptroot := v } }
  | .ks2rtab => { x with x := { x.x with ks2rtab := v } }
  | .ks2root => { x with x := { x.x with ks2root := v } }
  | .kdirty => { x with x := { x.x with kdirty := v } }
  | .ktoff => { x with x := { x.x with ktoff := v } }
  | .kpmap => { x with x := { x.x with kpmap := v } }
  | .ksave => { x with x := { x.x with ksave := v } }
  | .kdbgc => { x with x := { x.x with kdbgc := v } }
  | .kstopc => { x with x := { x.x with kstopc := v } }
  | .kbrk0 => { x with x := { x.x with kbrk0 := v } }
  | .kbrk1 => { x with x := { x.x with kbrk1 := v } }
  | .kcmsel => { x with x := { x.x with kcmsel := v } }
  | _ => x

/-- What a register write comes to: done; not yet; begun, with its end still to come (R394); a fault. -/
inductive WriteOut where
  | done (s : State)
  | wait
  | pending (s : State)
  | illegal
  | privilege

/-- A register of the context written, where nothing but its own rule stands in the way. -/
def State.writePlain (s : State) (d c : Nat) (k : KName) (v : W64) : WriteOut :=
  let x := s.core d c
  if k.rejects v (fieldOf x.k.kbasin 44 32) then .illegal
  else .done (s.updCore d c fun x => x.setK1 k (k.merge (x.kword k) v))

/-- Whether every V instruction of an earlier line than the one that issues has retired (R87, R165). A handler does not wait for
those of the held context, which stand still (log 22). -/
def Core.vRetired (x : Core) : Bool :=
  x.ctl.hold.isSome ||
    (!(x.q.v.any fun e => decide (e.rank / 8 < (x.ctl.line.elim 0 (·.rank)) / 8)) && x.fl.vdumped.isEmpty && !x.fl.vres.any VRes.late)
/-- Whether nothing of the context stands before a write of a Q register (R265). -/
def Core.quiet (x : Core) : Bool := x.ctl.hold.isSome || (x.q.all.isEmpty && x.fl.cmds.isEmpty)

/-! ### The writes that have a row of their own -/

/-- MODE_WRITE (R86). -/
def State.writeMode (s : State) (d c : Nat) (v : W64) : WriteOut := s.writePlain d c .kmode v
/-- NOISE_MODE_WRITE (R165). -/
def State.writeNoise (s : State) (d c : Nat) (k : KName) (v : W64) : WriteOut :=
  let x := s.core d c
  if !x.vRetired then .wait
  else
    let y := x.setK1 k (k.merge (x.kword k) v)
    if y.k.noiseLegal then .done (s.updCore d c fun _ => y) else .illegal
/-- RANGE_TABLE_LOAD (R240, R242): the register is written and the table read whole. -/
def State.writeRange (s : State) (d c : Nat) (stage2 : Bool) (v : W64) : WriteOut :=
  let k : KName := if stage2 then .ks2rtab else .krtab
  if k.rejects v 0 then .illegal
  else
    let y := (s.core d c).setK1 k (k.clean v)
    .done (s.updCore d c fun _ =>
      { y with xl := if stage2 then { y.xl with rt2 := s.readTab2 d y } else { y.xl with rt1 := s.readTab1 d y } })
/-- CACHE_SHARE_WRITE (R175, R178): the share changes, and no entry of it is valid for the context. -/
def State.writeShare (s : State) (d c : Nat) (v : W64) : WriteOut :=
  let x := s.core d c
  if KName.kbcache.rejects v (fieldOf x.k.kbasin 44 32) then .illegal
  else
    .done ((s.updCore d c fun x => x.setK1 .kbcache (KName.kbcache.clean v)).updDie d fun y =>
      { y with tags := y.tags.filter fun t => t.owner != x.k.kslot.toNat })
/-- TRACE_BUFFER_WRITE (R399). -/
def State.writeTrace (s : State) (d : Nat) (v : W64) : WriteOut :=
  if KName.ktrb.rejects v 0 then .illegal
  else .done ((s.flushTrace d).updDie d fun y => { y with trace := { y.trace with ktrb := KName.ktrb.clean v, ktrp := 0, snap := 0 } })

/-! ### KXINV (R251) -/

/-- Whether a core has a request at the security engine that is not answered (R423). -/
def State.asks (s : State) (d c : Nat) : Bool := (s.pkg (pkgOf d)).sec.queue.any fun q => q.die == d && q.core == c
/-- Whether every access of a core that used a translation is visible: no load, atomic or store is in flight, the security engine
holds no page of a request of it, and no rill a row it has dispatched (R319, R423). -/
def State.accessesDone (s : State) (d c : Nat) : Bool :=
  let x := s.core d c
  x.loadsBack && x.fl.stores.isEmpty && !((s.die d).qpath.any fun t => t.core == c) && !s.asks d c &&
    !((s.die d).swork.any fun w => w.core == c && !w.queue.isEmpty)
/-- A core's cached translations that meet a predicate go. -/
def Core.dropTlb (x : Core) (p : TlbEntry → Bool) : Core := { x with xl := { x.xl with tlb := x.xl.tlb.filter fun t => !p t } }
/-- KIND 00. -/
def State.xinvAll (s : State) (d c : Nat) : WriteOut :=
  if !s.accessesDone d c then .wait
  else
    let y := (s.core d c).dropTlb fun t => !t.stage2
    .done (s.updCore d c fun _ => { y with xl := { y.xl with rt1 := s.readTab1 d y } })
/-- KIND 01. -/
def State.xinvOne (s : State) (d c va : Nat) : WriteOut :=
  if !s.accessesDone d c then .wait
  else .done (s.updCore d c fun x => x.dropTlb fun t => !t.stage2 && decide (t.base ≤ va ∧ va < t.base + t.size))
/-- The saved contexts a die keeps that have a KS2ROOT lose their stage-2 translations, their table read again. -/
def State.xinvHeld (s : State) (part e : Nat) (root : W64) : State :=
  if (s.die e).part = part then
    s.updDie e fun y => { y with held := y.held.map fun h =>
      if h.x.ks2root == root then
        { h with xl := { h.xl with tlb := h.xl.tlb.filter fun t => !t.stage2
                                   rt2 := s.readTab2 e { Core.reset with x := h.x, ctx := { Core.reset.ctx with tenant := h.tenant } } } }
      else h }
  else s
/-- The cores of the partition whose contexts have a KS2ROOT. -/
def State.sharers (s : State) (d : Nat) (root : W64) : List (Nat × Nat) :=
  (List.range s.dies.length).flatMap fun e =>
    if (s.die e).part = (s.die d).part then
      ((List.range 32).filter fun c => (s.core e c).x.ks2root == root).map fun c => (e, c)
    else []
/-- KIND 10: every context with this KS2ROOT, on every die of the partition. -/
def State.xinvStage2 (s : State) (d c : Nat) : WriteOut :=
  let root := (s.core d c).x.ks2root
  let l := s.sharers d root
  if !(l.all fun p => s.accessesDone p.1 p.2) then .wait
  else
    .done ((List.range s.dies.length).foldl (fun s e => s.xinvHeld (s.die d).part e root) (l.foldl (fun s p =>
      let y := (s.core p.1 p.2).dropTlb (·.stage2)
      s.updCore p.1 p.2 fun _ => { y with xl := { y.xl with rt2 := s.readTab2 p.1 y } }) s))

end Sys2Proof.Machine
end

