-- ==== Sys2Proof/Machine/Lines.lean ====
section
/-!
DEFINITION. Sys2Proof/Machine/Lines.lean: the control core's own steps: LINE_DELIVERY (R14, R122, R400), FREEZE (R270),
TRAP_ENTRY of a fault that no group of the core raised at issue (R260, R261), DUMPED_RESULT_WRITE (R271), the no-progress
watchdog (R384), and `eret` (R263).
-/
namespace Sys2Proof.Machine
open Sys2Proof

/-! ### LINE_DELIVERY -/

/-- The line whose C lanes have all issued resolves (R122): the next line is chosen, a loop exit is recorded (R405). -/
def State.resolveLine (s : State) (d c : Nat) (l : LineBuf) : State :=
  let x := s.core d c
  let y := x.resolve l
  let s1 := s.updCore d c fun _ => y
  if 0 < x.loops.d ∧ y.loops.d = 0 then s1.loopRecord d c else s1
/-- A breakpoint that matches the next line asks for a stop at the next edge (R400); the line is not checked again (R401). -/
def Core.hitBreak (x : Core) : Core := (x.askStop 2 1).setCtl fun t => { t with brkDone := true }
/-- A line that a breakpoint holds back until its stop. -/
def Core.breakHeld (x : Core) : Bool := x.ctl.hold.isNone && x.ctl.brkDone && x.ctl.stops.any fun r => r.reason == 2 && decide (r.wait ≤ 1)
/-- The next line of a core that stands between two lines: a line to be fetched again for its C lanes (R263), else the next
line, which a breakpoint holds back (R400). -/
def State.nextFetch (s : State) (d c : Nat) : State :=
  let x := s.core d c
  if !x.fetches then s
  else
    match x.ctl.refetch with
    | some r => s.fetchLine d c r.line (some r)
    | none =>
      if x.breaks x.ctl.nextLine then s.updCore d c Core.hitBreak
      else if x.breakHeld then s
      else s.fetchLine d c x.ctl.nextLine none
/-- LINE_DELIVERY. Under STEP a line whose C lanes have issued stands until its stop (R400). -/
def execLineDelivery (d c : Nat) (s : State) : Out :=
  let x := s.core d c
  if !x.fetches then .next s
  else
    match x.ctl.line with
    | some l => if l.done && !(x.stepDone && x.ctl.hold.isNone) then .next ((s.resolveLine d c l).nextFetch d c) else .next s
    | none => .next (s.nextFetch d c)

/-! ### FREEZE, TRAP_ENTRY -/

/-- FREEZE: a stop that is due freezes the core (R270, R272, R400). -/
def execFreeze (d c : Nat) (s : State) : Out :=
  let x := s.core d c
  if x.ctl.run = .running && x.stopDue && !x.ctl.frozen then .next (s.freezeCore d c) else .next s
/-- TRAP_ENTRY: a fault that has arisen outside the issue of a group, of a command or an alarm, is reported. A stop that falls
on the same edge comes first (R402). -/
def execTrapEntry (d c : Nat) (s : State) : Out :=
  let x := s.core d c
  match x.ctl.faults with
  | [] => .next s
  | f :: _ =>
    if x.ctl.run ≠ .running || x.stopDue || (x.ctl.frozen && x.ctl.hold.isNone) then .next s else .next (s.takeTrap d c f)

/-! ### DUMPED_RESULT_WRITE -/

/-- A dumped V result lands (R271): in its tile, or in the ring of the drain it is for. -/
def Core.landTile (x : Core) (v : VRec) : Core :=
  let y := match v.num with
    | none => { x with tiles := x.tiles.set v.dst v.tile }
    | some n => x.updBindings v.dst (fun b => b.num == n.1) fun b => some { b with ring := b.ring ++ [RingTile.mk n.2 v.tile []] }
  y.setK fun k => { k with kvstat := k.kvstat ||| BitVec.ofNat 64 (v.kvstat % 16) }
/-- DUMPED_RESULT_WRITE: dumped result n of the core, scalar results first and tiles after them, whose remaining cycles have
elapsed, is written. -/
def execDumpedResultWrite (d c n : Nat) (s : State) : Out :=
  let x := s.core d c
  if x.ctl.frozen then .next s
  else
    match x.fl.dumped[n]? with
    | some r =>
      if r.cycles = 0 then
        .next (s.updCore d c fun x => (x.setFl fun f => { f with dumped := f.dumped.eraseIdx n }).land r.reg r.val r.poison)
      else .next s
    | none =>
      let m := n - x.fl.dumped.length
      match x.fl.vdumped[m]? with
      | none => .next s
      | some v =>
        if v.rows.all (· == 0) then
          .next (s.updCore d c fun x => (x.setFl fun f => { f with vdumped := f.vdumped.eraseIdx m }).landTile v)
        else .next s

/-! ### The watchdog (R384) -/

/-- The stalled lanes and queue heads of a core, with their engines. -/
def Core.stalledSlots (x : Core) : List Slot := [Engine.c, .v, .m, .y, .f].filterMap x.slot
/-- The slot delivered first. -/
def earliestSlot : List Slot → Option Slot
  | [] => none
  | p :: ps => some (ps.foldl (fun a b => if b.rank < a.rank then b else a) p)
/-- NO_PROGRESS_WATCHDOG: after 2^24 cycles in which the context has not progressed, the group delivered first among those that
stall faults; the count starts again. -/
def execNoProgressWatchdog (d c : Nat) (s : State) : Out :=
  let x := s.core d c
  if x.ctl.run ≠ .running || x.ctl.frozen || x.ctl.hold.isSome || x.stopDue || decide (x.ctl.noProg < 2 ^ 24) then .next s
  else
    match earliestSlot x.stalledSlots with
    | none => .next s
    | some p =>
      let s1 := s.updCore d c Core.progress
      .next (s1.takeTrap d c ⟨p.rank, 0x13, 0, BitVec.ofNat 64 p.grp.word, p.addr, p.grp.lane,
        if gathers p.grp.engine then 0 else mpcOf p.rep 0, none, false,
        p.grp.engine == .c⟩)

/-! ### eret -/

/-- A held context at or below a level (R263). -/
def Core.heldBelow (x : Core) (lvl : Nat) : Bool := x.ctl.hold.elim false fun h => decide (h.level ≤ lvl)
/-- Where a resumed core's next C lane stands, as `bar` names a lane; 0 where it has none. -/
def Core.resumeKey (x : Core) : Nat :=
  match x.ctl.refetch, x.ctl.line with
  | some r, _ => r.line * 8 + r.lane
  | none, some l => ((cGroups l.words l.lane).head?.map fun g => l.addr * 8 + g.lane).getD 0
  | none, none => 0
/-- The commands that replay see every store the core delivered before the `eret` (R189, R263). -/
def State.replaySees (s : State) (d c : Nat) (old : Core) : State :=
  let again := (old.fl.cmds.filter fun k => k.replay.st != k.st).map fun k => (k.tl, k.num)
  let rel := s.unperformed d c
  s.updCore d c fun x => x.setFl fun f => { f with cmds := f.cmds.map fun k => if again.contains (k.tl, k.num) then { k with rel := rel } else k }
/-- `eret` (R263): the level, the loop state and the fetch are the bank's again; a `bar` it does not come back to is left;
where the hold ends, commands replay, and withdrawn tasks, follow-ons and requests go on. -/
def execEret (s : State) : Out :=
  let x := s.me
  if x.ctl.level = levelA then s.privFault
  else if !x.heldBelow x.ctl.level then s.illegal
  else
    let d := s.cur.die
    let c := s.cur.core
    let s1 := s.updCore d c fun x => (x.eretCore Core.dropGroup).progress
    let y := s1.core d c
    let s2 := s1.leaveBars y y.resumeKey
    if y.ctl.hold.isSome then .next s2
    else .next ((((s2.replaySees d c x).resumeTasks d c).handOverAll d c).launchF d c)

end Sys2Proof.Machine
end

