-- ==== Sys2Proof/Machine/Launch.lean ====
section
/-!
DEFINITION. Sys2Proof/Machine/Launch.lean: host work queues and launch packets (R369 to R372, R444), arbitration (R373), the
opening and placement (R374 to R376), the end of a context and of a launch (R264, R377), and the device launches of `launch`
and `waitch` (R378 to R381).
-/
namespace Sys2Proof.Machine
open Sys2Proof

/-! ### What a context holds of its die -/

/-- The basin pages, cistern banks, split slots, directory entries and tag entries of a context slot are freed (R172, R233,
R327, R351, R177), and what the split unit holds of a multiply that was skipped. -/
def Die.freeSlot (y : Die) (slot tenant : Nat) : Die :=
  let y1 := (y.splits.filter fun t => t.slot == slot && t.tenant == tenant).foldl (fun (y : Die) t => y.dropSplit t.id) y
  let y2 := y1.withdrawEntry fun e => e.pub == slot
  { y2 with
    allots := y2.allots.filter (·.slot != slot)
    tags := y2.tags.filter (·.owner != slot)
    swork := y2.swork.filter (·.kslot != slot)
    cascs := y2.cascs.map fun k => { k with banks := k.banks.filter fun b => !(b.slot == slot && b.tenant == tenant) } }
/-- Whether pages base to base + count − 1 of a die are free. -/
def Die.pagesFree (y : Die) (base count : Nat) : Bool :=
  decide (16 ≤ base ∧ base + count ≤ 4096) && !y.allots.any fun a => decide (a.base < base + count ∧ base < a.base + a.count)
/-- The lowest run of `count` free pages (R172): it begins at page 16 or where an allotment ends. -/
def Die.fitPages (y : Die) (count : Nat) : Option Nat :=
  if count = 0 then some 0
  else
    ((16 :: y.allots.map fun a => a.base + a.count).filter fun b => y.pagesFree b count).foldl (fun (m : Option Nat) b =>
      some (m.elim b (min b))) none
/-- Pages allotted to a slot and zeroed. -/
def Die.allot (y : Die) (slot base count : Nat) : Die :=
  if count = 0 then y
  else { y with allots := ⟨slot, base, count⟩ :: y.allots, basin := y.basin.zeroRange (65536 * base) (65536 * count) }
/-- The lowest free context slot (R376). -/
def Die.freeSlotNo (y : Die) : Option Nat :=
  (List.range 254).find? fun n => !(y.cores.any fun x => x.k.kslot.toNat == n) && !(y.held.any fun h => h.slot == n)
/-- Whether a core holds a context: it has a slot (R268). -/
def Core.holds (x : Core) : Bool := x.k.kslot.toNat != 255
/-- Whether core c is free for a launch of a partition (R376, R389, R396). -/
def Die.coreFree (y : Die) (c part : Nat) : Bool :=
  let l := (y.lends[c]?).getD ⟨false, 0, 0⟩
  ((y.cores[c]?).elim false fun x => x.ctl.run == .idle && !x.holds) && (if l.lent then l.part == part else y.part == part)

/-! ### Queue words (R369) -/

/-- The die of a package queue, and its offset in the window. -/
def queueDie (p q : Nat) : Nat := 8 * p + q / 512
def queueOff (q : Nat) : Nat := 1024 * (q % 512)
def State.queueField (s : State) (p q off n : Nat) : Nat := leNat ((s.die (queueDie p q)).basin.read 0 (queueOff q + off) n)
def State.setQueueWord (s : State) (p q off v : Nat) : State :=
  s.updDie (queueDie p q) fun y => { y with basin := y.basin.write 0 (queueOff q + off) (leBytes 8 v) }
def State.queueLevel (s : State) (p q : Nat) : Nat := s.queueField p q 24 1 % 4
/-- ERR: a reason and the packet's number. -/
def State.queueErr (s : State) (p q reason num : Nat) : State := s.setQueueWord p q 32 (reason * 2 ^ 56 + num % 2 ^ 56)

/-! ### Packets (R370) -/

def pkCores (k : List Byte) : Nat := leAt k 8 1 * leAt k 9 1 * leAt k 10 1
def pkWait (k : List Byte) (i : Nat) : Nat := leAt k (24 + 8 * i) 8
def pkSig (k : List Byte) (i : Nat) : Nat := leAt k (40 + 8 * i) 8
def pkKind (w : Nat) : Nat := bitField w 63 62
def pkIndex (w : Nat) : Nat := bitField w 61 50
def pkValue (w : Nat) : Nat := bitField w 49 0
/-- Window i of a packet. -/
def pkWindow (k : List Byte) (i : Nat) : Window :=
  ⟨leAt k (64 + 16 * i) 7, leAt k (72 + 16 * i) 4, leAt k (76 + 16 * i) 2, (leAt k (78 + 16 * i) 1).testBit 0⟩
/-- A nonzero reserved field of a window, or a bound above its limit. -/
def windowBad (k : List Byte) (i : Nat) : Bool :=
  leAt k (71 + 16 * i) 1 != 0 || decide (32768 < leAt k (72 + 16 * i) 4) || decide (1 < leAt k (78 + 16 * i) 1) || leAt k (79 + 16 * i) 1 != 0
def waitBad (w : Nat) : Bool := !((pkKind w == 1 && decide (pkIndex w < 64)) || pkKind w == 2)
def sigBad (w : Nat) : Bool := !(pkKind w == 1 && decide (pkIndex w < 64))
/-- Reason 0x04: reserved fields, and NW, NS or a kind out of range. -/
def packetReserved (k : List Byte) : Bool :=
  leAt k 7 1 != 0 || leAt k 11 1 != 0 || leAt k 20 4 != 0 || leAt k 56 8 != 0 || decide (2 < leAt k 18 1) || decide (2 < leAt k 19 1) ||
  ((List.range (leAt k 18 1)).any fun i => waitBad (pkWait k i)) || ((List.range (leAt k 19 1)).any fun i => sigBad (pkSig k i)) ||
  (List.range 16).any (windowBad k)
/-- Reason 0x02 of the packet alone: a spread value outside R370, or beyond the partition's packages. -/
def spreadBad (k : List Byte) (pkgs : Nat) : Bool :=
  !decide (1 ≤ leAt k 8 1 ∧ leAt k 8 1 ≤ 4 ∧ 1 ≤ leAt k 9 1 ∧ leAt k 9 1 ≤ 8 ∧ 1 ≤ leAt k 10 1 ∧ leAt k 10 1 ≤ 8 ∧
    1 ≤ leAt k 12 2 ∧ leAt k 12 2 ≤ pkgs)
/-- Reason 0x02 against the descriptor's `.spread`. -/
def spreadOver (k desc : List Byte) : Bool :=
  decide (leAt desc 16 1 < leAt k 8 1 ∨ leAt desc 17 1 < leAt k 9 1 ∨ leAt desc 18 1 < leAt k 10 1 ∨ leAt desc 20 2 < leAt k 12 2)

/-! ### The template (R444) -/

/-- The registers a template gives from its K image, and their numbers. -/
def templRegs : List (KName × Nat) :=
  [(.krtab, 0x40), (.kptroot, 0x41), (.ks2rtab, 0x42), (.ks2root, 0x43), (.kdirty, 0x44), (.ktoff, 0x45), (.kpmap, 0x46),
   (.ksemb, 0x34), (.kbcache, 0x33)]
def templWord (t : List Byte) (n : Nat) : W64 := BitVec.ofNat 64 (leAt t (8 * n) 8)
/-- Whether a template holds a value its register's rule rejects; `count` is KBASIN.COUNT. -/
def templBad (t : List Byte) (count : Nat) : Bool := templRegs.any fun p => p.1.rejects (templWord t p.2) count
/-- The 2560 bytes at TMPL (R369, R444); `none` where they cannot be read. -/
def State.template (s : State) (p q : Nat) : Option (List Byte) :=
  let d := queueDie p q
  let t := s.queueField p q 40 8
  if t % 4096 ≠ 0 ∨ paPlace d t = .unreachable then none
  else
    let r := s.readPa d (s.pkg p).sec.plat t 2560
    if r.2 then none else some r.1
/-- The range tables of a core record read whole, stage 2 first (R242). -/
def State.loadTables (s : State) (d : Nat) (x : Core) : Core :=
  let x1 := { x with xl := { x.xl with rt2 := s.readTab2 d x } }
  { x1 with xl := { x1.xl with rt1 := s.readTab1 d x1 } }
/-- A core record that holds what a template gives. -/
def State.templCore (s : State) (d tenant : Nat) (t : List Byte) : Core :=
  let x0 := templRegs.foldl (fun (x : Core) p => x.setK1 p.1 (p.1.clean (templWord t p.2))) Core.reset
  let x1 := { x0 with bankS := { x0.bankS with ktvec := KName.ktvec.clean (templWord (t.drop 0x800) 6) }
                      bankH := { x0.bankH with ktvec := KName.ktvec.clean (templWord (t.drop 0x900) 6) }
                      ctx := { x0.ctx with tenant := tenant } }
  s.loadTables d x1
/-- Ranges of bytes cut at 64-byte lines. -/
def linePieces (va n : Nat) : List (Nat × Nat) :=
  (linesOf va n).map fun l => (max va (64 * l), min (va + n) (64 * l + 64) - max va (64 * l))
/-- Bytes the scheduler reads for a launch at level A on die d; `none` where they cannot be read. -/
def State.schedRead (s : State) (d : Nat) (x : Core) (va n : Nat) : Option (List Byte) :=
  (linePieces va n).foldl (fun (m : Option (List Byte)) p =>
    m.bind fun bs =>
      if (addrFault (BitVec.ofNat 64 p.1) 1).isSome then none
      else
        match s.translate d x levelA .read p.1 with
        | .error _ => none
        | .ok o =>
          let r := s.readPa d (s.keyOf d x.ctx.tenant) o.pa p.2
          if r.2 then none else some (bs ++ r.1)) (some [])
/-- The descriptor a packet names, if it is valid (R372, R430). -/
def State.descriptor (s : State) (d : Nat) (x : Core) (k : List Byte) : Option (List Byte) :=
  (s.schedRead d x (leAt k 0 7) 128).bind fun b => if (leAt b 112 1).testBit 0 then some b else none
/-- A wait entry (R370): whether it holds, or `none` where its word cannot be read. -/
def State.waitHolds (s : State) (p d : Nat) (x : Core) (w : Nat) : Option Bool :=
  if pkKind w = 2 then
    if (s.die (queueDie p (pkIndex w))).basin.anyBad (queueOff (pkIndex w)) 64 then none
    else some (decide (pkValue w ≤ s.queueField p (pkIndex w) 16 8))
  else (s.schedRead d x ((fieldOf x.k.ksemb 55 9) * 512 + 8 * pkIndex w) 8).map fun b => decide (pkValue w ≤ leNat b)
/-- All the waits of a packet. -/
def State.waits (s : State) (p d : Nat) (x : Core) (k : List Byte) : Option Bool :=
  (List.range (leAt k 18 1)).foldl (fun (m : Option Bool) i => m.bind fun b => (s.waitHolds p d x (pkWait k i)).map (b && ·)) (some true)

/-! ### What stands before a packet -/

/-- A package's first die of a partition. -/
def State.partDie (s : State) (p part : Nat) : Nat :=
  ((List.range 8).map (8 * p + ·)).find? (fun d => (s.die d).part == part) |>.getD (8 * p)
/-- The packages of a partition in ascending physical peer number of die 0 (R375). -/
def insertBy (f : Nat → Nat) (a : Nat) : List Nat → List Nat
  | [] => [a]
  | b :: l => if f a ≤ f b then a :: b :: l else b :: insertBy f a l
def State.partPkgs (s : State) (part : Nat) : List Nat :=
  ((List.range s.pkgs.length).filter fun p => (List.range 8).any fun m => (s.die (8 * p + m)).part == part).foldl
    (fun l p => insertBy (fun p => s.peerNo (8 * p)) p l) []

/-- Where a packet stands: it cannot be launched for a reason of R372; it waits; it may be taken, with its descriptor and
template. -/
inductive Verdict where
  | reject (reason : Nat)
  | waits
  | ready (desc templ : List Byte)
/-- The descriptor and template of a packet whose root queue is q (R372, R444): the reason it fails, or both. KBCACHE's slots are
held against the kernel's page count once the descriptor gives it. -/
def State.packetOpens (s : State) (p q tenant : Nat) (k : List Byte) : Except Nat (List Byte × List Byte) :=
  match s.template p q with
  | none => .error 7
  | some t =>
    if templBad t 65536 then .error 7
    else
      match s.descriptor (queueDie p q) (s.templCore (queueDie p q) tenant t) k with
      | none => .error 3
      | some b => if templBad t (leAt b 24 2) then .error 7 else if spreadOver k b then .error 2 else .ok (b, t)
/-- A packet of root queue q judged (R372). -/
def State.judge (s : State) (p q tenant : Nat) (k : List Byte) : Verdict :=
  match s.packetOpens p q tenant k with
  | .error e => .reject e
  | .ok (b, t) =>
    match s.waits p (queueDie p q) (s.templCore (queueDie p q) tenant t) k with
    | none => .reject 5
    | some false => .waits
    | some true => .ready b t
/-- The checks of a host packet, in the order of R372. -/
def State.judgeHead (s : State) (p q : Nat) (k : List Byte) : Verdict :=
  let part := (s.die (queueDie p q)).part
  if packetReserved k then .reject 4
  else if leAt k 14 2 ≠ s.queueField p q 26 2 then .reject 1
  else if spreadBad k (s.partPkgs part).length then .reject 2
  else s.judge p q (leAt k 14 2) k
/-- The head packet of a queue that takes packets (R369, R439). -/
def State.headOf (s : State) (p q : Nat) : Option (List Byte) :=
  let taken := s.queueField p q 8 8
  if (s.die (queueDie p q)).hreg.ready && (s.queueField p q 24 1).testBit 2 && decide (taken < s.queueField p q 0 8) then
    some ((s.die (queueDie p q)).basin.read 0 (queueOff q + 64 + 320 * (taken % 3)) 320)
  else none

/-! ### Launch records (R373, R378) -/

def LaunchRec.key (r : LaunchRec) : Nat := r.pkg * 2 ^ 64 + r.num
def State.recByKey (s : State) (key : Nat) : Option LaunchRec := s.recs.find? fun r => r.key == key
def State.updRec (s : State) (key : Nat) (f : LaunchRec → LaunchRec) : State :=
  { s with recs := s.recs.map fun r => if r.key == key then f r else r }
/-- DONE of a root queue (R204, R377): every packet before it has ended or was rejected. -/
def State.doneOf (s : State) (p q : Nat) : Nat :=
  ((s.recs.filter fun r => r.rootPkg == p && r.root == q && r.parent.isNone && !r.ended).map (·.rootNo)).foldl min (s.queueField p q 8 8)
def State.advanceDone (s : State) (p q : Nat) : State := s.setQueueWord p q 16 (s.doneOf p q)
/-- A host packet rejected (R372). -/
def State.rejectHead (s : State) (p q reason : Nat) : State :=
  let taken := s.queueField p q 8 8
  ((s.queueErr p q reason taken).setQueueWord p q 8 (taken + 1)).advanceDone p q
/-- Child n of a context has ended: its timeline moves on, and the context has progressed (R204, R384). -/
def Core.childDone (x : Core) (n : Nat) : Core :=
  Core.progress { x with tls := x.tls.set .tll ((x.tls.get .tll).complete n) }
/-- A child has ended with a status (R380): its parent's timeline moves on. -/
def State.childEnds (s : State) (parent : Nat × Nat × Nat) (status : Nat) : State :=
  { s with
    kids := s.kids.map fun k => if k.launch == parent.1 && k.kpos == parent.2.1 && k.num == parent.2.2 then { k with status := some status } else k
    dies := s.dies.map fun y => { y with cores := y.cores.map fun x =>
      if x.holds && x.launchKey == parent.1 && x.place == parent.2.1 then x.childDone parent.2.2 else x } }

/-! ### The opening (R375) -/

def maskDies (mask : Nat) : List Nat := (List.range 8).filter mask.testBit
/-- The units of a launch: `r` is the parent die's RANK. -/
def unitsOf (mask p j u r : Nat) : List LUnit :=
  let l := maskDies mask
  (List.range u).map fun i => ⟨8 * p + (l[(i + r) % l.length]?).getD 0, i, j, false⟩
/-- The position of core c of unit u of spread package j (R237, R375). -/
def placeOf (pkg u qpd c : Nat) : Nat := pkg * 256 + u / qpd % 8 * 32 + u % qpd % 8 * 4 + c % 4
/-- The participants a launch gives a barrier: those of the units that meet a predicate. -/
def netOf (key : Nat) (scope : Option Scope) (units : List LUnit) (cpq qpd : Nat) : BarNet :=
  ⟨scope, key, units.flatMap fun n => (List.range cpq).map fun c => ⟨placeOf n.pkg n.u qpd c, 0, none, false⟩, 0⟩
/-- The barrier networks whose counts are loaded at take (R210). -/
def netsOf (key cpq qpd : Nat) (units : List LUnit) : List BarNet :=
  let dies := (units.map (·.die)).eraseDups
  let pkgs := (units.map fun n => pkgOf n.die).eraseDups
  (dies.map fun d => netOf key (some .die) (units.filter (·.die == d)) cpq qpd) ++
    (pkgs.map fun p => netOf key (some .pkg) (units.filter fun n => pkgOf n.die == p) cpq qpd) ++ [netOf key none units cpq qpd]

/-! ### Arbitration (R373) -/

/-- An entry that may be taken: a pool entry by its die and place, or the head of a queue. -/
structure Entry where
  level  : Nat
  tenant : Nat
  packet : List Byte
  desc   : List Byte
  templ  : List Byte
  rootPkg : Nat
  root   : Nat
  pool   : Option (Nat × Nat)
/-- What arbitration finds: entries that may be taken, host heads to reject, pool entries that leave without running. -/
structure Found where
  entries : List Entry
  rejects : List (Nat × Nat)
  leaves  : List (Nat × Nat)
def State.findHeads (s : State) (p : Nat) : Found :=
  (List.range 4096).foldl (fun (f : Found) q =>
    match s.headOf p q with
    | none => f
    | some k =>
      match s.judgeHead p q k with
      | .reject e => { f with rejects := f.rejects ++ [(q, e)] }
      | .waits => f
      | .ready b t => { f with entries := f.entries ++ [⟨s.queueLevel p q, leAt k 14 2, k, b, t, p, q, none⟩] }) ⟨[], [], []⟩
/-- Pool entries of a package not yet taken, in acceptance order. -/
def State.poolOf (s : State) (p : Nat) : List ((Nat × Nat) × PoolEntry) :=
  let l := (List.range 8).flatMap fun m => ((s.die (8 * p + m)).pool.mapIdx fun i e => ((8 * p + m, i), e)).filter fun q => q.2.taken.isNone
  l.foldl (fun l a =>
    let before := l.filter fun b => decide (b.2.order ≤ a.2.order)
    before ++ a :: l.filter fun b => !decide (b.2.order ≤ a.2.order)) []
def State.findPool (s : State) (p : Nat) : Found :=
  (s.poolOf p).foldl (fun (f : Found) a =>
    let tenant := (s.recByKey a.2.launch).elim 0 (·.tenant)
    match s.judge a.2.rootPkg a.2.root tenant a.2.bytes with
    | .reject _ => { f with leaves := f.leaves ++ [a.1] }
    | .waits => f
    | .ready b t => { f with entries := f.entries ++ [⟨s.queueLevel a.2.rootPkg a.2.root, tenant, a.2.bytes, b, t, a.2.rootPkg, a.2.root, some a.1⟩] }) ⟨[], [], []⟩
/-- W of a tenant (R373, R391). -/
def State.weightOf (s : State) (p tenant : Nat) : Nat :=
  let b := (s.die (8 * p)).seqr.board
  if b.en then ((b.weights.find? fun w => w.1 == tenant).map (·.2)).getD 1 else 1
/-- deficit[t]: one for each tenant, whatever the level. -/
def Arbiter.deficit (a : Arbiter) (t : Nat) : Nat := ((a.deficits.find? fun e => e.1 == t).map (·.2)).getD 0
def Arbiter.setDeficit (a : Arbiter) (t v : Nat) : Arbiter :=
  { a with deficits := (if v = 0 then [] else [(t, v)]) ++ a.deficits.filter fun e => !(e.1 == t) }
/-- The next tenant after the last one served, in ascending order and round again. -/
def nextTenant (last : Option Nat) (ts : List Nat) : Option Nat :=
  let low := fun (l : List Nat) => l.foldl (fun (m : Option Nat) t => some (m.elim t (min t))) none
  match low (ts.filter fun t => last.elim false fun l => decide (l < t)) with
  | some t => some t
  | none => low ts

/-- The launch an entry becomes (R373, R375): its record, its barrier networks; TAKEN moves on, or its pool entry is marked. -/
def State.takeEntry (s : State) (p : Nat) (e : Entry) : State :=
  let a := (s.pkg p).arb
  let num := a.recNo + 1
  let home := queueDie e.rootPkg e.root
  let src := e.pool.bind fun q => (s.die q.1).pool[q.2]?
  let part := (src.bind fun c => s.recByKey c.launch).elim (s.die home).part (·.part)
  let pkgs := if src.isSome then [p] else (s.partPkgs part).take (leAt e.packet 12 2)
  let u := leAt e.packet 9 1 * leAt e.packet 10 1
  let units := (pkgs.mapIdx fun j g => unitsOf (s.die (s.partDie g part)).amask g j u ((src.map (·.rank)).getD 0)).flatten
  let rootNo := match src with
    | none => s.queueField e.rootPkg e.root 8 8
    | some c => (s.recByKey c.launch).elim 0 (·.rootNo)
  let rec' : LaunchRec := ⟨p, num, e.packet, e.desc, e.templ, e.tenant, part, e.rootPkg, e.root, rootNo, (src.map (·.depth)).getD 1,
    min (leAt e.packet 16 2) (leAt e.desc 28 2), src.map fun c => (c.launch, c.kpos, c.num), units, 0, 0, false⟩
  let s1 := { s.updPkg p (fun g => { g with arb := { a with recNo := num } }) with
    recs := s.recs ++ [rec'], nets := s.nets ++ netsOf rec'.key (leAt e.packet 8 1) (leAt e.packet 9 1) units }
  match e.pool with
  | none => s1.setQueueWord e.rootPkg e.root 8 (rootNo + 1)
  | some q => s1.updDie q.1 fun y => { y with pool := y.pool.modify q.2 fun c => { c with taken := some num } }
/-- One take, or one turn of a tenant that takes nothing (R373). -/
def State.arbitrate (s : State) (p : Nat) (l : List Entry) : State :=
  let a := (s.pkg p).arb
  let set := fun (s : State) (f : Arbiter → Arbiter) => s.updPkg p fun g => { g with arb := f g.arb }
  let serve := fun (s : State) (lv t : Nat) =>
    match l.find? fun e => e.level == lv && e.tenant == t with
    | none => set s fun a => { a.setDeficit t 0 with serving := none }
    | some e =>
      if pkCores e.packet ≤ (s.pkg p).arb.deficit t then
        set (s.takeEntry p e) fun a => a.setDeficit t (a.deficit t - pkCores e.packet)
      else set s fun a => { a with serving := none }
  match a.serving with
  | some (lv, t) => serve s lv t
  | none =>
    match [3, 2, 1, 0].find? fun lv => l.any fun e => e.level == lv with
    | none => s
    | some lv =>
      match nextTenant ((a.last[lv]?).getD none) ((l.filter fun e => e.level == lv).map (·.tenant)) with
      | none => s
      | some t =>
        serve (set s fun a =>
          { a.setDeficit t (min (a.deficit t + 32 * s.weightOf p t) 65535) with
            last := a.last.set lv (some t), serving := some (lv, t) }) lv t
/-- A pool entry whose waits cannot be read, or that can no longer be opened, leaves the pool (R372; log 26). -/
def State.leavePool (s : State) (q : Nat × Nat) : State :=
  match (s.die q.1).pool[q.2]? with
  | none => s
  | some e => (s.updDie q.1 fun y => { y with pool := y.pool.eraseIdx q.2 }).childEnds (e.launch, e.kpos, e.num) 5
/-- LAUNCH_TAKE of a package: a host packet that fails its checks is rejected; else a pool entry that cannot run leaves; else the
next entry is taken (R373), unless a check has frozen tenant work (R426). -/
def execLaunchTake (p : Nat) (s : State) : Out :=
  if (s.pkg p).sec.frz then .next s
  else
    let h := s.findHeads p
    let c := s.findPool p
    match h.rejects, c.leaves with
    | (q, e) :: _, _ => .next (s.rejectHead p q e)
    | [], q :: _ => .next (s.leavePool q)
    | [], [] => .next (s.arbitrate p (c.entries ++ h.entries))

/-! ### Placement (R376) -/

/-- A context placed on core c of die d (R376, R444): its registers from the template, its descriptor and its packet. -/
def State.placeCore (s : State) (d c slot base : Nat) (r : LaunchRec) (n : LUnit) (i : Nat) : State :=
  let qpd := leAt r.packet 9 1
  let old := s.core d c
  let x := s.templCore d r.tenant r.templ
  let count := leAt r.kernel 24 2
  let y := { x with
    k := { x.k with
      kgot := KName.kgot.clean (BitVec.ofNat 64 (leAt r.kernel 8 8))
      kpos := BitVec.ofNat 64 (placeOf n.pkg n.u qpd i * 65536 + c)
      kbasin := BitVec.ofNat 64 (count * 2 ^ 32 + base)
      kslot := BitVec.ofNat 64 slot
      klrec := BitVec.ofNat 64 r.num }
    ctl := { x.ctl with run := .running, level := levelA, nextLine := leAt r.kernel 0 7 / 32 * 32 }
    ctx := ⟨r.tenant, r.part, leAt r.kernel 22 1, leAt r.kernel 23 1 % 4, (leAt r.kernel 23 1).testBit 7, (List.range 16).map (pkWindow r.packet),
      r.rootPkg, r.root, r.pkg⟩
    noise := old.noise
    fl := { x.fl with seq := old.fl.seq } }
  (s.updDie d fun z => z.allot slot base count).updCore d c fun _ => y
/-- The cores of one unit placed in order; `none` where pages or slots run out. -/
def State.placeCores (s : State) (d : Nat) (r : LaunchRec) (n : LUnit) : List (Nat × Nat) → Option State
  | [] => some s
  | (i, c) :: rest =>
    match (s.die d).freeSlotNo, (s.die d).fitPages (leAt r.kernel 24 2) with
    | some slot, some base => (s.placeCore d c slot base r n i).placeCores d r n rest
    | _, _ => none
/-- The free cores of a quad for a partition. -/
def Die.quadFree (y : Die) (q part : Nat) : List Nat := ((List.range 4).map (4 * q + ·)).filter fun c => y.coreFree c part
/-- A unit placed: the lowest quad with enough free cores. The state, and the quad. -/
def State.placeUnit (s : State) (d : Nat) (r : LaunchRec) (n : LUnit) : Option (State × Nat) :=
  let cpq := leAt r.packet 8 1
  match (List.range 8).find? fun q => decide (cpq ≤ ((s.die d).quadFree q r.part).length) with
  | none => none
  | some q =>
    (s.placeCores d r n ((((s.die d).quadFree q r.part).take cpq).mapIdx fun i c => (i, c))).map fun t =>
      (t.updRec r.key fun r => { r with units := r.units.map fun m => if m.pkg == n.pkg && m.u == n.u then { m with placed := true } else m }, q)
/-- Units placed in order until one does not fit; those placed, with their quads. -/
def State.placeUnits (s : State) (d : Nat) (r : LaunchRec) : List LUnit → State × List (LUnit × Nat)
  | [] => (s, [])
  | n :: rest =>
    match s.placeUnit d r n with
    | none => (s, [])
    | some (t, q) =>
      let u := t.placeUnits d r rest
      (u.1, (n, q) :: u.2)
/-- The units of a launch that wait on a die. -/
def LaunchRec.waiting (r : LaunchRec) (d : Nat) : List LUnit := r.units.filter fun n => n.die == d && !n.placed
/-- Whether every unit of a launch is placed. -/
def LaunchRec.placed (r : LaunchRec) : Bool := r.units.all (·.placed)
/-- The pool entry of a launch that is placed whole is freed (R381). -/
def State.freePool (s : State) (key : Nat) : State :=
  match s.recByKey key with
  | none => s
  | some r =>
    if !r.placed then s
    else
      (List.range 8).foldl (fun s m => s.updDie (8 * r.pkg + m) fun y => { y with pool := y.pool.filter fun e => e.taken != some r.num }) s
/-- UNIT_PLACEMENT: die d places the units of the first launch that has some waiting there, in unit order, up to the first
that does not fit; the cores of one quad form a group for `bar.quad` (R210, R376). -/
def execUnitPlacement (d : Nat) (s : State) : Out :=
  match s.recs.find? fun r => !(r.waiting d).isEmpty with
  | none => .next s
  | some r =>
    let u := s.placeUnits d r (r.waiting d)
    let groups := ((List.range 8).map fun q => (u.2.filter fun p => p.2 == q).map (·.1)).filter fun l => !l.isEmpty
    let quads := groups.map fun l => netOf r.key (some .quad) l (leAt r.packet 8 1) (leAt r.packet 9 1)
    .next (State.freePool { u.1 with nets := u.1.nets ++ quads } r.key)

/-! ### The end of a context (R264, R213) and of a launch (R377) -/

/-- Requests of a core at the security engine go on, and their answers have no register any more (log 27). -/
def State.disown (s : State) (d c : Nat) : State :=
  s.updPkg (pkgOf d) fun g => { g with sec := { g.sec with queue := g.sec.queue.map fun q =>
    if q.die == d && q.core == c then { q with reg := 0 } else q } }
/-- A register tile as it stands: one that starts anew after a `sunb` is a cleared tile (R196). -/
def Core.savedTile (x : Core) (t : Nat) : Tile :=
  if x.unbound.any fun u => u.1 == t then Tile.zero 0 else (x.tiles[t]?).getD (Tile.zero 0)
/-- A core whose context has ended or been saved holds none (R264, R272): the results still out are written, and its registers
stand as they are until the next context is placed there (R239). -/
def State.emptied (s : State) (d c : Nat) : Core :=
  let x := s.core d c
  let x1 := x.fl.results.foldl (fun x r => x.land r.reg r.val r.poison) x
  let x2 := x.fl.loads.foldl (fun y l => match l.kind with
    | .slot => y
    | _ => y.land l.reg (s.loadValue d c l).1 (s.loadValue d c l).2) x1
  let x3 := x.fl.amos.foldl (fun y a => y.land a.reg a.old false) x2
  { x3 with
    tiles := (List.range 64).map x3.savedTile
    k := { x3.k with kslot := 255 }
    q := ⟨[], [], [], []⟩
    fl := { Core.reset.fl with seq := x.fl.seq }
    strm := List.replicate 16 none
    ended := []
    unbound := []
    ctl := Core.reset.ctl }
/-- The context of core c ends with a status of its launch (R380): its stores are performed, its resources freed, the answers kept
for its requests dropped (R339), and it counts as arrived at every later barrier. -/
def State.endContext (s : State) (d c status : Nat) : State :=
  let x := s.core d c
  let s1 := (s.drainStores d c).disown d c
  let s2 := (s1.updDie d fun y => y.freeSlot x.k.kslot.toNat x.ctx.tenant).updCore d c fun _ => s1.emptied d c
  { s2.updRec x.launchKey (fun r => { r with gone := r.gone + 1, status := max r.status status }) with
    nets := s2.nets.map fun n =>
      if n.launch == x.launchKey then n.setPart x.place fun p => { p with ended := true, waiting := none } else n
    saves := s2.saves.filter fun v => !(v.launch == x.launchKey && v.kpos == x.place)
    dies := s2.dies.map fun y =>
      { y with kept := y.kept.filter fun p => !(p.1.die == d && p.1.core == c && p.1.slot == x.k.kslot.toNat) } }
/-- A signal of a launch (R377): the atomic add, under the template's translation; `none` where the word is unreachable. -/
def State.signal (s : State) (r : LaunchRec) (w : Nat) : Option State :=
  let d := queueDie r.rootPkg r.root
  let x := s.templCore d r.tenant r.templ
  let va := fieldOf x.k.ksemb 55 9 * 512 + 8 * pkIndex w
  if (addrFault (BitVec.ofNat 64 va) 8).isSome then none
  else
    match s.translate d x levelA .atomic va with
    | .error _ => none
    | .ok o =>
      let k := s.keyOf d r.tenant
      if (s.readPa d k o.pa 8).2 then none
      else
        match s.setDirty d x Acc.atomic.code o.ipa with
        | .error _ => none
        | .ok t => some (t.writePa d k o.pa (leBytes 8 (leNat (t.readPa d k o.pa 8).1 + pkValue w)))
/-- The release at `.pkg` of every write of a launch, which comes before each of its signals (R377): what its flushes have covered
the host sees (R365). -/
def State.publishLaunch (s : State) (key : Nat) : State :=
  (List.range s.pkgs.length).foldl (fun s p =>
    ((((s.pkg p).flushed.filter fun f => f.launch == key).map (·.kpos)).eraseDups).foldl (fun s k => s.publishTo p key k) s) s
/-- LAUNCH_END: launch n of those taken, whose every core has ended its context, performs its signals, and its root queue's DONE
moves on; a child's parent learns of its end (R377, R380). -/
def execLaunchEnd (n : Nat) (s : State) : Out :=
  match s.recs[n]? with
  | none => .next s
  | some r =>
    if r.ended || !r.placed || decide (r.gone < leAt r.packet 8 1 * r.units.length) then .next s
    else
      let s1 := (List.range (leAt r.packet 19 1)).foldl (fun s i =>
        (s.signal r (pkSig r.packet i)).getD (s.queueErr r.rootPkg r.root 6 r.rootNo))
        (if leAt r.packet 19 1 = 0 then s else s.publishLaunch r.key)
      let s2 := { s1.updRec r.key (fun r => { r with ended := true }) with nets := s1.nets.filter fun b => b.launch != r.key }
      match r.parent with
      | none => .next (s2.advanceDone r.rootPkg r.root)
      | some k => .next (s2.childEnds k r.status)

/-! ### launch, waitch (R379, R380) -/

/-- The child packet read as scalar loads would (R379): its bytes, or the fault of its first line that has one. -/
def State.readPacket (s : State) (va : Nat) : List Nat → Except Bad (List Byte × State)
  | [] => .ok ([], s)
  | i :: is =>
    let a := va + 64 * i
    match addrFault (BitVec.ofNat 64 a) 64 with
    | some c => .error (.fault c 0 (BitVec.ofNat 64 a))
    | none =>
      match s.translate s.cur.die s.me s.me.ctl.level .read a with
      | .error e => .error (.xlate e)
      | .ok o =>
        let r := s.coreRead s.cur.die s.cur.core o.pa 64 s.me.fl.seq
        if r.2 then .error (.fault 0x0E 0 (BitVec.ofNat 64 a))
        else
          let s1 := (s.touchPa s.cur.die o.pa 64 .plain).updMe fun x => x.cache o.walked
          match s1.readPacket va is with
          | .error e => .error e
          | .ok (bs, t) => .ok (r.1 ++ bs, t)
/-- What `launch` answers for a packet (R379): its status. A template that fails (reason 0x07) is not among the refusals: the child
then leaves the pool without running. -/
def State.launchStatus (s : State) (k : List Byte) : Nat :=
  let x := s.me
  let p := x.ctx.rootPkg
  let bad := packetReserved k || spreadBad k 1 || (match s.packetOpens p x.ctx.rootQueue x.ctx.tenant k with
    | .error e => e != 7
    | .ok _ => false)
  let q := s.klq s.cur.die s.cur.core
  if bad then 4
  else if fieldOf q 20 16 = 16 then 3
  else if fieldOf q 15 0 = 0 then 2
  else if 2048 ≤ s.myDie.pool.length then 1
  else 0
/-- An accepted child enters the pool (R379): REM falls. -/
def State.acceptChild (s : State) (k : List Byte) : State :=
  let x := s.me
  let num := x.nextNum .tll
  let q := s.klq s.cur.die s.cur.core
  let entry : PoolEntry := ⟨k, x.launchKey, x.place, num, x.ctx.rootPkg, x.ctx.rootQueue, fieldOf q 20 16 + 1, s.myDie.rankOf s.cur.die, s.steps, none⟩
  let s1 := (s.updMyDie fun y => { y with pool := y.pool ++ [entry] }).updMe fun x =>
    { x.takeNum .tll with klq := BitVec.ofNat 64 (fieldOf x.klq 20 16 * 65536 + (fieldOf x.klq 15 0 - 1)) }
  { s1.updRec x.launchKey (fun r => { r with rem := r.rem - 1 }) with kids := s1.kids ++ [⟨x.launchKey, x.place, num, none⟩] }
/-- `launch` (R379): an accepted one waits until what it releases to the child is visible (R359), and takes no number 2^56
(R203). -/
def execLaunch (d a : Nat) (s : State) : Out :=
  if s.cReady [d, a] then
    if s.me.poisoned a then s.poisonFault a
    else
      match s.readPacket (s.me.val a).toNat (List.range 5) with
      | .error b => s.raiseBad b
      | .ok (k, t) =>
        let st := t.launchStatus k
        if st = 0 then
          if 2 ^ 56 ≤ t.me.nextNum .tll then s.illegal
          else if !(s.me.loadsBack && s.storesAt .pod) then s.stall
          else .next ((t.acceptChild k).updMe fun x => x.write d (BitVec.ofNat 64 (t.me.nextNum .tll)) false).issued
        else .next (t.updMe fun x => x.write d (BitVec.ofNat 64 (st * 2 ^ 56)) false).issued
  else s.stall
/-- `waitch` (R380). Of a child that no launch of this machine has accepted (a restored area names it, log 11) the end status is
not known: a free value. -/
def execWaitch (d a : Nat) (s : State) : Out :=
  if s.cReady [d, a] then
    if s.me.poisoned a then s.poisonFault a
    else
      let n := (s.me.val a).toNat % 2 ^ 56
      if n = 0 ∨ s.me.tls.tll.last < n then .next (s.updMe fun x => x.write d (BitVec.ofNat 64 (2 ^ 56)) false).issued
      else
        match s.kids.find? fun k => k.launch == s.me.launchKey && k.kpos == s.me.place && k.num == n with
        | none =>
          if s.me.tls.tll.counter < n then s.stall
          else .next (s.updMe fun x => x.write d (BitVec.ofNat 64 ((Config.openValue 6 s.steps).toNat % 256 * 2 ^ 56 + n)) false).issued
        | some k =>
          match k.status with
          | none => s.stall
          | some st => .next (s.updMe fun x => x.write d (BitVec.ofNat 64 (st * 2 ^ 56 + n)) false).issued
  else s.stall

end Sys2Proof.Machine
end

