-- ==== Sys2Proof/Machine/Save.lean ====
section
/-!
DEFINITION. Sys2Proof/Machine/Save.lean: the context save format (R274 to R279) as a save writes it, and what a save leaves on
the die (R268, R280, R394; log 11).
-/
namespace Sys2Proof.Machine
open Sys2Proof

/-! ### Layout (R274, R275) -/

def saveMagic : Nat := 0x58544358
def saveSize : Nat := 387328
def zeroBytes (n : Nat) : List Byte := List.replicate n 0
/-- Bytes filled with zeros up to n. -/
def padTo (n : Nat) (bs : List Byte) : List Byte := (bs ++ zeroBytes (n - bs.length)).take n
/-- A mask of 64 flags as 8 bytes. -/
def maskBytes (l : List Nat) : List Byte := leBytes 8 (maskOf l)
/-- The physical basin address of byte `off` of a save area. -/
def areaAt (page off : Nat) : Nat := 65536 * page + off
def areaBad (page : Nat) : Bool := decide (page < 16 ∨ 4096 < page + 6)

/-- The registers the K image holds: those saved with the context. -/
def KName.saved : KName → Bool
  | .kmode | .kvstat | .kcstat | .kmstat | .knoise | .knlogb | .knlogp => true
  | .klc _ | .kls _ | .kle _ | .klstate => true
  | .kgot | .kpos | .kbasin | .kbcache | .ksemb | .kdtab => true
  | .krtab | .kptroot | .ks2rtab | .ks2root | .kdirty | .ktoff | .kpmap => true
  | .kdbgc | .kstopc | .kbrk0 | .kbrk1 | .kcmsel | .klrec | .klq | .kamask => true
  | _ => false
/-- Loop state of the context, not of a handler that holds it (R123). -/
def Core.ctxLoops (x : Core) : LoopState := x.ctl.hold.elim x.loops fun h => (x.bank h.level).shadow
/-- The K image. -/
def State.kImage (s : State) (d c : Nat) : List Byte :=
  let x := s.core d c
  let y := { x with loops := x.ctxLoops }
  (List.range 256).flatMap fun n =>
    leBytes 8 (match kName n with
      | none => 0
      | some .klq => (s.klq d c).toNat
      | some .kamask => (s.kamask d).toNat
      | some k => if k.saved then (y.kword k).toNat else 0)

/-! ### The line decision (R263, R274) -/

def Decision.word : Decision → Nat
  | .undecided => 0
  | .notTaken => 1
  | .taken t => 3 + t % 2 ^ 56 / 32 * 32
  | .loop _ _ _ _ _ => 1
  | .kept k t _ => 1 + 2 * boolBit k + t % 2 ^ 56 / 32 * 32
def Decision.count : Decision → Nat
  | .loop _ _ _ n _ => n
  | .kept _ _ n => n
  | _ => 0
/-- The decision that still counts for the line KEPC names. -/
def TrapBank.liveDec (b : TrapBank) : Decision := if fieldOf b.kepc 55 5 * 32 = b.line then b.dec else .undecided
/-- A bank's 256 bytes. -/
def TrapBank.image (b : TrapBank) (dec : Decision) : List Byte :=
  let w := fun (v : W64) => leBytes 8 v.toNat
  padTo 256 (w b.kcause ++ w b.kepc ++ w b.ktval ++ w b.kmpc ++ w b.kxsyn ++ leBytes 8 (4 * boolBit b.skip + b.pp) ++ w b.ktvec ++
    w b.kscr0 ++ w b.kscr1 ++ zeroBytes 56 ++ ((List.range 3).flatMap fun k => w (b.shadow.klc k)) ++
    ((List.range 3).flatMap fun k => w (b.shadow.kls k)) ++ ((List.range 3).flatMap fun k => w (b.shadow.kle k)) ++
    w b.shadow.klstate ++ leBytes 8 dec.word ++ leBytes 8 dec.count)

/-! ### Where the context's fetch stands (R275) -/

/-- The line at an address as memory gives it to the context; `none` where it cannot be fetched. -/
def State.peekLine (s : State) (d : Nat) (x : Core) (addr : Nat) : Option (List Nat) :=
  match s.translate d x x.ctxLevel .fetch addr with
  | .error _ => none
  | .ok o =>
    let r := s.readPa d (s.keyOf d x.ctx.tenant) o.pa 32
    if r.2 then none else some ((List.range 8).map fun i => leNat ((r.1.drop (4 * i)).take 4))
/-- The words of a line the context has to go on with: those the core still has, else as memory gives them. -/
def State.lineWords (s : State) (d : Nat) (x : Core) (addr : Nat) : Option (List Nat) :=
  match x.ctl.hold.elim x.ctl.line (·.line) with
  | some l => if l.addr = addr then some l.words else s.peekLine d x addr
  | none => s.peekLine d x addr
/-- A line as one to fetch again, from its next lane. -/
def LineBuf.again (l : LineBuf) : Refetch := ⟨l.addr, l.lane, l.rep, l.dec, some l.rank⟩
/-- The line the context stands in and the lane it has come to, with the line's decision: of a hold taken for a C lane, KEPC's, and
the next lane where SKIP or a `trap` says so (R263). -/
def Core.resumeFrom (x : Core) : Option Refetch :=
  match x.ctl.hold with
  | none => (x.ctl.line.map LineBuf.again).or x.ctl.refetch
  | some h =>
    let b := x.bank h.level
    if b.clane then
      let past := b.skip || b.kcause.toNat / 256 == 0x14
      some ⟨fieldOf b.kepc 55 5 * 32, fieldOf b.kepc 4 2 + boolBit past, if past then 0 else fieldOf b.kmpc 31 24, b.liveDec, none⟩
    else (h.line.map LineBuf.again).or h.refetch
/-- The first C lane of the context not issued, if one is left in that line (R275). -/
def State.resumePoint (s : State) (d c : Nat) : Option Refetch :=
  let x := s.core d c
  x.resumeFrom.bind fun r =>
    match s.lineWords d x r.line with
    | none => some r
    | some ws => (cGroups ws r.lane).head?.map fun g => { r with lane := g.lane, rep := if g.lane = r.lane then r.rep else 0 }
/-- CRES. -/
def Refetch.word (r : Refetch) : Nat := r.line + 4 * r.lane
/-- NEXTL: where the line decided so far leads, or the next line. -/
def State.saveNext (s : State) (d c : Nat) : Nat :=
  let x := s.core d c
  match s.resumePoint d c with
  | some r => (nextOf x.ctxLoops r.line (settleDec ((s.lineWords d x r.line).getD []) r.dec)).2
  | none => x.ctl.hold.elim x.ctl.nextLine (·.nextLine)
/-- The context goes past a line all of whose C lanes have issued (R122): its own loop state moves, also under a handler. -/
def Core.pastLine (x : Core) (r : Refetch) (ws : List Nat) : Core :=
  let l : LineBuf := ⟨r.line, ws, 8, 0, settleDec ws r.dec, 0, r.rank.getD 0, none⟩
  match x.ctl.hold with
  | none => (x.setCtl fun t => { t with refetch := none }).resolve l
  | some h =>
    let z := { x with loops := x.ctxLoops }.resolve l
    (x.setBank h.level fun b => { b with shadow := z.loops, clane := false }).setCtl fun t =>
      { t with hold := some { h with line := none, refetch := none, nextLine := z.ctl.nextLine } }
/-- Before a save a finished line resolves, and the pending bits of registers written during the hold clear (R262). -/
def State.beforeSave (s : State) (d c : Nat) : Core :=
  let x := s.core d c
  let y := match x.ctl.hold with
    | some h => x.endPend h
    | none => x
  match x.resumeFrom with
  | none => y
  | some r => if (s.resumePoint d c).isSome then y else y.pastLine r ((s.lineWords d x r.line).getD [])

/-! ### Tiles, patterns (R278, R279) -/

def poisonBytes (l : List Bool) : List Byte :=
  (List.range 128).map fun i => BitVec.ofNat 8 (maskOf ((List.range 8).filter fun b => (l[8 * i + b]?).getD false))
/-- A tile slot. -/
def Tile.slotBytes (t : Tile) : List Byte := padTo 4480 (t.image ++ poisonBytes t.poison ++ leBytes 8 t.origin.toNat)
/-- A resolved pattern in the entry layout of R47, marked valid. -/
def Pattern.record (p : Pattern) : List Byte :=
  padTo 64 (leBytes 4 p.e0 ++ leBytes 4 p.e1 ++ leBytes 4 p.e2 ++ leBytes 4 p.e3 ++ leBytes 4 (unsigned 32 p.st1) ++
    leBytes 4 (unsigned 32 p.st2) ++ leBytes 4 (unsigned 32 p.st3) ++ [BitVec.ofNat 8 p.tag, BitVec.ofNat 8 p.lay] ++
    leBytes 2 0x8000 ++ leBytes 7 p.base)

/-! ### Queue entries (R276) -/

/-- What is left of a V group whose first r repetitions have run: its `rep` shortened and its fields stepped on. -/
def restGroup (g : Group) (r : Nat) : Group :=
  if r = 0 then g
  else
    match decode g.engine g.word g.conts with
    | .error _ => g
    | .ok i =>
      match encode (stepInstr (groupRep g) r i) with
      | some (_, w :: cs) =>
        { g with
          word := w
          conts := cs
          pres := g.pres.map fun p =>
            if preCode p = 1 then p / 2 ^ 25 * 2 ^ 25 + ((groupRep g).n - r - 1) * 2 ^ 19 + p % 2 ^ 19 else p }
      | _ => g
/-- The entry as its record gives it: a V entry from its next repetition, any other from its first. -/
def QEntry.kept (e : QEntry) : QEntry :=
  if e.grp.engine = .v then { e with grp := restGroup e.grp e.rep, rep := 0, acc := [] } else e.anew
/-- The stream tiles an instruction names. -/
def streamTiles (i : Instr) : List Nat := (tileReads i ++ tileWrites i).filter fun t => decide (firstStream ≤ t)
/-- The first stream tile a queued group takes, with its number (R197, R198). -/
def Core.entryTile (x : Core) (e : QEntry) : Option (Nat × Nat) :=
  let rep := if e.grp.engine = .v then e.rep else 0
  ((e.whole[rep]?).map streamTiles |>.getD []).findSome? fun t =>
    (x.bindingAt t e.rank).map fun b => (t, x.streamNumber b t e.rank rep e.tile0 e.whole)
def groupWords (g : Group) : List Nat := g.pres ++ [g.word] ++ g.conts
/-- The 64 bytes of a queue entry. -/
def Core.entryRecord (x : Core) (e : QEntry) : List Byte :=
  let k := e.kept
  let ws := groupWords k.grp
  padTo 28 (ws.flatMap (leBytes 4)) ++ [BitVec.ofNat 8 ws.length, BitVec.ofNat 8 e.grp.lane] ++
    [BitVec.ofNat 8 (e.pred.elim 0 fun p => 8 + p.1 % 8 + 128 * boolBit p.2), 0] ++ leBytes 8 (e.addr % 2 ^ 64) ++
    leBytes 8 e.kmode.toNat ++ leBytes 8 e.rank ++ leBytes 8 ((x.entryTile e).elim (2 ^ 64 - 1) (·.2))

/-! ### Streams and unwritten drain tiles (R277, R278) -/

/-- Tiles of a stream assigned so far: to groups that have issued and to queued ones (R197). -/
def Core.assigned (x : Core) (b : Binding) (t : Nat) : Nat := x.firstNumber b t (x.ctl.rank + 8)
/-- The tiles released, less those of a group that has to start again from its first repetition. -/
def Core.keptReleased (x : Core) (b : Binding) (t : Nat) : Nat :=
  ((x.q.m ++ x.q.y ++ x.q.f).filterMap fun e =>
    if e.rep = 0 then none else (x.entryTile e).bind fun p => if p.1 = t then some p.2 else none).foldl min b.released
def Core.streamRecord (x : Core) (t : Nat) : List Byte :=
  match (x.strm[t - firstStream]?).getD none with
  | none => zeroBytes 128
  | some b =>
    padTo 64 ([if b.kind = .spout then 1 else 2, BitVec.ofNat 8 b.hint.code] ++ zeroBytes 6 ++ leBytes 8 (x.assigned b t) ++
      leBytes 8 (x.keptReleased b t) ++ leBytes 8 b.written ++ leBytes 8 b.num) ++ b.pat.record
/-- A dumped or unwritten result as a V record. -/
def VRec.record (v : VRec) : List Byte :=
  [BitVec.ofNat 8 (4 * v.dst), 1, BitVec.ofNat 8 v.kvstat] ++ zeroBytes 13 ++ padTo 16 (v.rows.map (BitVec.ofNat 8)) ++
    zeroBytes 32 ++ v.tile.slotBytes
/-- The tiles of a drain that could not be written yet (log 27). -/
def Binding.unwritten (b : Binding) (t : Nat) : List VRec :=
  if b.kind = .spout then [] else b.ring.map fun r => ⟨t, some (b.num, r.num), r.tile, 0, List.replicate 16 1⟩
/-- Dumped results, and unwritten drain tiles: no more than eight, since a ninth waits (R274; log 27). -/
def Core.vRecords (x : Core) : List VRec :=
  x.fl.vdumped ++ (x.ended.flatMap fun e => e.2.unwritten e.1) ++
    (x.strm.mapIdx fun i b => b.elim [] fun b => b.unwritten (firstStream + i)).flatten
def SRes.record (r : SRes) : List Byte :=
  [BitVec.ofNat 8 r.reg, BitVec.ofNat 8 (boolBit r.poison + 2)] ++ leBytes 2 r.cycles ++ zeroBytes 4 ++ leBytes 8 r.val.toNat

/-! ### Commands (R193, R279) -/

def Cmd.arg (k : Cmd) : CmdArg := (k.args[k.rep]?).getD (plainArg .nop [])
def Cmd.stateCode (k : Cmd) : Nat :=
  match k.st with
  | .parked => 2
  | .withdrawn => 3
  | .yielded => if k.tl = .tly then 4 else 1
  | _ => 1
def wordsOf (l : List W64) : List Byte := l.flatMap fun v => leBytes 8 v.toNat
/-- The bytes of a Y record's patterns; where a command has none, its scalars stand there (log 27). -/
def CmdArg.yPatterns (a : CmdArg) : List Byte :=
  padTo 192 (if a.pats.isEmpty then wordsOf a.scal else a.pats.flatMap Pattern.record)
/-- The mode a command latched: of a `cpm`, that of its follow-on, the one its work depends on (R97, R185). -/
def Cmd.latched (k : Cmd) : W64 := if k.follow.isSome then k.fmode else k.kmode
/-- A Y record (R193) with the captured follow-on tile, the state and the last park status. -/
def Cmd.yRecord (k : Cmd) : List Byte :=
  let a := k.arg
  let f := k.follow.bind fun _ => k.args[1]?
  let fill := match f with
    | some b => (b.scal.headD 0).toNat
    | none => if a.pats.isEmpty then 0 else (a.scal.headD 0).toNat
  padTo 4544 (leBytes 4 k.word ++ leBytes 4 (k.follow.elim 0 (·.1)) ++ [BitVec.ofNat 8 k.token, BitVec.ofNat 8 (k.follow.elim 0 (·.2.1))] ++
    zeroBytes 6 ++ leBytes 8 k.num ++ leBytes 4 (mpcOf k.rep k.mpc) ++ zeroBytes 4 ++ leBytes 8 (k.follow.elim 0 (·.2.2)) ++
    leBytes 8 k.latched.toNat ++ leBytes 8 fill ++ zeroBytes 8 ++ a.yPatterns ++ (f.bind (·.tile)).elim [] Tile.image) ++
    [BitVec.ofNat 8 k.stateCode, BitVec.ofNat 8 k.status] ++ zeroBytes 62
/-- The virtual peer that leads to die `dd`, the lowest of them. -/
def State.virtualPeer (s : State) (d : Nat) (x : Core) (dd : Nat) : Nat :=
  ((List.range 4096).find? fun p => match s.peer d x p with
    | .ok q => s.dieOfPeer q == dd
    | .error _ => false).getD 0
/-- The task record of a task command (R281), with the patience left. -/
def State.taskBytes (s : State) (d : Nat) (x : Core) (k : Cmd) (a : CmdArg) : List Byte :=
  padTo 64 (leBytes 8 (a.word 0) ++ leBytes 8 (a.word 1) ++ leBytes 8 (a.word 2) ++ leBytes 4 (a.word 3) ++
    [BitVec.ofNat 8 (a.word 4), BitVec.ofNat 8 (a.word 5)] ++ leBytes 2 0x8000 ++ leBytes 2 ((k.extra[1]?).getD (a.word 6)) ++
    [BitVec.ofNat 8 (a.word 7), 0] ++ leBytes 2 (if a.forwards then s.virtualPeer d x (a.word 8) else 0))
/-- Bytes 128 to 191: the resolved record of an M, F or rill command, or its task record. -/
def State.resolvedBytes (s : State) (d : Nat) (x : Core) (k : Cmd) (a : CmdArg) : List Byte :=
  if a.isTask then s.taskBytes d x k a
  else
    match a.instr, a.pats with
    | .mmar .., p :: _ => Pattern.record { p with base := a.word 0, st3 := (a.word 1 : Nat) }
    | _, p :: _ => p.record
    | _, [] => zeroBytes 64
/-- The scalars of a command in field order (R279); of a follow-on still to be checked, its handle. -/
def CmdArg.fieldScalars (a : CmdArg) : List W64 :=
  match a.instr with
  | .nop => a.scal
  | _ => a.raw
/-- Bytes 192 to 255: of an `rmc` its recorded replicas (R342); no other chapter gives any state (R279; log 11). -/
def Cmd.extraBytes (k : Cmd) (a : CmdArg) : List Byte :=
  match a.instr with
  | .rmc .. => leBytes 64 (k.extra.headD 0)
  | _ => zeroBytes 64
/-- The tile an M record carries. -/
def Cmd.recordTile (k : Cmd) (a : CmdArg) : Option Tile := if k.tl = .tlm then a.tile else none
/-- The 256 bytes of an M, F or rill record. -/
def State.cmdRecord (s : State) (d : Nat) (x : Core) (k : Cmd) : List Byte :=
  let a := k.arg
  leBytes 4 k.word ++ zeroBytes 4 ++
    [BitVec.ofNat 8 k.token, BitVec.ofNat 8 k.stateCode, BitVec.ofNat 8 (boolBit (k.recordTile a).isSome)] ++ zeroBytes 5 ++
    leBytes 8 k.num ++ leBytes 4 (mpcOf k.rep k.mpc) ++ leBytes 4 k.status ++ zeroBytes 8 ++ leBytes 8 k.kmode.toNat ++
    padTo 64 (wordsOf a.fieldScalars) ++
    padTo 16 (match k.wb.getLast? with
      | some (_, v, p) => leBytes 8 v.toNat ++ [BitVec.ofNat 8 (boolBit p), 1]
      | none => []) ++
    s.resolvedBytes d x k a ++ k.extraBytes a
/-- An M record: with its captured tile. -/
def State.mRecord (s : State) (d : Nat) (x : Core) (k : Cmd) : List Byte :=
  padTo 4608 (s.cmdRecord d x k ++ ((k.recordTile k.arg).elim [] Tile.image))
/-- The commands of a timeline. -/
def Core.cmdsOf (x : Core) (tl : TimelineId) : List Cmd := x.fl.cmds.filter fun k => k.tl == tl

/-! ### The save -/

/-- The level a hold was taken at, as PRIV gives it. -/
def Core.privByte (x : Core) : Nat := x.ctxLevel + (x.ctl.hold.elim 0 fun h => if h.level = 1 then 4 else 8)
/-- The header. -/
def State.headerBytes (s : State) (d c reason : Nat) : List Byte :=
  let x := s.core d c
  let n8 := fun (n : Nat) => BitVec.ofNat 8 n
  padTo 256 (leBytes 4 saveMagic ++ leBytes 2 1 ++ leBytes 2 256 ++ leBytes 4 saveSize ++ [n8 x.k.kslot.toNat, n8 reason] ++
    leBytes 2 x.ctx.tenant ++ leBytes 8 (s.saveNext d c % 2 ^ 64) ++ leBytes 8 ((s.resumePoint d c).elim 0 Refetch.word % 2 ^ 64) ++
    leBytes 8 x.k.kscyc.toNat ++
    [n8 x.privByte, n8 x.vRecords.length, n8 (x.cmdsOf .tly).length, n8 (x.cmdsOf .tlm).length, n8 (x.cmdsOf .tlf).length,
     n8 (x.cmdsOf .tln).length, n8 x.fl.dumped.length, 0, n8 x.q.v.length, n8 x.q.m.length, n8 x.q.y.length, n8 x.q.f.length,
     n8 x.ctx.tiles, n8 x.ctx.depth, n8 (boolBit x.ctx.inline), 0] ++ leBytes 8 x.k.klrec.toNat)
/-- The 8448 bytes of the codebook area; zeros where the context has no allotment. -/
def State.bookArea (s : State) (d : Nat) (x : Core) : List Byte :=
  if x.basinBytes = 0 then zeroBytes 8448 else (s.die d).basin.read 0 (x.basinAddr (x.areaOff 0)) 8448
/-- Records packed from the first slot of a section. -/
def packed (off size : Nat) (l : List (List Byte)) : List (Nat × List Byte) := l.mapIdx fun i b => (off + size * i, b)
/-- What a save writes, by offset. -/
def State.saveBytes (s : State) (d c reason : Nat) : List (Nat × List Byte) :=
  let x := s.core d c
  let dec := ((s.resumePoint d c).map (·.dec)).getD .undecided
  let held := x.ctl.hold.elim 1 (·.level)
  let bank := fun (l : Nat) => (x.bank l).image (if l = held then dec else (x.bank l).liveDec)
  [(0, s.headerBytes d c reason),
   (0x100, padTo 576 (wordsOf ((List.range 64).map fun r => (x.reg r).val) ++ maskBytes x.pendList ++
     maskBytes ((List.range 64).filter x.poisoned))),
   (0x340, padTo 192 ([TimelineId.tly, .tlm, .tlf, .tln, .tll].flatMap fun t =>
     leBytes 8 (x.tls.get t).counter ++ leBytes 8 (x.tls.get t).last)),
   (0x400, s.kImage d c), (0xC00, bank 1 ++ bank 2)] ++
  packed 0xE00 16 (x.fl.dumped.map SRes.record) ++
  packed 0x1200 64 (x.q.v.map x.entryRecord) ++ packed 0x1600 64 (x.q.m.map x.entryRecord) ++
  packed 0x1A00 64 (x.q.y.map x.entryRecord) ++ packed 0x1E00 64 (x.q.f.map x.entryRecord) ++
  packed 0x2200 128 ((List.range 16).map fun i => x.streamRecord (firstStream + i)) ++
  [(0x2A00, zeroBytes 0x600)] ++ packed 0x3000 4544 (x.vRecords.map VRec.record) ++ [(0xBE00, zeroBytes 0x200)] ++
  packed 0xC000 4480 ((List.range 64).map fun t => (x.savedTile t).slotBytes) ++
  packed 0x52000 4608 ((x.cmdsOf .tly).map Cmd.yRecord) ++ packed 0x56800 4608 ((x.cmdsOf .tlm).map (s.mRecord d x)) ++
  packed 0x5B000 256 ((x.cmdsOf .tlf).map (s.cmdRecord d x)) ++ packed 0x5C000 256 ((x.cmdsOf .tln).map (s.cmdRecord d x)) ++
  [(0x5C800, s.bookArea d x)]
/-- Bytes put into a save area. -/
def Die.putArea (y : Die) (page : Nat) (l : List (Nat × List Byte)) : Die :=
  { y with basin := l.foldl (fun m p => m.write 0 (areaAt page p.1) p.2) y.basin }
def Die.areaBytes (y : Die) (page off n : Nat) : List Byte := y.basin.read 0 (areaAt page off) n

/-- Whether the work of R270 has ended, so that a save can be taken: commands at work are done, but for `pbar`s that wait,
responses have come back, and every drain tile that can be written is. The handler's own reads have returned. -/
def Cmd.settled (k : Cmd) : Bool :=
  match k.st, k.arg.instr with
  | .running, .pbar _ => true
  | .running, _ => false
  | .finished _, _ => false
  | .failed _, _ => false
  | _, _ => true
def Core.drainsDone (x : Core) : Bool :=
  x.bindings.all fun b => b.kind == .spout || b.ring.isEmpty || b.failed.isSome || !x.basinFree b.rank (b.pat.print true)
def State.quiesced (s : State) (d c : Nat) : Bool :=
  let x := s.core d c
  x.fl.cmds.all Cmd.settled && x.drainsDone && x.fl.results.isEmpty && x.fl.loads.isEmpty && x.fl.amos.isEmpty &&
    !(s.flits.any fun f => f.req.die == d && f.req.core == c) && !s.asks d c
/-- What a saved context keeps on its die (R172, R280). -/
def Core.heldEntry (x : Core) : Held :=
  ⟨x.k.kslot.toNat, x.ctx.tenant, x.ctx.part, x.k.klrec.toNat, fieldOf x.k.kbasin 11 0, x.x, x.xl⟩
/-- What the area has no place for (log 11). Nothing is released to a command of a saved context: its stores are performed. -/
def Core.savedEntry (x : Core) : Saved :=
  ⟨x.launchKey, x.place, x.fl.cmds.map fun k => { k with rel := [] }, x.q.all, x.ctl.hold.elim x.ctl.line (·.line),
   x.ended.map fun e => (e.1, { e.2 with rel := [] }), x.ctl.brkDone⟩
/-- The context of core c saved with a REASON; a migration save frees what it holds on the die, any other keeps it (R394). -/
def State.saveContext (s : State) (d c reason : Nat) (migrate : Bool) : State :=
  let s0 := (s.drainStores d c).releaseParked d c
  let s1 := s0.updCore d c fun _ => s0.beforeSave d c
  let x := s1.core d c
  let page := fieldOf x.x.ksave 11 0
  let s2 := s1.updDie d fun y =>
    let z := y.putArea page (s1.saveBytes d c reason)
    if migrate then z.freeSlot x.k.kslot.toNat x.ctx.tenant
    else { z with held := x.heldEntry :: z.held }
  { s2 with saves := x.savedEntry :: s2.saves.filter fun v => !(v.launch == x.launchKey && v.kpos == x.place) }
/-- A handler whose held context has been saved goes on: nothing of the context is left but the registers it shares, none of them
pending (R262, R268). -/
def Core.leaveContext (x : Core) : Core :=
  let pend := x.ctl.hold.elim [] (·.pend)
  let y := pend.foldl Core.release x
  { y with
    k := { y.k with kslot := 255 }
    q := ⟨[], [], [], []⟩
    fl := { y.fl with cmds := [], dumped := [], vdumped := [], vres := [], acqs := [], pbars := [] }
    tls := ⟨.zero, .zero, .zero, .zero, .zero⟩
    strm := List.replicate 16 none
    ended := []
    unbound := []
    ctl := { y.ctl with hold := none, frozen := false, faults := [], refetch := none } }
end Sys2Proof.Machine
end

