-- ==== Sys2Proof/Machine/Restore.lean ====
section
/-!
DEFINITION. Sys2Proof/Machine/Restore.lean: a saved context read back (R268, R276 to R280; log 11): the checks, the records, the
slot and pages it takes, and the state in which the `eret` that follows resumes it.
-/
namespace Sys2Proof.Machine
open Sys2Proof

/-! ### Records read back -/

/-- A pattern record that is marked valid. -/
def patternOf (books : List Codebook) (bs : List Byte) : Option Pattern :=
  if (leAt bs 30 2).testBit 15 then
    let tag := leAt bs 28 1
    some ⟨leAt bs 0 4, leAt bs 4 4, leAt bs 8 4, leAt bs 12 4, sextField 32 (leAt bs 16 4), sextField 32 (leAt bs 20 4),
      sextField 32 (leAt bs 24 4), tag, leAt bs 29 1 % 4, leAt bs 32 7,
      ((cbTable tag).map fun t => ((books[t]?).map (·.affine)).getD false).getD false⟩
  else none
/-- A tile from its image (R149), without poison. -/
def tileOfImage (bs : List Byte) : Tile :=
  ⟨(List.range 1024).map fun i => BitVec.ofNat 32 (leAt bs (4 * i) 4), List.replicate 1024 false, (bs.drop 4096).take 128, leAt bs 4224 1, 0⟩
/-- A tile from its slot (R278). -/
def tileOfSlot (bs : List Byte) : Tile :=
  { tileOfImage bs with
    poison := (List.range 1024).map fun e => (leAt bs (4288 + e / 8) 1).testBit (e % 8)
    origin := BitVec.ofNat 64 (leAt bs 4416 8) }
/-- A codebook table from its 528 bytes (R304). -/
def codebookOf (bs : List Byte) : Codebook :=
  let bf := (leAt bs 0 1).testBit 1
  ⟨(leAt bs 0 1).testBit 0, bf, (List.range 256).map fun c => if bf then leAt bs (16 + 2 * c) 2 else leAt bs (16 + c) 1⟩
def booksOf (bs : List Byte) : List Codebook := (List.range 16).map fun t => codebookOf ((bs.drop (528 * t)).take 528)
/-- n words of 8 bytes from an offset. -/
def wordsAt (bs : List Byte) (off n : Nat) : List W64 := (List.range n).map fun i => BitVec.ofNat 64 (leAt bs (off + 8 * i) 8)

def stateOf (code : Nat) : CmdSt := if code = 2 then .parked else if code = 3 then .withdrawn else if code = 4 then .yielded else .waiting
/-- The first of several readings of a word that decodes. -/
def firstReading (l : List (Engine × Nat × List Nat)) : Instr :=
  (l.findSome? fun p => match decode p.1 p.2.1 p.2.2 with
    | .ok i => some i
    | .error _ => none).getD .nop
/-- The group of a queue entry: its words do not say which of them are prefixes, so the fewest that make it a legal group with
the predicate it has (log 11). -/
def groupOf (e : Engine) (lane : Nat) (ws : List Nat) (staged : Bool) : Group :=
  let g := fun (p : Nat) => (⟨lane, e, (ws[p]?).getD 0, ws.take p, ws.drop (p + 1)⟩ : Group)
  let fits := fun (p : Nat) => presLegal (g p).pres && ((g p).pres.any fun w => preCode w == 2) == staged &&
    (match decode e (g p).word (g p).conts with
     | .ok _ => true
     | .error _ => false)
  g (((List.range 3).find? fits).getD (boolBit staged))
/-- A queue entry (R276); a group of the same words and rank that the die still keeps says how they divide. -/
def entryOf (e : Engine) (old : List QEntry) (bound : Nat → Bool) (bs : List Byte) : QEntry :=
  let ws := (List.range (min 7 (leAt bs 28 1))).map fun i => leAt bs (4 * i) 4
  let p := leAt bs 30 1
  let rank := leAt bs 48 8
  let grp := ((old.find? fun q => q.rank == rank && q.grp.engine == e && groupWords q.kept.grp == ws).map fun q => q.kept.grp).getD
    (groupOf e (leAt bs 29 1 % 8) ws (p.testBit 3))
  let tile := match decode e grp.word grp.conts with
    | .ok i => (streamTiles i).find? bound
    | .error _ => none
  ⟨rank, leAt bs 32 8, grp, if p.testBit 3 then some (p % 8, p.testBit 7) else none, BitVec.ofNat 64 (leAt bs 40 8),
   if leAt bs 56 8 = 2 ^ 64 - 1 then none else tile.map fun t => (t, leAt bs 56 8), 0, []⟩

/-- A command as a record gives it: one repetition, at the one its micro-PC names; its line and lane are not in the record, and
are free (log 11). -/
def State.bareCmd (s : State) (e : Engine) (tl : TimelineId) (rank num token word mpc : Nat) (kmode : W64) (st : CmdSt) (status : Nat)
    (a : CmdArg) : Cmd :=
  ⟨e, tl, num, token, (Config.openValue 2 (s.steps * 64 + rank)).toNat % 2 ^ 56 / 32 * 32,
   (Config.openValue 3 (s.steps * 64 + rank)).toNat % 7 + 1, rank, word, kmode, List.replicate (mpc / 2 ^ 24 + 1) a, mpc / 2 ^ 24, mpc % 2 ^ 24,
   st, status, 0, 0, [], [], [], none, kmode, [], (s.die s.cur.die).seqr.cyc⟩
/-- A Y record (R193, R279). -/
def State.yCmdOf (s : State) (books : List Codebook) (rank : Nat) (bs : List Byte) : Cmd :=
  let w := leAt bs 0 4
  let f := leAt bs 4 4
  let i := firstReading ([(.y, w, if f = 0 then [] else [f]), (.y, w, [0, 0, 0, 0]), (.c, w, [])])
  let pats := (List.range 3).filterMap fun n => patternOf books ((bs.drop (64 + 64 * n)).take 64)
  let arg : CmdArg := match i with
    | .flush .. => plainArg i (wordsAt bs 64 2)
    | .inv .. => plainArg i (wordsAt bs 64 2)
    | .probe .. => plainArg i (wordsAt bs 64 2)
    | .sunb .. => plainArg i (wordsAt bs 64 1)
    | .dfl .. => plainArg i (wordsAt bs 64 1)
    | .fill .. => patArg i (wordsAt bs 48 1) pats
    | _ => patArg i [] pats
  let k := s.bareCmd .y .tly rank (leAt bs 16 8) (leAt bs 8 1 % 64) w (leAt bs 24 4) (BitVec.ofNat 64 (leAt bs 40 8)) (stateOf (leAt bs 4544 1))
    (leAt bs 4545 1) arg
  if f = 0 then k
  else
    let tile := if f / 2 ^ 25 = 1 then none else some (tileOfImage ((bs.drop 256).take 4288))
    { k with args := [arg, { plainArg .nop (wordsAt bs 48 1) with tile := tile }], rep := 0, follow := some (f, leAt bs 9 1 % 64, leAt bs 32 8) }

/-- The die a virtual peer leads to now; a number no die has where it leads nowhere. -/
def State.homeOf (s : State) (d : Nat) (x : Core) (vp : Nat) : Nat :=
  match s.peer d x vp with
  | .ok p => s.dieOfPeer p
  | .error _ => s.dies.length
/-- The die of a replica. -/
def State.replicaHome (s : State) (d : Nat) (x : Core) (q : Nat × Nat × Nat) : Nat := s.homeOf d x (q.1 * 256 + q.2.1 * 16 + q.2.2)
/-- The operands of an M, F or rill record (R279) for core record x on die d. -/
def State.argOf (s : State) (d : Nat) (x : Core) (i : Instr) (bs : List Byte) : CmdArg :=
  let rec64 := (bs.drop 128).take 64
  let v := wordsAt bs 48 8
  let n := fun (j : Nat) => (v[j]?).getD 0
  let pat := patternOf x.books rec64
  let tile := if (leAt bs 10 1).testBit 0 then some (tileOfImage ((bs.drop 256).take 4288)) else none
  let later : CmdArg := { plainArg .nop [n 0] with tile := tile }
  let refused := fun (r : TaskRec) (v : TOp) => match checkTask (s.die d) x.ctx.tenant r ((tile.map (·.tag)).getD 0) v.dir with
    | .refused => 0x22
    | _ => 0
  let remote := fun (homes : List Nat) (ps : List Pattern) => remoteArg i (n 0) (n 1) (n 2) (n 3) homes ps
  let one := s.homeOf d x (n 1).toNat
  match i, pat with
  | .task v .., _ => (match taskOfBytes 0 rec64 with
    | .ok r => taskArg i r r.pat d (refused r v) tile none
    | .error _ => later)
  | .tfwd v .., _ => (match taskOfBytes 0 rec64 with
    | .ok r => taskArg i r r.pat (s.homeOf d x r.peer) (refused r v) tile none
    | .error _ => later)
  | .mmw .., some p => patArg i [] [p]
  | .mmw .., none => later
  | .mma .., some p => mmaArg x i p (tile.getD (Tile.zero 0)) none
  | .mma .., none => later
  | .mmar t .., some p =>
    { remoteArg i (BitVec.ofNat 64 p.base) (BitVec.ofInt 64 p.st3) (BitVec.ofNat 64 ((x.tiles[t]?).map (·.tag) |>.getD 0)) 0
        [s.homeOf d x p.st3.toNat] [{ p with base := 0, st3 := 0 }] with books := x.booksFor [p.tag] }
  | .acdr .., some p => patArg i [] [p]
  | .acal .., _ => plainArg i (v.take 2)
  | .acfr .., _ => plainArg i (v.take 1)
  | .aczr .., _ => plainArg i (v.take 1)
  | .splr _ _ true _, _ => plainArg i (v.take 1)
  | .splr .., some p => patArg i [BitVec.ofNat 64 p.st3.toNat] [p]
  | .spmv a .., some p => spmvArg i p ((groupTiles a p.e0).map fun t => (x.tiles[t]?).getD (Tile.zero 0)) none
  | .spjn .., some p => patArg i [BitVec.ofNat 64 p.base, BitVec.ofNat 64 p.st3.toNat] [p]
  | .spmg .., _ => plainArg i (v.take 1)
  | .spage .., _ => plainArg i (v.take 1)
  | .sprd .., _ => plainArg i (v.take 2).reverse
  | .wdpub .., _ => plainArg i (v.take 3)
  | .pbar .., _ => plainArg i []
  | .rmc .., _ => remote ((boxOf (n 1) (n 3)).map (s.replicaHome d x)) []
  | .rget .., some p => remote [one] [p]
  | .rput .., some p => remote [one] [p]
  | _, _ => remote [one] []
/-- An M, F or rill record (R279). -/
def State.cmdOf (s : State) (d : Nat) (x : Core) (e : Engine) (tl : TimelineId) (rank : Nat) (bs : List Byte) : Cmd :=
  let w := leAt bs 0 4
  let i := firstReading [(e, w, []), (e, w, [0])]
  let a := s.argOf d x i bs
  let k := s.bareCmd e tl rank (leAt bs 16 8) (leAt bs 8 1 % 64) w (leAt bs 24 4) (BitVec.ofNat 64 (leAt bs 40 8)) (stateOf (leAt bs 9 1))
    (leAt bs 28 4) { a with raw := (wordsAt bs 48 8).take (issueScalars i).length }
  { k with
    extra := match i with
      | .rmc .. => [leAt bs 192 64]
      | _ => [0, if a.isTask then a.word 6 else 0]
    wb := if (leAt bs 121 1).testBit 0 then
        (resultReg i).toList.map fun r => (r, BitVec.ofNat 64 (leAt bs 112 8), (leAt bs 120 1).testBit 0)
      else [] }

/-! ### The checks (R268, R280) -/

/-- The byte ranges of an area that must be zero, by offset and length. -/
def Die.zeroRanges (y : Die) (page : Nat) : List (Nat × Nat) :=
  let cnt := fun (o : Nat) => leNat (y.areaBytes page o 1)
  let each := fun (off size n : Nat) (l : List (Nat × Nat)) =>
    (List.range n).flatMap fun i => l.map fun p => (off + size * i + p.1, p.2)
  let entry := fun (off n : Nat) => (List.range n).flatMap fun i =>
    let w := min 7 (cnt (off + 64 * i + 28))
    [(off + 64 * i + 4 * w, 28 - 4 * w), (off + 64 * i + 31, 1)]
  [(47, 1), (55, 1), (64, 192), (0x100 + 528, 48), (0x340 + 80, 112), (0x2A00, 0x600), (0xBE00, 0x200)] ++
  ((List.range 256).filterMap fun n => if (kName n).elim false KName.saved then none else some (0x400 + 8 * n, 8)) ++
  each 0xC00 256 2 [(72, 56), (0xE0, 32)] ++ each 0xE00 16 (cnt 46) [(4, 4)] ++
  entry 0x1200 (cnt 48) ++ entry 0x1600 (cnt 49) ++ entry 0x1A00 (cnt 50) ++ entry 0x1E00 (cnt 51) ++
  each 0x2200 128 16 [(2, 6), (40, 24)] ++ each 0x3000 4544 (cnt 41) [(3, 13), (32, 32), (64 + 4424, 56)] ++
  each 0xC000 4480 64 [(4424, 56)] ++ each 0x52000 4608 (cnt 42) [(10, 6), (28, 4), (56, 8), (4546, 62)] ++
  each 0x56800 4608 (cnt 43) [(4, 4), (11, 5), (32, 8), (192, 64), (4544, 64)] ++
  each 0x5B000 256 (cnt 44) [(4, 4), (11, 5), (32, 8)] ++ each 0x5C000 256 (cnt 45) [(4, 4), (11, 5), (32, 8), (192, 64)] ++  -- of the F records, but for `rmc` (R342)
  ((List.range (cnt 44)).filterMap fun i =>
    if leNat (y.areaBytes page (0x5B000 + 256 * i + 3) 1) / 2 = 5 then none else some (0x5B000 + 256 * i + 192, 64))
/-- Magic and version. -/
def Die.areaMagic (y : Die) (page : Nat) : Bool := leNat (y.areaBytes page 0 4) == saveMagic && leNat (y.areaBytes page 4 2) == 1
/-- The sizes and record counts against their sections. -/
def Die.areaCounts (y : Die) (page : Nat) : Bool :=
  let cnt := fun (o : Nat) => leNat (y.areaBytes page o 1)
  decide (leNat (y.areaBytes page 6 2) = 256 ∧ leNat (y.areaBytes page 8 4) ≤ saveSize ∧ cnt 41 ≤ 8 ∧ cnt 42 ≤ 4 ∧ cnt 43 ≤ 4 ∧
    cnt 44 ≤ 16 ∧ cnt 45 ≤ 8 ∧ cnt 46 ≤ 64 ∧ cnt 48 ≤ 16 ∧ cnt 49 ≤ 16 ∧ cnt 50 ≤ 16 ∧ cnt 51 ≤ 16)
def Die.areaZero (y : Die) (page : Nat) : Bool := (y.zeroRanges page).all fun p => (y.areaBytes page p.1 p.2).all (· == 0)
/-- The context of an area among those that keep resources on the die. -/
def Die.heldOf (y : Die) (page : Nat) : Option Held :=
  y.held.find? fun h => h.slot == leNat (y.areaBytes page 12 1) && h.tenant == leNat (y.areaBytes page 14 2) &&
    h.lrec == leNat (y.areaBytes page 56 8)
/-- KBASIN.COUNT of an area. -/
def Die.areaCount (y : Die) (page : Nat) : Nat := fieldOf (BitVec.ofNat 64 (leNat (y.areaBytes page (0x400 + 8 * 0x32) 8))) 44 32
/-- The slot and first page a restore takes: those the context still holds, else the lowest free slot and the first fit. -/
def Die.areaPlace (y : Die) (page : Nat) : Option (Nat × Nat × Bool) :=
  match y.heldOf page with
  | some h => some (h.slot, h.page, false)
  | none => y.freeSlotNo.bind fun n => (y.fitPages (y.areaCount page)).map fun b => (n, b, true)
/-- The KCTX status of a restore by a core (R268). -/
def State.restoreStatus (s : State) (d c : Nat) : Nat :=
  let x := s.core d c
  let y := s.die d
  let page := fieldOf x.x.ksave 11 0
  if x.ctl.hold.isSome || x.holds then 1
  else if areaBad page then 5
  else if !y.areaMagic page then 2
  else if !y.areaCounts page then 3
  else if !y.areaZero page then 4
  else if (y.areaPlace page).isNone then 6
  else 0

/-! ### The restore -/

/-- The line decision a bank's image holds. -/
def decOf (bs : List Byte) : Decision :=
  let w := leAt bs 0xD0 8
  if w.testBit 0 then .kept (w.testBit 1) (w % 2 ^ 56 / 32 * 32) (leAt bs 0xD8 8) else .undecided
/-- A bank from its 256 bytes. -/
def bankOfBytes (bs : List Byte) : TrapBank :=
  let w := fun (n : Nat) => BitVec.ofNat 64 (leAt bs (8 * n) 8)
  let g := fun (n : Nat) => BitVec.ofNat 64 (leAt bs (0x80 + 8 * n) 8)
  let kepc := KName.kepc.clean (w 1)
  ⟨w 0 &&& 0xFFFF, kepc, w 2, w 3 &&& 0xFFFFFFFF, w 4, fieldOf (w 5) 1 0 % 3, bitOf (w 5) 2, KName.ktvec.clean (w 6), w 7, w 8,
   loopOf (fun k => g k) (fun k => g (3 + k)) (fun k => g (6 + k)) (g 9), decOf bs, fieldOf kepc 55 5 * 32, false, 0⟩
/-- A core record with the registers of a K image. -/
def Core.ofImage (x : Core) (bs : List Byte) : Core :=
  let v := fun (n : Nat) => BitVec.ofNat 64 (leAt bs (8 * n) 8)
  let y := kTable.foldl (fun (x : Core) p => if p.2.saved then x.setK1 p.2 (p.2.clean (v p.1)) else x) x
  { y with
    k := { y.k with kpos := v 0x31 &&& 0xFFFFFF001F, klrec := v 0x70 }
    klq := v 0x71 &&& 0x1FFFFF }
def loopsOfImage (bs : List Byte) : LoopState :=
  let v := fun (n : Nat) => BitVec.ofNat 64 (leAt bs (8 * n) 8)
  loopOf (fun k => v (0x20 + k)) (fun k => v (0x23 + k)) (fun k => v (0x26 + k)) (v 0x29)
/-- A timeline whose numbers are all complete but those still out (R204). -/
def timelineOf' (counter last : Nat) (out : List Nat) : Timeline :=
  let live := out.filter fun n => decide (counter < n ∧ n ≤ last)
  let low := live.foldl (fun m n => min m (n - 1)) last
  let from' := max counter low
  ⟨from', last, ((List.range (last - from')).map (from' + 1 + ·)).filter fun n => !live.contains n⟩
/-- The stream numbers an entry still takes of tile t, given the first. -/
def QEntry.numbers (e : QEntry) (k : StreamKind) (t n0 : Nat) : List Nat :=
  let l := e.whole.map (takes k t)
  (List.range l.length).flatMap fun r => (List.range ((l[r]?).getD 0)).map fun j => n0 + (l.take r).sum + j
/-- A binding from its record, given the groups that are queued, the commands in progress and the tiles of V records that lie
there: how many tiles the issued groups took, where governance began and ends (R196 to R198). -/
def bindingOf (books : List Codebook) (q : Queues) (cmds : List Cmd) (bs : List Byte) (t : Nat) : Option Binding :=
  match leAt bs 0 1, patternOf books (bs.drop 64) with
  | 0, _ => none
  | _, none => none
  | kind, some p =>
    let k : StreamKind := if kind = 2 then .drain else .spout
    let l := (q.v ++ q.m).filter fun e => e.whole.any fun i => (streamTiles i).contains t
    let taking := l.filter fun e => e.tile0.isSome
    let ends := cmds.any fun c => c.ends.contains t && (match c.arg.instr with
      | .sunb .. => true
      | _ => false)
    let low := taking.foldl (fun (m : Option Nat) e => some (m.elim e.rank (min e.rank))) none
    let plain := l.filter fun e => e.tile0.isNone && (match low with
      | some r => decide (e.rank < r)
      | none => !ends)
    let rank := plain.foldl (fun m e => max m e.rank) 0
    let total := leAt bs 8 8
    let base := total - (taking.map fun e => (e.whole.map (takes k t)).sum).sum
    let b0 : Binding := ⟨k, (Sys2Proof.hintOf (leAt bs 1 1)).getD .plain, p, leAt bs 32 8, rank, base, [], leAt bs 16 8, [], leAt bs 24 8, [], none,
      if ends then some (taking.foldl (fun m e => max m e.rank) rank + 1) else none, []⟩
    let core : Core := { Core.reset with q := q }
    let queued := taking.flatMap fun e =>
      e.numbers k t ((e.tile0.bind fun u => if u.1 = t then some u.2 else none).getD (core.firstNumber b0 t e.rank))
    let gone := ((List.range (min total (b0.released + 4096) - b0.released)).map (b0.released + ·)).filter fun n => !queued.contains n
    some (match k with
      | .spout => { b0 with released := (releaseTo (gone.length + 1) b0.released gone).1
                            gone := (releaseTo (gone.length + 1) b0.released gone).2 }
      | .drain => b0)
/-- The numbers of a drain's tiles that no queued group and no command will write, and that are not in memory: those of its V
records, in order. -/
def Core.looseNumbers (x : Core) (b : Binding) (t : Nat) : List Nat :=
  let queued := (x.q.v ++ x.q.m).flatMap fun e =>
    if e.tile0.isNone then [] else e.numbers .drain t ((e.tile0.bind fun u => if u.1 = t then some u.2 else none).getD (x.firstNumber b t e.rank))
  let claimed := x.fl.cmds.flatMap fun k => k.args.filterMap fun a => a.strm.bind fun p => if p.1 = t then some p.2 else none
  ((List.range (min (x.assigned b t) (b.written + 4096) - b.written)).map (b.written + ·)).filter fun n =>
    !queued.contains n && !claimed.contains n
/-- V records, those of a drain numbered. -/
def Core.numberV (x : Core) : List VRec → List VRec
  | [] => []
  | v :: vs =>
    let rest := x.numberV vs
    match if v.dst < firstStream then none else (x.strm[v.dst - firstStream]?).getD none with
    | none => v :: rest
    | some b =>
      let later := (vs.filter fun u => u.dst == v.dst).length
      let free := x.looseNumbers b v.dst
      if b.kind = .drain then { v with num := some (b.num, (free[free.length - 1 - later]?).getD 0) } :: rest else v :: rest
/-- The tile of a drain that a command will write: the first number of it that nothing else has (R198; log 11). -/
def Core.claimLoose (x : Core) (k : Cmd) : Core :=
  let dst : Option Nat := match k.arg.instr with
    | .acdr t .. => some t
    | .spjn t .. => some t
    | _ => none
  match dst.bind fun t => if t < firstStream || k.arg.strm.isSome then none else ((x.strm[t - firstStream]?).getD none).map fun b => (t, b) with
  | none => x
  | some (t, b) =>
    match b.kind, x.looseNumbers b t with
    | .drain, n :: _ => x.updCmd k.tl k.num fun k => { k with args := k.args.map fun a => { a with strm := some (t, n) } }
    | _, _ => x
def vrecOf (bs : List Byte) : VRec :=
  ⟨leAt bs 0 1 / 4, none, tileOfSlot (bs.drop 64), leAt bs 2 1 % 16, (List.range 16).map fun i => leAt bs (16 + i) 1⟩

/-- The records of a section. -/
def Die.records (y : Die) (page off size n : Nat) : List (List Byte) := (List.range n).map fun i => y.areaBytes page (off + size * i) size
/-- Commands of one section; one whose record is as the kept copy of the command gives it is that command (log 11). -/
def attach (old : List Cmd) (enc : Cmd → List Byte) (tl : TimelineId) (mk : Nat → List Byte → Cmd) (first : Nat) (l : List (List Byte)) :
    List Cmd :=
  l.mapIdx fun i bs =>
    match old.find? fun k => k.tl == tl && enc k == bs with
    | some k => { k with rel := [], st := match k.st with
        | .running => .waiting
        | st => st }
    | none => mk (first + i) bs
/-- What the last save of an area's context kept beside it (log 11): that of the launch number, position and tenant in the area,
of this package's launches first. -/
def State.savedOf (s : State) (d page : Nat) : Option Saved :=
  let y := s.die d
  let l := s.saves.filter fun v => v.launch % 2 ^ 64 == leNat (y.areaBytes page 56 8) &&
    v.kpos == leNat (y.areaBytes page (0x400 + 8 * 0x31 + 2) 6) &&
    (s.recByKey v.launch).elim false fun r => r.tenant == leNat (y.areaBytes page 14 2)
  (l.find? fun v => v.launch / 2 ^ 64 == pkgOf d).or l.head?
/-- The launch record of a saved context. -/
def State.launchOf (s : State) (d page : Nat) : Option LaunchRec :=
  let num := leNat ((s.die d).areaBytes page 56 8)
  ((s.savedOf d page).bind fun v => s.recByKey v.launch).or
    ((s.recs.find? fun r => r.num == num && r.pkg == pkgOf d).or (s.recs.find? fun r => r.num == num))
/-- What a restored context runs under (R275, R371): its partition is its launch's, also on a lent core (R395). -/
def State.ctxOf (s : State) (d page : Nat) : Ctx :=
  let h := (s.die d).areaBytes page 0 64
  let r := s.launchOf d page
  ⟨leAt h 14 2, r.elim (s.die d).part (·.part), min 64 (leAt h 52 1), leAt h 53 1 % 4, (leAt h 54 1).testBit 0,
   r.elim [] fun r => (List.range 16).map (pkWindow r.packet), r.elim (pkgOf d) (·.rootPkg), r.elim 0 (·.root), r.elim (pkgOf d) (·.pkg)⟩
/-- The architectural registers of an area put into core record x: scalars, tiles, K image, banks, tables. -/
def State.restoreRegs (s : State) (d page slot base : Nat) (x : Core) : Core :=
  let y := s.die d
  let sc := y.areaBytes page 0x100 576
  let kimg := y.areaBytes page 0x400 2048
  let x1 := Core.ofImage x kimg
  { x1 with
    regs := (List.range 64).map fun r => ⟨BitVec.ofNat 64 (leAt sc (8 * r) 8), (leAt sc 512 8).testBit r && r != 0, (leAt sc 520 8).testBit r && r != 0⟩
    tiles := (List.range 64).map fun t => tileOfSlot (y.areaBytes page (0xC000 + 4480 * t) 4480)
    k := { x1.k with kslot := BitVec.ofNat 64 slot, kbasin := BitVec.ofNat 64 (fieldOf x1.k.kbasin 44 32 * 2 ^ 32 + base)
                     kscyc := BitVec.ofNat 64 (leNat (y.areaBytes page 32 8)) }
    x := { x1.x with ksave := x.x.ksave, kctx := x.x.kctx }
    bankS := bankOfBytes (y.areaBytes page 0xC00 256)
    bankH := bankOfBytes (y.areaBytes page 0xD00 256)
    books := booksOf (y.areaBytes page 0x5C800 8448)
    ctx := s.ctxOf d page
    unbound := [] }
/-- The work of an area put into a core record that holds its registers: queues, streams, commands, dumped results, timelines. -/
def State.restoreWork (s : State) (d page : Nat) (kept : Option Saved) (x : Core) : Core :=
  let y := s.die d
  let cnt := fun (o : Nat) => leNat (y.areaBytes page o 1)
  let bound := fun (t : Nat) => decide (firstStream ≤ t) && decide (cnt (0x2200 + 128 * (t - firstStream)) ≠ 0)
  let ents := fun (e : Engine) (off n : Nat) => (y.records page off 64 n).map (entryOf e (kept.elim [] (·.entries)) bound)
  let q : Queues := ⟨ents .v 0x1200 (cnt 48), ents .m 0x1600 (cnt 49), ents .y 0x1A00 (cnt 50), ents .f 0x1E00 (cnt 51)⟩
  let old := kept.elim [] (·.cmds)
  let cmds := attach old Cmd.yRecord .tly (s.yCmdOf x.books) 1 (y.records page 0x52000 4608 (cnt 42)) ++
    attach old (s.mRecord d x) .tlm (s.cmdOf d x .m .tlm) 9 (y.records page 0x56800 4608 (cnt 43)) ++
    attach old (s.cmdRecord d x) .tlf (s.cmdOf d x .f .tlf) 17 (y.records page 0x5B000 256 (cnt 44)) ++
    attach old (s.cmdRecord d x) .tln (s.cmdOf d x .m .tln) 41 (y.records page 0x5C000 256 (cnt 45))
  let tb := y.areaBytes page 0x340 80
  let nums := fun (tl : TimelineId) => (cmds.filter fun k => k.tl == tl).map (·.num) ++ (if tl = .tlm then cmds.filterMap fun k => k.follow.map (·.2.2) else [])
  let key := x.launchKey
  let kids := (s.kids.filter fun k => k.launch == key && k.kpos == x.place && k.status.isNone).map (·.num)
  let tlOf := fun (i : Nat) (out : List Nat) => timelineOf' (leAt tb (16 * i) 8) (leAt tb (16 * i + 8) 8) out
  let ranks := (q.all.map (·.rank)).foldl max 0
  let x1 : Core := { x with
    q := q
    fl := { x.fl with
      cmds := cmds
      dumped := (y.records page 0xE00 16 (cnt 46)).map fun b =>
        ⟨leAt b 0 1 % 64, BitVec.ofNat 64 (leAt b 8 8), (leAt b 1 1).testBit 0, leAt b 2 2⟩ }
    tls := ⟨tlOf 0 (nums .tly), tlOf 1 (nums .tlm), tlOf 2 (nums .tlf), tlOf 3 (nums .tln), tlOf 4 kids⟩
    strm := (List.range 16).map fun i => bindingOf x.books q cmds (y.areaBytes page (0x2200 + 128 * i) 128) (firstStream + i)
    ended := kept.elim [] (·.ended)
    ctl := { x.ctl with rank := max x.ctl.rank ((ranks / 8 + 1) * 8) } }
  let x2 := cmds.foldl (fun x k => x.claimLoose k) x1
  { x2 with fl := { x2.fl with vdumped := x2.numberV ((y.records page 0x3000 4544 (cnt 41)).map vrecOf) } }
/-- Whether the group at a lane of a line is a C lane, as far as the line can be read. -/
def State.isCLane (s : State) (d : Nat) (x : Core) (line lane : Nat) : Bool :=
  (s.peekLine d x line).elim true fun ws => (cGroups ws 1).any fun g => g.lane == lane
/-- The delivery rank of what a bank's KEPC names (R263): of a parked command, of a queued group, or of the C lane of a line some of
whose groups are queued; else of the newest line. -/
def Core.epcRank (x : Core) (b : TrapBank) : Nat :=
  let line := fieldOf b.kepc 55 5 * 32
  let lane := fieldOf b.kepc 4 2
  let parked := x.fl.cmds.filter (·.st == .parked)
  if b.kcause.toNat / 256 = 0x20 then
    ((parked.find? fun k => k.addr == line && k.lane == lane).or (parked.find? fun k => k.status == b.kcause.toNat % 256)).elim 0 (·.rank)
  else
    match x.q.all.find? fun e => e.addr == line && e.grp.lane == lane with
    | some e => e.rank
    | none => (x.q.all.find? fun e => e.addr == line).elim (x.ctl.rank + lane) fun e => e.rank / 8 * 8 + lane
/-- The hold of a restored context at level l (R268), and its bank: the bank as saved where the context was held at this level;
else one from which the `eret` returns to where the context stood. Whether a breakpoint held the next line back the save has
kept; else REASON 2 and a breakpoint at NEXTL say so (log 40). -/
def State.restoreHold (s : State) (d page : Nat) (saved : Option Saved) (x0 : Core) : Core :=
  let y := s.die d
  let ranked := fun (b : TrapBank) => { b with rank := x0.epcRank b }
  let x := { x0 with bankS := ranked x0.bankS, bankH := ranked x0.bankH }
  let l := x.ctl.level
  let cres := leNat (y.areaBytes page 24 8)
  let nextl := leNat (y.areaBytes page 16 8)
  let priv := leNat (y.areaBytes page 40 1)
  let ran := priv % 4 % 3
  let at' := if priv.testBit 3 then 2 else 1
  let lane := cres / 4 % 8
  let point : Option (Nat × Nat) := if cres = 0 then none else if lane = 0 then some (cres / 32 * 32 - 32, 8) else some (cres / 32 * 32, lane)
  let dec := (x.bank at').dec
  let b0 := x.bank l
  let same := priv / 4 % 4 != 0 && at' == l
  let b : TrapBank :=
    if same then
      { b0 with clane := (point.elim false fun p => p.1 == fieldOf b0.kepc 55 5 * 32) && b0.kcause.toNat / 256 != 0x20 &&
                  s.isCLane d x (fieldOf b0.kepc 55 5 * 32) (fieldOf b0.kepc 4 2) }
    else
      { b0 with kcause := 0, kepc := KName.kepc.clean (BitVec.ofNat 64 (if cres = 0 then nextl + 4 else cres)), pp := ran, skip := false
                shadow := loopsOfImage (y.areaBytes page 0x400 2048), dec := .undecided, clane := false }
  let kept := saved.bind (·.line)
  let line := if b.clane then none else kept.bind fun k => (cGroups k.words k.lane).head?.bind fun g => if k.addr + 4 * g.lane = cres then some k else none
  let hold : Hold := ⟨l, ran, line, nextl, x.pendList, [],
    if b.clane || line.isSome then none else point.map fun p => ⟨p.1, p.2, 0, dec, (x.q.all.find? fun e => e.addr == p.1).map fun e => e.rank / 8 * 8⟩⟩
  let breaks := (bitOf x.x.kdbgc 1 && fieldOf x.x.kbrk0 55 5 == nextl / 32) || (bitOf x.x.kdbgc 2 && fieldOf x.x.kbrk1 55 5 == nextl / 32)
  (x.setBank l fun _ => b).setCtl fun t =>
    { t with hold := some hold, frozen := true, faults := []
             brkDone := (saved.elim (leNat (y.areaBytes page 13 1) == 2) (·.brk)) && breaks && cres == 0 }
/-- What is not in the save starts empty for a context that retakes its slot (R280): its tag entries, and the weight buffers it
loaded. -/
def Die.startEmpty (y : Die) (slot tenant : Nat) : Die :=
  let anew := fun (w : WBuf) => if w.slot == slot && w.tenant == tenant then .empty else w
  { y with tags := y.tags.filter fun t => t.owner != slot
           cascs := y.cascs.map fun c => { c with front := anew c.front, back := anew c.back } }
/-- A restore that has passed its checks (R280). -/
def State.restoreContext (s0 : State) (d c : Nat) : State :=
  let s := s0.drainStores d c
  let page := fieldOf (s.core d c).x.ksave 11 0
  match (s.die d).areaPlace page with
  | none => s
  | some (slot, base, fresh) =>
    let kept := s.savedOf d page
    let books := (s.die d).areaBytes page 0x5C800 8448
    let count := (s.die d).areaCount page
    let x1 := s.loadTables d { s.restoreRegs d page slot base (s.core d c) with xl := ⟨[], [], []⟩ }
    let x2 := s.restoreHold d page kept (s.restoreWork d page kept x1)
    (s.updDie d fun y =>
      let z := if fresh then y.allot slot base count
        else ({ y with held := y.held.filter fun h => h.slot != slot } : Die).startEmpty slot x2.ctx.tenant
      if count = 0 then z else { z with basin := z.basin.write 0 (65536 * base + (65536 * count - 8448)) books }).updCore d c fun _ => x2

/-! ### Release (R268) -/

/-- The STATUS of a release. -/
def State.releaseStatus (s : State) (d c : Nat) : Nat :=
  let page := fieldOf (s.core d c).x.ksave 11 0
  if areaBad page then 5
  else if !(s.die d).areaMagic page then 2
  else if ((s.die d).heldOf page).isNone then 7
  else 0
/-- A release that has passed its checks: the resources freed, MAGIC zeroed. The parked rows of a saved context were released at
its save (R295). -/
def State.releaseContext (s : State) (d c : Nat) : State :=
  let page := fieldOf (s.core d c).x.ksave 11 0
  match (s.die d).heldOf page with
  | none => s
  | some h => s.updDie d fun y =>
      ({ y with held := y.held.filter fun g => g.slot != h.slot }.freeSlot h.slot h.tenant).putArea page [(0, zeroBytes 4)]

end Sys2Proof.Machine
end

