-- ==== Sys2Proof/Machine/System.lean ====
section
/-!
DEFINITION. Sys2Proof/Machine/System.lean: `mfk` and `mtk` over the K registers (R265 to R268, R399, R420), `trap` (R264), the
operations a register write performs (KCTX, KXINV, KAMASK, KBOARD, KPREEMPT, KLEND: R268, R251, R374, R390 to R395), and the
pre-emptions and debug stops they and others ask for (R272, R394, R400 to R402).
-/
namespace Sys2Proof.Machine
open Sys2Proof

/-! ### KCTX (R268) -/

/-- KCTX.STATUS after an operation. -/
def State.setKctx (s : State) (d c status : Nat) : State :=
  s.updCore d c fun x => { x with x := { x.x with kctx := BitVec.ofNat 64 (status * 2 ^ 56) } }
/-- Whether the handler's own work that is in flight is done, so that the register file may change under it. -/
def State.filesStill (s : State) (d c : Nat) : Bool :=
  let x := s.core d c
  x.fl.results.isEmpty && x.fl.loads.isEmpty && x.fl.amos.isEmpty && !s.asks d c
/-- OP 001: the held context is saved, and the hold ends. -/
def State.kctxSave (s : State) (d c : Nat) : WriteOut :=
  let x := s.core d c
  if x.ctl.hold.isNone || !x.holds then .done (s.setKctx d c 1)
  else if areaBad (fieldOf x.x.ksave 11 0) then .done (s.setKctx d c 5)
  else if !s.quiesced d c then .wait
  else .done (((s.saveContext d c 3 false).updCore d c Core.leaveContext).setKctx d c 0)
/-- OP 010. -/
def State.kctxRestore (s : State) (d c : Nat) : WriteOut :=
  if !s.filesStill d c then .wait
  else
    let st := s.restoreStatus d c
    .done ((if st = 0 then s.restoreContext d c else s).setKctx d c st)
/-- OP 011. -/
def State.kctxRelease (s : State) (d c : Nat) : WriteOut :=
  let st := s.releaseStatus d c
  .done ((if st = 0 then s.releaseContext d c else s).setKctx d c st)
/-- A write of KCTX. -/
def State.writeKctx (s : State) (d c : Nat) (v : W64) : WriteOut :=
  match fieldOf v 2 0 with
  | 0 => .done s
  | 1 => s.kctxSave d c
  | 2 => s.kctxRestore d c
  | 3 => s.kctxRelease d c
  | _ => .illegal

/-! ### KXINV (R251) -/

def State.writeXinv (s : State) (d c : Nat) (v : W64) : WriteOut :=
  match fieldOf v 1 0 with
  | 0 => s.xinvAll d c
  | 1 => s.xinvOne d c (fieldOf v 55 12 * 4096)
  | 2 => if (s.core d c).ctl.level < levelH then .privilege else s.xinvStage2 d c
  | _ => .illegal

/-! ### KAMASK (R374) -/

/-- The dies of a partition. -/
def State.partDies (s : State) (part : Nat) : List Nat := (List.range s.dies.length).filter fun d => (s.die d).part == part
/-- Whether any context of a partition exists, on a core or saved on a die. -/
def State.partBusy (s : State) (part : Nat) : Bool :=
  s.dies.any fun y => (y.cores.any fun x => x.holds && x.ctx.part == part) || y.held.any fun h => h.part == part
/-- A write of KAMASK: the mask of the partition's dies changes (log 24). -/
def State.writeAmask (s : State) (d : Nat) (v : W64) : WriteOut :=
  let part := (s.die d).part
  if s.partBusy part || fieldOf v 7 0 == 0 then .illegal
  else .done ((s.partDies part).foldl (fun s e => s.updDie e fun y => { y with amask := fieldOf v 7 0 }) s)

/-! ### KBOARD (R390 to R392) -/

/-- The board a table's 1024 bytes give. -/
def boardOf (b : List Byte) : Board :=
  ⟨true, (List.range 24).map fun r => (List.range 16).map fun i => leAt b (32 * r + 2 * i) 2,
    ((List.range 64).map fun i => (leAt b (768 + 4 * i) 2, leAt b (770 + 4 * i) 1)).filter fun w => w.1 != 0xFFFF⟩
/-- What makes a table illegal (R391): a tenant listed twice, a W of 0, a zero byte of a used entry that is not zero. -/
def boardBad (b : List Byte) : Bool :=
  let w := (boardOf b).weights
  decide ((w.map (·.1)).eraseDups.length < w.length) || (w.any fun e => e.2 == 0) ||
    (List.range 64).any fun i => leAt b (768 + 4 * i) 2 != 0xFFFF && leAt b (771 + 4 * i) 1 != 0
/-- A write of KBOARD: the table is read whole, and waits for its frame (log 24). -/
def State.writeBoard (s : State) (d : Nat) (v : W64) : WriteOut :=
  let w := KName.kboard.clean v
  let put := fun (b : Board) => WriteOut.done (s.updDie d fun y =>
    { y with seqr := { y.seqr with kboard := w, coming := y.seqr.coming ++ [(y.seqr.cyc, b)] } })
  if bitOf w 0 then
    let b := (s.readPa d (s.pkg (pkgOf d)).sec.plat (fieldOf w 55 10 * 1024) 1024).1
    if boardBad b then .illegal else put (boardOf b)
  else put ⟨false, [], []⟩

/-! ### KLEND (R395) -/

def State.writeLend (s : State) (d : Nat) (v : W64) : WriteOut :=
  let c := fieldOf v 4 0
  let x := s.core d c
  let old := ((s.die d).lends[c]?).getD ⟨false, 0, 0⟩
  if fieldOf v 39 24 < 4000 then .illegal
  else if bitOf v 11 && x.holds then .illegal
  else if !bitOf v 11 && old.lent && x.holds && x.ctx.part == old.part then .illegal
  else .done (s.updDie d fun y =>
    { y with lends := y.lends.set c ⟨bitOf v 11, fieldOf v 23 12, fieldOf v 39 24⟩, lendOf := c })

/-! ### KPREEMPT (R394) -/

/-- The operation begins: the pre-emption of R272 is requested. -/
def State.beginPreempt (s : State) (d c op t : Nat) : WriteOut :=
  let x := s.core d t
  if op = 0 ∨ 4 ≤ op then .illegal
  else if op = 3 && !(((s.die d).lends[t]?).getD ⟨false, 0, 0⟩).lent then .illegal
  else if !x.holds then .done (s.updDie d fun y => { y with preempt := 1, preOp := none })
  else if areaBad (fieldOf x.x.ksave 11 0) then .done (s.updDie d fun y => { y with preempt := 2, preOp := none })
  else .pending ((s.updDie d fun y => { y with preOp := some ⟨c, op, t, y.kfrc, none, false⟩ }).updCore d t fun x => x.askStop 1 32)
/-- The STATUS with which an operation that has been carried out ends: a recall is late where its save ended beyond DL, and where DL
lies below the bound of the points in force (R396). -/
def Die.preStatus (y : Die) (p : PreOp) : Nat :=
  let dl := ((y.lends[p.target]?).getD ⟨false, 0, 0⟩).dl
  if p.bad then 2
  else
    match p.done with
    | none => 1
    | some t => if p.op = 3 && decide (dl < t - p.since ∨ dl < pointTp (max y.power.core y.power.casc)) then 3 else 0
/-- OP 001, 010 or 011 of core c for core t: one operation at a time; the `mtk` ends when the save has ended, or when the
context ended before it (log 24). -/
def State.preemptOp (s : State) (d c op t : Nat) : WriteOut :=
  match (s.die d).preOp with
  | none => s.beginPreempt d c op t
  | some p =>
    if op = 0 ∨ 4 ≤ op then .illegal
    else if p.who = c ∧ p.op = op ∧ p.target = t then
      if p.done.isSome || p.bad || !(s.core d t).holds then
        .done (s.updDie d fun y => { y with preempt := y.preStatus p, preOp := none })
      else .wait
    else if p.done.isSome || p.bad then s.beginPreempt d c op t
    else .wait
def State.writePreempt (s : State) (d c : Nat) (v : W64) : WriteOut := s.preemptOp d c (fieldOf v 10 8) (fieldOf v 4 0)

/-! ### The pre-emption itself (R272, R394) and the debug stop (R400 to R402) -/

/-- The KPREEMPT operation under way for core c, if any. -/
def Die.preFor (y : Die) (c : Nat) : Option PreOp := y.preOp.bind fun p => if p.target = c && p.done.isNone && !p.bad then some p else none
/-- It has ended. -/
def Die.preDone (y : Die) (c : Nat) : Die :=
  { y with preOp := y.preOp.map fun p => if p.target = c && p.done.isNone then { p with done := some y.kfrc } else p }
/-- The core becomes free. -/
def State.freeCore (s : State) (d c : Nat) : State := ((s.updCore d c fun _ => s.emptied d c).updDie d fun y => y.preDone c).disown d c
/-- A command that the freeze had taken back goes on. -/
def Cmd.goOn (k : Cmd) : Cmd :=
  match k.st with
  | .withdrawn => { k with st := .waiting }
  | .yielded => { k with st := .waiting }
  | _ => k
/-- A core whose stops are given up goes on; a line that STEP has stopped after resolves (log 24). -/
def Core.unstop (x : Core) : Core :=
  let y := (x.setCtl fun t => { t with frozen := false, stops := t.stops.filter fun r => r.wait != 0 }).setFl fun f =>
    { f with cmds := f.cmds.map Cmd.goOn }
  match y.ctl.line with
  | some l => if y.stepDone then y.resolve l else y
  | none => y
/-- A stop whose save area is out of range is given up, and the core goes on (log 24). -/
def State.dropStop (s : State) (d c : Nat) : State :=
  let s1 := (s.updDie d fun y => { y with preOp := y.preOp.map fun p => if p.target = c && p.done.isNone then { p with bad := true } else p }).updCore
    d c Core.unstop
  ((s1.resumeTasks d c).handOverAll d c).launchF d c
/-- Whether a recall (OP 011) of core c is due while a context is held there: it does not wait for the hold. -/
def State.recallDue (s : State) (d c : Nat) : Bool :=
  let x := s.core d c
  x.ctl.hold.isSome && x.holds && (x.ctl.stops.any fun r => r.reason == 1 && r.wait == 0) && ((s.die d).preFor c).elim false fun p => p.op == 3
/-- A recalled held context is saved as a KCTX save would save it, and the core is free. -/
def State.recallHeld (s : State) (d c : Nat) : State :=
  if areaBad (fieldOf (s.core d c).x.ksave 11 0) then
    (s.updDie d fun y => { y with preOp := y.preOp.map fun p => { p with bad := true } }).updCore d c fun x =>
      x.setCtl fun t => { t with stops := t.stops.filter fun r => r.wait != 0 }
  else if !s.quiesced d c then s
  else (s.saveContext d c 1 false).freeCore d c
/-- The DATA of a stop record (R403; log 24): where the first C lane not yet issued stands, or the next line. -/
def State.stopPc (s : State) (d c : Nat) : W64 :=
  BitVec.ofNat 64 ((s.resumePoint d c).elim (s.saveNext d c + 4) Refetch.word % 2 ^ 64)
/-- STOPEN is cleared when the stop at KSTOPC is taken (R399). -/
def Core.clearStopen (x : Core) : Core :=
  if bitOf x.x.kdbgc 0 && decide (x.x.kstopc.toNat ≤ x.k.kscyc.toNat) then
    { x with x := { x.x with kdbgc := x.x.kdbgc &&& ~~~ (1 : W64) } }
  else x
/-- The save of a stop, its record and interrupt if it is a debug stop, and the core free. -/
def State.stopSave (s : State) (d c reason : Nat) : State :=
  let migrate := ((s.die d).preFor c).elim false fun p => p.op == 2
  if reason = 2 then
    let s1 := s.updCore d c Core.clearStopen
    let epc := s1.stopPc d c
    (((s1.saveContext d c 2 migrate).stopRecord d c epc).updDie d fun y =>
      { y with hreg := { y.hreg with hint := y.hreg.hint ||| 2, stopCore := c } }).freeCore d c
  else (s.saveContext d c reason migrate).freeCore d c
/-- The next step of a stop that is due: the freeze, then the save once the work of R270 has ended. -/
def State.takeStop (s : State) (d c reason : Nat) : State :=
  let x := s.core d c
  if x.ctl.run ≠ .running || !x.stopDue then s
  else if !x.ctl.frozen then s.freezeCore d c
  else if !x.holds then s.freeCore d c
  else if areaBad (fieldOf x.x.ksave 11 0) then s.dropStop d c
  else if !s.quiesced d c then s
  else s.stopSave d c reason
/-- The REASON of the stop that is due: that of a debug stop, where a pre-emption is due with it (R402). -/
def Core.dueReason (x : Core) : Option Nat :=
  if x.stopDue then some (((x.ctl.stops.filter fun r => r.wait == 0).map (·.reason)).foldl max 0) else none
/-- PREEMPTION_REQUEST: a pre-emption asked for at core c is carried out. -/
def execPreemptionRequest (d c : Nat) (s : State) : Out :=
  if s.recallDue d c then .next (s.recallHeld d c)
  else if (s.core d c).dueReason = some 1 then .next (s.takeStop d c 1)
  else .next s
/-- DEBUG_STOP: a debug stop at core c is carried out; it satisfies a pre-emption too (R402). -/
def execDebugStop (d c : Nat) (s : State) : Out :=
  if (s.core d c).dueReason = some 2 then .next (s.takeStop d c 2) else .next s

/-! ### Writing a K register -/

/-- KDBGC (R399, R400): STOPEN set with the stop's cycle already past asks for a stop. -/
def State.writeDbgc (s : State) (d c : Nat) (v : W64) : WriteOut :=
  match s.writePlain d c .kdbgc v with
  | .done t =>
    let x := t.core d c
    .done (if bitOf v 0 && decide (x.x.kstopc.toNat < x.k.kscyc.toNat) then t.updCore d c fun x => x.askStop 2 32 else t)
  | o => o
/-- KSALARM (R420): FRZ is cleared by H; the rest is ignored. -/
def State.writeAlarm (s : State) (d c : Nat) (v : W64) : WriteOut :=
  if bitOf v 0 && decide ((s.core d c).ctl.level = levelH) then
    .done (s.updPkg (pkgOf d) fun g => { g with sec := { g.sec with frz := false } })
  else .done s
/-- A write of a K register by core c, its level being allowed: the registers with a rule of their own; those that are ignored;
the plain ones. A value the register rejects is illegal before anything else (R260). -/
def State.writeK (s : State) (d c : Nat) (k : KName) (v : W64) : WriteOut :=
  if k.rejects v (fieldOf (s.core d c).k.kbasin 44 32) then .illegal
  else if k.queued && !(s.core d c).quiet then .wait
  else
    match k with
    | .kmode => s.writeMode d c v
    | .kvstat => if (s.core d c).vRetired then s.writePlain d c .kvstat v else .wait
    | .knoise => s.writeNoise d c .knoise v
    | .knlogb => s.writeNoise d c .knlogb v
    | .knlogp => s.writeNoise d c .knlogp v
    | .krtab => s.writeRange d c false v
    | .ks2rtab => s.writeRange d c true v
    | .kbcache => s.writeShare d c v
    | .kxinv => s.writeXinv d c v
    | .kctx => s.writeKctx d c v
    | .kdbgc => s.writeDbgc d c v
    | .ktrb => s.writeTrace d v
    | .ktrp => .done (s.updDie d fun y => { y with trace := { y.trace with ktrp := KName.ktrp.merge y.trace.ktrp v } })
    | .kboard => s.writeBoard d v
    | .kpreempt => s.writePreempt d c v
    | .klend => s.writeLend d v
    | .kamask => s.writeAmask d v
    | .ksalarm => s.writeAlarm d c v
    | k => if k.rw = 0 && k.w1cBits = 0 then .done s else s.writePlain d c k v

/-- A write whose level may not be allowed: a rejected value comes before the privilege fault (R260). -/
def State.writeAt (s : State) (d c : Nat) (k : KName) (v : W64) : WriteOut :=
  match s.writeK d c k v with
  | .illegal => .illegal
  | o => if (s.core d c).ctl.level < k.writeLevel then .privilege else o
/-- `mtk` (R265): unknown numbers, then what the register's rule rejects, then the level, then a poisoned source (R260). -/
def execMtk (a k : Nat) (s : State) : Out :=
  match kName k with
  | none => s.illegal
  | some n =>
    if !s.cReady [a] then s.stall
    else
      match s.writeAt s.cur.die s.cur.core n (s.me.val a) with
      | .illegal => s.illegal
      | .privilege => s.privFault
      | .wait => s.stall
      | .pending t => if s.me.poisoned a then s.poisonFault a else .next t
      | .done t => if s.me.poisoned a then s.poisonFault a else .next t.issued
/-- `mfk` (R265). A read of KVSTAT waits for the V instructions of earlier lines (R87). -/
def execMfk (d k : Nat) (s : State) : Out :=
  match kName k with
  | none => s.illegal
  | some n =>
    if s.me.ctl.level < n.readLevel then s.privFault
    else if !s.cReady [d] || (n == .kvstat && !s.me.vRetired) then s.stall
    else .next (s.updMe fun x => x.write d (s.readK s.cur.die s.cur.core n) false).issued

/-- `trap` (R264): code 0 ends the context once it has no queued group and no command; another code is a trap, which resumes at
the next lane. A core that holds no context only becomes free (log 22). -/
def execTrap (code : Nat) (s : State) : Out :=
  if code ≠ 0 then s.raise 0x14 0 (BitVec.ofNat 64 code)
  else if !s.me.q.all.isEmpty || !s.me.fl.cmds.isEmpty then s.stall
  else if !s.me.holds then .next (s.freeCore s.cur.die s.cur.core)
  else .next (s.endContext s.cur.die s.cur.core (if s.me.ctl.level = levelA then 0 else 0x10))

/-! ### The rows of register writes -/

/-- A fault at the lane in focus, taken by core c. -/
def State.rowFault (s : State) (d c cause : Nat) : Out := .next (s.takeTrap d c (s.faultHere cause 0 s.wordHere))
/-- A write of a K register by core c as a step of its own: what the `mtk` does, but for the lane's advance. -/
def State.rowWrite (s : State) (d c : Nat) (k : KName) (v : W64) : Out :=
  match s.writeAt d c k v with
  | .done t => .next t
  | .pending t => .next t
  | .wait => .next s
  | .illegal => s.rowFault d c 0x02
  | .privilege => s.rowFault d c 0x12

def execKctxSave (d c : Nat) (s : State) : Out := s.rowWrite d c .kctx 1
def execKctxRestore (d c : Nat) (s : State) : Out := s.rowWrite d c .kctx 2
def execKctxRelease (d c : Nat) (s : State) : Out := s.rowWrite d c .kctx 3
/-- KCTX_NOTHING: STATUS keeps its value. -/
def execKctxNothing (d c : Nat) (s : State) : Out := s.rowWrite d c .kctx 0
def execXinvAllStage1 (d c : Nat) (s : State) : Out := s.rowWrite d c .kxinv 0
def execXinvPage (d c va : Nat) (s : State) : Out := s.rowWrite d c .kxinv (BitVec.ofNat 64 (va / 4096 * 4096 + 1))
def execXinvStage2 (d c : Nat) (s : State) : Out := s.rowWrite d c .kxinv 2
/-- RANGE_TABLE_LOAD of stage 1 (KRTAB) or 2 (KS2RTAB). -/
def execRangeTableLoad (d c stage : Nat) (v : W64) (s : State) : Out := s.rowWrite d c (if stage = 2 then .ks2rtab else .krtab) v
def execCacheShareWrite (d c : Nat) (v : W64) (s : State) : Out := s.rowWrite d c .kbcache v
/-- NOISE_MODE_WRITE of KNOISE, KNLOGB or KNLOGP, by its number. -/
def execNoiseModeWrite (d c num : Nat) (v : W64) (s : State) : Out :=
  s.rowWrite d c (if num = 0x014 then .knoise else if num = 0x015 then .knlogb else .knlogp) v
def execModeWrite (d c : Nat) (v : W64) (s : State) : Out := s.rowWrite d c .kmode v
def execActiveMaskWrite (d c : Nat) (v : W64) (s : State) : Out := s.rowWrite d c .kamask v
def execBoardWrite (d c : Nat) (v : W64) (s : State) : Out := s.rowWrite d c .kboard v
def execPreempt (d c target : Nat) (s : State) : Out := s.rowWrite d c .kpreempt (BitVec.ofNat 64 (0x100 + target))
def execPreemptForMigration (d c target : Nat) (s : State) : Out := s.rowWrite d c .kpreempt (BitVec.ofNat 64 (0x200 + target))
def execRecall (d c target : Nat) (s : State) : Out := s.rowWrite d c .kpreempt (BitVec.ofNat 64 (0x300 + target))
def execLendWrite (d c : Nat) (v : W64) (s : State) : Out := s.rowWrite d c .klend v
def execTraceBufferWrite (d c : Nat) (v : W64) (s : State) : Out := s.rowWrite d c .ktrb v

end Sys2Proof.Machine
end

