-- ==== Sys2Proof/Machine/Board.lean ====
section
/-!
DEFINITION. Sys2Proof/Machine/Board.lean: the board's frames and slots (R392, R393), the islands' points, profiles and telemetry
(R440 to R443).
-/
namespace Sys2Proof.Machine
open Sys2Proof

/-! ### Slots (R392, R393) -/

/-- Whether a cascade has a pass under way. -/
def Cascade.busy (y : Cascade) : Bool := !y.free
/-- A cascade whose slot's owner changes: both weight buffers are emptied (R218, R393). -/
def Cascade.handedOver (y : Cascade) : Cascade := { y with front := .empty, back := .empty, conf := none, split := none }
/-- Whether the owner of cascade k's slot differs between two states of a die. -/
def ownerChanges (y z : Die) (k : Nat) : Bool := y.slotOwner k != z.slotOwner k
/-- The boundary from y to z, where z has the next slot and the board in force; it waits for a pass under way on a cascade whose
owner changes. -/
def crossSlot (y z : Die) : Die :=
  if (List.range 4).any fun k => ownerChanges y z k && (y.cascs[k]?).elim false Cascade.busy then y
  else { z with cascs := z.cascs.mapIdx fun k c => if ownerChanges y z k then c.handedOver else c }
/-- SLOT_BOUNDARY inside a frame: it is due once the die's cycle count has reached the slot. -/
def execSlotBoundary (d : Nat) (s : State) : Out :=
  let y := s.die d
  let n := y.seqr.slots + 1
  if n % 16 = 0 ∨ y.seqr.cyc < 256 * n then .next s
  else .next (s.updDie d fun _ => crossSlot y { y with seqr := { y.seqr with slots := n } })

/-! ### Profiles and points (R440 to R442) -/

/-- The point a mode runs both islands at (R442; log 20). -/
def modePoint (mode : Nat) : Nat := if mode = 3 then 2 else 0
/-- The board, the profile and the points of the frame that begins at a cycle. -/
def Die.newFrame (y : Die) (start : Nat) : Die :=
  let prof := (y.power.coming.filter fun p => decide (frameAfter p.1 ≤ start)).getLast?
  let cap := prof.elim y.power.patcap (·.2.1)
  let mode := prof.elim y.power.mode (·.2.2)
  { y with
    seqr := { y.seqr with board := y.boardAt start, coming := y.seqr.coming.filter fun p => decide (start < frameAfter p.1)
                          slots := start / 256, frames := start / 4096 }
    power := { y.power with patcap := cap, mode := mode, coming := y.power.coming.filter fun p => decide (start < frameAfter p.1)
                            core := modePoint mode, casc := min 2 (modePoint mode + y.power.low) } }
/-- FRAME_BOUNDARY: the next frame begins, its slot 0 with it. -/
def execFrameBoundary (d : Nat) (s : State) : Out :=
  let y := s.die d
  let n := y.seqr.frames + 1
  if y.seqr.cyc < 4096 * n ∨ y.seqr.slots + 1 < 16 * n then .next s
  else .next (s.updDie d fun _ => crossSlot y (y.newFrame (4096 * n)))
/-- PROF written (R442). -/
def Die.writeProf (y : Die) (v : W64) : Die :=
  { y with power := { y.power with coming := y.power.coming ++ [(y.seqr.cyc, fieldOf v 31 16, fieldOf v 1 0)] } }
/-- PROF read: the values last written, the point in force (log 18). -/
def Die.prof (y : Die) : W64 :=
  let p := y.power.coming.getLast?
  BitVec.ofNat 64 (p.elim y.power.patcap (·.2.1) % 65536 * 65536 + y.power.casc % 4 * 4 + p.elim y.power.mode (·.2.2) % 4)
/-- PROFILE_WRITE. -/
def execProfileWrite (d : Nat) (v : W64) (s : State) : Out := .next (s.updDie d fun y => y.writeProf v)
/-- THERMAL_THROTTLE: the die asks for the cascade island one point lower, from the next frame (R440, R441), where there is one. -/
def execThermalThrottle (d : Nat) (s : State) : Out :=
  let y := s.die d
  if 2 ≤ modePoint y.power.mode + y.power.low then .next s
  else .next ((s.updDie d fun y => { y with power := { y.power with low := y.power.low + 1 } }).raiseHint d 6)
/-- THERMAL_RECOVERY (R441). -/
def execThermalRecovery (d : Nat) (s : State) : Out := .next (s.updDie d fun y => { y with power := { y.power with low := 0 } })
/-- TELEMETRY_UPDATE (R443): what the sensors gave, and the count. -/
def execTelemetryUpdate (d power current tj : Nat) (s : State) : Out :=
  .next (s.updDie d fun y => { y with power := { y.power with
    power := power % 65536, current := current % 65536, tj := tj % 65536, seq := (y.power.seq + 1) % 65536 } })
/-- TELE read. -/
def Die.tele (y : Die) : W64 :=
  BitVec.ofNat 64 (y.power.power % 65536 * 2 ^ 48 + y.power.current % 65536 * 2 ^ 32 + y.power.tj % 65536 * 65536 + y.power.seq % 65536)

end Sys2Proof.Machine
end

