-- ==== Sys2Proof/Machine/Hbm.lean ====
section
/-!
DEFINITION. Sys2Proof/Machine/Hbm.lean: the HBM4E controller's own steps: the scrubber (R412), open rows (R418), eye monitors and
lane repair (R414, R415), and its registers (R416).
-/
namespace Sys2Proof.Machine
open Sys2Proof

def Die.setHbm (y : Die) (f : Hbm → Hbm) : Die := { y with hbm := f y.hbm }
/-- The lines of a stack (R10). -/
def stackLines : Nat := 2 ^ 30
/-- A visit to a line (R412). -/
def Die.visit (y : Die) (line : Nat) : Die :=
  let e := assocGet y.stack.errs line
  if y.stack.marks.contains line || e == 0 then y
  else if e ≤ 4 then { y with stack := { y.stack with errs := assocSet y.stack.errs line 0 } }
  else y.markStack line
/-- SCRUB_VISIT: the next line in ascending PA order. -/
def execScrubVisit (d : Nat) (s : State) : Out :=
  if !(s.die d).hbm.enab then .next s
  else .next (s.updDie d fun y => (y.visit y.hbm.scrub).setHbm fun h => { h with scrub := (h.scrub + 1) % stackLines })
/-- Whether a row's hint lets it close now (R418). -/
def OpenRow.expired (r : OpenRow) : Bool :=
  match r.hint with
  | .plain => decide (64 ≤ r.idle)
  | .stream => true
  | .reuse => false
/-- ROW_CLOSE: open row n of the list closes if its time has come. -/
def execRowClose (d n : Nat) (s : State) : Out :=
  match (s.die d).hbm.rows[n]? with
  | none => .next s
  | some r => if r.expired then .next (s.updDie d fun y => y.setHbm fun h => { h with rows := h.rows.eraseIdx n }) else .next s
/-- HBM_EYE_EVENT (R414). -/
def execHbmEyeEvent (d lane : Nat) (s : State) : Out :=
  .next ((s.updDie d fun y => y.setHbm fun h => { h with lane := lane % 4096, evt := true }).raiseHint d 3)
/-- A write of HREP (R415, R416). -/
def Hbm.repair (h : Hbm) (v : W64) : Hbm :=
  let lane := fieldOf v 17 6
  if !bitOf v 0 || decide (2111 < lane) then h
  else if lane % 33 == 32 || h.spares.contains (lane / 33) then { h with nospare := true }
  else { h with spares := lane / 33 :: h.spares, training := lane / 33 :: h.training }
/-- LANE_REPAIR. -/
def execLaneRepair (d : Nat) (v : W64) (s : State) : Out := .next (s.updDie d fun y => y.setHbm fun h => h.repair v)
/-- SPARE_LANE_RETRAIN_DONE: the accesses that waited for the pseudo-channel are served. -/
def execSpareLaneRetrainDone (d pc : Nat) (s : State) : Out :=
  .next ((s.updDie d fun y => y.setHbm fun h => { h with training := h.training.filter (· != pc) }).launchAll d)
/-- A read of HERR clears its counts (R416). -/
def Hbm.readErrors (h : Hbm) : Hbm := { h with ce := 0, ue := 0 }
/-- ERROR_COUNTS_READ. -/
def execErrorCountsRead (d : Nat) (s : State) : Out := .next (s.updDie d fun y => y.setHbm Hbm.readErrors)

/-! ### Registers (R416) -/

def Hbm.hscrub (h : Hbm) : W64 := BitVec.ofNat 64 (h.period % 2 ^ 32 * 65536 + boolBit h.enab)
def Hbm.herr (h : Hbm) : W64 := BitVec.ofNat 64 (h.ce.toNat * 2 ^ 32 + h.ue.toNat)
def Hbm.hela (h : Hbm) : W64 := BitVec.ofNat 64 (h.elaLine % 2 ^ 50 * 64 + boolBit h.elaVal)
def Hbm.heye (h : Hbm) : W64 :=
  BitVec.ofNat 64 (h.vth % 256 * 2 ^ 40 + h.hth % 256 * 2 ^ 32 + h.lane % 4096 * 2 ^ 14 + boolBit h.nospare * 2 ^ 13 + boolBit h.evt * 2 ^ 12)
def Hbm.writeScrub (h : Hbm) (v : W64) : Hbm := { h with period := fieldOf v 47 16, enab := bitOf v 0 }
def Hbm.writeEye (h : Hbm) (v : W64) : Hbm :=
  { h with vth := fieldOf v 47 40, hth := fieldOf v 39 32, nospare := h.nospare && !bitOf v 13, evt := h.evt && !bitOf v 12 }

end Sys2Proof.Machine
end

