-- ==== Sys2Proof/Machine/Digest.lean ====
section
/-!
DEFINITION. Sys2Proof/Machine/Digest.lean: SHA-256 and RSASSA-PSS, which R423, R424, R427 and R439 name (the standards'
algorithms; log 15).
-/
namespace Sys2Proof.Machine
open Sys2Proof

/-! ### The constants of SHA-256: fractions of roots of the first primes -/

/-- The largest number of so many bits below an upper part whose k-th power does not exceed n. -/
def rootBits (k n : Nat) : Nat → Nat → Nat
  | 0, r => r
  | i + 1, r => if (r + 2 ^ i) ^ k ≤ n then rootBits k n i (r + 2 ^ i) else rootBits k n i r
/-- The first 32 bits of the fraction of the k-th root of n, whose whole part has at most 5 bits. -/
def rootFraction (k n : Nat) : W32 := BitVec.ofNat 32 (rootBits k (n * 2 ^ (32 * k)) 37 0)
/-- Primes, found by division by those already found, from c on. -/
def primesFrom : Nat → Nat → List Nat → List Nat
  | 0, _, ps => ps
  | f + 1, c, ps => primesFrom f (c + 1) (if ps.all fun p => c % p != 0 then ps ++ [c] else ps)
/-- The 64 primes up to 311. -/
def firstPrimes : List Nat := primesFrom 310 2 []
/-- The constants of the 64 rounds, from cube roots; the first chaining words, from square roots. -/
def roundFractions : List W32 := firstPrimes.map (rootFraction 3)
def startFractions : List W32 := (firstPrimes.take 8).map (rootFraction 2)

/-! ### SHA-256 over words -/

/-- The sum of rotations, and of a shift where one is given. -/
def mixWord (rots : List Nat) (shift : Option Nat) (x : W32) : W32 :=
  rots.foldl (fun v n => v ^^^ x.rotateRight n) (shift.elim 0 fun n => x >>> n)
/-- The schedule word after the last sixteen, oldest first. -/
def nextSchedule (w : List W32) : W32 :=
  mixWord [17, 19] (some 10) (w.getD 14 0) + w.getD 9 0 + mixWord [7, 18] (some 3) (w.getD 1 0) + w.getD 0 0
/-- One round on the eight chaining words with the sum of its schedule word and constant. -/
def digestRound (add : W32) : List W32 → List W32
  | [p, q, r, u, e, f, g, h] =>
    let fresh := add + h + mixWord [6, 11, 25] none e + (g ^^^ (e &&& (f ^^^ g)))
    [fresh + mixWord [2, 13, 22] none p + ((p &&& q) ||| (r &&& (p ||| q))), p, q, r, u + fresh, e, f, g]
  | l => l
/-- The rounds of a block, each with its constant, over the window of schedule words. -/
def digestRounds : List W32 → List W32 → List W32 → List W32
  | [], _, v => v
  | c :: cs, w, v => digestRounds cs (w.drop 1 ++ [nextSchedule w]) (digestRound (c + w.getD 0 0) v)

/-- Bytes, most significant first. -/
def beBytes (n v : Nat) : List Byte := (leBytes n v).reverse
def beNat (bs : List Byte) : Nat := leNat bs.reverse
/-- A 64-byte block taken in. -/
def digestBlock (cs v : List W32) (bs : List Byte) : List W32 :=
  List.zipWith (· + ·) v (digestRounds cs ((List.range 16).map fun i => BitVec.ofNat 32 (beNat ((bs.drop (4 * i)).take 4))) v)
/-- What follows a message of n bytes: a bit 1, zeros, and the bit length in the last 8 bytes of a block. -/
def digestTail (n : Nat) : List Byte := 0x80 :: List.replicate ((119 - n % 64) % 64) 0 ++ beBytes 8 (8 * n)
/-- The 32 bytes of SHA-256. -/
def sha256 (bs : List Byte) : List Byte :=
  let p := bs ++ digestTail bs.length
  ((List.range (p.length / 64)).foldl (fun v i => digestBlock roundFractions v ((p.drop (64 * i)).take 64)) startFractions).flatMap
    fun x => beBytes 4 x.toNat
/-- A digest as a register holds it: byte 0 lowest. -/
def digestWord (bs : List Byte) : W256 := BitVec.ofNat 256 (leNat bs)
def digestBytes (v : W256) : List Byte := leBytes 32 v.toNat
/-- A measurement register extended with a digest (R423). -/
def extendMr (mr : W256) (digest : List Byte) : W256 := digestWord (sha256 (digestBytes mr ++ digest))

/-! ### RSASSA-PSS (R424, R427): 3072 bits, SHA-256, MGF1 with SHA-256, a salt of 32 bytes -/

/-- b to the power e modulo m, over so many bits of e from its highest. -/
def powMod (m b e : Nat) : Nat → Nat
  | 0 => 1 % m
  | i + 1 =>
    let r := powMod m b (e / 2) i
    if e % 2 = 0 then r * r % m else r * r % m * b % m
/-- The mask of n bytes that a seed generates. -/
def mgf1 (seed : List Byte) (n : Nat) : List Byte :=
  ((List.range ((n + 31) / 32)).flatMap fun i => sha256 (seed ++ beBytes 4 i)).take n
/-- The hash over a message's digest and a salt. -/
def saltedHash (message salt : List Byte) : List Byte := sha256 (List.replicate 8 0 ++ sha256 message ++ salt)
/-- The encoded message of 384 bytes: its highest bit is 0. -/
def pssEncode (message salt : List Byte) : List Byte :=
  let h := saltedHash message salt
  let db := xorBytes (List.replicate 318 0 ++ [1] ++ salt) (mgf1 h 351)
  ((db.take 1).map fun b => b &&& 0x7F) ++ db.drop 1 ++ h ++ [0xBC]
/-- Whether an encoded message of 384 bytes is one of the message, under any salt. -/
def pssMatches (message em : List Byte) : Bool :=
  em == pssEncode message ((xorBytes (em.take 351) (mgf1 ((em.drop 351).take 32) 351)).drop 319)
/-- Whether a signature is valid under a public modulus with the exponent 65537: both numbers are little-endian (R4). -/
def signatureValid (modulus message signature : List Byte) : Bool :=
  let m := leNat modulus
  decide (leNat signature < m) && pssMatches message (beBytes 384 (powMod m (leNat signature) 65537 17))
/-- The signature of a message under a modulus and a private exponent. -/
def pssSign (modulus exponent : Nat) (message salt : List Byte) : List Byte :=
  leBytes 384 (powMod modulus (beNat (pssEncode message salt)) exponent 3072)

end Sys2Proof.Machine
end

