-- ==== Sys2Proof/Machine/Security.lean ====
section
/-!
DEFINITION. Sys2Proof/Machine/Security.lean: the security engine (R419 to R427): `secreq` and the requests it serves, alarms, the
debug unlock, package reset and boot (R439).
-/
namespace Sys2Proof.Machine
open Sys2Proof

/-! ### secreq (R423) -/

/-- OP, ARG and must-be-zero bits in order. -/
def secLegal (a : W64) : Bool :=
  let op := fieldOf a 7 0
  let arg := fieldOf a 15 8
  fieldOf a 63 16 == 0 && decide (1 ≤ op ∧ op ≤ 7) &&
    (if op = 1 then decide (4 ≤ arg ∧ arg ≤ 15) else if op = 3 then decide (arg ≤ 15) else arg == 0)
/-- The lowest level that may make a request. -/
def secLevel (a : W64) : Nat :=
  match fieldOf a 7 0 with
  | 1 => if fieldOf a 15 8 < 8 then levelH else levelS
  | 2 => levelA
  | 3 => levelA
  | _ => levelH
/-- The accesses of a memory operand, the size of its pieces, and how many there are. -/
def secAccess (op : Nat) : List Acc × Nat × Nat :=
  match op with
  | 1 => ([.read], 8, 4)
  | 2 => ([.read, .write], 64, 16)
  | 3 => ([.write], 8, 4)
  | 7 => ([.read], 64, 13)
  | _ => ([], 8, 0)
/-- One piece translated for each of its accesses, its dirty bit set for a write: its PA and its IPA. -/
def State.secPiece (s : State) (va n : Nat) : List Acc → Except Bad ((Nat × Nat) × State)
  | [] => .ok ((0, 0), s)
  | a :: rest =>
    match addrFault (BitVec.ofNat 64 va) n with
    | some c => .error (.fault c 0 (BitVec.ofNat 64 va))
    | none =>
      match s.translate s.cur.die s.me s.me.ctl.level a va with
      | .error e => .error (.xlate e)
      | .ok o =>
        let s1 := s.updMe fun x => x.cache o.walked
        match (if a.needs.2.1 then s1.setDirty s.cur.die s1.me a.code o.ipa else .ok s1) with
        | .error e => .error (.xlate e)
        | .ok t => if rest.isEmpty then .ok ((o.pa, o.ipa), t) else t.secPiece va n rest
/-- Every piece of an operand at a VA. -/
def State.secPieces (s : State) (va n : Nat) (accs : List Acc) : List Nat → Except Bad (List (Nat × Nat) × State)
  | [] => .ok ([], s)
  | i :: is =>
    match s.secPiece (va + n * i) n accs with
    | .error b => .error b
    | .ok (pa, t) =>
      match t.secPieces va n accs is with
      | .error b => .error b
      | .ok (l, u) => .ok (pa :: l, u)
/-- The cycle in which a request of die d arrives: a cycle of its package's die 0, where the engine is. -/
def State.secCycle (s : State) (d : Nat) : Nat := (s.die (8 * pkgOf d)).seqr.cyc
/-- The order of requests that arrive in one cycle: die, then core (R419). -/
def SecReq.before (q r : SecReq) : Bool := q.arr == r.arr && decide (64 * q.die + q.core < 64 * r.die + r.core)
def SecReq.insert (q : SecReq) : List SecReq → List SecReq
  | [] => [q]
  | r :: rs => if q.before r then q :: r :: rs else r :: q.insert rs
/-- The request goes to the engine; s[d] waits for its answer. -/
def State.sendSec (s : State) (d : Nat) (a b : W64) (pas : List (Nat × Nat)) : Out :=
  let x := s.me
  let q : SecReq :=
    ⟨s.cur.die, s.cur.core, if x.heldPending d then 0 else d, fieldOf a 7 0, fieldOf a 15 8, b, x.ctx.tenant, pas, s.secCycle s.cur.die⟩
  .next ((s.updPkg (pkgOf s.cur.die) fun g => { g with sec := { g.sec with queue := q.insert g.sec.queue } }).updMe fun x => x.pendReg d).issued
/-- `secreq`. One with an operand in memory goes to the engine once the core's earlier accesses have been performed, so that they
stay in order with the engine's (R116; log 15). -/
def execSecreq (d a b : Nat) (s : State) : Out :=
  if !s.cReady [d, a, b] then s.stall
  else if !secLegal (s.me.val a) then s.illegal
  else if s.me.ctl.level < secLevel (s.me.val a) then s.privFault
  else
    match s.me.firstPoison [a, b] with
    | some r => s.poisonFault r
    | none =>
      let m := secAccess (fieldOf (s.me.val a) 7 0)
      if m.2.2 = 0 then s.sendSec d (s.me.val a) (s.me.val b) []
      else if 2 ^ 56 ≤ (s.me.val b).toNat then s.raise 0x0A 0 (s.me.val b)
      else if !(s.me.loadsBack && s.storesAt .pod) then s.stall
      else
        match s.secPieces (s.me.val b).toNat m.2.1 m.1 (List.range m.2.2) with
        | .error e => s.raiseBad e
        | .ok (pas, t) => t.sendSec d (s.me.val a) (s.me.val b) pas

/-! ### The engine (R419, R421) -/

def State.sec (s : State) (p : Nat) : Security := (s.pkg p).sec
def State.updSec (s : State) (p : Nat) (f : Security → Security) : State := s.updPkg p fun g => { g with sec := f g.sec }
/-- Whether a state of the life cycle serves a request (R421). -/
def lifeServes (life op : Nat) : Bool :=
  match life with
  | 0 => op == 3
  | 1 => op == 1 || op == 2 || op == 3 || op == 6 || op == 7
  | 2 => true
  | 3 => op == 1 || op == 2 || op == 3 || op == 5
  | _ => op == 3
/-- The first request is answered: status, and poison where a line it read was marked. -/
def State.answerSec (s : State) (p : Nat) (q : SecReq) (status : Nat) (poison : Bool) : State :=
  (s.updSec p fun e => { e with queue := e.queue.drop 1 }).updCore q.die q.core fun x =>
    x.land q.reg (BitVec.ofNat 64 (status * 2 ^ 56)) poison
/-- Whether a tenant has a context on a package, running or saved (R423). -/
def State.tenantPresent (s : State) (p tenant : Nat) : Bool :=
  (List.range 8).any fun m =>
    ((s.die (8 * p + m)).cores.any fun x => x.holds && x.ctx.tenant == tenant) || (s.die (8 * p + m)).held.any fun h => h.tenant == tenant
/-- The bytes of a request's operand, in pieces of n, and whether a line of them is marked. -/
def State.secRead (s : State) (q : SecReq) (n : Nat) : List Byte × Bool :=
  let l := q.pas.map fun pa => s.readPa q.die (s.keyOf q.die q.tenant) pa.1 n
  ((l.map (·.1)).flatten, l.any (·.2))
/-- Bytes written at a PA for a request: the page's dirty bit is set again as they become visible (R254). -/
def State.secPut (s : State) (q : SecReq) (ipa pa : Nat) (bs : List Byte) : State :=
  ((s.redirty q.die q.core ipa).writePa q.die (s.keyOf q.die q.tenant) pa bs).openPa q.die pa bs.length .plain
/-- Bytes written over an operand of pieces of n. -/
def State.secWrite (s : State) (q : SecReq) (n : Nat) (bs : List Byte) : State :=
  (q.pas.mapIdx fun i p => (p, (bs.drop (n * i)).take n)).foldl (fun s p => s.secPut q p.1.2 p.1.1 p.2) s
def Security.mr (e : Security) (i : Nat) : W256 := (e.mrs[i]?).getD 0
def Security.extendBy (e : Security) (i : Nat) (digest : List Byte) : Security := { e with mrs := e.mrs.set i (extendMr (e.mr i) digest) }

/-- EXTEND. -/
def State.serveExtend (s : State) (p : Nat) (q : SecReq) : State :=
  let r := s.secRead q 8
  (s.updSec p fun e => e.extendBy q.arg r.1).answerSec p q 0 r.2
/-- READMR. -/
def State.serveReadmr (s : State) (p : Nat) (q : SecReq) : State :=
  (s.secWrite q 8 (digestBytes ((s.sec p).mr q.arg))).answerSec p q 0 false
/-- TKEY (R422, R423); a tenant above 0xFFFE has no result stated (log 21). -/
def State.serveTkey (s : State) (p : Nat) (q : SecReq) : State :=
  let t := q.val.toNat
  let e := s.sec p
  if 0xFFFE < t then s.answerSec p q ((Config.openValue 4 s.steps).toNat % 256) false
  else if s.tenantPresent p t then s.answerSec p q 4 false
  else if e.tkeys.any fun k => k.1 == t then s.answerSec p q 3 false
  else if 256 ≤ e.tkeys.length then s.answerSec p q 2 false
  else (s.updSec p fun e => { e with tkeys := e.tkeys ++ [(t, e.next)], next := e.next + 1 }).answerSec p q 0 false
/-- TKDEL. -/
def State.serveTkdel (s : State) (p : Nat) (q : SecReq) : State :=
  let t := q.val.toNat
  if s.tenantPresent p t then s.answerSec p q 4 false
  else if !(s.sec p).tkeys.any fun k => k.1 == t then s.answerSec p q 3 false
  else (s.updSec p fun e => { e with tkeys := e.tkeys.filter fun k => k.1 != t }).answerSec p q 0 false
/-- A drawn value that is not zero. -/
def freshNonce (v : W64) : W64 := if v = 0 then 1 else v
/-- NONCE. -/
def State.serveNonce (s : State) (p : Nat) (q : SecReq) : State :=
  (s.updSec p fun e => { e with nonce := freshNonce (Config.openValue 5 s.steps) }).answerSec p q 0 false

/-! ### QUOTE (R424) and UNLOCK (R427) -/

/-- The registers a mask selects, 32 bytes each, zero elsewhere. -/
def quotedMrs (e : Security) (mask : Nat) : List Byte :=
  (List.range 16).flatMap fun i => if mask.testBit i then digestBytes (e.mr i) else zeroBytes 32
/-- Bytes 0 to 639 of a record: the mask and the nonce are the caller's. -/
def quoteHead (e : Security) (id : BitVec 128) (old : List Byte) : List Byte :=
  leBytes 8 0x45544F5551435358 ++ [BitVec.ofNat 8 e.life] ++ zeroBytes 7 ++ leBytes 16 id.toNat ++ (old.drop 32).take 4 ++ zeroBytes 28 ++
    (old.drop 64).take 64 ++ quotedMrs e (leAt old 32 4)
/-- The signature over bytes 0 to 639; once a mate has zeroised the attestation key, a value the spec does not state (log 21). -/
def State.quoteSignature (s : State) (p : Nat) (head : List Byte) : List Byte :=
  if (s.sec p).wiped then (List.range 48).flatMap fun i => leBytes 8 (Config.openValue (100 + i) s.steps).toNat
  else pssSign (Config.attestModulus p) (Config.attestExponent p) head (leBytes 32 (Config.quoteSalt p s.steps).toNat)
/-- QUOTE: every byte but the caller's is written. -/
def State.serveQuote (s : State) (p : Nat) (q : SecReq) : State :=
  let r := s.secRead q 64
  if leAt r.1 34 2 ≠ 0 then s.answerSec p q 5 r.2
  else
    let head := quoteHead (s.sec p) (Config.deviceId p) r.1
    let bs := head ++ s.quoteSignature p head
    let s1 := q.pas.head?.elim s fun g => (s.secPut q g.2 g.1 (bs.take 32)).secPut q (g.2 + 36) (g.1 + 36) ((bs.drop 36).take 28)
    let rest : SecReq := { q with pas := q.pas.drop 2 }
    (s1.secWrite rest 64 (bs.drop 128)).answerSec p q 0 r.2
/-- What makes a token fail (R427). -/
def tokenBad (e : Security) (id : BitVec 128) (authority : W256) (n : W64) (t : List Byte) : Bool :=
  let modulus := (t.drop 64).take 384
  digestWord (sha256 modulus) != authority || !signatureValid modulus (t.take 448) ((t.drop 448).take 384) ||
    leAt t 0 16 != id.toNat || leAt t 16 1 != e.life || n == 0 || leAt t 24 8 != n.toNat || leAt t 17 7 != 0 || decide (16 ≤ leAt t 32 8) ||
    leAt t 40 24 != 0
/-- UNLOCK: every attempt consumes the nonce. -/
def State.serveUnlock (s : State) (p : Nat) (q : SecReq) : State :=
  let r := s.secRead q 64
  let n := (s.sec p).nonce
  let s1 := s.updSec p fun e => { e with nonce := 0 }
  if (s.sec p).tkeys.any fun k => s.tenantPresent p k.1 then s1.answerSec p q 4 r.2
  else if tokenBad (s.sec p) (Config.deviceId p) (Config.authorityHash p) n r.1 then s1.answerSec p q 5 r.2
  else
    (s1.updSec p fun e => { e.extendBy 0 (sha256 (r.1.take 64)) with
      tkeys := [], life := if e.life = 2 then 3 else e.life, mask := leAt r.1 32 8 % 16 }).answerSec p q 0 r.2

/-! ### The rows of the requests -/

/-- The first request of a package's engine, if it is of an OP: status 1 where the state does not serve it (R421), else `f`. -/
def State.serveSec (s : State) (p op : Nat) (f : State → SecReq → State) : Out :=
  match (s.sec p).queue with
  | [] => .next s
  | q :: _ =>
    if q.op ≠ op then .next s
    else if lifeServes (s.sec p).life op then .next (f s q)
    else .next (s.answerSec p q 1 false)
def execExtend (p : Nat) (s : State) : Out := s.serveSec p 1 fun s q => s.serveExtend p q
def execQuote (p : Nat) (s : State) : Out := s.serveSec p 2 fun s q => s.serveQuote p q
def execReadmr (p : Nat) (s : State) : Out := s.serveSec p 3 fun s q => s.serveReadmr p q
def execTkey (p : Nat) (s : State) : Out := s.serveSec p 4 fun s q => s.serveTkey p q
def execTkdel (p : Nat) (s : State) : Out := s.serveSec p 5 fun s q => s.serveTkdel p q
def execNonce (p : Nat) (s : State) : Out := s.serveSec p 6 fun s q => s.serveNonce p q
def execUnlock (p : Nat) (s : State) : Out := s.serveSec p 7 fun s q => s.serveUnlock p q

/-! ### Alarms (R425, R426) -/

/-- Where a core stands for an alarm: its next C lane, or lane 1 of its next line (log 15). -/
def Core.standsAt (x : Core) : Nat × Nat :=
  match x.ctl.line.bind fun l => (cGroups l.words l.lane).head?.map fun g => (l.addr, g.lane) with
  | some p => p
  | none => (x.ctl.nextLine, 1)
/-- A context that runs at A or S has an alarm to report, before any other fault. -/
def Core.alarmed (x : Core) (src : Nat) : Core :=
  if x.ctl.run = .running ∧ x.ctl.level < levelH then
    x.setCtl fun t => { t with faults := t.faults ++ [⟨0, 0x40, src, 0, x.standsAt.1, x.standsAt.2, 0, none, false, false⟩] }
  else x
/-- The dies of a package. -/
def State.onDies (s : State) (p : Nat) (f : Die → Die) : State := (List.range 8).foldl (fun s m => s.updDie (8 * p + m) f) s
/-- A check (R426). -/
def State.check (s : State) (p src : Nat) : State :=
  ((s.updSec p fun e => { e with src := src, count := min 255 (e.count + 1), frz := true }).raiseHint (8 * p) 2).onDies p fun y =>
    { y with cores := y.cores.map fun x => x.alarmed src }

/-! ### Package reset and boot (R439) -/

/-- The engine after a reset of its package: the fuses stay; debug-open is left; the keys still to be drawn are new ones. -/
def Security.afterReset (e : Security) : Security :=
  { Security.reset with life := if e.life = 3 then 2 else e.life, mates := e.mates, wiped := e.wiped, plat := e.next, next := e.next + 1 }
/-- The engine starts from ROM, if it has not. -/
def Security.startRom (e : Security) (p : Nat) : Security :=
  if e.boot = 0 then { e.extendBy 0 (sha256 (Config.romImage p)) with boot := 1 } else e
/-- A die after a reset of its package; the noise streams go on, and it stays in its partition (log 16). -/
def Die.afterReset (y : Die) : Die :=
  { Die.reset with part := y.part, cores := y.cores.map fun x => { Core.reset with noise := x.noise, fl := { Core.reset.fl with seq := x.fl.seq } } }
/-- A package reset: what its dies, its engine, its launches and the fabric held of it is gone; host memory stays. -/
def State.resetPackage (s : State) (p : Nat) (e : Security) : State :=
  let of := fun (d : Nat) => pkgOf d == p
  let s1 := (s.onDies p Die.afterReset).updPkg p fun g =>
    { host := g.host, hview := g.hview, flushed := [], sec := e.afterReset.startRom p, arb := .reset }
  { s1 with
    nets := s.nets.filter fun n => n.launch / 2 ^ 64 != p
    recs := s.recs.filter fun r => r.pkg != p
    saves := s.saves.filter fun v => v.launch / 2 ^ 64 != p
    kids := s.kids.filter fun k => k.launch / 2 ^ 64 != p
    flits := s.flits.filter fun f => !(of f.req.die || of f.req.home || of f.pos)
    acks := s.acks.filter fun a => !(of a.1 || of a.2.die) }
/-- A mate (R426): the keys are zeroised, MATES counts, the package is reset. -/
def State.mate (s : State) (p : Nat) : State :=
  s.resetPackage p { s.sec p with tkeys := [], wiped := true, mates := min 255 ((s.sec p).mates + 1) }
/-- CHECK_ALARM of a source that has a check limit (R425). -/
def execCheckAlarm (p src : Nat) (s : State) : Out :=
  if src = 1 ∨ src = 2 ∨ src = 3 ∨ src = 5 ∨ src = 6 then .next (s.check p src) else .next s
/-- MATE_ALARM of a source that has a mate limit (R425). -/
def execMateAlarm (p src : Nat) (s : State) : Out := if 1 ≤ src ∧ src ≤ 5 then .next (s.mate p) else .next s
/-- PACKAGE_RESET. -/
def execPackageReset (p : Nat) (s : State) : Out := .next (s.resetPackage p (s.sec p))
/-- The image at HBOOT's address in host memory, as the host wrote it. -/
def State.bootImage (s : State) (p : Nat) (v : W64) : List Byte :=
  (s.pkg p).hview.read (s.pkg p).host v.toNat (Config.imageLength v)
/-- A write of HBOOT: until an image has been accepted, the image is read and checked. -/
def State.writeHboot (s : State) (p : Nat) (v : W64) : State :=
  let s1 := s.updSec p fun e => { e.startRom p with hboot := v }
  let image := s.bootImage p v
  if 2 ≤ (s1.sec p).boot then s1
  else if Config.imageValid p image then
    s1.updSec p fun e => { e.extendBy 1 (sha256 image) with boot := 2, frz := false }
  else s1.check p 6
/-- BOOT_IMAGE_LOAD. -/
def execBootImageLoad (p : Nat) (v : W64) (s : State) : Out := .next (s.writeHboot p v)
/-- The firmware's bring-up of a package: every stack line and basin page zeroed with fresh codewords, the links set to train, MR2
extended. -/
def State.bringUp (s : State) (p : Nat) : State :=
  let s1 := (s.onDies p fun y => { y with stack := .empty, basin := .empty, hview := .same }).updSec p fun e =>
    { e.extendBy 2 (sha256 (Config.bootConfig p)) with boot := 3 }
  (List.range 48).foldl (fun s i =>
    let d := 8 * p + i / 6
    if (s.port d (i % 6)).state = linkDown then s.startTraining d (i % 6) else s) s1
/-- DIE_READY: once an image is accepted; the first die of a package comes after the bring-up of all. -/
def execDieReady (d : Nat) (s : State) : Out :=
  let p := pkgOf d
  if (s.die d).hreg.ready || decide ((s.sec p).boot < 2) then .next s
  else
    let s1 := if (s.sec p).boot = 2 then s.bringUp p else s
    .next (s1.updDie d fun y => { y with hreg := { y.hreg with ready := true } })

end Sys2Proof.Machine
end

