-- ==== Sys2Proof/Machine/HostPort.lean ====
section
/-!
DEFINITION. Sys2Proof/Machine/HostPort.lean: the host's accesses (R179, R180, R365, R435), its register block (R436 to R438, R416, R442,
R443) and the debug port (R427).
-/
namespace Sys2Proof.Machine
open Sys2Proof

/-! ### The register block (R436 to R438) -/

def Die.hstat (y : Die) : W64 := BitVec.ofNat 64 (boolBit y.hreg.ready * 256 + y.hreg.stopCore % 32)
def Link.lstat (l : Link) : W64 :=
  BitVec.ofNat 64 (l.crclim % 256 * 2 ^ 24 + l.elane % 128 * 2 ^ 17 + l.lanes % 256 * 256 + l.rate % 4 * 64 + l.state % 4 * 16 + boolBit l.eyert * 8)
/-- What a read of the block of die d at an offset returns. -/
def State.barValue (s : State) (d off : Nat) : W64 :=
  let y := s.die d
  if off = 0x000 then y.hstat
  else if off = 0x008 then y.hreg.hint
  else if off = 0x010 then y.hreg.hinten
  else if 0x020 ≤ off ∧ off < 0x050 ∧ off % 8 = 0 then (s.port d ((off - 0x020) / 8)).lstat
  else if off = 0x060 then y.prof
  else if off = 0x068 then y.tele
  else if off = 0x070 ∧ d % 8 = 0 then (s.sec (pkgOf d)).hboot
  else if off = 0x100 then y.hbm.hscrub
  else if off = 0x108 then y.hbm.herr
  else if off = 0x110 then y.hbm.hela
  else if off = 0x118 then y.hbm.heye
  else 0
/-- What the read changes: the RC fields (R6, R416). -/
def State.barRead (s : State) (d off : Nat) : State :=
  if off = 0x108 then s.updDie d fun y => y.setHbm Hbm.readErrors
  else if off = 0x110 then s.updDie d fun y => y.setHbm fun h => { h with elaVal := false }
  else s
/-- LSTATp written (R438). -/
def State.writeLstat (s : State) (d p : Nat) (v : W64) : State :=
  let s1 := s.updLink d p fun l => { l with crclim := fieldOf v 31 24, eyert := bitOf v 3 }
  if bitOf v 16 && (s.port d p).state != linkTraining then s1.startTraining d p else s1
/-- A write of the block (R6, R436): every other offset ignores it. -/
def State.barWrite (s : State) (d off : Nat) (v : W64) : State :=
  if off = 0x008 then s.updDie d fun y => { y with hreg := { y.hreg with hint := w1c y.hreg.hint v 0x7F } }
  else if off = 0x010 then s.updDie d fun y => { y with hreg := { y.hreg with hinten := v &&& 0x7F } }
  else if 0x020 ≤ off ∧ off < 0x050 ∧ off % 8 = 0 then s.writeLstat d ((off - 0x020) / 8) v
  else if off = 0x060 then s.updDie d fun y => y.writeProf v
  else if off = 0x070 ∧ d % 8 = 0 then s.writeHboot (pkgOf d) v
  else if off = 0x100 then s.updDie d fun y => y.setHbm fun h => h.writeScrub v
  else if off = 0x118 then s.updDie d fun y => y.setHbm fun h => h.writeEye v
  else if off = 0x120 then s.updDie d fun y => y.setHbm fun h => h.repair v
  else s
/-- REGISTER_WRITE. -/
def execRegisterWrite (d off : Nat) (v : W64) (s : State) : Out := .next (s.barWrite d off v)

/-! ### Host accesses (R179, R180) -/

/-- Bytes written at a PA of die d under the platform key, line by line. -/
def State.writePlat (s : State) (d pa : Nat) (bs : List Byte) : State :=
  (linePieces pa bs.length).foldl (fun s l => s.writePa d (s.sec (pkgOf d)).plat l.1 ((bs.drop (l.1 - pa)).take l.2)) s
/-- Whether bytes of a window hold a queue's SEQ (R369). -/
def holdsSeq (off n : Nat) : Bool := (List.range n).any fun i => decide (off + i < 0x80000) && decide ((off + i) % 1024 < 8)
/-- A write of the host into a window: memory of host and device alike. One of a queue's SEQ releases the host's earlier writes to
the device (R359, R369; log 39). -/
def State.hostWindow (s : State) (d off : Nat) (bs : List Byte) : State :=
  let s1 := if holdsSeq off bs.length then s.takeHost (pkgOf d) else s
  s1.updDie d fun y => { (y.present windowPort off bs.length) with basin := y.basin.write 0 off bs }
/-- A host access; one to a pseudo-channel that retrains waits (R415). The device sees a write outside the windows once it is taken
in (R365). -/
def State.hostAccess (s : State) : HostAccess → State
  | .windowRead d off n => if off + n ≤ 2 ^ 20 then s.updDie d fun y => y.present windowPort off n else s
  | .windowWrite d off bs => if off + bs.length ≤ 2 ^ 20 then s.hostWindow d off bs else s
  | .stackRead d off n => if 2 ^ 36 < off + n || s.channelBusy d off n then s else s.touchPa d off n .plain
  | .stackWrite d off bs => if 2 ^ 36 < off + bs.length || s.channelBusy d off bs.length then s
      else (s.openPa d off bs.length .plain).updDie d fun y => { y with hview := y.hview.hostWrote off bs }
  | .hostWrite p a bs => if 2 ^ 48 < a + bs.length then s else s.updPkg p fun g => { g with hview := g.hview.hostWrote a bs }
  | .barRead d off => s.barRead d off
/-- HOST_CXL_ACCESS. -/
def execHostCxlAccess (acc : HostAccess) (s : State) : Out := .next (s.hostAccess acc)

/-! ### The debug port (R425, R427) -/

def portDie : DebugAccess → Nat
  | .readMemory d _ _ => d
  | .writeMemory d _ _ => d
  | .writeDebug d _ _ _ => d
  | .readK d _ _ => d
  | .requestStop d _ => d
/-- The registers the port may write (R399). -/
def portRegister (k : Nat) : Bool :=
  match kName k with
  | some .kdbgc => true
  | some .kstopc => true
  | some .kbrk0 => true
  | some .kbrk1 => true
  | some .ktrb => true
  | some .ktrp => true
  | _ => false
/-- The bit of KSDBG.MASK an access needs. -/
def portBit : DebugAccess → Nat
  | .readMemory _ _ _ => 0
  | .writeMemory _ _ _ => 1
  | .writeDebug _ _ _ _ => 2
  | .readK _ _ _ => 3
  | .requestStop _ _ => 2
def portAllowed (e : Security) (a : DebugAccess) : Bool :=
  e.life == 3 && e.mask.testBit (portBit a) && (match a with
    | .writeDebug _ _ k _ => portRegister k
    | _ => true)
/-- A register written through the port: a value its rule rejects changes nothing. -/
def State.portWrite (s : State) (d c k : Nat) (v : W64) : State :=
  match kName k with
  | none => s
  | some n =>
    match s.writeK d c n v with
    | .done t => t
    | _ => s
/-- An allowed access. A stop asked for comes at least 32 cycles later (R400). -/
def State.portAccess (s : State) : DebugAccess → State
  | .readMemory d off n => s.touchPa d off n .plain
  | .writeMemory d off bs => s.writePlat d off bs
  | .writeDebug d c k v => s.portWrite d c k v
  | .readK _ _ _ => s
  | .requestStop d c => s.updCore d c fun x => if x.ctl.run = .running then x.askStop 2 32 else x
/-- An access outside the mask or outside debug-open: a check, and a mate at the third since reset. -/
def State.portViolation (s : State) (p : Nat) : State :=
  let s1 := s.updSec p fun e => { e with ports := e.ports + 1 }
  if 3 ≤ (s1.sec p).ports then s1.mate p else s1.check p 5
/-- DEBUG_PORT_ACCESS. -/
def execDebugPortAccess (acc : DebugAccess) (s : State) : Out :=
  let p := pkgOf (portDie acc)
  if portAllowed (s.sec p) acc then .next (s.portAccess acc) else .next (s.portViolation p)

end Sys2Proof.Machine
end

