-- ==== Sys2Proof/Machine/Dispatch.lean ====
section
/-!
DEFINITION. Sys2Proof/Machine/Dispatch.lean: one arm per instruction and device step, each a call of its meaning.
-/
namespace Sys2Proof.Machine
open Sys2Proof

def exec (i : Instr) (s : State) : Host.Outcome State Fault Refusal :=
  match i with
  | .lineDelivery d c => Sys2Proof.Machine.execLineDelivery d c s
  | .resultReady d c r => Sys2Proof.Machine.execResultReady d c r s
  | .loadReturn d c n => Sys2Proof.Machine.execLoadReturn d c n s
  | .tokenCompletion d c n => Sys2Proof.Machine.execTokenCompletion d c n s
  | .add d a b => Sys2Proof.Machine.execAdd d a b s
  | .sub d a b => Sys2Proof.Machine.execSub d a b s
  | .mul d a b => Sys2Proof.Machine.execMul d a b s
  | .mulh d a b => Sys2Proof.Machine.execMulh d a b s
  | .mulhn d a b => Sys2Proof.Machine.execMulhn d a b s
  | .div d a b => Sys2Proof.Machine.execDiv d a b s
  | .divn d a b => Sys2Proof.Machine.execDivn d a b s
  | .rem d a b => Sys2Proof.Machine.execRem d a b s
  | .remn d a b => Sys2Proof.Machine.execRemn d a b s
  | .and d a b => Sys2Proof.Machine.execAnd d a b s
  | .or d a b => Sys2Proof.Machine.execOr d a b s
  | .xor d a b => Sys2Proof.Machine.execXor d a b s
  | .sll d a b => Sys2Proof.Machine.execSll d a b s
  | .srl d a b => Sys2Proof.Machine.execSrl d a b s
  | .sra d a b => Sys2Proof.Machine.execSra d a b s
  | .slt d a b => Sys2Proof.Machine.execSlt d a b s
  | .sltn d a b => Sys2Proof.Machine.execSltn d a b s
  | .min d a b => Sys2Proof.Machine.execMin d a b s
  | .minn d a b => Sys2Proof.Machine.execMinn d a b s
  | .max d a b => Sys2Proof.Machine.execMax d a b s
  | .maxn d a b => Sys2Proof.Machine.execMaxn d a b s
  | .clz d a => Sys2Proof.Machine.execClz d a s
  | .ctz d a => Sys2Proof.Machine.execCtz d a s
  | .popc d a => Sys2Proof.Machine.execPopc d a s
  | .addi d a imm => Sys2Proof.Machine.execAddi d a imm s
  | .andi d a imm => Sys2Proof.Machine.execAndi d a imm s
  | .ori d a imm => Sys2Proof.Machine.execOri d a imm s
  | .xori d a imm => Sys2Proof.Machine.execXori d a imm s
  | .slli d a sh => Sys2Proof.Machine.execSlli d a sh s
  | .srli d a sh => Sys2Proof.Machine.execSrli d a sh s
  | .srai d a sh => Sys2Proof.Machine.execSrai d a sh s
  | .slti d a imm => Sys2Proof.Machine.execSlti d a imm s
  | .sltni d a imm => Sys2Proof.Machine.execSltni d a imm s
  | .ext d a pos len => Sys2Proof.Machine.execExt d a pos len s
  | .extn d a pos len => Sys2Proof.Machine.execExtn d a pos len s
  | .ins d a pos len => Sys2Proof.Machine.execIns d a pos len s
  | .beq a b off => Sys2Proof.Machine.execBeq a b off s
  | .bne a b off => Sys2Proof.Machine.execBne a b off s
  | .blt a b off => Sys2Proof.Machine.execBlt a b off s
  | .bltn a b off => Sys2Proof.Machine.execBltn a b off s
  | .bge a b off => Sys2Proof.Machine.execBge a b off s
  | .bgen a b off => Sys2Proof.Machine.execBgen a b off s
  | .jal d off => Sys2Proof.Machine.execJal d off s
  | .callg d slot => Sys2Proof.Machine.execCallg d slot s
  | .jalr d a imm => Sys2Proof.Machine.execJalr d a imm s
  | .loop k cnt fin => Sys2Proof.Machine.execLoop k cnt fin s
  | .loopp k stages cnt fin => Sys2Proof.Machine.execLoopp k stages cnt fin s
  | .ldp d win idx => Sys2Proof.Machine.execLdp d win idx s
  | .amo op sc d a b => Sys2Proof.Machine.execAmo op sc d a b s
  | .amocas sc d a b => Sys2Proof.Machine.execAmocas sc d a b s
  | .fence kind sc => Sys2Proof.Machine.execFence kind sc s
  | .bar sc => Sys2Proof.Machine.execBar sc s
  | .tlwait tl a => Sys2Proof.Machine.execTlwait tl a s
  | .tlread tl d => Sys2Proof.Machine.execTlread tl d s
  | .tokw d a => Sys2Proof.Machine.execTokw d a s
  | .tokt d a => Sys2Proof.Machine.execTokt d a s
  | .probe a b off => Sys2Proof.Machine.execProbe a b off s
  | .launch d a => Sys2Proof.Machine.execLaunch d a s
  | .waitch d a => Sys2Proof.Machine.execWaitch d a s
  | .taskst d a => Sys2Proof.Machine.execTaskst d a s
  | .mfk d k => Sys2Proof.Machine.execMfk d k s
  | .mtk a k => Sys2Proof.Machine.execMtk a k s
  | .eret => Sys2Proof.Machine.execEret s
  | .nop => Sys2Proof.Machine.execNop s
  | .trap code => Sys2Proof.Machine.execTrap code s
  | .secreq d a b => Sys2Proof.Machine.execSecreq d a b s
  | .commit d a b => Sys2Proof.Machine.execCommit d a b s
  | .chk a b off => Sys2Proof.Machine.execChk a b off s
  | .ld w d a off => Sys2Proof.Machine.execLd w d a off s
  | .st w d a off => Sys2Proof.Machine.execSt w d a off s
  | .lah d imm => Sys2Proof.Machine.execLah d imm s
  | .lih d imm => Sys2Proof.Machine.execLih d imm s
  | .vadd d a b sp rnd => Sys2Proof.Machine.execVadd d a b sp rnd s
  | .vsub d a b sp rnd => Sys2Proof.Machine.execVsub d a b sp rnd s
  | .vmul d a b sp rnd => Sys2Proof.Machine.execVmul d a b sp rnd s
  | .vfma d a b sp rnd => Sys2Proof.Machine.execVfma d a b sp rnd s
  | .vfnma d a b sp rnd => Sys2Proof.Machine.execVfnma d a b sp rnd s
  | .vmin d a b sp rnd => Sys2Proof.Machine.execVmin d a b sp rnd s
  | .vmax d a b sp rnd => Sys2Proof.Machine.execVmax d a b sp rnd s
  | .vabs d a sp rnd => Sys2Proof.Machine.execVabs d a sp rnd s
  | .vneg d a sp rnd => Sys2Proof.Machine.execVneg d a sp rnd s
  | .vand d a b sp rnd => Sys2Proof.Machine.execVand d a b sp rnd s
  | .vor d a b sp rnd => Sys2Proof.Machine.execVor d a b sp rnd s
  | .vxor d a b sp rnd => Sys2Proof.Machine.execVxor d a b sp rnd s
  | .vnot d a sp rnd => Sys2Proof.Machine.execVnot d a sp rnd s
  | .vsll d a b sp rnd => Sys2Proof.Machine.execVsll d a b sp rnd s
  | .vsrl d a b sp rnd => Sys2Proof.Machine.execVsrl d a b sp rnd s
  | .vsra d a b sp rnd => Sys2Proof.Machine.execVsra d a b sp rnd s
  | .vcmp cond d a b sp rnd => Sys2Proof.Machine.execVcmp cond d a b sp rnd s
  | .vsel d a b x sp rnd => Sys2Proof.Machine.execVsel d a b x sp rnd s
  | .vcvt d a fmt sp rnd => Sys2Proof.Machine.execVcvt d a fmt sp rnd s
  | .vmov d a sp rnd => Sys2Proof.Machine.execVmov d a sp rnd s
  | .vsplat d x fmt sp rnd => Sys2Proof.Machine.execVsplat d x fmt sp rnd s
  | .vxtr a x k sp rnd => Sys2Proof.Machine.execVxtr a x k sp rnd s
  | .vtag d a fmt sp rnd => Sys2Proof.Machine.execVtag d a fmt sp rnd s
  | .vclr d sp rnd => Sys2Proof.Machine.execVclr d sp rnd s
  | .vcommit d a b x sp rnd => Sys2Proof.Machine.execVcommit d a b x sp rnd s
  | .vpchk d a sp rnd => Sys2Proof.Machine.execVpchk d a sp rnd s
  | .vld t a off sp rnd => Sys2Proof.Machine.execVld t a off sp rnd s
  | .vst t a off rnd => Sys2Proof.Machine.execVst t a off rnd s
  | .vlds t a off sp rnd => Sys2Proof.Machine.execVlds t a off sp rnd s
  | .vsts t a off rnd => Sys2Proof.Machine.execVsts t a off rnd s
  | .vrotr d a k sp rnd => Sys2Proof.Machine.execVrotr d a k sp rnd s
  | .vrotc d a k sp rnd => Sys2Proof.Machine.execVrotc d a k sp rnd s
  | .vbcr d a k sp rnd => Sys2Proof.Machine.execVbcr d a k sp rnd s
  | .vbcc d a k sp rnd => Sys2Proof.Machine.execVbcc d a k sp rnd s
  | .vredr op d a sp rnd => Sys2Proof.Machine.execVredr op d a sp rnd s
  | .vredc op d a sp rnd => Sys2Proof.Machine.execVredc op d a sp rnd s
  | .vscanr op d a sp rnd => Sys2Proof.Machine.execVscanr op d a sp rnd s
  | .vscanc op d a sp rnd => Sys2Proof.Machine.execVscanc op d a sp rnd s
  | .vperm d a b sp rnd => Sys2Proof.Machine.execVperm d a b sp rnd s
  | .vtrn d a sp rnd => Sys2Proof.Machine.execVtrn d a sp rnd s
  | .vexp2 d a sp rnd => Sys2Proof.Machine.execVexp2 d a sp rnd s
  | .vlog2 d a sp rnd => Sys2Proof.Machine.execVlog2 d a sp rnd s
  | .vrcp d a sp rnd => Sys2Proof.Machine.execVrcp d a sp rnd s
  | .vrsq d a sp rnd => Sys2Proof.Machine.execVrsq d a sp rnd s
  | .vtanh d a sp rnd => Sys2Proof.Machine.execVtanh d a sp rnd s
  | .vsig d a sp rnd => Sys2Proof.Machine.execVsig d a sp rnd s
  | .vrand d fmt sp => Sys2Proof.Machine.execVrand d fmt sp s
  | .vbscale d a fmt sp rnd => Sys2Proof.Machine.execVbscale d a fmt sp rnd s
  | .vqmx d a fmt sp rnd => Sys2Proof.Machine.execVqmx d a fmt sp rnd s
  | .vqlx d a fmt sp rnd => Sys2Proof.Machine.execVqlx d a fmt sp rnd s
  | .vqcb d a fmt k sp rnd => Sys2Proof.Machine.execVqcb d a fmt k sp rnd s
  | .vdq d a fmt k sp rnd => Sys2Proof.Machine.execVdq d a fmt k sp rnd s
  | .vsplit d a fmt k sp rnd => Sys2Proof.Machine.execVsplit d a fmt k sp rnd s
  | .vcbld a fmt k => Sys2Proof.Machine.execVcbld a fmt k s
  | .mmw t h cas dup rec => Sys2Proof.Machine.execMmw t h cas dup rec s
  | .mma a t h cas sw rec => Sys2Proof.Machine.execMma a t h cas sw rec s
  | .mmar a t h cls cas sw rec => Sys2Proof.Machine.execMmar a t h cls cas sw rec s
  | .task a t h rec => Sys2Proof.Machine.execTask a t h rec s
  | .tfwd a t h rec => Sys2Proof.Machine.execTfwd a t h rec s
  | .acal a b t => Sys2Proof.Machine.execAcal a b t s
  | .acfr a t => Sys2Proof.Machine.execAcfr a t s
  | .aczr a t => Sys2Proof.Machine.execAczr a t s
  | .acdr d t h cas rec => Sys2Proof.Machine.execAcdr d t h cas rec s
  | .splr t h rel rec => Sys2Proof.Machine.execSplr t h rel rec s
  | .spmv a t h cas rec => Sys2Proof.Machine.execSpmv a t h cas rec s
  | .spjn d t h rec => Sys2Proof.Machine.execSpjn d t h rec s
  | .spmg a t => Sys2Proof.Machine.execSpmg a t s
  | .spage a t => Sys2Proof.Machine.execSpage a t s
  | .sprd a b t => Sys2Proof.Machine.execSprd a b t s
  | .cp t a b hint => Sys2Proof.Machine.execCp t a b hint s
  | .cpm t a b hint follow => Sys2Proof.Machine.execCpm t a b hint follow s
  | .gath t a b hint => Sys2Proof.Machine.execGath t a b hint s
  | .scat t a b hint => Sys2Proof.Machine.execScat t a b hint s
  | .fill t a b hint rec => Sys2Proof.Machine.execFill t a b hint rec s
  | .sbind t a b hint drain rec => Sys2Proof.Machine.execSbind t a b hint drain rec s
  | .sunb t a => Sys2Proof.Machine.execSunb t a s
  | .dfl t a => Sys2Proof.Machine.execDfl t a s
  | .flush t a b => Sys2Proof.Machine.execFlush t a b s
  | .inv t a b => Sys2Proof.Machine.execInv t a b s
  | .rld t a b cls w => Sys2Proof.Machine.execRld t a b cls w s
  | .rst t a b cls w => Sys2Proof.Machine.execRst t a b cls w s
  | .ramo op t a b cls w sc => Sys2Proof.Machine.execRamo op t a b cls w sc s
  | .ramocas t a b c cls w sc => Sys2Proof.Machine.execRamocas t a b c cls w sc s
  | .rmc t a b c cls w => Sys2Proof.Machine.execRmc t a b c cls w s
  | .rtld t a b cls => Sys2Proof.Machine.execRtld t a b cls s
  | .rfence t mask => Sys2Proof.Machine.execRfence t mask s
  | .tkget t a b => Sys2Proof.Machine.execTkget t a b s
  | .tkwait t a b => Sys2Proof.Machine.execTkwait t a b s
  | .tkret t a b => Sys2Proof.Machine.execTkret t a b s
  | .rget t a b cls rec => Sys2Proof.Machine.execRget t a b cls rec s
  | .rput t a b cls rec => Sys2Proof.Machine.execRput t a b cls rec s
  | .wdpub t a b => Sys2Proof.Machine.execWdpub t a b s
  | .pbar t => Sys2Proof.Machine.execPbar t s
  | .copyGranule d e => Sys2Proof.Machine.execCopyGranule d e s
  | .spoutPrefetch d c x => Sys2Proof.Machine.execSpoutPrefetch d c x s
  | .drainWrite d c x => Sys2Proof.Machine.execDrainWrite d c x s
  | .barrierCompletion n => Sys2Proof.Machine.execBarrierCompletion n s
  | .partitionBarrierCompletion n => Sys2Proof.Machine.execPartitionBarrierCompletion n s
  | .cascadeServe d k => Sys2Proof.Machine.execCascadeServe d k s
  | .epilogueRow d k => Sys2Proof.Machine.execEpilogueRow d k s
  | .taskDeadline d n => Sys2Proof.Machine.execTaskDeadline d n s
  | .passCommit d k => Sys2Proof.Machine.execPassCommit d k s
  | .rowScatter d k => Sys2Proof.Machine.execRowScatter d k s
  | .parkedRowRescatter d k => Sys2Proof.Machine.execParkedRowRescatter d k s
  | .tfwdRowsAtPeer d n => Sys2Proof.Machine.execTfwdRowsAtPeer d n s
  | .tfwdRowsReturn d n => Sys2Proof.Machine.execTfwdRowsReturn d n s
  | .freeze d c => Sys2Proof.Machine.execFreeze d c s
  | .trapEntry d c => Sys2Proof.Machine.execTrapEntry d c s
  | .dumpedResultWrite d c n => Sys2Proof.Machine.execDumpedResultWrite d c n s
  | .preemptionRequest d c => Sys2Proof.Machine.execPreemptionRequest d c s
  | .noProgressWatchdog d c => Sys2Proof.Machine.execNoProgressWatchdog d c s
  | .kctxSave d c => Sys2Proof.Machine.execKctxSave d c s
  | .kctxRestore d c => Sys2Proof.Machine.execKctxRestore d c s
  | .kctxRelease d c => Sys2Proof.Machine.execKctxRelease d c s
  | .kctxNothing d c => Sys2Proof.Machine.execKctxNothing d c s
  | .xinvAllStage1 d c => Sys2Proof.Machine.execXinvAllStage1 d c s
  | .xinvPage d c va => Sys2Proof.Machine.execXinvPage d c va s
  | .xinvStage2 d c => Sys2Proof.Machine.execXinvStage2 d c s
  | .rangeTableLoad d c stage v => Sys2Proof.Machine.execRangeTableLoad d c stage v s
  | .cacheShareWrite d c v => Sys2Proof.Machine.execCacheShareWrite d c v s
  | .noiseModeWrite d c num v => Sys2Proof.Machine.execNoiseModeWrite d c num v s
  | .modeWrite d c v => Sys2Proof.Machine.execModeWrite d c v s
  | .activeMaskWrite d c v => Sys2Proof.Machine.execActiveMaskWrite d c v s
  | .boardWrite d c v => Sys2Proof.Machine.execBoardWrite d c v s
  | .preempt d c target => Sys2Proof.Machine.execPreempt d c target s
  | .preemptForMigration d c target => Sys2Proof.Machine.execPreemptForMigration d c target s
  | .recall d c target => Sys2Proof.Machine.execRecall d c target s
  | .lendWrite d c v => Sys2Proof.Machine.execLendWrite d c v s
  | .traceBufferWrite d c v => Sys2Proof.Machine.execTraceBufferWrite d c v s
  | .registerWrite d off v => Sys2Proof.Machine.execRegisterWrite d off v s
  | .frameBoundary d => Sys2Proof.Machine.execFrameBoundary d s
  | .slotBoundary d => Sys2Proof.Machine.execSlotBoundary d s
  | .splitUnitServe d => Sys2Proof.Machine.execSplitUnitServe d s
  | .rillRowMultiply d r => Sys2Proof.Machine.execRillRowMultiply d r s
  | .flitHop n => Sys2Proof.Machine.execFlitHop n s
  | .flitCrcRetry n => Sys2Proof.Machine.execFlitCrcRetry n s
  | .remoteRequestPerform n => Sys2Proof.Machine.execRemoteRequestPerform n s
  | .remoteResponse n => Sys2Proof.Machine.execRemoteResponse n s
  | .linkTrainingRound d p offer => Sys2Proof.Machine.execLinkTrainingRound d p offer s
  | .linkRetrainRequest d p => Sys2Proof.Machine.execLinkRetrainRequest d p s
  | .linkEyeEvent d p lane => Sys2Proof.Machine.execLinkEyeEvent d p lane s
  | .skewMeasure d p => Sys2Proof.Machine.execSkewMeasure d p s
  | .launchTake p => Sys2Proof.Machine.execLaunchTake p s
  | .unitPlacement d => Sys2Proof.Machine.execUnitPlacement d s
  | .launchEnd n => Sys2Proof.Machine.execLaunchEnd n s
  | .debugStop d c => Sys2Proof.Machine.execDebugStop d c s
  | .scrubVisit d => Sys2Proof.Machine.execScrubVisit d s
  | .rowClose d n => Sys2Proof.Machine.execRowClose d n s
  | .hbmEyeEvent d lane => Sys2Proof.Machine.execHbmEyeEvent d lane s
  | .laneRepair d v => Sys2Proof.Machine.execLaneRepair d v s
  | .spareLaneRetrainDone d pc => Sys2Proof.Machine.execSpareLaneRetrainDone d pc s
  | .errorCountsRead d => Sys2Proof.Machine.execErrorCountsRead d s
  | .extend p => Sys2Proof.Machine.execExtend p s
  | .quote p => Sys2Proof.Machine.execQuote p s
  | .readmr p => Sys2Proof.Machine.execReadmr p s
  | .tkey p => Sys2Proof.Machine.execTkey p s
  | .tkdel p => Sys2Proof.Machine.execTkdel p s
  | .nonce p => Sys2Proof.Machine.execNonce p s
  | .unlock p => Sys2Proof.Machine.execUnlock p s
  | .checkAlarm p src => Sys2Proof.Machine.execCheckAlarm p src s
  | .mateAlarm p src => Sys2Proof.Machine.execMateAlarm p src s
  | .packageReset p => Sys2Proof.Machine.execPackageReset p s
  | .bootImageLoad p v => Sys2Proof.Machine.execBootImageLoad p v s
  | .dieReady d => Sys2Proof.Machine.execDieReady d s
  | .thermalThrottle d => Sys2Proof.Machine.execThermalThrottle d s
  | .thermalRecovery d => Sys2Proof.Machine.execThermalRecovery d s
  | .profileWrite d v => Sys2Proof.Machine.execProfileWrite d v s
  | .telemetryUpdate d power current tj => Sys2Proof.Machine.execTelemetryUpdate d power current tj s
  | .hostCxlAccess acc => Sys2Proof.Machine.execHostCxlAccess acc s
  | .debugPortAccess acc => Sys2Proof.Machine.execDebugPortAccess acc s
  | .amoOldValueReturn d c n => Sys2Proof.Machine.execAmoOldValueReturn d c n s
  | .storePerformedAtHome d c n => Sys2Proof.Machine.execStorePerformedAtHome d c n s
  | .responseAcknowledgement n => Sys2Proof.Machine.execResponseAcknowledgement n s

end Sys2Proof.Machine
end

