-- ==== Sys2Proof/Machine/Turn.lean ====
section
/-!
DEFINITION. Sys2Proof/Machine/Turn.lean: what `step` adds around a meaning (log 2): the next turn, the passing of a
cycle, the device steps that happen of themselves, and the placing of one group for the host's question (log 5).
-/
namespace Sys2Proof.Machine
open Sys2Proof

/-- The next turn: the head of the schedule, else a free choice; the state with it taken. -/
def nextTurn (s : State) : Turn × State :=
  match s.sched with
  | t :: rest => (t, { s with sched := rest, steps := s.steps + 1 })
  | [] => (Config.nextTurn s.steps, { s with steps := s.steps + 1 })

/-- The rows of a V result come a cycle nearer; one whose rows are all due is written (R135, R270). -/
def VRes.pass (v : VRes) : VRes := { v with rows := v.rows.map (· - 1) }
/-- A cycle of one core (R5, R108, R135, R270, R272, R384, R400): results come a cycle nearer, pending stops too; KSCYC counts
while the context runs and is neither held nor saved (R268). A stop that falls on the edge at the cycle's end comes before the
cycle counts: the cycle runs again at the resume, which KSCYC counts from c (R271). -/
def Core.passCycle (x : Core) : Core :=
  match x.edgeStop with
  | some r => x.stopNow r
  | none =>
    let counts := x.ctl.run == .running && !x.ctl.frozen && !x.stopDue && x.holds
    let waiting := (x.slot .c).isSome || !x.q.all.isEmpty
    { x with
      k := if counts then { x.k with kscyc := x.k.kscyc + 1 } else x.k
      fl := { x.fl with results := x.fl.results.map fun r => { r with cycles := r.cycles - 1 }
                        dumped := if counts then x.fl.dumped.map fun r => { r with cycles := r.cycles - 1 } else x.fl.dumped
                        vdumped := if counts then x.fl.vdumped.map fun v => { v with rows := v.rows.map (· - 1) } else x.fl.vdumped
                        vres := (x.fl.vres.map VRes.pass).filter VRes.late }
      ctl := { x.ctl with noProg := if counts && waiting then x.ctl.noProg + 1 else 0
                          stops := x.ctl.stops.map fun r => { r with wait := r.wait - 1 } } }

/-- The requester a bank group grants among those present: the first after the one it granted last, round again (R168). -/
def grantOf (last : Nat) (qs : List Nat) : Option Nat :=
  let low := fun (l : List Nat) => l.foldl (fun (m : Option Nat) q => some (m.elim q (min q))) none
  (low (qs.filter fun q => decide (last < q))).or (low qs)
/-- One cycle of bank group g (R168, R404): one of the accesses presented is granted; every other requester present is not, and
presents its own again. -/
def Trace.grantGroup (t : Trace) (g : Nat) : Trace :=
  let qs := ((t.asks.filter fun a => a.2 == g).map (·.1)).eraseDups
  match grantOf ((t.grants[g]?).getD 63) qs with
  | none => t
  | some q => { t with
      asks := t.asks.erase (q, g)
      grants := t.grants.set g q
      matrix := (qs.filter (· != q)).foldl (fun m r => assocSet m (64 * r + g) ((assocGet m (64 * r + g) + 1) % 2 ^ 32)) t.matrix }
/-- The accesses presented to the basin's bank groups in one cycle. -/
def Die.passGrants (y : Die) : Die :=
  let t := (List.range 64).foldl Trace.grantGroup y.trace
  { y with trace := { t with snapAge := t.snapAge + 1 } }
/-- A boundary of the board that is due on a die comes before the cycle ends (R392, R393). -/
def State.dueBoundary (s : State) (d : Nat) : State :=
  match execFrameBoundary d s with
  | .next t => match execSlotBoundary d t with
    | .next u => u
    | _ => t
  | _ => s
/-- The passes that are due on a die are committed, in ascending cascade number, before the cycle ends (R290). -/
def State.duePasses (s : State) (d : Nat) : State :=
  (List.range 4).foldl (fun s k =>
    match (s.die d).passFor k with
    | none => s
    | some (l, pos) => s.commitPass d k l pos) s
/-- Follow-ons that waited for a table are tried again (R307). -/
def State.handAgain (s : State) (d : Nat) : State :=
  (List.range (s.die d).cores.length).foldl (fun s c =>
    if (s.core d c).fl.cmds.any fun k => k.unchecked.isSome then s.handOverAll d c else s) s
/-- A cycle of a clock of a die passes: of the core island, of the cascade island, or a tick of the reference. -/
def State.passCycle (s : State) (d : Nat) : Clock → State
  | .core => ((s.handAgain d).flushTrace d).updDie d fun y => Die.passGrants { y with
      cores := y.cores.map Core.passCycle
      hbm := { y.hbm with rows := y.hbm.rows.map fun r => { r with idle := r.idle + 1 } } }
  | .cascade => ((s.dueBoundary d).duePasses d).updDie d fun y => { y with seqr := { y.seqr with cyc := y.seqr.cyc + 1 } }
  | .ref => s.updDie d fun y => { y with kfrc := (y.kfrc + 1) % 2 ^ 64 }

/-- The device steps that happen of themselves; the others come about only as the `mtk` of a core (R265) or not as a
step at all. -/
def deviceStep : Instr → Bool
  | .lineDelivery _ _ => true
  | .resultReady _ _ _ => true
  | .loadReturn _ _ _ => true
  | .tokenCompletion _ _ _ => true
  | .copyGranule _ _ => true
  | .spoutPrefetch _ _ _ => true
  | .drainWrite _ _ _ => true
  | .barrierCompletion _ => true
  | .partitionBarrierCompletion _ => true
  | .cascadeServe _ _ => true
  | .epilogueRow _ _ => true
  | .taskDeadline _ _ => true
  | .passCommit _ _ => true
  | .rowScatter _ _ => true
  | .parkedRowRescatter _ _ => true
  | .tfwdRowsAtPeer _ _ => true
  | .tfwdRowsReturn _ _ => true
  | .freeze _ _ => true
  | .trapEntry _ _ => true
  | .dumpedResultWrite _ _ _ => true
  | .preemptionRequest _ _ => true
  | .noProgressWatchdog _ _ => true
  | .registerWrite _ _ _ => true
  | .frameBoundary _ => true
  | .slotBoundary _ => true
  | .splitUnitServe _ => true
  | .rillRowMultiply _ _ => true
  | .flitHop _ => true
  | .flitCrcRetry _ => true
  | .remoteRequestPerform _ => true
  | .remoteResponse _ => true
  | .linkTrainingRound _ _ _ => true
  | .linkRetrainRequest _ _ => true
  | .linkEyeEvent _ _ _ => true
  | .skewMeasure _ _ => true
  | .launchTake _ => true
  | .unitPlacement _ => true
  | .launchEnd _ => true
  | .debugStop _ _ => true
  | .scrubVisit _ => true
  | .rowClose _ _ => true
  | .hbmEyeEvent _ _ => true
  | .laneRepair _ _ => true
  | .spareLaneRetrainDone _ _ => true
  | .errorCountsRead _ => true
  | .extend _ => true
  | .quote _ => true
  | .readmr _ => true
  | .tkey _ => true
  | .tkdel _ => true
  | .nonce _ => true
  | .unlock _ => true
  | .checkAlarm _ _ => true
  | .mateAlarm _ _ => true
  | .packageReset _ => true
  | .bootImageLoad _ _ => true
  | .dieReady _ => true
  | .thermalThrottle _ => true
  | .thermalRecovery _ => true
  | .profileWrite _ _ => true
  | .telemetryUpdate _ _ _ _ => true
  | .hostCxlAccess _ => true
  | .debugPortAccess _ => true
  | .amoOldValueReturn _ _ _ => true
  | .storePerformedAtHome _ _ _ => true
  | .responseAcknowledgement _ => true
  | _ => false

/-- Whether the die and core a device step names are there. -/
def unitsPresent (s : State) : Instr → Bool
  | .lineDelivery d c => s.hasCore d c
  | .resultReady d c _ => s.hasCore d c
  | .loadReturn d c _ => s.hasCore d c
  | .tokenCompletion d c _ => s.hasCore d c
  | .copyGranule d _ => s.hasDie d
  | .spoutPrefetch d c _ => s.hasCore d c
  | .drainWrite d c _ => s.hasCore d c
  | .cascadeServe d _ => s.hasDie d
  | .epilogueRow d _ => s.hasDie d
  | .taskDeadline d _ => s.hasDie d
  | .passCommit d _ => s.hasDie d
  | .rowScatter d _ => s.hasDie d
  | .parkedRowRescatter d _ => s.hasDie d
  | .tfwdRowsAtPeer d _ => s.hasDie d
  | .tfwdRowsReturn d _ => s.hasDie d
  | .freeze d c => s.hasCore d c
  | .trapEntry d c => s.hasCore d c
  | .dumpedResultWrite d c _ => s.hasCore d c
  | .preemptionRequest d c => s.hasCore d c
  | .noProgressWatchdog d c => s.hasCore d c
  | .kctxSave d c => s.hasCore d c
  | .kctxRestore d c => s.hasCore d c
  | .kctxRelease d c => s.hasCore d c
  | .kctxNothing d c => s.hasCore d c
  | .xinvAllStage1 d c => s.hasCore d c
  | .xinvPage d c _ => s.hasCore d c
  | .xinvStage2 d c => s.hasCore d c
  | .rangeTableLoad d c _ _ => s.hasCore d c
  | .cacheShareWrite d c _ => s.hasCore d c
  | .noiseModeWrite d c _ _ => s.hasCore d c
  | .modeWrite d c _ => s.hasCore d c
  | .activeMaskWrite d c _ => s.hasCore d c
  | .boardWrite d c _ => s.hasCore d c
  | .preempt d c _ => s.hasCore d c
  | .preemptForMigration d c _ => s.hasCore d c
  | .recall d c _ => s.hasCore d c
  | .lendWrite d c _ => s.hasCore d c
  | .traceBufferWrite d c _ => s.hasCore d c
  | .registerWrite d _ _ => s.hasDie d
  | .frameBoundary d => s.hasDie d
  | .slotBoundary d => s.hasDie d
  | .splitUnitServe d => s.hasDie d
  | .rillRowMultiply d _ => s.hasDie d
  | .linkTrainingRound d _ _ => s.hasDie d
  | .linkRetrainRequest d _ => s.hasDie d
  | .linkEyeEvent d _ _ => s.hasDie d
  | .skewMeasure d _ => s.hasDie d
  | .unitPlacement d => s.hasDie d
  | .debugStop d c => s.hasCore d c
  | .scrubVisit d => s.hasDie d
  | .rowClose d _ => s.hasDie d
  | .hbmEyeEvent d _ => s.hasDie d
  | .laneRepair d _ => s.hasDie d
  | .spareLaneRetrainDone d _ => s.hasDie d
  | .errorCountsRead d => s.hasDie d
  | .dieReady d => s.hasDie d
  | .thermalThrottle d => s.hasDie d
  | .thermalRecovery d => s.hasDie d
  | .profileWrite d _ => s.hasDie d
  | .telemetryUpdate d _ _ _ => s.hasDie d
  | .amoOldValueReturn d c _ => s.hasCore d c
  | .storePerformedAtHome d c _ => s.hasCore d c
  | _ => true

/-- One group placed at the head of an engine of core 0 of die 0 (log 5): the C lane of a line whose header tags lane 1
as C, or the head of a queue. The core runs, with that engine's turn next. -/
def placeGroup (s : State) (e : Engine) (w : Nat) (cs : List Nat) : State :=
  let s1 := s.updCore 0 0 fun x =>
    let x1 := x.setCtl fun t => { t with run := .running, frozen := false, hold := none }
    match e with
    | .c => x1.setCtl fun t => { t with line := some ⟨0, [1, w, 0, 0, 0, 0, 0, 0], 1, 0, .undecided, 0, t.rank, none⟩ }
    | _ => x1.setQ fun q => q.set e (⟨x.ctl.rank + 1, 0, ⟨1, e, w, [], cs⟩, none, x.k.kmode, none, 0, []⟩ :: q.get e)
  { s1 with sched := [.core 0 0 e] }

end Sys2Proof.Machine
end

