-- ==== Sys2Proof/Machine/Step.lean ====
section
/-!
DEFINITION. Sys2Proof/Machine/Step.lean: one step of the machine, and where the next instruction is placed for the
host's question about one table row.
-/
namespace Sys2Proof.Machine
open Sys2Proof

/-- One step: the next turn is taken (log 2). A cycle of a die passes; or an engine of a core issues the group at its
head, which runs as `exec` says; or a device step happens as `exec` says. -/
def step (s : State) : Host.Outcome State Fault Refusal :=
  match (nextTurn s).1 with
  | .cycle d k => if s.hasDie d then .next ((nextTurn s).2.passCycle d k) else .fault .unitAbsent
  | .core d c e =>
    if s.hasCore d c then
      match (nextTurn s).2.fetchGroup d c e with
      | .nothing t => .next t
      | .faulted o => o
      | .instr i t => exec i t
    else .fault .unitAbsent
  | .event i => if unitsPresent s i then (if deviceStep i then exec i (nextTurn s).2 else .fault .notADeviceStep) else .fault .unitAbsent

/-- The state with a table word placed where the next step fetches it (log 5): core 0 of die 0 runs at its level of reset,
and the group that holds the word, in the engine whose decoder takes it, with the zero continuation words it needs, stands at
the head of that engine, whose turn comes next. -/
def State.withFetchWord (s : State) (nbits w : Nat) : State :=
  match firstDecoded tableCandidates (w % 2 ^ nbits % 2 ^ 32) with
  | none => s
  | some r => placeGroup s r.1 (w % 2 ^ nbits % 2 ^ 32) r.2.1

end Sys2Proof.Machine
end

