-- ==== Sys2Proof/Safety.lean ====
section
/-!
DEFINITION. Sys2Proof/Safety.lean: what a safe run is, and the terms the statements use: tables of what the rules say an
instruction computes, and the conditions under which it goes ahead.
-/
namespace Sys2Proof.Safety
open Sys2Proof Sys2Proof.Machine

/-! ### Runs -/

/-- A step that ends in a next state. -/
def Advances (s : State) : Prop := ∃ t, step s = .next t

/-- A run of n steps that meets no fault and no refusal. -/
def Safe : Nat → State → Prop
  | 0, _ => True
  | n + 1, s => ∃ t, step s = .next t ∧ Safe n t

/-! ### Shape and canonical form -/

/-- The shape of the machine: eight dies to a package, 32 cores to a die, 64 scalar and 64 tile registers to a core
(R9, R12, R98, R128). -/
def Shaped (s : State) : Prop :=
  s.dies.length = 8 * s.pkgs.length ∧
  ∀ y ∈ s.dies, y.cores.length = 32 ∧ ∀ x ∈ y.cores, x.regs.length = 64 ∧ x.tiles.length = 64

/-- Every memory of the machine in its canonical form (log 3). -/
def Canonical (s : State) : Prop :=
  (∀ y ∈ s.dies, y.stack.bytes.wf = true ∧ y.basin.bytes.wf = true) ∧ ∀ g ∈ s.pkgs, g.host.wf = true

/-- Every byte a scalar access of any key can read on any die, and every line mark, is as before. -/
def SameMemory (s t : State) : Prop := ∀ e k a n, t.readPa e k a n = s.readPa e k a n

/-! ### What the integer instructions compute (R107, R109, R110), in integers -/

def leadingZeros (a : W64) : Nat := ((List.range 64).takeWhile fun k => !a.getLsbD (63 - k)).length
def trailingZeros (a : W64) : Nat := ((List.range 64).takeWhile fun k => !a.getLsbD k).length
def onesCount (a : W64) : Nat := ((List.range 64).filter a.getLsbD).length
/-- A truth value as a register holds it. -/
def flag (p : Prop) [Decidable p] : W64 := if p then 1 else 0

/-- A register form: opcode, instruction, result, latency. -/
structure RegForm where
  op     : Nat
  instr  : Nat → Nat → Nat → Instr
  value  : W64 → W64 → W64
  cycles : Nat

/-- The two-source register forms (R107) with their latencies (R108). -/
def regForms : List RegForm :=
  [⟨0x01, .add, fun a b => BitVec.ofNat 64 (a.toNat + b.toNat), 1⟩,
   ⟨0x02, .sub, fun a b => BitVec.ofInt 64 ((a.toNat : Int) - b.toNat), 1⟩,
   ⟨0x03, .mul, fun a b => BitVec.ofNat 64 (a.toNat * b.toNat), 3⟩,
   ⟨0x04, .mulh, fun a b => BitVec.ofInt 64 (a.toInt * b.toInt / 2 ^ 64), 3⟩,
   ⟨0x05, .mulhn, fun a b => BitVec.ofNat 64 (a.toNat * b.toNat / 2 ^ 64), 3⟩,
   ⟨0x06, .div, fun a b => if b = 0 then BitVec.allOnes 64 else BitVec.ofInt 64 (a.toInt.tdiv b.toInt), 34⟩,
   ⟨0x07, .divn, fun a b => if b = 0 then BitVec.allOnes 64 else BitVec.ofNat 64 (a.toNat / b.toNat), 34⟩,
   ⟨0x08, .rem, fun a b => if b = 0 then a else BitVec.ofInt 64 (a.toInt.tmod b.toInt), 34⟩,
   ⟨0x09, .remn, fun a b => if b = 0 then a else BitVec.ofNat 64 (a.toNat % b.toNat), 34⟩,
   ⟨0x0A, .and, fun a b => a &&& b, 1⟩,
   ⟨0x0B, .or, fun a b => a ||| b, 1⟩,
   ⟨0x0C, .xor, fun a b => a ^^^ b, 1⟩,
   ⟨0x0D, .sll, fun a b => BitVec.ofNat 64 (a.toNat * 2 ^ (b.toNat % 64)), 1⟩,
   ⟨0x0E, .srl, fun a b => BitVec.ofNat 64 (a.toNat / 2 ^ (b.toNat % 64)), 1⟩,
   ⟨0x0F, .sra, fun a b => BitVec.ofInt 64 (a.toInt / 2 ^ (b.toNat % 64)), 1⟩,
   ⟨0x10, .slt, fun a b => flag (a.toInt < b.toInt), 1⟩,
   ⟨0x11, .sltn, fun a b => flag (a.toNat < b.toNat), 1⟩,
   ⟨0x12, .min, fun a b => BitVec.ofInt 64 (min a.toInt b.toInt), 1⟩,
   ⟨0x13, .minn, fun a b => BitVec.ofNat 64 (min a.toNat b.toNat), 1⟩,
   ⟨0x14, .max, fun a b => BitVec.ofInt 64 (max a.toInt b.toInt), 1⟩,
   ⟨0x15, .maxn, fun a b => BitVec.ofNat 64 (max a.toNat b.toNat), 1⟩]

/-- The one-source register forms (R107): opcode, instruction, result. -/
def oneForms : List (Nat × (Nat → Nat → Instr) × (W64 → Nat)) :=
  [(0x16, .clz, leadingZeros), (0x17, .ctz, trailingZeros), (0x18, .popc, onesCount)]

/-- The immediate forms with a signed immediate (R109): opcode, instruction, result. -/
def immForms : List (Nat × (Nat → Nat → Int → Instr) × (W64 → Int → W64)) :=
  [(0x19, .addi, fun a i => BitVec.ofInt 64 (a.toInt + i)),
   (0x1A, .andi, fun a i => a &&& BitVec.ofInt 64 i),
   (0x1B, .ori, fun a i => a ||| BitVec.ofInt 64 i),
   (0x1C, .xori, fun a i => a ^^^ BitVec.ofInt 64 i),
   (0x20, .slti, fun a i => flag (a.toInt < i)),
   (0x21, .sltni, fun a i => flag (a.toNat < (BitVec.ofInt 64 i).toNat))]

/-- The immediate shifts (R109): opcode, instruction, result. -/
def shiftForms : List (Nat × (Nat → Nat → Nat → Instr) × (W64 → Nat → W64)) :=
  [(0x1D, .slli, fun a n => BitVec.ofNat 64 (a.toNat * 2 ^ n)),
   (0x1E, .srli, fun a n => BitVec.ofNat 64 (a.toNat / 2 ^ n)),
   (0x1F, .srai, fun a n => BitVec.ofInt 64 (a.toInt / 2 ^ n))]

/-- The branches (R112): opcode, instruction, condition. -/
def branchForms : List (Nat × (Nat → Nat → Int → Instr) × (W64 → W64 → Bool)) :=
  [(0x25, .beq, fun a b => decide (a.toNat = b.toNat)),
   (0x26, .bne, fun a b => decide (a.toNat ≠ b.toNat)),
   (0x27, .blt, fun a b => decide (a.toInt < b.toInt)),
   (0x28, .bltn, fun a b => decide (a.toNat < b.toNat)),
   (0x29, .bge, fun a b => decide (b.toInt ≤ a.toInt)),
   (0x2A, .bgen, fun a b => decide (b.toNat ≤ a.toNat))]

/-! ### How a C lane ends -/

/-- The word of form CR (R35). -/
def wordCr (op d a b : Nat) : Nat := op * 2 ^ 25 + d * 2 ^ 19 + a * 2 ^ 13 + b * 2 ^ 7
/-- The word of forms CI and CB (R35): the last field is the immediate modulo 2^13. -/
def wordCi (op d a : Nat) (i : Int) : Nat := op * 2 ^ 25 + d * 2 ^ 19 + a * 2 ^ 13 + (i % 2 ^ 13).toNat

/-- No register of a list stalls the lane in focus (R99, R262). -/
def Ready (s : State) (rs : List Nat) : Prop := ∀ r ∈ rs, s.me.stalls r = false
/-- The lane in focus has issued with v (and its poison) written to s[d]. -/
def wrote (s : State) (d : Nat) (v : W64) (p : Bool) : State := (s.updMe fun x => x.write d v p).issued
/-- The lane in focus has issued with s[d] pending for a result n cycles away (R100, R108); a discarded result has none. -/
def wroteLater (s : State) (d : Nat) (v : W64) (p : Bool) (n : Nat) : State :=
  if d = 0 ∨ s.me.heldPending d = true then s.issued
  else (s.updMe fun x =>
    { x.updReg d (fun g => { g with pend := true }) with fl := { x.fl with results := x.fl.results ++ [⟨d, v, p, n⟩] } }).issued
/-- The lane in focus has issued with its line's decision taken (R114). -/
def decided (s : State) (dec : Decision) : State := (s.updMe fun x => x.setDec dec).issued
/-- An encoding that its engine refuses when it issues (R30): whatever core meets it takes the illegal-instruction fault. -/
def IllegalAtIssue (e : Engine) (w : Nat) (cs : List Nat) : Prop :=
  ∀ (s : State) (d c : Nat) (p : Slot), (s.core d c).ctl.run = .running → (s.core d c).slot e = some p →
    p.grp.engine = e → p.grp.word = w → p.grp.conts = cs → s.fetchGroup d c e = .faulted (s.aim p d c 1).illegal

/-! ### Scalar memory accesses (R115, R207 to R209) -/

def loadSize : LdWidth → Nat
  | .n8 => 1
  | .n16 => 2
  | .n32 => 4
  | .d64 => 8
  | .i8 => 1
  | .i16 => 2
  | .i32 => 4
def storeSize : StWidth → Nat
  | .n8 => 1
  | .n16 => 2
  | .n32 => 4
  | .d64 => 8
/-- What a load of a width makes of the little-endian value it read (R115). -/
def loaded (w : LdWidth) (v : Nat) : W64 :=
  match w with
  | .n8 => BitVec.ofNat 64 (v % 2 ^ 8)
  | .n16 => BitVec.ofNat 64 (v % 2 ^ 16)
  | .n32 => BitVec.ofNat 64 (v % 2 ^ 32)
  | .d64 => BitVec.ofNat 64 v
  | .i8 => (BitVec.ofNat 8 v).signExtend 64
  | .i16 => (BitVec.ofNat 16 v).signExtend 64
  | .i32 => (BitVec.ofNat 32 v).signExtend 64

/-- A scalar access: registers that must not be pending, registers that must not be poisoned, address, size, kind. -/
structure Access where
  regs : List Nat
  used : List Nat
  va   : W64
  size : Nat
  acc  : Acc
/-- The scalar access an instruction makes (R115, R207 to R209); none for a scope these do not have. -/
def accessOf (x : Core) : Instr → Option Access
  | .ld w d a off => some ⟨[d, a], [a], x.val a + BitVec.ofInt 64 off, loadSize w, .read⟩
  | .st w d a off => some ⟨[d, a], [d, a], x.val a + BitVec.ofInt 64 off, storeSize w, .write⟩
  | .amo _ sc d a b => if sc = .lane then none else some ⟨[d, a, b], [a, b], x.val a, 8, .atomic⟩
  | .amocas sc d a b => if sc = .lane then none else some ⟨[d, a, b], [d, a, b], x.val a, 8, .atomic⟩
  | _ => none
/-- Nothing at the lane stands in the way of a scalar access (R99, R105, R115, R171): its registers, its address. -/
def AccessOk (s : State) (k : Access) : Prop :=
  Ready s k.regs ∧ (∀ r ∈ k.used, s.me.poisoned r = false) ∧ k.va.toNat < 2 ^ 56 - 2 ^ 28 ∧ k.va.toNat % k.size = 0
/-- No release fence before an access holds it back, if it is an atomic (R206). -/
def NotFenced (s : State) (acc : Acc) : Prop := acc = .atomic → s.fenceHolds s.cur.die s.cur.core s.me.fl.seq = false
/-- A physical address leads to a byte of a unit that is there (R246). -/
def Leads (s : State) (d pa : Nat) : Prop :=
  match paPlace d pa with
  | .stack _ => s.hasDie d = true
  | .window w _ => s.hasDie w = true
  | .host _ => pkgOf d < s.pkgs.length
  | .unreachable => False
/-- A scalar read has issued (R116): s[d] is pending (but for one pending at a hold, whose result is discarded). -/
def sentRead (s : State) (kind : LoadKind) (d pa : Nat) : State :=
  (s.updMe fun x => { x.pendReg d with
    fl := { x.fl with loads := x.fl.loads ++ [⟨kind, if s.me.heldPending d then 0 else d, pa, x.fl.seq⟩] } }).issued
/-- The new value of an atomic (R207), in integers. -/
def atomicValue (op : AtomicOp) (old b : W64) : W64 :=
  match op with
  | .add => BitVec.ofNat 64 (old.toNat + b.toNat)
  | .and => old &&& b
  | .or => old ||| b
  | .xor => old ^^^ b
  | .min => BitVec.ofInt 64 (min old.toInt b.toInt)
  | .minn => BitVec.ofNat 64 (min old.toNat b.toNat)
  | .max => BitVec.ofInt 64 (max old.toInt b.toInt)
  | .maxn => BitVec.ofNat 64 (max old.toNat b.toNat)
  | .swap => b

/-! ### K registers (R266) -/

/-- A run of K register numbers: first, last, the level a read needs and the level a write needs (0 A, 1 S, 2 H). -/
def kLevels : List (Nat × Nat × Nat × Nat) :=
  [(0x000, 0x008, 1, 1), (0x010, 0x016, 0, 0), (0x020, 0x029, 0, 0), (0x030, 0x030, 0, 1), (0x031, 0x031, 0, 0),
   (0x032, 0x034, 0, 1), (0x035, 0x035, 0, 0), (0x036, 0x038, 0, 0), (0x040, 0x041, 1, 1), (0x042, 0x046, 2, 2),
   (0x047, 0x047, 1, 1), (0x050, 0x051, 1, 1)]
/-- A K register that an `mtk` sets as R6 says: number, register, RW bits, W1C bits, the values its rule accepts, whether a write
waits for the context's groups and commands (Q of R266). -/
structure PlainK where
  num : Nat
  reg : KName
  rw  : Nat
  w1  : Nat
  ok  : Nat → Prop
  q   : Bool
/-- Bits hi to lo of a value. -/
def part (v hi lo : Nat) : Nat := v / 2 ^ lo % 2 ^ (hi + 1 - lo)
def span (hi lo : Nat) : Nat := 2 ^ (hi + 1) - 2 ^ lo
/-- The trap, status and mode registers (R86, R87, R118, R231, R267, R268). -/
def plainK0 : List PlainK :=
  [⟨0x001, .kepc, span 55 2, 0, fun v => part v 4 2 ≠ 0, false⟩, ⟨0x005, .kpriv, 7, 0, fun v => v % 4 ≠ 3, false⟩,
   ⟨0x006, .ktvec, span 55 5, 0, fun _ => True, false⟩, ⟨0x007, .kscr0, span 63 0, 0, fun _ => True, false⟩,
   ⟨0x008, .kscr1, span 63 0, 0, fun _ => True, false⟩, ⟨0x010, .kmode, 0x1F, 0, fun v => 1 ≤ v % 8 ∧ v % 8 ≤ 5, false⟩,
   ⟨0x012, .kcstat, 0, 1, fun _ => True, false⟩, ⟨0x013, .kmstat, 0, 7, fun _ => True, false⟩,
   ⟨0x051, .ksave, 0xFFF, 0, fun _ => True, false⟩]
/-- The Q registers without a row of their own (R113, R169, R214, R240, R268). -/
def plainK1 : List PlainK :=
  [⟨0x030, .kgot, span 63 3, 0, fun _ => True, true⟩,
   ⟨0x032, .kbasin, span 44 32 + span 11 0, 0, fun v => part v 44 32 = 0 ∨ (16 ≤ part v 11 0 ∧ part v 11 0 + part v 44 32 ≤ 4096), true⟩,
   ⟨0x034, .ksemb, span 55 9, 0, fun _ => True, true⟩, ⟨0x035, .kdtab, span 63 59 + span 55 6, 0, fun v => part v 63 59 ≤ 20, true⟩,
   ⟨0x041, .kptroot, span 55 12 + span 5 0, 0, fun v => part v 5 1 ≤ 17, true⟩,
   ⟨0x043, .ks2root, span 55 12 + span 5 0, 0, fun v => part v 5 1 ≤ 17, true⟩,
   ⟨0x044, .kdirty, span 55 12 + span 6 0, 0, fun v => part v 6 1 ≤ 44, true⟩,
   ⟨0x045, .ktoff, span 63 0, 0, fun _ => True, true⟩, ⟨0x046, .kpmap, span 55 13 + span 11 0, 0, fun _ => True, true⟩]
/-- The debug registers of a context (R399). -/
def plainK2 : List PlainK :=
  [⟨0x060, .kdbgc, span 7 6 + span 3 0, 0, fun _ => True, false⟩, ⟨0x061, .kstopc, span 63 0, 0, fun _ => True, false⟩,
   ⟨0x062, .kbrk0, span 55 5, 0, fun _ => True, false⟩, ⟨0x063, .kbrk1, span 55 5, 0, fun _ => True, false⟩,
   ⟨0x066, .kcmsel, 0xFFF, 0, fun _ => True, false⟩]
def plainK : List PlainK := plainK0 ++ plainK1 ++ plainK2
/-- The K registers whose writes are rows of their own (R165, R175, R240, R251, R268, R374, R390, R394, R395, R399), with KVSTAT,
KTRP and KSALARM. -/
def rowK : List (Nat × KName) :=
  [(0x011, .kvstat), (0x014, .knoise), (0x015, .knlogb), (0x016, .knlogp), (0x033, .kbcache), (0x040, .krtab), (0x042, .ks2rtab),
   (0x047, .kxinv), (0x050, .kctx), (0x064, .ktrb), (0x065, .ktrp), (0x072, .kboard), (0x073, .kpreempt), (0x074, .klend),
   (0x075, .kamask), (0x085, .ksalarm)]
/-- A register after a write of v: RW bits from v, W1C bits cleared where v has a one, the rest kept (R6). -/
def afterWrite (old v : W64) (rw w1 : Nat) : W64 :=
  (old &&& ~~~ (v &&& BitVec.ofNat 64 w1) &&& ~~~ (BitVec.ofNat 64 rw)) ||| (v &&& BitVec.ofNat 64 rw)

/-! ### The vector engine (R132 to R151) -/

/-- The scalar registers a V instruction reads (R144, R147). -/
def vScalars : Instr → List Nat
  | .vsplat _ x _ _ _ => [x]
  | .vld _ a _ _ _ => [a]
  | .vst _ a _ _ => [a]
  | .vlds _ a _ _ _ => [a]
  | .vsts _ a _ _ => [a]
  | _ => []
/-- A V instruction waits: for a tile an earlier group has still to write or read, for a binding, for a scalar (R101,
R196, R225, R274). -/
def vHeld (s : State) (i : Instr) : Bool :=
  s.me.bindWaits s.cur.rank (tileReads i ++ tileWrites i) || s.me.vWaits s.cur.rank (tileReads i) (tileWrites i) ||
    (vScalars i).any s.me.stalls || s.me.vFull (tileWrites i).length
/-- Nothing stands in the way of a V instruction whose results have a tag: its tiles and scalars are there, its scalars clean,
its streams used as R197 to R199 say. -/
structure VGo (s : State) (i : Instr) (sp : Bool) (tag : Nat) : Prop where
  held    : vHeld s i = false
  clean   : ∀ r ∈ vScalars i, s.me.poisoned r = false
  streams : s.streamMisuse (tileReads i) (tileWrites i) = false
  drains  : s.drainTagBad (tileWrites i) tag = false
  reads   : s.readBar sp (tileReads i) = .clear
  writes  : s.writeBar (tileWrites i) = .clear
/-- A V instruction has retired with its tiles, row k of them due after `rows[k]` more cycles (R135): put in place, the spout tiles
it read released, status set (R87, R133). -/
def retired (s : State) (i : Instr) (outs : List (Nat × Tile)) (st : Nat) (rows : List Nat) : State :=
  (((s.putResults outs st rows).takeSpouts (tileReads i)).updMe fun x => x.orStat st).issued
/-- A V instruction ends with its tiles (R133, R198): retired, or, where a poisoned one is on its way into a drain, with the
deferred poison fault, nothing changed. s1 is s after the noise words it takes. -/
def Retires (s s1 : State) (i : Instr) (outs : List (Nat × Tile)) (st : Nat) : Prop :=
  (s.drainPoison outs = none → ∃ rows : List Nat, rows.length = 16 ∧ (∀ n ∈ rows, 0 < n) ∧ exec i s = .next (retired s1 i outs st rows)) ∧
  ∀ o, s.drainPoison outs = some o → exec i s = s.raise 0x07 2 o
/-- A load from the basin ends with its tile, having read n bytes at b of the allotment (R147, R168). -/
def RetiresLoad (s : State) (i : Instr) (outs : List (Nat × Tile)) (b n : Nat) : Prop :=
  (s.drainPoison outs = none → ∃ rows : List Nat, rows.length = 16 ∧ (∀ n ∈ rows, 0 < n) ∧
    exec i s = .next ((s.putResults outs 0 rows).updMyDie fun y => y.present s.cur.core (s.me.basinAddr b) n).issued) ∧
  ∀ o, s.drainPoison outs = some o → exec i s = s.raise 0x07 2 o
/-- Element e of an operand, seen under its direction (R132). -/
def elemOf (s : State) (a : TOp) (e : Nat) : Option Elem := ((s.readTile a.v).elems a.dir)[e]?
def tagOf (s : State) (a : TOp) : Nat := (s.readTile a.v).tag
/-- The record of element e of an operand, where this very reading poisons it (R151, R199). -/
def ownRecord (s : State) (a : TOp) (e : Nat) : Option W64 := ((s.ownFails a.v).find? fun o => o.1 == physOf a.dir e).map (·.2)
/-- Element e is the lowest poisoned one of a tile seen under a direction. -/
def FirstBad (t : Tile) (dir : Dir) (e : Nat) : Prop :=
  (∃ c, (t.elems dir)[e]? = some (c, true)) ∧ ∀ e' (x : Elem), e' < e → (t.elems dir)[e']? = some x → x.2 = false
/-- A tile without poison has record 0 (R130). -/
def Fresh (t : Tile) (dir : Dir) : Prop := (∀ (e : Nat) (x : Elem), (t.elems dir)[e]? = some x → x.2 = false) → t.origin = 0

/-- Width and sign of the tags integer and bitwise forms take (R76, R138). -/
def bitsFmt (t : Nat) : Option (Nat × Bool) := if t = 0x30 then some (32, false) else intFmt t
/-- The integer in a container. -/
def takeInt (f : Nat × Bool) (c : W32) : Int := if f.2 then (c.setWidth f.1).toInt else ((c.setWidth f.1).toNat : Int)
/-- An integer modulo 2^w, extended into its container (R76). -/
def putInt (f : Nat × Bool) (v : Int) : W32 :=
  if f.2 then (BitVec.ofInt f.1 v).signExtend 32 else (BitVec.ofInt f.1 v).setWidth 32
def onInts (f : Nat × Bool) (g : List Int → Int) (l : List W32) : W32 × Nat := (putInt f (g (l.map (takeInt f))), 0)
/-- A float code with a sign of our choice: NaN canonical, a subnormal flushed under FTZ (R80, R93, R136, R137). -/
def withSign (f : Fmt) (m : Mode) (neg : Bool) (c : W32) : W32 :=
  let g := c.toNat % 2 ^ (f.w - 1)
  if f.isNanMag g then BitVec.ofNat 32 (f.nan.getD 0)
  else BitVec.ofNat 32 (f.code neg (if m.ftz && f.flush && decide (g < 2 ^ f.man) then 0 else g))
def signOf (f : Fmt) (c : W32) : Bool := c.toNat.testBit (f.w - 1)

/-- An element-wise form (R134, R136 to R142, R161): operands, the tag of its result from those of its sources (none: the
format fault), whether it rounds, and what an element becomes. -/
structure ElemForm where
  dst    : TOp
  srcs   : List TOp
  sp     : Bool
  rnd    : Option Rnd
  tag    : List Nat → Option Nat
  rounds : Nat → Bool
  elem   : Mode → Nat → Nat → List W32 → W32 × Nat
/-- One tag for every source, of an accepted kind. -/
def sameTag (accepts : Nat → Bool) : List Nat → Option Nat
  | [] => none
  | t :: ts => if ts.all (· == t) && accepts t then some t else none
def arithTag (t : Nat) : Bool := isArithFloat t || isInt t
/-- R136: exact on the values of floats, then rounded once; exact on integers, then wrapped. -/
def arithForm (op : ArithOp) (d : TOp) (srcs : List TOp) (sp : Bool) (rnd : Option Rnd) : ElemForm :=
  ⟨d, srcs, sp, rnd, sameTag arithTag, isFloat, fun m t w l => match floatFmt t, intFmt t with
    | some f, _ =>
      let r := op.num (m.rnd == .rdn) (l.map fun c => f.value m.ftz c.toNat)
      let c := f.cvt m (w % 2 ^ 24) r.1
      (BitVec.ofNat 32 c.1, c.2 ||| if r.2 then 2 else 0)
    | none, some i => onInts i op.int l
    | none, none => (0, 0)⟩
/-- R136: NaN wins, −0 is below +0. -/
def extremeForm (wantMin : Bool) (d a b : TOp) (sp : Bool) (rnd : Option Rnd) : ElemForm :=
  ⟨d, [a, b], sp, rnd, sameTag arithTag, fun _ => false, fun m t _ l =>
    let x := l.headD 0
    let y := (l.drop 1).headD 0
    match floatFmt t, intFmt t with
    | some f, _ =>
      let vx := f.value m.ftz x.toNat
      let vy := f.value m.ftz y.toNat
      if vx.isNan || vy.isNan then (BitVec.ofNat 32 (f.nan.getD 0), 0)
      else
        let c := if vx.less vy == wantMin then x else y
        (withSign f m (signOf f c) c, 0)
    | none, some i => (putInt i (if wantMin then min (takeInt i x) (takeInt i y) else max (takeInt i x) (takeInt i y)), 0)
    | none, none => (0, 0)⟩
/-- R137: a sign of a float, a function of an integer. -/
def signForm (sign : Bool → Bool) (g : Int → Int) (d a : TOp) (sp : Bool) (rnd : Option Rnd) : ElemForm :=
  ⟨d, [a], sp, rnd, sameTag fun t => isFloat t || isInt t, fun _ => false, fun m t _ l => match floatFmt t, intFmt t with
    | some f, _ => (withSign f m (sign (signOf f (l.headD 0))) (l.headD 0), 0)
    | none, some i => onInts i (fun v => g (v.headD 0)) l
    | none, none => (0, 0)⟩
/-- R137, R138: a function of the codes of integers and bits. -/
def bitForm (g : List Int → Int) (d : TOp) (srcs : List TOp) (sp : Bool) : ElemForm :=
  ⟨d, srcs, sp, none, sameTag fun t => (bitsFmt t).isSome, fun _ => false, fun _ t _ l =>
    (bitsFmt t).elim (0, 0) fun f => (putInt f (g (l.map (takeInt (f.1, false)))), 0)⟩
def natAt (l : List Int) (n : Nat) : Nat := ((l[n]?).getD 0).toNat
/-- R138: the count is bits [5:0] of the second container. -/
def shiftForm (g : Nat × Bool → W32 → Nat → Int) (d a b : TOp) (sp : Bool) : ElemForm :=
  ⟨d, [a, b], sp, none, fun ts => match ts with
    | [t, u] => if (bitsFmt t).isSome && (bitsFmt u).isSome then some t else none
    | _ => none,
   fun _ => false, fun _ t _ l =>
    (bitsFmt t).elim (0, 0) fun f => (putInt f (g f (l.headD 0) (((l.drop 1).headD 0).toNat % 64)), 0)⟩
/-- R139. -/
def condOn (c : Cond) (nan : Bool) (o : Ordering) : Bool :=
  match c with
  | .eq => !nan && o == .eq
  | .ne => nan || o != .eq
  | .lt => !nan && o == .lt
  | .le => !nan && o != .gt
  | .gt => !nan && o == .gt
  | .ge => !nan && o != .lt
  | .uno => nan
  | .ord => !nan
def cmpForm (c : Cond) (d a b : TOp) (sp : Bool) (rnd : Rnd) : ElemForm :=
  ⟨d, [a, b], sp, some rnd, fun ts => (sameTag (fun t => isFloat t || isInt t) ts).map fun _ => 0x30, fun _ => false,
   fun m t _ l =>
    let x := l.headD 0
    let y := (l.drop 1).headD 0
    let yes := match floatFmt t, intFmt t with
      | some f, _ =>
        let vx := f.value m.ftz x.toNat
        let vy := f.value m.ftz y.toNat
        condOn c (vx.isNan || vy.isNan) (vx.cmp vy)
      | none, some i => condOn c false (compare (takeInt i x) (takeInt i y))
      | none, none => false
    (if yes then 0xFFFFFFFF else 0, 0)⟩
/-- R142. -/
def cvtForm (fmt : Nat) (d a : TOp) (sp : Bool) (rnd : Rnd) : ElemForm :=
  ⟨d, [a], sp, some rnd, fun ts => if ts.all (fun t => isFloat t || isInt t) && (isFloat fmt || isInt fmt) then some fmt else none,
   fun t => t != fmt && !(isInt t && isInt fmt), fun m t w l =>
    let x := l.headD 0
    match floatFmt t, intFmt t, floatFmt fmt, intFmt fmt with
    | some f, _, some g, _ =>
      let r := g.cvt m (w % 2 ^ 24) (f.value m.ftz x.toNat)
      (BitVec.ofNat 32 r.1, r.2)
    | some f, _, none, some i =>
      let r := cvtInt i.1 i.2 m.rnd (w % 2 ^ 24) (f.value m.ftz x.toNat)
      (putInt i r.1, r.2)
    | none, some j, some g, _ =>
      let r := g.cvt m (w % 2 ^ 24) (.ofInt (takeInt j x))
      (BitVec.ofNat 32 r.1, r.2)
    | none, some j, none, some i =>
      let lo : Int := if i.2 then -(2 ^ (i.1 - 1) : Int) else 0
      let hi : Int := if i.2 then 2 ^ (i.1 - 1) - 1 else 2 ^ i.1 - 1
      let v := takeInt j x
      (putInt i (max lo (min hi v)), if v < lo ∨ hi < v then 1 else 0)
    | _, _, _, _ => (0, 0)⟩
/-- R161. -/
def specialForm (fn : SpecialFn) (d a : TOp) (sp : Bool) (rnd : Option Rnd) : ElemForm :=
  ⟨d, [a], sp, rnd, sameTag isArithFloat, fun _ => true, fun m t w l => match floatFmt t with
    | some f =>
      let r := fn.result f m (w % 2 ^ 24) (l.headD 0).toNat
      (BitVec.ofNat 32 r.1, r.2)
    | none => (0, 0)⟩
/-- The element-wise instructions. -/
def elemForm : Instr → Option ElemForm
  | .vadd d a b sp rnd => some (arithForm .add d [a, b] sp rnd)
  | .vsub d a b sp rnd => some (arithForm .sub d [a, b] sp rnd)
  | .vmul d a b sp rnd => some (arithForm .mul d [a, b] sp rnd)
  | .vfma d a b sp rnd => some (arithForm .fma d [a, b, d] sp rnd)
  | .vfnma d a b sp rnd => some (arithForm .fnma d [a, b, d] sp rnd)
  | .vmin d a b sp rnd => some (extremeForm true d a b sp rnd)
  | .vmax d a b sp rnd => some (extremeForm false d a b sp rnd)
  | .vabs d a sp rnd => some (signForm (fun _ => false) (fun v => v.natAbs) d a sp rnd)
  | .vneg d a sp rnd => some (signForm (!·) (fun v => -v) d a sp rnd)
  | .vnot d a sp _ => some (bitForm (fun l => -1 - l.headD 0) d [a] sp)
  | .vand d a b sp _ => some (bitForm (fun l => ((natAt l 0 &&& natAt l 1 : Nat) : Int)) d [a, b] sp)
  | .vor d a b sp _ => some (bitForm (fun l => ((natAt l 0 ||| natAt l 1 : Nat) : Int)) d [a, b] sp)
  | .vxor d a b sp _ => some (bitForm (fun l => ((natAt l 0 ^^^ natAt l 1 : Nat) : Int)) d [a, b] sp)
  | .vsll d a b sp _ => some (shiftForm (fun f x n => takeInt (f.1, false) x * 2 ^ n) d a b sp)
  | .vsrl d a b sp _ => some (shiftForm (fun f x n => takeInt (f.1, false) x / 2 ^ n) d a b sp)
  | .vsra d a b sp _ => some (shiftForm (fun f x n => takeInt (f.1, true) x / 2 ^ n) d a b sp)
  | .vcmp c d a b sp rnd => some (cmpForm c d a b sp rnd)
  | .vcvt d a fmt sp rnd => some (cvtForm fmt d a sp rnd)
  | .vexp2 d a sp rnd => some (specialForm .exp2 d a sp rnd)
  | .vlog2 d a sp rnd => some (specialForm .log2 d a sp rnd)
  | .vrcp d a sp rnd => some (specialForm .rcp d a sp rnd)
  | .vrsq d a sp rnd => some (specialForm .rsq d a sp rnd)
  | .vtanh d a sp rnd => some (specialForm .tanh d a sp rnd)
  | .vsig d a sp rnd => some (specialForm .sig d a sp rnd)
  | _ => none
/-- The elements the sources of a form supply at e, where every source has one there. -/
def ElemForm.row (k : ElemForm) (s : State) (e : Nat) (l : List Elem) : Prop :=
  e < 1024 ∧ k.srcs.map (fun a => elemOf s a e) = l.map some
/-- The noise words the form takes: one for each element where it rounds under `rsto` (R89, R163). -/
def ElemForm.words (k : ElemForm) (s : State) : Nat :=
  if (modeOf s.cur.kmode k.rnd).rnd = .rsto ∧ k.rounds (tagOf s (k.srcs.headD k.dst)) = true then 1024 else 0
/-- What the form makes of the row at e. -/
def ElemForm.value (k : ElemForm) (s : State) (ws : List Nat) (e : Nat) (l : List Elem) : W32 × Nat :=
  k.elem (modeOf s.cur.kmode k.rnd) (tagOf s (k.srcs.headD k.dst)) ((ws[e]?).getD 0) (l.map (·.1))
/-- The tile and the status bits of an element-wise form (R87, R130, R132, R136, R151). -/
structure ElemForm.Result (k : ElemForm) (s : State) (ws : List Nat) (tag : Nat) (t : Tile) (st : Nat) : Prop where
  tag    : t.tag = tag
  side   : t.side = noSide
  clean  : ∀ e l, k.row s e l → (∀ x ∈ l, x.2 = false) → (t.elems k.dst.dir)[e]? = some ((k.value s ws e l).1, false)
  poison : ∀ e l, k.row s e l → (∃ x ∈ l, x.2 = true) → (t.elems k.dst.dir)[e]? = some (0, true)
  status : ∀ n, st.testBit n = true ↔
    ∃ e l, k.row s e l ∧ (∀ x ∈ l, x.2 = false) ∧ (k.value s ws e l).2.testBit n = true
  origin : ∀ e l i a, FirstBad t k.dst.dir e → k.row s e l → l.findIdx? (·.2) = some i → k.srcs[i]? = some a →
    t.origin = ((k.srcs.findSome? fun b => ownRecord s b e).getD (s.readTile a.v).origin)
  fresh  : Fresh t k.dst.dir

/-- A tile each element of which is one source element moved and re-read (R132, R143, R151, R155, R156): element e of the result,
for the e that `dom` names, is f of source element `src e`, poisoned with it; the record is that of the lowest poisoned one's
source. -/
structure Moved (s : State) (d a : TOp) (dom : Nat → Prop) (src : Nat → Nat) (f : W32 → W32) (t : Tile) : Prop where
  elem   : ∀ e x, dom e → e < 1024 → elemOf s a (src e) = some x →
    (t.elems d.dir)[e]? = some (if x.2 = true then (0, true) else (f x.1, false))
  origin : ∀ e x, FirstBad t d.dir e → dom e → elemOf s a (src e) = some x →
    t.origin = (ownRecord s a (src e)).getD (s.readTile a.v).origin
  fresh  : Fresh t d.dir
/-- A block-format tag needs direction `.r` (R132). -/
def dirOk (tag : Nat) (a : TOp) : Prop := isBlock tag = true → a.dir = .r
/-- A tile with one value in every element (R144, R145, R164). -/
def filled (tag : Nat) (c : W32) : Tile := ⟨List.replicate 1024 c, List.replicate 1024 false, noSide, tag, 0⟩

/-- A tile of codes made of a source's elements (R308 to R312): element e is code e of `cs`, in its container, 0 and poisoned where
the source's is; the status bits are those of the unpoisoned elements. -/
structure Coded (s : State) (d a : TOp) (fmt : Nat) (side : List Byte) (cs : List (Nat × Nat)) (t : Tile) (st : Nat) : Prop where
  tag    : t.tag = fmt
  side   : t.side = side
  elem   : ∀ e x c, e < 1024 → elemOf s a e = some x → cs[e]? = some c →
    (t.elems d.dir)[e]? = some (if x.2 = true then (0, true) else (cellOf fmt c.1, false))
  status : ∀ n, st.testBit n = true ↔ ∃ e x c, elemOf s a e = some x ∧ cs[e]? = some c ∧ x.2 = false ∧ c.2.testBit n = true
  origin : ∀ e, FirstBad t d.dir e → t.origin = (ownRecord s a e).getD (s.readTile a.v).origin
  fresh  : Fresh t d.dir

/-! ### Reductions and scans (R157, R158) -/

/-- One combining step: its result and status; q is the number of the call. -/
abbrev Combine := Nat → W32 → W32 → W32 × Nat
/-- The halving tree over 2^k elements, its first call numbered q: value and status. -/
def halving (c : Combine) : Nat → (Nat → W32) → Nat → W32 × Nat
  | 0, x, _ => (x 0, 0)
  | k + 1, x, q =>
    let r := halving c k (fun t => (c (q + t) (x t) (x (t + 2 ^ k))).1) (q + 2 ^ k)
    (r.1, (List.range (2 ^ k)).foldl (fun a t => a ||| (c (q + t) (x t) (x (t + 2 ^ k))).2) r.2)
/-- The chain of prefixes: its value at t. -/
def prefixes (c : Combine) (x : Nat → W32) (q : Nat) : Nat → W32
  | 0 => x 0
  | t + 1 => (c (q + t) (prefixes c x q t) (x (t + 1))).1
/-- The status of the step that made the prefix at t. -/
def prefixStat (c : Combine) (x : Nat → W32) (q : Nat) : Nat → Nat
  | 0 => 0
  | t + 1 => (c (q + t) (prefixes c x q t) (x (t + 1))).2
/-- The step of an operation (R157): w is its noise word. -/
def combine (op : RedOp) (m : Mode) (t w : Nat) (x y : W32) : W32 × Nat :=
  let bits := fun (g : Nat → Nat → Nat) => (bitsFmt t).elim ((0 : W32), 0) fun f => (putInt f (g x.toNat y.toNat : Nat), 0)
  match op with
  | .add => (arithForm .add ⟨0, .r⟩ [] false none).elem m t w [x, y]
  | .min => (extremeForm true ⟨0, .r⟩ ⟨0, .r⟩ ⟨0, .r⟩ false none).elem m t w [x, y]
  | .max => (extremeForm false ⟨0, .r⟩ ⟨0, .r⟩ ⟨0, .r⟩ false none).elem m t w [x, y]
  | .and => bits (· &&& ·)
  | .or => bits (· ||| ·)
  | .xor => bits (· ^^^ ·)
def combineTag (op : RedOp) (t : Nat) : Bool :=
  match op with
  | .add => arithTag t
  | .min => isFloat t || isInt t
  | .max => isFloat t || isInt t
  | _ => (bitsFmt t).isSome
/-- A reduction or scan instruction: operation, along rows, whether a scan, operands. -/
def acrossForm : Instr → Option (RedOp × Bool × Bool × TOp × TOp × Bool × Rnd)
  | .vredr op d a sp rnd => some (op, true, false, d, a, sp, rnd)
  | .vredc op d a sp rnd => some (op, false, false, d, a, sp, rnd)
  | .vscanr op d a sp rnd => some (op, true, true, d, a, sp, rnd)
  | .vscanc op d a sp rnd => some (op, false, true, d, a, sp, rnd)
  | _ => none
/-- The element at place t of line l: of a row, or of a column. -/
def placeOf (rows : Bool) (l t : Nat) : Nat := if rows then 64 * l + t else 64 * t + l

/-! ### Asynchronous commands (R101, R102, R203, R274) -/

/-- A command may issue on a timeline (R101, R203, R274): its scalars are there and clean, there is room, a number is left. -/
structure IssueGo (s : State) (tl : TimelineId) (scal : List Nat) : Prop where
  core   : s.focusOk = true
  ready  : s.eReady scal = true
  room   : s.cmdsFull tl = false
  number : s.me.nextNum tl < 2 ^ 56
  clean  : ∀ v ∈ scal, s.me.poisoned v = false
/-- What a command holds, with the scalars it read at its issue (R279). -/
def withScalars (s : State) (args : List CmdArg) : List CmdArg :=
  args.map fun a => { a with raw := (issueScalars a.instr).map s.me.val }
/-- A command has entered (R43, R102, R203): with the last repetition it stands, numbered, behind the core's other commands, its
timeline's last number its own, the core's unperformed stores released to it (R359); an earlier repetition only adds itself to
its group. -/
structure Queued (s u : State) (tl : TimelineId) (token : Nat) (args : List CmdArg) : Prop where
  last : ¬ s.cur.rep + 1 < s.cur.reps → (u.me.tls.get tl).last = (s.me.tls.get tl).last + 1 ∧
    ∃ k, u.me.fl.cmds = s.me.fl.cmds ++ [k] ∧ k.tl = tl ∧ k.num = (s.me.tls.get tl).last + 1 ∧ k.token = token ∧
      k.args = s.cur.acc ++ withScalars s args ∧ k.rank = s.cur.rank ∧ k.addr = s.cur.addr ∧ k.lane = s.cur.lane ∧
      k.kmode = s.cur.kmode ∧ k.rel = s.unperformed s.cur.die s.cur.core
  more : s.cur.rep + 1 < s.cur.reps → u.me.fl.cmds = s.me.fl.cmds ∧ u.me.tls = s.me.tls ∧
    ∀ h l, s.me.q.get s.cur.engine = h :: l →
      u.me.q.get s.cur.engine = { h with acc := h.acc ++ withScalars s args, rep := s.cur.rep + 1 } :: l
  kept : u.me.regs = s.me.regs ∧ SameMemory s u
/-- The stream tiles of its repetitions are taken with the last (R197, R198). -/
def Takes (s u : State) (args : List CmdArg) : Prop :=
  ¬ s.cur.rep + 1 < s.cur.reps → u.me.strm = (s.me.takeAll s.cur.rank (s.cur.acc ++ args)).strm
/-- A pattern operand is there (R45 to R48): carried as the kernel's mode asks, its record readable and legal. -/
def HasRecord (s : State) (h : Nat) (rec : Option Shape4) (p : Pattern) : Prop :=
  modeMatches s.me rec = true ∧ s.operandPattern h rec = .ok p
/-- A tile operand of an M group is there (R222, R225): no group or binding to wait for, no misuse, whole and clean. -/
def HasTile (s : State) (v : Nat) : Prop :=
  s.me.bindWaits s.cur.rank [v] = false ∧ s.me.mReadWaits s.cur.rank [v] = false ∧ s.streamMisuse [v] [] = false ∧
    s.readBar false [v] = .clear ∧ (s.readTile v).poison.any id = false
/-- A destination tile of an M group (R198, R225): no binding to wait for, no misuse, not past a drain's end, room in its ring. -/
def HasSink (s : State) (v : Nat) : Prop :=
  s.me.bindWaits s.cur.rank [v] = false ∧ s.streamMisuse [] [v] = false ∧ s.drainTagBad [v] 0x01 = false ∧
    s.writeBar [v] = .clear
/-- A die a pair s[a], s[a+1] names (R337, R339): an aligned VA below the aperture, a mapped virtual peer. -/
def HasPeer (s : State) (a n d : Nat) : Prop :=
  addrFault (s.me.val a) n = none ∧ (s.me.val ((a + 1) % 64)).toNat < 4096 ∧
    ∃ p, s.peer s.cur.die s.me (s.me.val ((a + 1) % 64)).toNat = .ok p ∧ d = s.dieOfPeer p
/-- The copy forms on patterns (R184, R186): scalars read, handle registers in the operands' order, what the patterns must meet. -/
def copyForm : Instr → Option (Nat × List Nat × List Nat × (List Pattern → Prop))
  | .cp t a b _ => some (t, [a, b], [a, b], fun l => ∃ p q, l = [p, q] ∧ p.count = q.count ∧ p.tag = q.tag)
  | .gath t a b _ => some (t, [a, b, b + 1], [a, b, b + 1], fun l => ∃ p q ix, l = [p, q, ix] ∧ q.e2 = 1 ∧ q.e3 = 1 ∧
      p.count = q.e0 * ix.count ∧ p.tag = q.tag ∧ ix.tag ∈ [0x28, 0x29, 0x2A])
  | .scat t a b _ => some (t, [a, a + 1, b], [a, b, a + 1], fun l => ∃ p q ix, l = [p, q, ix] ∧ p.e2 = 1 ∧ p.e3 = 1 ∧
      q.count = p.e0 * ix.count ∧ p.tag = q.tag ∧ ix.tag ∈ [0x28, 0x29, 0x2A])
  | _ => none
/-- A copy command has begun on engine e of its die (R188, R191). -/
def Begun (u : State) (e : Nat) : Prop :=
  ∃ k, u.me.fl.cmds.getLast? = some k ∧ k.st = .running ∧ u.engineCur u.cur.die e = some (u.cur.core, k.num)

/-! ### Register writes as rows of their own -/

/-- Core c takes a fault at the lane in focus. -/
def trappedAt (s : State) (d c cause : Nat) (tval : W64) : State :=
  s.takeTrap d c ⟨s.cur.rank, cause, 0, tval, s.cur.addr, s.cur.lane,
    if s.cur.engine = .c ∨ s.cur.engine = .v then mpcOf s.cur.rep 0 else 0, none, false, s.cur.engine == .c⟩
/-- Bits hi to lo of a word, as a number. -/
def field (v : W64) (hi lo : Nat) : Nat := v.toNat / 2 ^ lo % 2 ^ (hi + 1 - lo)
/-- What R165 asks of KNOISE, KNLOGB, KNLOGP and the allotment's pages. -/
def noiseOk (mode base ptr : W64) (pages : Nat) : Prop :=
  field mode 1 0 ≠ 3 ∧ (field mode 1 0 = 0 ∨
    (field base 31 0 % 64 = 0 ∧ field base 63 32 % 64 = 0 ∧ field base 63 32 ≠ 0 ∧ field ptr 31 0 < field base 63 32 ∧
      field base 31 0 + field base 63 32 ≤ 65536 * pages))
/-- The three noise registers after a write of v to the one a number names (R165). -/
def noiseAfter (k : KRegs) (num : Nat) (v : W64) : W64 × W64 × W64 :=
  (if num = 0x014 then afterWrite k.knoise v 3 0x80 else k.knoise,
   if num = 0x015 then afterWrite k.knlogb v (2 ^ 64 - 1) 0 else k.knlogb,
   if num = 0x016 then afterWrite k.knlogp v (2 ^ 32 - 4) 0 else k.knlogp)
/-- What R175 asks of a share over an allotment of so many pages. -/
def shareOk (v : W64) (pages : Nat) : Prop :=
  field v 56 44 % 8 = 0 ∧ field v 56 44 ≤ 4096 ∧ field v 43 32 % 8 = 0 ∧ field v 27 0 % 4096 = 0 ∧
    field v 43 32 + field v 56 44 ≤ 4096 ∧ field v 27 0 + 4096 * field v 56 44 ≤ 65536 * pages
/-- A table entry of four words that an address of 32 bytes gives (R241). -/
def entryAt (s : State) (d key pa : Nat) : RangeSlot :=
  let w := fun k => BitVec.ofNat 64 (leNat ((((s.readPa d key pa 32).1).drop (8 * k)).take 8))
  .entry (w 0) (w 1) (w 2) (w 3)
/-- The K registers of R267 to R399 of a context other than one, with its scalar registers, tiles and control, are kept. -/
def keptBut (x y : Core) : Prop := y.regs = x.regs ∧ y.tiles = x.tiles ∧ y.ctl = x.ctl ∧ y.q = x.q ∧ y.fl = x.fl ∧ y.tls = x.tls

/-! ### Lines and stops -/

/-- A fault at fetch: precise at the line, lane 0 (R29). -/
def fetchTrap (s : State) (d c cause sub : Nat) (tval : W64) (addr : Nat) (xsyn : Option W64) (stage2 : Bool) : State :=
  s.takeTrap d c ⟨(s.core d c).ctl.rank, cause, sub, tval, addr, 0, 0, xsyn, stage2, false⟩
/-- The core stands between two lines, with nothing to fetch again and no breakpoint at the next (R14, R400). -/
structure Between (x : Core) : Prop where
  fetches : x.fetches = true
  line    : x.ctl.line = none
  refetch : x.ctl.refetch = none
  breaks  : ∀ i ∈ [1, 2], x.ctl.hold = none → x.ctl.brkDone = false → x.x.kdbgc.getLsbD i = true →
    field (if i = 1 then x.x.kbrk0 else x.x.kbrk1) 55 5 ≠ x.ctl.nextLine / 32
  stops   : x.ctl.hold = none → x.ctl.brkDone = true → ∀ r ∈ x.ctl.stops, ¬ (r.reason = 2 ∧ r.wait ≤ 1)
/-- The tag of a lane (R23). -/
def tagAt (h i : Nat) : Nat := h / 2 ^ (4 * (i - 1)) % 16
/-- The queue entry a group of a line becomes (R44, R97, R276). -/
def entered (x : Core) (addr : Nat) (g : Group) : QEntry :=
  ⟨x.ctl.rank + g.lane, addr, g, (groupStage g).map fun q => (q, x.loops.preds.testBit q), x.k.kmode, none, 0, []⟩
/-- What keeps a line back (R14, R102, R146, R174): a queue without room, a MEET with a group queued, a claim pending, the range
checker full. -/
def HeldBack (x : Core) (h : Nat) (gs : List Group) : Prop :=
  (∃ e ∈ [Engine.v, .m, .y, .f], 16 < (x.q.get e).length + (gs.filter fun g => g.engine == e).length) ∨
  (h.testBit 31 = true ∧ x.ctl.hold = none ∧ x.q.all ≠ []) ∨
  (∃ g ∈ gs, (∀ q, groupStage g = some q → x.loops.preds.testBit q = true) ∧ ∃ r ∈ groupClaims g, (x.reg r).pend = true) ∨
  64 < x.footprints + (gs.filter hasFootprint).length
/-- A line whose lanes hold only C instructions of no transfer opcode, prefixless, but at lanes i and j. -/
def twoTransfers (h : Nat) (ws : List Nat) (i j : Nat) : Prop :=
  ∀ k, 1 ≤ k → k ≤ 7 → tagAt h k = (if k = i ∨ k = j then 1 else 0) ∧
    (k = i ∨ k = j → ∃ w, ws[k - 1]? = some w ∧ isTransferOp w = true)
/-- A stop asked for at a core that may be carried out now (R272, R402). -/
structure StopNow (x : Core) (reason : Nat) : Prop where
  run  : x.ctl.run = .running
  hold : x.ctl.hold = none
  stop : x.ctl.stops = [⟨reason, 0⟩]
/-- What is kept of a core's own results at a freeze (R270): those of more than one cycle with what remains of them, loads and
atomics with their data and 0 remaining. -/
def dumpedBy (s : State) (d c : Nat) : List SRes :=
  let x := s.core d c
  let load := fun (l : Load) => if l.kind = .slot then none else some (SRes.mk l.reg (s.loadValue d c l).1 (s.loadValue d c l).2 0)
  x.fl.dumped ++ x.fl.results ++ x.fl.loads.filterMap load ++ x.fl.amos.map fun a => ⟨a.reg, a.old, false, 0⟩

/-! ### Cascades, the confluence, split products -/

/-- Cascade cas of die d serves command k, of one repetition a, of core c next: no pass, no hot pass, no other core's command,
no command of the die that waits for the fabric (R232). -/
structure ServesOnly (s : State) (d cas c : Nat) (k : Cmd) (a : CmdArg) : Prop where
  core  : s.hasCore d c = true
  casc  : cas < (s.die d).cascs.length
  pass  : (s.casc d cas).pass = none
  hot   : s.hotWaiting d cas = none
  only  : s.cascadeCores d cas = [c]
  next  : (s.core d c).cascadeWaiting cas = some k
  one   : k.args = [a] ∧ k.rep = 0 ∧ k.extra = []
  quiet : ∀ c', ∀ q ∈ (s.core d c').fl.cmds, q.wantsFabric = false
/-- What CASCADE_SERVE brings: a next state with this cascade and with the command ended with a status. -/
def ServedWith (s : State) (d cas c : Nat) (k : Cmd) (st : Nat) (p : Cascade → Prop) : Prop :=
  ∃ t, exec (.cascadeServe d cas) s = .next t ∧ p (t.casc d cas) ∧
    ((t.core d c).cmd? .tlm k.num).map (·.st) = some (.finished st)
/-- The products of column j of a weight buffer with a row of activations, from weight row k0 on (R95, R222), +0 weights beyond
what was loaded. -/
def products (w : WBuf) (bk : Codebook) (ftz : Bool) (k0 j : Nat) (row : List Act) : List (Machine.Num × Machine.Num) :=
  row.mapIdx fun i x => (x.1, w.value bk ftz (k0 + i) j)
/-- A task may be committed alone on cascade k (R289 to R292): it is the only task that waits, ready, granted, its positions free. -/
structure PassDue (y : Die) (k : Nat) (t : Task) (e : DirEntry) : Prop where
  casc   : ∃ z, y.cascs[k]? = some z ∧ z.pass = none ∧ z.rows = []
  below  : ∀ j, j < k → y.passFor j = none
  only   : y.tasks = [t]
  fresh  : t.pass = none
  ready  : t.ready = true ∨ t.dead ≤ y.seqr.cyc
  board  : y.seqr.board.en = false ∧ y.seqr.coming = []
  rows   : 1 ≤ t.m ∧ t.m ≤ 16
  entry  : y.advertised t.wid = some e ∧ e.granted t.tenant = true
/-- A row of a cascade, with its task, is the next of its state. -/
def RowAt (s : State) (d k : Nat) (r : PassRow) (t : Task) (st : RowSt) : Prop :=
  (s.casc d k).rows.find? (fun q => q.st == st) = some r ∧ s.taskNum d r.task = some t ∧ s.hasDie d = true ∧ k < (s.die d).cascs.length

/-- k is the command of task t at its core, the only one of its number, in its last repetition, with no refusal before. -/
structure TaskCmd (s : State) (t : Task) (k : Cmd) : Prop where
  found : (s.core t.die t.core).cmd? .tlm t.num = some k
  alone : ∀ q ∈ (s.core t.die t.core).fl.cmds, q.tl = .tlm → q.num = t.num → q = k
  last  : k.rep + 1 = k.args.length
  carry : k.carry = 0
/-- How a task's command stands. -/
def taskCmd (s : State) (t : Task) : Option Cmd := (s.core t.die t.core).cmd? .tlm t.num
/-- A row is no longer at a cascade. -/
def RowGone (s : State) (d k : Nat) (r : PassRow) : Prop := ∀ q ∈ (s.casc d k).rows, ¬ (q.task = r.task ∧ q.rho = r.rho)
/-- A row is parked, its task's command failed with e. -/
def RowParked (s : State) (d k : Nat) (r : PassRow) (t : Task) (c : Cmd) (e : EngErr) : Prop :=
  (∀ q ∈ (s.casc d k).rows, q.task = r.task → q.rho = r.rho → q.st = .parked) ∧ taskCmd s t = some (c.fail e)
/-- What scattering row r of task t, with bytes bs, brings (R293, R294): the bytes written, the row gone and the task's first
row counted on, or the command ended; or the row parked with status 0x0B. -/
def Scatters (i : Instr) (s : State) (d k : Nat) (t : Task) (r : PassRow) (bs : List Byte) (c : Cmd) : Prop :=
  (∀ u, s.scatterAt t r.rho bs = .ok u →
    (r.rho + 1 < t.m → ∃ w, exec i s = .next w ∧ RowGone w d k r ∧ SameMemory u w ∧
      (w.die d).tasks = (s.die d).tasks.map fun v => if v.seq = t.seq then { v with first := r.rho + 1 } else v) ∧
    (t.m ≤ r.rho + 1 → t.tag ≠ 254 → ∃ w, exec i s = .next w ∧ RowGone w d k r ∧
      (taskCmd w t).map (·.st) = some (.finished 0))) ∧
  (∀ e, s.scatterAt t r.rho bs = .error e → e.status = 0x0B ∧ ∃ w, exec i s = .next w ∧ RowParked w d k r t c e)
/-- The split unit takes command k of core c, of one repetition a, next: no multiply is at work (R319). -/
structure TakesOnly (s : State) (d c : Nat) (k : Cmd) (a : CmdArg) : Prop where
  core  : s.hasCore d c = true
  idle  : (s.die d).working = none
  only  : ∀ c', ((s.die d).splitWaiting c').isSome = true ↔ c' = c
  next  : (s.die d).splitWaiting c = some k
  own   : (s.core d c).cmd? .tln k.num = some k
  one   : k.args = [a] ∧ k.rep = 0 ∧ k.extra = []
/-- How a command of the `tln` timeline stands. -/
def splitSt (s : State) (d c n : Nat) : Option CmdSt := ((s.core d c).cmd? .tln n).map (·.st)
/-- A multiply at work on die d, its slot t. -/
structure Works (s : State) (d : Nat) (w : SplitWork) (k : Cmd) (t : Split) : Prop where
  die   : s.hasDie d = true
  work  : (s.die d).working = some (w, k)
  split : (s.die d).split w.slot = some t

/-- A flit of class ORD without a detour, which next travels in dimension i, minimally upward or downward (R336). -/
structure Heads (s : State) (n : Nat) (f : Flit) (i : Nat) (up : Bool) : Prop where
  flit  : s.flits[n]? = some f
  ord   : f.req.cls = .ord
  plain : f.plan = [] ∧ f.turns = []
  dim   : i < 3
  first : ∀ j, j < i → s.coord f.pos j = s.coord f.target j
  goes  : s.coord f.pos i ≠ s.coord f.target i
  way   : s.minimalUp f.pos f.target i = up
/-- Flit n of the state is the flit f of state s, at die p. -/
def FlitAt (u : State) (n : Nat) (f : Flit) (p : Nat) : Prop :=
  ∃ g, u.flits[n]? = some g ∧ g.pos = p ∧ g.dst = f.dst ∧ g.mid = f.mid ∧ g.req = f.req ∧ g.res = f.res
/-- A request that has reached its home, nothing of its core that must come first under way to it. -/
structure AtItsHome (s : State) (n : Nat) (f : Flit) : Prop where
  flit  : s.flits[n]? = some f
  here  : f.pos = f.dst ∧ f.mid = none
  ask   : f.res = none
  die   : s.hasDie f.dst = true
  ahead : ∀ g ∈ s.flits, ¬ (g.res = none ∧ g.req.cls = .ord ∧ f.req.cls = .ord ∧ g.req.tl = .tlf ∧ f.req.tl = .tlf ∧
    g.req.die = f.req.die ∧ g.req.core = f.req.core ∧ g.dst = f.dst ∧ g.req.seq < f.req.seq)
/-- A request is answered: its flit gone, an answer r on its way back, kept at its home unless it is a failure, the home's memory
that of m (R339). -/
def Answered (s : State) (n : Nat) (f : Flit) (r : RRes) (m : State) : Prop :=
  ∃ u via, exec (.remoteRequestPerform n) s = .next u ∧
    u.flits = s.flits.eraseIdx n ++ [⟨f.req, some r, f.dst, f.req.die, via, [], []⟩] ∧
    (u.die f.dst).kept = (match r with
      | .failed .. => (s.die f.dst).kept
      | _ => (f.req, r) :: (s.die f.dst).kept) ∧ SameMemory m u
/-- An answer r that has reached its command k, of the step it stands at, its last of a. -/
structure AtItsSource (s : State) (n : Nat) (f : Flit) (r : RRes) (k : Cmd) (a : CmdArg) : Prop where
  flit  : s.flits[n]? = some f
  here  : f.pos = f.dst ∧ f.mid = none
  res   : f.res = some r
  op    : ∀ t, f.req.op ≠ .rows t
  cmd   : (s.core f.req.die f.req.core).cmd? f.req.tl f.req.num = some k
  alone : ∀ q ∈ (s.core f.req.die f.req.core).fl.cmds, q.tl = k.tl → q.num = k.num → q = k
  runs  : k.st = .running ∧ k.tl = .tlf ∧ k.rep = f.req.rep ∧ k.mpc = f.req.step
  arg   : k.args[k.rep]? = some a ∧ ∀ p q i j c w, a.instr ≠ .rmc p q i j c w
  lands : s.landBehind f.req.die (s.core f.req.die f.req.core) k a = false
  last  : a.remoteSteps ≤ k.mpc + 1 ∧ k.rep + 1 = k.args.length ∧ k.carry = 0

/-- A store without marks, symbol errors or keys, its bytes in canonical form: it reads as written. -/
def Clean (m : Store) : Prop := m.marks = [] ∧ m.errs = [] ∧ m.keys = [] ∧ m.bytes.wf = true
/-- An interrupt cause of a die is raised (R437). -/
def Raised (u : State) (d b : Nat) : Prop := ((u.die d).hreg.hint).getLsbD b = true
/-- The cascades of a die at a boundary from y to z: none has a pass under way where its owner changes (R393). -/
def Crosses (y z : Die) : Prop := ∀ k c, k < 4 → y.cascs[k]? = some c → y.slotOwner k ≠ z.slotOwner k →
  c.pass = none
/-- Die z with its cascades as a boundary from y leaves them: emptied where the owner changes (R218, R393). -/
def Crossed (y z u : Die) : Prop := u.seqr = z.seqr ∧ u.power = z.power ∧ ∀ k c, y.cascs[k]? = some c →
  (y.slotOwner k = z.slotOwner k → u.cascs[k]? = some c) ∧
  (y.slotOwner k ≠ z.slotOwner k → u.cascs[k]? = some { c with front := .empty, back := .empty, conf := none, split := none })
/-- Request q of OP op stands first at the engine of package p, and the life state serves it (R421, R423). -/
structure SecFirst (s : State) (p op : Nat) (q : SecReq) (rest : List SecReq) : Prop where
  pkg   : p < s.pkgs.length
  queue : (s.sec p).queue = q :: rest
  asks  : q.op = op
  core  : s.hasCore q.die q.core = true
  reg   : 0 < q.reg ∧ q.reg < 64 ∧ (s.core q.die q.core).regs.length = 64
  life  : lifeServes (s.sec p).life op = true
/-- What serving it brings: the request gone, its status in its register, and what the engine then holds. -/
def SecServed (i : Instr) (s : State) (p : Nat) (q : SecReq) (rest : List SecReq) (st : Nat) (poison : Bool) (f : State → Prop) : Prop :=
  ∃ u, exec i s = .next u ∧ (u.sec p).queue = rest ∧ (u.core q.die q.core).val q.reg = BitVec.ofNat 64 (st * 2 ^ 56) ∧
    (u.core q.die q.core).poisoned q.reg = poison ∧ f u
/-- A check of package p with source src (R426): recorded, counted, frozen, interrupt 2 raised, every context that runs at A or S
with a fault of cause 0x40 to take. -/
def Checked (s u : State) (p src : Nat) : Prop :=
  (u.sec p).src = src ∧ (u.sec p).count = min 255 ((s.sec p).count + 1) ∧ (u.sec p).frz = true ∧ Raised u (8 * p) 2 ∧
  ∀ m c, m < 8 → s.hasCore (8 * p + m) c = true → let x := s.core (8 * p + m) c
    let y := u.core (8 * p + m) c
    (x.ctl.run = .running → x.ctl.level < levelH → ∃ f, y.ctl.faults = x.ctl.faults ++ [f] ∧ f.cause = 0x40 ∧ f.sub = src) ∧
    (x.ctl.run ≠ .running ∨ levelH ≤ x.ctl.level → y = x)
/-- Package p after a reset (R439): no core of its dies holds a context, no die is ready, no launch of it is left. -/
def WasReset (u : State) (p : Nat) : Prop :=
  (∀ m c, m < 8 → u.hasCore (8 * p + m) c = true → (u.core (8 * p + m) c).holds = false ∧ (u.core (8 * p + m) c).ctl.run = .idle) ∧
  (∀ m, m < 8 → (u.die (8 * p + m)).hreg.ready = false ∧ (u.die (8 * p + m)).stack.bytes = ⟨[]⟩) ∧
  (∀ r ∈ u.recs, r.pkg ≠ p) ∧ (u.sec p).tkeys = [] ∧ (u.sec p).frz = false ∧ (u.sec p).queue = []

/-! ### The whole machine -/

/-- The words the spec writes out for its examples, with the instruction each stands for (R33 to R44, R103, R110 to R112, R119, R120,
R137, R139, R140, R146, R153, R157, R158, R178, R182, R185, R205 to R208, R211, R222, R340). -/
def specWords : List (Engine × Nat × List Nat × Instr) := [
  (.c, 0x3228A040, [], .addi 5 5 64), (.c, 0x4438DE0E, [], .ext 7 6 60 8), (.c, 0xFC512346, [], .lih 5 0x12346),
  (.c, 0x3228BFFF, [], .addi 5 5 (-1)), (.c, 0x5E100482, [], .loopp 0 3 (.reg 9) 2), (.c, 0x5C400202, [], .loop 0 (.imm 4) 2),
  (.c, 0x72516002, [], .probe 10 11 2), (.c, 0x6C380000, [], .tlread .tly 7), (.c, 0x6A00E008, [], .tlwait .tlm 7),
  (.c, 0x66000014, [], .fence .rel .pkg), (.c, 0x6228C383, [], .amo .add .die 5 6 7), (.c, 0x6428C384, [], .amocas .pkg 5 6 7),
  (.c, 0x80000000, [], .nop)] ++ [
  (.v, 0x02408100, [], .vadd ⟨8, .r⟩ ⟨16, .r⟩ ⟨32, .r⟩ false none), (.v, 0x02626874, [], .vadd ⟨12, .c⟩ ⟨13, .r⟩ ⟨14, .d⟩ false none),
  (.v, 0x08202830, [], .vfma ⟨4, .r⟩ ⟨5, .r⟩ ⟨6, .r⟩ false none),
  (.v, 0x22402048, [0x04000000], .vcmp .gt ⟨8, .r⟩ ⟨4, .r⟩ ⟨9, .r⟩ false .latched),
  (.v, 0x32504030, [0x001C0000], .vcommit ⟨10, .r⟩ ⟨8, .r⟩ ⟨6, .r⟩ 7 false .latched),
  (.v, 0x26482000, [0x40000800], .vcvt ⟨9, .r⟩ ⟨4, .r⟩ 2 false .rtz), (.v, 0x2C004800, [0x00300025], .vxtr 9 12 37 false .latched),
  (.v, 0x40307001, [], .vld 6 14 0 true none), (.v, 0x50282000, [3], .vrotr ⟨5, .r⟩ ⟨4, .r⟩ 3 false .latched),
  (.v, 0x58282000, [0], .vredr .add ⟨5, .r⟩ ⟨4, .r⟩ false .latched), (.v, 0x5C302000, [0], .vscanr .add ⟨6, .r⟩ ⟨4, .r⟩ false .latched)] ++ [
  (.m, 0x0580A2A0, [], .mma ⟨48, .r⟩ 20 21 0 false none), (.m, 0x0640A2A9, [], .mmar 8 20 21 .adp 1 false none),
  (.y, 0x02516600, [], .cp 10 11 12 .plain), (.y, 0x04516600, [0x0440A2A0], .cpm 10 11 12 .plain 0x0440A2A0),
  (.y, 0x06A14600, [], .gath 20 10 12 .plain), (.y, 0x08A18500, [], .scat 20 12 10 .plain), (.y, 0x0A52C600, [], .fill 10 22 12 .plain none),
  (.y, 0x20A08280, [], .flush 20 4 5), (.f, 0x04604498, [], .rst 12 2 9 .ord .n64), (.f, 0x02A08490, [], .rld 20 4 9 .ord .n32),
  (.f, 0x06A084BB, [0x60000000], .ramo .max 20 4 9 .adp .n64 .die), (.f, 0x08A0849D, [0x02800000], .ramocas 20 4 9 10 .ord .n64 .pod)]
/-- The C instructions whose result is one register, with that register (R107, R109 to R111). -/
def LaneForm (i : Instr) (d : Nat) : Prop :=
  (∃ r ∈ regForms, ∃ a b, i = r.instr d a b) ∨ (∃ r ∈ oneForms, ∃ a, i = r.2.1 d a) ∨
  (∃ r ∈ immForms, ∃ a n, i = r.2.1 d a n) ∨ (∃ r ∈ shiftForms, ∃ a n, i = r.2.1 d a n) ∨
  (∃ a p l, i = .ext d a p l ∨ i = .extn d a p l ∨ i = .ins d a p l) ∨ (∃ n, i = .lih d n ∨ i = .lah d n)
/-- What a lane that writes only s[d] leaves as it was: every other register, and s0 as R98 has it; tiles, K registers, loops,
timelines and window bindings of its core; every other core; all memory. -/
def KeepsAllBut (s t : State) (d : Nat) : Prop :=
  (∀ r, r ≠ d ∨ r = 0 → t.me.reg r = s.me.reg r) ∧ t.me.tiles = s.me.tiles ∧ t.me.k = s.me.k ∧ t.me.x = s.me.x ∧ t.me.xl = s.me.xl ∧
  t.me.bankS = s.me.bankS ∧ t.me.bankH = s.me.bankH ∧ t.me.loops = s.me.loops ∧ t.me.tls = s.me.tls ∧ t.me.ctx = s.me.ctx ∧
  t.me.books = s.me.books ∧ t.me.fl.cmds = s.me.fl.cmds ∧ t.me.fl.stores = s.me.fl.stores ∧ t.me.ctl.level = s.me.ctl.level ∧
  (∀ e c, e ≠ s.cur.die ∨ c ≠ s.cur.core → t.core e c = s.core e c) ∧ SameMemory s t

end Sys2Proof.Safety
end

