-- ==== Sys2Proof/Certificates/Slice0/Obligations.lean ====
section
/-!
DEFINITION. Sys2Proof/Certificates/Slice0/Obligations.lean: the statements about the machine, for the provers. Each
docstring says what the statement claims and the rules of spec/ it rests on.
-/
open Sys2Proof Sys2Proof.Machine Sys2Proof.Safety

/-- Every register form of R107 decodes from its word and writes the stated result. For each two-source form of R107 and
all register numbers, the word op << 25 + d << 19 + a << 13 + b << 7 decodes to the instruction, and with none of
s[d], s[a], s[b] stalling exec answers the next state in which the lane has issued and s[d] holds the value the table
gives (computed here in integers), poisoned when a source is: at once for a latency of one cycle, else as a result
pending for 3 or 34 cycles (R108); a result for s0, or for a register pending at a hold, is discarded. The one-source
forms write the counts of zeros and ones, and are refused with b not zero. No other field of the state changes, so no
status bit is set and no fault taken. Rules: R107. -/
def Obligations.RegisterFormResults : Prop :=
  (∀ r ∈ regForms, ∀ d a b, d < 64 → a < 64 → b < 64 →
    decode .c (wordCr r.op d a b) [] = .ok (r.instr d a b) ∧
    ∀ s : State, Ready s [d, a, b] →
      exec (r.instr d a b) s = .next (
        let v := r.value (s.me.val a) (s.me.val b)
        let p := s.me.poisoned a || s.me.poisoned b
        if r.cycles = 1 then wrote s d v p else wroteLater s d v p r.cycles)) ∧
  (∀ r ∈ oneForms, ∀ d a, d < 64 → a < 64 →
    decode .c (wordCr r.1 d a 0) [] = .ok (r.2.1 d a) ∧
    (∀ b, 0 < b → b < 64 → IllegalAtIssue .c (wordCr r.1 d a b) []) ∧
    ∀ s : State, Ready s [d, a] →
      exec (r.2.1 d a) s = .next (wrote s d (BitVec.ofNat 64 (r.2.2 (s.me.val a))) (s.me.poisoned a)))

/-- Every immediate form of R109 decodes from its word and writes the stated result. For each immediate form, every
register pair and every immediate in its limits, the word op << 25 + d << 19 + a << 13 + imm13 decodes to the
instruction, and with neither s[d] nor s[a] stalling exec answers the next state in which s[d] holds the stated result
with the poison of s[a]. A shift amount of 64 to 8191 raises the illegal-instruction fault when it issues. Rules:
R109. -/
def Obligations.ImmediateFormResults : Prop :=
  (∀ r ∈ immForms, ∀ d a, ∀ i : Int, d < 64 → a < 64 → -4096 ≤ i → i ≤ 4095 →
    decode .c (wordCi r.1 d a i) [] = .ok (r.2.1 d a i) ∧
    ∀ s : State, Ready s [d, a] → exec (r.2.1 d a i) s = .next (wrote s d (r.2.2 (s.me.val a) i) (s.me.poisoned a))) ∧
  (∀ r ∈ shiftForms, ∀ d a n : Nat, d < 64 → a < 64 →
    (n < 64 → decode .c (wordCi r.1 d a n) [] = .ok (r.2.1 d a n) ∧
      ∀ s : State, Ready s [d, a] → exec (r.2.1 d a n) s = .next (wrote s d (r.2.2 (s.me.val a) n) (s.me.poisoned a))) ∧
    (64 ≤ n → n ≤ 8191 → IllegalAtIssue .c (wordCi r.1 d a n) []))

/-- ext, extn and ins move the bit field that R110 gives, cut at bit 63. With w = min(len, 64 - pos), ext writes the field
s[a][pos+w-1 : pos] sign-extended, extn zero-extended, and ins replaces that field of s[d] by the low w bits of s[a]
and keeps its other bits, reading s[d] as a source with its poison. Every pos of 0 to 63 and len of 1 to 64 decodes,
and exec answers a next state whenever no register of the instruction stalls. Rules: R110. -/
def Obligations.FieldFormResults : Prop :=
  ∀ d a pos len, d < 64 → a < 64 → pos < 64 → 1 ≤ len → len ≤ 64 →
    let w := min len (64 - pos)
    let word := fun op => op * 2 ^ 25 + d * 2 ^ 19 + a * 2 ^ 13 + pos * 2 ^ 7 + (len - 1) * 2
    decode .c (word 0x22) [] = .ok (.ext d a pos len) ∧ decode .c (word 0x23) [] = .ok (.extn d a pos len) ∧
    decode .c (word 0x24) [] = .ok (.ins d a pos len) ∧
    ∀ s : State, Ready s [d, a] →
      let f := (s.me.val a).toNat / 2 ^ pos % 2 ^ w
      exec (.ext d a pos len) s = .next (wrote s d ((BitVec.ofNat w f).signExtend 64) (s.me.poisoned a)) ∧
      exec (.extn d a pos len) s = .next (wrote s d (BitVec.ofNat 64 f) (s.me.poisoned a)) ∧
      ∃ v : W64, exec (.ins d a pos len) s = .next (wrote s d v (s.me.poisoned d || s.me.poisoned a)) ∧
        ∀ k, k < 64 → v.getLsbD k = if pos ≤ k ∧ k < pos + w then (s.me.val a).getLsbD (k - pos) else (s.me.val d).getLsbD k

/-- lih and lah write their constants; tokw waits for some register of its mask, tokt gives the pending ones; nop only
issues. lih writes sext(imm20 << 12) and lah linePC plus that, unpoisoned, whenever s[d] does not stall. For every c
from -2^31 to 2^31 - 2049, the split hi = (c + 0x800) >> 12, lo = c - (hi << 12) has hi in the 20-bit and lo in the
range -2048 to 2047, and the constant of lih with hi, added to lo, is c. For an unpoisoned mask with s[d] and s[a] not
stalling: tokt writes exactly the bits i > 0 of the mask whose s(i) is pending, whatever is pending; tokw writes 64
for a mask with no bit above 0, else the lowest i > 0 of the mask with s(i) not pending, else the lane waits with
nothing changed. A poisoned mask takes the deferred poison fault. nop issues and changes nothing else. Rules: R111,
R104, R36, R103, R105. -/
def Obligations.ConstantsTokensAndNop : Prop :=
  ((∀ d, ∀ i : Int, d < 64 → -(2 ^ 19) ≤ i → i < 2 ^ 19 → ∀ s : State, Ready s [d] →
    exec (.lih d i) s = .next (wrote s d (BitVec.ofInt 64 (i * 2 ^ 12)) false) ∧
    exec (.lah d i) s = .next (wrote s d (BitVec.ofInt 64 (s.cur.addr + i * 2 ^ 12)) false)) ∧
  (∀ c : Int, -(2 ^ 31) ≤ c → c ≤ 2 ^ 31 - 2049 →
    let hi := (c + 0x800) / 2 ^ 12
    let lo := c - hi * 2 ^ 12
    hi < 2 ^ 19 ∧ -(2 ^ 19) ≤ hi ∧ -2048 ≤ lo ∧ lo ≤ 2047 ∧
      ∀ s : State, s.focusOk = true → s.me.regs.length = 64 → ∀ d, 0 < d → d < 64 → Ready s [d] → s.me.heldPending d = false →
        (wrote s d (BitVec.ofInt 64 (hi * 2 ^ 12)) false).me.val d + BitVec.ofInt 64 lo = BitVec.ofInt 64 c)) ∧
  ((∀ s : State, exec .nop s = .next s.issued) ∧
  ∀ d a, d < 64 → a < 64 → ∀ s : State, Ready s [d, a] →
    (s.me.poisoned a = true →
      exec (.tokt d a) s = s.raise 0x07 1 (BitVec.ofNat 64 a) ∧ exec (.tokw d a) s = s.raise 0x07 1 (BitVec.ofNat 64 a)) ∧
    (s.me.poisoned a = false →
      let named := fun i => 0 < i ∧ i < 64 ∧ (s.me.val a).getLsbD i = true
      (∃ v : W64, exec (.tokt d a) s = .next (wrote s d v false) ∧
        ∀ i, i < 64 → (v.getLsbD i = true ↔ named i ∧ (s.me.reg i).pend = true)) ∧
      ((∀ i, ¬ named i) → exec (.tokw d a) s = .next (wrote s d 64 false)) ∧
      (∀ i, named i → (s.me.reg i).pend = false → (∀ j, j < i → named j → (s.me.reg j).pend = true) →
        exec (.tokw d a) s = .next (wrote s d (BitVec.ofNat 64 i) false)) ∧
      ((∃ i, named i) → (∀ i, named i → (s.me.reg i).pend = true) → exec (.tokw d a) s = .next s)))

/-- commit selects the arm its condition names with the poison of that arm; chk branches on poison and clears none. With
its registers not stalling, commit with an unpoisoned condition writes s[a] (condition not zero) or s[b] (zero), with
that arm's poison; with a poisoned condition it takes the deferred poison fault (CAUSE 0x07, SUB 1, KTVAL the
register); with d = 0 it has no effect but to issue. chk with its registers not stalling is taken to linePC +
sext(off13) x 32 when either operand is poisoned, else not taken, and changes nothing else, so it clears no poison.
Both decode from their opcodes. Rules: R106. -/
def Obligations.CommitSelectsAndChkTests : Prop :=
  ∀ d a b, ∀ off : Int, d < 64 → a < 64 → b < 64 → -4096 ≤ off → off ≤ 4095 →
    decode .c (wordCr 0x43 d a b) [] = .ok (.commit d a b) ∧ decode .c (wordCi 0x44 a b off) [] = .ok (.chk a b off) ∧
    ∀ s : State,
      (Ready s [d, a, b] → s.me.poisoned d = true → exec (.commit d a b) s = s.raise 0x07 1 (BitVec.ofNat 64 d)) ∧
      (Ready s [d, a, b] → s.me.poisoned d = false → s.me.val d ≠ 0 →
        exec (.commit d a b) s = .next (wrote s d (s.me.val a) (s.me.poisoned a))) ∧
      (Ready s [d, a, b] → s.me.poisoned d = false → s.me.val d = 0 →
        exec (.commit d a b) s = .next (wrote s d (s.me.val b) (s.me.poisoned b))) ∧
      (Ready s [a, b] → exec (.commit 0 a b) s = .next s.issued) ∧
      (Ready s [a, b] → exec (.chk a b off) s = .next (decided s
        (if s.me.poisoned a || s.me.poisoned b then Decision.taken (((s.cur.addr : Int) + off * 32) % 2 ^ 64).toNat else Decision.notTaken)))

/-- Each conditional branch decodes from its word and is taken exactly when its comparison holds. For each branch of R112,
every register pair and offset of -4096 to 4095 lines, the word op << 25 + a << 19 + b << 13 + off13 decodes to the
branch, and with s[a] and s[b] neither stalling nor poisoned exec answers the next state in which the lane has issued
and its line is taken to linePC + sext(off13) x 32 when the comparison (in integers) holds, else not taken. Rules:
R112. -/
def Obligations.BranchDecisions : Prop :=
  ∀ r ∈ branchForms, ∀ a b, ∀ off : Int, a < 64 → b < 64 → -4096 ≤ off → off ≤ 4095 →
    decode .c (wordCi r.1 a b off) [] = .ok (r.2.1 a b off) ∧
    ∀ s : State, Ready s [a, b] → s.me.poisoned a = false → s.me.poisoned b = false →
      exec (r.2.1 a b off) s = .next (decided s
        (if r.2.2 (s.me.val a) (s.me.val b) then Decision.taken (((s.cur.addr : Int) + off * 32) % 2 ^ 64).toNat else Decision.notTaken))

/-- jal, jalr and callg write the link and transfer; a misaligned target or a slot out of range faults. jal writes linePC
+ 32 to s[d] and takes the line to linePC + sext(off19) x 32. jalr, unpoisoned, reads T = s[a] + sext(imm13) x 32
first, then links and transfers to T; nonzero bits [4:0] of T raise CAUSE 0x08 with KTVAL = T. callg whose slot word
has come back links and transfers to it under the same alignment check; a slot at or beyond 4096 x KGOT[63:56] raises
illegal instruction with KTVAL = slot; a poisoned slot word raises CAUSE 0x07 with KTVAL the slot's address. Rules:
R113, R36, R105. -/
def Obligations.JumpsLinkAndTransfer : Prop :=
  ∀ s : State, ∀ d, d < 64 → Ready s [d] →
    let go := fun (t : Nat) => (s.updMe fun x => (x.write d (BitVec.ofNat 64 (s.cur.addr + 32)) false).setDec (.taken t)).issued
    (∀ off : Int, exec (.jal d off) s = .next (go (((s.cur.addr : Int) + 32 * off) % 2 ^ 64).toNat)) ∧
    (∀ a, ∀ i : Int, Ready s [a] → s.me.poisoned a = false →
      let t := s.me.val a + BitVec.ofInt 64 (i * 32)
      (t.toNat % 32 = 0 → exec (.jalr d a i) s = .next (go t.toNat)) ∧
      (t.toNat % 32 ≠ 0 → exec (.jalr d a i) s = s.raise 0x08 0 t)) ∧
    (∀ slot, 4096 * (s.me.k.kgot.toNat / 2 ^ 56) ≤ slot → exec (.callg d slot) s = s.raise 0x02 0 (BitVec.ofNat 64 slot)) ∧
    (∀ slot, slot < 4096 * (s.me.k.kgot.toNat / 2 ^ 56) → ∀ l v p, s.me.ctl.line = some l → l.slot = some (v, p) →
      (p = true → exec (.callg d slot) s =
        s.raise 0x07 1 (BitVec.ofNat 64 (s.me.k.kgot.toNat / 8 % 2 ^ 53 * 8 + 8 * slot))) ∧
      (p = false → v.toNat % 32 ≠ 0 → exec (.callg d slot) s = s.raise 0x08 0 v) ∧
      (p = false → v.toNat % 32 = 0 → exec (.callg d slot) s = .next (go v.toNat)))

/-- A loop or loopp in any of the four cases of R120 raises an illegal-instruction fault. With the count register not
stalling, each of these makes loop and loopp take the illegal-instruction fault and nothing else: K is not D; D is the
declared loop depth; a loop is active and the new end line lies beyond the end line of the innermost; loopp while a
loopp is active. Rules: R120. -/
def Obligations.LoopIllegalCases : Prop :=
  ∀ (s : State) (k st fin : Nat) (cnt : LoopCount), Ready s (countRegs cnt) →
    let l := s.me.loops
    (k ≠ l.d ∨ s.me.ctx.depth ≤ l.d ∨ (0 < l.d ∧ (l.lvl (l.d - 1)).fin < s.cur.addr + fin * 32) →
      exec (.loop k cnt fin) s = s.raise 0x02 0 (BitVec.ofNat 64 s.cur.word)) ∧
    (k ≠ l.d ∨ s.me.ctx.depth ≤ l.d ∨ (0 < l.d ∧ (l.lvl (l.d - 1)).fin < s.cur.addr + fin * 32) ∨ l.pipe = true →
      exec (.loopp k st cnt fin) s = s.raise 0x02 0 (BitVec.ofNat 64 s.cur.word))

/-- A legal loop reads its count and, when its line resolves, sets up its level as R121 says. With the count register
neither stalling nor poisoned, none of the cases of R120 and a count below 2^32, loop and loopp issue with the
decision that names level, stages, count and end. A line at pc with that decision resolves: for a count of 0 as a
fall-through to linePC + end x 32; else level K gets ITER = count (loopp: count + stages - 1), IDX = 0, START = linePC
+ 32, END = linePC + end x 32, D goes up by one and the next line is START. Rules: R119, R120, R121, R104. -/
def Obligations.LoopsStartAndResolve : Prop :=
  ∀ (s : State) (k st fin : Nat) (cnt : LoopCount), Ready s (countRegs cnt) → s.me.firstPoison (countRegs cnt) = none →
    let l := s.me.loops
    let n := (countVal s.me cnt).toNat
    k = l.d → l.d < s.me.ctx.depth → (0 < l.d → s.cur.addr + fin * 32 ≤ (l.lvl (l.d - 1)).fin) → n < 2 ^ 32 →
    exec (.loop k cnt fin) s = .next (decided s (.loop false k 1 n fin)) ∧
    (l.pipe = false → exec (.loopp k st cnt fin) s = .next (decided s (.loop true k st n fin))) ∧
    ∀ (piped : Bool) (pc : Nat), k < 3 → 1 ≤ st →
      (n = 0 → nextOf l pc (.loop piped k st n fin) = endOfBody 3 l (pc + fin * 32)) ∧
      (0 < n →
        let r := nextOf l pc (.loop piped k st n fin)
        r.2 = pc + 32 ∧ r.1.d = l.d + 1 ∧
        r.1.lvl k = ⟨if piped then n + st - 1 else n, 0, pc + 32, pc + fin * 32⟩ ∧
        (∀ j, j < 3 → j ≠ k → r.1.lvl j = l.lvl j) ∧ r.1.pipe = (l.pipe || piped) ∧
        (piped = true → r.1.plvl = k ∧ r.1.stg = st - 1))

/-- ld, st, amo and amocas check poison, address, alignment and translation in order, each fault precise at the lane. When
none of its registers stalls and no release fence holds an atomic back: a poisoned used register takes the deferred
poison fault with that register's number; else an address with nonzero bits [63:56] or in the basin aperture takes
CAUSE 0x0A; else a misaligned one CAUSE 0x09; else a failed translation takes CAUSE 0x0D; KTVAL is the address (of a
failed translation, the address of R259). Scope .lane of amo and amocas is an illegal instruction. Rules: R115, R171,
R209, R105, R247. -/
def Obligations.ScalarAccessFaults : Prop :=
  (∀ (s : State) (i : Instr) (k : Access), accessOf s.me i = some k → Ready s k.regs → NotFenced s k.acc →
    (∀ pre r post, k.used = pre ++ r :: post → (∀ q ∈ pre, s.me.poisoned q = false) → s.me.poisoned r = true →
      exec i s = s.raise 0x07 1 (BitVec.ofNat 64 r)) ∧
    ((∀ r ∈ k.used, s.me.poisoned r = false) →
      (2 ^ 56 - 2 ^ 28 ≤ k.va.toNat → exec i s = s.raise 0x0A 0 k.va) ∧
      (k.va.toNat < 2 ^ 56 - 2 ^ 28 → k.va.toNat % k.size ≠ 0 → exec i s = s.raise 0x09 0 k.va) ∧
      (∀ e, k.va.toNat < 2 ^ 56 - 2 ^ 28 → k.va.toNat % k.size = 0 →
        s.translate s.cur.die s.me s.me.ctl.level k.acc k.va.toNat = .error e →
        exec i s = s.raisePend
          { s.faultHere 0x0D 0 (BitVec.ofNat 64 e.tval) with xsyn := some e.word, stage2 := e.stage2 }))) ∧
  (∀ (s : State) op d a b, exec (.amo op .lane d a b) s = s.raise 0x02 0 (BitVec.ofNat 64 s.cur.word) ∧
    exec (.amocas .lane d a b) s = s.raise 0x02 0 (BitVec.ofNat 64 s.cur.word))

/-- ld and ldp issue and leave s[d] pending; LOAD_RETURN writes the extended value, poisoned from a marked line. A load
whose access is in order and translates issues in one step: s[d] pending, the read recorded at its physical address.
ldp reads the bytes of its word that lie inside the window's bound, at base + 8 x idx, in up to two pages, and sets
KCSTAT.WIN where not all do; wholly beyond the bound s[d] is 0 at once; an unbound or stale window faults with CAUSE
0x05, SUB 1 or 2, KTVAL the window. When the outstanding read n of core c returns (no channel of it retraining, no
earlier read of its bytes still out), s[d] gets the bytes extended as its width says, or poison and zero from a marked
line, and the read is over; one with an earlier read of its bytes out waits. Rules: R115, R116, R117, R411. -/
def Obligations.LoadsIssueAndReturn : Prop :=
  (∀ (s : State) w d a off k o, accessOf s.me (.ld w d a off) = some k → AccessOk s k →
    s.translate s.cur.die s.me s.me.ctl.level .read k.va.toNat = .ok o →
    exec (.ld w d a off) s = .next (sentRead (s.updMe fun x => x.cache o.walked) (.ld w) d o.pa)) ∧
  (∀ (s : State) d win idx, Ready s [d] →
    (s.me.ctx.windows[win]? = none → exec (.ldp d win idx) s = s.raise 0x05 1 (BitVec.ofNat 64 win)) ∧
    (∀ b, s.me.ctx.windows[win]? = some b →
      let va := b.base + 8 * idx
      let n := min 8 (b.bound - 8 * idx)
      let head := min n (4096 - va % 4096)
      let flagged := fun (x : Core) => if n < 8 then { x with k := { x.k with kcstat := x.k.kcstat ||| 1 } } else x
      (b.valid = false → exec (.ldp d win idx) s = s.raise 0x05 1 (BitVec.ofNat 64 win)) ∧
      (b.valid = true → b.gen ≠ s.wgen s.me → exec (.ldp d win idx) s = s.raise 0x05 2 (BitVec.ofNat 64 win)) ∧
      (b.valid = true → b.gen = s.wgen s.me →
        (b.bound ≤ 8 * idx → exec (.ldp d win idx) s = .next (wrote (s.updMe flagged) d 0 false)) ∧
        (∀ o, 8 * idx < b.bound → va < 2 ^ 56 - 2 ^ 28 → s.translate s.cur.die s.me s.me.ctl.level .read va = .ok o →
          let s1 := s.updMe fun x => x.cache o.walked
          (head = n → exec (.ldp d win idx) s = .next (sentRead (s1.updMe flagged) (.ldp n 0 0) d o.pa)) ∧
          (∀ p, head < n → va + head < 2 ^ 56 - 2 ^ 28 →
            s1.translate s1.cur.die s1.me s1.me.ctl.level .read (va + head) = .ok p →
            exec (.ldp d win idx) s = .next (sentRead ((s1.updMe fun x => x.cache p.walked).updMe flagged)
              (.ldp head p.pa (n - head)) d o.pa)))))) ∧
  (∀ (s : State) d c n l, (s.core d c).fl.loads[n]? = some l → l.kind ≠ .slot →
    let older := ∃ o ∈ (s.core d c).fl.loads.take n, ∃ p ∈ l.places, o.reads p.1 p.2 = true
    let r := l.places.map fun p => s.coreRead d c p.1 p.2 l.seq
    let bs := r.flatMap (·.1)
    let bad := r.any (·.2)
    let v : W64 := match l.kind with
      | .ld w => loaded w (leNat bs)
      | _ => BitVec.ofNat 64 (leNat bs)
    (older → exec (.loadReturn d c n) s = .next s) ∧
    (¬ older → (∀ p ∈ l.places, s.channelBusy d p.1 p.2 = false) →
      exec (.loadReturn d c n) s = .next ((l.places.foldl (fun s p => s.touchPa d p.1 p.2 .plain) s).updCore d c fun x =>
        { x with fl := { x.fl with loads := x.fl.loads.eraseIdx n } }.land l.reg (if bad then 0 else v) bad)))

/-- st posts the low bytes of s[d]; STORE_PERFORMED_AT_HOME moves a store to its quad and then writes it at its home. A
store in order that translates and whose dirty bit can be set issues with the low bytes of s[d], little-endian, posted
at its physical address under the tenant's key. A posted store that no older store or load of its core overlaps, and
no release fence before it holds back, moves from the core's path to its quad's (held back by a fence it stays); the
oldest overlapping store of a quad's path is written at its home and leaves the path, unless its pseudo-channel is
retraining. Rules: R115, R116, R253, R357, R415. -/
def Obligations.StoresPostAndPerform : Prop :=
  (∀ (s t : State) w d a off k o, accessOf s.me (.st w d a off) = some k → AccessOk s k →
    s.translate s.cur.die s.me s.me.ctl.level .write k.va.toNat = .ok o →
    (let s1 := s.updMe fun x => x.cache o.walked
     s1.setDirty s.cur.die s1.me 1 o.ipa = .ok t) →
    exec (.st w d a off) s = .next (t.updMe fun x => { x with fl := { x.fl with
      stores := x.fl.stores ++ [⟨o.pa, o.ipa, leBytes (storeSize w) (s.me.val d).toNat, t.keyOf t.cur.die x.ctx.tenant, x.fl.seq, none⟩]
      seq := x.fl.seq + 1 } }).issued) ∧
  (∀ (s : State) d c n st, (s.core d c).fl.stores[n]? = some st →
    (∀ o ∈ (s.core d c).fl.stores, o.seq < st.seq → overlaps o.pa o.bytes.length st.pa st.bytes.length = false) →
    (∀ l ∈ (s.core d c).fl.loads, l.seq ≤ st.seq → l.reads st.pa st.bytes.length = false) →
    exec (.storePerformedAtHome d c n) s = .next (
      if s.fenceHolds d c st.seq = true then s else s.toQuad d c fun t => t.seq == st.seq)) ∧
  (∀ (s : State) d c n m st, (s.core d c).fl.stores[n]? = none → m = n - (s.core d c).fl.stores.length →
    (s.die d).qpath[m]? = some st →
    (∀ o ∈ (s.die d).qpath.take m, o.core / 4 = st.core / 4 → overlaps o.pa o.bytes.length st.pa st.bytes.length = false) →
    exec (.storePerformedAtHome d c n) s = .next (
      if s.channelBusy d st.pa st.bytes.length = true then s else s.performQuad d fun t => t.core == st.core && t.seq == st.seq))

/-- A load sees the latest earlier store of its core, written bytes read back, and PA[55:52] selects the region a physical
address reaches. Where no line of the bytes is marked, a read of n bytes at the address and length of the last posted
store with a number below the load's own gives exactly that store's bytes, whatever older stores stand in the path or
at the home. The store's key is the context's, its address leads somewhere, and memories are in canonical form. For a
canonical memory and bytes none of whose lines is marked: reading them back under the writer's key gives them; every
line they do not touch keeps its mark, its key and every byte; and a byte beside them in a line already under that key
is as before. For every PA below 2^56 and die d: region 0 with [51:36] zero is the byte of die d's own stack; region 1
with [51:23] zero is the byte of the window of die [22:20] of d's package; region 2 with [51:48] zero is the host
byte; everything else is unreachable. Rules: R4, R116, R179, R246, R357, R411, R422. -/
def Obligations.MemoryReadsWhatWasWritten : Prop :=
  (∀ (s : State) (d c n : Nat) (pre post : List PStore) (st : PStore), Canonical s → Leads s d st.pa →
    (s.core d c).fl.stores = pre ++ st :: post → st.seq < n → (∀ o ∈ post, n ≤ o.seq) → st.bytes.length < 65 →
    st.key = s.keyOf d (s.core d c).ctx.tenant → (s.readPa d st.key st.pa st.bytes.length).2 = false →
    s.coreRead d c st.pa st.bytes.length n = (st.bytes, false)) ∧
  (∀ (m : Store) (k a : Nat) (bs : List Byte), m.bytes.wf = true → m.anyBad a bs.length = false → bs ≠ [] →
    (m.write k a bs).read k a bs.length = bs ∧
    (∀ k' b, b / 64 < a / 64 ∨ (a + bs.length - 1) / 64 < b / 64 → (m.write k a bs).byte k' b = m.byte k' b) ∧
    (∀ b, b < a ∨ a + bs.length ≤ b → assocGet m.keys (b / 64) = k → (m.write k a bs).byte k b = m.byte k b)) ∧
  (∀ d pa, pa < 2 ^ 56 →
    let r := pa / 2 ^ 52
    (r = 0 → pa / 2 ^ 36 % 2 ^ 16 = 0 → paPlace d pa = .stack (pa % 2 ^ 36)) ∧
    (r = 1 → pa / 2 ^ 23 % 2 ^ 29 = 0 → paPlace d pa = .window (8 * (d / 8) + pa / 2 ^ 20 % 8) (pa % 2 ^ 20)) ∧
    (r = 2 → pa / 2 ^ 48 % 2 ^ 4 = 0 → paPlace d pa = .host (pa % 2 ^ 48)) ∧
    (3 ≤ r ∨ (r = 0 ∧ pa / 2 ^ 36 % 2 ^ 16 ≠ 0) ∨ (r = 1 ∧ pa / 2 ^ 23 % 2 ^ 29 ≠ 0) ∨ (r = 2 ∧ pa / 2 ^ 48 % 2 ^ 4 ≠ 0) →
      paPlace d pa = .unreachable))

/-- amo and amocas read 8 bytes and post what they write in one step, and s[d] gets the old value when it returns. In
order, translated, and with no release fence before it unmet and no earlier load of its bytes out nor their pseudo-
channel retraining (else it waits), an atomic first ends the atomics of others that it must follow. A marked line
takes the memory-poison fault and nothing is written. Else amo posts the value its operation gives (in integers) and
amocas posts s[b] only where the old value is s[d], as a store that holds its scope; s[d] is pending with the old
value outstanding. AMO_OLD_VALUE_RETURN writes it, unpoisoned. Rules: R207, R208, R209, R253, R415. -/
def Obligations.AtomicsReadModifyWrite : Prop :=
  (∀ (s : State) i sc d k o (new : W64 → Option W64), accessOf s.me i = some k → AccessOk s k →
    (∃ a b, (∃ op, i = .amo op sc d a b ∧ ∀ old, new old = some (atomicValue op old (s.me.val b))) ∨
      (i = .amocas sc d a b ∧ ∀ old, new old = if old = s.me.val d then some (s.me.val b) else none)) →
    (s.fenceHolds s.cur.die s.cur.core s.me.fl.seq = true → exec i s = .next s) ∧
    (NotFenced s .atomic → s.translate s.cur.die s.me s.me.ctl.level .atomic k.va.toNat = .ok o →
      let s0 := s.updMe fun x => x.cache o.walked
      let s1 := (s0.settle sc s.cur.die s.cur.core o.pa 8).touchPa s.cur.die o.pa 8 .plain
      let r := s1.coreRead s.cur.die s.cur.core o.pa 8 s1.me.fl.seq
      let back := fun (u : State) => u.updMe fun x => { x.pendReg d with
        fl := { x.fl with amos := x.fl.amos ++ [⟨if s1.me.heldPending d then 0 else d, leWord r.1, x.fl.seq⟩] } }
      ((∃ l ∈ s.me.fl.loads, l.reads o.pa 8 = true) ∨ s.channelBusy s.cur.die o.pa 8 = true → exec i s = .next s0) ∧
      ((∀ l ∈ s.me.fl.loads, l.reads o.pa 8 = false) → s.channelBusy s.cur.die o.pa 8 = false →
        (r.2 = true → exec i s = s1.raise 0x0E 0 k.va) ∧
        (r.2 = false → new (leWord r.1) = none → exec i s = .next (back s1).issued) ∧
        (∀ v t, r.2 = false → new (leWord r.1) = some v → s1.setDirty s.cur.die s1.me 3 o.ipa = .ok t →
          exec i s = .next ((back t).updMe fun x => { x with fl := { x.fl with
            stores := x.fl.stores ++ [⟨o.pa, o.ipa, leBytes 8 v.toNat, t.keyOf s.cur.die x.ctx.tenant, x.fl.seq, some sc⟩]
            seq := x.fl.seq + 1 } }).issued)))) ∧
  (∀ (s : State) d c n a, (s.core d c).fl.amos[n]? = some a →
    exec (.amoOldValueReturn d c n) s = .next (s.updCore d c fun x =>
      { x with fl := { x.fl with amos := x.fl.amos.eraseIdx n } }.land a.reg a.old false))

/-- fence, bar, tlread and tlwait complete when what they wait for has happened; a full barrier generation completes.
fence.rel issues at once and takes its place before the later stores; fence.acq and .ar issue once the core's loads
and atomics are back, else they wait. bar arrives once they are back and its stores are visible at the scope, and
issues: at once where it is alone, else once its generation has completed. tlread writes the counter without a stall;
tlwait issues once the counter is at least s[a] (and, where it covers a pbar, the loads and atomics are back), else it
waits. BARRIER_COMPLETION and its partition form count a generation done once every participant has arrived or ended.
Scopes these do not have are illegal instructions. Rules: R205, R206, R210, R211, R212. -/
def Obligations.FencesBarriersTimelines : Prop :=
  (∀ (s : State) sc, sc ≠ .lane → exec (.fence .rel sc) s = .next (s.postFence sc).issued ∧
    (s.me.fl.loads = [] → s.me.fl.amos = [] → exec (.fence .acq sc) s = .next s.acquire.issued ∧
      exec (.fence .ar sc) s = .next (s.postFence sc).acquire.issued) ∧
    (s.me.fl.loads ≠ [] ∨ s.me.fl.amos ≠ [] → exec (.fence .acq sc) s = .next s ∧ exec (.fence .ar sc) s = .next s)) ∧
  (∀ (s : State) kind, exec (.fence kind .lane) s = s.raise 0x02 0 (BitVec.ofNat 64 s.cur.word)) ∧
  (∀ (s : State) sc, sc = .lane ∨ sc = .core ∨ sc = .pod → exec (.bar sc) s = s.raise 0x02 0 (BitVec.ofNat 64 s.cur.word)) ∧
  (∀ (s : State) sc, sc = .quad ∨ sc = .die ∨ sc = .pkg →
    (s.findNet (some sc) s.me.launchKey s.me.place = none → s.me.fl.loads = [] → s.me.fl.amos = [] → s.storesAt sc = true →
      exec (.bar sc) s = .next (s.publish sc).acquire.issued) ∧
    (∀ i n p, s.findNet (some sc) s.me.launchKey s.me.place = some i → s.nets[i]? = some n → n.part s.me.place = some p →
      (p.waiting = some s.barKey → p.count ≤ n.done → exec (.bar sc) s =
        .next (s.updNet i fun n => n.setPart s.me.place fun p => { p with waiting := none }).acquire.issued) ∧
      (p.waiting = some s.barKey → n.done < p.count → exec (.bar sc) s = .next s) ∧
      (p.waiting ≠ some s.barKey → s.me.fl.loads = [] → s.me.fl.amos = [] → s.storesAt sc = true →
        exec (.bar sc) s = .next (
          if n.parts.length = 1 then ((s.publish sc).updNet i fun n =>
            { n.setPart s.me.place (fun p => { p with count := p.count + 1 }) with done := n.done + 1 }).acquire.issued
          else (s.publish sc).updNet i fun n => n.setPart s.me.place fun p =>
            { p with count := p.count + 1, waiting := some s.barKey })))) ∧
  (∀ (s : State) tl d, Ready s [d] → exec (.tlread tl d) s = .next (wrote s d (BitVec.ofNat 64 (s.me.tls.get tl).counter) false)) ∧
  (∀ (s : State) tl a, Ready s [a] → s.me.poisoned a = false →
    let v := (s.me.val a).toNat
    let covers := tl = .tlf ∧ ∃ n ∈ s.me.fl.pbars, n ≤ v
    (v ≤ (s.me.tls.get tl).counter → ¬ covers → exec (.tlwait tl a) s = .next s.issued) ∧
    (v ≤ (s.me.tls.get tl).counter → covers →
      (s.me.loadsBack = true → exec (.tlwait tl a) s = .next (s.updMe fun x =>
        { x with fl := { x.fl with pbars := x.fl.pbars.filter fun n => decide (v < n) } }).issued) ∧
      (s.me.loadsBack = false → exec (.tlwait tl a) s = .next s)) ∧
    ((s.me.tls.get tl).counter < v → exec (.tlwait tl a) s = .next s)) ∧
  (∀ (s : State) n b, s.nets[n]? = some b → (∀ p ∈ b.parts, p.ended = true ∨ b.done < p.count) → (∃ p ∈ b.parts, p.ended = false) →
    let t := s.updNet n fun b => { b with done := b.done + 1 }
    (b.scope ≠ none → exec (.barrierCompletion n) s = .next t) ∧
    (b.scope = none → exec (.partitionBarrierCompletion n) s = .next { t with dies := t.dies.map fun y =>
      { y with cores := y.cores.map fun x => x.passBarrier { b with done := b.done + 1 } } }))

/-- The lowest-numbered range entry that matches an address decides its translation and permissions. In a table whose
entries before number i are readable and do not match x (V clear, or x's page outside LO to HI), and whose entry i
matches: with a nonzero zero field or both W and WGT the lookup is a bad-entry fault (KIND 3); else its output is (x +
OFF) mod 2^56 with the entry's permissions. A table none of whose entries match decides nothing. LO above HI matches
nothing. Rules: R241. -/
def Obligations.RangeTableLookup : Prop :=
  let hits := fun (x : Nat) (e : RangeSlot) => ∃ lo hi off attr, e = .entry lo hi off attr ∧ attr.getLsbD 0 = true ∧
    lo.toNat / 2 ^ 12 % 2 ^ 44 ≤ x / 2 ^ 12 ∧ x / 2 ^ 12 ≤ hi.toNat / 2 ^ 12 % 2 ^ 44
  let readable := fun (e : RangeSlot) => ∃ lo hi off attr, e = .entry lo hi off attr
  (∀ (pre post : List RangeSlot) (lo hi off attr : W64) (x : Nat), (∀ e ∈ pre, readable e ∧ ¬ hits x e) →
    hits x (.entry lo hi off attr) →
    let bad := lo.toNat / 2 ^ 56 ≠ 0 ∨ lo.toNat % 2 ^ 12 ≠ 0 ∨ hi.toNat / 2 ^ 56 ≠ 0 ∨ hi.toNat % 2 ^ 12 ≠ 0 ∨
      off.toNat / 2 ^ 56 ≠ 0 ∨ off.toNat % 2 ^ 12 ≠ 0 ∨ attr.toNat / 2 ^ 6 ≠ 0 ∨ (attr.getLsbD 2 = true ∧ attr.getLsbD 4 = true)
    (bad → lookupRange (pre ++ .entry lo hi off attr :: post) x = some (.error (3, none))) ∧
    (¬ bad → ∃ o, lookupRange (pre ++ .entry lo hi off attr :: post) x = some (.ok o) ∧ o.out = (x + off.toNat) % 2 ^ 56 ∧
      o.r = attr.getLsbD 1 ∧ o.w = attr.getLsbD 2 ∧ o.x = attr.getLsbD 3 ∧ o.wgt = attr.getLsbD 4 ∧ o.app = attr.getLsbD 5)) ∧
  (∀ (l : List RangeSlot) (x : Nat), (∀ e ∈ l, readable e ∧ ¬ hits x e) → lookupRange l x = none)

/-- A trap goes to the level R258 names, one higher where the handler is absent, and at H stops the core. From A a stage-2
fault or a check alarm goes to H and every other cause to S; from S every cause goes to H; a level whose KTVEC.LINE is
0 passes the trap on as if it had been raised there; from H, or past H, the core (no debug stop or pre-emption falling
on the same edge) stops and HINT bit 0 (core stopped) is raised with the core's number, and nothing else of the core
changes. Rules: R258. -/
def Obligations.TrapTargetLevels : Prop :=
  (∀ x : Core,
    let vS := x.bankS.ktvec.toNat / 2 ^ 5 % 2 ^ 51
    let vH := x.bankH.ktvec.toNat / 2 ^ 5 % 2 ^ 51
    trapTarget x 0 true = (if vH = 0 then none else some 2) ∧
    trapTarget x 0 false = (if vS ≠ 0 then some 1 else if vH ≠ 0 then some 2 else none) ∧
    (∀ b, trapTarget x 1 b = if vH = 0 then none else some 2) ∧ (∀ b, trapTarget x 2 b = none)) ∧
  (∀ f : PendFault, f.toH = true ↔ (f.stage2 = true ∨ f.cause = 0x40)) ∧
  (∀ (s : State) (d c : Nat) (f : PendFault), s.hasCore d c = true → (s.core d c).ctl.faults = [] → (s.core d c).edgeStop = none →
    trapTarget (s.core d c) (s.core d c).ctl.level f.toH = none →
    let t := s.takeTrap d c f
    t.core d c = { s.core d c with ctl := { (s.core d c).ctl with run := .stopped } } ∧
    (t.die d).hreg.hint.getLsbD 0 = true ∧ (t.die d).hreg.stopCore = c ∧ SameMemory s t)

/-- Taking a trap writes the bank of the target level, shadows the loops, raises the level and goes to the handler. When
the earliest-delivered of the pending faults and f has a target level and no stop falls on the same edge (R402): that
bank gets KCAUSE = CAUSE << 8 + SUB, KTVAL, KEPC = line + 4 x lane, KMPC, PP = the level before and SKIP = 0, KXSYN
where the fault has one, the loop state and the faulting line's decision; KTVEC and the scratch registers of the bank
and the whole other bank are kept; no loop is active, the level is the target, the next line KTVEC.LINE, and no fault
is pending. With no context held the core freezes and holds it; a context held already stays held, with no second
freeze. The scalar registers are unchanged, and, where no V result has rows to come, the tiles and K registers. Rules:
R261, R258, R260, R267, R123, R262. -/
def Obligations.TrapEntryEffects : Prop :=
  ∀ (s : State) (d c : Nat) (f0 : PendFault) (tgt : Nat), s.hasCore d c = true →
    let x := s.core d c
    let f := firstFault f0 x.ctl.faults
    trapTarget x x.ctl.level f.toH = some tgt → (x.edgeStop = none ∨ f.yields = false) →
    let y := (s.takeTrap d c f0).core d c
    let b := y.bank tgt
    let b0 := x.bank tgt
    (b.kcause = BitVec.ofNat 64 (f.cause * 256 + f.sub) ∧ b.ktval = f.tval ∧
      b.kepc = BitVec.ofNat 64 (f.addr % 2 ^ 56 / 32 * 32 + 4 * f.lane) ∧ b.kmpc = BitVec.ofNat 64 f.mpc ∧
      b.kxsyn = f.xsyn.getD b0.kxsyn ∧ b.pp = x.ctl.level ∧ b.skip = false ∧ b.shadow = x.loops ∧ b.dec = x.ctl.decOf f.rank ∧
      b.ktvec = b0.ktvec ∧ b.kscr0 = b0.kscr0 ∧ b.kscr1 = b0.kscr1) ∧
    y.bank (3 - tgt) = x.bank (3 - tgt) ∧ y.loops = { x.loops with d := 0, pipe := false, plvl := 0, stg := 0 } ∧
    (y.ctl.level = tgt ∧ y.ctl.line = none ∧ y.ctl.nextLine = b0.ktvec.toNat / 2 ^ 5 % 2 ^ 51 * 32 ∧ y.ctl.faults = []) ∧
    (x.ctl.hold = none → y.ctl.frozen = true ∧ y.ctl.hold = some (x.holdOf tgt)) ∧
    (∀ h, x.ctl.hold = some h → y.ctl.frozen = x.ctl.frozen ∧ y.ctl.hold = some h ∧ y.fl = x.fl ∧ y.strm = x.strm) ∧
    y.regs = x.regs ∧ y.x = x.x ∧ ((x.ctl.hold ≠ none ∨ ∀ v ∈ x.fl.vres, v.late = false) → y.tiles = x.tiles ∧ y.k = x.k)

/-- trap takes CAUSE 0x14 or ends the context; eret is refused at A or with nothing held, and else returns as R263 says. A
code of 1 to 8191 takes the trap with CAUSE 0x14, SUB 0, KTVAL the code. Code 0 waits while a group is queued or a
command incomplete; else the context ends, its stores performed and its slot given back (a core that holds no context
only becomes free, log 22). At A eret takes the privilege fault; with no held context at or below its level the
illegal-instruction fault. Else exec answers the next state in which the core has returned. The return gives the loop
state of the bank's shadow and the level PP; where PP = A or the hold was taken at this level, the hold ends, the
freeze with it, and parked, withdrawn and yielded commands wait to run again; a C-lane cause refetches the line at
KEPC from KEPC's lane and KMPC's repetition (the next lane for SKIP or CAUSE 0x14) with the kept decision only while
KEPC names that line; another cause goes on where fetch stood. Otherwise the hold stays. A bar that the return does
not come back to is left. Rules: R264, R377, R263, R262, R271, R123. -/
def Obligations.TrapsAndReturns : Prop :=
  (∀ s : State,
    (∀ code, 1 ≤ code → code ≤ 8191 → s.cur.engine = .c → exec (.trap code) s = .next (s.takeTrap s.cur.die s.cur.core
      ⟨s.cur.rank, 0x14, 0, BitVec.ofNat 64 code, s.cur.addr, s.cur.lane, s.cur.rep * 2 ^ 24, none, false, true⟩)) ∧
    (s.me.q.all ≠ [] ∨ s.me.fl.cmds ≠ [] → exec (.trap 0) s = .next s) ∧
    (s.me.q.all = [] → s.me.fl.cmds = [] →
      (s.me.k.kslot.toNat = 255 → exec (.trap 0) s = .next (s.freeCore s.cur.die s.cur.core)) ∧
      (s.me.k.kslot.toNat ≠ 255 → exec (.trap 0) s =
        .next (s.endContext s.cur.die s.cur.core (if s.me.ctl.level = 0 then 0 else 0x10))))) ∧
  ((∀ s : State, s.me.ctl.level = 0 → exec .eret s = s.raise 0x12 0 (BitVec.ofNat 64 s.cur.word)) ∧
  (∀ s : State, s.me.ctl.level ≠ 0 → (∀ h, s.me.ctl.hold = some h → s.me.ctl.level < h.level) →
    exec .eret s = s.raise 0x02 0 (BitVec.ofNat 64 s.cur.word)) ∧
  (∀ (s : State) h, s.me.ctl.level ≠ 0 → s.me.ctl.hold = some h → h.level ≤ s.me.ctl.level →
    let d := s.cur.die
    let c := s.cur.core
    let s1 := s.updCore d c fun x => (x.eretCore Core.dropGroup).progress
    let y := s1.core d c
    let s2 := s1.leaveBars y y.resumeKey
    exec .eret s = .next (if y.ctl.hold.isSome then s2
      else (((s2.replaySees d c s.me).resumeTasks d c).handOverAll d c).launchF d c)) ∧
  (∀ (x : Core) h, x.ctl.hold = some h →
    let b := x.bank x.ctl.level
    let y := x.eretCore Core.dropGroup
    let line := b.kepc.toNat / 2 ^ 5 % 2 ^ 51 * 32
    let lane := b.kepc.toNat / 2 ^ 2 % 2 ^ 3
    let past := b.skip = true ∨ b.kcause.toNat / 256 = 0x14
    y.loops = b.shadow ∧ y.ctl.level = b.pp ∧
    (b.pp ≠ 0 → h.level ≠ x.ctl.level → y.ctl.hold = some h) ∧
    (b.pp = 0 ∨ h.level = x.ctl.level →
      y.ctl.hold = none ∧ y.ctl.frozen = false ∧
      (∀ k ∈ y.fl.cmds, k.st ≠ .parked ∧ k.st ≠ .withdrawn ∧ k.st ≠ .yielded) ∧
      (b.clane = true → y.ctl.line = none ∧ ∃ r, y.ctl.refetch = some r ∧ r.line = line ∧
        r.lane = (if past then lane + 1 else lane) ∧ r.rep = (if past then 0 else b.kmpc.toNat / 2 ^ 24 % 2 ^ 8) ∧
        r.dec = if line = b.line then b.dec else .undecided) ∧
      (b.clane = false → y.ctl.line = h.line ∧ y.ctl.nextLine = h.nextLine ∧ y.ctl.refetch = h.refetch))))

/-- mfk and mtk check the level, refuse unassigned numbers, read the register and write its RW and W1C bits. For each
register of R266: an mfk below its read level takes the privilege fault with KTVAL the instruction word, whatever the
registers hold; an mtk below its write level with s[a] not stalling takes it too, after the illegal-instruction fault
for a value that the register's rule rejects (R260). Numbers below 0x060 that the table does not give, and all from
0x100 on, take the illegal-instruction fault. At or above the read level, with s[d] not stalling (KVSTAT: earlier V
instructions retired), mfk writes the register's value, unpoisoned, for every register. mtk of each register that has
only fields (its level, its accepted values and, for a Q register, a context with no group or command, or a hold),
s[a] ready and clean, leaves the register with its RW bits from s[a] and its W1C bits cleared where s[a] has a one,
every other of them, the scalar registers and memory as before; a poisoned s[a] takes the deferred poison fault; an
ignored register is left as it is; KVSTAT's bits clear. A register whose write is a row of its own is written as the
row says, and the lane moves on. Rules: R265, R266, R36, R6, R86, R267. -/
def Obligations.KRegistersAndPrivilege : Prop :=
  ((∀ r ∈ kLevels, ∀ n, r.1 ≤ n → n ≤ r.2.1 → ∀ (s : State) (d : Nat),
    (s.me.ctl.level < r.2.2.1 → exec (.mfk d n) s = s.raise 0x12 0 (BitVec.ofNat 64 s.cur.word)) ∧
    (s.me.ctl.level < r.2.2.2 → Ready s [d] → exec (.mtk d n) s = s.raise 0x12 0 (BitVec.ofNat 64 s.cur.word) ∨
      exec (.mtk d n) s = s.raise 0x02 0 (BitVec.ofNat 64 s.cur.word))) ∧
  (∀ r ∈ plainK, ∀ (s : State) (a : Nat), s.me.ctl.level < r.reg.writeLevel → Ready s [a] → r.ok (s.me.val a).toNat →
    exec (.mtk a r.num) s = s.raise 0x12 0 (BitVec.ofNat 64 s.cur.word)) ∧
  (∀ n, (n < 0x060 ∨ 0x100 ≤ n) → (∀ r ∈ kLevels, ¬ (r.1 ≤ n ∧ n ≤ r.2.1)) → ∀ (s : State) (d : Nat),
    exec (.mfk d n) s = s.raise 0x02 0 (BitVec.ofNat 64 s.cur.word) ∧
    exec (.mtk d n) s = s.raise 0x02 0 (BitVec.ofNat 64 s.cur.word))) ∧
  ((∀ (s : State) d n k, kName n = some k → k.readLevel ≤ s.me.ctl.level → Ready s [d] → (k = .kvstat → s.me.vRetired = true) →
    exec (.mfk d n) s = .next (wrote s d (s.readK s.cur.die s.cur.core k) false)) ∧
  (∀ r ∈ plainK, ∀ (s : State) a, s.focusOk = true → r.reg.writeLevel ≤ s.me.ctl.level → Ready s [a] → r.ok (s.me.val a).toNat →
    (r.q = true → s.me.ctl.hold ≠ none ∨ (s.me.q.all = [] ∧ s.me.fl.cmds = [])) →
    (s.me.poisoned a = true → exec (.mtk a r.num) s = s.raise 0x07 1 (BitVec.ofNat 64 a)) ∧
    (s.me.poisoned a = false → ∃ t, exec (.mtk a r.num) s = .next t ∧
      t.readK s.cur.die s.cur.core r.reg = afterWrite (s.readK s.cur.die s.cur.core r.reg) (s.me.val a) r.rw r.w1 ∧
      (∀ q ∈ plainK, q.num ≠ r.num → t.readK s.cur.die s.cur.core q.reg = s.readK s.cur.die s.cur.core q.reg) ∧
      t.me.regs = s.me.regs ∧ SameMemory s t)) ∧
  (∀ r ∈ plainK, r.q = true → ∀ (s : State) a, r.reg.writeLevel ≤ s.me.ctl.level → Ready s [a] → r.ok (s.me.val a).toNat →
    s.me.ctl.hold = none → (s.me.q.all ≠ [] ∨ s.me.fl.cmds ≠ []) → exec (.mtk a r.num) s = .next s) ∧
  (∀ (s : State) a, Ready s [a] → s.me.poisoned a = false → 1 ≤ s.me.ctl.level →
    ∀ n ∈ [0x000, 0x002, 0x003, 0x004, 0x020, 0x021, 0x022, 0x023, 0x024, 0x025, 0x026, 0x027, 0x028, 0x029, 0x031, 0x036, 0x037,
      0x038], exec (.mtk a n) s = .next s.issued) ∧
  (∀ (s : State) a, s.focusOk = true → Ready s [a] → s.me.poisoned a = false → s.me.vRetired = true → ∃ t,
    exec (.mtk a 0x011) s = .next t ∧ t.me.k.kvstat = s.me.k.kvstat &&& ~~~ (s.me.val a &&& 15)) ∧
  (∀ (s : State) a t, ∀ r ∈ rowK, Ready s [a] → s.me.poisoned a = false →
    s.writeAt s.cur.die s.cur.core r.2 (s.me.val a) = .done t → exec (.mtk a r.1) s = .next t.issued))

/-- launch, waitch, taskst, probe and secreq complete as their rules say. With ready, clean registers: launch of a packet
it could read, once the core's accesses are visible, writes the child's tll number, puts the child into the die's pool
and takes one from REM, or writes the refusal status in [63:56]; waitch writes status 1 for a number never given, else
the child's end status once it has ended, and waits before (of a child of another machine, whose end status is free,
log 11, it writes the number); taskst, after the kick s[a] asks for, leaves the task counts for s[d] 8 cycles away;
probe writes the slot of a block the share holds and falls through, or on a miss makes an entry pending, queues its
fill as a tly command with the token s[a] and branches; secreq of a legal request at its level enters the security
engine's queue with s[d] pending, one with an operand in memory once the core's accesses are visible. Rules: R379,
R380, R288, R178, R423, R262. -/
def Obligations.DeviceCallsFromTheLane : Prop :=
  (∀ (s t : State) d a k, s.focusOk = true → Ready s [d, a] → s.me.poisoned a = false → s.readPacket (s.me.val a).toNat (List.range 5) = .ok (k, t) →
    let n := (t.me.tls.tll).last + 1
    (t.launchStatus k = 0 → n < 2 ^ 56 → s.me.loadsBack = true → s.storesAt .pod = true → ∃ u e,
      exec (.launch d a) s = .next (wrote u d (BitVec.ofNat 64 n) false) ∧ u.myDie.pool = t.myDie.pool ++ [e] ∧ e.bytes = k ∧
        e.launch = t.me.launchKey ∧ e.kpos = t.me.place ∧ e.num = n ∧ u.me.tls.tll.last = n ∧
        u.kids = t.kids ++ [⟨t.me.launchKey, t.me.place, n, none⟩]) ∧
    (t.launchStatus k = 0 → n < 2 ^ 56 → s.me.loadsBack = false ∨ s.storesAt .pod = false → exec (.launch d a) s = .next s) ∧
    (t.launchStatus k ≠ 0 → exec (.launch d a) s = .next (wrote t d (BitVec.ofNat 64 (t.launchStatus k * 2 ^ 56)) false))) ∧
  (∀ (s : State) d a, Ready s [d, a] → s.me.poisoned a = false →
    let n := (s.me.val a).toNat % 2 ^ 56
    let kid := s.kids.find? fun k => k.launch == s.me.launchKey && k.kpos == s.me.place && k.num == n
    (n = 0 ∨ s.me.tls.tll.last < n → exec (.waitch d a) s = .next (wrote s d (BitVec.ofNat 64 (2 ^ 56)) false)) ∧
    (∀ k, 0 < n → n ≤ s.me.tls.tll.last → kid = some k →
      (k.status = none → exec (.waitch d a) s = .next s) ∧
      (∀ st, k.status = some st → exec (.waitch d a) s = .next (wrote s d (BitVec.ofNat 64 (st * 2 ^ 56 + n)) false))) ∧
    (0 < n → n ≤ s.me.tls.tll.last → kid = none →
      (s.me.tls.tll.counter < n → exec (.waitch d a) s = .next s) ∧
      (n ≤ s.me.tls.tll.counter → ∃ v, exec (.waitch d a) s = .next (wrote s d v false) ∧ v.toNat % 2 ^ 56 = n))) ∧
  (∀ (s : State) d a, Ready s [d, a] → s.me.poisoned a = false → (s.me.val a).toNat ≤ 1 →
    let s1 := if (s.me.val a).toNat = 1 then s.updMyDie fun y => y.kick s.cur.die s.cur.core else s
    exec (.taskst d a) s = .next (wroteLater s1 d (s1.myDie.taskWord s.cur.die s.cur.core) false 8)) ∧
  (∀ (s s1 : State) a b off, s.focusOk = true → Ready s [a, b] → s.me.poisoned b = false → s.me.cacheEnt ≠ 0 →
    let va := (s.me.val b).toNat
    va < 2 ^ 56 →
    (2 ^ 56 - 2 ^ 28 ≤ va → s1 = s) →
    (va < 2 ^ 56 - 2 ^ 28 → ∃ o, s.translate s.cur.die s.me s.me.ctl.level .read va = .ok o ∧ s1 = s.updMe fun x => x.cache o.walked) →
    let block := va / 2 ^ 12
    let owner := s1.me.k.kslot.toNat
    let found := (s1.me.cacheWays block).findSome? fun w =>
      (s1.myDie.tagOf owner w).bind fun t => if t.block = block then some t else none
    (∀ t, found = some t → t.pending = false → exec (.probe a b off) s = .next (((s1.updMyDie fun y => y.setTag t).updMe fun x =>
      (x.write a (BitVec.ofNat 64 (x.cacheSlot t.idx)) false).setDec .notTaken).issued)) ∧
    (∀ t, found = some t → t.pending = true → exec (.probe a b off) s = .next s1) ∧
    (∀ idx, found = none → s1.myDie.victim owner (s1.me.cacheWays block) = some idx → s1.cmdsFull .tly = false →
      s1.me.nextNum .tly < 2 ^ 56 → ∃ (u : State) (k : Cmd), exec (.probe a b off) s = .next u.issued ∧
        u.me.fl.cmds = s1.me.fl.cmds ++ [k] ∧ k.tl = .tly ∧ k.num = s1.me.nextNum .tly ∧
        u.myDie.tagOf owner idx = some ⟨idx, true, owner, block⟩ ∧
        u.me.ctl.line.map (·.dec) = s1.me.ctl.line.map fun _ => .taken (((s.cur.addr : Int) + off * 32) % 2 ^ 64).toNat)) ∧
  (∀ (s : State) d a b, Ready s [d, a, b] → s.me.poisoned a = false → s.me.poisoned b = false → secLegal (s.me.val a) = true →
    secLevel (s.me.val a) ≤ s.me.ctl.level →
    let op := (s.me.val a).toNat % 2 ^ 8
    let sent := fun (t : State) (pas : List (Nat × Nat)) =>
      let q : SecReq := ⟨t.cur.die, t.cur.core, if t.me.heldPending d then 0 else d, op,
        (s.me.val a).toNat / 2 ^ 8 % 2 ^ 8, s.me.val b, t.me.ctx.tenant, pas, t.secCycle t.cur.die⟩
      ((t.updPkg (t.cur.die / 8) fun g => { g with sec := { g.sec with queue := q.insert g.sec.queue } }).updMe fun x => x.pendReg d).issued
    (4 ≤ op → op ≤ 6 → exec (.secreq d a b) s = .next (sent s [])) ∧
    (op = 1 ∨ op = 2 ∨ op = 3 ∨ op = 7 → (s.me.val b).toNat < 2 ^ 56 →
      (s.me.loadsBack = false ∨ s.storesAt .pod = false → exec (.secreq d a b) s = .next s) ∧
      (∀ pas t, s.me.loadsBack = true → s.storesAt .pod = true →
        s.secPieces (s.me.val b).toNat (secAccess op).2.1 (secAccess op).1 (List.range (secAccess op).2.2) = .ok (pas, t) →
        exec (.secreq d a b) s = .next (sent t pas))))

/-- Every element-wise vector instruction writes to each element what its table gives, and retires. For vadd, vsub, vmul,
vfma, vfnma, vmin, vmax, vabs, vneg, vnot, vand, vor, vxor, vsll, vsrl, vsra, vcmp, vcvt and the six special
functions: with accepted tags, and nothing in the way at the tiles and streams, exec answers the next state in which
the instruction has retired with one tile of the table's tag and an empty side store. Its element e, seen under the
destination's direction, is the form's result on the elements e of the sources under theirs, with the e-th noise word
under rsto; it is 0 and poisoned where a source element is; KVSTAT gets the bits of the unpoisoned elements; the
origin record is, at the lowest poisoned element, that of this reading's own stream fault, else that of the first
source that supplied it, else 0. Integers are computed as integers modulo 2^w, floats exactly and rounded once. A
poisoned tile on its way into a drain takes the deferred poison fault instead (R198). Rules: R133, R134, R136, R137,
R138, R139, R142, R161, R130, R132, R87, R151. -/
def Obligations.ElementwiseResults : Prop :=
  ∀ i k, elemForm i = some k → ∀ (s : State) tag,
    k.tag (k.srcs.map (tagOf s)) = some tag → VGo s i k.sp tag →
    ∀ ws s1, s.draw s.cur.die s.cur.core (k.words s) = some (ws, s1) →
    ∃ t st, k.Result s ws tag t st ∧ Retires s s1 i [(k.dst.v, t)] st

/-- An element-wise vector instruction waits, or takes the fault of its tags, its streams or its noise log, in that order.
For the element-wise forms: held back by an earlier group at its tiles, it changes nothing and waits; reading a drain
or writing a spout is illegal; a tag its table does not accept, or a result tag other than that of the drain it goes
to, is the format fault; a spout tile past the stream's end is the stream fault 0x0F with the tile as KTVAL, one not
yet fetched is waited for, one whose fetch failed is, without .sp, fault 0x10 with the address as KTVAL, its tile to
be fetched again; then a drain past its end faults so too, and a drain with two tiles unwritten is waited for; and
with a replay log run out the noise fault 0x11 is taken. Rules: R134, R129, R163, R166, R196, R197, R198, R199, R225,
R9. -/
def Obligations.VectorWaitsAndFaults : Prop :=
  ∀ i k, elemForm i = some k → ∀ s : State,
    (vHeld s i = true → exec i s = .next s) ∧
    (vHeld s i = false → s.streamMisuse (tileReads i) (tileWrites i) = true → exec i s = s.raise 0x02 0 (BitVec.ofNat 64 s.cur.word)) ∧
    (vHeld s i = false → s.streamMisuse (tileReads i) (tileWrites i) = false →
      (k.tag (k.srcs.map (tagOf s)) = none → exec i s = s.raise 0x03 0 (BitVec.ofNat 64 s.cur.word)) ∧
      ∀ tag, k.tag (k.srcs.map (tagOf s)) = some tag →
        (s.drainTagBad (tileWrites i) tag = true → exec i s = s.raise 0x03 0 (BitVec.ofNat 64 s.cur.word)) ∧
        (s.drainTagBad (tileWrites i) tag = false →
          (∀ t, s.readBar k.sp (tileReads i) = .ends t → exec i s = s.raise 0x0F 0 (BitVec.ofNat 64 t)) ∧
          (s.readBar k.sp (tileReads i) = .waits → exec i s = .next s) ∧
          (∀ t n f, s.readBar k.sp (tileReads i) = .fails t n f → exec i s =
            (s.updMe fun x => x.updBinding t s.cur.rank fun b => some { b with ring := b.ring.filter fun q => q.num != n }).raisePend
              { s.faultHere 0x10 0 (BitVec.ofNat 64 f.addr) with xsyn := f.xsyn, stage2 := f.stage2 }) ∧
          (s.readBar k.sp (tileReads i) = .clear →
            (∀ t, s.writeBar (tileWrites i) = .ends t → exec i s = s.raise 0x0F 0 (BitVec.ofNat 64 t)) ∧
            (s.writeBar (tileWrites i) = .waits → exec i s = .next s) ∧
            (s.writeBar (tileWrites i) = .clear → s.draw s.cur.die s.cur.core (k.words s) = none →
              exec i s = s.raise 0x11 0 s.me.k.knlogp))))

/-- The special functions give the exact results of R162 at NaN, the zeros, the infinities and the negatives. For fp32,
bf16 and fp16, every mode and noise word, each cell of the table of R162: the result code and the KVSTAT bit (DZ 4,
INV 2) it sets; 1, 0.5 and -1 are those codes of the format. Negative finite inputs (normal, or subnormal without FTZ)
give the canonical NaN and INV for vlog2 and vrsq. Rules: R162. -/
def Obligations.SpecialFunctionInputs : Prop :=
  ∀ f ∈ [fmtFp32, fmtBf16, fmtFp16], ∀ (m : Mode) (r : Nat),
    let inf := 2 ^ (f.w - 1) - 2 ^ f.man
    let nan := inf + 2 ^ (f.man - 1)
    let one := (1 - f.emin).toNat * 2 ^ f.man
    let minus := 2 ^ (f.w - 1)
    let out := fun (fn : SpecialFn) c => fn.result f m r c
    (∀ fn c, c < 2 ^ f.w → inf < c % minus → out fn c = (nan, 0)) ∧
    (out .exp2 0 = (one, 0) ∧ out .log2 0 = (minus + inf, 4) ∧ out .rcp 0 = (inf, 4) ∧ out .rsq 0 = (inf, 4) ∧
      out .tanh 0 = (0, 0) ∧ out .sig 0 = (one - 2 ^ f.man, 0)) ∧
    (out .exp2 minus = (one, 0) ∧ out .log2 minus = (minus + inf, 4) ∧ out .rcp minus = (minus + inf, 4) ∧
      out .rsq minus = (minus + inf, 4) ∧ out .tanh minus = (minus, 0) ∧ out .sig minus = (one - 2 ^ f.man, 0)) ∧
    (out .exp2 inf = (inf, 0) ∧ out .log2 inf = (inf, 0) ∧ out .rcp inf = (0, 0) ∧ out .rsq inf = (0, 0) ∧
      out .tanh inf = (one, 0) ∧ out .sig inf = (one, 0)) ∧
    (out .exp2 (minus + inf) = (0, 0) ∧ out .log2 (minus + inf) = (nan, 2) ∧ out .rcp (minus + inf) = (minus, 0) ∧
      out .rsq (minus + inf) = (nan, 2) ∧ out .tanh (minus + inf) = (minus + one, 0) ∧ out .sig (minus + inf) = (0, 0)) ∧
    (∀ c, (if m.ftz = true then 2 ^ f.man else 1) ≤ c → c < inf → out .log2 (minus + c) = (nan, 2) ∧ out .rsq (minus + c) = (nan, 2))

/-- A value that a float format holds converts into that format unchanged, whatever the rounding mode. For fp32, bf16,
fp16, fp8e4 and fp8e5, every mode, noise word and code: cvt of the code's value is that code with no status; a NaN
code gives the canonical NaN; with FTZ a subnormal code is the zero of its sign. And under rtz without FTZ every
finite value converts to a code of no greater magnitude, with its sign (a zero with its own). Rules: R79, R80, R88,
R90, R93, R142. -/
def Obligations.FormatsHoldTheirValues : Prop :=
  ∀ tag f, floatFmt tag = some f → ∀ (m : Mode) (r : Nat),
    (∀ c, c < 2 ^ f.w →
      f.cvt m r (f.value m.ftz c) = ((withSign f m (c.testBit (f.w - 1)) (BitVec.ofNat 32 c)).toNat, 0)) ∧
    (∀ neg n e, m.rnd = .rtz → m.ftz = false →
      let c := (f.cvt m r (.fin neg n e)).1
      (f.value false c).abs.cmp (.fin false n e) ≠ Ordering.gt ∧ (f.value false c).sign = neg)

/-- vmov, vtag, vsplat, vclr, vpchk, vsel, vcommit and vxtr give the tiles and scalars their rules say. With nothing in
the way each of them retires. vmov copies a tagged tile with its side store; vtag re-reads the low bits under the new
tag and keeps a side store only from block tag to block tag; vsplat fills; vclr zeroes and keeps the tag; vpchk gives
the poison mask, clean. vsel picks by the mask, poisoned by any of the three; vcommit takes mask and chosen arm only,
and without .sp a poisoned mask is the deferred poison fault with the mask's record; arms of one block tag with
different side stores are the format fault. vxtr gives s[x] element k, sign-extended for i tags, four cycles later; a
poisoned one is the deferred poison fault. Rules: R137, R140, R141, R143, R144, R145, R146, R150, R151, R132. -/
def Obligations.CopiesMasksAndScalars : Prop :=
  ∀ s : State,
    (∀ d a sp r, tagOf s a ≠ 0 → dirOk (tagOf s a) a → dirOk (tagOf s a) d → VGo s (.vmov d a sp r) sp (tagOf s a) →
      ∃ t, t.tag = tagOf s a ∧ t.side = (s.readTile a.v).side ∧ Moved s d a (fun _ => True) id id t ∧
        Retires s s (.vmov d a sp r) [(d.v, t)] 0) ∧
    (∀ d a fmt sp r, fmt ≠ 0x23 → dirOk (tagOf s a) a → dirOk fmt d → VGo s (.vtag d a fmt sp r) sp fmt →
      ∃ t, t.tag = fmt ∧ t.side = (if isBlock (tagOf s a) && isBlock fmt then (s.readTile a.v).side else noSide) ∧
        Moved s d a (fun _ => True) id (fun c => cellOf fmt c.toNat) t ∧ Retires s s (.vtag d a fmt sp r) [(d.v, t)] 0) ∧
    (∀ (d : TOp) x fmt sp r, (isFloat fmt || (bitsFmt fmt).isSome) = true → VGo s (.vsplat d x fmt sp r) sp fmt →
      Retires s s (.vsplat d x fmt sp r) [(d.v, filled fmt (cellOf fmt (s.me.val x).toNat))] 0) ∧
    (∀ (d : TOp) sp r, VGo s (.vclr d sp r) sp (s.me.tagAt d.v s.cur.rank) →
      Retires s s (.vclr d sp r) [(d.v, filled (s.me.tagAt d.v s.cur.rank) 0)] 0) ∧
    (∀ d a sp r, dirOk (tagOf s a) a → VGo s (.vpchk d a sp r) sp 0x30 →
      ∃ t, t.tag = 0x30 ∧ t.side = noSide ∧ t.origin = 0 ∧
        (∀ e x, e < 1024 → elemOf s a e = some x → (t.elems d.dir)[e]? = some (if x.2 then 0xFFFFFFFF else 0, false)) ∧
        Retires s s (.vpchk d a sp r) [(d.v, t)] 0) ∧
    (∀ d a b x sp r, tagOf s a = 0x30 → tagOf s b ≠ 0 → (s.readTile x).tag = tagOf s b → dirOk (tagOf s b) b → dirOk (tagOf s b) d →
      let row := fun e (l : Elem × Elem × Elem) => e < 1024 ∧ elemOf s a e = some l.1 ∧ elemOf s b e = some l.2.1 ∧ elemOf s ⟨x, .r⟩ e = some l.2.2
      let arm := fun (l : Elem × Elem × Elem) => if l.1.1 ≠ 0 then l.2.1 else l.2.2
      let sides := isBlock (tagOf s b) = true → (s.readTile b.v).side = (s.readTile x).side
      (VGo s (.vsel d a b x sp r) sp (tagOf s b) →
        (¬ sides → exec (.vsel d a b x sp r) s = s.raise 0x03 0 (BitVec.ofNat 64 s.cur.word)) ∧
        (sides → ∃ t, t.tag = tagOf s b ∧ t.side = (s.readTile b.v).side ∧
          (∀ e l, row e l → (t.elems d.dir)[e]? =
            some (if l.1.2 || l.2.1.2 || l.2.2.2 then (0, true) else ((arm l).1, false))) ∧
          Retires s s (.vsel d a b x sp r) [(d.v, t)] 0)) ∧
      (VGo s (.vcommit d a b x sp r) sp (tagOf s b) →
        (¬ sides → exec (.vcommit d a b x sp r) s = s.raise 0x03 0 (BitVec.ofNat 64 s.cur.word)) ∧
        (sides → sp = false → (s.readTile a.v).poison.any id = true →
          exec (.vcommit d a b x sp r) s = s.raise 0x07 2 (s.readTile a.v).origin) ∧
        (sides → (sp = true ∨ (s.readTile a.v).poison.any id = false) → ∃ t, t.tag = tagOf s b ∧ t.side = (s.readTile b.v).side ∧
          (∀ e l, row e l → (t.elems d.dir)[e]? = some (if l.1.2 || (arm l).2 then (0, true) else ((arm l).1, false))) ∧
          Retires s s (.vcommit d a b x sp r) [(d.v, t)] 0))) ∧
    (∀ a x k sp r c, (s.readTile a).tag ≠ 0 → VGo s (.vxtr a x k sp r) sp 0 → (s.readTile a).plain[k]? = some c →
      (c.2 = true → exec (.vxtr a x k sp r) s = s.raise 0x07 2 (s.readTile a).origin) ∧
      (c.2 = false → x = 0 → exec (.vxtr a x k sp r) s = .next (s.takeSpouts [a]).issued) ∧
      (c.2 = false → x ≠ 0 → exec (.vxtr a x k sp r) s = .next ((s.takeSpouts [a]).updMe fun y =>
        y.setFl fun f => { f with results := f.results ++ [⟨x,
          if (s.readTile a).tag = 0x20 ∨ (s.readTile a).tag = 0x21 ∨ (s.readTile a).tag = 0x22 then c.1.signExtend 64
          else c.1.zeroExtend 64, false, 4⟩] }).issued))

/-- Rotations, broadcasts, vperm and vtrn put each source element where their rules say. For a tag that is neither 0x00
nor a block format, and nothing in the way, exec answers the next state with: vrotr result(i, j) = va(i, (j + k) mod
64); vrotc va((i + k) mod 16, j); vbcr va(k, j); vbcc va(i, k); vperm va(i, s) with s the low six bits of vb(i, j),
for vb of n8, n16, n32 or bits; vtrn, on tile numbers that are multiples of 4, tile vd + u (i, j) = tile va + j div 16
(j mod 16, 16u + i). Poison goes with the element (of vperm also with its index); a k above its limit, and a tile
number of vtrn that is no multiple of 4, are illegal. Rules: R153, R155, R156, R159, R160, R130, R151. -/
def Obligations.MovesBetweenElements : Prop :=
  ∀ s : State,
    (∀ d a k sp r (i : Instr) (lim : Nat) (src : Nat → Nat),
      (i, lim, src) ∈ [(Instr.vrotr d a k sp r, 64, fun e => e / 64 * 64 + (e % 64 + k) % 64),
        (Instr.vrotc d a k sp r, 16, fun e => (e / 64 + k) % 16 * 64 + e % 64),
        (Instr.vbcr d a k sp r, 16, fun e => k * 64 + e % 64), (Instr.vbcc d a k sp r, 64, fun e => e / 64 * 64 + k)] →
      VGo s i sp (tagOf s a) →
      (lim ≤ k → exec i s = s.raise 0x02 0 (BitVec.ofNat 64 s.cur.word)) ∧
      (k < lim → (tagOf s a = 0 ∨ isBlock (tagOf s a) = true) → exec i s = s.raise 0x03 0 (BitVec.ofNat 64 s.cur.word)) ∧
      (k < lim → tagOf s a ≠ 0 → isBlock (tagOf s a) = false →
        ∃ t, t.tag = tagOf s a ∧ t.side = noSide ∧ Moved s d a (· < 1024) src id t ∧ Retires s s i [(d.v, t)] 0)) ∧
    (∀ d a b sp r, tagOf s a ≠ 0 → isBlock (tagOf s a) = false → tagOf s b ∈ [0x28, 0x29, 0x2A, 0x30] →
      VGo s (.vperm d a b sp r) sp (tagOf s a) →
      ∃ t, t.tag = tagOf s a ∧ t.side = noSide ∧
        (∀ e y x, e < 1024 → elemOf s b e = some y → elemOf s a (e / 64 * 64 + y.1.toNat % 64) = some x →
          (t.elems d.dir)[e]? = some (if y.2 || x.2 then (0, true) else (x.1, false))) ∧
        Retires s s (.vperm d a b sp r) [(d.v, t)] 0) ∧
    (∀ d a sp r, (d % 4 ≠ 0 ∨ a % 4 ≠ 0) → exec (.vtrn d a sp r) s = s.raise 0x02 0 (BitVec.ofNat 64 s.cur.word)) ∧
    (∀ d a sp r tag, d % 4 = 0 → a % 4 = 0 → tag ≠ 0 → isBlock tag = false → (∀ u, u < 4 → (s.readTile (a + u)).tag = tag) →
      VGo s (.vtrn d a sp r) sp tag →
      ∃ ts : Nat → Tile,
        (∀ u i j x, u < 4 → i < 16 → j < 64 → (s.readTile (a + j / 16)).plain[j % 16 * 64 + (16 * u + i)]? = some x →
          (ts u).tag = tag ∧ (ts u).plain[64 * i + j]? = some (if x.2 then (0, true) else (x.1, false))) ∧
        Retires s s (.vtrn d a sp r) [(d, ts 0), (d + 1, ts 1), (d + 2, ts 2), (d + 3, ts 3)] 0)

/-- vredr, vredc, vscanr and vscanc run the tree and the chain of their rules in the order given. With an accepted tag and
nothing in the way, exec answers the next state in which every element of a row (column) is the root of the fixed
halving tree over it, or, for a scan, element t is the chain of the first t + 1 elements; call q of line l takes noise
word 63 l + q of a row, 15 l + q of a column, under rsto. A line with a poisoned element (a scan: a prefix) is
poisoned there; KVSTAT gets the bits of the calls of unpoisoned results only. x names the elements of the source.
Rules: R157, R158, R153, R163, R130, R87, R151. -/
def Obligations.ReductionsAndScans : Prop :=
  ∀ i op rows scan d a sp rnd, acrossForm i = some (op, rows, scan, d, a, sp, rnd) →
    ∀ (s : State) (x : Nat → Elem), (∀ e, e < 1024 → elemOf s a e = some (x e)) →
    let m := modeOf s.cur.kmode (some rnd)
    let tag := tagOf s a
    combineTag op tag = true → VGo s i sp tag →
    let k := if rows then 6 else 4
    let lines := if rows then 16 else 64
    ∀ ws s1, s.draw s.cur.die s.cur.core (if op = .add ∧ isFloat tag = true ∧ m.rnd = .rsto then lines * (2 ^ k - 1) else 0) = some (ws, s1) →
    let step : Nat → Combine := fun l q => combine op m tag ((ws[(2 ^ k - 1) * l + q]?).getD 0)
    let val := fun l t => (x (placeOf rows l t)).1
    let bad := fun l n => ∃ t, t < n ∧ (x (placeOf rows l t)).2 = true
    ∃ t st, t.tag = tag ∧ t.side = noSide ∧
      (∀ l p, l < lines → p < 2 ^ k →
        let cells := t.elems d.dir
        let seen := if scan then p + 1 else 2 ^ k
        (bad l seen → cells[placeOf rows l p]? = some (0, true)) ∧
        (¬ bad l seen → cells[placeOf rows l p]? = some
          (if scan then prefixes (step l) (val l) 0 p else (halving (step l) k (val l) 0).1, false))) ∧
      (∀ n, st.testBit n = true ↔ ∃ l, l < lines ∧
        if scan then ∃ p, p < 2 ^ k ∧ ¬ bad l (p + 1) ∧ (prefixStat (step l) (val l) 0 p).testBit n = true
        else ¬ bad l (2 ^ k) ∧ (halving (step l) k (val l) 0).2.testBit n = true) ∧
      (∀ e, FirstBad t d.dir e → t.origin =
        ((lineBefore rows scan e).findSome? fun n => ownRecord s a n).getD (s.readTile a.v).origin) ∧ Fresh t d.dir ∧
      Retires s s1 i [(d.v, t)] st

/-- vrand fills a tile from 1024 noise words, and the source, the log and the replay deliver words as R163 to R166 say.
vrand with an accepted format retires with element e from word e: the low bits, or the exact binary fraction R164
gives. A live word is the free value of its place in the core's stream, which then stands one further; a logged one is
also written at BASE + PTR of the log and PTR moves on by 4, to 0 with WRAP at SIZE; n + 1 words are n words and then
one. A replay reads the words of the log in order and moves PTR, or delivers none past SIZE. Rules: R163, R164, R165,
R166. -/
def Obligations.NoiseWords : Prop :=
  (∀ (s : State) (d : TOp) fmt sp, fmt ∈ [0x28, 0x29, 0x2A, 0x30, 0x01, 0x02, 0x03] → VGo s (.vrand d fmt sp) sp fmt →
    ∀ ws s1, s.draw s.cur.die s.cur.core 1024 = some (ws, s1) →
    ∃ t, t.tag = fmt ∧ t.side = noSide ∧ t.origin = 0 ∧
      (∀ e q, ws[e]? = some q → e < 1024 → ∃ c, (t.elems d.dir)[e]? = some (c, false) ∧
        (∀ f, bitsFmt fmt = some f → c.toNat = q % 2 ^ f.1) ∧
        (∀ f, floatFmt fmt = some f → q < 2 ^ 32 →
          let p : Nat := if fmt = 0x01 then 24 else if fmt = 0x02 then 8 else 11
          (f.value false c.toNat).cmp (.fin false (q / 2 ^ (32 - p)) (-(p : Int))) = Ordering.eq)) ∧
      Retires s s1 (.vrand d fmt sp) [(d.v, t)] 0) ∧
  (∀ (s : State) d c, s.hasCore d c = true →
    let x := s.core d c
    let mode := x.k.knoise.toNat % 4
    let base := x.k.knlogb.toNat % 2 ^ 32
    let size := x.k.knlogb.toNat / 2 ^ 32
    let ptr := x.k.knlogp.toNat % 2 ^ 32
    (mode = 0 → s.draw d c 1 = some ([(Config.noiseWord d c x.noise).toNat], s.updCore d c fun y => { y with noise := x.noise + 1 })) ∧
    (mode = 1 → ∃ t, s.draw d c 1 = some ([(Config.noiseWord d c x.noise).toNat], t) ∧ (t.core d c).noise = x.noise + 1 ∧
      (t.die d).basin = (s.die d).basin.write 0 (x.basinAddr (base + ptr)) (leBytes 4 (Config.noiseWord d c x.noise).toNat) ∧
      (ptr + 4 ≠ size → (t.core d c).k = { x.k with knlogp := BitVec.ofNat 64 (ptr + 4) }) ∧
      (ptr + 4 = size → (t.core d c).k = { x.k with knlogp := 0, knoise := x.k.knoise ||| 0x80 })) ∧
    (mode < 2 → ∀ n ws t, s.draw d c n = some (ws, t) →
      ∃ w u v, t.draw d c 1 = some ([w], u) ∧ s.draw d c (n + 1) = some (ws ++ [w], v) ∧
        v.core d c = u.core d c ∧ (v.die d).basin = (u.die d).basin) ∧
    (mode = 2 → ∀ n, 0 < n →
      (size < ptr + 4 * n → s.draw d c n = none) ∧
      (ptr + 4 * n ≤ size → ∃ ws t, s.draw d c n = some (ws, t) ∧ ws.length = n ∧
        (∀ k, k < n → ws[k]? = some (leNat ((s.die d).basin.read 0 (x.basinAddr (base + ptr + 4 * k)) 4))) ∧
        t.core d c = { x with k := { x.k with knlogp := x.k.knlogp + BitVec.ofNat 64 (4 * n) } } ∧ (t.die d).basin = (s.die d).basin)))

/-- vld, vst, vlds and vsts move tiles and images between tile registers and the basin, with the faults and poison of
R147. B = s[a] + 64 off. Held back by its tiles, its scalar, or an overlapping earlier basin access, it waits. Without
.sp a misaligned B is fault 0x0B and a range outside the allotment 0x0C, KTVAL B. vld then retires with the containers
at B + 4e, an element of a marked line poisoned (record: CAUSE 3); .sp poisons instead (2 misaligned, 1 outside). vst
and vsts of a clean, accepted tile write exactly its 4096 or 4288 bytes; a poisoned element is the deferred poison
fault, a tag they refuse the format fault. vlds of a good image takes tag and side store from it, a bad one is the
format fault, or with .sp all poison of CAUSE 4; .sp with a misaligned B gives all poison of CAUSE 2, and with its
tail outside a tile of bits. Rules: R147, R148, R149, R150, R151, R131, R170, R174. -/
def Obligations.BasinTransfers : Prop :=
  ∀ (s : State) (t a : Nat) (off : Int),
    let b : Int := (s.me.val a + BitVec.ofInt 64 (64 * off)).toInt
    let inside := fun (o : Int) (n : Int) => 0 ≤ o ∧ o + n ≤ (s.me.basinBytes : Int)
    let fault := fun (n : Int) => if b % 64 ≠ 0 then some 0x0B else if ¬ inside b n then some 0x0C else none
    let why := fun (e : Nat) => if b % 64 ≠ 0 then 2 else if ¬ inside (b + 4 * e) 4 then 1
      else if s.myDie.basin.bad (s.me.basinAddr (b + 4 * e).toNat / 64) then 3 else 0
    let record := fun (c : Nat) => BitVec.ofNat 64 (c * 2 ^ 56 + s.cur.addr % 2 ^ 56 / 32 * 32 + s.cur.lane * 4 + 1)
    let lost := fun (c : Nat) => (⟨List.replicate 1024 0, List.replicate 1024 true, noSide, 0x30, record c⟩ : Tile)
    let loads := fun (v : Tile) =>
      (∀ e, e < 1024 → v.plain[e]? = some (if why e = 0 then
        (BitVec.ofNat 32 (leNat (s.myDie.basin.read 0 (s.me.basinAddr (b + 4 * e).toNat) 4)), false) else (0, true))) ∧
      ((∀ e, e < 1024 → why e = 0) → v.origin = 0) ∧
      (∀ e, e < 1024 → why e ≠ 0 → (∀ e', e' < e → why e' = 0) → v.origin = record (why e))
    let print := fun (n : Int) (w : Bool) => [(⟨b.toNat, (b + n).toNat, w⟩ : Print)]
    let tail := s.myDie.basin.read 0 (s.me.basinAddr (b + 4096).toNat) 192
    let tag := ((tail[128]?).getD 0).toNat
    let bad := tagAssigned tag = false ∨ tag = 0 ∨ tag = 0x23 ∨ ∃ k, 129 ≤ k ∧ k < 192 ∧ (tail[k]?).getD 0 ≠ 0
    let read := fun (n : Int) => if b % 64 = 0 then min (b + n).toNat s.me.basinBytes - b.toNat else 0
    let free := fun n w => s.me.basinFree s.cur.rank (print n w) = true
    (∀ sp r, let i := Instr.vld t a off sp r
      let g := if s.me.tagAt t s.cur.rank = 0 then 0x30 else s.me.tagAt t s.cur.rank
      ((vHeld s i = true ∨ ¬ free 4096 false) → exec i s = .next s) ∧
      (free 4096 false → isBlock (s.me.tagAt t s.cur.rank) = false → VGo s i sp g →
        (∀ c, sp = false → fault 4096 = some c → exec i s = s.raise c 0 (BitVec.ofInt 64 b)) ∧
        ((sp = true ∨ fault 4096 = none) → ∃ v, v.tag = g ∧ v.side = noSide ∧ loads v ∧ RetiresLoad s i [(t, v)] b.toNat (read 4096)))) ∧
    (∀ r, ∀ p ∈ [(Instr.vst t a off r, (4096 : Int), isBlock (s.readTile t).tag,
          (s.readTile t).cells.flatMap fun c => leBytes 4 c.toNat),
        (Instr.vsts t a off r, 4288, false,
          ((s.readTile t).cells.flatMap fun c => leBytes 4 c.toNat) ++ (s.readTile t).side ++ [BitVec.ofNat 8 (s.readTile t).tag] ++
            List.replicate 63 0)],
      ((vHeld s p.1 = true ∨ ¬ free p.2.1 true) → exec p.1 s = .next s) ∧
      (free p.2.1 true → VGo s p.1 false 0 →
        (((s.readTile t).tag = 0 ∨ p.2.2.1 = true) → exec p.1 s = s.raise 0x03 0 (BitVec.ofNat 64 s.cur.word)) ∧
        ((s.readTile t).tag ≠ 0 → p.2.2.1 = false →
          ((s.readTile t).poison.any id = true → exec p.1 s = s.raise 0x07 2 (s.readTile t).origin) ∧
          ((s.readTile t).poison.any id = false → ∀ c, fault p.2.1 = some c → exec p.1 s = s.raise c 0 (BitVec.ofInt 64 b)) ∧
          ((s.readTile t).poison.any id = false → fault p.2.1 = none → exec p.1 s = .next ((s.takeSpouts [t]).updMyDie fun y =>
            { (y.present s.cur.core (s.me.basinAddr b.toNat) p.2.2.2.length) with
              basin := y.basin.write 0 (s.me.basinAddr b.toNat) p.2.2.2 }).issued)))) ∧
    (∀ sp r, let i := Instr.vlds t a off sp r
      ((vHeld s i = true ∨ ¬ free 4288 false) → exec i s = .next s) ∧
      (free 4288 false →
        (∀ c, sp = false → fault 4288 = some c → VGo s i sp (s.me.tagAt t s.cur.rank) → exec i s = s.raise c 0 (BitVec.ofInt 64 b)) ∧
        ((sp = true ∨ fault 4288 = none) → b % 64 = 0 →
          (inside (b + 4096) 192 → ¬ bad → VGo s i sp tag →
            ∃ v, v.tag = tag ∧ v.side = tail.take 128 ∧ loads v ∧ RetiresLoad s i [(t, v)] b.toNat (read 4288)) ∧
          (inside (b + 4096) 192 → bad → sp = false → vHeld s i = false → s.me.poisoned a = false →
            s.streamMisuse [] [t] = false → exec i s = s.raise 0x03 0 (BitVec.ofNat 64 s.cur.word)) ∧
          (inside (b + 4096) 192 → bad → sp = true → VGo s i sp 0x30 → RetiresLoad s i [(t, lost 4)] b.toNat (read 4288)) ∧
          (¬ inside (b + 4096) 192 → VGo s i sp 0x30 →
            ∃ v, v.tag = 0x30 ∧ v.side = noSide ∧ loads v ∧ RetiresLoad s i [(t, v)] b.toNat (read 4288))) ∧
        (sp = true → b % 64 ≠ 0 → VGo s i sp 0x30 → RetiresLoad s i [(t, lost 2)] b.toNat (read 4288))))

/-- The quantisers, vdq, vbscale, vsplit and vcbld complete with the tiles and tables of their rules, block scales as R309
gives. With an arithmetic float source and nothing in the way, vqmx (an MX format), vqlx (an LX format) and vqcb (a
codebook format, k its table) retire with the codes and scales of R308 to R310, one noise word an element under rsto;
vbscale with each element's block multiplier in fp32; vsplit with those codes in vd and the codes of the exact
residuals (+0 where the source is poisoned, NaN or infinite, or its block NaN) in vd + 1; vdq with the values of a
block-format tile converted. A poisoned element gives a poisoned 0. Another tag is the format fault. An MX scale X
below 254 keeps every finite element below 2^(X - 127 + e + 1), and, above 0, some element reaches 2^(X - 127 + e).
vcbld waits for earlier users of its table, then loads table k from the 256 entries and the affine bit of va and
writes its 528 bytes, its codes from byte 16 on, into the codebook area; a poisoned one of the 257 is the deferred
poison fault, an empty allotment the basin range fault. Rules: R304, R305, R306, R308, R309, R310, R311, R312. -/
def Obligations.QuantisersAndTables : Prop :=
  (∀ (s : State) (d a : TOp) (fmt k : Nat) (sp : Bool) (r : Rnd),
    let m := modeOf s.cur.kmode (some r)
    let n := fun (q : Nat) => if m.rnd = .rsto then q else 0
    let xs := sourceNums m (tagOf s a) ((s.readTile a.v).elems a.dir)
    let bk := s.me.bookOf fmt
    let float := isArithFloat (tagOf s a) = true
    let quant := fun (i : Instr) (q : Nat) => ∀ ws s1, s.draw s.cur.die s.cur.core (n q) = some (ws, s1) →
      let q1 := quantise fmt bk m xs ws
      ∃ t st, Coded s d a fmt (sideOf q1.2) q1.1 t st ∧ Retires s s1 i [(d.v, t)] st
    (float → dirOk fmt d → (mxFmt fmt).isSome = true → VGo s (.vqmx d a fmt sp r) sp fmt → quant (.vqmx d a fmt sp r) 1024) ∧
    (float → dirOk fmt d → (lxM fmt).isSome = true → VGo s (.vqlx d a fmt sp r) sp fmt → quant (.vqlx d a fmt sp r) 1024) ∧
    (float → dirOk fmt d → cbTable fmt = some k → VGo s (.vqcb d a fmt k sp r) sp fmt → quant (.vqcb d a fmt k sp r) 1024) ∧
    (float → isBlock fmt = true → VGo s (.vbscale d a fmt sp r) sp 0x01 → ∀ ws s1, s.draw s.cur.die s.cur.core (n 1024) = some (ws, s1) →
      let cs := (List.range 1024).map fun e => fmtFp32.cvt m (((ws[e]?).getD 0) % 2 ^ 24)
        (multiplier fmt ((((blocksOf xs).map (chooseScale fmt bk))[e / 32]?).getD (.e8m0 0)) (e % 32))
      ∃ t st, Coded s d a 0x01 noSide cs t st ∧ Retires s s1 (.vbscale d a fmt sp r) [(d.v, t)] st) ∧
    (float → isBlock fmt = true → d.dir = .r → k = (cbTable fmt).getD 0 → d.v % 2 = 0 → d.v + 1 < s.me.ctx.tiles →
      VGo s (.vsplit d a fmt k sp r) sp fmt → ∀ ws s1, s.draw s.cur.die s.cur.core (n 2048) = some (ws, s1) →
      let q1 := quantise fmt bk m xs ws
      ∃ rs : List Machine.Num,
        (∀ e x y c, xs[e]? = some x → elemOf s a e = some y → (q1.1[e]?).map (·.1) = some c →
          let b := (q1.2[e / 32]?).getD (.e8m0 0)
          rs[e]? = some (if x.isFin = true ∧ y.2 = false ∧ b.isNan = false then (x.add false (blockValue fmt bk b (e % 32) c).neg).1
            else .zero false)) ∧
        let q2 := quantise fmt bk m rs (ws.drop 1024)
        ∃ t u st su, Coded s d a fmt (sideOf q1.2) q1.1 t st ∧ Coded s d a fmt (sideOf q2.2) q2.1 u su ∧
          Retires s s1 (.vsplit d a fmt k sp r) [(d.v, t), (d.v + 1, u)] (st ||| su)) ∧
    (∀ i ∈ [Instr.vqmx d a fmt sp r, .vqlx d a fmt sp r, .vqcb d a fmt k sp r, .vbscale d a fmt sp r], vHeld s i = false → ¬ float →
      s.streamMisuse (tileReads i) (tileWrites i) = false → exec i s = s.raise 0x03 0 (BitVec.ofNat 64 s.cur.word))) ∧
  (∀ (s : State) (d a : TOp) (fmt k : Nat) (sp : Bool) (r : Rnd) f, isArithFloat fmt = true → floatFmt fmt = some f →
    isBlock (tagOf s a) = true → a.dir = .r → k = (cbTable (tagOf s a)).getD 0 → VGo s (.vdq d a fmt k sp r) sp fmt →
    let m := modeOf s.cur.kmode (some r)
    ∀ ws s1, s.draw s.cur.die s.cur.core (if m.rnd = .rsto then 1024 else 0) = some (ws, s1) →
    let bk := s.me.bookOf (tagOf s a)
    let cs := (s.readTile a.v).cells.mapIdx fun e c => f.cvt m (((ws[e]?).getD 0) % 2 ^ 24)
      (blockValue (tagOf s a) bk (scaleOf (tagOf s a) bk (s.readTile a.v).side (e / 32)) (e % 32) c.toNat)
    ∃ t st, Coded s d a fmt noSide cs t st ∧ Retires s s1 (.vdq d a fmt k sp r) [(d.v, t)] st) ∧
  (∀ tag f bk (l : List Machine.Num) X, mxFmt tag = some f → chooseScale tag bk l = .e8m0 X → ∀ x ∈ l, x.isFin = true →
    (X < 254 → x.abs.cmp (.fin false 1 ((X : Int) - 127 + f.emax + 1)) = Ordering.lt) ∧
    (0 < X → ∃ y ∈ l, y.isFin = true ∧ (Machine.Num.fin false 1 ((X : Int) - 127 + f.emax)).cmp y.abs ≠ Ordering.gt)) ∧
  (∀ (s : State) (a : TOp) fmt k,
    let off := s.me.basinBytes - 8448 + 528 * k
    let held := s.bookHeld s.cur.die s.cur.core s.cur.rank k
    let free := s.me.basinFree s.cur.rank (if s.me.basinBytes = 0 then [] else [⟨off, off + 528, true⟩])
    let bad := ∃ e x, e ≤ 256 ∧ elemOf s a e = some x ∧ x.2 = true
    ((held = true ∨ free = false ∨ vHeld s (.vcbld a fmt k) = true) → exec (.vcbld a fmt k) s = .next s) ∧
    (held = false → free = true → fmt = 0x04 ∨ fmt = 0x02 → tagOf s a = fmt → VGo s (.vcbld a fmt k) false 0 →
      (bad → exec (.vcbld a fmt k) s = s.raise 0x07 2 (s.readTile a.v).origin) ∧
      (¬ bad → s.me.basinBytes = 0 → exec (.vcbld a fmt k) s = s.raise 0x0C 0 0) ∧
      (¬ bad → 0 < s.me.basinBytes →
        ∃ b bs, b.bf16 = decide (fmt = 0x02) ∧ b.affine = (((elemOf s a 256).getD (0, false)).1).getLsbD 0 ∧
          (∀ e x, e < 256 → elemOf s a e = some x → b.codes[e]? = some (x.1.toNat % if fmt = 0x02 then 2 ^ 16 else 2 ^ 8)) ∧
          (bs.head?).map (fun (h : Byte) => h.toNat % 4) = some ((if b.affine then 1 else 0) + if b.bf16 then 2 else 0) ∧
          (∀ e c, b.codes[e]? = some c → (bs.drop (16 + (if fmt = 0x02 then 2 else 1) * e)).take (if fmt = 0x02 then 2 else 1) =
            leBytes (if fmt = 0x02 then 2 else 1) c) ∧
          (b.codes.length = 256 → bs.length = 528) ∧
          exec (.vcbld a fmt k) s = .next (((s.takeSpouts [a.v]).updMyDie fun y =>
            { (y.present s.cur.core (s.me.basinAddr off) bs.length) with basin := y.basin.write 0 (s.me.basinAddr off) bs }).updMe fun x =>
              { x with books := x.books.set k b }).issued)))

/-- A command waits at its queue head for its scalars and for room on its timeline, and is illegal past the last number.
For every M and N command but the copies, and every F command: while a scalar it reads is pending (its own claims
aside), or the core has as many incomplete commands of the timeline as R274 allows (4; tln 8; tlf 16), exec changes
nothing; otherwise, the timeline's next number being 2^56, it takes the illegal-instruction fault. A tokenless check
comes before: ramo and ramocas of an unsupported width or scope, rtld of a stream tile and a bulk form without its
record mode are not covered by it. Rules: R101, R203, R274, R188, R191. -/
def Obligations.CommandsWaitToIssue : Prop :=
  ∀ (s : State) (i : Instr) (tl : TimelineId) (scal : List Nat),
    ((∃ t h cas dup rec, i = .mmw t h cas dup rec ∧ tl = .tlm ∧ scal = operandScalars h rec) ∨
      (∃ a t h cas sw rec, i = .mma a t h cas sw rec ∧ tl = .tlm ∧ scal = operandScalars h rec) ∨
      (∃ v t h c cas sw rec, i = .mmar v t h c cas sw rec ∧ tl = .tlm ∧ scal = operandScalars h rec) ∨
      (∃ a t h rec, (i = .task a t h rec ∨ i = .tfwd a t h rec) ∧ tl = .tlm ∧ scal = taskScalars h rec) ∨
      (∃ a b t, i = .acal a b t ∧ tl = .tlm ∧ scal = [a, b]) ∨
      (∃ a t, (i = .acfr a t ∨ i = .aczr a t) ∧ tl = .tlm ∧ scal = [a]) ∨
      (∃ d t h cas rec, i = .acdr d t h cas rec ∧ tl = .tlm ∧ scal = operandScalars h rec) ∨
      (∃ t h rel rec, i = .splr t h rel rec ∧ tl = .tln ∧ scal = if rel then relScalars h rec else operandScalars h rec) ∨
      (∃ a t h cas rec, i = .spmv a t h cas rec ∧ tl = .tln ∧ scal = operandScalars h rec) ∨
      (∃ d t h rec, i = .spjn d t h rec ∧ tl = .tln ∧ scal = operandScalars h rec) ∨
      (∃ a t, (i = .spmg a t ∨ i = .spage a t) ∧ tl = .tln ∧ scal = [a]) ∨ (∃ a b t, i = .sprd a b t ∧ tl = .tln ∧ scal = [a, b]) ∨
      (∃ t a b hint drain rec, i = .sbind t a b hint drain rec ∧ tl = .tly ∧ scal = a :: operandScalars b rec) ∨
      (∃ t a, (i = .sunb t a ∨ i = .dfl t a) ∧ tl = .tly ∧ scal = [a]) ∨
      (∃ t a b c w, i = .rld t a b c w ∧ tl = .tlf ∧ scal = [a, (a + 1) % 64]) ∨
      (∃ t a b c w, i = .rst t a b c w ∧ tl = .tlf ∧ scal = [a, (a + 1) % 64, b]) ∨
      (∃ t a b c cls w, i = .rmc t a b c cls w ∧ tl = .tlf ∧ scal = [a, (a + 1) % 64, b, c]) ∨
      (∃ t a b, i = .tkget t a b ∧ tl = .tlf ∧ scal = [a, (a + 1) % 64]) ∨
      (∃ t a b, (i = .tkwait t a b ∨ i = .tkret t a b ∨ i = .wdpub t a b) ∧ tl = .tlf ∧ scal = [a, (a + 1) % 64, b]) ∨
      (∃ t m, i = .rfence t m ∧ tl = .tlf ∧ scal = []) ∨ (∃ t, i = .pbar t ∧ tl = .tlf ∧ scal = [])) →
    let limit := match tl with | .tlf => 16 | .tln => 8 | _ => 4
    let have' := (s.me.fl.cmds.filter fun k => k.tl == tl).length +
      if tl = .tlm then (s.me.fl.cmds.filter fun k => k.follow.isSome).length else 0
    (s.eReady scal = false → exec i s = .next s) ∧ (limit ≤ have' → exec i s = .next s) ∧
    (s.eReady scal = true → have' < limit → (s.me.tls.get tl).last + 1 ≥ 2 ^ 56 →
      exec i s = s.raise 0x02 0 (BitVec.ofNat 64 s.cur.word))

/-- mmw, mma, mmar, acal, acfr, aczr, acdr, task and tfwd enter the matrix timeline with what they captured. With a legal
record, accepted tags and nothing to wait for, exec answers the next state in which the command stands numbered on tlm
behind the core's others, its token register named, with its record and, for mma and the tasks, its whole clean tile
captured, a stream tile taken. A task then enters the task table (or its rows leave, for tfwd), as far as the core's
waiting tasks come before it; a task that the directory refuses is captured with its refusal status; mmar's fetch
leaves for the named peer. Rules: R102, R203, R219, R220, R222, R227, R228, R216, R349, R285, R286, R43. -/
def Obligations.MatrixCommandsEnter : Prop :=
  ∀ s : State,
    (∀ t h cas dup rec p, IssueGo s .tlm (operandScalars h rec) → HasRecord s h rec p → mmwLimits p = true → (tagClass p.tag).isSome = true →
      p.formatBad = false → s.me.booksWait s.cur.rank [p] = false →
      ∃ u, exec (.mmw t h cas dup rec) s = .next u ∧ Queued s u .tlm t [patArg (.mmw t h cas dup rec) [] [p]]) ∧
    (∀ a t h cas sw rec p, IssueGo s .tlm (operandScalars h rec) → HasTile s a.v → bsBad rec = false → HasRecord s h rec p → p.base = 0 →
      p.st3 = 0 → mmaLimits p = true → mmaFormat p a.dir (tagOf s a) = true → s.me.tagsWait s.cur.rank [tagOf s a, p.tag] = false →
      let x := mmaArg s.me (.mma a t h cas sw rec) p (s.readTile a.v) (s.streamTile a.v)
      ∃ u, exec (.mma a t h cas sw rec) s = .next u ∧ Queued s u .tlm t [x] ∧ Takes s u [x]) ∧
    (∀ a b t, IssueGo s .tlm [a, b] → reqBad (s.me.val a) = false → (s.me.val b).toNat < 2 ^ 32 →
      ∃ u, exec (.acal a b t) s = .next u ∧ Queued s u .tlm t [plainArg (.acal a b t) [s.me.val a, s.me.val b]]) ∧
    (∀ a t, ∀ i ∈ [Instr.acfr a t, Instr.aczr a t], IssueGo s .tlm [a] → reqBad (s.me.val a) = false →
      ∃ u, exec i s = .next u ∧ Queued s u .tlm t [plainArg i [s.me.val a]]) ∧
    (∀ d t h cas rec p, IssueGo s .tlm (operandScalars h rec) → HasSink s d → bsBad rec = false → HasRecord s h rec p → acdrLimits p = true →
      let x := { patArg (.acdr d t h cas rec) [] [p] with strm := s.streamTile d }
      ∃ u, exec (.acdr d t h cas rec) s = .next u ∧ Queued s u .tlm t [x] ∧ Takes s u [x]) ∧
    (∀ v t h c cas sw rec p q, IssueGo s .tlm (operandScalars h rec) → v < 48 → bsBad rec = false → s.me.mWriteWaits s.cur.rank [v] = false →
      HasRecord s h rec p → mmaLimits p = true → p.base < 2 ^ 56 → p.base % 64 = 0 → 0 ≤ p.st3 → p.st3 < 4096 →
      mmarTagBad p (s.me.tileAt v s.cur.rank).tag = false → s.me.tagsWait s.cur.rank [p.tag] = false →
      s.peer s.cur.die s.me p.st3.toNat = .ok q →
      ∃ w x, exec (.mmar v t h c cas sw rec) s =
          .next (if s.cur.rep + 1 < s.cur.reps then w else w.launchF s.cur.die s.cur.core) ∧
        x.instr = .mmar v t h c cas sw rec ∧ x.pats = [{ p with base := 0, st3 := 0 }] ∧
        x.scal = [BitVec.ofNat 64 p.base, BitVec.ofNat 64 p.st3.toNat, BitVec.ofNat 64 (s.me.tileAt v s.cur.rank).tag, 0,
          BitVec.ofNat 64 (s.dieOfPeer q)] ∧
        x.books = s.me.booksFor [p.tag] ∧ Queued s w .tlm t [x]) ∧
    (∀ a t h rec fwd r dd, IssueGo s .tlm (taskScalars h rec) → modeMatches s.me rec = true → s.me.bindWaits s.cur.rank [a.v] = false →
      s.me.mReadWaits s.cur.rank [a.v] = false → s.streamMisuse [a.v] [] = false → s.taskRecord h rec = .ok r → r.legal fwd = true →
      s.taskDie r fwd = .ok dd → (fwd = false → (s.die dd).tableFull = false ∧ s.entrantsWait dd = false) →
      let i := if fwd then Instr.tfwd a t h rec else Instr.task a t h rec
      let pat := s.myDie.patience s.cur.core r.pat
      let enters := fun (w : State) (x : CmdArg) => exec i s = .next (if s.cur.rep + 1 < s.cur.reps then w else w.letIn 64 s.cur.die s.cur.core) ∧
        Queued s w .tlm t [x] ∧ Takes s w [x]
      (checkTask (s.die dd) s.me.ctx.tenant r (tagOf s a) a.dir = .ok → HasTile s a.v →
        ∃ w, enters w (taskArg i r pat dd 0 (some (s.readTile a.v)) (s.streamTile a.v))) ∧
      (checkTask (s.die dd) s.me.ctx.tenant r (tagOf s a) a.dir = .refused →
        ∃ w, enters w (taskArg i r pat dd (if fwd = true ∧ ((s.die dd).advertised r.wid).isNone = true then 0x23 else 0x22) none
          (s.streamTile a.v))))

/-- splr, spmv, spjn, spmg, spage and sprd enter the split unit's timeline with what they captured. With legal records,
slots below 64, accepted clean tiles and nothing to wait for, exec answers the next state in which the command stands
numbered on tln with its slot and operands; spmv has captured the tiles of its x vector, spjn its drain tile. Rules:
R102, R203, R319, R320, R321, R322, R325, R326. -/
def Obligations.SplitCommandsEnter : Prop :=
  ∀ s : State,
    (∀ t h rec n, IssueGo s .tln (relScalars h rec) → modeMatches s.me rec = true → s.relSlot h rec = .ok n → 0 ≤ n → n ≤ 63 →
      ∃ u, exec (.splr t h true rec) s = .next u ∧ Queued s u .tln t [plainArg (.splr t h true rec) [BitVec.ofNat 64 n.toNat]]) ∧
    (∀ t h rec p, IssueGo s .tln (operandScalars h rec) → HasRecord s h rec p → splrLimits p = true →
      ∃ u, exec (.splr t h false rec) s = .next u ∧
        Queued s u .tln t [patArg (.splr t h false rec) [BitVec.ofNat 64 p.st3.toNat] [p]]) ∧
    (∀ a t h cas rec p, IssueGo s .tln (operandScalars h rec) → HasRecord s h rec p → spmvLimits p = true →
      let g := groupTiles a p.e0
      a % g.length = 0 → a + g.length ≤ s.me.ctx.tiles → s.me.bindWaits s.cur.rank g = false → s.me.mReadWaits s.cur.rank g = false →
      s.streamMisuse g [] = false → (g.length = 1 ∨ ∀ v ∈ g, s.me.bindingAt v s.cur.rank = none) → s.readBar false g = .clear →
      (∀ v ∈ g, xTagOk p.tag p.e0 (s.readTile v).tag = true) →
      (∀ i v, g[i]? = some v → ((s.readTile v).poison.take (p.e0 - 1024 * i)).any id = false) →
      let x := spmvArg (.spmv a t h cas rec) p (g.map s.readTile) (s.streamTile a)
      ∃ u, exec (.spmv a t h cas rec) s = .next u ∧ Queued s u .tln t [x] ∧ Takes s u [x]) ∧
    (∀ d t h rec p, IssueGo s .tln (operandScalars h rec) → HasSink s d → HasRecord s h rec p → spjnLimits p = true →
      let x := { patArg (.spjn d t h rec) [BitVec.ofNat 64 p.base, BitVec.ofNat 64 p.st3.toNat] [p] with strm := s.streamTile d }
      ∃ u, exec (.spjn d t h rec) s = .next u ∧ Queued s u .tln t [x] ∧ Takes s u [x]) ∧
    (∀ a t, ∀ i ∈ [Instr.spmg a t, Instr.spage a t], IssueGo s .tln [a] → (s.me.val a).toNat < 64 →
      ∃ u, exec i s = .next u ∧ Queued s u .tln t [plainArg i [s.me.val a]]) ∧
    (∀ a b t, IssueGo s .tln [a, b] → (s.me.val a).toNat < 64 → (s.me.val b).toNat % 64 = 0 →
      ∃ u, exec (.sprd a b t) s = .next u ∧ Queued s u .tln t [plainArg (.sprd a b t) [s.me.val b, s.me.val a]])

/-- cp, cpm, gath, scat, fill, flush, inv, sbind, sunb and dfl issue with their resolved patterns. With legal patterns and
nothing to wait for, a copy command whose core a free engine of its quad serves next is numbered on tly and runs on
that engine; cpm also takes a tlm number for its follow-on, and keeps its word, handle and tile. sbind puts the
binding in place with its issue and its command is finished; sunb marks the end of its binding and dfl waits to flush,
both queued. Rules: R102, R180, R184, R185, R186, R187, R188, R191, R194, R195, R203. -/
def Obligations.CopyAndStreamCommandsEnter : Prop :=
  ∀ s : State,
    let last := ¬ s.cur.rep + 1 < s.cur.reps
    let eng := fun (u : State) => last → ∀ e, s.engineFor s.cur.die s.cur.core = some e →
      (((s.die s.cur.die).copies[e]?).isSome = true → Begun u e)
    let free := last → (s.engineFor s.cur.die s.cur.core).isSome = true
    (∀ i t scal regs ok ps, copyForm i = some (t, scal, regs, ok) → IssueGo s .tly scal →
      regs.map (fun r => checkPattern (s.handlePattern (s.me.val r))) = ps.map .ok → s.me.booksWait s.cur.rank ps = false → ok ps →
      (patArg i [] ps).steps ≤ 2 ^ 24 → free →
      ∃ u, exec i s = .next u ∧ Queued s u .tly t [patArg i [] ps] ∧ eng u) ∧
    (∀ t a b hint f p q, IssueGo s .tly [a, b, f / 2 ^ 5 % 2 ^ 6] → s.cmdsFull .tlm = false → s.me.nextNum .tlm < 2 ^ 56 →
      checkPattern (s.handlePattern (s.me.val a)) = .ok p →
      checkPattern (s.handlePattern (s.me.val b)) = .ok q → s.me.booksWait s.cur.rank [p, q] = false → p.count = q.count → p.tag = q.tag →
      let c := patArg (.cpm t a b hint f) [] [p, q]
      let v := f / 2 ^ 19 % 2 ^ 6
      c.steps ≤ 2 ^ 24 →
      (f / 2 ^ 25 ≠ 1 → v < 48 ∧ s.me.mReadWaits s.cur.rank [v] = false ∧ (s.me.tileAt v s.cur.rank).poison.any id = false) →
      free → last →
      ∃ u x, exec (.cpm t a b hint f) s = .next u ∧ Queued s u .tly t [c, x] ∧
        x.scal = [s.me.val (f / 2 ^ 5 % 2 ^ 6)] ∧ x.tile = (if f / 2 ^ 25 ≠ 1 then some (s.me.tileAt v s.cur.rank) else none) ∧
        (u.me.tls.get .tlm).last = (s.me.tls.get .tlm).last + 1 ∧
        (u.me.fl.cmds.getLast?).map (·.follow) = some (some (f, f / 2 ^ 11 % 2 ^ 6, (s.me.tls.get .tlm).last + 1)) ∧
        (u.me.fl.cmds.getLast?).map (·.fmode) = some s.me.k.kmode ∧ eng u) ∧
    (∀ t a b hint rec p, IssueGo s .tly (a :: operandScalars b rec) →
      modeMatches s.me rec = true → checkPattern (s.operandPattern b rec) = .ok p → s.me.booksWait s.cur.rank [p] = false →
      isBlock p.tag = false →
      let x := patArg (.fill t a b hint rec) [s.me.val a] [p]
      x.steps ≤ 2 ^ 24 → free → ∃ u, exec (.fill t a b hint rec) s = .next u ∧ Queued s u .tly t [x] ∧ eng u) ∧
    (∀ t a b, ∀ i ∈ [Instr.flush t a b, Instr.inv t a b], IssueGo s .tly [a, b] →
      (s.me.val b).toNat ≤ 2 ^ 32 → free →
      ∃ u, exec i s = .next u ∧ Queued s u .tly t [plainArg i [s.me.val a, s.me.val b]] ∧ eng u) ∧
    (∀ t a b hint drain rec p, IssueGo s .tly (a :: operandScalars b rec) → modeMatches s.me rec = true →
      checkPattern (s.operandPattern b rec) = .ok p → s.me.ctx.tiles = 64 → p.count % 1024 = 0 → p.tag ≠ 0x23 →
      let v := (s.me.val a).toNat
      48 ≤ v → v ≤ 63 → s.me.boundNow v = false → s.me.booksWait s.cur.rank [p] = false →
      (∀ c ∈ s.cur.acc, c.scal.head? ≠ some (s.me.val a)) →
      ∃ u, exec (.sbind t a b hint drain rec) s = .next u ∧
        Queued s u .tly t [patArg (.sbind t a b hint drain rec) [s.me.val a] [p]] ∧
        (last → (u.me.fl.cmds.getLast?).map (·.st) = some (.finished 0)) ∧
        (last → s.cur.acc = [] → s.me.strm.length = 16 → u.me.stream v = some (newBinding drain hint p ((s.me.tls.get .tly).last + 1)
          s.cur.rank (s.unperformed s.cur.die s.cur.core)) ∧ u.me.ended = s.me.ended ++ (s.me.stream v).toList.map fun o => (v, o))) ∧
    (∀ t a, IssueGo s .tly [a] → 48 ≤ (s.me.val a).toNat → (s.me.val a).toNat ≤ 63 →
      let v := (s.me.val a).toNat
      ∀ b, s.me.stream v = some b → b.ending = none →
        ((∀ c ∈ s.cur.acc, c.scal.head? ≠ some (s.me.val a)) → ∃ u, exec (.sunb t a) s = .next u ∧
          Queued s u .tly t [plainArg (.sunb t a) [s.me.val a]] ∧
          (last → s.cur.acc = [] → u.me.stream v = some { b with ending := some s.cur.rank })) ∧
        (b.kind = .spout → exec (.dfl t a) s = s.raise 0x02 0 (BitVec.ofNat 64 s.cur.word)) ∧
        (b.kind = .drain → ∃ u, exec (.dfl t a) s = .next u ∧ Queued s u .tly t [plainArg (.dfl t a) [s.me.val a]]))

/-- The fabric commands enter tlf with their addresses, their data and the dies they name, and then their requests leave.
With no tkwait holding the queue, clean scalars, an address below the aperture aligned to the width and a mapped peer,
rld, rst, ramo, ramocas, rtld, tkget, tkwait, tkret, rget and rput enter with VA, peer, operands and home die; rmc
with every replica of its box; wdpub with its directory operands; pbar once the core's loads are back and its stores
performed, counted in its launch's barrier; with the last repetition every waiting remote command of the core goes on.
rfence enters finished once no masked command is incomplete. Unsupported widths and scopes of the atomics, and a
stream tile for rtld, are illegal. Rules: R102, R203, R212, R334, R337, R339, R340, R342, R344, R345, R347, R350. -/
def Obligations.FabricCommandsEnter : Prop :=
  ∀ s : State,
    let goes := fun (i : Instr) (w : State) => exec i s =
      .next (if s.cur.rep + 1 < s.cur.reps then w else w.launchF s.cur.die s.cur.core)
    let va := fun a => s.me.val a
    let vp := fun a => s.me.val ((a + 1) % 64)
    let clear := s.me.ticketHolds = false
    (∀ t a b cls w d, clear → IssueGo s .tlf [a, (a + 1) % 64] → HasPeer s a (wBytes w) d →
      ∃ u, goes (.rld t a b cls w) u ∧ Queued s u .tlf t [remoteArg (.rld t a b cls w) (va a) (vp a) 0 0 [d] []]) ∧
    (∀ t a b cls w d, clear → IssueGo s .tlf [a, (a + 1) % 64, b] → HasPeer s a (wBytes w) d →
      ∃ u, goes (.rst t a b cls w) u ∧ Queued s u .tlf t [remoteArg (.rst t a b cls w) (va a) (vp a) (va b) 0 [d] []]) ∧
    (∀ op t a b c cls w sc d,
      ((w ≠ .n32 ∧ w ≠ .n64) ∨ sc = .lane ∨ sc = .quad →
        exec (.ramo op t a b cls w sc) s = s.raise 0x02 0 (BitVec.ofNat 64 s.cur.word) ∧
        exec (.ramocas t a b c cls w sc) s = s.raise 0x02 0 (BitVec.ofNat 64 s.cur.word)) ∧
      (w = .n32 ∨ w = .n64 → sc = .die ∨ sc = .pkg ∨ sc = .pod → clear → HasPeer s a (wBytes w) d →
        (IssueGo s .tlf [a, (a + 1) % 64, b] → ∃ u, goes (.ramo op t a b cls w sc) u ∧
          Queued s u .tlf t [remoteArg (.ramo op t a b cls w sc) (va a) (vp a) (va b) 0 [d] []]) ∧
        (IssueGo s .tlf [a, (a + 1) % 64, b, c] → ∃ u, goes (.ramocas t a b c cls w sc) u ∧
          Queued s u .tlf t [remoteArg (.ramocas t a b c cls w sc) (va a) (vp a) (va b) (va c) [d] []]))) ∧
    (∀ t a b c cls w (ds : List Nat), clear → IssueGo s .tlf [a, (a + 1) % 64, b, c] → addrFault (va a) (wBytes w) = none →
      (vp a).toNat < 4096 → boxBad (va c) = false → (boxOf (vp a) (va c)).map s.replica = ds.map .ok →
      ∃ u, goes (.rmc t a b c cls w) u ∧ Queued s u .tlf t [remoteArg (.rmc t a b c cls w) (va a) (vp a) (va b) (va c) ds []]) ∧
    (∀ t a b cls d, (48 ≤ b → exec (.rtld t a b cls) s = s.raise 0x02 0 (BitVec.ofNat 64 s.cur.word)) ∧
      (b < 48 → clear → IssueGo s .tlf [a, (a + 1) % 64] → HasPeer s a 64 d → s.me.mWriteWaits s.cur.rank [b] = false →
        ∃ u, goes (.rtld t a b cls) u ∧ Queued s u .tlf t [remoteArg (.rtld t a b cls) (va a) (vp a) 0 0 [d] []])) ∧
    (∀ t a b d, clear → HasPeer s a 1 d →
      (IssueGo s .tlf [a, (a + 1) % 64] → ∃ u, goes (.tkget t a b) u ∧
        Queued s u .tlf t [remoteArg (.tkget t a b) (va a) (vp a) 0 0 [d] []]) ∧
      (∀ i ∈ [Instr.tkwait t a b, Instr.tkret t a b], IssueGo s .tlf [a, (a + 1) % 64, b] →
        ∃ u, goes i u ∧ Queued s u .tlf t [remoteArg i (va a) (vp a) (va b) 0 [d] []])) ∧
    (∀ t a b cls rec d p, clear → modeMatches s.me rec = true → IssueGo s .tlf (a :: (a + 1) % 64 :: operandScalars b rec) → HasPeer s a 1 d →
      checkPattern (s.operandPattern b rec) = .ok p → s.me.booksWait s.cur.rank [p] = false →
      ∀ i ∈ [Instr.rget t a b cls rec, Instr.rput t a b cls rec],
        s.me.basinFree s.cur.rank (remoteArg i 0 0 0 0 [] [p]).prints = true → (remoteArg i 0 0 0 0 [] [p]).steps ≤ 2 ^ 24 →
        ∃ u, goes i u ∧ Queued s u .tlf t [remoteArg i (va a) (vp a) 0 0 [d] [p]]) ∧
    (∀ t a b, clear → IssueGo s .tlf [a, (a + 1) % 64, b] → (vp a).toNat ≤ 1 →
      ∃ u, goes (.wdpub t a b) u ∧ Queued s u .tlf t [plainArg (.wdpub t a b) [va a, vp a, va b]]) ∧
    (∀ t, clear → IssueGo s .tlf [] →
      (s.me.loadsBack = false ∨ s.unperformed s.cur.die s.cur.core ≠ [] → exec (.pbar t) s = .next s) ∧
      (s.me.loadsBack = true → s.unperformed s.cur.die s.cur.core = [] →
        ∃ w, goes (.pbar t) w ∧
          (∃ s1, s1.me = s.me ∧ s1.cur = s.cur ∧ SameMemory s s1 ∧ Queued s1 w .tlf t [plainArg (.pbar t) []]) ∧
          ∀ n b p, s.findNet none s.me.launchKey s.me.place = some n → s.nets[n]? = some b → b.part s.me.place = some p →
            ((w.nets[n]?).bind fun m => m.part s.me.place) = some { p with count := p.count + 1 })) ∧
    (∀ t m, clear → IssueGo s .tlf [] →
      ((∃ k ∈ s.me.fl.cmds, k.inMask m = true) → exec (.rfence t m) s = .next s) ∧
      ((∀ k ∈ s.me.fl.cmds, k.inMask m = false) → ∃ u, exec (.rfence t m) s = .next u ∧
        Queued s u .tlf t [plainArg (.rfence t m) []] ∧
        (¬ s.cur.rep + 1 < s.cur.reps → (u.me.fl.cmds.getLast?).map (·.st) = some (.finished 0))))

/-- TOKEN_COMPLETION writes a command's results and then its token, or parks it with its fault status. For a command whose
end is decided (and whose binding, if it ends one, is through): finished with a status, its claimed results are
written, then the token STATUS << 56 + NUM, its timeline counts it complete and it is gone, a cpm's follow-on taking
its place; failed, the token reports the fault status, the command is parked, and unless the context is frozen an
engine fault of that status joins the pending ones. A command still at work changes nothing when no stream it ends is
through. Rules: R102, R202, R203, R204, R185, R269, R260. -/
def Obligations.TokensReportTheEnd : Prop :=
  ∀ (s : State) (d c n : Nat) (k : Cmd), s.hasCore d c = true → (s.core d c).fl.cmds[n]? = some k → k.ends = [] →
    let x := s.core d c
    (∀ st, k.st = .finished st → ∃ z s1 : State,
      exec (.tokenCompletion d c n) s = .next ((s1.handOverAll d c).launchF d c) ∧
      (st = 0 → z.core d c = x) ∧ s1.core d c = ((z.core d c).completeCmd n k st).progress ∧
      (let w := z.core d c
       let y := s1.core d c
       (w.ctl.hold = none → 0 < k.token → k.token < w.regs.length → k.follow = none ∨ st = 0 →
        y.val k.token = BitVec.ofNat 64 (st * 2 ^ 56 + k.num % 2 ^ 56) ∧ y.poisoned k.token = false ∧ (y.reg k.token).pend = false) ∧
       y.fl.cmds = w.fl.cmds.eraseIdx n ++ (if st = 0 then k.followCmd.toList else []) ∧
       (k.follow = none → (y.tls.get k.tl) = (w.tls.get k.tl).complete k.num))) ∧
    (∀ st, k.st = .failed st → ∃ t, exec (.tokenCompletion d c n) s = .next t ∧
      (let y := t.core d c
       (x.ctl.hold = none → 0 < k.token → k.token < x.regs.length → y.val k.token = BitVec.ofNat 64 (st * 2 ^ 56 + k.num % 2 ^ 56)) ∧
       (y.fl.cmds[n]?).map (·.st) = some .parked ∧ (y.fl.cmds[n]?).map (·.status) = some st ∧
       (x.ctl.frozen = false → y.ctl.faults = x.ctl.faults ++ [k.fault st]) ∧
       (x.ctl.frozen = true → y.ctl.faults = x.ctl.faults) ∧ y.tls = x.tls)) ∧
    ((∀ st, k.st ≠ .finished st ∧ k.st ≠ .failed st) → exec (.tokenCompletion d c n) s = .next s)

/-- A register write of a value its rule rejects takes the illegal-instruction fault, any other below its level the
privilege fault. Whatever the level (R260), MODE_WRITE of RND 0, 6 or 7, noise registers that would break R165
(earlier V instructions retired), CACHE_SHARE_WRITE of a share R175 rejects, a range table of more than 64 entries,
ACTIVE_MASK_WRITE of an empty mask or while a context of the partition exists, a RECALL of a core that is not lent,
LEND_WRITE of a deadline below 4000, of LENT = 1 over a context or of LENT = 0 over a borrower's, and a trace buffer
past 2^56 make the core take the illegal-instruction fault. Any other value, below the level that R266 and the
registers' own rules give, makes it take the privilege fault. Rules: R86, R165, R175, R240, R251, R260, R266, R268,
R374, R394, R395, R399. -/
def Obligations.RegisterWriteRowsRefuse : Prop :=
  ∀ (s : State) (d c : Nat),
    let x := s.core d c
    let priv := Host.Outcome.next (trappedAt s d c 0x12 (BitVec.ofNat 64 s.cur.word))
    let ill : Out := .next (trappedAt s d c 0x02 (BitVec.ofNat 64 s.cur.word))
    let low := fun (n : Nat) (i : Instr) => x.ctl.level < n → exec i s = priv
    let ends := fun (n : Nat) (i : Instr) (bad : Prop) => (bad → exec i s = ill) ∧ (¬ bad → low n i)
    (∀ i ∈ [Instr.kctxSave d c, .kctxRestore d c, .kctxRelease d c, .kctxNothing d c, .xinvAllStage1 d c], low 1 i) ∧
    (∀ n, low 1 (.xinvPage d c n)) ∧ low 2 (.xinvStage2 d c) ∧
    (∀ n, n < 32 → low 2 (.preempt d c n) ∧ low 2 (.preemptForMigration d c n)) ∧
    (∀ v, field v 2 0 = 0 ∨ 5 < field v 2 0 → exec (.modeWrite d c v) s = ill) ∧
    (∀ num v, num ∈ [0x014, 0x015, 0x016] → x.vRetired = true →
      let k := noiseAfter x.k num v
      ¬ noiseOk k.1 k.2.1 k.2.2 (field x.k.kbasin 44 32) → exec (.noiseModeWrite d c num v) s = ill) ∧
    (∀ v, ends 1 (.cacheShareWrite d c v) (¬ shareOk v (field x.k.kbasin 44 32)) ∧ ends 1 (.rangeTableLoad d c 1 v) (64 < field v 6 0) ∧
      ends 2 (.rangeTableLoad d c 2 v) (64 < field v 6 0) ∧
      ends 2 (.activeMaskWrite d c v) (field v 7 0 = 0 ∨ ∃ y ∈ s.dies, (∃ z ∈ y.cores, z.holds = true ∧ z.ctx.part = (s.die d).part) ∨
        ∃ h ∈ y.held, h.part = (s.die d).part) ∧
      (let y := s.core d (field v 4 0)
       ends 2 (.lendWrite d c v) (field v 39 24 < 4000 ∨ (v.getLsbD 11 = true ∧ y.holds = true) ∨
        (v.getLsbD 11 = false ∧ y.holds = true ∧ ∃ l, (s.die d).lends[field v 4 0]? = some l ∧ l.lent = true ∧ y.ctx.part = l.part))) ∧
      ends 2 (.traceBufferWrite d c v) (2 ^ 56 < 4096 * (field v 55 12 + field v 11 0)) ∧
      (v.getLsbD 0 = false → low 2 (.boardWrite d c v))) ∧
    (∀ n l, n < 32 → (s.die d).preOp = none → (s.die d).lends[n]? = some l → ends 2 (.recall d c n) (l.lent = false))

/-- Writes of the mode, the noise registers, the cache share and the range tables, and KXINV, change what their rules say.
MODE_WRITE of a legal RND sets KMODE [4:0]; NOISE_MODE_WRITE waits for earlier V instructions, then writes the
register it names; CACHE_SHARE_WRITE waits for the core's groups and commands, then sets KBCACHE and leaves no entry
of the context's slot in the tag table and every other entry; RANGE_TABLE_LOAD sets the register and reads COUNT
entries of 32 bytes from BASE; KXINV waits for the accesses in flight of the cores it covers, then drops the stage-1
translations of the context and reads its table again, drops the stage-1 translations of one page, or drops the
stage-2 translations of every core of the partition with this KS2ROOT. Registers, tiles and control stay. Rules: R86,
R165, R175, R178, R240, R242, R251, R265. -/
def Obligations.ContextRegisterRows : Prop :=
  ∀ (s : State) (d c : Nat), s.hasCore d c = true →
    let x := s.core d c
    (∀ v, 1 ≤ field v 2 0 → field v 2 0 ≤ 5 → exec (.modeWrite d c v) s =
      .next (s.updCore d c fun y => y.setK fun k => { k with kmode := afterWrite k.kmode v 0x1F 0 })) ∧
    (∀ num v, num ∈ [0x014, 0x015, 0x016] → (x.vRetired = false → exec (.noiseModeWrite d c num v) s = .next s) ∧
      (x.vRetired = true →
        let k := noiseAfter x.k num v
        noiseOk k.1 k.2.1 k.2.2 (field x.k.kbasin 44 32) → exec (.noiseModeWrite d c num v) s =
          .next (s.updCore d c fun y => y.setK fun r => { r with knoise := k.1, knlogb := k.2.1, knlogp := k.2.2 }))) ∧
    (∀ v, 1 ≤ x.ctl.level → (x.quiet = false → exec (.cacheShareWrite d c v) s = .next s) ∧
      (x.quiet = true → shareOk v (field x.k.kbasin 44 32) → ∃ t, exec (.cacheShareWrite d c v) s = .next t ∧
        t.readK d c .kbcache = afterWrite 0 v (2 ^ 57 - 2 ^ 32 + (2 ^ 28 - 1)) 0 ∧
        (∀ e, e ∈ (t.die d).tags ↔ e ∈ (s.die d).tags ∧ e.owner ≠ x.k.kslot.toNat) ∧ keptBut x (t.core d c) ∧ SameMemory s t)) ∧
    (∀ v, x.quiet = true → field v 6 0 ≤ 64 →
      (1 ≤ x.ctl.level → ∃ t, exec (.rangeTableLoad d c 1 v) s = .next t ∧
        t.readK d c .krtab = afterWrite 0 v (2 ^ 56 - 2 ^ 11 + 127) 0 ∧ keptBut x (t.core d c) ∧ SameMemory s t ∧
        (t.core d c).xl.rt1.length = field v 6 0 ∧
        (x.x.ks2root.getLsbD 0 = false → field x.x.ks2rtab 6 0 = 0 → ∀ i, i < field v 6 0 →
          let pa := field v 55 11 * 2 ^ 11 + 32 * i
          let key := s.keyOf d x.ctx.tenant
          paPlace d pa ≠ .unreachable → (s.readPa d key pa 32).2 = false →
            (t.core d c).xl.rt1[i]? = some (entryAt s d key pa))) ∧
      (2 ≤ x.ctl.level → ∃ t, exec (.rangeTableLoad d c 2 v) s = .next t ∧
        t.readK d c .ks2rtab = afterWrite 0 v (2 ^ 56 - 2 ^ 11 + 127) 0 ∧ keptBut x (t.core d c) ∧ SameMemory s t ∧
        (t.core d c).xl.rt2.length = field v 6 0 ∧
        ∀ i, i < field v 6 0 →
          let pa := field v 55 11 * 2 ^ 11 + 32 * i
          let key := s.keyOf d x.ctx.tenant
          paPlace d pa ≠ .unreachable → (s.readPa d key pa 32).2 = false →
            (t.core d c).xl.rt2[i]? = some (entryAt s d key pa))) ∧
    (1 ≤ x.ctl.level →
      (s.accessesDone d c = false → exec (.xinvAllStage1 d c) s = .next s ∧ ∀ va, exec (.xinvPage d c va) s = .next s) ∧
      (s.accessesDone d c = true →
        (∃ t, exec (.xinvAllStage1 d c) s = .next t ∧ keptBut x (t.core d c) ∧ SameMemory s t ∧
          (t.core d c).xl.tlb = x.xl.tlb.filter (·.stage2) ∧ (t.core d c).xl.rt2 = x.xl.rt2 ∧
          (t.core d c).xl.rt1 = (List.range (field x.x.krtab 6 0)).map
            (s.readSlot1 d { x with xl := { x.xl with tlb := x.xl.tlb.filter (·.stage2) } })) ∧
        ∀ va, va < 2 ^ 56 → ∃ t, exec (.xinvPage d c va) s = .next t ∧ keptBut x (t.core d c) ∧ SameMemory s t ∧
          ∀ e, e ∈ (t.core d c).xl.tlb ↔ e ∈ x.xl.tlb ∧
            (e.stage2 = true ∨ va / 4096 * 4096 < e.base ∨ e.base + e.size ≤ va / 4096 * 4096))) ∧
    (2 ≤ x.ctl.level →
      let shares := fun (e f : Nat) => s.hasCore e f = true ∧ (s.die e).part = (s.die d).part ∧ (s.core e f).x.ks2root = x.x.ks2root
      ((∃ e f, f < 32 ∧ shares e f ∧ s.accessesDone e f = false) → exec (.xinvStage2 d c) s = .next s) ∧
      (Shaped s → (∀ e f, f < 32 → shares e f → s.accessesDone e f = true) → ∃ t, exec (.xinvStage2 d c) s = .next t ∧
        ∀ e f, f < 32 → shares e f → ∀ z ∈ (t.core e f).xl.tlb, z.stage2 = false))

/-- KCTX saves the held context and frees the engines, restores one held at the level, releases one, and reports a STATUS.
At S and H. KCTX_NOTHING changes nothing. A save with no held context leaves STATUS 1, one with KSAVE.PAGE out of
range STATUS 5; it waits for the work of R270, then the area holds the save's records, the hold has ended without a
resume, no group, command or stream is left and STATUS is 0. A restore waits for the handler's own results; a nonzero
STATUS changes nothing else; with STATUS 0 the context is held at the current level and frozen. A release that passes
its checks zeroes MAGIC. The header a save writes has its fields where R275 puts them. Rules: R268, R272, R274, R275,
R280. -/
def Obligations.ContextOperations : Prop :=
  ∀ (s : State) (d c : Nat), s.hasCore d c = true → 1 ≤ (s.core d c).ctl.level →
    let x := s.core d c
    let page := field x.x.ksave 11 0
    let bad := page < 16 ∨ 4096 < page + 6
    let onlyStatus := fun (n : Nat) => s.updCore d c fun y => { y with x := { y.x with kctx := BitVec.ofNat 64 (n * 2 ^ 56) } }
    exec (.kctxNothing d c) s = .next s ∧
    (x.ctl.hold = none ∨ x.holds = false → exec (.kctxSave d c) s = .next (onlyStatus 1)) ∧
    (∀ h, x.ctl.hold = some h → x.holds = true →
      (bad → exec (.kctxSave d c) s = .next (onlyStatus 5)) ∧
      (¬ bad → s.quiesced d c = false → exec (.kctxSave d c) s = .next s) ∧
      (¬ bad → s.quiesced d c = true → ∃ t s1, exec (.kctxSave d c) s = .next t ∧ t.readK d c .kctx = 0 ∧
        (let s0 := (s.drainStores d c).releaseParked d c
         s1 = s0.updCore d c fun _ => s0.beforeSave d c) ∧
        (t.die d).basin = (s1.saveBytes d c 3).foldl
          (fun m p => m.write 0 (65536 * field (s1.core d c).x.ksave 11 0 + p.1) p.2) (s1.die d).basin ∧
        (t.core d c).ctl.hold = none ∧ (t.core d c).ctl.frozen = false ∧ (t.core d c).ctl.level = (s1.core d c).ctl.level ∧
        (t.core d c).holds = false ∧ (t.core d c).q.all = [] ∧ (t.core d c).fl.cmds = [] ∧
        (∀ v, (t.core d c).stream v = none) ∧ (t.die d).allots = (s1.die d).allots)) ∧
    (s.filesStill d c = false → exec (.kctxRestore d c) s = .next s) ∧
    (s.filesStill d c = true →
      (x.ctl.hold.isSome = true ∨ x.holds = true → exec (.kctxRestore d c) s = .next (onlyStatus 1)) ∧
      (s.restoreStatus d c ≠ 0 → exec (.kctxRestore d c) s = .next (onlyStatus (s.restoreStatus d c))) ∧
      (s.restoreStatus d c = 0 → ∃ t h, exec (.kctxRestore d c) s = .next t ∧ t.readK d c .kctx = 0 ∧
        (((s.drainStores d c).die d).areaPlace page ≠ none → (t.core d c).ctl.hold = some h ∧ h.level = x.ctl.level ∧ (t.core d c).ctl.frozen = true ∧
          (t.core d c).ctl.level = x.ctl.level))) ∧
    (s.releaseStatus d c ≠ 0 → exec (.kctxRelease d c) s = .next (onlyStatus (s.releaseStatus d c))) ∧
    (s.releaseStatus d c = 0 → ∃ t, exec (.kctxRelease d c) s = .next t ∧ t.readK d c .kctx = 0 ∧
      ∀ i, i < 4 → (t.die d).basin.bytes.get (65536 * page + i) = 0) ∧
    (∀ reason, reason < 256 →
      let b := s.headerBytes d c reason
      b.length = 256 ∧ leAt b 0 4 = 0x58544358 ∧ leAt b 4 2 = 1 ∧ leAt b 6 2 = 256 ∧ leAt b 8 4 = 387328 ∧
      leAt b 12 1 = x.k.kslot.toNat % 256 ∧ leAt b 13 1 = reason ∧ leAt b 14 2 = x.ctx.tenant % 65536 ∧
      leAt b 32 8 = x.k.kscyc.toNat ∧ leAt b 56 8 = x.k.klrec.toNat)

/-- Writes of KAMASK, KBOARD, KPREEMPT, KLEND and KTRB change the die state their rules name. At H. ACTIVE_MASK_WRITE with
no context in the partition sets MASK on its dies. BOARD_WRITE sets KBOARD and adds a board, that of the table or
none, to those that wait for their frame (a table R391 rejects is illegal). The pre-emptions of a core that holds no
context end with STATUS 1, with KSAVE.PAGE out of range STATUS 2, else the pre-emption of R272 is asked for with its
bound of cycles and the operation waits for it; when it has ended, STATUS is 0, or 3 for a recall that ended past DL
or whose DL lies below Tp of the points in force; 1 where the context ended first, 2 where the save area went out of
range. LEND_WRITE sets the core's lending and the register reads back. TRACE_BUFFER_WRITE, the records on their way
written, sets KTRB, PTR 0 and WRAP 0. That the mask is written on every die of the partition is the reading of log 24.
Rules: R272, R374, R390, R391, R392, R394, R395, R396, R399. -/
def Obligations.DieRegisterRows : Prop :=
  ∀ (s : State) (d c : Nat), s.hasCore d c = true → 2 ≤ (s.core d c).ctl.level →
    let y := s.die d
    (∀ v, field v 7 0 ≠ 0 → s.partBusy y.part = false → ∃ t, exec (.activeMaskWrite d c v) s = .next t ∧ SameMemory s t ∧
      (∀ e, s.hasDie e = true → (t.die e).amask = if (s.die e).part = y.part then field v 7 0 else (s.die e).amask) ∧
      field (t.readK d c .kamask) 7 0 = field v 7 0) ∧
    (∀ v, let put := fun (b : Board) => exec (.boardWrite d c v) s = .next (s.updDie d fun y => { y with seqr := { y.seqr with
              kboard := afterWrite 0 v (2 ^ 56 - 2 ^ 10 + 1) 0, coming := y.seqr.coming ++ [(y.seqr.cyc, b)] } })
      let table := (s.readPa d (s.pkg (d / 8)).sec.plat (field v 55 10 * 1024) 1024).1
      let weight := fun (i : Nat) => (leAt table (768 + 4 * i) 2, leAt table (770 + 4 * i) 1)
      (v.getLsbD 0 = false → put ⟨false, [], []⟩) ∧
      (v.getLsbD 0 = true →
        (boardBad table = false → ∃ b : Board, put b ∧ b.en = true ∧
          (∀ r i, r < 24 → i < 16 → ((b.rows[r]?).bind fun l => l[i]?) = some (leAt table (32 * r + 2 * i) 2)) ∧
          ∀ w, w ∈ b.weights ↔ ∃ i, i < 64 ∧ w = weight i ∧ w.1 ≠ 0xFFFF) ∧
        ((∃ i, i < 64 ∧ (weight i).1 ≠ 0xFFFF ∧ ((weight i).2 = 0 ∨ leAt table (771 + 4 * i) 1 ≠ 0 ∨
            ∃ j, j < 64 ∧ j ≠ i ∧ (weight j).1 = (weight i).1)) →
          exec (.boardWrite d c v) s = .next (trappedAt s d c 0x02 (BitVec.ofNat 64 s.cur.word))))) ∧
    (∀ n, n < 32 → ∀ p ∈ [(Instr.preempt d c n, 1), (Instr.preemptForMigration d c n, 2), (Instr.recall d c n, 3)],
      let x := s.core d n
      let page := field x.x.ksave 11 0
      (y.preOp = none → (p.2 = 3 → ∃ l, y.lends[n]? = some l ∧ l.lent = true) →
        (x.holds = false → ∃ t, exec p.1 s = .next t ∧ t.readK d c .kpreempt = BitVec.ofNat 64 (2 ^ 56)) ∧
        (x.holds = true → page < 16 ∨ 4096 < page + 6 →
          ∃ t, exec p.1 s = .next t ∧ t.readK d c .kpreempt = BitVec.ofNat 64 (2 * 2 ^ 56)) ∧
        (x.holds = true → 16 ≤ page → page + 6 ≤ 4096 → s.hasCore d n = true → ∃ t, exec p.1 s = .next t ∧
          (t.die d).preOp = some ⟨c, p.2, n, y.kfrc, none, false⟩ ∧ t.core d n = x.askStop 1 32)) ∧
      (∀ since dn bad, y.preOp = some ⟨c, p.2, n, since, dn, bad⟩ →
        (dn = none → bad = false → x.holds = true → exec p.1 s = .next s) ∧
        ∀ st, (bad = true ∧ st = 2) ∨ (bad = false ∧ dn = none ∧ x.holds = false ∧ st = 1) ∨
            (∃ e, bad = false ∧ dn = some e ∧ st = if p.2 = 3 ∧
              (((y.lends[n]?).getD ⟨false, 0, 0⟩).dl < e - since ∨ ((y.lends[n]?).getD ⟨false, 0, 0⟩).dl < pointTp (max y.power.core y.power.casc))
              then 3 else 0) →
          ∃ t, exec p.1 s = .next t ∧ (t.die d).preOp = none ∧ t.readK d c .kpreempt = BitVec.ofNat 64 (st * 2 ^ 56))) ∧
    (∀ v, 4000 ≤ field v 39 24 → y.lends.length = 32 →
      let x := s.core d (field v 4 0)
      (x.holds = false ∨ (v.getLsbD 11 = false ∧ ∃ l, y.lends[field v 4 0]? = some l ∧ (l.lent = true → x.ctx.part ≠ l.part))) →
      ∃ t, exec (.lendWrite d c v) s = .next t ∧ SameMemory s t ∧
        t.readK d c .klend = afterWrite 0 v (2 ^ 40 - 2 ^ 11 + 31) 0 ∧
        (t.die d).lends[field v 4 0]? = some ⟨v.getLsbD 11, field v 23 12, field v 39 24⟩ ∧
        ∀ k, k ≠ field v 4 0 → (t.die d).lends[k]? = y.lends[k]?) ∧
    (∀ v, 4096 * (field v 55 12 + field v 11 0) ≤ 2 ^ 56 → ∃ t, exec (.traceBufferWrite d c v) s = .next t ∧ SameMemory (s.flushTrace d) t ∧
      t.readK d c .ktrb = afterWrite 0 v (2 ^ 56 - 1) 0 ∧ t.readK d c .ktrp = 0)

/-- LINE_DELIVERY fetches the next line, takes its faults, holds it back or delivers it whole. A core that does not fetch,
or whose line has a C lane still to issue, is unchanged. A line whose lanes have issued resolves first. Between lines:
an address in the aperture faults 0x0A, a failed translation 0x0D with its syndrome, a marked line 0x0E, an illegal
line 0x01 with its SUB and the header, each at lane 0; a line whose pseudo-channel retrains waits, one held back
changes only what the read does; else its C lanes are next, every engine queue has its groups added in lane order with
mode, predicate and rank, its claims are pending. A breakpoint at the next line asks for a stop at the next edge, and
the line waits for it; under STEP a line whose lanes have issued stands. A line to be fetched again, checked like any
other, brings its C lanes only, from its lane and repetition, with the kept decision. Rules: R14, R22, R25, R29, R44,
R97, R102, R122, R246, R263, R400, R411. -/
def Obligations.LinesAreDelivered : Prop :=
  ∀ (s : State) (d c : Nat), s.hasCore d c = true →
    let x := s.core d c
    let addr := x.ctl.nextLine
    (x.fetches = false → exec (.lineDelivery d c) s = .next s) ∧
    (∀ l, x.fetches = true → x.ctl.line = some l →
      (l.done = false ∨ (x.stepDone = true ∧ x.ctl.hold = none) → exec (.lineDelivery d c) s = .next s) ∧
      (l.done = true → (x.stepDone = false ∨ x.ctl.hold ≠ none) → exec (.lineDelivery d c) s = exec (.lineDelivery d c) (s.resolveLine d c l) ∧
        ∃ t, exec (.lineDelivery d c) s = .next t)) ∧
    (x.fetches = true → x.ctl.line = none → x.ctl.refetch = none → x.ctl.hold = none →
      (x.ctl.brkDone = false → (∃ i ∈ [1, 2], x.x.kdbgc.getLsbD i = true ∧ field (if i = 1 then x.x.kbrk0 else x.x.kbrk1) 55 5 = addr / 32) →
        exec (.lineDelivery d c) s = .next (s.updCore d c fun y => { y with ctl := { y.ctl with
          stops := y.ctl.stops ++ [⟨2, 1⟩], brkDone := true } })) ∧
      (x.ctl.brkDone = true → (∃ r ∈ x.ctl.stops, r.reason = 2 ∧ r.wait ≤ 1) → exec (.lineDelivery d c) s = .next s)) ∧
    (Between x →
      (2 ^ 56 - 2 ^ 28 ≤ addr → exec (.lineDelivery d c) s = .next (fetchTrap s d c 0x0A 0 (BitVec.ofNat 64 addr) addr none false)) ∧
      (∀ e, addr < 2 ^ 56 - 2 ^ 28 → s.translate d x x.ctl.level .fetch addr = .error e →
        exec (.lineDelivery d c) s = .next (fetchTrap s d c 0x0D 0 (BitVec.ofNat 64 e.tval) addr (some e.word) e.stage2)) ∧
      ∀ o, addr < 2 ^ 56 - 2 ^ 28 → s.translate d x x.ctl.level .fetch addr = .ok o →
        (s.channelBusy d o.pa 32 = true → exec (.lineDelivery d c) s = .next s) ∧
        let s1 := (s.touchPa d o.pa 32 .plain).updCore d c fun y => y.cache o.walked
        let r := s1.coreRead d c o.pa 32 x.fl.seq
        let lanes := (List.range 8).map fun i => leNat ((r.1.drop (4 * i)).take 4)
        let h := lanes.headD 0
        let bad := lineFault h lanes.tail x.ctl.hold.isSome
        (s.channelBusy d o.pa 32 = false → r.2 = true →
          exec (.lineDelivery d c) s = .next (fetchTrap s1 d c 0x0E 0 (BitVec.ofNat 64 addr) addr none false)) ∧
        (s.channelBusy d o.pa 32 = false → r.2 = false →
          (bad ≠ 0 → exec (.lineDelivery d c) s = .next (fetchTrap s1 d c 0x01 bad (BitVec.ofNat 64 h) addr none false)) ∧
          (bad = 0 → ∃ gs, lineGroups h lanes.tail 1 none [] [] = some gs ∧
            (HeldBack x h gs → exec (.lineDelivery d c) s = .next s1) ∧
            (¬ HeldBack x h gs → ∃ t, exec (.lineDelivery d c) s = .next t ∧
              let y := t.core d c
              y.ctl.line = some ⟨addr, lanes, 1, 0, .undecided, x.loops.preds, x.ctl.rank, none⟩ ∧ y.ctl.rank = x.ctl.rank + 8 ∧
              (∀ e ∈ [Engine.v, .m, .y, .f], y.q.get e = x.q.get e ++ (gs.filter fun g => g.engine == e).map (entered x addr)) ∧
              (x.regs.length = 64 → ∀ q, 0 < q → q < 64 → y.val q = x.val q ∧ y.poisoned q = x.poisoned q ∧
                ((y.reg q).pend = true ↔ (x.reg q).pend = true ∨
                  ∃ g ∈ gs, (∀ n, groupStage g = some n → x.loops.preds.testBit n = true) ∧ q ∈ groupClaims g)) ∧
              y.loops = x.loops ∧ y.k = x.k ∧ y.fl = x.fl)))) ∧
    (∀ f o, x.fetches = true → x.ctl.line = none → x.ctl.refetch = some f → f.line < 2 ^ 56 - 2 ^ 28 →
      s.translate d x x.ctl.level .fetch f.line = .ok o → s.channelBusy d o.pa 32 = false →
      let s1 := (s.touchPa d o.pa 32 .plain).updCore d c fun y => y.cache o.walked
      let r := s1.coreRead d c o.pa 32 x.fl.seq
      let lanes := (List.range 8).map fun i => leNat ((r.1.drop (4 * i)).take 4)
      let bad := lineFault (lanes.headD 0) lanes.tail x.ctl.hold.isSome
      (r.2 = true → exec (.lineDelivery d c) s = .next (fetchTrap s1 d c 0x0E 0 (BitVec.ofNat 64 f.line) f.line none false)) ∧
      (r.2 = false → bad ≠ 0 → exec (.lineDelivery d c) s =
        .next (fetchTrap s1 d c 0x01 bad (BitVec.ofNat 64 (lanes.headD 0)) f.line none false)) ∧
      (r.2 = false → bad = 0 → ∃ t l, exec (.lineDelivery d c) s = .next t ∧ (t.core d c).ctl.line = some l ∧ l.addr = f.line ∧
        l.words = lanes ∧ l.lane = f.lane ∧ l.rep = f.rep ∧ ((∀ a b n, f.dec ≠ .kept a b n) → l.dec = f.dec) ∧
        l.rank = f.rank.getD x.ctl.rank ∧ (t.core d c).ctl.refetch = none ∧ (t.core d c).q = x.q ∧ (t.core d c).regs = x.regs))

/-- A line with a reserved tag, header bits, a zero header, an orphaned word, a loose prefix or two transfers is illegal.
The SUB of an illegal line: 1 for a tag of 8 or more, 2 for header bits [30:28], 3 for a header of zeros, 4 for a
first lane that is a continuation word, 5 for a lane 7 that holds a prefix (lanes before it empty), 6 for two control-
transfer lanes (the others empty), 7 for an engine lane on a line of a handler (the others empty). A meet header
alone, 0x8000_0000, is legal and delivers nothing. Rules: R23, R24, R25, R26, R27, R28, R29, R259. -/
def Obligations.IllegalLines : Prop :=
  ∀ (h : Nat) (ws : List Nat) (held : Bool), ws.length = 7 → h < 2 ^ 32 →
    ((∃ i, 1 ≤ i ∧ i ≤ 7 ∧ 8 ≤ tagAt h i) → lineFault h ws held = 1) ∧
    ((∀ i, 1 ≤ i → i ≤ 7 → tagAt h i < 8) →
      (h / 2 ^ 28 % 8 ≠ 0 → lineFault h ws held = 2) ∧
      (h = 0 → lineFault h ws held = 3) ∧
      (h / 2 ^ 28 % 8 = 0 → h ≠ 0 →
        (tagAt h 1 = 6 → (∀ i, 2 ≤ i → i ≤ 7 → tagAt h i = 0) → lineFault h ws held = 4) ∧
        (tagAt h 7 = 7 → (∀ i, 1 ≤ i → i ≤ 6 → tagAt h i = 0) → lineFault h ws held = 5) ∧
        (∀ i j, 1 ≤ i → i < j → j ≤ 7 → twoTransfers h ws i j → lineFault h ws held = 6) ∧
        (∀ i, 1 ≤ i → i ≤ 7 → 2 ≤ tagAt h i → tagAt h i ≤ 5 → (∀ k, 1 ≤ k → k ≤ 7 → k ≠ i → tagAt h k = 0) →
          lineFault h ws true = 7))) ∧
    lineFault 0x80000000 ws held = 0 ∧ lineGroups 0x80000000 ws 1 none [] [] = some []

/-- A freeze keeps the work under way; results and dumped results land at their cycle; pending faults and the watchdog
trap. FREEZE of a running core whose stop is due: frozen, its results, loads and atomics kept with their remaining
cycles (a load's data taken, 0 cycles left), V results too, their rows that are not due and the status they set given
back; registers and queues as they were, captured repetitions forgotten, spout rings empty. RESULT_READY writes a
result whose latency has elapsed and the register stops being pending (one pending at a hold keeps its bit).
DUMPED_RESULT_WRITE writes a dumped scalar or V result of a core that is not frozen whose cycles have elapsed.
TRAP_ENTRY takes the first pending fault unless a stop is due or the context is frozen. NO_PROGRESS_WATCHDOG at 2^24
cycles traps 0x13 at the stalled group delivered first, with its word, and the count starts again. Otherwise nothing
changes. Rules: R99, R108, R260, R262, R263, R270, R271, R384. -/
def Obligations.FreezeKeepsAndResultsLand : Prop :=
  ∀ (s : State) (d c : Nat), s.hasCore d c = true →
    let x := s.core d c
    let due := x.ctl.run = .running ∧ x.ctl.hold = none ∧ ∃ r ∈ x.ctl.stops, r.wait = 0
    (due → x.ctl.frozen = false → ∃ t, exec (.freeze d c) s = .next t ∧
      let y := t.core d c
      let anew := fun (q : QEntry) => { q with rep := 0, acc := [] }
      y.ctl = { x.ctl with frozen := true } ∧ y.regs = x.regs ∧ y.loops = x.loops ∧
      y.q = ⟨x.q.v, x.q.m.map anew, x.q.y.map anew, x.q.f.map anew⟩ ∧
      y.fl.dumped = dumpedBy s d c ∧ y.fl.results = [] ∧ y.fl.loads = [] ∧ y.fl.amos = [] ∧ y.fl.vres = [] ∧
      y.fl.vdumped = x.fl.vdumped ++ (x.fl.vres.filter VRes.late).map (fun v => ⟨v.dst, v.num, v.tile, v.kvstat, v.rows⟩) ∧
      ((∀ v ∈ x.fl.vres, v.late = false) → y.tiles = x.tiles ∧ y.k = x.k) ∧
      (∀ v, x.fl.vres = [v] → v.late = true → v.num = none → v.dst < x.tiles.length → v.rows.length = 16 → v.tile.cells.length = 1024 →
        v.old.cells.length = 1024 → y.k.kvstat = x.k.kvstat &&& ~~~ BitVec.ofNat 64 v.kvstat ∧
        ∃ w, y.tiles = x.tiles.set v.dst w ∧ ∀ i j, i < 16 → j < 64 →
          w.cells[64 * i + j]? = (if v.rows[i]? = some 0 then v.tile else v.old).cells[64 * i + j]?) ∧
      (∀ b ∈ y.strm, ∀ z, b = some z → z.kind = .spout → z.ring = []) ∧ SameMemory s t) ∧
    (¬ due ∨ x.ctl.frozen = true → exec (.freeze d c) s = .next s) ∧
    (∀ r e rest, x.regs.length = 64 → 0 < r → r < 64 → takeFirst (fun (e : SRes) => e.reg == r && e.cycles == 0) x.fl.results = some (e, rest) →
      ∃ t, exec (.resultReady d c r) s = .next t ∧ (t.core d c).val r = e.val ∧ (t.core d c).poisoned r = e.poison ∧
        (t.core d c).fl.results = rest ∧ ((t.core d c).reg r).pend = x.heldPending r ∧ ∀ q, q ≠ r → (t.core d c).reg q = x.reg q) ∧
    (∀ r, (∀ e ∈ x.fl.results, ¬ (e.reg = r ∧ e.cycles = 0)) → exec (.resultReady d c r) s = .next s) ∧
    (x.ctl.frozen = true → ∀ n, exec (.dumpedResultWrite d c n) s = .next s) ∧
    (x.ctl.frozen = false →
      (∀ (n : Nat) (e : SRes), x.fl.dumped[n]? = some e → (e.cycles ≠ 0 → exec (.dumpedResultWrite d c n) s = .next s) ∧
        (e.cycles = 0 → x.regs.length = 64 → 0 < e.reg → e.reg < 64 → ∃ t, exec (.dumpedResultWrite d c n) s = .next t ∧
          (t.core d c).val e.reg = e.val ∧ (t.core d c).poisoned e.reg = e.poison ∧ (t.core d c).fl.dumped = x.fl.dumped.eraseIdx n ∧
          ∀ q, q ≠ e.reg → (t.core d c).reg q = x.reg q)) ∧
      (∀ (m : Nat) (v : VRec), x.fl.vdumped[m]? = some v → v.rows.all (· == 0) = true → v.num = none → v.dst < x.tiles.length →
        ∃ t, exec (.dumpedResultWrite d c (x.fl.dumped.length + m)) s = .next t ∧ (t.core d c).tiles = x.tiles.set v.dst v.tile ∧
          (t.core d c).fl.vdumped = x.fl.vdumped.eraseIdx m ∧
          (t.core d c).k.kvstat = x.k.kvstat ||| BitVec.ofNat 64 (v.kvstat % 16) ∧ (t.core d c).regs = x.regs)) ∧
    (∀ f rest, x.ctl.faults = f :: rest → x.ctl.run = .running → ¬ due → (x.ctl.frozen = false ∨ x.ctl.hold ≠ none) →
      exec (.trapEntry d c) s = .next (s.takeTrap d c f)) ∧
    (x.ctl.faults = [] ∨ due ∨ (x.ctl.frozen = true ∧ x.ctl.hold = none) → exec (.trapEntry d c) s = .next s) ∧
    (x.ctl.run = .running → x.ctl.frozen = false → x.ctl.hold = none → ¬ due → 2 ^ 24 ≤ x.ctl.noProg →
      ∀ p ∈ x.stalledSlots, (∀ q ∈ x.stalledSlots, p.rank ≤ q.rank) → (∀ q ∈ x.stalledSlots, q.rank = p.rank → q = p) →
        exec (.noProgressWatchdog d c) s = .next ((s.updCore d c fun y => { y with ctl := { y.ctl with noProg := 0 } }).takeTrap d c
          ⟨p.rank, 0x13, 0, BitVec.ofNat 64 p.grp.word, p.addr, p.grp.lane,
            if p.grp.engine = .c ∨ p.grp.engine = .v then p.rep * 2 ^ 24 else 0, none, false, p.grp.engine == .c⟩)) ∧
    (x.ctl.noProg < 2 ^ 24 → exec (.noProgressWatchdog d c) s = .next s)

/-- A pre-emption or a debug stop freezes the core, saves the context to KSAVE with its REASON and frees the core. Due at
a core that runs and holds no context: it first freezes; then, once the work of R270 has ended, a context whose
KSAVE.PAGE is in range is saved with REASON 1 (pre-emption) or 2 (debug stop) and the core is free; a debug stop also
raises HINT bit 1 with the core's number. A core without a context only becomes free; with KSAVE.PAGE out of range the
stop is given up and the core goes on. While a context is held, or the cycles have not passed, nothing changes, but
that a recall saves the held context once its work has ended and frees the core. Rules: R272, R275, R394, R400, R401,
R402, R403, R437. -/
def Obligations.StopsSaveAndFree : Prop :=
  ∀ (s : State) (d c : Nat), s.hasCore d c = true →
    let x := s.core d c
    let page := field x.x.ksave 11 0
    let row := fun (reason : Nat) => if reason = 1 then Instr.preemptionRequest d c else .debugStop d c
    (∀ reason ∈ [1, 2], StopNow x reason →
      (x.ctl.frozen = false → exec (row reason) s = .next (s.freezeCore d c)) ∧
      (x.ctl.frozen = true →
        (x.holds = false → ∃ t, exec (row reason) s = .next t ∧ t.core d c = s.emptied d c ∧ (t.core d c).holds = false ∧
          (t.core d c).ctl = Core.reset.ctl ∧ (t.core d c).q.all = [] ∧ (t.core d c).fl.cmds = []) ∧
        (x.holds = true → page < 16 ∨ 4096 < page + 6 → ∃ t, exec (row reason) s = .next t ∧ (t.core d c).holds = true ∧
          (t.core d c).ctl.stops = [] ∧ (t.core d c).ctl.frozen = false ∧
          ∀ p, (s.die d).preOp = some p → p.target = c → p.done = none → (t.die d).preOp = some { p with bad := true }) ∧
        (x.holds = true → 16 ≤ page → page + 6 ≤ 4096 →
          (s.quiesced d c = false → exec (row reason) s = .next s) ∧
          (s.quiesced d c = true → ∃ t, exec (row reason) s = .next t ∧
            (t.core d c).ctl = Core.reset.ctl ∧ (t.core d c).holds = false ∧ (t.core d c).q.all = [] ∧ (t.core d c).fl.cmds = [] ∧
            (reason = 2 → (t.die d).hreg.hint.getLsbD 1 = true ∧ (t.die d).hreg.stopCore = c) ∧
            (∀ p, (s.die d).preOp = some p → p.target = c → p.done = none →
              (t.die d).preOp = some { p with done := some (s.die d).kfrc }) ∧
            (reason = 1 → (∀ p, (s.die d).preOp = some p → p.op ≠ 2) →
              let s0 := (s.drainStores d c).releaseParked d c
              let s1 := s0.updCore d c fun _ => s0.beforeSave d c
              (t.die d).basin = (s1.saveBytes d c 1).foldl
                (fun m p => m.write 0 (65536 * field (s1.core d c).x.ksave 11 0 + p.1) p.2) (s1.die d).basin ∧
              (t.die d).held = (s1.core d c).heldEntry :: (s1.die d).held)))) ∧
      exec (row (3 - reason)) s = .next s) ∧
    ((∀ r ∈ x.ctl.stops, r.wait ≠ 0) → exec (.preemptionRequest d c) s = .next s ∧ exec (.debugStop d c) s = .next s) ∧
    (x.ctl.hold ≠ none → exec (.debugStop d c) s = .next s ∧
      (∀ p, (s.die d).preOp = some p → p.op ≠ 3 ∨ p.target ≠ c → exec (.preemptionRequest d c) s = .next s) ∧
      (∀ since, x.holds = true → x.ctl.stops = [⟨1, 0⟩] → 16 ≤ page → page + 6 ≤ 4096 →
        ∀ who, (s.die d).preOp = some ⟨who, 3, c, since, none, false⟩ →
        (s.quiesced d c = false → exec (.preemptionRequest d c) s = .next s) ∧
        (s.quiesced d c = true → ∃ t, exec (.preemptionRequest d c) s = .next t ∧
          (t.core d c).ctl = Core.reset.ctl ∧ (t.core d c).holds = false)))

/-- A copy granule reads, then writes, and moves its command on; spouts fetch the next tile and drains write theirs in
order. COPY_GRANULE of an engine that serves a command: for another tenant than the slot's owner that has one ready,
the command yields; a footprint in use, a retraining channel and an earlier released store to a written line wait; a
step whose units can be located, read and written is performed, reading the stores released to the command, and the
command goes on to its next step or repetition or ends with status 0 and frees the engine; a failure fails it and
undoes the step; flush, once the released stores are performed, and inv end after one check, with what R180 does to
the granules. A unit from one basin place to another leaves its bytes there, marks the destination where the source is
marked, and leaves other bytes. SPOUT_PREFETCH waits for a footprint in use and a retraining channel, else adds the
next tile of the oldest binding that wants one, element by element, with its failures; DRAIN_WRITE writes the lowest
tile of the oldest filled drain, once all its rows are there, and drops it, or keeps the failure. Rules: R180, R183,
R184, R188, R189, R191, R193, R197, R198, R199, R201, R411. -/
def Obligations.CopiesAndStreamsMoveData : Prop :=
  (∀ (s : State) (d e c : Nat) (k : Cmd) (a : CmdArg), s.served d e = some (c, k) → s.hasCore d c = true → k.args[k.rep]? = some a →
    let x := s.core d c
    let cmd := fun (u : State) => (u.core d c).cmd? .tly k.num
    let moved := fun (u : State) (extra : List Nat) =>
      (k.mpc + 1 < a.steps → cmd u = some { k with mpc := k.mpc + 1, extra := extra } ∧ u.engineCur d e = s.engineCur d e) ∧
      (a.steps ≤ k.mpc + 1 → k.rep + 1 < k.reps → cmd u = some { k with mpc := 0, rep := k.rep + 1, extra := [] }) ∧
      (a.steps ≤ k.mpc + 1 → k.reps ≤ k.rep + 1 → cmd u = some { k with st := .finished 0 } ∧ u.engineCur d e = none)
    let failed := fun (err : EngErr) => ∃ u, exec (.copyGranule d e) s = .next u ∧ SameMemory s u ∧ u.engineCur d e = none ∧
      cmd u = some { k with st := .failed err.status, tval := err.tval, xsyn := err.xsyn }
    (s.yields d e c = true → ∃ u, exec (.copyGranule d e) s = .next u ∧ SameMemory s u ∧ u.engineCur d e = none ∧
      cmd u = some { k with st := .yielded }) ∧
    (s.yields d e c = false →
      (x.basinFree k.rank a.prints = false → exec (.copyGranule d e) s = .next s) ∧
      (x.basinFree k.rank a.prints = true →
        ((∀ t p q, a.instr ≠ .flush t p q ∧ a.instr ≠ .inv t p q) →
          let v := s.released d k.rel
          (∀ err, v.stepMoves d x k a k.mpc = .error err → failed err) ∧
          ∀ ms extra, v.stepMoves d x k a k.mpc = .ok (ms, extra) →
            let waits := (∃ m ∈ ms, ∃ p ∈ m.src ++ m.dst, s.pieceBusy d p = true) ∨ ∃ m ∈ ms, ∃ p ∈ m.dst, s.pieceBehind d k.rel p = true
            (waits → exec (.copyGranule d e) s = .next s) ∧
            (¬ waits →
              (∀ err, s.perform v (32 + e) d x (Machine.hintOf a.instr) ms = .error err → failed err) ∧
              ∀ t, s.perform v (32 + e) d x (Machine.hintOf a.instr) ms = .ok t →
                ∃ u, exec (.copyGranule d e) s = .next u ∧ SameMemory t u ∧ moved u extra)) ∧
        (∀ t p q va n, a.instr = .flush t p q ∨ a.instr = .inv t p q → a.scal = [va, n] →
          let isFlush := decide (a.instr = .flush t p q)
          (isFlush = true → s.stillOut d k.rel ≠ [] → exec (.copyGranule d e) s = .next s) ∧
          (isFlush = false ∨ s.stillOut d k.rel = [] →
            (∀ err, s.maintain d x isFlush va n = .error err → failed err) ∧
            ∀ m, s.maintain d x isFlush va n = .ok m → ∃ u, exec (.copyGranule d e) s = .next u ∧ SameMemory m u ∧ moved u []))))) ∧
  (∀ (s v : State) (q d : Nat) (x : Core) (h : Hint) (c : List Byte) (a b n : Nat), s.hasDie d = true → 0 < n →
    let m := (s.die d).basin
    (v.die d).basin = m →
    (∀ l, assocGet m.keys l = 0) → m.anyBad b n = false →
    ∃ t, s.perform v q d x h [⟨[⟨.basin a, n⟩], c, [⟨.basin b, n⟩]⟩] = .ok t ∧
      (m.anyBad a n = false → (∀ i, i < n → (t.die d).basin.byte 0 (b + i) = m.byte 0 (a + i)) ∧
        (∀ q, q < b ∨ b + n ≤ q → (t.die d).basin.byte 0 q = m.byte 0 q)) ∧
      (m.anyBad a n = true → ∀ i, i < n → (t.die d).basin.bad ((b + i) / 64) = true)) ∧
  (∀ (s : State) (d c v : Nat) (older newer : List Binding) (b : Binding), s.hasCore d c = true →
    let x := s.core d c
    let others := fun (u : State) => ∀ q ∈ older ++ newer, q.num ≠ b.num → q ∈ (u.core d c).boundInOrder v
    x.boundInOrder v = older ++ b :: newer →
    (∀ k, b.kind = .spout → (x.behind v b).nextFetch = some k → (∀ q ∈ older, q.kind = .spout → (x.behind v q).nextFetch = none) →
      x.ctl.frozen = false → x.ctl.run = .running →
      let w := s.released d b.rel
      let waits := x.basinFree b.rank (b.pat.print false) = false ∨ ∃ p ∈ s.tilePieces d x b.pat k, s.pieceBusy d p = true
      (waits → exec (.spoutPrefetch d c v) s = .next s) ∧
      (¬ waits → ∃ t r, exec (.spoutPrefetch d c v) s = .next t ∧ SameMemory s t ∧ others t ∧
        { b with ring := b.ring ++ [r] } ∈ (t.core d c).boundInOrder v ∧ r.num = k ∧ r.tile.tag = b.pat.tag ∧
        ∀ e, e < 1024 → (∀ a, w.readElem d x b.pat e (1024 * k + e) = .ok a → r.tile.cells[e]? = some a) ∧
          (∀ f, w.readElem d x b.pat e (1024 * k + e) = .error f → f ∈ r.fails ∧ r.tile.cells[e]? = some 0))) ∧
    (∀ r ∈ b.ring, b.kind = .drain → b.failed = none → (∀ q ∈ b.ring, q ≠ r → r.num < q.num) →
      (∀ q ∈ older, q.kind = .drain → q.ring = []) →
      (x.basinFree b.rank (b.pat.print true) = false ∨ x.ringLate b r.num = true → exec (.drainWrite d c v) s = .next s) ∧
      (x.basinFree b.rank (b.pat.print true) = true → x.ringLate b r.num = false →
        let kept := fun (err : EngErr) => ∃ t f, exec (.drainWrite d c v) s = .next t ∧ SameMemory s t ∧ others t ∧
          { b with failed := some f } ∈ (t.core d c).boundInOrder v ∧ f.cause = err.status ∧ f.addr = err.tval.toNat
        (∀ err, s.tileMoves d x b.pat r.num r.tile = .error err → kept err) ∧
        ∀ ms, s.tileMoves d x b.pat r.num r.tile = .ok ms →
          ((∃ m ∈ ms, ∃ p ∈ m.dst, s.pieceBehind d b.rel p = true) → exec (.drainWrite d c v) s = .next s) ∧
          ((∀ m ∈ ms, ∀ p ∈ m.dst, s.pieceBehind d b.rel p = false) →
            (∀ err, s.perform s c d x b.hint ms = .error err → kept err) ∧
            ∀ t, s.perform s c d x b.hint ms = .ok t → ∃ u, exec (.drainWrite d c v) s = .next u ∧ SameMemory t u ∧ others u ∧
              ∃ g ∈ (u.core d c).boundInOrder v, g.num = b.num ∧ g.written = b.written + 1 ∧ r ∉ g.ring ∧
                ∀ q ∈ b.ring, q ≠ r → q ∈ g.ring))))

/-- A cascade allocates, frees and clears banks, loads weights, multiplies rows into held banks and drains them. For the
one command that waits at a cascade without a pass, none waiting for the fabric: acal of free banks below 64 within
BANKS holds and clears them, else reports 0x20 and changes nothing; acfr frees the named held banks, aczr zeroes them,
and KMSTAT bit 1 tells of one not held; mmw loads the back buffer with tag, N, tenant, the weights as read and its
duplication map's valid entries, or fails with the status of its first failure; a one-row mma exchanges the buffers if
it says so and adds to each column of a held bank the products of the front buffer in blocks of 32, an unusable buffer
adding +0 (KMSTAT bit 2), a bank not held staying (bit 1); acdr writes the drained elements, poisoned where their bank
is not held (bit 0), to a tile or a drain's ring; a poisoned tile for a drain parks it with status 8. Rounding is that
of R95's accRow. Rules: R95, R217, R218, R220, R222, R226, R227, R228, R229, R230, R231, R232. -/
def Obligations.CascadesServeDirectCommands : Prop :=
  (∀ (s : State) (d cas c : Nat) (k : Cmd) (a : CmdArg), ServesOnly s d cas c k a →
    let x := s.core d c
    let y := s.casc d cas
    let held := fun (b : Nat) => ∃ g ∈ y.banks, g.idx = b ∧ g.tenant = x.ctx.tenant ∧ (g.slot = x.k.kslot.toNat ∨ g.mask.getLsbD c = true)
    let mstat := fun (t : State) (n : Nat) => (t.core d c).k.kmstat = x.k.kmstat ||| BitVec.ofNat 64 n
    (∀ p q tok r m, a.instr = .acal p q tok → a.scal = [r, m] →
      let open' := ∀ b, field r 14 8 ≤ b → b < field r 14 8 + field r 23 16 → b < 64 ∧ ∀ g ∈ y.banks, g.idx ≠ b
      let room := s.banksHeld d x + field r 23 16 ≤ s.bankLimit x
      (open' → room → ServedWith s d cas c k 0 fun z =>
        (∀ b, field r 14 8 ≤ b → b < field r 14 8 + field r 23 16 →
          (⟨b, x.k.kslot.toNat, x.ctx.tenant, BitVec.ofNat 32 m.toNat⟩ : Bank) ∈ z.banks ∧ ∀ i, i < 16 → z.row b i = List.replicate 512 0) ∧
        (∀ g ∈ y.banks, g ∈ z.banks) ∧ ∀ b i, b < field r 14 8 ∨ field r 14 8 + field r 23 16 ≤ b → i < 16 → z.row b i = y.row b i) ∧
      (¬ (open' ∧ room) → ServedWith s d cas c k 0x20 fun z => z = y)) ∧
    (∀ p tok r, let named := fun (b : Nat) => field r 14 8 ≤ b ∧ b < field r 14 8 + field r 23 16
      ∀ missing, ((∀ b, named b → held b) → missing = 0) → (¬ (∀ b, named b → held b) → missing = 2) →
      (a.instr = .acfr p tok → a.scal = [r] → (∃ t, exec (.cascadeServe d cas) s = .next t ∧ mstat t missing) ∧
        ServedWith s d cas c k 0 fun z => ∀ g, g ∈ z.banks ↔ g ∈ y.banks ∧ ¬ (named g.idx ∧ held g.idx)) ∧
      (a.instr = .aczr p tok → a.scal = [r] → (∃ t, exec (.cascadeServe d cas) s = .next t ∧ mstat t missing) ∧
        ServedWith s d cas c k 0 fun z => z.banks = y.banks ∧
          ∀ b i, i < 16 → (named b → held b → z.row b i = List.replicate 512 0) ∧ (¬ (named b ∧ held b) → z.row b i = y.row b i))) ∧
    (∀ tok h dup rec p, a.instr = .mmw tok h cas dup rec → a.pats = [p] →
      let v := s.released d k.rel
      let map : Run := ⟨(p.base : Int) - 256, 256⟩
      let runs := (List.range p.e1).flatMap p.rowRuns ++ if dup then [map] else []
      (∀ err, s.readable v d x runs = .error err → ∃ t, exec (.cascadeServe d cas) s = .next t ∧
        t.casc d cas = y ∧ ((t.core d c).cmd? .tlm k.num).map (·.st) = some (.failed err.status)) ∧
      (∀ ps, s.readable v d x runs = .ok ps → ServedWith s d cas c k 0 fun z =>
        z.back.tag = p.tag ∧ z.back.n = p.e0 ∧ z.back.tenant = x.ctx.tenant ∧ z.back.rows = v.weightRows d x p ∧ (dup = false → z.back.dup = []) ∧
          (dup = true → ∀ dst src, (dst, src) ∈ z.back.dup ↔ ∃ i, i < 64 ∧ ∃ e, e = leAt (v.runBytes d x map) (4 * i) 4 ∧ e.testBit 31 = true ∧
            e / 2 ^ 27 % 16 = 0 ∧ e / 2 ^ 11 % 32 = 0 ∧ e / 2 ^ 16 % 2 ^ 11 = dst ∧ e % 2 ^ 11 = src ∧
            dst < classK ((tagClass p.tag).getD 16) ∧ src < classK ((tagClass p.tag).getD 16)) ∧
          z.front = y.front ∧ z.banks = y.banks ∧ z.cells = y.cells)) ∧
    (∀ v tok h sw rec p tile, a.instr = .mma v tok h cas sw rec → a.pats = [p] → a.tile = some tile → p.e1 = 1 → p.e2 ≤ 512 → 1 ≤ p.e2 →
      let front := if sw then y.back else y.front
      let ftz := k.kmode.getLsbD 4
      let bk := a.book p.tag
      let row := (tile.acts v.dir (a.book tile.tag) ftz).take p.e0
      let bank := (p.e3 - 1) / 16
      let usable := front.tag ≠ 0 ∧ front.tag = p.tag ∧ front.tenant = x.ctx.tenant
      let old := y.row bank ((p.e3 - 1) % 16)
      old.length = 512 →
      (held bank → ServedWith s d cas c k 0 fun z => ∀ j, j < p.e2 →
        (z.row bank ((p.e3 - 1) % 16))[j]? = (old[j]?).map fun o => BitVec.ofNat 32
          (if usable then (accRow ftz o.toNat (products front bk ftz p.st1.toNat j (applyDup front.dup p.st1.toNat row))).1 else (accStep ftz (o.toNat, 0) []).1)) ∧
      (¬ held bank → ServedWith s d cas c k 0 fun z => z.cells = y.cells) ∧
      (sw = true → ServedWith s d cas c k 0 fun z => z.front = y.back ∧ z.back = y.front) ∧
      (sw = false → ServedWith s d cas c k 0 fun z => z.front = y.front ∧ z.back = y.back) ∧
      ∃ t, exec (.cascadeServe d cas) s = .next t ∧ ∀ st, (usable ∧ held bank → st = 0) → (usable ∧ ¬ held bank → st = 2) → (¬ usable ∧ held bank → st = 4) →
        (¬ usable ∧ ¬ held bank → st = 6) → mstat t st) ∧
    (∀ v tok h rec p, a.instr = .acdr v tok h cas rec → a.pats = [p] →
      let at' := fun (i : Nat) => (p.e3 - 1 + i) / 16
      let whole := ∀ i, i < 16 → i < p.e1 → held (at' i)
      let drained := fun (tile : Tile) => tile.tag = 0x01 ∧ ∀ i j, i < 16 → j < 64 →
          (¬ (i < p.e1 ∧ j < p.e0) → (tile.elems .r)[64 * i + j]? = some (0, false)) ∧
          (i < p.e1 → j < p.e0 → held (at' i) → (tile.elems .r)[64 * i + j]? =
            some (((y.row (at' i) ((p.e3 - 1 + i) % 16))[p.e2 - 1 + j]?).getD 0, false)) ∧
          (i < p.e1 → j < p.e0 → ¬ held (at' i) → (tile.elems .r)[64 * i + j]? = some (0, true))
      x.mWriteWaits k.rank [v] = false → 1 ≤ p.e0 →
      (a.strm = none → v < 48 → x.tiles.length = 64 → ServedWith s d cas c k 0 fun z => z = y) ∧
      (a.strm = none → v < 48 → x.tiles.length = 64 → ∃ t tile, exec (.cascadeServe d cas) s = .next t ∧
        (whole → mstat t 0) ∧ (¬ whole → mstat t 1) ∧ (t.core d c).tiles[v]? = some tile ∧ drained tile) ∧
      (∀ q n b, a.strm = some (q, n) → x.drainFull v k.rank = false → x.bindingAt v k.rank = some b →
        ∃ t, exec (.cascadeServe d cas) s = .next t ∧ t.casc d cas = y ∧
          (whole → mstat t 0 ∧ ((t.core d c).cmd? .tlm k.num).map (·.st) = some (.finished 0) ∧ ∃ g tile, (t.core d c).bindingAt v k.rank = some g ∧
            g.ring = b.ring ++ [⟨n, tile, []⟩] ∧ drained tile) ∧
          (¬ whole → mstat t 1 ∧ ((t.core d c).cmd? .tlm k.num).map (fun q => (q.st, q.mpc)) = some (.failed 8, k.mpc)))))

/-- Deadlines ready a head, a due pass is committed, its rows enter, are finished and scattered, and forwarded rows
travel. TASK_DEADLINE makes the head of a group ready once its deadline is past. PASS_COMMIT, nothing due on a lower
cascade, commits the one waiting task as a pass with its rows at the lowest free positions, and does nothing where no
pass is due. A pass loads its weights, unless they are held still, and its bias, empties the weight buffers and sets
its positions to +0; its next row then adds its products in blocks of 32 to its position. EPILOGUE_ROW runs load,
scale, bias and act, then converts and finishes the row, drops it below the first row that scatters, and parks it with
status 0x0C where replay runs out of noise; a forwarded task's end is reported to its source. ROW_SCATTER and
PARKED_ROW_RESCATTER write a row's bytes for its owner, or park it with status 0x0B; rows held back wait, also for a
store released to the task, and a row that need not wait goes before others. TFWD_ROWS_AT_PEER enters a task in a
table with room; TFWD_ROWS_RETURN scatters the rows and ends the command, or reports the task's end or failure. Rules:
R234, R288, R289, R290, R291, R292, R293, R294, R295, R297. -/
def Obligations.ConfluenceRuns : Prop :=
  (∀ (s : State) (d n : Nat) (t h : Task), s.hasDie d = true → (s.die d).tasks[n]? = some t → h ∈ (s.die d).heads → h.seq = t.seq →
    (t.dead ≤ (s.die d).seqr.cyc → ∃ u, exec (.taskDeadline d n) s = .next u ∧
      (u.die d).tasks = (s.die d).tasks.set n { t with ready := true }) ∧
    ((s.die d).seqr.cyc < t.dead → ∃ u, exec (.taskDeadline d n) s = .next u ∧ u.die d = s.die d)) ∧
  (∀ (s : State) (d k : Nat), (∃ j, j < k ∧ (s.die d).passFor j ≠ none) ∨ (s.die d).passFor k = none →
    exec (.passCommit d k) s = .next s) ∧
  (∀ (s : State) (d k : Nat) (t : Task) (e : DirEntry), s.hasDie d = true → PassDue (s.die d) k t e →
    ∃ u, exec (.passCommit d k) s = .next u ∧
      (u.casc d k).pass = some ⟨t.seq, t.wid, e.k, e.n, t.hash, e.sigma, [], false⟩ ∧
      (u.casc d k).rows = (List.range t.m).map fun r => ⟨t.seq, r, r, .waiting, t.seq, t.tenant, true, [], false, none⟩) ∧
  (∀ (s : State) (d k : Nat) (p : Pass), s.hasDie d = true → k < (s.die d).cascs.length → (s.casc d k).pass = some p →
    (∀ c, ∀ q ∈ (s.core d c).fl.cmds, q.wantsFabric = false) →
    (∀ e w bias, p.loaded = false → (s.die d).advertised p.wid = some e →
      s.loadWeights d e ((s.casc d k).holdsWid p.wid) (p.hash.testBit 1) = .ok (w, bias) → ∃ u, exec (.cascadeServe d k) s = .next u ∧
        (u.casc d k).pass = some { p with loaded := true, bias := bias } ∧ (u.casc d k).front = .empty ∧ (u.casc d k).back = .empty ∧
        (u.casc d k).conf = (match w with | some b => some (p.wid, b) | none => (s.casc d k).conf) ∧
        ∀ r ∈ (s.casc d k).rows, r.pass = p.id → (u.casc d k).sums p.n r.pos = List.replicate p.n 0) ∧
    (∀ r t n w, p.loaded = true → (s.casc d k).rows.find? (fun r => r.pass == p.id && r.st == .waiting) = some r →
      s.taskNum d r.task = some t → (s.casc d k).conf = some (n, w) → w.dup = [] →
      let row := ((t.tile.acts t.dir ⟨false, false, []⟩ t.ftz).drop (r.rho * p.k)).take p.k
      ∃ u, exec (.cascadeServe d k) s = .next u ∧
        (p.n ≤ 1024 → (∀ l ∈ (s.casc d k).cells, l.2.length = 512) → ∀ j o, ((s.casc d k).sums p.n r.pos)[j]? = some o →
          ((u.casc d k).sums p.n r.pos)[j]? = some (BitVec.ofNat 32 (accRow t.ftz o.toNat (products w ⟨false, false, []⟩ t.ftz 0 j row)).1)) ∧
        (u.casc d k).rows = (s.casc d k).rows.map fun q => if q.task = r.task ∧ q.rho = r.rho then { q with st := .entered } else q)) ∧
  (∀ (s : State) (d k : Nat) (p : Pass) (r : PassRow) (t : Task) (c : Cmd), s.hasDie d = true → k < (s.die d).cascs.length →
    (s.casc d k).pass = some p → lowest ((s.casc d k).rows.filter fun q => q.st == .entered) = some r → r.acted = false →
    s.taskNum d r.task = some t →
    let cols := ((s.casc d k).sums p.n r.pos).mapIdx fun j a => epilogueCol p t.ftz j a
    let s1 := s.ownerStat t (cols.foldl (fun n x => n ||| x.2) 0)
    let acted := cols.map fun x => BitVec.ofNat 32 x.1
    let ptr := (s.core t.die t.core).k.knlogp
    (r.rho < t.first → ∃ u, exec (.epilogueRow d k) s = .next u ∧ RowGone u d k r) ∧
    (t.first ≤ r.rho →
      (∀ w, s1.draw t.die t.core (wordsFor t.mode true acted.length) = some w → ∃ u, exec (.epilogueRow d k) s = .next u ∧
        (u.casc d k).rows = (s.casc d k).rows.map fun q => if q.task = r.task ∧ q.rho = r.rho then
          { r with acc := acted, acted := true, st := .finished,
                   out := some (convertRow t.otag t.mode (acted.map fun a => (a.toNat, 0)) w.1).1 } else q) ∧
      (s1.draw t.die t.core (wordsFor t.mode true acted.length) = none →
        (t.tag ≠ 254 → taskCmd s t = some c → c.st = .running →
          ∃ u, exec (.epilogueRow d k) s = .next u ∧ RowParked u d k r t c ⟨0x0C, ptr, 0⟩) ∧
        (t.tag = 254 → ∃ u, exec (.epilogueRow d k) s = .next u ∧ RowGone u d k r ∧
          ∃ f ∈ u.flits, f.req = t.req 254 [] ∧ f.res = some (.ended 0x0C ptr))))) ∧
  (∀ (s : State) (d k : Nat) (r : PassRow) (t : Task) (bs : List Byte) (c : Cmd), RowAt s d k r t .finished → r.out = some bs → t.tag ≠ 254 →
    (s.heldBack d k r = true ∨ s.rowBehind t r.rho bs.length = true → exec (.rowScatter d k) s = .next s) ∧
    (s.heldBack d k r = false → s.rowBehind t r.rho bs.length = false → TaskCmd s t c → c.st = .running →
      Scatters (.rowScatter d k) s d k t r bs c)) ∧
  (∀ (s : State) (d k : Nat),
    let waits := fun (t : Task) => ∃ q ∈ (s.casc d k).rows, q.pool = false ∧ q.head ≠ t.tenant ∧ q.isParked = false
    let behind := fun (q : PassRow) => q.st = .again → ∀ u, s.taskNum d q.task = some u → waits u
    ((∀ q ∈ (s.casc d k).rows, behind q) → exec (.parkedRowRescatter d k) s = .next s) ∧
    (∀ pre r post t bs c, s.hasDie d = true → k < (s.die d).cascs.length → (s.casc d k).rows = pre ++ r :: post → (∀ q ∈ pre, behind q) →
      r.st = .again → s.taskNum d r.task = some t → ¬ waits t →
      (r.out = some bs → s.rowBehind t r.rho bs.length = true → exec (.parkedRowRescatter d k) s = .next s) ∧
      (r.out = some bs → s.rowBehind t r.rho bs.length = false → TaskCmd s t c → c.st = .running →
        Scatters (.parkedRowRescatter d k) s d k t r bs c) ∧
      (r.out = none → s.rowBehind t r.rho (4 * r.acc.length) = false → s.draw t.die t.core (wordsFor t.mode true r.acc.length) = none →
        t.tag ≠ 254 → r.acted = true → taskCmd s t = some c → c.st = .running → ∃ u, exec (.parkedRowRescatter d k) s = .next u ∧
          RowParked u d k r t c ⟨0x0C, (s.core t.die t.core).k.knlogp, 0⟩))) ∧
  (∀ (s : State) (d n : Nat) (f : Flit) (t : Task), s.hasDie d = true → s.flits[n]? = some f → f.res = none → f.req.op = .rows t →
    f.pos = d → f.dst = d →
    ((s.die d).waitingTasks.length < 1024 → ∃ u, exec (.tfwdRowsAtPeer d n) s = .next u ∧ u.flits = s.flits.eraseIdx n ∧
      let y := s.die d
      ({ t with arr := y.seqr.cyc, dead := y.seqr.cyc + t.dead, seq := y.taskNo, pass := none } : Task) ∈ (u.die d).tasks ∧
      (∀ q ∈ y.tasks, q ∈ (u.die d).tasks) ∧ (u.die d).tasks.length = y.tasks.length + 1) ∧
    (1024 ≤ (s.die d).waitingTasks.length → exec (.tfwdRowsAtPeer d n) s = .next s)) ∧
  (∀ (s : State) (d n : Nat) (f : Flit) (t : Task) (c : Cmd), s.flits[n]? = some f → f.req.op = .rows t → f.pos = d → f.dst = d →
    TaskCmd s t c →
    let s1 := { s with flits := s.flits.eraseIdx n }
    (∀ st tval, f.res = some (.ended st tval) → (st < 0x20 → ∃ u, exec (.tfwdRowsReturn d n) s = .next u ∧
        (taskCmd u t).map (fun k => (k.st, k.tval)) = some (.failed st, tval)) ∧
      (0x20 ≤ st → ∃ u, exec (.tfwdRowsReturn d n) s = .next u ∧ (taskCmd u t).map (·.st) = some (.finished st))) ∧
    (∀ rho bs, f.res = some (.finished [(rho, bs)]) → s.rowBehind t rho bs.length = false →
      (∀ v, s1.scatterAt t rho bs = .ok v → ∃ u, exec (.tfwdRowsReturn d n) s = .next u ∧ (taskCmd u t).map (·.st) = some (.finished 0)) ∧
      (∀ e, s1.scatterAt t rho bs = .error e → ∃ u, exec (.tfwdRowsReturn d n) s = .next u ∧ taskCmd u t = some (c.fail e))))

/-- The split unit halves counters, releases slots, begins a multiply, sends fired rows to their halves and ends it; a
rill adds a row. The unit takes the one waiting command: `spage` halves the held slot's counters or fails with status
2 and KTVAL the slot; `splr.rel` releases a held slot and otherwise does nothing; `spmv` on a held slot of its tag
begins a multiply of the rows whose activation exceeds the threshold in magnitude, comparisons with NaN false. A
multiply at work counts its next fired row, saturating at 65535, and sends it to the hot list if it holds a hot slot,
else to the rill that PA bits 17:12 name; with both halves there it ends: the hot half kept, MC counted, the command
finished. RILL_ROW_MULTIPLY adds a queued row times its activation to the rill's partial, each column rounded once
with `rne`; CASCADE_SERVE's hot pass multiplies the fired hot rows in one row and empties the weight buffers. Rules:
R319, R320, R322, R323, R324, R325, R326, R327. -/
def Obligations.SplitProductsRun : Prop :=
  (∀ (s : State) (d c : Nat) (k : Cmd) (a : CmdArg), TakesOnly s d c k a →
    (∀ p tok n, a.instr = .spage p tok → a.scal = [n] →
      ((s.die d).splitOf (s.core d c) n.toNat = none → ∃ u, exec (.splitUnitServe d) s = .next u ∧
        splitSt u d c k.num = some (.failed 2) ∧ ((u.core d c).cmd? .tln k.num).map (fun q => (q.tval, q.xsyn)) = some (BitVec.ofNat 64 n.toNat, 0x200)) ∧
      (∀ t, (s.die d).splitOf (s.core d c) n.toNat = some t → ∃ u, exec (.splitUnitServe d) s = .next u ∧
        (u.die d).split n.toNat = some { t with counts := t.counts.map (· / 2) } ∧ splitSt u d c k.num = some (.finished 0))) ∧
    (∀ tok h rec n, a.instr = .splr tok h true rec → a.scal = [n] →
      ((s.die d).splitOf (s.core d c) n.toNat ≠ none → ∃ u, exec (.splitUnitServe d) s = .next u ∧ (u.die d).split n.toNat = none ∧
        splitSt u d c k.num = some (.finished 0)) ∧
      ((s.die d).splitOf (s.core d c) n.toNat = none → ∃ u, exec (.splitUnitServe d) s = .next u ∧
        (u.die d).splits = (s.die d).splits ∧ splitSt u d c k.num = some (.finished 0))) ∧
    (∀ v tok h cas rec p t, a.instr = .spmv v tok h cas rec → a.pats = [p] →
      (s.die d).splitOf (s.core d c) a.splitSlot = some t → t.tag = p.tag →
      (∀ w ∈ (s.die d).swork, ¬ (w.kslot = (s.core d c).k.kslot.toNat ∧ w.num = k.num)) →
      ∃ u w, exec (.splitUnitServe d) s = .next u ∧ splitSt u d c k.num = some .running ∧ (u.die d).swork = (s.die d).swork ++ [w] ∧
        w.slot = t.id ∧ w.cas = cas ∧ w.hot = [] ∧ w.cold = [] ∧ w.half = none ∧ w.parts = List.replicate 64 (List.replicate t.n 0) ∧
        let ftz := k.kmode.getLsbD 4
        let th := fmtFp32.value ftz (a.word 0)
        ∀ r, r ∈ w.left ↔ r < a.word 2 ∧ r < t.k ∧ (a.xAt ftz r).1.isNan = false ∧ th.isNan = false ∧
          (a.xAt ftz r).1.abs.cmp th = Ordering.gt)) ∧
  (∀ (s : State) (d : Nat) (w : SplitWork) (k : Cmd) (t : Split), Works s d w k t →
    let x := s.core d w.core
    let n := rowBytes t.tag t.n
    (∀ r rest, w.left = r :: rest →
      let count : Split := { t with counts := t.counts.modify r fun c => min (c + 1) 65535 }
      (∀ i, t.slotOf r = some i → s.markedOff d (.basin (x.basinAddr (t.hotOff i))) n = none →
        ∃ u, exec (.splitUnitServe d) s = .next u ∧ (u.die d).split t.id = some count ∧
          { w with left := rest, hot := w.hot ++ [r] } ∈ (u.die d).swork) ∧
      (∀ pa, t.slotOf r = none → s.masterPa d x (t.rowVa r) = .ok pa → (s.released d k.rel).markedOff d (.mem pa 0) n = none →
        ∃ u, exec (.splitUnitServe d) s = .next u ∧ (u.die d).split t.id = some count ∧
          { w with left := rest, cold := w.cold ++ [r], queue := w.queue ++ [(pa / 4096 % 64, r, pa)] } ∈ (u.die d).swork)) ∧
    (∀ h, w.left = [] → w.half = some h → w.queue = [] → k.rep + 1 = k.args.length → ∃ u, exec (.splitUnitServe d) s = .next u ∧
      splitSt u d w.core k.num = some (.finished 0) ∧ ∃ v p, (u.die d).split t.id = some v ∧ v.mc = t.mc + 1 ∧ v.prod = some p ∧
        p.hot = h ∧ p.ver = t.ver ∧ p.nh = w.hot.length ∧ p.nc = w.cold.length ∧
        v.counts = (if 0 < t.a ∧ (t.mc + 1) % t.a = 0 then t.counts.map (· / 2) else t.counts)) ∧
    (∀ r row pa a part, w.queue.find? (fun q => q.1 == r) = some (r, row, pa) → k.args[k.rep]? = some a → w.parts[r]? = some part →
      let ftz := k.kmode.getLsbD 4
      let v := rowOfBytes t.tag t.n ((s.released d k.rel).readPa d (s.keyOf d x.ctx.tenant) pa n).1
      ∃ u z, exec (.rillRowMultiply d r) s = .next u ∧ z ∈ (u.die d).swork ∧ z.is w = true ∧
        z.queue = w.queue.eraseIdx (w.queue.findIdx fun q => q.1 == r) ∧ (∀ i, i ≠ r → z.parts[i]? = w.parts[i]?) ∧
        ∃ q, z.parts[r]? = some q ∧ q.length = part.length ∧ ∀ j o, part[j]? = some o → q[j]? = some (BitVec.ofNat 32 (stage32 ftz 0
          ((fmtFp32.value ftz o.toNat).add false ((a.xAt ftz row).1.mul (v.value t.tag ftz j)).1)).1))) ∧
  (∀ (s : State) (d cas : Nat) (w : SplitWork) (k : Cmd) (t : Split) (a : CmdArg), s.hasDie d = true → cas < (s.die d).cascs.length →
    (s.casc d cas).pass = none → s.hotWaiting d cas = some (w, k, t) → s.cascadeCores d cas = [] → (s.casc d cas).heldHot t = none →
    k.args[k.rep]? = some a → (∀ c, ∀ q ∈ (s.core d c).fl.cmds, q.wantsFabric = false) →
    let ftz := k.kmode.getLsbD 4
    let hot := fun (r : Nat) => rowOfBytes t.tag t.n (s.hotRow d (s.core d w.core) t ((t.slotOf r).getD 0))
    (∀ r ∈ w.hot, t.slotOf r ≠ none) →
    ∃ u z h, exec (.cascadeServe d cas) s = .next u ∧ z ∈ (u.die d).swork ∧ z.is w = true ∧ z.half = some h ∧ h.length = t.n ∧
      (∀ j, j < t.n → h[j]? = some (BitVec.ofNat 32 (accRow ftz 0 (w.hot.map fun r => ((a.xAt ftz r).1, (hot r).value t.tag ftz j))).1)) ∧
      (u.casc d cas).front = .empty ∧ (u.casc d cas).back = .empty ∧ (u.casc d cas).conf = none)

/-- Flits hop, detour, are lost or sent again; requests are performed once at their homes and their answers end the
commands. An ORD flit without a detour takes the first dimension that differs, x before y before z, in its minimal
direction, + when f = n - f; it waits while that link trains, goes round the other way where the link is down, else
over the next dimension, and is lost, its command failing with status 0x0A, where those links are all down. A flit
that fails its CRC stays and counts an error, and errors above the limit start a training. At its intermediate die its
second leg begins. A request at its home, nothing of its core to come first, is performed once: reads, stores, atomics
and tickets answer, and a request of a tag answered before receives that answer with nothing performed; behind an
earlier ORD request, or for a store released to its command, it waits; a failure is not kept. A value is kept for the
claimed register as the command ends, a failure parks the command, a late answer is only acknowledged; the
acknowledgement drops the kept answer. Rules: R102, R335, R336, R337, R338, R339, R340, R344, R346, R347, R352. -/
def Obligations.RemoteAccessesTravel : Prop :=
  (∀ (s : State) (n : Nat) (f : Flit), s.flits[n]? = some f →
    (f.pos = f.dst → f.mid = none → exec (.flitHop n) s = .next s) ∧
    (∀ m, f.mid = some m → f.pos = m →
      exec (.flitHop n) s = .next { s with flits := s.flits.set n { f with mid := none, turns := [], plan := [] } })) ∧
  (∀ (s : State) (n : Nat) (f : Flit) (i : Nat) (up : Bool), Heads s n f i up →
    let st := fun (dim : Nat) (v : Bool) => (s.port f.pos (portOf dim v)).state
    let p := portOf i up
    (st i up = linkUp → ∃ u, exec (.flitHop n) s = .next u ∧ FlitAt u n f (s.beside f.pos i up) ∧
      ((s.port f.pos p).flits + 1 < 2 ^ 20 → (u.port f.pos p).flits = (s.port f.pos p).flits + 1 ∧ (u.port f.pos p).errs = (s.port f.pos p).errs) ∧
      ((s.port f.pos p).flits + 1 = 2 ^ 20 → (u.port f.pos p).flits = 0 ∧ (u.port f.pos p).errs = 0)) ∧
    (st i up = linkTraining → exec (.flitHop n) s = .next s) ∧
    (st i up = linkDown → st i (!up) = linkUp → ∃ u, exec (.flitHop n) s = .next u ∧ FlitAt u n f (s.beside f.pos i (!up))) ∧
    (st i up = linkDown → st i (!up) = linkTraining → exec (.flitHop n) s = .next s) ∧
    (st i up = linkDown → st i (!up) = linkDown → st ((i + 1) % 3) true = linkUp →
      (s.port (s.beside f.pos ((i + 1) % 3) true) p).state = linkUp → ∃ u, exec (.flitHop n) s = .next u ∧
        FlitAt u n f (s.beside f.pos ((i + 1) % 3) true)) ∧
    (st i up = linkDown → st i (!up) = linkDown → (∀ v, st ((i + 1) % 3) v = linkDown) → ∀ k,
      (s.core f.req.die f.req.core).cmd? f.req.tl f.req.num = some k → ∃ u, exec (.flitHop n) s = .next u ∧
        u.flits = s.flits.eraseIdx n ∧
        ((u.core f.req.die f.req.core).cmd? f.req.tl f.req.num).map (·.st) = some (.failed 0x0A)) ∧
    (st i up = linkUp → ∃ u, exec (.flitCrcRetry n) s = .next u ∧ u.flits = s.flits ∧
      ((s.port f.pos p).errs + 1 ≤ (s.port f.pos p).crclim → u.port f.pos p = { s.port f.pos p with errs := (s.port f.pos p).errs + 1 }) ∧
      ((s.port f.pos p).crclim < (s.port f.pos p).errs + 1 → s.neverUp f.pos p = false → (u.port f.pos p).state = linkTraining))) ∧
  (∀ (s : State) (n : Nat) (f g : Flit), s.flits[n]? = some f → g ∈ s.flits → f.pos = f.dst → f.mid = none → f.res = none →
    g.res = none → g.req.cls = .ord → f.req.cls = .ord → g.req.tl = .tlf → f.req.tl = .tlf → g.req.die = f.req.die →
    g.req.core = f.req.core → g.dst = f.dst → g.req.seq < f.req.seq → exec (.remoteRequestPerform n) s = .next s) ∧
  (∀ (s : State) (n : Nat) (f : Flit), AtItsHome s n f →
    let h := f.dst
    let x := s.srcCore f.req
    (∀ q r, (s.die h).kept.find? (fun p => p.1.sameTag f.req) = some (q, r) → ∃ u via, exec (.remoteRequestPerform n) s = .next u ∧
      u.flits = s.flits.eraseIdx n ++ [⟨f.req, some r, h, f.req.die, via, [], []⟩] ∧ u.dies = s.dies) ∧
    let rel := fun (t : State) => t.released f.req.die f.req.rel
    let dir := f.req.tl == .tlf
    ((∀ p ∈ (s.die h).kept, p.1.sameTag f.req = false) → s.reqBehind h f.req = true → exec (.remoteRequestPerform n) s = .next s) ∧
    ((∀ p ∈ (s.die h).kept, p.1.sameTag f.req = false) → s.reqBehind h f.req = false →
      (∀ rs l, f.req.op = .load rs → allOk (rs.map (s.homeRead (rel s) h x dir)) = .ok l → Answered s n f (.data l) s) ∧
      (∀ rs e, f.req.op = .load rs → allOk (rs.map (s.homeRead (rel s) h x dir)) = .error e →
        Answered s n f (.failed e.status e.tval e.xsyn) s) ∧
      (∀ us bulk t, f.req.op = .store us bulk → (bulk = false ∨ (s.die h).incast = []) → s.homeStore h x us = .ok t →
        Answered s n f .done t) ∧
      (∀ us bulk e, f.req.op = .store us bulk → (bulk = false ∨ (s.die h).incast = []) → s.homeStore h x us = .error e →
        Answered s n f (.failed e.status e.tval e.xsyn) s) ∧
      (∀ op va w b r t, f.req.op = .atomic op va w b →
        s.homeAtomic h x rel (s.reqScope f.req) va w (fun old => some (atomicNew op (8 * w) old (b.toNat % 2 ^ (8 * w)))) = .ok (r, t) →
        Answered s n f r t) ∧
      (∀ va w b cmp r t, f.req.op = .cas va w b cmp → s.homeAtomic h x rel (s.reqScope f.req) va w
        (fun old => if old = cmp.toNat % 2 ^ (8 * w) then some (b.toNat % 2 ^ (8 * w)) else none) = .ok (r, t) → Answered s n f r t) ∧
      (∀ va g, f.req.op = .tkget va → s.regionOf h x va = .ok g →
        ((s.die h).entry? g = none → (s.die h).incast.length < 256 → Answered s n f (.value 0 false) s) ∧
        ((s.die h).entry? g = none → 256 ≤ (s.die h).incast.length → Answered s n f (.refused 0x21) s) ∧
        (∀ e, (s.die h).entry? g = some e → Answered s n f (.value (BitVec.ofNat 64 e.next) false) s)) ∧
      (∀ va t g, f.req.op = .tkwait va t → s.regionOf h x va = .ok g →
        ((s.die h).ticketCalled g t = true → Answered s n f .done s) ∧
        ((s.die h).ticketCalled g t = false → exec (.remoteRequestPerform n) s = .next s)))) ∧
  (∀ (s : State) (n : Nat) (f : Flit) (r : RRes) (k : Cmd) (a : CmdArg), AtItsSource s n f r k a →
    let now := fun (u : State) => (u.core f.req.die f.req.core).cmd? f.req.tl f.req.num
    (∀ v bad b, r = .value v bad → resultReg a.instr = some b → ∃ u, exec (.remoteResponse n) s = .next u ∧
      u.acks = s.acks ++ [(f.req.home, f.req)] ∧
      now u = some { k with wb := k.wb ++ [(b, v, bad)], extra := [], st := .finished 0 }) ∧
    (r = .done → ∃ u, exec (.remoteResponse n) s = .next u ∧ u.acks = s.acks ++ [(f.req.home, f.req)] ∧
      now u = some { k with extra := [], st := .finished 0 }) ∧
    (∀ st v xs, r = .failed st v xs → ∃ u, exec (.remoteResponse n) s = .next u ∧
      ((∀ t p q cl rc, a.instr ≠ .rget t p q cl rc) → u.acks = s.acks ++ [(f.req.home, f.req)]) ∧
      now u = some (k.fail ⟨st, v, xs⟩))) ∧
  (∀ (s : State) (n : Nat) (f : Flit) (r : RRes), s.flits[n]? = some f → f.pos = f.dst → f.mid = none → f.res = some r →
    (∀ t, f.req.op ≠ .rows t) → (s.core f.req.die f.req.core).cmd? f.req.tl f.req.num = none →
    exec (.remoteResponse n) s = .next { s with flits := s.flits.eraseIdx n, acks := s.acks ++ [(f.req.home, f.req)] }) ∧
  (∀ (s : State) (n h : Nat) (q : Req), s.acks[n]? = some (h, q) → s.hasDie h = true → ∃ u, exec (.responseAcknowledgement n) s = .next u ∧
    u.acks = s.acks.eraseIdx n ∧ (u.die h).kept = (s.die h).kept.filter fun p => !p.1.sameTag q)

/-- Links train, retrain and report their eyes; the HBM controller scrubs, closes rows, repairs lanes and clears its
counts. A training round with fewer than half the nominal lanes in common takes the link down with interrupt 5 at both
ends; agreement on a map of good lanes and on a rate brings it up so; else it tries again at the lowest common
configuration, three times at most; a lane that an eye event has named is not used. A retraining request starts a
training unless one runs. An eye event names its lane, raises interrupt 4 and retrains an up link where EYERT is set.
KSKEW reads the neighbour's counter less this die's, one tick either way. A scrub visit rewrites a correctable line,
marks an uncorrectable one and goes to the next line; nothing happens with HSCRUB.EN 0. A row closes by its hint. HREP
takes a spare and retrains, or sets NOSPARE, or is ignored above lane 2111. Rules: R352, R353, R407, R410, R411, R412,
R414, R415, R416, R418, R438. -/
def Obligations.LinksAndStacksAreTended : Prop :=
  (∀ (s : State) (d p : Nat) (o : LinkOffer), (s.port d p).state = linkTraining → s.neverUp d p = false →
    let l := s.port d p
    let n := s.nominalLanes d p
    let shared := (o.goodHere.eraseDups.filter fun i => o.goodThere.contains i).length
    let far := s.farEnd d p
    let good := fun (i : Nat) => i ∈ o.goodHere ∧ i ∈ o.goodThere ∧ i ∉ l.worn ∧ i ∉ (s.port far.1 far.2).worn
    let fails := s.hasDie far.1 = true → ∃ u, exec (.linkTrainingRound d p o) s = .next u ∧ (u.port d p).state = linkDown ∧ Raised u d 5 ∧ Raised u far.1 5
    let agree := fun (c : List Nat × Nat) =>
      (∀ q, l.common = some q → c = q ∧ (∀ i ∈ q.1, good i) ∧ q.2 ≤ o.rateHere ∧ q.2 ≤ o.rateThere) ∧
      (l.common = none → c = (o.mapHere, o.rateHere) ∧ o.mapHere = o.mapThere ∧ o.rateHere = o.rateThere ∧ (∀ i ∈ o.mapHere, good i) ∧
        o.mapHere.Nodup ∧ o.mapHere.length ≤ n ∧ n ≤ 2 * o.mapHere.length)
    (2 * shared < n → fails) ∧
    (n ≤ 2 * shared →
      (∀ c, agree c → ∃ u, exec (.linkTrainingRound d p o) s = .next u ∧ (u.port d p).state = linkUp ∧ (u.port d p).rate = c.2 % 4 ∧
        (u.port d p).map = c.1 ∧ (u.port d p).lanes = c.1.length % 256) ∧
      ((∀ c, ¬ agree c) → l.tries < 3 → ∃ u m, exec (.linkTrainingRound d p o) s = .next u ∧
        (u.port d p).state = linkTraining ∧ (u.port d p).tries = l.tries + 1 ∧ (u.port d p).common = some (m, min o.rateHere o.rateThere) ∧
        m.length ≤ n ∧ ∀ i ∈ m, good i) ∧
      ((∀ c, ¬ agree c) → 3 ≤ l.tries → fails))) ∧
  (∀ (s : State) (d p : Nat) (o : LinkOffer), (s.port d p).state ≠ linkTraining → exec (.linkTrainingRound d p o) s = .next s) ∧
  (∀ (s : State) (d p : Nat), s.hasDie d = true → p < (s.die d).links.length →
    ((s.port d p).state = linkTraining → exec (.linkRetrainRequest d p) s = .next s) ∧
    ((s.port d p).state ≠ linkTraining → s.neverUp d p = false → ∃ u, exec (.linkRetrainRequest d p) s = .next u ∧
      (u.port d p).state = linkTraining ∧ (u.port d p).tries = 0) ∧
    (∀ lane, lane < 128 → ∃ u, exec (.linkEyeEvent d p lane) s = .next u ∧ (u.port d p).elane = lane ∧ Raised u d 4 ∧
      lane ∈ (u.port d p).worn ∧
      ((s.port d p).eyert = true → (s.port d p).state = linkUp → s.neverUp d p = false → (u.port d p).state = linkTraining) ∧
      ((s.port d p).eyert = false ∨ (s.port d p).state ≠ linkUp → (u.port d p).state = (s.port d p).state)) ∧
    ((s.port d p).state = linkUp → p < (s.die d).trace.skew.length → ∃ u e, exec (.skewMeasure d p) s = .next u ∧ -1 ≤ e ∧ e ≤ 1 ∧
      (u.die d).trace.skew[p]? = some (BitVec.ofInt 64 ((s.die (s.farEnd d p).1).kfrc - (s.die d).kfrc + e))) ∧
    ((s.port d p).state ≠ linkUp → exec (.skewMeasure d p) s = .next s)) ∧
  (∀ (s : State) (d : Nat), s.hasDie d = true →
    let h := (s.die d).hbm
    let st := (s.die d).stack
    (h.enab = false → exec (.scrubVisit d) s = .next s) ∧
    (h.enab = true → ∃ u, exec (.scrubVisit d) s = .next u ∧ (u.die d).hbm.scrub = (h.scrub + 1) % stackLines ∧
      (h.scrub ∈ st.marks ∨ assocGet st.errs h.scrub = 0 → (u.die d).stack = st) ∧
      (h.scrub ∉ st.marks → 1 ≤ assocGet st.errs h.scrub → assocGet st.errs h.scrub ≤ 4 →
        assocGet (u.die d).stack.errs h.scrub = 0 ∧ (u.die d).stack.bytes = st.bytes ∧ (u.die d).stack.marks = st.marks) ∧
      (h.scrub ∉ st.marks → 4 < assocGet st.errs h.scrub → h.scrub ∈ (u.die d).stack.marks ∧ (u.die d).hbm.ue = h.ue + 1 ∧
        (u.die d).hbm.elaLine = h.scrub ∧ (u.die d).hbm.elaVal = true)) ∧
    (∀ n r, h.rows[n]? = some r →
      (r.hint = .stream ∨ (r.hint = .plain ∧ 64 ≤ r.idle) → ∃ u, exec (.rowClose d n) s = .next u ∧ (u.die d).hbm.rows = h.rows.eraseIdx n) ∧
      (r.hint = .reuse ∨ (r.hint = .plain ∧ r.idle < 64) → exec (.rowClose d n) s = .next s)) ∧
    (∀ lane, lane ≤ 2111 → ∃ u, exec (.hbmEyeEvent d lane) s = .next u ∧ (u.die d).hbm = { h with lane := lane, evt := true } ∧ Raised u d 3) ∧
    (∀ v : W64, ∃ u, exec (.laneRepair d v) s = .next u ∧ let lane := field v 17 6
      (v.getLsbD 0 = false ∨ 2111 < lane → (u.die d).hbm = h) ∧
      (v.getLsbD 0 = true → lane ≤ 2111 → (lane % 33 = 32 ∨ lane / 33 ∈ h.spares) → (u.die d).hbm = { h with nospare := true }) ∧
      (v.getLsbD 0 = true → lane ≤ 2111 → lane % 33 ≠ 32 → lane / 33 ∉ h.spares →
        (u.die d).hbm = { h with spares := lane / 33 :: h.spares, training := lane / 33 :: h.training })) ∧
    (∀ pc, ∃ u, exec (.spareLaneRetrainDone d pc) s = .next u ∧ ∀ i, i ∈ (u.die d).hbm.training ↔ i ∈ h.training ∧ i ≠ pc) ∧
    (∃ u, exec (.errorCountsRead d) s = .next u ∧ (u.die d).hbm = { h with ce := 0, ue := 0 }))

/-- Boundaries bring slots, boards and profiles in; heat, telemetry, host accesses, register writes and the debug port act
as stated. A slot or frame boundary that is due moves the counts on, empties the weight buffers of a cascade whose
slot's owner changes, and waits for a pass under way there; a frame brings the board and the profile in force. PROF
waits for its frame; a throttle lowers the cascade island from P0 or P1 with interrupt 6 and a recovery undoes it;
telemetry counts its updates. The host writes windows, which the device sees, and stacks and its own memory, within
their ranges, which the device sees once it takes them in; HINT, HINTEN and HSCRUB take writes by their access kinds,
and an offset without a writable register ignores them. A debug access outside the mask or debug-open is a check, the
third a mate. Rules: R180, R218, R392, R393, R415, R425, R427, R436, R437, R441, R442, R443. -/
def Obligations.BoardPowerAndPortsAct : Prop :=
  (∀ (s : State) (d : Nat), s.hasDie d = true →
    let y := s.die d
    let n := y.seqr.slots + 1
    let z : Die := { y with seqr := { y.seqr with slots := n } }
    (n % 16 = 0 ∨ y.seqr.cyc < 256 * n → exec (.slotBoundary d) s = .next s) ∧
    (n % 16 ≠ 0 → 256 * n ≤ y.seqr.cyc → Crosses y z → ∃ u, exec (.slotBoundary d) s = .next u ∧ Crossed y z (u.die d)) ∧
    (n % 16 ≠ 0 → 256 * n ≤ y.seqr.cyc → ¬ Crosses y z → exec (.slotBoundary d) s = .next s)) ∧
  (∀ (s : State) (d : Nat), s.hasDie d = true →
    let y := s.die d
    let n := y.seqr.frames + 1
    (y.seqr.cyc < 4096 * n ∨ y.seqr.slots + 1 < 16 * n → exec (.frameBoundary d) s = .next s) ∧
    (4096 * n ≤ y.seqr.cyc → 16 * n ≤ y.seqr.slots + 1 →
      let z : Die := y.newFrame (4096 * n)
      (Crosses y z → ∃ u, exec (.frameBoundary d) s = .next u ∧ Crossed y z (u.die d) ∧ (u.die d).seqr.frames = n ∧
        (u.die d).seqr.slots = 16 * n ∧ (u.die d).seqr.board = y.boardAt (4096 * n) ∧
        (∀ w cap mode, y.power.coming = [(w, cap, mode)] → frameAfter w ≤ 4096 * n →
          (u.die d).power.patcap = cap ∧ (u.die d).power.mode = mode ∧ (u.die d).power.core = (if mode = 3 then 2 else 0) ∧
            (u.die d).power.casc = min 2 ((if mode = 3 then 2 else 0) + y.power.low)) ∧
        (y.power.coming = [] → (u.die d).power.patcap = y.power.patcap ∧ (u.die d).power.mode = y.power.mode)) ∧
      (¬ Crosses y z → exec (.frameBoundary d) s = .next s))) ∧
  (∀ (s : State) (d : Nat), s.hasDie d = true →
    let w := (s.die d).power
    (∀ v : W64, ∃ u, exec (.profileWrite d v) s = .next u ∧
      (u.die d).power = { w with coming := w.coming ++ [((s.die d).seqr.cyc, field v 31 16, field v 1 0)] }) ∧
    (w.mode ≠ 3 → w.low < 2 → ∃ u, exec (.thermalThrottle d) s = .next u ∧ (u.die d).power = { w with low := w.low + 1 } ∧ Raised u d 6) ∧
    (w.mode = 3 ∨ 2 ≤ w.low → exec (.thermalThrottle d) s = .next s) ∧
    (∃ u, exec (.thermalRecovery d) s = .next u ∧ (u.die d).power = { w with low := 0 }) ∧
    (∀ a b c, a < 65536 → b < 65536 → c < 65536 → ∃ u, exec (.telemetryUpdate d a b c) s = .next u ∧
      (u.die d).power = { w with power := a, current := b, tj := c, seq := (w.seq + 1) % 65536 }) ∧
    (∀ v : W64, ∃ u, exec (.registerWrite d 0x008 v) s = .next u ∧ ∀ i, i < 64 →
      (u.die d).hreg.hint.getLsbD i = ((s.die d).hreg.hint.getLsbD i && !(decide (i < 7) && v.getLsbD i))) ∧
    (∀ v : W64, ∃ u, exec (.registerWrite d 0x010 v) s = .next u ∧ (u.die d).hreg.hinten = v &&& 0x7F) ∧
    (∀ v : W64, ∃ u, exec (.registerWrite d 0x100 v) s = .next u ∧ (u.die d).hbm.period = field v 47 16 ∧ (u.die d).hbm.enab = v.getLsbD 0) ∧
    (∀ off v, off ∉ [0x008, 0x010, 0x020, 0x028, 0x030, 0x038, 0x040, 0x048, 0x060, 0x070, 0x100, 0x118, 0x120] →
      exec (.registerWrite d off v) s = .next s) ∧
    (∀ off len, ∃ u, exec (.hostCxlAccess (.windowRead d off len)) s = .next u ∧ SameMemory s u) ∧
    (∀ off bs, Clean (s.die d).basin →
      (off + bs.length ≤ 2 ^ 20 → ∃ u, exec (.hostCxlAccess (.windowWrite d off bs)) s = .next u ∧ (u.die d).basin.read 0 off bs.length = bs) ∧
      (2 ^ 20 < off + bs.length → exec (.hostCxlAccess (.windowWrite d off bs)) s = .next s)) ∧
    (∀ off bs,
      (off + bs.length ≤ 2 ^ 36 → s.channelBusy d off bs.length = false → ∃ u, exec (.hostCxlAccess (.stackWrite d off bs)) s = .next u ∧
        SameMemory s u ∧ ∀ m, (u.die d).hview.read m off bs.length = bs) ∧
      (2 ^ 36 < off + bs.length ∨ s.channelBusy d off bs.length = true → exec (.hostCxlAccess (.stackWrite d off bs)) s = .next s))) ∧
  (∀ (s : State) (p a : Nat) (bs : List Byte), p < s.pkgs.length → (s.pkg p).host.wf = true → a + bs.length ≤ 2 ^ 48 →
    ∃ u, exec (.hostCxlAccess (.hostWrite p a bs)) s = .next u ∧ SameMemory s u ∧ (∀ m, (u.pkg p).hview.read m a bs.length = bs) ∧
      ∀ d pa, pkgOf d = p → paPlace d pa = .host a → ((u.takeFresh d pa bs.length).pkg p).host.getN a bs.length = bs) ∧
  (∀ (s : State) (d c : Nat) (acc : DebugAccess), s.hasCore d c = true → portDie acc = d →
    let e := s.sec (pkgOf d)
    let ok := e.life = 3 ∧ e.mask.testBit (portBit acc) = true
    (∀ k, acc = .readK d c k → ok → exec (.debugPortAccess acc) s = .next s) ∧
    (acc = .requestStop d c → ok → (s.core d c).ctl.run = .running → (s.core d c).ctl.stops = [] →
      ∃ u, exec (.debugPortAccess acc) s = .next u ∧ (u.core d c).ctl.stops = [⟨2, 32⟩]) ∧
    (¬ ok → pkgOf d < s.pkgs.length → 8 * pkgOf d < s.dies.length →
      (e.ports < 2 → ∃ u, exec (.debugPortAccess acc) s = .next u ∧ (u.sec (pkgOf d)).ports = e.ports + 1 ∧ Checked s u (pkgOf d) 5) ∧
      (2 ≤ e.ports → ∃ u, exec (.debugPortAccess acc) s = .next u ∧ WasReset u (pkgOf d) ∧ (u.sec (pkgOf d)).mates = min 255 (e.mates + 1))))

/-- A launch is rejected, taken, placed on cores and ended as the queue, the deficit, the free cores and its contexts say.
While a check has frozen the package nothing is taken. A host packet that fails its checks is counted as taken, with
its reason and number in ERR. With nothing to reject and one entry whose tenant is served, its deficit as it stands,
or whose turn comes, its deficit grown by 32 of its weight, the entry is taken where the deficit covers its cores: a
new record of the next number, its cores off the deficit; a deficit too small ends the turn. A waiting one-core unit
goes to the lowest free core of the lowest quad with one, on the lowest free slot and pages, and runs at A from its
entry. A launch all of whose cores have ended ends, its networks gone, its parent told. Rules: R204, R210, R369, R372,
R373, R375, R376, R377, R380, R426. -/
def Obligations.LaunchesRun : Prop :=
  (∀ (s : State) (p : Nat), (s.pkg p).sec.frz = true → exec (.launchTake p) s = .next s) ∧
  (∀ (s : State) (p q e : Nat) (rest : List (Nat × Nat)), (s.pkg p).sec.frz = false → (s.findHeads p).rejects = (q, e) :: rest → e < 256 →
    q < 4096 → s.hasDie (queueDie p q) = true → Clean (s.die (queueDie p q)).basin → s.queueField p q 8 8 + 1 < 2 ^ 64 →
    ∃ u, exec (.launchTake p) s = .next u ∧ u.queueField p q 8 8 = s.queueField p q 8 8 + 1 ∧
      u.queueField p q 32 8 = e * 2 ^ 56 + s.queueField p q 8 8 % 2 ^ 56 ∧ u.recs = s.recs) ∧
  (∀ (s : State) (p : Nat) (e : Entry), (s.pkg p).sec.frz = false → p < s.pkgs.length → (s.findHeads p).rejects = [] → (s.findPool p).leaves = [] →
    (s.findPool p).entries ++ (s.findHeads p).entries = [e] →
    let a := (s.pkg p).arb
    let taken := fun (deficit : Nat) => ∃ u r, exec (.launchTake p) s = .next u ∧ u.recs = s.recs ++ [r] ∧ r.pkg = p ∧ r.num = a.recNo + 1 ∧
      r.packet = e.packet ∧ r.tenant = e.tenant ∧ r.rootPkg = e.rootPkg ∧ r.root = e.root ∧ r.ended = false ∧ r.gone = 0 ∧
      (u.pkg p).arb.recNo = a.recNo + 1 ∧ (u.pkg p).arb.serving = some (e.level, e.tenant) ∧
      (u.pkg p).arb.deficit e.tenant = deficit - pkCores e.packet
    let left := fun (deficit : Nat) => ∃ u, exec (.launchTake p) s = .next u ∧ u.recs = s.recs ∧ (u.pkg p).arb.serving = none ∧
      (u.pkg p).arb.deficit e.tenant = deficit
    let fresh := min (a.deficit e.tenant + 32 * s.weightOf p e.tenant) 65535
    (a.serving = some (e.level, e.tenant) →
      (pkCores e.packet ≤ a.deficit e.tenant → taken (a.deficit e.tenant)) ∧
      (a.deficit e.tenant < pkCores e.packet → left (a.deficit e.tenant))) ∧
    (a.serving = none → e.level ≤ 3 →
      (pkCores e.packet ≤ fresh → taken fresh) ∧ (fresh < pkCores e.packet → left fresh))) ∧
  (∀ (s : State) (d : Nat), (∀ r ∈ s.recs, r.waiting d = []) → exec (.unitPlacement d) s = .next s) ∧
  (∀ (s : State) (d q c slot base : Nat) (r : LaunchRec) (n : LUnit) (free : List Nat), s.hasDie d = true →
    s.recs.find? (fun r => !(r.waiting d).isEmpty) = some r → r.waiting d = [n] → leAt r.packet 8 1 = 1 → q < 8 →
    (∀ j, j < q → (s.die d).quadFree j r.part = []) → (s.die d).quadFree q r.part = c :: free → (s.die d).freeSlotNo = some slot →
    (s.die d).fitPages (leAt r.kernel 24 2) = some base →
    ∃ u, exec (.unitPlacement d) s = .next u ∧ let x := u.core d c
      x.ctl.run = .running ∧ x.ctl.level = levelA ∧ x.ctl.nextLine = leAt r.kernel 0 7 / 32 * 32 ∧ x.k.kslot = BitVec.ofNat 64 slot ∧
        x.k.klrec = BitVec.ofNat 64 r.num ∧ x.k.kbasin = BitVec.ofNat 64 (leAt r.kernel 24 2 * 2 ^ 32 + base) ∧ x.ctx.tenant = r.tenant ∧
        (leAt r.kernel 24 2 ≠ 0 → (⟨slot, base, leAt r.kernel 24 2⟩ : Allot) ∈ (u.die d).allots)) ∧
  (∀ (s : State) (n : Nat) (r : LaunchRec), s.recs[n]? = some r →
    (r.ended = true ∨ r.placed = false ∨ r.gone < leAt r.packet 8 1 * r.units.length → exec (.launchEnd n) s = .next s) ∧
    (r.ended = false → r.placed = true → leAt r.packet 8 1 * r.units.length ≤ r.gone → leAt r.packet 19 1 = 0 →
      ∃ u, exec (.launchEnd n) s = .next u ∧ (u.recs = s.recs.map fun v => if v.key = r.key then { v with ended := true } else v) ∧
        (∀ b ∈ u.nets, b.launch ≠ r.key) ∧
        (∀ l k m, r.parent = some (l, k, m) → ∀ w ∈ u.kids, w.launch = l → w.kpos = k → w.num = m → w.status = some r.status)))

/-- The security engine serves the first request by its life state, alarms check or mate, and a package resets and boots.
A request that is not first, or of another OP, leaves the engine as it is; one the life state does not serve completes
with status 1. EXTEND hashes into its register, READMR writes it out, TKEY and TKDEL install and zeroise keys or
answer 4, 3 or 2, NONCE draws a nonzero nonce, UNLOCK consumes it and answers 4, 5 or opens, QUOTE writes its record,
the signature with it, or answers 5. The drawn values are free (log 15). A source with a check limit checks and one
with a mate limit mates. A reset leaves no context and keeps the fuses and host memory; an accepted image counts in
MR1 and clears FRZ; the first die ready zeroes the package's memories. Rules: R172, R421, R422, R423, R424, R425,
R426, R427, R439. -/
def Obligations.SecurityEngineServes : Prop :=
  (∀ (s : State) (p : Nat) (op : Nat) (i : Instr), (op, i) ∈ [(1, .extend p), (2, .quote p), (3, .readmr p), (4, .tkey p), (5, .tkdel p), (6, .nonce p), (7, .unlock p)] →
    ((∀ q rest, (s.sec p).queue = q :: rest → q.op ≠ op) → exec i s = .next s) ∧
    (∀ q rest, (s.sec p).queue = q :: rest → q.op = op → lifeServes (s.sec p).life op = false → p < s.pkgs.length →
      s.hasCore q.die q.core = true → 0 < q.reg → q.reg < 64 → (s.core q.die q.core).regs.length = 64 →
      SecServed i s p q rest 1 false fun u => u.pkgs.length = s.pkgs.length)) ∧
  (∀ (s : State) (p : Nat) (q : SecReq) (rest : List SecReq) (n : Nat), SecFirst s p n q rest →
    let e := s.sec p
    let t := q.val.toNat
    let has := ∃ k ∈ e.tkeys, k.1 = t
    (n = 1 → q.arg < e.mrs.length → SecServed (.extend p) s p q rest 0 (s.secRead q 8).2 fun u =>
      (u.sec p).mr q.arg = extendMr (e.mr q.arg) (s.secRead q 8).1 ∧ ∀ i, i ≠ q.arg → (u.sec p).mr i = e.mr i) ∧
    (n = 3 → SecServed (.readmr p) s p q rest 0 false fun u => SameMemory (s.secWrite q 8 (digestBytes (e.mr q.arg))) u) ∧
    (n = 4 → t ≤ 0xFFFE →
      (s.tenantPresent p t = true → SecServed (.tkey p) s p q rest 4 false fun u => (u.sec p).tkeys = e.tkeys) ∧
      (s.tenantPresent p t = false → has → SecServed (.tkey p) s p q rest 3 false fun u => (u.sec p).tkeys = e.tkeys) ∧
      (s.tenantPresent p t = false → ¬ has → 256 ≤ e.tkeys.length → SecServed (.tkey p) s p q rest 2 false fun u => (u.sec p).tkeys = e.tkeys) ∧
      (s.tenantPresent p t = false → ¬ has → e.tkeys.length < 256 → SecServed (.tkey p) s p q rest 0 false fun u =>
        ∃ k, (u.sec p).tkeys = e.tkeys ++ [(t, k)])) ∧
    (n = 5 → (s.tenantPresent p t = true → SecServed (.tkdel p) s p q rest 4 false fun u => (u.sec p).tkeys = e.tkeys) ∧
      (s.tenantPresent p t = false → ¬ has → SecServed (.tkdel p) s p q rest 3 false fun u => (u.sec p).tkeys = e.tkeys) ∧
      (s.tenantPresent p t = false → has → SecServed (.tkdel p) s p q rest 0 false fun u =>
        (u.sec p).tkeys = e.tkeys.filter fun k => k.1 != t)) ∧
    (n = 6 → SecServed (.nonce p) s p q rest 0 false fun u => (u.sec p).nonce ≠ 0) ∧
    (n = 7 → let r := s.secRead q 64
      let keyed := ∃ k ∈ e.tkeys, s.tenantPresent p k.1 = true
      let bad := tokenBad e (Config.deviceId p) (Config.authorityHash p) e.nonce r.1
      (keyed → SecServed (.unlock p) s p q rest 4 r.2 fun u => (u.sec p).nonce = 0 ∧ (u.sec p).life = e.life) ∧
      (¬ keyed → if bad = true
        then SecServed (.unlock p) s p q rest 5 r.2 fun u => (u.sec p).nonce = 0 ∧ (u.sec p).life = e.life ∧ (u.sec p).tkeys = e.tkeys
        else SecServed (.unlock p) s p q rest 0 r.2 fun u => (u.sec p).nonce = 0 ∧ (u.sec p).tkeys = [] ∧
          (e.life = 2 → (u.sec p).life = 3) ∧ (u.sec p).mask = leAt r.1 32 8 % 16)) ∧
    (n = 2 → let r := s.secRead q 64
      (leAt r.1 34 2 ≠ 0 → SecServed (.quote p) s p q rest 5 r.2 fun u => SameMemory s u) ∧
      (leAt r.1 34 2 = 0 → Clean (s.die q.die).stack → (q.pas.map (·.1)).Nodup → (∀ a ∈ q.pas, a.1 % 64 = 0 ∧ a.1 < 2 ^ 36) →
        (s.core q.die q.core).x.kdirty.getLsbD 0 = false →
        let head := quoteHead e (Config.deviceId p) r.1
        let whole := head ++ s.quoteSignature p head
        let read := fun (u : State) (a n : Nat) => (u.readPa q.die (s.keyOf q.die q.tenant) a n).1
        SecServed (.quote p) s p q rest 0 r.2 fun u =>
          (∀ a, q.pas[0]? = some a → read u a.1 32 = head.take 32 ∧ read u (a.1 + 36) 28 = (head.drop 36).take 28) ∧
          ∀ i a, 2 ≤ i → i < 16 → q.pas[i]? = some a → read u a.1 64 = (whole.drop (64 * i)).take 64))) ∧
  (∀ (s : State) (p src : Nat), p < s.pkgs.length → (∀ m, m < 8 → s.hasDie (8 * p + m) = true) →
    (src ∈ [1, 2, 3, 5, 6] → ∃ u, exec (.checkAlarm p src) s = .next u ∧ Checked s u p src) ∧
    (src ∉ [1, 2, 3, 5, 6] → exec (.checkAlarm p src) s = .next s) ∧
    (src ∈ [1, 2, 3, 4, 5] → ∃ u, exec (.mateAlarm p src) s = .next u ∧ WasReset u p ∧ (u.sec p).mates = min 255 ((s.sec p).mates + 1)) ∧
    (src ∉ [1, 2, 3, 4, 5] → exec (.mateAlarm p src) s = .next s) ∧
    (∃ u, exec (.packageReset p) s = .next u ∧ WasReset u p ∧ (u.sec p).mates = (s.sec p).mates ∧ (u.pkg p).host = (s.pkg p).host ∧ (u.pkg p).hview = (s.pkg p).hview ∧
      (u.sec p).life = (if (s.sec p).life = 3 then 2 else (s.sec p).life))) ∧
  (∀ (s : State) (p : Nat) (v : W64), p < s.pkgs.length → (∀ m, m < 8 → s.hasDie (8 * p + m) = true) → 1 < (s.sec p).mrs.length →
    let image := (s.pkg p).hview.read (s.pkg p).host v.toNat (Config.imageLength v)
    (s.sec p).boot = 1 → ∃ u, exec (.bootImageLoad p v) s = .next u ∧ if Config.imageValid p image = true
      then (u.sec p).boot = 2 ∧ (u.sec p).frz = false ∧ (u.sec p).hboot = v ∧ (u.sec p).mr 1 = extendMr ((s.sec p).mr 1) (sha256 image)
      else (u.sec p).boot = 1 ∧ Checked s u p 6) ∧
  (∀ (s : State) (d : Nat), s.hasDie d = true → pkgOf d < s.pkgs.length →
    ((s.die d).hreg.ready = true ∨ (s.sec (pkgOf d)).boot < 2 → exec (.dieReady d) s = .next s) ∧
    ((s.die d).hreg.ready = false → (s.sec (pkgOf d)).boot = 2 → ∃ u, exec (.dieReady d) s = .next u ∧ (u.die d).hreg.ready = true ∧
      (∀ m, m < 8 → (u.die (8 * pkgOf d + m)).stack = .empty ∧ (u.die (8 * pkgOf d + m)).basin = .empty) ∧ (u.sec (pkgOf d)).boot = 3) ∧
    ((s.die d).hreg.ready = false → 3 ≤ (s.sec (pkgOf d)).boot → ∃ u, exec (.dieReady d) s = .next u ∧ (u.die d).hreg.ready = true ∧
      (u.die d).stack = (s.die d).stack))

/-- A step whose turn is an engine of a running core runs the instruction its next group decodes to; other turns act as
their kind says. When the turn is an engine of a present core whose context runs, with a group at its head (the next C
lane of the line, or the head of the queue), the state is aimed at the group: its die, core, line, lane, word, rank
and mode in focus. A prefixless group that decodes to a well-formed instruction, its tiles within those of the context
and its record where the kernel keeps records, is run: step is exec of that instruction; one predicated off only
issues, and one that does not decode, or whose tiles or record are not so, takes the illegal-instruction fault. Under
a `rep` or `stage` prefix step runs the instruction of the repetition that stands next, as pickInstr gives it. With no
group nothing moves. A device step that happens of itself is exec of it; a cycle passes at its die. A turn of a unit
that is not there is the model's fault unitAbsent. The order of turns is the model's (log 2). Rules: R14, R15, R30,
R44, R385. -/
def Obligations.StepRunsTheGroupItFetches : Prop :=
  ∀ (s t : State),
    (∀ d c e, nextTurn s = (.core d c e, t) → s.hasCore d c = true →
      (∀ p, (s.core d c).ctl.run = .running → (s.core d c).slot e = some p →
        let x := s.core d c
        let at' := fun (reps : Nat) => t.aim p d c reps
        (∀ n, (at' n).cur.die = d ∧ (at' n).cur.core = c ∧ (at' n).cur.addr = p.addr ∧ (at' n).cur.lane = p.grp.lane ∧
          (at' n).cur.word = p.grp.word ∧ (at' n).cur.rank = p.rank ∧ (at' n).cur.kmode = p.kmode) ∧
        (∀ i n, pickInstr x.ctx p.grp p.rep p.pred = .run i n → step s = exec i (at' n)) ∧
        (pickInstr x.ctx p.grp p.rep p.pred = .off → step s = .next (at' 1).issued) ∧
        (pickInstr x.ctx p.grp p.rep p.pred = .illegal → step s = (at' 1).raise 0x02 0 (BitVec.ofNat 64 p.grp.word)) ∧
        (∀ i, p.grp.pres = [] → decode p.grp.engine p.grp.word p.grp.conts = .ok i → i.wf = true →
          let legal := (∀ v ∈ tilesOf i, v < x.ctx.tiles) ∧ recordOk x.ctx.inline i = true
          (legal → p.pred = true → step s = exec i (at' 1)) ∧ (legal → p.pred = false → step s = .next (at' 1).issued) ∧
          (¬ legal → step s = (at' 1).raise 0x02 0 (BitVec.ofNat 64 p.grp.word))) ∧
        (∀ e', p.grp.pres = [] → decode p.grp.engine p.grp.word p.grp.conts = .error e' →
          step s = (at' 1).raise 0x02 0 (BitVec.ofNat 64 p.grp.word))) ∧
      ((s.core d c).ctl.run ≠ .running ∨ (s.core d c).slot e = none → step s = .next t)) ∧
    (∀ d c e, nextTurn s = (.core d c e, t) → s.hasCore d c = false → step s = .fault .unitAbsent) ∧
    (∀ d k, nextTurn s = (.cycle d k, t) → s.hasDie d = true → step s = .next (t.passCycle d k)) ∧
    (∀ i, nextTurn s = (.event i, t) → unitsPresent s i = true → deviceStep i = true → step s = exec i t) ∧
    (∀ i, nextTurn s = (.event i, t) → unitsPresent s i = false → step s = .fault .unitAbsent) ∧
    (∀ u rest, s.sched = u :: rest → nextTurn s = (u, { s with sched := rest, steps := s.steps + 1 }))

/-- The words the spec writes out for its examples decode to the instructions they stand for. Each word of the examples of
R33 to R44, R110, R111, R119, R120, R137 to R158, R178, R182, R185, R205 to R208, R222 and R340 decodes, in its engine
and with its continuation words, to the instruction written beside it. A sanity check. Rules: R33, R47, R103, R110,
R111, R119, R178, R182, R205, R206, R207, R340. -/
def Obligations.ExampleWordsDecode : Prop :=
  ∀ p ∈ specWords, decode p.1 p.2.1 p.2.2.1 = .ok p.2.2.2

/-- Reset leaves every K register and host register at the reset value its table gives, no context on any core, and
canonical memories. After reset every K register of every core reads its table's reset value: KPRIV 0x200 (CUR = 2),
KMODE 1, KSLOT 255, KSKEW0 to KSKEW5 0x8000_0000_0000_0000, KAMASK 0xFF, the others 0, leaving aside KGOT (log 4) and
KSLIFE (a fused value, log 16); LSTAT has CRCLIM 16, PROF has PATCAP 65535, HSCRUB has PERIOD 86400000 and EN 1, HEYE
has VTH 20 and HTH 40, the rest of the block reads 0; no core holds a context, no die is ready, the measurement
registers are 0, and the memories are in canonical form. Rules: R86, R265, R266, R267, R268, R374, R399, R416, R420,
R437, R438, R442. -/
def Obligations.ResetLeaves : Prop :=
  Canonical State.reset ∧ Shaped State.reset ∧
  (∀ d c, d < 8 → c < 32 → (State.reset.core d c).holds = false ∧ (State.reset.core d c).ctl.run = .idle ∧
    ∀ n k, kName n = some k → n ≠ 0x030 → n ≠ 0x080 → State.reset.readK d c k =
      if n = 0x005 then 0x200 else if n = 0x010 then 1 else if n = 0x038 then 255 else if 0x068 ≤ n ∧ n ≤ 0x06D then 0x8000000000000000
      else if n = 0x075 then 0xFF else 0) ∧
  (∀ d, d < 8 → (State.reset.die d).hreg.ready = false ∧
    (∀ p, p < 6 → State.reset.barValue d (0x020 + 8 * p) = 0x10000000) ∧ State.reset.barValue d 0x060 = 0xFFFF0000 ∧
    State.reset.barValue d 0x100 = BitVec.ofNat 64 (86400000 * 65536 + 1) ∧ State.reset.barValue d 0x118 = BitVec.ofNat 64 (20 * 2 ^ 40 + 40 * 2 ^ 32) ∧
    ∀ off ∈ [0x000, 0x008, 0x010, 0x068, 0x108, 0x110], State.reset.barValue d off = 0) ∧
  ∀ i, i < 16 → (State.reset.sec 0).mr i = 0

/-- What instructions leave unchanged: register forms, branches, stores, stores performed and retired vector groups. s0
reads zero, unpoisoned and never pending, and a write of it changes no register. A lane of R107 or R109 to R111, if it
moves on, leaves every register but s[d], all tiles, special registers, loops, timelines, commands, posted stores,
other cores and memory as they were; so does a branch with clean operands, for every register. A posted store changes
no register and no byte of memory beyond the dirty bit set for it. A store performed at its stack home, its dirty bit
set again, leaves every line its bytes do not touch as it was, and beside them every byte of a line under its key. A
retired vector group changes only its result tiles, KVSTAT and its streams. Rules: R98, R99, R107, R109, R110, R111,
R112, R115, R133, R357, R411, R422. -/
def Obligations.FramesOfInstructions : Prop :=
  (∀ (s : State) v p, (∀ x : Core, x.reg 0 = ⟨0, false, false⟩) ∧ (wrote s 0 v p).me.regs = s.me.regs) ∧
  (∀ (s t : State) i d, LaneForm i d → exec i s = .next t → KeepsAllBut s t d) ∧
  (∀ (s t : State), ∀ r ∈ branchForms, ∀ a b off, s.me.poisoned a = false → s.me.poisoned b = false →
    exec (r.2.1 a b off) s = .next t → KeepsAllBut s t 0) ∧
  (∀ (s t u : State) w d a off k o, accessOf s.me (.st w d a off) = some k → AccessOk s k →
    s.translate s.cur.die s.me s.me.ctl.level .write k.va.toNat = .ok o →
    (let s1 := s.updMe fun x => x.cache o.walked
     s1.setDirty s.cur.die s1.me 1 o.ipa = .ok u) → exec (.st w d a off) s = .next t →
    SameMemory u t ∧ t.me.regs = u.me.regs ∧ t.me.tiles = u.me.tiles ∧ t.me.k = u.me.k ∧ t.me.x = u.me.x ∧ t.me.loops = u.me.loops ∧
      t.me.bankS = u.me.bankS ∧ t.me.bankH = u.me.bankH ∧ t.me.tls = u.me.tls) ∧
  (∀ (s t : State) d c n m st, s.hasDie d = true → (s.core d c).fl.stores[n]? = none → m = n - (s.core d c).fl.stores.length →
    (s.die d).qpath[m]? = some st → (s.die d).qpath.filter (fun o => o.core == st.core && o.seq == st.seq) = [st] →
    (∀ o ∈ (s.die d).qpath.take m, ¬ (quadOf o.core = quadOf st.core ∧ overlaps o.pa o.bytes.length st.pa st.bytes.length = true)) →
    let s1 := s.redirty d st.core st.ipa
    0 < st.bytes.length → st.pa + st.bytes.length ≤ 2 ^ 36 → (s1.die d).stack.bytes.wf = true →
    exec (.storePerformedAtHome d c n) s = .next t →
    (∀ e k a, a < 2 ^ 36 → e ≠ d ∨ a / 64 < st.pa / 64 ∨ (st.pa + st.bytes.length - 1) / 64 < a / 64 →
      t.readPa e k a 1 = s1.readPa e k a 1) ∧
    (∀ a, a < 2 ^ 36 → a < st.pa ∨ st.pa + st.bytes.length ≤ a → assocGet (s1.die d).stack.keys (a / 64) = st.key →
      t.readPa d st.key a 1 = s1.readPa d st.key a 1) ∧
    (∀ e c', (t.core e c').regs = (s.core e c').regs ∧ (t.core e c').k = (s.core e c').k ∧ (t.core e c').x = (s.core e c').x)) ∧
  (∀ (s : State) i outs n rows, let t := retired s i outs n rows
    t.me.regs = s.me.regs ∧ t.me.x = s.me.x ∧ (∃ v, t.me.k = { s.me.k with kvstat := v }) ∧ t.me.bankS = s.me.bankS ∧ t.me.bankH = s.me.bankH ∧
      t.me.loops = s.me.loops ∧ t.me.tls = s.me.tls ∧ SameMemory s t ∧
      (∀ v, v ∉ outs.map (·.1) → t.me.tiles[v]? = s.me.tiles[v]?) ∧
      (∀ e c, e ≠ s.cur.die ∨ c ≠ s.cur.core → t.core e c = s.core e c))

/-- Decoding the encoding of any well-formed instruction gives it back, with every operand at every value its field
admits. For every well-formed instruction: if the encoder gives it an engine and words, there is a first word below
2^32, and the decoder of that engine reads the same instruction from it and the continuation words. The encoder gives
words to every well-formed instruction that is no device step, and to no device step. Rules: R33, R34, R35, R36, R37,
R38, R39, R40, R41, R42, R46, R47. -/
def Obligations.DecodeOfEncodeIsTheInstruction : Prop :=
  ∀ i : Instr, i.wf = true →
    (∀ e ws, encode i = some (e, ws) → ∃ w cs, ws = w :: cs ∧ w < 2 ^ 32 ∧ decode e w cs = .ok i) ∧
    (encode i = none → ∀ e w cs, decode e w cs ≠ .ok i)

/-- Every step from a state whose memories are in canonical form leads to such a state. Canonical form (addresses strictly
rising, no byte equal to what an unlisted address reads as, log 3) of every stack, basin and host memory is kept by
every step that ends in a next state, from every state, whatever the turn. Rules: R4, R10, R169, R246. -/
def Obligations.MemoriesStayCanonical : Prop :=
  ∀ s t : State, Canonical s → step s = .next t → Canonical t
end

