-- ==== Sys2Proof/Laws/State.lean ====
section
/-!
SUPPORT. Sys2Proof/Laws/State.lean: what each update of the state leaves as it was, field by field, and what reading a
unit after an update of a unit gives. A proof cites these and unfolds no record update.
-/
namespace Sys2Proof.Machine
open Sys2Proof

/-! ### Updates of the machine, field by field -/

@[simp] theorem updDie_pkgs (s : State) (d : Nat) (g : Die → Die) : (s.updDie d g).pkgs = s.pkgs := rfl
@[simp] theorem updDie_pod (s : State) (d : Nat) (g : Die → Die) : (s.updDie d g).pod = s.pod := rfl
@[simp] theorem updDie_nets (s : State) (d : Nat) (g : Die → Die) : (s.updDie d g).nets = s.nets := rfl
@[simp] theorem updDie_recs (s : State) (d : Nat) (g : Die → Die) : (s.updDie d g).recs = s.recs := rfl
@[simp] theorem updDie_kids (s : State) (d : Nat) (g : Die → Die) : (s.updDie d g).kids = s.kids := rfl
@[simp] theorem updDie_saves (s : State) (d : Nat) (g : Die → Die) : (s.updDie d g).saves = s.saves := rfl
@[simp] theorem updDie_flits (s : State) (d : Nat) (g : Die → Die) : (s.updDie d g).flits = s.flits := rfl
@[simp] theorem updDie_acks (s : State) (d : Nat) (g : Die → Die) : (s.updDie d g).acks = s.acks := rfl
@[simp] theorem updDie_reqNo (s : State) (d : Nat) (g : Die → Die) : (s.updDie d g).reqNo = s.reqNo := rfl
@[simp] theorem updDie_steps (s : State) (d : Nat) (g : Die → Die) : (s.updDie d g).steps = s.steps := rfl
@[simp] theorem updDie_sched (s : State) (d : Nat) (g : Die → Die) : (s.updDie d g).sched = s.sched := rfl
@[simp] theorem updDie_cur (s : State) (d : Nat) (g : Die → Die) : (s.updDie d g).cur = s.cur := rfl
@[simp] theorem updCore_pkgs (s : State) (d c : Nat) (g : Core → Core) : (s.updCore d c g).pkgs = s.pkgs := rfl
@[simp] theorem updCore_pod (s : State) (d c : Nat) (g : Core → Core) : (s.updCore d c g).pod = s.pod := rfl
@[simp] theorem updCore_nets (s : State) (d c : Nat) (g : Core → Core) : (s.updCore d c g).nets = s.nets := rfl
@[simp] theorem updCore_recs (s : State) (d c : Nat) (g : Core → Core) : (s.updCore d c g).recs = s.recs := rfl
@[simp] theorem updCore_kids (s : State) (d c : Nat) (g : Core → Core) : (s.updCore d c g).kids = s.kids := rfl
@[simp] theorem updCore_saves (s : State) (d c : Nat) (g : Core → Core) : (s.updCore d c g).saves = s.saves := rfl
@[simp] theorem updCore_flits (s : State) (d c : Nat) (g : Core → Core) : (s.updCore d c g).flits = s.flits := rfl
@[simp] theorem updCore_acks (s : State) (d c : Nat) (g : Core → Core) : (s.updCore d c g).acks = s.acks := rfl
@[simp] theorem updCore_reqNo (s : State) (d c : Nat) (g : Core → Core) : (s.updCore d c g).reqNo = s.reqNo := rfl
@[simp] theorem updCore_steps (s : State) (d c : Nat) (g : Core → Core) : (s.updCore d c g).steps = s.steps := rfl
@[simp] theorem updCore_sched (s : State) (d c : Nat) (g : Core → Core) : (s.updCore d c g).sched = s.sched := rfl
@[simp] theorem updCore_cur (s : State) (d c : Nat) (g : Core → Core) : (s.updCore d c g).cur = s.cur := rfl
@[simp] theorem updMe_pkgs (s : State) (g : Core → Core) : (s.updMe g).pkgs = s.pkgs := rfl
@[simp] theorem updMe_pod (s : State) (g : Core → Core) : (s.updMe g).pod = s.pod := rfl
@[simp] theorem updMe_nets (s : State) (g : Core → Core) : (s.updMe g).nets = s.nets := rfl
@[simp] theorem updMe_recs (s : State) (g : Core → Core) : (s.updMe g).recs = s.recs := rfl
@[simp] theorem updMe_kids (s : State) (g : Core → Core) : (s.updMe g).kids = s.kids := rfl
@[simp] theorem updMe_saves (s : State) (g : Core → Core) : (s.updMe g).saves = s.saves := rfl
@[simp] theorem updMe_flits (s : State) (g : Core → Core) : (s.updMe g).flits = s.flits := rfl
@[simp] theorem updMe_acks (s : State) (g : Core → Core) : (s.updMe g).acks = s.acks := rfl
@[simp] theorem updMe_reqNo (s : State) (g : Core → Core) : (s.updMe g).reqNo = s.reqNo := rfl
@[simp] theorem updMe_steps (s : State) (g : Core → Core) : (s.updMe g).steps = s.steps := rfl
@[simp] theorem updMe_sched (s : State) (g : Core → Core) : (s.updMe g).sched = s.sched := rfl
@[simp] theorem updMe_cur (s : State) (g : Core → Core) : (s.updMe g).cur = s.cur := rfl
@[simp] theorem updMyDie_pkgs (s : State) (g : Die → Die) : (s.updMyDie g).pkgs = s.pkgs := rfl
@[simp] theorem updMyDie_pod (s : State) (g : Die → Die) : (s.updMyDie g).pod = s.pod := rfl
@[simp] theorem updMyDie_nets (s : State) (g : Die → Die) : (s.updMyDie g).nets = s.nets := rfl
@[simp] theorem updMyDie_recs (s : State) (g : Die → Die) : (s.updMyDie g).recs = s.recs := rfl
@[simp] theorem updMyDie_kids (s : State) (g : Die → Die) : (s.updMyDie g).kids = s.kids := rfl
@[simp] theorem updMyDie_saves (s : State) (g : Die → Die) : (s.updMyDie g).saves = s.saves := rfl
@[simp] theorem updMyDie_flits (s : State) (g : Die → Die) : (s.updMyDie g).flits = s.flits := rfl
@[simp] theorem updMyDie_acks (s : State) (g : Die → Die) : (s.updMyDie g).acks = s.acks := rfl
@[simp] theorem updMyDie_reqNo (s : State) (g : Die → Die) : (s.updMyDie g).reqNo = s.reqNo := rfl
@[simp] theorem updMyDie_steps (s : State) (g : Die → Die) : (s.updMyDie g).steps = s.steps := rfl
@[simp] theorem updMyDie_sched (s : State) (g : Die → Die) : (s.updMyDie g).sched = s.sched := rfl
@[simp] theorem updMyDie_cur (s : State) (g : Die → Die) : (s.updMyDie g).cur = s.cur := rfl
@[simp] theorem updPkg_dies (s : State) (p : Nat) (g : Pkg → Pkg) : (s.updPkg p g).dies = s.dies := rfl
@[simp] theorem updPkg_pod (s : State) (p : Nat) (g : Pkg → Pkg) : (s.updPkg p g).pod = s.pod := rfl
@[simp] theorem updPkg_nets (s : State) (p : Nat) (g : Pkg → Pkg) : (s.updPkg p g).nets = s.nets := rfl
@[simp] theorem updPkg_recs (s : State) (p : Nat) (g : Pkg → Pkg) : (s.updPkg p g).recs = s.recs := rfl
@[simp] theorem updPkg_kids (s : State) (p : Nat) (g : Pkg → Pkg) : (s.updPkg p g).kids = s.kids := rfl
@[simp] theorem updPkg_saves (s : State) (p : Nat) (g : Pkg → Pkg) : (s.updPkg p g).saves = s.saves := rfl
@[simp] theorem updPkg_flits (s : State) (p : Nat) (g : Pkg → Pkg) : (s.updPkg p g).flits = s.flits := rfl
@[simp] theorem updPkg_acks (s : State) (p : Nat) (g : Pkg → Pkg) : (s.updPkg p g).acks = s.acks := rfl
@[simp] theorem updPkg_reqNo (s : State) (p : Nat) (g : Pkg → Pkg) : (s.updPkg p g).reqNo = s.reqNo := rfl
@[simp] theorem updPkg_steps (s : State) (p : Nat) (g : Pkg → Pkg) : (s.updPkg p g).steps = s.steps := rfl
@[simp] theorem updPkg_sched (s : State) (p : Nat) (g : Pkg → Pkg) : (s.updPkg p g).sched = s.sched := rfl
@[simp] theorem updPkg_cur (s : State) (p : Nat) (g : Pkg → Pkg) : (s.updPkg p g).cur = s.cur := rfl
@[simp] theorem updNet_dies (s : State) (i : Nat) (g : BarNet → BarNet) : (s.updNet i g).dies = s.dies := rfl
@[simp] theorem updNet_pkgs (s : State) (i : Nat) (g : BarNet → BarNet) : (s.updNet i g).pkgs = s.pkgs := rfl
@[simp] theorem updNet_pod (s : State) (i : Nat) (g : BarNet → BarNet) : (s.updNet i g).pod = s.pod := rfl
@[simp] theorem updNet_recs (s : State) (i : Nat) (g : BarNet → BarNet) : (s.updNet i g).recs = s.recs := rfl
@[simp] theorem updNet_kids (s : State) (i : Nat) (g : BarNet → BarNet) : (s.updNet i g).kids = s.kids := rfl
@[simp] theorem updNet_saves (s : State) (i : Nat) (g : BarNet → BarNet) : (s.updNet i g).saves = s.saves := rfl
@[simp] theorem updNet_flits (s : State) (i : Nat) (g : BarNet → BarNet) : (s.updNet i g).flits = s.flits := rfl
@[simp] theorem updNet_acks (s : State) (i : Nat) (g : BarNet → BarNet) : (s.updNet i g).acks = s.acks := rfl
@[simp] theorem updNet_reqNo (s : State) (i : Nat) (g : BarNet → BarNet) : (s.updNet i g).reqNo = s.reqNo := rfl
@[simp] theorem updNet_steps (s : State) (i : Nat) (g : BarNet → BarNet) : (s.updNet i g).steps = s.steps := rfl
@[simp] theorem updNet_sched (s : State) (i : Nat) (g : BarNet → BarNet) : (s.updNet i g).sched = s.sched := rfl
@[simp] theorem updNet_cur (s : State) (i : Nat) (g : BarNet → BarNet) : (s.updNet i g).cur = s.cur := rfl
@[simp] theorem issued_pkgs (s : State) : s.issued.pkgs = s.pkgs := rfl
@[simp] theorem issued_pod (s : State) : s.issued.pod = s.pod := rfl
@[simp] theorem issued_nets (s : State) : s.issued.nets = s.nets := rfl
@[simp] theorem issued_recs (s : State) : s.issued.recs = s.recs := rfl
@[simp] theorem issued_kids (s : State) : s.issued.kids = s.kids := rfl
@[simp] theorem issued_saves (s : State) : s.issued.saves = s.saves := rfl
@[simp] theorem issued_flits (s : State) : s.issued.flits = s.flits := rfl
@[simp] theorem issued_acks (s : State) : s.issued.acks = s.acks := rfl
@[simp] theorem issued_reqNo (s : State) : s.issued.reqNo = s.reqNo := rfl
@[simp] theorem issued_steps (s : State) : s.issued.steps = s.steps := rfl
@[simp] theorem issued_sched (s : State) : s.issued.sched = s.sched := rfl
@[simp] theorem issued_cur (s : State) : s.issued.cur = s.cur := rfl

/-! ### Updates of a core, field by field -/

@[simp] theorem setCtl_regs (x : Core) (g : Control → Control) : (x.setCtl g).regs = x.regs := rfl
@[simp] theorem setCtl_tiles (x : Core) (g : Control → Control) : (x.setCtl g).tiles = x.tiles := rfl
@[simp] theorem setCtl_k (x : Core) (g : Control → Control) : (x.setCtl g).k = x.k := rfl
@[simp] theorem setCtl_x (x : Core) (g : Control → Control) : (x.setCtl g).x = x.x := rfl
@[simp] theorem setCtl_klq (x : Core) (g : Control → Control) : (x.setCtl g).klq = x.klq := rfl
@[simp] theorem setCtl_xl (x : Core) (g : Control → Control) : (x.setCtl g).xl = x.xl := rfl
@[simp] theorem setCtl_loops (x : Core) (g : Control → Control) : (x.setCtl g).loops = x.loops := rfl
@[simp] theorem setCtl_bankS (x : Core) (g : Control → Control) : (x.setCtl g).bankS = x.bankS := rfl
@[simp] theorem setCtl_bankH (x : Core) (g : Control → Control) : (x.setCtl g).bankH = x.bankH := rfl
@[simp] theorem setCtl_ctl (x : Core) (g : Control → Control) : (x.setCtl g).ctl = g x.ctl := rfl
@[simp] theorem setCtl_q (x : Core) (g : Control → Control) : (x.setCtl g).q = x.q := rfl
@[simp] theorem setCtl_fl (x : Core) (g : Control → Control) : (x.setCtl g).fl = x.fl := rfl
@[simp] theorem setCtl_tls (x : Core) (g : Control → Control) : (x.setCtl g).tls = x.tls := rfl
@[simp] theorem setCtl_strm (x : Core) (g : Control → Control) : (x.setCtl g).strm = x.strm := rfl
@[simp] theorem setCtl_ended (x : Core) (g : Control → Control) : (x.setCtl g).ended = x.ended := rfl
@[simp] theorem setCtl_unbound (x : Core) (g : Control → Control) : (x.setCtl g).unbound = x.unbound := rfl
@[simp] theorem setCtl_books (x : Core) (g : Control → Control) : (x.setCtl g).books = x.books := rfl
@[simp] theorem setCtl_ctx (x : Core) (g : Control → Control) : (x.setCtl g).ctx = x.ctx := rfl
@[simp] theorem setCtl_noise (x : Core) (g : Control → Control) : (x.setCtl g).noise = x.noise := rfl
@[simp] theorem setFl_regs (x : Core) (g : InFlight → InFlight) : (x.setFl g).regs = x.regs := rfl
@[simp] theorem setFl_tiles (x : Core) (g : InFlight → InFlight) : (x.setFl g).tiles = x.tiles := rfl
@[simp] theorem setFl_k (x : Core) (g : InFlight → InFlight) : (x.setFl g).k = x.k := rfl
@[simp] theorem setFl_x (x : Core) (g : InFlight → InFlight) : (x.setFl g).x = x.x := rfl
@[simp] theorem setFl_klq (x : Core) (g : InFlight → InFlight) : (x.setFl g).klq = x.klq := rfl
@[simp] theorem setFl_xl (x : Core) (g : InFlight → InFlight) : (x.setFl g).xl = x.xl := rfl
@[simp] theorem setFl_loops (x : Core) (g : InFlight → InFlight) : (x.setFl g).loops = x.loops := rfl
@[simp] theorem setFl_bankS (x : Core) (g : InFlight → InFlight) : (x.setFl g).bankS = x.bankS := rfl
@[simp] theorem setFl_bankH (x : Core) (g : InFlight → InFlight) : (x.setFl g).bankH = x.bankH := rfl
@[simp] theorem setFl_ctl (x : Core) (g : InFlight → InFlight) : (x.setFl g).ctl = x.ctl := rfl
@[simp] theorem setFl_q (x : Core) (g : InFlight → InFlight) : (x.setFl g).q = x.q := rfl
@[simp] theorem setFl_fl (x : Core) (g : InFlight → InFlight) : (x.setFl g).fl = g x.fl := rfl
@[simp] theorem setFl_tls (x : Core) (g : InFlight → InFlight) : (x.setFl g).tls = x.tls := rfl
@[simp] theorem setFl_strm (x : Core) (g : InFlight → InFlight) : (x.setFl g).strm = x.strm := rfl
@[simp] theorem setFl_ended (x : Core) (g : InFlight → InFlight) : (x.setFl g).ended = x.ended := rfl
@[simp] theorem setFl_unbound (x : Core) (g : InFlight → InFlight) : (x.setFl g).unbound = x.unbound := rfl
@[simp] theorem setFl_books (x : Core) (g : InFlight → InFlight) : (x.setFl g).books = x.books := rfl
@[simp] theorem setFl_ctx (x : Core) (g : InFlight → InFlight) : (x.setFl g).ctx = x.ctx := rfl
@[simp] theorem setFl_noise (x : Core) (g : InFlight → InFlight) : (x.setFl g).noise = x.noise := rfl
@[simp] theorem setK_regs (x : Core) (g : KRegs → KRegs) : (x.setK g).regs = x.regs := rfl
@[simp] theorem setK_tiles (x : Core) (g : KRegs → KRegs) : (x.setK g).tiles = x.tiles := rfl
@[simp] theorem setK_k (x : Core) (g : KRegs → KRegs) : (x.setK g).k = g x.k := rfl
@[simp] theorem setK_x (x : Core) (g : KRegs → KRegs) : (x.setK g).x = x.x := rfl
@[simp] theorem setK_klq (x : Core) (g : KRegs → KRegs) : (x.setK g).klq = x.klq := rfl
@[simp] theorem setK_xl (x : Core) (g : KRegs → KRegs) : (x.setK g).xl = x.xl := rfl
@[simp] theorem setK_loops (x : Core) (g : KRegs → KRegs) : (x.setK g).loops = x.loops := rfl
@[simp] theorem setK_bankS (x : Core) (g : KRegs → KRegs) : (x.setK g).bankS = x.bankS := rfl
@[simp] theorem setK_bankH (x : Core) (g : KRegs → KRegs) : (x.setK g).bankH = x.bankH := rfl
@[simp] theorem setK_ctl (x : Core) (g : KRegs → KRegs) : (x.setK g).ctl = x.ctl := rfl
@[simp] theorem setK_q (x : Core) (g : KRegs → KRegs) : (x.setK g).q = x.q := rfl
@[simp] theorem setK_fl (x : Core) (g : KRegs → KRegs) : (x.setK g).fl = x.fl := rfl
@[simp] theorem setK_tls (x : Core) (g : KRegs → KRegs) : (x.setK g).tls = x.tls := rfl
@[simp] theorem setK_strm (x : Core) (g : KRegs → KRegs) : (x.setK g).strm = x.strm := rfl
@[simp] theorem setK_ended (x : Core) (g : KRegs → KRegs) : (x.setK g).ended = x.ended := rfl
@[simp] theorem setK_unbound (x : Core) (g : KRegs → KRegs) : (x.setK g).unbound = x.unbound := rfl
@[simp] theorem setK_books (x : Core) (g : KRegs → KRegs) : (x.setK g).books = x.books := rfl
@[simp] theorem setK_ctx (x : Core) (g : KRegs → KRegs) : (x.setK g).ctx = x.ctx := rfl
@[simp] theorem setK_noise (x : Core) (g : KRegs → KRegs) : (x.setK g).noise = x.noise := rfl
@[simp] theorem setQ_regs (x : Core) (g : Queues → Queues) : (x.setQ g).regs = x.regs := rfl
@[simp] theorem setQ_tiles (x : Core) (g : Queues → Queues) : (x.setQ g).tiles = x.tiles := rfl
@[simp] theorem setQ_k (x : Core) (g : Queues → Queues) : (x.setQ g).k = x.k := rfl
@[simp] theorem setQ_x (x : Core) (g : Queues → Queues) : (x.setQ g).x = x.x := rfl
@[simp] theorem setQ_klq (x : Core) (g : Queues → Queues) : (x.setQ g).klq = x.klq := rfl
@[simp] theorem setQ_xl (x : Core) (g : Queues → Queues) : (x.setQ g).xl = x.xl := rfl
@[simp] theorem setQ_loops (x : Core) (g : Queues → Queues) : (x.setQ g).loops = x.loops := rfl
@[simp] theorem setQ_bankS (x : Core) (g : Queues → Queues) : (x.setQ g).bankS = x.bankS := rfl
@[simp] theorem setQ_bankH (x : Core) (g : Queues → Queues) : (x.setQ g).bankH = x.bankH := rfl
@[simp] theorem setQ_ctl (x : Core) (g : Queues → Queues) : (x.setQ g).ctl = x.ctl := rfl
@[simp] theorem setQ_q (x : Core) (g : Queues → Queues) : (x.setQ g).q = g x.q := rfl
@[simp] theorem setQ_fl (x : Core) (g : Queues → Queues) : (x.setQ g).fl = x.fl := rfl
@[simp] theorem setQ_tls (x : Core) (g : Queues → Queues) : (x.setQ g).tls = x.tls := rfl
@[simp] theorem setQ_strm (x : Core) (g : Queues → Queues) : (x.setQ g).strm = x.strm := rfl
@[simp] theorem setQ_ended (x : Core) (g : Queues → Queues) : (x.setQ g).ended = x.ended := rfl
@[simp] theorem setQ_unbound (x : Core) (g : Queues → Queues) : (x.setQ g).unbound = x.unbound := rfl
@[simp] theorem setQ_books (x : Core) (g : Queues → Queues) : (x.setQ g).books = x.books := rfl
@[simp] theorem setQ_ctx (x : Core) (g : Queues → Queues) : (x.setQ g).ctx = x.ctx := rfl
@[simp] theorem setQ_noise (x : Core) (g : Queues → Queues) : (x.setQ g).noise = x.noise := rfl
@[simp] theorem setDec_regs (x : Core) (d : Decision) : (x.setDec d).regs = x.regs := rfl
@[simp] theorem setDec_tiles (x : Core) (d : Decision) : (x.setDec d).tiles = x.tiles := rfl
@[simp] theorem setDec_k (x : Core) (d : Decision) : (x.setDec d).k = x.k := rfl
@[simp] theorem setDec_x (x : Core) (d : Decision) : (x.setDec d).x = x.x := rfl
@[simp] theorem setDec_klq (x : Core) (d : Decision) : (x.setDec d).klq = x.klq := rfl
@[simp] theorem setDec_xl (x : Core) (d : Decision) : (x.setDec d).xl = x.xl := rfl
@[simp] theorem setDec_loops (x : Core) (d : Decision) : (x.setDec d).loops = x.loops := rfl
@[simp] theorem setDec_bankS (x : Core) (d : Decision) : (x.setDec d).bankS = x.bankS := rfl
@[simp] theorem setDec_bankH (x : Core) (d : Decision) : (x.setDec d).bankH = x.bankH := rfl
@[simp] theorem setDec_q (x : Core) (d : Decision) : (x.setDec d).q = x.q := rfl
@[simp] theorem setDec_fl (x : Core) (d : Decision) : (x.setDec d).fl = x.fl := rfl
@[simp] theorem setDec_tls (x : Core) (d : Decision) : (x.setDec d).tls = x.tls := rfl
@[simp] theorem setDec_strm (x : Core) (d : Decision) : (x.setDec d).strm = x.strm := rfl
@[simp] theorem setDec_ended (x : Core) (d : Decision) : (x.setDec d).ended = x.ended := rfl
@[simp] theorem setDec_unbound (x : Core) (d : Decision) : (x.setDec d).unbound = x.unbound := rfl
@[simp] theorem setDec_books (x : Core) (d : Decision) : (x.setDec d).books = x.books := rfl
@[simp] theorem setDec_ctx (x : Core) (d : Decision) : (x.setDec d).ctx = x.ctx := rfl
@[simp] theorem setDec_noise (x : Core) (d : Decision) : (x.setDec d).noise = x.noise := rfl
@[simp] theorem progress_regs (x : Core) : x.progress.regs = x.regs := rfl
@[simp] theorem progress_tiles (x : Core) : x.progress.tiles = x.tiles := rfl
@[simp] theorem progress_k (x : Core) : x.progress.k = x.k := rfl
@[simp] theorem progress_x (x : Core) : x.progress.x = x.x := rfl
@[simp] theorem progress_klq (x : Core) : x.progress.klq = x.klq := rfl
@[simp] theorem progress_xl (x : Core) : x.progress.xl = x.xl := rfl
@[simp] theorem progress_loops (x : Core) : x.progress.loops = x.loops := rfl
@[simp] theorem progress_bankS (x : Core) : x.progress.bankS = x.bankS := rfl
@[simp] theorem progress_bankH (x : Core) : x.progress.bankH = x.bankH := rfl
@[simp] theorem progress_q (x : Core) : x.progress.q = x.q := rfl
@[simp] theorem progress_fl (x : Core) : x.progress.fl = x.fl := rfl
@[simp] theorem progress_tls (x : Core) : x.progress.tls = x.tls := rfl
@[simp] theorem progress_strm (x : Core) : x.progress.strm = x.strm := rfl
@[simp] theorem progress_ended (x : Core) : x.progress.ended = x.ended := rfl
@[simp] theorem progress_unbound (x : Core) : x.progress.unbound = x.unbound := rfl
@[simp] theorem progress_books (x : Core) : x.progress.books = x.books := rfl
@[simp] theorem progress_ctx (x : Core) : x.progress.ctx = x.ctx := rfl
@[simp] theorem progress_noise (x : Core) : x.progress.noise = x.noise := rfl
@[simp] theorem takeNum_regs (x : Core) (t : TimelineId) : (x.takeNum t).regs = x.regs := rfl
@[simp] theorem takeNum_tiles (x : Core) (t : TimelineId) : (x.takeNum t).tiles = x.tiles := rfl
@[simp] theorem takeNum_k (x : Core) (t : TimelineId) : (x.takeNum t).k = x.k := rfl
@[simp] theorem takeNum_x (x : Core) (t : TimelineId) : (x.takeNum t).x = x.x := rfl
@[simp] theorem takeNum_klq (x : Core) (t : TimelineId) : (x.takeNum t).klq = x.klq := rfl
@[simp] theorem takeNum_xl (x : Core) (t : TimelineId) : (x.takeNum t).xl = x.xl := rfl
@[simp] theorem takeNum_loops (x : Core) (t : TimelineId) : (x.takeNum t).loops = x.loops := rfl
@[simp] theorem takeNum_bankS (x : Core) (t : TimelineId) : (x.takeNum t).bankS = x.bankS := rfl
@[simp] theorem takeNum_bankH (x : Core) (t : TimelineId) : (x.takeNum t).bankH = x.bankH := rfl
@[simp] theorem takeNum_ctl (x : Core) (t : TimelineId) : (x.takeNum t).ctl = x.ctl := rfl
@[simp] theorem takeNum_q (x : Core) (t : TimelineId) : (x.takeNum t).q = x.q := rfl
@[simp] theorem takeNum_fl (x : Core) (t : TimelineId) : (x.takeNum t).fl = x.fl := rfl
@[simp] theorem takeNum_strm (x : Core) (t : TimelineId) : (x.takeNum t).strm = x.strm := rfl
@[simp] theorem takeNum_ended (x : Core) (t : TimelineId) : (x.takeNum t).ended = x.ended := rfl
@[simp] theorem takeNum_unbound (x : Core) (t : TimelineId) : (x.takeNum t).unbound = x.unbound := rfl
@[simp] theorem takeNum_books (x : Core) (t : TimelineId) : (x.takeNum t).books = x.books := rfl
@[simp] theorem takeNum_ctx (x : Core) (t : TimelineId) : (x.takeNum t).ctx = x.ctx := rfl
@[simp] theorem takeNum_noise (x : Core) (t : TimelineId) : (x.takeNum t).noise = x.noise := rfl
@[simp] theorem setTile_regs (x : Core) (t r : Nat) (v : Tile) : (x.setTile t r v).regs = x.regs := rfl
@[simp] theorem setTile_k (x : Core) (t r : Nat) (v : Tile) : (x.setTile t r v).k = x.k := rfl
@[simp] theorem setTile_x (x : Core) (t r : Nat) (v : Tile) : (x.setTile t r v).x = x.x := rfl
@[simp] theorem setTile_klq (x : Core) (t r : Nat) (v : Tile) : (x.setTile t r v).klq = x.klq := rfl
@[simp] theorem setTile_xl (x : Core) (t r : Nat) (v : Tile) : (x.setTile t r v).xl = x.xl := rfl
@[simp] theorem setTile_loops (x : Core) (t r : Nat) (v : Tile) : (x.setTile t r v).loops = x.loops := rfl
@[simp] theorem setTile_bankS (x : Core) (t r : Nat) (v : Tile) : (x.setTile t r v).bankS = x.bankS := rfl
@[simp] theorem setTile_bankH (x : Core) (t r : Nat) (v : Tile) : (x.setTile t r v).bankH = x.bankH := rfl
@[simp] theorem setTile_ctl (x : Core) (t r : Nat) (v : Tile) : (x.setTile t r v).ctl = x.ctl := rfl
@[simp] theorem setTile_q (x : Core) (t r : Nat) (v : Tile) : (x.setTile t r v).q = x.q := rfl
@[simp] theorem setTile_fl (x : Core) (t r : Nat) (v : Tile) : (x.setTile t r v).fl = x.fl := rfl
@[simp] theorem setTile_tls (x : Core) (t r : Nat) (v : Tile) : (x.setTile t r v).tls = x.tls := rfl
@[simp] theorem setTile_strm (x : Core) (t r : Nat) (v : Tile) : (x.setTile t r v).strm = x.strm := rfl
@[simp] theorem setTile_ended (x : Core) (t r : Nat) (v : Tile) : (x.setTile t r v).ended = x.ended := rfl
@[simp] theorem setTile_books (x : Core) (t r : Nat) (v : Tile) : (x.setTile t r v).books = x.books := rfl
@[simp] theorem setTile_ctx (x : Core) (t r : Nat) (v : Tile) : (x.setTile t r v).ctx = x.ctx := rfl
@[simp] theorem setTile_noise (x : Core) (t r : Nat) (v : Tile) : (x.setTile t r v).noise = x.noise := rfl
@[simp] theorem updBindings_regs (x : Core) (t : Nat) (p : Binding → Bool) (g : Binding → Option Binding) : (x.updBindings t p g).regs = x.regs := by simp only [Core.updBindings]
@[simp] theorem updBindings_tiles (x : Core) (t : Nat) (p : Binding → Bool) (g : Binding → Option Binding) : (x.updBindings t p g).tiles = x.tiles := by simp only [Core.updBindings]
@[simp] theorem updBindings_k (x : Core) (t : Nat) (p : Binding → Bool) (g : Binding → Option Binding) : (x.updBindings t p g).k = x.k := by simp only [Core.updBindings]
@[simp] theorem updBindings_x (x : Core) (t : Nat) (p : Binding → Bool) (g : Binding → Option Binding) : (x.updBindings t p g).x = x.x := by simp only [Core.updBindings]
@[simp] theorem updBindings_klq (x : Core) (t : Nat) (p : Binding → Bool) (g : Binding → Option Binding) : (x.updBindings t p g).klq = x.klq := by simp only [Core.updBindings]
@[simp] theorem updBindings_xl (x : Core) (t : Nat) (p : Binding → Bool) (g : Binding → Option Binding) : (x.updBindings t p g).xl = x.xl := by simp only [Core.updBindings]
@[simp] theorem updBindings_loops (x : Core) (t : Nat) (p : Binding → Bool) (g : Binding → Option Binding) : (x.updBindings t p g).loops = x.loops := by simp only [Core.updBindings]
@[simp] theorem updBindings_bankS (x : Core) (t : Nat) (p : Binding → Bool) (g : Binding → Option Binding) : (x.updBindings t p g).bankS = x.bankS := by simp only [Core.updBindings]
@[simp] theorem updBindings_bankH (x : Core) (t : Nat) (p : Binding → Bool) (g : Binding → Option Binding) : (x.updBindings t p g).bankH = x.bankH := by simp only [Core.updBindings]
@[simp] theorem updBindings_ctl (x : Core) (t : Nat) (p : Binding → Bool) (g : Binding → Option Binding) : (x.updBindings t p g).ctl = x.ctl := by simp only [Core.updBindings]
@[simp] theorem updBindings_q (x : Core) (t : Nat) (p : Binding → Bool) (g : Binding → Option Binding) : (x.updBindings t p g).q = x.q := by simp only [Core.updBindings]
@[simp] theorem updBindings_fl (x : Core) (t : Nat) (p : Binding → Bool) (g : Binding → Option Binding) : (x.updBindings t p g).fl = x.fl := by simp only [Core.updBindings]
@[simp] theorem updBindings_tls (x : Core) (t : Nat) (p : Binding → Bool) (g : Binding → Option Binding) : (x.updBindings t p g).tls = x.tls := by simp only [Core.updBindings]
@[simp] theorem updBindings_unbound (x : Core) (t : Nat) (p : Binding → Bool) (g : Binding → Option Binding) : (x.updBindings t p g).unbound = x.unbound := by simp only [Core.updBindings]
@[simp] theorem updBindings_books (x : Core) (t : Nat) (p : Binding → Bool) (g : Binding → Option Binding) : (x.updBindings t p g).books = x.books := by simp only [Core.updBindings]
@[simp] theorem updBindings_ctx (x : Core) (t : Nat) (p : Binding → Bool) (g : Binding → Option Binding) : (x.updBindings t p g).ctx = x.ctx := by simp only [Core.updBindings]
@[simp] theorem updBindings_noise (x : Core) (t : Nat) (p : Binding → Bool) (g : Binding → Option Binding) : (x.updBindings t p g).noise = x.noise := by simp only [Core.updBindings]
@[simp] theorem updBinding_regs (x : Core) (t rank : Nat) (g : Binding → Option Binding) : (x.updBinding t rank g).regs = x.regs := by simp only [Core.updBinding, updBindings_regs]
@[simp] theorem updBinding_tiles (x : Core) (t rank : Nat) (g : Binding → Option Binding) : (x.updBinding t rank g).tiles = x.tiles := by simp only [Core.updBinding, updBindings_tiles]
@[simp] theorem updBinding_k (x : Core) (t rank : Nat) (g : Binding → Option Binding) : (x.updBinding t rank g).k = x.k := by simp only [Core.updBinding, updBindings_k]
@[simp] theorem updBinding_x (x : Core) (t rank : Nat) (g : Binding → Option Binding) : (x.updBinding t rank g).x = x.x := by simp only [Core.updBinding, updBindings_x]
@[simp] theorem updBinding_klq (x : Core) (t rank : Nat) (g : Binding → Option Binding) : (x.updBinding t rank g).klq = x.klq := by simp only [Core.updBinding, updBindings_klq]
@[simp] theorem updBinding_xl (x : Core) (t rank : Nat) (g : Binding → Option Binding) : (x.updBinding t rank g).xl = x.xl := by simp only [Core.updBinding, updBindings_xl]
@[simp] theorem updBinding_loops (x : Core) (t rank : Nat) (g : Binding → Option Binding) : (x.updBinding t rank g).loops = x.loops := by simp only [Core.updBinding, updBindings_loops]
@[simp] theorem updBinding_bankS (x : Core) (t rank : Nat) (g : Binding → Option Binding) : (x.updBinding t rank g).bankS = x.bankS := by simp only [Core.updBinding, updBindings_bankS]
@[simp] theorem updBinding_bankH (x : Core) (t rank : Nat) (g : Binding → Option Binding) : (x.updBinding t rank g).bankH = x.bankH := by simp only [Core.updBinding, updBindings_bankH]
@[simp] theorem updBinding_ctl (x : Core) (t rank : Nat) (g : Binding → Option Binding) : (x.updBinding t rank g).ctl = x.ctl := by simp only [Core.updBinding, updBindings_ctl]
@[simp] theorem updBinding_q (x : Core) (t rank : Nat) (g : Binding → Option Binding) : (x.updBinding t rank g).q = x.q := by simp only [Core.updBinding, updBindings_q]
@[simp] theorem updBinding_fl (x : Core) (t rank : Nat) (g : Binding → Option Binding) : (x.updBinding t rank g).fl = x.fl := by simp only [Core.updBinding, updBindings_fl]
@[simp] theorem updBinding_tls (x : Core) (t rank : Nat) (g : Binding → Option Binding) : (x.updBinding t rank g).tls = x.tls := by simp only [Core.updBinding, updBindings_tls]
@[simp] theorem updBinding_unbound (x : Core) (t rank : Nat) (g : Binding → Option Binding) : (x.updBinding t rank g).unbound = x.unbound := by simp only [Core.updBinding, updBindings_unbound]
@[simp] theorem updBinding_books (x : Core) (t rank : Nat) (g : Binding → Option Binding) : (x.updBinding t rank g).books = x.books := by simp only [Core.updBinding, updBindings_books]
@[simp] theorem updBinding_ctx (x : Core) (t rank : Nat) (g : Binding → Option Binding) : (x.updBinding t rank g).ctx = x.ctx := by simp only [Core.updBinding, updBindings_ctx]
@[simp] theorem updBinding_noise (x : Core) (t rank : Nat) (g : Binding → Option Binding) : (x.updBinding t rank g).noise = x.noise := by simp only [Core.updBinding, updBindings_noise]
@[simp] theorem mapBindings_regs (x : Core) (g : Binding → Binding) : (x.mapBindings g).regs = x.regs := rfl
@[simp] theorem mapBindings_tiles (x : Core) (g : Binding → Binding) : (x.mapBindings g).tiles = x.tiles := rfl
@[simp] theorem mapBindings_k (x : Core) (g : Binding → Binding) : (x.mapBindings g).k = x.k := rfl
@[simp] theorem mapBindings_x (x : Core) (g : Binding → Binding) : (x.mapBindings g).x = x.x := rfl
@[simp] theorem mapBindings_klq (x : Core) (g : Binding → Binding) : (x.mapBindings g).klq = x.klq := rfl
@[simp] theorem mapBindings_xl (x : Core) (g : Binding → Binding) : (x.mapBindings g).xl = x.xl := rfl
@[simp] theorem mapBindings_loops (x : Core) (g : Binding → Binding) : (x.mapBindings g).loops = x.loops := rfl
@[simp] theorem mapBindings_bankS (x : Core) (g : Binding → Binding) : (x.mapBindings g).bankS = x.bankS := rfl
@[simp] theorem mapBindings_bankH (x : Core) (g : Binding → Binding) : (x.mapBindings g).bankH = x.bankH := rfl
@[simp] theorem mapBindings_ctl (x : Core) (g : Binding → Binding) : (x.mapBindings g).ctl = x.ctl := rfl
@[simp] theorem mapBindings_q (x : Core) (g : Binding → Binding) : (x.mapBindings g).q = x.q := rfl
@[simp] theorem mapBindings_fl (x : Core) (g : Binding → Binding) : (x.mapBindings g).fl = x.fl := rfl
@[simp] theorem mapBindings_tls (x : Core) (g : Binding → Binding) : (x.mapBindings g).tls = x.tls := rfl
@[simp] theorem mapBindings_unbound (x : Core) (g : Binding → Binding) : (x.mapBindings g).unbound = x.unbound := rfl
@[simp] theorem mapBindings_books (x : Core) (g : Binding → Binding) : (x.mapBindings g).books = x.books := rfl
@[simp] theorem mapBindings_ctx (x : Core) (g : Binding → Binding) : (x.mapBindings g).ctx = x.ctx := rfl
@[simp] theorem mapBindings_noise (x : Core) (g : Binding → Binding) : (x.mapBindings g).noise = x.noise := rfl
@[simp] theorem updReg_tiles (x : Core) (r : Nat) (g : SReg → SReg) : (x.updReg r g).tiles = x.tiles := by unfold Core.updReg; split <;> rfl
@[simp] theorem updReg_k (x : Core) (r : Nat) (g : SReg → SReg) : (x.updReg r g).k = x.k := by unfold Core.updReg; split <;> rfl
@[simp] theorem updReg_x (x : Core) (r : Nat) (g : SReg → SReg) : (x.updReg r g).x = x.x := by unfold Core.updReg; split <;> rfl
@[simp] theorem updReg_klq (x : Core) (r : Nat) (g : SReg → SReg) : (x.updReg r g).klq = x.klq := by unfold Core.updReg; split <;> rfl
@[simp] theorem updReg_xl (x : Core) (r : Nat) (g : SReg → SReg) : (x.updReg r g).xl = x.xl := by unfold Core.updReg; split <;> rfl
@[simp] theorem updReg_loops (x : Core) (r : Nat) (g : SReg → SReg) : (x.updReg r g).loops = x.loops := by unfold Core.updReg; split <;> rfl
@[simp] theorem updReg_bankS (x : Core) (r : Nat) (g : SReg → SReg) : (x.updReg r g).bankS = x.bankS := by unfold Core.updReg; split <;> rfl
@[simp] theorem updReg_bankH (x : Core) (r : Nat) (g : SReg → SReg) : (x.updReg r g).bankH = x.bankH := by unfold Core.updReg; split <;> rfl
@[simp] theorem updReg_ctl (x : Core) (r : Nat) (g : SReg → SReg) : (x.updReg r g).ctl = x.ctl := by unfold Core.updReg; split <;> rfl
@[simp] theorem updReg_q (x : Core) (r : Nat) (g : SReg → SReg) : (x.updReg r g).q = x.q := by unfold Core.updReg; split <;> rfl
@[simp] theorem updReg_fl (x : Core) (r : Nat) (g : SReg → SReg) : (x.updReg r g).fl = x.fl := by unfold Core.updReg; split <;> rfl
@[simp] theorem updReg_tls (x : Core) (r : Nat) (g : SReg → SReg) : (x.updReg r g).tls = x.tls := by unfold Core.updReg; split <;> rfl
@[simp] theorem updReg_strm (x : Core) (r : Nat) (g : SReg → SReg) : (x.updReg r g).strm = x.strm := by unfold Core.updReg; split <;> rfl
@[simp] theorem updReg_ended (x : Core) (r : Nat) (g : SReg → SReg) : (x.updReg r g).ended = x.ended := by unfold Core.updReg; split <;> rfl
@[simp] theorem updReg_unbound (x : Core) (r : Nat) (g : SReg → SReg) : (x.updReg r g).unbound = x.unbound := by unfold Core.updReg; split <;> rfl
@[simp] theorem updReg_books (x : Core) (r : Nat) (g : SReg → SReg) : (x.updReg r g).books = x.books := by unfold Core.updReg; split <;> rfl
@[simp] theorem updReg_ctx (x : Core) (r : Nat) (g : SReg → SReg) : (x.updReg r g).ctx = x.ctx := by unfold Core.updReg; split <;> rfl
@[simp] theorem updReg_noise (x : Core) (r : Nat) (g : SReg → SReg) : (x.updReg r g).noise = x.noise := by unfold Core.updReg; split <;> rfl
@[simp] theorem write_tiles (x : Core) (r : Nat) (v : W64) (p : Bool) : (x.write r v p).tiles = x.tiles := by unfold Core.write; split <;> simp
@[simp] theorem write_k (x : Core) (r : Nat) (v : W64) (p : Bool) : (x.write r v p).k = x.k := by unfold Core.write; split <;> simp
@[simp] theorem write_x (x : Core) (r : Nat) (v : W64) (p : Bool) : (x.write r v p).x = x.x := by unfold Core.write; split <;> simp
@[simp] theorem write_klq (x : Core) (r : Nat) (v : W64) (p : Bool) : (x.write r v p).klq = x.klq := by unfold Core.write; split <;> simp
@[simp] theorem write_xl (x : Core) (r : Nat) (v : W64) (p : Bool) : (x.write r v p).xl = x.xl := by unfold Core.write; split <;> simp
@[simp] theorem write_loops (x : Core) (r : Nat) (v : W64) (p : Bool) : (x.write r v p).loops = x.loops := by unfold Core.write; split <;> simp
@[simp] theorem write_bankS (x : Core) (r : Nat) (v : W64) (p : Bool) : (x.write r v p).bankS = x.bankS := by unfold Core.write; split <;> simp
@[simp] theorem write_bankH (x : Core) (r : Nat) (v : W64) (p : Bool) : (x.write r v p).bankH = x.bankH := by unfold Core.write; split <;> simp
@[simp] theorem write_ctl (x : Core) (r : Nat) (v : W64) (p : Bool) : (x.write r v p).ctl = x.ctl := by unfold Core.write; split <;> simp
@[simp] theorem write_q (x : Core) (r : Nat) (v : W64) (p : Bool) : (x.write r v p).q = x.q := by unfold Core.write; split <;> simp
@[simp] theorem write_fl (x : Core) (r : Nat) (v : W64) (p : Bool) : (x.write r v p).fl = x.fl := by unfold Core.write; split <;> simp
@[simp] theorem write_tls (x : Core) (r : Nat) (v : W64) (p : Bool) : (x.write r v p).tls = x.tls := by unfold Core.write; split <;> simp
@[simp] theorem write_strm (x : Core) (r : Nat) (v : W64) (p : Bool) : (x.write r v p).strm = x.strm := by unfold Core.write; split <;> simp
@[simp] theorem write_ended (x : Core) (r : Nat) (v : W64) (p : Bool) : (x.write r v p).ended = x.ended := by unfold Core.write; split <;> simp
@[simp] theorem write_unbound (x : Core) (r : Nat) (v : W64) (p : Bool) : (x.write r v p).unbound = x.unbound := by unfold Core.write; split <;> simp
@[simp] theorem write_books (x : Core) (r : Nat) (v : W64) (p : Bool) : (x.write r v p).books = x.books := by unfold Core.write; split <;> simp
@[simp] theorem write_ctx (x : Core) (r : Nat) (v : W64) (p : Bool) : (x.write r v p).ctx = x.ctx := by unfold Core.write; split <;> simp
@[simp] theorem write_noise (x : Core) (r : Nat) (v : W64) (p : Bool) : (x.write r v p).noise = x.noise := by unfold Core.write; split <;> simp
@[simp] theorem pendReg_tiles (x : Core) (r : Nat) : (x.pendReg r).tiles = x.tiles := by unfold Core.pendReg; split <;> simp
@[simp] theorem pendReg_k (x : Core) (r : Nat) : (x.pendReg r).k = x.k := by unfold Core.pendReg; split <;> simp
@[simp] theorem pendReg_x (x : Core) (r : Nat) : (x.pendReg r).x = x.x := by unfold Core.pendReg; split <;> simp
@[simp] theorem pendReg_klq (x : Core) (r : Nat) : (x.pendReg r).klq = x.klq := by unfold Core.pendReg; split <;> simp
@[simp] theorem pendReg_xl (x : Core) (r : Nat) : (x.pendReg r).xl = x.xl := by unfold Core.pendReg; split <;> simp
@[simp] theorem pendReg_loops (x : Core) (r : Nat) : (x.pendReg r).loops = x.loops := by unfold Core.pendReg; split <;> simp
@[simp] theorem pendReg_bankS (x : Core) (r : Nat) : (x.pendReg r).bankS = x.bankS := by unfold Core.pendReg; split <;> simp
@[simp] theorem pendReg_bankH (x : Core) (r : Nat) : (x.pendReg r).bankH = x.bankH := by unfold Core.pendReg; split <;> simp
@[simp] theorem pendReg_ctl (x : Core) (r : Nat) : (x.pendReg r).ctl = x.ctl := by unfold Core.pendReg; split <;> simp
@[simp] theorem pendReg_q (x : Core) (r : Nat) : (x.pendReg r).q = x.q := by unfold Core.pendReg; split <;> simp
@[simp] theorem pendReg_fl (x : Core) (r : Nat) : (x.pendReg r).fl = x.fl := by unfold Core.pendReg; split <;> simp
@[simp] theorem pendReg_tls (x : Core) (r : Nat) : (x.pendReg r).tls = x.tls := by unfold Core.pendReg; split <;> simp
@[simp] theorem pendReg_strm (x : Core) (r : Nat) : (x.pendReg r).strm = x.strm := by unfold Core.pendReg; split <;> simp
@[simp] theorem pendReg_ended (x : Core) (r : Nat) : (x.pendReg r).ended = x.ended := by unfold Core.pendReg; split <;> simp
@[simp] theorem pendReg_unbound (x : Core) (r : Nat) : (x.pendReg r).unbound = x.unbound := by unfold Core.pendReg; split <;> simp
@[simp] theorem pendReg_books (x : Core) (r : Nat) : (x.pendReg r).books = x.books := by unfold Core.pendReg; split <;> simp
@[simp] theorem pendReg_ctx (x : Core) (r : Nat) : (x.pendReg r).ctx = x.ctx := by unfold Core.pendReg; split <;> simp
@[simp] theorem pendReg_noise (x : Core) (r : Nat) : (x.pendReg r).noise = x.noise := by unfold Core.pendReg; split <;> simp
@[simp] theorem release_tiles (x : Core) (r : Nat) : (x.release r).tiles = x.tiles := by simp [Core.release]
@[simp] theorem release_k (x : Core) (r : Nat) : (x.release r).k = x.k := by simp [Core.release]
@[simp] theorem release_x (x : Core) (r : Nat) : (x.release r).x = x.x := by simp [Core.release]
@[simp] theorem release_klq (x : Core) (r : Nat) : (x.release r).klq = x.klq := by simp [Core.release]
@[simp] theorem release_xl (x : Core) (r : Nat) : (x.release r).xl = x.xl := by simp [Core.release]
@[simp] theorem release_loops (x : Core) (r : Nat) : (x.release r).loops = x.loops := by simp [Core.release]
@[simp] theorem release_bankS (x : Core) (r : Nat) : (x.release r).bankS = x.bankS := by simp [Core.release]
@[simp] theorem release_bankH (x : Core) (r : Nat) : (x.release r).bankH = x.bankH := by simp [Core.release]
@[simp] theorem release_ctl (x : Core) (r : Nat) : (x.release r).ctl = x.ctl := by simp [Core.release]
@[simp] theorem release_q (x : Core) (r : Nat) : (x.release r).q = x.q := by simp [Core.release]
@[simp] theorem release_fl (x : Core) (r : Nat) : (x.release r).fl = x.fl := by simp [Core.release]
@[simp] theorem release_tls (x : Core) (r : Nat) : (x.release r).tls = x.tls := by simp [Core.release]
@[simp] theorem release_strm (x : Core) (r : Nat) : (x.release r).strm = x.strm := by simp [Core.release]
@[simp] theorem release_ended (x : Core) (r : Nat) : (x.release r).ended = x.ended := by simp [Core.release]
@[simp] theorem release_unbound (x : Core) (r : Nat) : (x.release r).unbound = x.unbound := by simp [Core.release]
@[simp] theorem release_books (x : Core) (r : Nat) : (x.release r).books = x.books := by simp [Core.release]
@[simp] theorem release_ctx (x : Core) (r : Nat) : (x.release r).ctx = x.ctx := by simp [Core.release]
@[simp] theorem release_noise (x : Core) (r : Nat) : (x.release r).noise = x.noise := by simp [Core.release]
@[simp] theorem land_tiles (x : Core) (r : Nat) (v : W64) (p : Bool) : (x.land r v p).tiles = x.tiles := by unfold Core.land; split <;> [(split <;> simp); simp]
@[simp] theorem land_k (x : Core) (r : Nat) (v : W64) (p : Bool) : (x.land r v p).k = x.k := by unfold Core.land; split <;> [(split <;> simp); simp]
@[simp] theorem land_x (x : Core) (r : Nat) (v : W64) (p : Bool) : (x.land r v p).x = x.x := by unfold Core.land; split <;> [(split <;> simp); simp]
@[simp] theorem land_klq (x : Core) (r : Nat) (v : W64) (p : Bool) : (x.land r v p).klq = x.klq := by unfold Core.land; split <;> [(split <;> simp); simp]
@[simp] theorem land_xl (x : Core) (r : Nat) (v : W64) (p : Bool) : (x.land r v p).xl = x.xl := by unfold Core.land; split <;> [(split <;> simp); simp]
@[simp] theorem land_loops (x : Core) (r : Nat) (v : W64) (p : Bool) : (x.land r v p).loops = x.loops := by unfold Core.land; split <;> [(split <;> simp); simp]
@[simp] theorem land_bankS (x : Core) (r : Nat) (v : W64) (p : Bool) : (x.land r v p).bankS = x.bankS := by unfold Core.land; split <;> [(split <;> simp); simp]
@[simp] theorem land_bankH (x : Core) (r : Nat) (v : W64) (p : Bool) : (x.land r v p).bankH = x.bankH := by unfold Core.land; split <;> [(split <;> simp); simp]
@[simp] theorem land_q (x : Core) (r : Nat) (v : W64) (p : Bool) : (x.land r v p).q = x.q := by unfold Core.land; split <;> [(split <;> simp); simp]
@[simp] theorem land_fl (x : Core) (r : Nat) (v : W64) (p : Bool) : (x.land r v p).fl = x.fl := by unfold Core.land; split <;> [(split <;> simp); simp]
@[simp] theorem land_tls (x : Core) (r : Nat) (v : W64) (p : Bool) : (x.land r v p).tls = x.tls := by unfold Core.land; split <;> [(split <;> simp); simp]
@[simp] theorem land_strm (x : Core) (r : Nat) (v : W64) (p : Bool) : (x.land r v p).strm = x.strm := by unfold Core.land; split <;> [(split <;> simp); simp]
@[simp] theorem land_ended (x : Core) (r : Nat) (v : W64) (p : Bool) : (x.land r v p).ended = x.ended := by unfold Core.land; split <;> [(split <;> simp); simp]
@[simp] theorem land_unbound (x : Core) (r : Nat) (v : W64) (p : Bool) : (x.land r v p).unbound = x.unbound := by unfold Core.land; split <;> [(split <;> simp); simp]
@[simp] theorem land_books (x : Core) (r : Nat) (v : W64) (p : Bool) : (x.land r v p).books = x.books := by unfold Core.land; split <;> [(split <;> simp); simp]
@[simp] theorem land_ctx (x : Core) (r : Nat) (v : W64) (p : Bool) : (x.land r v p).ctx = x.ctx := by unfold Core.land; split <;> [(split <;> simp); simp]
@[simp] theorem land_noise (x : Core) (r : Nat) (v : W64) (p : Bool) : (x.land r v p).noise = x.noise := by unfold Core.land; split <;> [(split <;> simp); simp]
@[simp] theorem coreIssued_regs (x : Core) (e : Engine) (r n : Nat) : (x.issued e r n).regs = x.regs := by cases e <;> rfl
@[simp] theorem coreIssued_tiles (x : Core) (e : Engine) (r n : Nat) : (x.issued e r n).tiles = x.tiles := by cases e <;> rfl
@[simp] theorem coreIssued_k (x : Core) (e : Engine) (r n : Nat) : (x.issued e r n).k = x.k := by cases e <;> rfl
@[simp] theorem coreIssued_x (x : Core) (e : Engine) (r n : Nat) : (x.issued e r n).x = x.x := by cases e <;> rfl
@[simp] theorem coreIssued_klq (x : Core) (e : Engine) (r n : Nat) : (x.issued e r n).klq = x.klq := by cases e <;> rfl
@[simp] theorem coreIssued_xl (x : Core) (e : Engine) (r n : Nat) : (x.issued e r n).xl = x.xl := by cases e <;> rfl
@[simp] theorem coreIssued_loops (x : Core) (e : Engine) (r n : Nat) : (x.issued e r n).loops = x.loops := by cases e <;> rfl
@[simp] theorem coreIssued_bankS (x : Core) (e : Engine) (r n : Nat) : (x.issued e r n).bankS = x.bankS := by cases e <;> rfl
@[simp] theorem coreIssued_bankH (x : Core) (e : Engine) (r n : Nat) : (x.issued e r n).bankH = x.bankH := by cases e <;> rfl
@[simp] theorem coreIssued_fl (x : Core) (e : Engine) (r n : Nat) : (x.issued e r n).fl = x.fl := by cases e <;> rfl
@[simp] theorem coreIssued_tls (x : Core) (e : Engine) (r n : Nat) : (x.issued e r n).tls = x.tls := by cases e <;> rfl
@[simp] theorem coreIssued_strm (x : Core) (e : Engine) (r n : Nat) : (x.issued e r n).strm = x.strm := by cases e <;> rfl
@[simp] theorem coreIssued_ended (x : Core) (e : Engine) (r n : Nat) : (x.issued e r n).ended = x.ended := by cases e <;> rfl
@[simp] theorem coreIssued_unbound (x : Core) (e : Engine) (r n : Nat) : (x.issued e r n).unbound = x.unbound := by cases e <;> rfl
@[simp] theorem coreIssued_books (x : Core) (e : Engine) (r n : Nat) : (x.issued e r n).books = x.books := by cases e <;> rfl
@[simp] theorem coreIssued_ctx (x : Core) (e : Engine) (r n : Nat) : (x.issued e r n).ctx = x.ctx := by cases e <;> rfl
@[simp] theorem coreIssued_noise (x : Core) (e : Engine) (r n : Nat) : (x.issued e r n).noise = x.noise := by cases e <;> rfl

/-! ### Units after an update -/

theorem die_updDie (s : State) (d e : Nat) (g : Die → Die) :
    (s.updDie d g).die e = if d = e ∧ e < s.dies.length then g (s.die e) else s.die e := by
  simp only [State.die, State.updDie, List.getElem?_modify]
  by_cases h : d = e
  · subst h
    by_cases hl : d < s.dies.length
    · simp [hl]
    · simp [hl]
  · simp [h]

@[simp] theorem die_updDie_same (s : State) (d : Nat) (g : Die → Die) (h : s.hasDie d = true) :
    (s.updDie d g).die d = g (s.die d) := by
  have : d < s.dies.length := by simpa [State.hasDie] using h
  simp [die_updDie, this]

@[simp] theorem die_updDie_other (s : State) (d e : Nat) (g : Die → Die) (h : d ≠ e) :
    (s.updDie d g).die e = s.die e := by simp [die_updDie, h]

@[simp] theorem die_updPkg (s : State) (p : Nat) (g : Pkg → Pkg) (e : Nat) : (s.updPkg p g).die e = s.die e := rfl
@[simp] theorem core_updPkg (s : State) (p : Nat) (g : Pkg → Pkg) (d c : Nat) : (s.updPkg p g).core d c = s.core d c := rfl
@[simp] theorem pkg_updDie (s : State) (d : Nat) (g : Die → Die) (p : Nat) : (s.updDie d g).pkg p = s.pkg p := rfl
@[simp] theorem pkg_updCore (s : State) (d c : Nat) (g : Core → Core) (p : Nat) : (s.updCore d c g).pkg p = s.pkg p := rfl
@[simp] theorem pkg_updMe (s : State) (g : Core → Core) (p : Nat) : (s.updMe g).pkg p = s.pkg p := rfl

@[simp] theorem dies_length_updDie (s : State) (d : Nat) (g : Die → Die) : (s.updDie d g).dies.length = s.dies.length := by
  simp [State.updDie]
@[simp] theorem hasDie_updDie (s : State) (d e : Nat) (g : Die → Die) : (s.updDie d g).hasDie e = s.hasDie e := by
  simp [State.hasDie]
@[simp] theorem dies_length_updCore (s : State) (d c : Nat) (g : Core → Core) :
    (s.updCore d c g).dies.length = s.dies.length := by simp [State.updCore]
@[simp] theorem hasDie_updCore (s : State) (d c e : Nat) (g : Core → Core) : (s.updCore d c g).hasDie e = s.hasDie e := by
  simp [State.hasDie]

/-- The core an update changes, and every other. -/
theorem core_updCore (s : State) (d c d' c' : Nat) (g : Core → Core) (h : s.hasCore d c = true) :
    (s.updCore d c g).core d' c' = if d = d' ∧ c = c' then g (s.core d c) else s.core d' c' := by
  simp only [State.hasCore, State.hasDie, Bool.and_eq_true, decide_eq_true_eq] at h
  obtain ⟨hd, hc⟩ := h
  by_cases e : d = d'
  · subst e
    have h1 : (s.updCore d c g).die d = (s.die d).updCore c g := by simp [State.updCore, die_updDie, hd]
    simp only [State.core, h1, Die.updCore, List.getElem?_modify]
    by_cases e2 : c = c'
    · subst e2; simp [hc]
    · simp [e2]
  · have h1 : (s.updCore d c g).die d' = s.die d' := by simp [State.updCore, e]
    simp [State.core, h1, e]

@[simp] theorem core_updCore_same (s : State) (d c : Nat) (g : Core → Core) (h : s.hasCore d c = true) :
    (s.updCore d c g).core d c = g (s.core d c) := by simp [core_updCore, h]

theorem core_updCore_other (s : State) (d c d' c' : Nat) (g : Core → Core) (h : s.hasCore d c = true) (n : ¬ (d = d' ∧ c = c')) :
    (s.updCore d c g).core d' c' = s.core d' c' := by simp [core_updCore, h, n]

@[simp] theorem hasCore_updCore (s : State) (d c d' c' : Nat) (g : Core → Core) :
    (s.updCore d c g).hasCore d' c' = s.hasCore d' c' := by
  simp only [State.hasCore, State.updCore, die_updDie]
  by_cases h : d = d' ∧ d' < s.dies.length
  · simp [h, Die.updCore]
  · simp [h]

@[simp] theorem me_updMe (s : State) (g : Core → Core) (h : s.focusOk = true) : (s.updMe g).me = g s.me := by
  simp only [State.me, State.updMe, updCore_cur]
  exact core_updCore_same s _ _ g h
@[simp] theorem focusOk_updMe (s : State) (g : Core → Core) : (s.updMe g).focusOk = s.focusOk := by
  simp only [State.focusOk, updMe_cur]
  exact hasCore_updCore s _ _ _ _ g
@[simp] theorem focusOk_issued (s : State) : s.issued.focusOk = s.focusOk := focusOk_updMe s _
@[simp] theorem me_issued (s : State) (h : s.focusOk = true) :
    s.issued.me = s.me.issued s.cur.engine s.cur.rep s.cur.reps := me_updMe s _ h

/-- The memories of a die are not those of its cores. -/
@[simp] theorem stack_updCore (s : State) (d c e : Nat) (g : Core → Core) : ((s.updCore d c g).die e).stack = (s.die e).stack := by
  simp only [State.updCore, die_updDie]; split <;> rfl
@[simp] theorem basin_updCore (s : State) (d c e : Nat) (g : Core → Core) : ((s.updCore d c g).die e).basin = (s.die e).basin := by
  simp only [State.updCore, die_updDie]; split <;> rfl
@[simp] theorem readPa_updCore (s : State) (d c : Nat) (g : Core → Core) (e k a n : Nat) :
    (s.updCore d c g).readPa e k a n = s.readPa e k a n := by
  simp only [State.readPa, stack_updCore, basin_updCore, pkg_updCore]
@[simp] theorem readPa_updMe (s : State) (g : Core → Core) (e k a n : Nat) : (s.updMe g).readPa e k a n = s.readPa e k a n :=
  readPa_updCore s _ _ g e k a n
@[simp] theorem readPa_issued (s : State) (e k a n : Nat) : s.issued.readPa e k a n = s.readPa e k a n := readPa_updMe s _ e k a n

/-! ### Scalar registers (R98 to R100) -/

@[simp] theorem reg_zero (x : Core) : x.reg 0 = ⟨0, false, false⟩ := by simp [Core.reg]
@[simp] theorem val_zero (x : Core) : x.val 0 = 0 := by simp [Core.val]
@[simp] theorem poisoned_zero (x : Core) : x.poisoned 0 = false := by simp [Core.poisoned]
/-- A register stalls for its pending bit or, where it holds a barrier's token, for the reads before it (R99, R212). -/
theorem stalls_eq_false {x : Core} {r : Nat} :
    x.stalls r = false ↔ ((x.reg r).pend = false ∨ x.heldPending r = true) ∧ x.acquires r = false := by
  cases h : x.heldPending r <;> cases k : (x.reg r).pend <;> simp [Core.stalls, h, k]
/-- No register is an acquire in a core with no read outstanding. -/
@[simp] theorem acquires_of_loadsBack {x : Core} (h : x.loadsBack = true) (r : Nat) : x.acquires r = false := by
  simp [Core.acquires, h]

/-- A register after an update of a register. -/
theorem reg_updReg (x : Core) (r q : Nat) (g : SReg → SReg) :
    (x.updReg r g).reg q = if r = q ∧ r ≠ 0 ∧ r < x.regs.length then g (x.reg q) else x.reg q := by
  unfold Core.updReg Core.reg
  by_cases h0 : r = 0
  · simp [h0]
  · by_cases hq : q = 0
    · subst hq; simp [h0]
    · simp only [h0, hq, if_false, List.getElem?_modify]
      by_cases e : r = q
      · subst e
        by_cases hl : r < x.regs.length
        · simp [hl, h0]
        · simp [hl]
      · simp [e]

theorem reg_updReg_other (x : Core) (r q : Nat) (g : SReg → SReg) (h : r ≠ q) : (x.updReg r g).reg q = x.reg q := by
  simp [reg_updReg, h]

/-- What a C lane's write leaves in a register. -/
theorem reg_write (x : Core) (r q : Nat) (v : W64) (p : Bool) :
    (x.write r v p).reg q = if r = q ∧ r ≠ 0 ∧ r < x.regs.length ∧ x.heldPending r = false then ⟨v, false, p⟩ else x.reg q := by
  unfold Core.write
  by_cases h : x.heldPending r = true
  · simp [h]
  · have h' : x.heldPending r = false := by simpa using h
    simp [h', reg_updReg]

theorem reg_write_other (x : Core) (r q : Nat) (v : W64) (p : Bool) (h : r ≠ q) : (x.write r v p).reg q = x.reg q := by
  simp [reg_write, h]

theorem write_zero (x : Core) (v : W64) (p : Bool) : x.write 0 v p = x := by
  unfold Core.write Core.updReg; split <;> simp

end Sys2Proof.Machine
end

