-- ==== Sys2Proof/Laws/Memory.lean ====
section
/-!
SUPPORT. Sys2Proof/Laws/Memory.lean: the canonical form of memory is kept by every operation on it, and a read after a
write gives what was written there and what stood elsewhere.
-/
namespace Sys2Proof.Machine
open Sys2Proof

/-! ### The canonical form -/

theorem wfFrom_mono {l : List Host.Cell} {lo lo' : Nat} (h : Memory.wfFrom l lo = true) (k : lo' ≤ lo) :
    Memory.wfFrom l lo' = true := by
  cases l with
  | nil => rfl
  | cons p t =>
    obtain ⟨a, v⟩ := p
    simp only [Memory.wfFrom, Bool.and_eq_true, decide_eq_true_eq] at h ⊢
    exact ⟨⟨by omega, h.1.2⟩, h.2⟩

theorem writeCells_wf (l : List Host.Cell) (a : Nat) (v : Byte) (lo : Nat) (h : Memory.wfFrom l lo = true) (k : lo ≤ a) :
    Memory.wfFrom (writeCells l a v) lo = true := by
  induction l generalizing lo with
  | nil => unfold writeCells; split <;> simp_all [Memory.wfFrom]
  | cons p t ih =>
    obtain ⟨b, w⟩ := p
    simp only [Memory.wfFrom, Bool.and_eq_true, decide_eq_true_eq] at h
    obtain ⟨⟨h1, h2⟩, h3⟩ := h
    unfold writeCells
    split
    · split
      · simp [Memory.wfFrom, h1, h2, h3]
      · rename_i hab hv
        have : a + 1 ≤ b := by omega
        simp [Memory.wfFrom, h2, h3, k, this]
        exact hv
    · split
      · split
        · exact wfFrom_mono h3 (by omega)
        · rename_i hab hv
          subst hab
          simp [Memory.wfFrom, h3, k]
          exact hv
      · have := ih (b + 1) h3 (by omega)
        simp [Memory.wfFrom, h1, h2, this]

theorem filter_wf (l : List Host.Cell) (p : Host.Cell → Bool) (lo : Nat) (h : Memory.wfFrom l lo = true) :
    Memory.wfFrom (l.filter p) lo = true := by
  induction l generalizing lo with
  | nil => rfl
  | cons c t ih =>
    obtain ⟨b, w⟩ := c
    simp only [Memory.wfFrom, Bool.and_eq_true, decide_eq_true_eq] at h
    have := ih (b + 1) h.2
    rw [List.filter_cons]
    split
    · simp [Memory.wfFrom, h.1.1, h.1.2, this]
    · exact wfFrom_mono this (by omega)

theorem Memory.put_wf (m : Memory) (a : Nat) (v : Byte) (h : m.wf = true) : (m.put a v).wf = true :=
  writeCells_wf _ _ _ _ h (Nat.zero_le a)

theorem Memory.putN_wf (m : Memory) (a : Nat) (bs : List Byte) (h : m.wf = true) : (m.putN a bs).wf = true := by
  induction bs generalizing m a with
  | nil => exact h
  | cons v vs ih => exact ih _ _ (m.put_wf a v h)

theorem Store.empty_wf : Store.empty.bytes.wf = true := rfl

theorem Store.mark_wf (m : Store) (l : Nat) (h : m.bytes.wf = true) : (m.mark l).bytes.wf = true := Memory.putN_wf _ _ _ h

theorem Store.putLine_wf (m : Store) (k l : Nat) (bs : List Byte) (h : m.bytes.wf = true) : (m.putLine k l bs).bytes.wf = true :=
  Memory.putN_wf _ _ _ h

theorem Store.putPart_wf (m : Store) (k a : Nat) (bs : List Byte) (h : m.bytes.wf = true) : (m.putPart k a bs).bytes.wf = true := by
  unfold Store.putPart
  split
  · exact m.putLine_wf _ _ _ h
  · split
    · exact h
    · split
      · exact Memory.putN_wf _ _ _ h
      · exact Memory.putN_wf _ _ _ (Memory.putN_wf _ _ _ h)

theorem Store.writeFuel_wf (n : Nat) (m : Store) (k a : Nat) (bs : List Byte) (h : m.bytes.wf = true) :
    (Store.writeFuel n m k a bs).bytes.wf = true := by
  induction n generalizing m a bs with
  | zero => exact h
  | succ n ih =>
    unfold Store.writeFuel
    split
    · exact h
    · exact ih _ _ _ (m.putPart_wf _ _ _ h)

theorem Store.write_wf (m : Store) (k a : Nat) (bs : List Byte) (h : m.bytes.wf = true) : (m.write k a bs).bytes.wf = true := by
  unfold Store.write
  exact Store.writeFuel_wf _ m k a bs h

theorem Store.zeroRange_wf (m : Store) (a n : Nat) (h : m.bytes.wf = true) : (m.zeroRange a n).bytes.wf = true := by
  simp only [Store.zeroRange, Memory.wf]
  exact filter_wf _ _ _ h

theorem Store.foldl_mark_wf (ls : List Nat) (m : Store) (h : m.bytes.wf = true) :
    (ls.foldl Store.mark m).bytes.wf = true := by
  induction ls generalizing m with
  | nil => exact h
  | cons l t ih =>
    rw [List.foldl_cons]
    exact ih (m.mark l) (m.mark_wf l h)

/-! ### A read after a write -/

theorem readCells_below (l : List Host.Cell) (a lo : Nat) (h : Memory.wfFrom l lo = true) (k : a < lo) : readCells l a = 0 := by
  cases l with
  | nil => rfl
  | cons p t =>
    obtain ⟨b, w⟩ := p
    simp only [Memory.wfFrom, Bool.and_eq_true, decide_eq_true_eq] at h
    have h1 : a ≠ b := by omega
    have h2 : a < b := by omega
    simp [readCells, h1, h2]

theorem readCells_writeCells (l : List Host.Cell) (a : Nat) (v : Byte) (lo x : Nat) (h : Memory.wfFrom l lo = true) :
    readCells (writeCells l a v) x = if x = a then v else readCells l x := by
  induction l generalizing lo with
  | nil =>
    unfold writeCells
    split <;> by_cases e : x = a <;> simp_all [readCells]
  | cons p t ih =>
    obtain ⟨b, w⟩ := p
    simp only [Memory.wfFrom, Bool.and_eq_true, decide_eq_true_eq] at h
    obtain ⟨⟨h1, h2⟩, h3⟩ := h
    unfold writeCells
    split
    · rename_i hab
      split
      · by_cases e : x = a
        · subst e
          have : x ≠ b := by omega
          simp_all [readCells]
        · simp [e]
      · by_cases e : x = a
        · simp [readCells, e]
        · by_cases e2 : x < a
          · have n1 : x ≠ b := by omega
            have n2 : x < b := by omega
            simp [readCells, e, e2, n1, n2]
          · simp [readCells, e, e2]
    · split
      · rename_i hab hv
        subst hv
        split
        · by_cases e : x = a
          · subst e
            rename_i hz
            simp [hz, readCells_below _ _ _ h3 (Nat.lt_succ_self x)]
          · by_cases e2 : x < a
            · simp [readCells, e, e2, readCells_below _ _ _ h3 (show x < a + 1 by omega)]
            · simp [readCells, e, e2]
        · by_cases e : x = a
          · simp [readCells, e]
          · simp [readCells, e]
      · have := ih (b + 1) h3
        by_cases e : x = a
        · subst e
          have n1 : x ≠ b := by omega
          have n2 : ¬ x < b := by omega
          simp [readCells, n1, n2, this]
        · simp [readCells, this, e]

theorem Memory.get_put (m : Memory) (a x : Nat) (v : Byte) (h : m.wf = true) :
    (m.put a v).get x = if x = a then v else m.get x := readCells_writeCells _ _ _ _ _ h

theorem Memory.get_put_same (m : Memory) (a : Nat) (v : Byte) (h : m.wf = true) : (m.put a v).get a = v := by
  simp [m.get_put a a v h]

theorem Memory.get_put_other (m : Memory) (a x : Nat) (v : Byte) (h : m.wf = true) (n : x ≠ a) : (m.put a v).get x = m.get x := by
  simp [m.get_put a x v h, n]

theorem Memory.get_putN (m : Memory) (a x : Nat) (bs : List Byte) (h : m.wf = true) :
    (m.putN a bs).get x = if a ≤ x ∧ x < a + bs.length then (bs[x - a]?).getD 0 else m.get x := by
  induction bs generalizing m a with
  | nil =>
    have : ¬ (a ≤ x ∧ x < a + ([] : List Byte).length) := by simp
    simp only [this, if_false]; rfl
  | cons v vs ih =>
    show ((m.put a v).putN (a + 1) vs).get x = _
    rw [ih _ _ (m.put_wf a v h)]
    by_cases h1 : a + 1 ≤ x ∧ x < a + 1 + vs.length
    · have h2 : a ≤ x ∧ x < a + (v :: vs).length := by simp; omega
      have h3 : x - a = (x - (a + 1)) + 1 := by omega
      simp only [h1, h2, and_self, if_true, h3, List.getElem?_cons_succ]
    · by_cases h4 : x = a
      · subst h4
        simp [m.get_put_same x v h]
      · have h2 : ¬ (a ≤ x ∧ x < a + (v :: vs).length) := by simp; omega
        simp only [h1, h2, if_false, m.get_put_other a x v h h4]

theorem Memory.get_putN_other (m : Memory) (a x : Nat) (bs : List Byte) (h : m.wf = true) (n : x < a ∨ a + bs.length ≤ x) :
    (m.putN a bs).get x = m.get x := by
  rw [m.get_putN a x bs h, if_neg (by omega)]

end Sys2Proof.Machine
end

