-- ==== Sys2Proof/Laws/Ops.lean ====
section
/-!
SUPPORT. Sys2Proof/Laws/Ops.lean: what the shared operations can do, said once: taking an exception (R258 to R262), the
one way of a vector instruction (R133, R134), issuing a command (R43, R203), and that they keep the memories canonical.
-/
namespace Sys2Proof.Machine
open Sys2Proof Sys2Proof.Safety

/-! ### Taking an exception -/

/-- A trap goes to S or H, never to a lower level than the one it comes from, and from A or S to a higher one. -/
theorem trapTarget_range {x : Core} {lvl : Nat} {toH : Bool} {t : Nat} (h : trapTarget x lvl toH = some t) :
    lvl < t ∧ (t = 1 ∨ t = 2) ∧ lvl ≤ 1 := by
  unfold trapTarget at h
  split at h <;> (try split at h) <;> (try split at h) <;> (try split at h) <;> simp_all <;> omega

/-- No trap is taken to a level whose handler is absent. -/
theorem trapTarget_present {x : Core} {lvl : Nat} {toH : Bool} {t : Nat} (h : trapTarget x lvl toH = some t) :
    (x.bank t).vector ≠ 0 := by
  unfold trapTarget at h
  split at h <;> (try split at h) <;> (try split at h) <;> (try split at h) <;> simp_all [Core.bank] <;>
    (subst h; simp_all)

theorem setBank_bank (x : Core) (l : Nat) (g : TrapBank → TrapBank) : (x.setBank l g).bank l = g (x.bank l) := by
  unfold Core.setBank Core.bank; split <;> rfl
theorem setBank_ctl (x : Core) (l : Nat) (g : TrapBank → TrapBank) : (x.setBank l g).ctl = x.ctl := by
  unfold Core.setBank; split <;> rfl

/-- What trap entry writes into the bank of its target level (R261). -/
theorem enterBank_bank (x : Core) (t : Nat) (f : PendFault) :
    (x.enterBank t f).bank t =
      { x.bank t with kcause := BitVec.ofNat 64 (f.cause * 256 + f.sub), ktval := f.tval, kepc := epcWord f.addr f.lane
                      kmpc := BitVec.ofNat 64 f.mpc, kxsyn := f.xsyn.getD (x.bank t).kxsyn, pp := x.ctl.level, skip := false
                      shadow := x.loops, dec := x.ctl.decOf f.rank, line := f.addr, clane := f.clane, rank := f.rank } := by
  unfold Core.enterBank Core.setBank Core.bank; split <;> rfl
@[simp] theorem enterBank_level (x : Core) (t : Nat) (f : PendFault) : (x.enterBank t f).ctl.level = t := rfl
@[simp] theorem enterBank_line (x : Core) (t : Nat) (f : PendFault) : (x.enterBank t f).ctl.line = none := rfl
@[simp] theorem enterBank_faults (x : Core) (t : Nat) (f : PendFault) : (x.enterBank t f).ctl.faults = [] := rfl
@[simp] theorem enterBank_hold (x : Core) (t : Nat) (f : PendFault) : (x.enterBank t f).ctl.hold = x.ctl.hold := rfl
/-- The handler's line is next: KTVEC.LINE of the target level. -/
theorem enterBank_nextLine (x : Core) (t : Nat) (f : PendFault) : (x.enterBank t f).ctl.nextLine = (x.bank t).vector := by
  unfold Core.enterBank Core.setBank Core.bank TrapBank.vector; split <;> rfl
theorem enterBank_regs (x : Core) (t : Nat) (f : PendFault) : (x.enterBank t f).regs = x.regs := by
  unfold Core.enterBank Core.setBank; split <;> rfl
theorem enterBank_tiles (x : Core) (t : Nat) (f : PendFault) : (x.enterBank t f).tiles = x.tiles := by
  unfold Core.enterBank Core.setBank; split <;> rfl

/-- Whether a stop takes the place of a fault at this edge (R402): its REASON. -/
def Core.stopFor (x : Core) (f : PendFault) : Option Nat := if f.yields then x.edgeStop else none

/-- Everything that taking a trap can do: a stop on the same edge is taken instead; the core stops; or the handler of the
target level is next with the context held, and a trap record may follow. -/
theorem takeTrap_cases (s : State) (d c : Nat) (f0 : PendFault) :
    let x := s.core d c
    let f := firstFault f0 x.ctl.faults
    (∃ reason, x.stopFor f = some reason ∧ s.takeTrap d c f0 = s.updCore d c fun x => x.stopNow reason) ∨
    (x.stopFor f = none ∧ trapTarget x x.ctl.level f.toH = none ∧ s.takeTrap d c f0 = s.stopCore d c) ∨
    ∃ t, x.stopFor f = none ∧ trapTarget x x.ctl.level f.toH = some t ∧
      ((x.ctl.hold ≠ none ∧ s.takeTrap d c f0 = (s.updCore d c fun x => x.enterBank t f).trapRecord d c f.cause f.sub f.mpc) ∨
       (x.ctl.hold = none ∧ s.takeTrap d c f0 = ((s.freezeCore d c).updCore d c fun y =>
          (y.enterBank t f).setCtl fun k => { k with hold := some (x.holdOf t) }).trapRecord d c f.cause f.sub f.mpc)) := by
  intro x f
  cases g : x.stopFor f with
  | some reason => exact .inl ⟨reason, rfl, by simp only [Core.stopFor, x, f] at g; simp only [State.takeTrap, g]⟩
  | none =>
    refine .inr ?_
    simp only [Core.stopFor, x, f] at g
    cases h : trapTarget x x.ctl.level f.toH with
    | none => exact .inl ⟨rfl, rfl, by simp only [x, f] at h; simp only [State.takeTrap, g, h]⟩
    | some t =>
      refine .inr ⟨t, rfl, rfl, ?_⟩
      simp only [x, f] at h
      cases k : x.ctl.hold with
      | none => exact .inr ⟨rfl, by simp only [x] at k; simp only [State.takeTrap, g, h, k]; rfl⟩
      | some q => exact .inl ⟨by simp, by simp only [x] at k; simp only [State.takeTrap, g, h, k]; rfl⟩

/-- The faults a meaning raises all take the trap: a next state. -/
theorem raisePend_eq (s : State) (f : PendFault) :
    s.raisePend f = .next ((s.updMe fun x => x.forget s.cur.engine).takeTrap s.cur.die s.cur.core f) := rfl
theorem raise_eq (s : State) (c b : Nat) (v : W64) : s.raise c b v = s.raisePend (s.faultHere c b v) := rfl
theorem illegal_eq (s : State) : s.illegal = s.raise 0x02 0 (BitVec.ofNat 64 s.cur.word) := rfl
theorem formatFault_eq (s : State) : s.formatFault = s.raise 0x03 0 (BitVec.ofNat 64 s.cur.word) := rfl
theorem privFault_eq (s : State) : s.privFault = s.raise 0x12 0 (BitVec.ofNat 64 s.cur.word) := rfl
theorem poisonFault_eq (s : State) (r : Nat) : s.poisonFault r = s.raise 0x07 1 (BitVec.ofNat 64 r) := rfl
theorem stall_eq (s : State) : s.stall = .next s := rfl

/-! ### A vector instruction -/

/-- Everything that a vector instruction can do: it waits and changes nothing; it raises a fault; or, with its words drawn
and nothing in its way, it retires. -/
theorem vrun_cases (s : State) (tm : VTime) (rd wr : List Nat) (sp : Bool) (scal : List Nat)
    (check : (Nat → Tile) → VCheck) (run : (Nat → Src) → List Nat → VOut) :
    let o := s.vrun tm rd wr sp scal check run
    o = .next s ∨ (∃ c b v, o = s.raise c b v) ∨ (∃ t n f, o = s.streamFault t n f) ∨
    ∃ words tag ws s1 n, check s.readTile = .ok words tag ∧ s.draw s.cur.die s.cur.core words = some (ws, s1) ∧
      s.readBar sp rd = .clear ∧ s.writeBar wr = .clear ∧ o = s1.retire rd (tm n tag) (run s.readSrc ws) := by
  intro o
  simp only [o, State.vrun, State.stall, State.illegal, State.formatFault, State.poisonFault, State.tilePoison]
  split
  · exact .inl rfl
  split
  · exact .inr (.inl ⟨_, _, _, rfl⟩)
  split
  · exact .inr (.inl ⟨_, _, _, rfl⟩)
  · exact .inr (.inl ⟨_, _, _, rfl⟩)
  rename_i words tag hc
  split
  · exact .inr (.inl ⟨_, _, _, rfl⟩)
  split
  · exact .inr (.inl ⟨_, _, _, rfl⟩)
  split
  · exact .inl rfl
  · exact .inr (.inl ⟨_, _, _, rfl⟩)
  · exact .inr (.inr (.inl ⟨_, _, _, rfl⟩))
  · exact .inl rfl
  · exact .inr (.inl ⟨_, _, _, rfl⟩)
  · exact .inl rfl
  rename_i hr hw
  split
  · exact .inr (.inl ⟨_, _, _, rfl⟩)
  rename_i ws s1 hd
  split
  · exact .inr (.inl ⟨_, _, _, rfl⟩)
  · exact .inr (.inl ⟨_, _, _, rfl⟩)
  · split
    · exact .inr (.inl ⟨_, _, _, rfl⟩)
    · exact .inr (.inr (.inr ⟨words, tag, ws, s1, _, hc, hd, hr, hw, rfl⟩))

/-! ### Commands -/

/-- The gate of a command: it waits, it is past the last number of its timeline, or it goes on. -/
theorem issueGate_cases (s : State) (tl : TimelineId) (scal : List Nat) (k : State → Out) :
    ((s.eReady scal = false ∨ s.cmdsFull tl = true) ∧ s.issueGate tl scal k = .next s) ∨
    (s.eReady scal = true ∧ s.cmdsFull tl = false ∧ 2 ^ 56 ≤ s.me.nextNum tl ∧ s.issueGate tl scal k = s.illegal) ∨
    (s.eReady scal = true ∧ s.cmdsFull tl = false ∧ s.me.nextNum tl < 2 ^ 56 ∧
      s.issueGate tl scal k = k s) := by
  unfold State.issueGate State.stall
  split
  · rename_i h
    refine .inl ⟨?_, rfl⟩
    simpa using h
  · rename_i h
    simp only [Bool.not_eq_true, Bool.or_eq_false_iff, Bool.not_eq_false'] at h
    split
    · rename_i n; exact .inr (.inl ⟨h.1, h.2, n, rfl⟩)
    · rename_i n; exact .inr (.inr ⟨h.1, h.2, Nat.lt_of_not_le n, rfl⟩)

/-- A command issues always: a repetition before the last is added to its group, the last enters the command numbered. -/
theorem issueCmd_next (s : State) (tl : TimelineId) (token : Nat) (arg : CmdArg) (f : Cmd → Cmd) :
    ∃ u, s.issueCmd tl token arg f = .next u ∧ u.pkgs = s.pkgs ∧ u.flits = s.flits ∧ u.cur = s.cur ∧
      ∀ e k a n, u.readPa e k a n = s.readPa e k a n := by
  unfold State.issueCmd State.captureRep
  dsimp only
  split <;> exact ⟨_, rfl, rfl, rfl, rfl, fun e k a n => by simp⟩

/-! ### Canonical memories -/

/-- A die update that keeps the die's two memories canonical keeps the machine's. -/
theorem canonical_updDie {s : State} (h : Canonical s) (d : Nat) (g : Die → Die)
    (k : ∀ y, y.stack.bytes.wf = true → y.basin.bytes.wf = true → (g y).stack.bytes.wf = true ∧ (g y).basin.bytes.wf = true) :
    Canonical (s.updDie d g) := by
  refine ⟨fun y hy => ?_, h.2⟩
  obtain ⟨i, hi, rfl⟩ := List.getElem_of_mem hy
  simp only [State.updDie, List.getElem_modify] at hi ⊢
  have hi' : i < s.dies.length := by simpa [State.updDie] using hi
  have := h.1 s.dies[i] (List.getElem_mem hi')
  split
  · exact k _ this.1 this.2
  · exact this

theorem canonical_updPkg {s : State} (h : Canonical s) (p : Nat) (g : Pkg → Pkg)
    (k : ∀ y, y.host.wf = true → (g y).host.wf = true) : Canonical (s.updPkg p g) := by
  refine ⟨h.1, fun y hy => ?_⟩
  obtain ⟨i, hi, rfl⟩ := List.getElem_of_mem hy
  simp only [State.updPkg, List.getElem_modify] at hi ⊢
  have hi' : i < s.pkgs.length := by simpa [State.updPkg] using hi
  have := h.2 s.pkgs[i] (List.getElem_mem hi')
  split
  · exact k _ this
  · exact this

theorem canonical_updCore {s : State} (h : Canonical s) (d c : Nat) (g : Core → Core) : Canonical (s.updCore d c g) :=
  canonical_updDie h d _ fun _ a b => ⟨a, b⟩
theorem canonical_updMe {s : State} (h : Canonical s) (g : Core → Core) : Canonical (s.updMe g) := canonical_updCore h _ _ g
theorem canonical_issued {s : State} (h : Canonical s) : Canonical s.issued := canonical_updMe h _

/-- A fold of steps that each keep the memories canonical. -/
theorem canonical_foldl {α : Type} (f : State → α → State) (k : ∀ s a, Canonical s → Canonical (f s a)) (l : List α) :
    ∀ s, Canonical s → Canonical (l.foldl f s) := by
  induction l with
  | nil => exact fun _ h => h
  | cons a l ih => exact fun s h => ih _ (k s a h)

theorem canonical_writePaBy {s : State} (h : Canonical s) (q d k pa : Nat) (bs : List Byte) :
    Canonical (s.writePaBy q d k pa bs) := by
  unfold State.writePaBy
  split
  · exact canonical_updDie h _ _ fun _ a b => ⟨Store.write_wf _ _ _ _ a, b⟩
  · exact canonical_updDie h _ _ fun _ a b => ⟨a, Store.write_wf _ _ _ _ b⟩
  · exact canonical_updPkg h _ _ fun _ a => Memory.putN_wf _ _ _ a
  · exact h
theorem canonical_writePa {s : State} (h : Canonical s) (d k pa : Nat) (bs : List Byte) : Canonical (s.writePa d k pa bs) :=
  canonical_writePaBy h _ _ _ _ _
theorem canonical_writeAll {s : State} (h : Canonical s) (d : Nat) (l : List QStore) : Canonical (s.writeAll d l) :=
  canonical_foldl _ (fun _ _ k => canonical_writePa k _ _ _ _) _ _ h

/-- Opening rows and presenting accesses leaves the memories of a die alone. -/
theorem foldl_openRow_mem (ls : List Nat) (hint : Hint) (y : Die) :
    (ls.foldl (fun x l => x.openRow l hint) y).stack = y.stack ∧ (ls.foldl (fun x l => x.openRow l hint) y).basin = y.basin := by
  induction ls generalizing y with
  | nil => exact ⟨rfl, rfl⟩
  | cons l t ih => exact ih _
theorem foldl_present_mem (ls : List Nat) (c n : Nat) (y : Die) :
    (ls.foldl (fun y l => y.present c (64 * l) n) y).stack = y.stack ∧
    (ls.foldl (fun y l => y.present c (64 * l) n) y).basin = y.basin := by
  induction ls generalizing y with
  | nil => exact ⟨rfl, rfl⟩
  | cons l t ih => exact ih _
theorem canonical_openPa {s : State} (h : Canonical s) (d pa n : Nat) (hint : Hint) : Canonical (s.openPa d pa n hint) := by
  unfold State.openPa
  split
  · refine canonical_updDie h _ _ fun y a b => ?_
    rw [(foldl_openRow_mem _ hint y).1, (foldl_openRow_mem _ hint y).2]
    exact ⟨a, b⟩
  · exact h
theorem canonical_presentLog {s : State} (h : Canonical s) (d c n : Nat) : Canonical (s.presentLog d c n) := by
  unfold State.presentLog
  refine canonical_updDie h _ _ fun y a b => ?_
  rw [(foldl_present_mem _ c 64 y).1, (foldl_present_mem _ c 64 y).2]
  exact ⟨a, b⟩

/-- Setting a dirty bit writes the bitmap and nothing else (R253). -/
theorem canonical_setDirty {s t : State} (h : Canonical s) {d acc ipa : Nat} {x : Core} (e : s.setDirty d x acc ipa = .ok t) :
    Canonical t := by
  unfold State.setDirty at e
  split at e
  · cases e; exact h
  · dsimp only at e
    split at e
    · cases e
    split at e
    · cases e
    split at e
    · cases e
    · cases e; exact canonical_writePa h _ _ _ _
theorem canonical_redirty {s : State} (h : Canonical s) (d c ipa : Nat) : Canonical (s.redirty d c ipa) := by
  unfold State.redirty
  split
  · rename_i e; exact canonical_setDirty h e
  · exact h
theorem canonical_performStore {s : State} (h : Canonical s) (d : Nat) (t : QStore) : Canonical (s.performStore d t) :=
  canonical_openPa (canonical_writePa (canonical_redirty h _ _ _) _ _ _ _) _ _ _ _
theorem canonical_performQuad {s : State} (h : Canonical s) (d : Nat) (p : QStore → Bool) : Canonical (s.performQuad d p) := by
  unfold State.performQuad
  refine canonical_updDie ?_ _ _ fun _ a b => ⟨a, b⟩
  exact canonical_foldl _ (fun _ _ k => canonical_performStore k _ _) _ _ h
theorem canonical_toQuad {s : State} (h : Canonical s) (d c : Nat) (p : PStore → Bool) : Canonical (s.toQuad d c p) := by
  unfold State.toQuad
  refine canonical_updCore ?_ _ _ _
  refine canonical_updDie ?_ _ _ fun _ a b => ⟨a, b⟩
  exact canonical_foldl _ (fun _ _ k => canonical_redirty k _ _ _) _ _ h
theorem canonical_drainStores {s : State} (h : Canonical s) (d c : Nat) : Canonical (s.drainStores d c) := by
  unfold State.drainStores
  dsimp only
  split
  · exact h
  · exact canonical_performQuad (canonical_toQuad h _ _ _) _ _
/-- Ending the atomics begun at an address keeps the memories canonical (R209). -/
theorem canonical_settle {s : State} (h : Canonical s) (sc : Scope) (d c pa n : Nat) : Canonical (s.settle sc d c pa n) := by
  refine canonical_foldl _ (fun s e k => ?_) _ _ h
  unfold State.settleDie
  refine canonical_performQuad (canonical_foldl _ (fun s f k => ?_) _ _ k) _ _
  unfold State.settleCore
  split
  · exact k
  · exact canonical_toQuad k _ _ _

/-- A trace record waits for its cycle's end: no memory changes yet (R403). -/
theorem canonical_queueRecord {s : State} (h : Canonical s) (d c type : Nat) (data : Option W64) :
    Canonical (s.queueRecord d c type data) := by
  unfold State.queueRecord
  exact canonical_updDie h _ _ fun _ a b => ⟨a, b⟩
theorem canonical_trapRecord {s : State} (h : Canonical s) (d c cause sub mpc : Nat) :
    Canonical (s.trapRecord d c cause sub mpc) := by
  unfold State.trapRecord
  split
  · exact canonical_queueRecord h _ _ _ _
  · exact h

theorem canonical_withdrawFrom {s : State} (h : Canonical s) (e d c : Nat) : Canonical (s.withdrawFrom e d c) := by
  unfold State.withdrawFrom
  exact canonical_updCore (canonical_updDie h e (fun y => y.dropTasks _) fun _ a b => ⟨a, b⟩) _ _ _
theorem canonical_withdrawAll {s : State} (h : Canonical s) (d c : Nat) : Canonical (s.withdrawAll d c) := by
  have k : Canonical ((List.range s.dies.length).foldl (fun s dd => s.withdrawFrom dd d c) s) :=
    canonical_foldl _ (fun _ _ k => canonical_withdrawFrom k _ _ _) _ _ h
  unfold State.withdrawAll State.withdrawFlits
  refine canonical_updCore ?_ _ _ _
  exact ⟨k.1, k.2⟩
theorem canonical_freezeCore {s : State} (h : Canonical s) (d c : Nat) : Canonical (s.freezeCore d c) := by
  unfold State.freezeCore
  refine canonical_updDie ?_ _ _ fun _ a b => ⟨a, b⟩
  exact canonical_updCore (canonical_withdrawAll h _ _) _ _ _
theorem canonical_stopCore {s : State} (h : Canonical s) (d c : Nat) : Canonical (s.stopCore d c) := by
  unfold State.stopCore
  refine canonical_updDie ?_ _ _ fun _ a b => ⟨a, b⟩
  exact canonical_updCore h _ _ _
/-- Taking a trap keeps the memories canonical. -/
theorem canonical_takeTrap {s : State} (h : Canonical s) (d c : Nat) (f : PendFault) : Canonical (s.takeTrap d c f) := by
  obtain ⟨_, -, e⟩ | ⟨-, -, e⟩ | ⟨t, -, -, ⟨-, e⟩ | ⟨-, e⟩⟩ := takeTrap_cases s d c f
  · rw [e]; exact canonical_updCore h _ _ _
  · rw [e]; exact canonical_stopCore h _ _
  · rw [e]; exact canonical_trapRecord (canonical_updCore h _ _ _) _ _ _ _ _
  · rw [e]; exact canonical_trapRecord (canonical_updCore (canonical_freezeCore h _ _) _ _ _) _ _ _ _ _

/-- An outcome whose next state, if any, has canonical memories. -/
theorem canonical_raisePend {s t : State} (h : Canonical s) (f : PendFault) (e : s.raisePend f = .next t) : Canonical t := by
  rw [raisePend_eq, Host.Outcome.next.injEq] at e
  rw [← e]
  exact canonical_takeTrap (canonical_updMe h _) _ _ _
theorem canonical_raise {s t : State} (h : Canonical s) (c b : Nat) (v : W64) (e : s.raise c b v = .next t) : Canonical t :=
  canonical_raisePend h _ e

/-- A write into the basin of a die, and nothing else of its memories. -/
theorem canonical_basin {s : State} (h : Canonical s) (d a : Nat) (bs : List Byte) :
    Canonical (s.updDie d fun y => { y with basin := y.basin.write 0 a bs }) :=
  canonical_updDie h d (fun y => { y with basin := y.basin.write 0 a bs }) fun _ p q => ⟨p, Store.write_wf _ _ _ _ q⟩
theorem canonical_logWord {s : State} (h : Canonical s) (d c : Nat) (w : W32) : Canonical (s.logWord d c w) := by
  unfold State.logWord
  exact canonical_updCore (canonical_basin h _ _ _) _ _ _

theorem canonical_draw {s t : State} (h : Canonical s) {d c n : Nat} {ws : List Nat} (e : s.draw d c n = some (ws, t)) :
    Canonical t := by
  unfold State.draw at e
  split at e
  · cases e; exact h
  · dsimp only at e
    split at e
    · split at e
      · cases e
      · cases e; exact canonical_updCore (canonical_presentLog h _ _ _) _ _ _
    · simp only [Option.some.injEq, Prod.mk.injEq] at e
      obtain ⟨-, rfl⟩ := e
      split
      · exact canonical_foldl _ (fun _ _ k => canonical_logWord k _ _ _) _ _
          (canonical_presentLog (canonical_updCore h _ _ _) _ _ _)
      · exact canonical_updCore h _ _ _

theorem canonical_takeSpouts {s : State} (h : Canonical s) (rd : List Nat) : Canonical (s.takeSpouts rd) :=
  canonical_foldl _ (fun s a k => by
    split
    · exact canonical_updMe k _
    · exact k) _ _ h
theorem canonical_putTiles {s : State} (h : Canonical s) (outs : List (Nat × Tile)) : Canonical (s.putTiles outs) :=
  canonical_foldl _ (fun s a k => by
    split <;> exact canonical_updMe k _) _ _ h
theorem canonical_putResults {s : State} (h : Canonical s) (outs : List (Nat × Tile)) (st : Nat) (rows : List Nat) :
    Canonical (s.putResults outs st rows) := by
  unfold State.putResults
  exact canonical_updMe (canonical_putTiles h _) _

/-- Retiring keeps the memories canonical: `vst` and `vcbld` write the basin through its one writer. -/
theorem canonical_retire {s t : State} (h : Canonical s) (rd : List Nat) (tm : Nat × Nat) (r : VOut)
    (e : s.retire rd tm r = .next t) : Canonical t := by
  cases r with
  | fault c b v => exact canonical_raise h _ _ _ e
  | format => exact canonical_raise h _ _ _ e
  | done outs st =>
    simp only [State.retire, Host.Outcome.next.injEq] at e
    rw [← e]
    exact canonical_issued (canonical_updMe (canonical_takeSpouts (canonical_putResults h _ _ _) _) _)
  | loaded outs pa n =>
    simp only [State.retire, Host.Outcome.next.injEq] at e
    rw [← e]
    refine canonical_issued ?_
    exact canonical_updDie (canonical_takeSpouts (canonical_putResults h _ _ _) _) _ _ fun _ a b => ⟨a, b⟩
  | scalar r v =>
    simp only [State.retire, Host.Outcome.next.injEq] at e
    rw [← e]
    exact canonical_issued (canonical_updMe (canonical_takeSpouts h _) _)
  | store pa bs =>
    simp only [State.retire, Host.Outcome.next.injEq] at e
    rw [← e]
    refine canonical_issued ?_
    exact canonical_updDie (canonical_takeSpouts h _) _ _ fun _ a b => ⟨a, Store.write_wf _ _ _ _ b⟩
  | book k b pa bs =>
    simp only [State.retire, Host.Outcome.next.injEq] at e
    rw [← e]
    refine canonical_issued (canonical_updMe ?_ _)
    exact canonical_updDie (canonical_takeSpouts h _) _ _ fun _ a b => ⟨a, Store.write_wf _ _ _ _ b⟩

/-- Every vector instruction keeps the memories canonical. -/
theorem canonical_vrun {s t : State} (h : Canonical s) {tm : VTime} {rd wr : List Nat} {sp : Bool} {scal : List Nat}
    {check : (Nat → Tile) → VCheck} {run : (Nat → Src) → List Nat → VOut}
    (e : s.vrun tm rd wr sp scal check run = .next t) : Canonical t := by
  obtain k | ⟨c, b, v, k⟩ | ⟨a, n, f, k⟩ | ⟨w, g, ws, s1, n, -, hd, -, -, k⟩ := vrun_cases s tm rd wr sp scal check run
  · rw [k, Host.Outcome.next.injEq] at e; rw [← e]; exact h
  · rw [k] at e; exact canonical_raise h _ _ _ e
  · rw [k] at e
    unfold State.streamFault at e
    exact canonical_raisePend (canonical_updMe h _) _ e
  · rw [k] at e; exact canonical_retire (canonical_draw h hd) _ _ _ e

/-- Issuing a command keeps the memories canonical. -/
theorem canonical_issueCmd {s t : State} (h : Canonical s) {tl : TimelineId} {token : Nat} {arg : CmdArg} {f : Cmd → Cmd}
    (e : s.issueCmd tl token arg f = .next t) : Canonical t := by
  unfold State.issueCmd State.captureRep at e
  dsimp only at e
  split at e <;> (rw [Host.Outcome.next.injEq] at e; rw [← e]; exact canonical_issued (canonical_updMe h _))
theorem canonical_issueGate {s t : State} (h : Canonical s) {tl : TimelineId} {scal : List Nat} {k : State → Out}
    (hk : ∀ u v, Canonical u → k u = .next v → Canonical v) (e : s.issueGate tl scal k = .next t) : Canonical t := by
  obtain ⟨-, q⟩ | ⟨-, -, -, q⟩ | ⟨-, -, -, q⟩ := issueGate_cases s tl scal k
  · rw [q, Host.Outcome.next.injEq] at e; rw [← e]; exact h
  · rw [q] at e; exact canonical_raise h _ _ _ e
  · rw [q] at e; exact hk _ _ h e

end Sys2Proof.Machine
end

