-- ==== Sys2Proof/Tests/Slice0.lean ====
section
/-!
SUPPORT. Sys2Proof/Tests/Slice0.lean: the model's own tests and, for every statement with hypotheses, states and
operands that meet them. Each expected result stands in the rule its comment cites.
-/
namespace Sys2Proof.Tests
open Sys2Proof Sys2Proof.Machine Sys2Proof.Safety

/-! ### Helpers -/

/-- The machine after reset, its core in focus (core 0 of die 0) given an identity mapping and changed. -/
def poke (f : Core → Core) : State :=
  State.reset.updMe fun x => f { x with xl := { x.xl with rt1 := [.entry 0 0x00FFFFFFFFFFF000 0 0x2F] } }
/-- Register r of the core in focus set. -/
def withReg (r : Nat) (v : W64) (p : Bool) : State := poke fun x => x.updReg r fun _ => ⟨v, false, p⟩
/-- The machine after reset, its die 0 changed. -/
def pokeDie (f : Die → Die) : State := State.reset.updDie 0 f
/-- Register r of the core in focus pending. -/
def pendingReg (r : Nat) : State := poke fun x => x.updReg r fun _ => ⟨0, true, false⟩

/-- A stack that holds, from its low end: a range table of one entry (all addresses, R W X APP) at 0x1000, a template that
names it at 0x4000, a valid descriptor that spreads to one core at 0x6000, and a packet that names the descriptor at
0x8000. -/
def launchStack : Store :=
  ⟨⟨[(0x1009, 0xF0), (0x100A, 0xFF), (0x100B, 0xFF), (0x100C, 0xFF), (0x100D, 0xFF), (0x100E, 0xFF), (0x1018, 0x2F), (0x4200, 1), (0x4201, 0x10),
    (0x6010, 1), (0x6011, 1), (0x6012, 1), (0x6014, 1), (0x6070, 1), (0x8001, 0x60), (0x8008, 1), (0x8009, 1), (0x800A, 1), (0x800C, 1)]⟩, [], [], []⟩
/-- A window whose queue 0 names that template. -/
def launchBasin : Store := ⟨⟨[(41, 0x40)]⟩, [], [], []⟩

/-- Reset with every tile of a tag. -/
def tiled (tag : Nat) : State := poke fun x => { x with tiles := List.replicate 64 (Tile.zero tag) }
/-- A pattern of one tile of a tag over address 0. -/
def onePat (tag : Nat) : Pattern := ⟨1024, 1, 1, 1, 0, 0, 0, tag, 0, 0, false⟩
/-- Reset, its tiles of tag fp32, with stream tile 48 bound to one tile, its ring and the place it stands at as given, the
group in focus delivered after the binding. -/
def streaming (kind : StreamKind) (ring : List RingTile) (base : Nat) : State :=
  let s := (tiled 1).updMe fun x =>
    { x with strm := [some ⟨kind, .plain, onePat 1, 1, 0, base, [], 0, [], 0, ring, none, none, []⟩] ++ List.replicate 15 none }
  { s with cur := { s.cur with rank := 100 } }

/-- An earlier `mmar` that writes tile 8. -/
def aheadOf : State :=
  let s := (tiled 1).updMe fun x => { x with q := { x.q with m := [⟨0, 0, ⟨0, .m, 0x0640A2A9, [], []⟩, none, 0, none, 0, []⟩] } }
  { s with cur := { s.cur with rank := 100 } }
/-- Tile v poisoned whole. -/
def poisonTile (s : State) (v : Nat) : State := s.updMe fun x => { x with tiles := x.tiles.modify v fun t => { t with poison := List.replicate 1024 true } }
/-- Tiles of tag 0x08, but tile 1 of bits; the side store of tile 7 as given. -/
def blockTiles (side : Byte) : State :=
  (tiled 0x08).updMe fun x => { x with tiles := (x.tiles.set 1 (Tile.zero 0x30)).set 7 { Tile.zero 0x08 with side := List.replicate 128 side } }

/-- A record of a tag over its extents, its first strides 0, its third st3. -/
def shape (e0 e1 e2 e3 st1 st3 tag : Nat) : Shape4 := ⟨e0 + e1 * 2 ^ 16, e2 + e3 * 2 ^ 16, st1, st3 + tag * 2 ^ 16⟩
/-- A stack with a peer table at 0 (virtual peer 0 is peer 0) and pattern slots 1 (1024 elements of fp32), 2 (32 of n8) and 3
(32 of fp32), each over address 0. -/
def slotStack : Store :=
  ⟨⟨[(1, 0x80), (65, 4), (68, 1), (72, 1), (76, 1), (92, 1), (95, 0x80), (128, 32), (132, 1), (136, 1), (140, 1), (156, 0x28), (159, 0x80),
    (192, 32), (196, 1), (200, 1), (204, 1), (220, 1), (223, 0x80)]⟩, [], [], []⟩
/-- Tiles of a tag over that stack, the last repetition of a group in focus, records inline or not; s10 names slot 1, s20 slot 3, s21
slot 2; s5 as given. -/
def issuing (inl : Bool) (tag : Nat) (v : W64) : State :=
  let s := ((tiled tag).updMe fun x => { ((((x.updReg 10 fun _ => ⟨0x1000, false, false⟩).updReg 20 fun _ => ⟨0x3000, false, false⟩).updReg 21
      fun _ => ⟨0x2000, false, false⟩).updReg 5 fun _ => ⟨v, false, false⟩) with
    ctx := { x.ctx with inline := inl }, k := { x.k with kdtab := BitVec.ofNat 64 (2 ^ 60) } }).updDie 0 fun y => { y with stack := slotStack }
  { s with cur := { s.cur with reps := 1, rank := 100 } }
/-- A command of core 0: its number, its timeline, its state, over one repetition. -/
def cmdOf (tl : TimelineId) (num : Nat) (i : Instr) (st : CmdSt) : Cmd :=
  ⟨.m, tl, num, 9, 0, 1, 0, 0, 0, [⟨i, [], [], none, none, [], []⟩], 0, 0, st, 0, 0, 0, [], [], [], none, 0, [], 0⟩
/-- Reset with a command of the core in focus. -/
def commanded (k : Cmd) : State := poke fun x => { x with fl := { x.fl with cmds := [k] } }

/-- Whether a command may issue, as IssueGo asks. -/
theorem issueGo_of {s : State} {tl : TimelineId} {scal : List Nat} (h : s.focusOk = true ∧ s.eReady scal = true ∧ s.cmdsFull tl = false ∧
    s.me.nextNum tl < 2 ^ 56 ∧ ∀ v ∈ scal, s.me.poisoned v = false) : IssueGo s tl scal :=
  ⟨h.1, h.2.1, h.2.2.1, h.2.2.2.1, h.2.2.2.2⟩
/-- The pattern a record gives at a base of 0. -/
def patOf (e0 e1 e2 e3 : Nat) (st3 : Int) (tag : Nat) : Pattern := ⟨e0, e1, e2, e3, 0, 0, st3, tag, 0, 0, false⟩
/-- Issuing with a copy at the head of the core's Y queue: cp of slot 1 onto slot 1. -/
def copying : State := (issuing false 0x02 0).updMe fun x => { x with
  ctl := { x.ctl with run := .running }, q := { x.q with y := [⟨0, 0, ⟨0, .y, 0x02494500, [], []⟩, none, 0, none, 0, []⟩] } }
theorem ok_of {ε α : Type} {e : Except ε α} {a : α} (h : e.toOption = some a) : e = .ok a := by
  cases e <;> simp_all [Except.toOption]
/-- Core 0 holds a context: slot 0. -/
def inContext : State := poke fun x => { x with k := { x.k with kslot := 0 } }
/-- A V group of an earlier line that has not retired. -/
def vLate : State := poke fun x => { x with
  q := { x.q with v := [⟨0, 0, ⟨1, .v, 0x02408100, [], []⟩, none, 0, none, 0, []⟩] }, ctl := { x.ctl with line := some ⟨0x20, [], 1, 0, .undecided, 0, 64, none⟩ } }

/-- Reset at level A with a handler at S, and (with `held`) a context held at S. -/
def handled (held : Bool) : State :=
  poke fun x =>
    let y := { x with bankS := { x.bankS with ktvec := 0x40 }, ctl := { x.ctl with level := 0, run := .running } }
    if held then { y with ctl := { y.ctl with hold := some (y.holdOf 1) } } else y
/-- Reset with an outstanding 8-byte read of address 0x40 for s5. -/
def loading (kind : LoadKind) : State := poke fun x => { x with fl := { x.fl with loads := [⟨kind, 5, 0x40, 0⟩] } }

/-- Reset at level S in a trap taken from A, with the C-lane mark of its bank. -/
def inTrap (cl : Bool) (pp : Nat) : State :=
  poke fun x =>
    let y := { x with bankS := { x.bankS with clane := cl, pp := pp }, ctl := { x.ctl with level := 1, run := .running } }
    { y with ctl := { y.ctl with hold := some (y.holdOf 1), frozen := true } }

/-! ### The statements have cases: each hypothesis is met -/

theorem witness_RegisterFormResults : (∃ r ∈ regForms, r.op = 0x01 ∧ Ready State.reset [63, 0, 5]) ∧
    (∃ r ∈ oneForms, r.1 = 0x16 ∧ Ready State.reset [63, 5]) ∧ ∃ b : Nat, 0 < b ∧ b < 64 :=
  ⟨⟨_, .head _, rfl, by unfold Ready; decide⟩, ⟨_, .head _, rfl, by unfold Ready; decide⟩, 63, by decide, by decide⟩

theorem witness_ImmediateFormResults : (∃ r ∈ immForms, r.1 = 0x19 ∧ Ready State.reset [63, 0] ∧ -4096 ≤ (-4096 : Int)) ∧
    (∃ r ∈ shiftForms, r.1 = 0x1D ∧ 63 < 64 ∧ 64 ≤ 64 ∧ Ready State.reset [1, 2]) :=
  ⟨⟨_, .head _, rfl, by unfold Ready; decide, by decide⟩, ⟨_, .head _, rfl, by decide, by decide, by unfold Ready; decide⟩⟩

theorem witness_FieldFormResults : Ready State.reset [63, 1] ∧ 63 < 64 ∧ 1 ≤ 64 := ⟨by unfold Ready; decide, by decide, by decide⟩

theorem witness_ConstantsTokensAndNop : Ready State.reset [63] ∧ State.reset.focusOk = true ∧ State.reset.me.regs.length = 64 ∧
    State.reset.me.heldPending 63 = false ∧ -(2 ^ 31) ≤ (2 ^ 31 - 2049 : Int) :=
  ⟨by unfold Ready; decide, by decide, by decide, by decide, by decide⟩
theorem witness_tokens : let p := withReg 5 2 true
    let w := withReg 5 2 false
    let h := (withReg 5 2 false).updMe fun x => x.updReg 1 fun _ => ⟨0, true, false⟩
    (Ready p [3, 5] ∧ p.me.poisoned 5 = true) ∧ (Ready w [3, 5] ∧ w.me.poisoned 5 = false ∧ (w.me.val 5).getLsbD 1 = true ∧
      (w.me.reg 1).pend = false) ∧
    (Ready h [3, 5] ∧ h.me.poisoned 5 = false ∧ (h.me.val 5).getLsbD 1 = true ∧ (h.me.reg 1).pend = true) ∧
    (State.reset.me.val 5 = 0) := by
  simp only [Ready]; decide

theorem witness_CommitSelectsAndChkTests : let p := withReg 5 1 true
    let w := withReg 5 1 false
    (Ready p [5, 1, 2] ∧ p.me.poisoned 5 = true) ∧ (Ready w [5, 1, 2] ∧ w.me.poisoned 5 = false ∧ w.me.val 5 ≠ 0) ∧
      Ready State.reset [5, 1, 2] ∧ State.reset.me.poisoned 5 = false ∧ State.reset.me.val 5 = 0 ∧ Ready State.reset [1, 2] := by
  simp only [Ready]; decide

theorem witness_BranchDecisions : ∃ r ∈ branchForms, r.1 = 0x25 ∧ Ready State.reset [1, 63] ∧ State.reset.me.poisoned 1 = false ∧
    State.reset.me.poisoned 63 = false := ⟨_, .head _, rfl, by unfold Ready; decide, by decide, by decide⟩

/-- A line in work whose callg slot word has come back. -/
def gotLine (v : W64) (p : Bool) : State :=
  poke fun x => { x with k := { x.k with kgot := BitVec.ofNat 64 (2 ^ 56) }, ctl := { x.ctl with line := some ⟨0, [], 1, 0, .undecided, 0, 64, some (v, p)⟩ } }
theorem witness_JumpsLinkAndTransfer : let a := withReg 1 33 false
    let l := gotLine 0x40 false
    (Ready State.reset [1] ∧ State.reset.me.poisoned 1 = false ∧ State.reset.me.val 1 = 0) ∧
    (Ready a [1] ∧ a.me.poisoned 1 = false ∧ (a.me.val 1).toNat % 32 ≠ 0) ∧
    4096 * (State.reset.me.k.kgot.toNat / 2 ^ 56) ≤ 0 ∧ Ready l [1] ∧ 4095 < 4096 * (l.me.k.kgot.toNat / 2 ^ 56) ∧
    (l.me.ctl.line.bind (·.slot)) = some (0x40, false) ∧
    ((gotLine 0x41 false).me.ctl.line.bind (·.slot)) = some (0x41, false) ∧
    ((gotLine 0x40 true).me.ctl.line.bind (·.slot)) = some (0x40, true) := by
  simp only [Ready]; decide

/-- Reset with a piped loop active at level 0, ending at 0x40. -/
def inLoop : State := poke fun x => { x with loops := { x.loops with l0 := ⟨4, 0, 0, 0x40⟩, d := 1, pipe := true } }
theorem witness_LoopIllegalCases : Ready State.reset (countRegs (.reg 9)) ∧ 1 ≠ State.reset.me.loops.d ∧
    (let deep := poke fun x => { x with loops := { x.loops with d := 3 } }
     Ready deep (countRegs (.reg 9)) ∧ deep.me.ctx.depth ≤ deep.me.loops.d) ∧
    Ready inLoop (countRegs (.reg 9)) ∧ (inLoop.me.loops.lvl (inLoop.me.loops.d - 1)).fin < inLoop.cur.addr + 3 * 32 ∧
    inLoop.me.loops.pipe = true := by
  simp only [Ready]; decide

theorem witness_LoopsStartAndResolve : let s := State.reset
    let w := withReg 9 5 false
    Ready s (countRegs (.reg 9)) ∧ s.me.firstPoison (countRegs (.reg 9)) = none ∧ 0 = s.me.loops.d ∧ s.me.loops.d < s.me.ctx.depth ∧
    (countVal s.me (.reg 9)).toNat = 0 ∧ s.me.loops.pipe = false ∧ Ready w (countRegs (.reg 9)) ∧
    w.me.firstPoison (countRegs (.reg 9)) = none ∧ 0 < (countVal w.me (.reg 9)).toNat ∧ (countVal w.me (.reg 9)).toNat < 2 ^ 32 ∧
    inLoop.me.loops.d = 1 ∧ inLoop.cur.addr + 2 * 32 ≤ (inLoop.me.loops.lvl 0).fin := by
  simp only [Ready]; decide


theorem witness_ScalarAccessFaults : let i := Instr.st .d64 5 6 0
    let p := withReg 6 0 true
    let top := withReg 6 (BitVec.ofNat 64 (2 ^ 56 - 2 ^ 28)) false
    let odd := withReg 6 1 false
    let hole := withReg 6 (BitVec.ofNat 64 (3 * 2 ^ 52)) false
    ((accessOf p.me i).map (·.used) = some [5, 6] ∧ Ready p [5, 6] ∧ p.me.poisoned 5 = false ∧ p.me.poisoned 6 = true) ∧
    ((accessOf top.me i).map (fun k => decide (2 ^ 56 - 2 ^ 28 ≤ k.va.toNat)) = some true ∧ Ready top [5, 6]) ∧
    ((accessOf odd.me i).map (fun k => decide (k.va.toNat < 2 ^ 56 - 2 ^ 28 ∧ k.va.toNat % k.size ≠ 0)) = some true ∧ Ready odd [5, 6]) ∧
    ((accessOf hole.me i).map (fun k => (decide (k.va.toNat < 2 ^ 56 - 2 ^ 28 ∧ k.va.toNat % k.size = 0),
      (hole.translate 0 hole.me hole.me.ctl.level k.acc k.va.toNat).isOk)) = some (true, false) ∧ Ready hole [5, 6]) := by
  simp only [Ready]; decide

/-- Reset with window 0 of so many bytes at 0, generation and validity as given. -/
def windowed (bound gen : Nat) (valid : Bool) : State :=
  poke fun x => { x with ctx := { x.ctx with windows := [⟨0, bound, gen, valid⟩] } }
theorem witness_LoadsIssueAndReturn : let s := poke id
    ((accessOf s.me (.ld .d64 5 6 0x40)).map (fun k => decide (k.va.toNat < 2 ^ 56 - 2 ^ 28 ∧ k.va.toNat % k.size = 0)) = some true ∧
      Ready s [5, 6] ∧ s.me.poisoned 6 = false ∧ (s.translate 0 s.me s.me.ctl.level .read 0x40).isOk = true) ∧
    s.me.ctx.windows[0]? = none ∧
    ((windowed 8 0 false).me.ctx.windows[0]?).map (·.valid) = some false ∧ (windowed 8 1 true).wgen (windowed 8 1 true).me ≠ 1 ∧
    (windowed 8 0 true).wgen (windowed 8 0 true).me = 0 ∧ Ready (windowed 8 0 true) [5] ∧ 8 ≤ 8 * 1 ∧ 8 * 0 < 8 ∧ 8 * 0 < 4 ∧
    ((windowed 8 0 true).translate 0 (windowed 8 0 true).me 2 .read 0).isOk = true ∧
    ((loading (.ld .d64)).core 0 0).fl.loads[0]? = some ⟨.ld .d64, 5, 0x40, 0⟩ ∧ (loading (.ld .d64)).channelBusy 0 0x40 8 = false := by
  simp only [Ready]; decide

/-- Reset with two stores of 8 bytes in the core's path, and one of core 0 in its quad's. -/
def storing (pa0 pa1 : Nat) : State :=
  (poke fun x => { x with fl := { x.fl with stores := [⟨pa0, pa0, List.replicate 8 1, 0, 0, none⟩, ⟨pa1, pa1, List.replicate 8 2, 0, 2, none⟩] } }).updDie 0
    fun y => { y with qpath := [⟨0, 0x200, 0x200, List.replicate 8 3, 0, 7, none⟩] }
/-- With a release fence of the pod that stands before the store numbered 2. -/
def fenced (s : State) : State := s.updMe fun x => { x with fl := { x.fl with fences := [⟨1, .pod, []⟩], seq := 3 } }
theorem witness_StoresPostAndPerform : let s := poke id
    ((accessOf s.me (.st .d64 5 6 0x40)).map (fun k => decide (k.va.toNat < 2 ^ 56 - 2 ^ 28 ∧ k.va.toNat % k.size = 0)) = some true ∧
      Ready s [5, 6] ∧ s.me.poisoned 5 = false ∧ s.me.poisoned 6 = false ∧ (s.translate 0 s.me 2 .write 0x40).isOk = true ∧
      (s.setDirty 0 s.me 1 0x40).isOk = true) ∧
    ((storing 0x40 0x80).core 0 0).fl.stores[1]? = some ⟨0x80, 0x80, List.replicate 8 2, 0, 2, none⟩ ∧
    (∀ o ∈ ((storing 0x40 0x80).core 0 0).fl.stores, o.seq < 2 → overlaps o.pa o.bytes.length 0x80 8 = false) ∧
    ((storing 0x40 0x80).core 0 0).fl.loads = [] ∧ ((storing 0x40 0x80).core 0 0).fl.stores[2]? = none ∧
    ((storing 0x40 0x80).die 0).qpath[0]? = some ⟨0, 0x200, 0x200, List.replicate 8 3, 0, 7, none⟩ ∧
    (storing 0x40 0x80).fenceHolds 0 0 2 = false ∧ (fenced (storing 0x40 0x80)).fenceHolds 0 0 2 = true := by
  simp only [Ready]; decide

theorem witness_MemoryReadsWhatWasWritten : let s := storing 0x40 0x40
    ((s.core 0 0).fl.stores = [⟨0x40, 0x40, List.replicate 8 1, 0, 0, none⟩] ++ ⟨0x40, 0x40, List.replicate 8 2, 0, 2, none⟩ :: [] ∧ 2 < 3 ∧
      paPlace 0 0x40 = .stack 0x40 ∧ s.hasDie 0 = true ∧ 0 = s.keyOf 0 (s.core 0 0).ctx.tenant ∧
      (s.readPa 0 (s.keyOf 0 (s.core 0 0).ctx.tenant) 0x40 8).2 = false) ∧
    (Store.empty.bytes.wf = true ∧ Store.empty.anyBad 0x3F 2 = false ∧ [(1 : Byte), 2] ≠ [] ∧ assocGet Store.empty.keys 0 = 0 ∧
      0x40 + 2 ≤ 0x42 ∧ 0x3E < 0x3F) ∧
    (2 ^ 52 - 1) / 2 ^ 52 = 0 ∧ (2 ^ 52 + 2 ^ 23 - 1) / 2 ^ 23 % 2 ^ 29 = 0 ∧ (2 ^ 53 + 2 ^ 48 - 1) / 2 ^ 48 % 2 ^ 4 = 0 ∧
    3 ≤ (3 * 2 ^ 52) / 2 ^ 52 ∧ 2 ^ 36 / 2 ^ 36 % 2 ^ 16 ≠ 0 := by decide
theorem witness_canonical : Canonical (storing 0x40 0x40) := by unfold Canonical; decide

/-- Reset with the line at 0x40 of die 0's stack marked. -/
def marked : State := pokeDie fun y => { y with stack := { y.stack with marks := [1] } }
/-- Reset with an atomic's old value on its way to s5. -/
def returning : State := poke fun x => { x with fl := { x.fl with amos := [⟨5, 7, 0⟩] } }
theorem witness_AtomicsReadModifyWrite : let s := poke id
    let i : Instr := .amocas .die 5 6 7
    let s1 := s.settle .die 0 0 0 8
    ((accessOf s.me (.amo .add .die 5 6 7)).map (fun k => decide (k.va.toNat < 2 ^ 56 - 2 ^ 28 ∧ k.va.toNat % k.size = 0)) = some true ∧
      Ready s [5, 6, 7] ∧ s.me.poisoned 5 = false ∧ s.me.poisoned 6 = false ∧ s.me.poisoned 7 = false ∧ (s.translate 0 s.me 2 .atomic 0).isOk = true ∧
      s.fenceHolds 0 0 s.me.fl.seq = false ∧ s.me.fl.loads = [] ∧
      (s1.coreRead 0 0 0 8 0).2 = false ∧ (s1.setDirty 0 s1.me 3 0).isOk = true) ∧
    ((accessOf s.me i).map (·.used) = some [5, 6, 7] ∧ leWord (s1.coreRead 0 0 0 8 0).1 = s.me.val 5 ∧
      leWord (s1.coreRead 0 0 0 8 0).1 ≠ (withReg 5 1 false).me.val 5) ∧
    (fenced (storing 0x40 0x80)).fenceHolds 0 0 (fenced (storing 0x40 0x80)).me.fl.seq = true ∧ ((loading (.ld .d64)).me.fl.loads.any fun l => l.reads 0x40 8) = true ∧
    (marked.coreRead 0 0 0x40 8 0).2 = true ∧
    (returning.core 0 0).fl.amos[0]? = some ⟨5, 7, 0⟩ := by
  simp only [Ready]; decide +kernel

/-- Reset with a barrier net of the die, core 0 and (with `two`) core 1 in it. -/
def barred (two : Bool) (waiting : Option Nat) (count done : Nat) : State :=
  { State.reset with nets := [⟨some .die, State.reset.me.launchKey,
      ⟨State.reset.me.place, count, waiting, false⟩ :: (if two then [⟨State.reset.me.place + 1, 1, some 0, false⟩] else []), done⟩] }
/-- Reset with a `pbar` of number 1 that no `tlwait` has acquired, its token read as s5, the counter of tlf at 1. -/
def pbarred (loads : List Load) : State := (withReg 5 1 false).updMe fun x =>
  { x with fl := { x.fl with pbars := [1], loads := loads }, tls := { x.tls with tlf := ⟨1, 1, []⟩ } }
theorem witness_FencesBarriersTimelines : let s := State.reset
    (s.me.fl.loads = [] ∧ s.me.fl.amos = [] ∧ s.storesAt .pkg = true) ∧ (loading (.ld .d64)).me.fl.loads ≠ [] ∧
    s.findNet (some .die) s.me.launchKey s.me.place = none ∧
    (let w := barred true (some s.barKey) 1 0
     w.findNet (some .die) w.me.launchKey w.me.place = some 0 ∧ ((w.nets[0]?).bind (·.part w.me.place)).map (·.waiting) = some (some w.barKey) ∧
     0 < 1 ∧ (∀ p ∈ ((w.nets[0]?).map (·.parts)).getD [], p.ended = true ∨ 0 < p.count)) ∧
    ((((barred true (some s.barKey) 1 1).nets[0]?).bind (·.part s.me.place)).map fun p => decide (p.count ≤ 1)) = some true ∧
    ((((barred false none 0 0).nets[0]?).bind (·.part s.me.place)).map (·.waiting)) = some none ∧
    ((((barred true (some (s.barKey + 1)) 1 0).nets[0]?).bind (·.part s.me.place)).map fun p => decide (p.waiting ≠ some s.barKey)) = some true ∧
    (Ready s [5] ∧ (s.me.val 5).toNat ≤ (s.me.tls.get .tly).counter) ∧
    (Ready (withReg 5 1 false) [5] ∧ ((withReg 5 1 false).me.tls.get .tly).counter < ((withReg 5 1 false).me.val 5).toNat) ∧
    ∀ l ∈ [[], [⟨.ld .d64, 9, 0x40, 0⟩]], let p := pbarred l
      Ready p [5] ∧ (p.me.val 5).toNat ≤ (p.me.tls.get .tlf).counter ∧ (∃ n ∈ p.me.fl.pbars, n ≤ (p.me.val 5).toNat) ∧ p.me.loadsBack = l.isEmpty := by
  simp only [Ready]; decide

theorem witness_RangeTableLookup : let e := RangeSlot.entry 0x1000 0x2000 0x1000 3
    ((1 : W64) ≤ 3 ∧ (3 : W64).getLsbD 0 = true ∧ 0x1000 / 2 ^ 12 % 2 ^ 44 ≤ 0x1000 / 2 ^ 12 ∧ 0x2FFF / 2 ^ 12 ≤ 0x2000 / 2 ^ 12 % 2 ^ 44) ∧
    lookupRange [e] 0x2FFF ≠ none ∧ lookupRange [e] 0x3000 = none ∧ lookupRange [.entry 0x1000 0x2000 0x1000 0x15] 0x1000 ≠ none := by
  decide

theorem witness_TrapTargetLevels : State.reset.hasCore 0 0 = true ∧ (State.reset.core 0 0).ctl.faults = [] ∧
    (State.reset.core 0 0).edgeStop = none ∧
    trapTarget (State.reset.core 0 0) (State.reset.core 0 0).ctl.level false = none := by decide

theorem witness_TrapEntryEffects : ∀ b, (handled b).hasCore 0 0 = true ∧
    trapTarget ((handled b).core 0 0) ((handled b).core 0 0).ctl.level
      (firstFault ⟨0, 0x14, 0, 1, 0, 0, 0, none, false, true⟩ ((handled b).core 0 0).ctl.faults).toH = some 1 ∧
    ((handled b).core 0 0).ctl.hold.isSome = b ∧ ((handled b).core 0 0).edgeStop = none ∧ ((handled b).core 0 0).fl.vres = [] := by decide

/-- A V group still queued. -/
def withLate : State := poke fun x => { x with q := { x.q with v := [⟨0, 0, ⟨1, .v, 0x02408100, [], []⟩, none, 0, none, 0, []⟩] } }
theorem witness_TrapsAndReturns :
    (State.reset.me.q.all = [] ∧ State.reset.me.fl.cmds = [] ∧ (poke fun x => { x with k := { x.k with kslot := 1 } }).me.k.kslot.toNat ≠ 255) ∧
    State.reset.me.k.kslot.toNat = 255 ∧ State.reset.cur.engine = .c ∧ (handled false).me.ctl.level = 0 ∧
    (withLate.me.q.all ≠ []) ∧
    (State.reset.me.ctl.level ≠ 0 ∧ State.reset.me.ctl.hold = none) ∧
    (∀ b, (inTrap b 0).me.ctl.level ≠ 0 ∧ ((inTrap b 0).me.ctl.hold.map (·.level)) = some 1 ∧ (inTrap b 0).me.bankS.clane = b ∧
      ((inTrap b 0).me.bank 1).pp = 0) ∧
    (let x := { (inTrap false 1).me with ctl := { (inTrap false 1).me.ctl with level := 2 }, bankH := { (inTrap false 1).me.bankH with pp := 1 } }
     (x.bank x.ctl.level).pp ≠ 0 ∧ (x.ctl.hold.map (·.level)) = some 1 ∧ x.ctl.level = 2) := by decide

theorem witness_KRegistersAndPrivilege : (∃ r ∈ kLevels, r.1 ≤ 0x000 ∧ 0x008 ≤ r.2.1 ∧ (handled false).me.ctl.level < r.2.2.1) ∧
    ((0x00F < 0x060 ∨ 0x100 ≤ 0x00F) ∧ ∀ r ∈ kLevels, ¬ (r.1 ≤ 0x00F ∧ 0x00F ≤ r.2.1)) ∧
    (kName 0x010 = some .kmode ∧ KName.kmode.readLevel ≤ (handled false).me.ctl.level ∧ Ready State.reset [63] ∧
      State.reset.me.vRetired = true) ∧
    (∃ r ∈ plainK, r.num = 0x006 ∧ State.reset.focusOk = true ∧ r.reg.writeLevel ≤ State.reset.me.ctl.level ∧ Ready (withReg 6 5 true) [6] ∧
      (withReg 6 5 true).me.poisoned 6 = true ∧ State.reset.me.poisoned 6 = false ∧ r.q = false ∧ (handled false).me.ctl.level < r.reg.writeLevel) ∧
    (1 ≤ ((withReg 6 5 false).me.val 6).toNat % 8 ∧ ((withReg 6 5 false).me.val 6).toNat % 8 ≤ 5) ∧
    (part 4095 44 32 = 0 ∧ part (2 ^ 32 * 4080 + 16) 44 32 ≠ 0 ∧ 16 + 4080 ≤ 4096 ∧ part (20 * 2 ^ 59) 63 59 ≤ 20 ∧ part 34 5 1 ≤ 17 ∧ part 88 6 1 ≤ 44) ∧
    (∃ r ∈ plainK, r.q = true ∧ r.num = 0x034 ∧ State.reset.me.ctl.hold = none ∧ withLate.me.q.all ≠ [] ∧ State.reset.me.q.all = [] ∧ State.reset.me.fl.cmds = []) ∧
    (∃ r ∈ rowK, r.1 = 0x014 ∧ (match (withReg 6 0 false).writeAt 0 0 r.2 0 with
      | .done _ => true
      | _ => false) = true) := by
  refine ⟨by decide, by decide, ⟨rfl, by decide, by unfold Ready; decide, by decide⟩, ?_, by decide, by decide, ?_, ?_⟩
  · exact ⟨⟨0x006, .ktvec, span 55 5, 0, fun _ => True, false⟩, by simp [plainK, plainK0], rfl, by decide, by decide, by unfold Ready; decide, by decide,
      by decide, rfl, by decide⟩
  · exact ⟨⟨0x034, .ksemb, span 55 9, 0, fun _ => True, true⟩, by simp [plainK, plainK1], rfl, rfl, by decide, by decide, by decide, by decide⟩
  · exact ⟨(0x014, .knoise), by decide, rfl, by decide +kernel⟩

/-- Reset with the launch memories, REM of the core in focus 1 or 0. -/
def launchable (rem : Nat) : State :=
  (poke fun x => { (x.updReg 6 fun _ => ⟨0x8000, false, false⟩) with klq := BitVec.ofNat 64 rem }).updDie 0 fun y =>
    { y with stack := launchStack, basin := launchBasin }
/-- The status launch would answer for the packet at 0x8000. -/
def launchGives (s : State) : Option Nat :=
  match s.readPacket (s.me.val 6).toNat (List.range 5) with
  | .ok (k, t) => some (t.launchStatus k)
  | .error _ => none
theorem witness_launch : Ready (launchable 1) [5, 6] ∧ (launchable 1).me.poisoned 6 = false ∧ launchGives (launchable 1) = some 0 ∧
    launchGives (launchable 0) = some 2 ∧ (launchable 1).me.loadsBack = true ∧ (launchable 1).storesAt .pod = true ∧ (launchable 1).me.tls.tll.last + 1 < 2 ^ 56 ∧
    ((launchable 1).updMe fun x => { x with fl := { x.fl with loads := [⟨.ld .d64, 9, 0x40, 0⟩] } }).me.loadsBack = false := by
  simp only [Ready]; decide +kernel
/-- Reset with child 1 of the core in focus, its end status given. -/
def withChild (st : Option Nat) : State :=
  { (poke fun x => { (x.updReg 6 fun _ => ⟨1, false, false⟩) with tls := { x.tls with tll := ⟨0, 1, []⟩ } }) with
    kids := [⟨State.reset.me.launchKey, State.reset.me.place, 1, st⟩] }
theorem witness_waitch : (Ready State.reset [5, 6] ∧ (State.reset.me.val 6).toNat % 2 ^ 56 = 0) ∧ ∀ st ∈ [none, some 0x05],
    Ready (withChild st) [5, 6] ∧ (withChild st).me.poisoned 6 = false ∧
    ((withChild st).me.val 6).toNat % 2 ^ 56 = 1 ∧ 1 ≤ (withChild st).me.tls.tll.last ∧
    ((withChild st).kids.find? fun k => k.launch == (withChild st).me.launchKey && k.kpos == (withChild st).me.place && k.num == 1).map
      (·.status) = some st := by
  simp only [Ready]; decide
/-- Reset after a return of a context whose child 1 another machine ran, tll's counter as given. -/
def foreign (counter : Nat) : State := poke fun x =>
  { (x.updReg 6 fun _ => ⟨1, false, false⟩) with tls := { x.tls with tll := ⟨counter, 1, []⟩ } }
theorem witness_waitch_foreign : ∀ c ∈ [0, 1], Ready (foreign c) [5, 6] ∧ (foreign c).me.poisoned 6 = false ∧
    ((foreign c).me.val 6).toNat % 2 ^ 56 = 1 ∧ 1 ≤ (foreign c).me.tls.tll.last ∧ (foreign c).me.tls.tll.counter = c ∧
    ((foreign c).kids.find? fun k => k.launch == (foreign c).me.launchKey && k.kpos == (foreign c).me.place && k.num == 1) = none := by
  simp only [Ready]; decide
theorem witness_taskst : (Ready State.reset [5, 6] ∧ State.reset.me.poisoned 6 = false ∧ State.reset.me.val 6 = 0) ∧
    Ready (withReg 6 1 false) [5, 6] ∧ (withReg 6 1 false).me.poisoned 6 = false ∧ (withReg 6 1 false).me.val 6 = 1 := by
  simp only [Ready]; decide
/-- Reset with a cache share of 8 entries over slot 0 on, and the tag entry of block 0 if it is given. -/
def cached (t : Option TagEntry) : State :=
  (poke fun x => { x with k := { x.k with kbcache := BitVec.ofNat 64 (8 * 2 ^ 44) } }).updDie 0 fun y => { y with tags := t.toList }
theorem witness_probe : let s := cached none
    let h := cached (some ⟨0, false, 255, 0⟩)
    let found := fun (s : State) => (s.me.cacheWays 0).findSome? fun w => (s.myDie.tagOf s.me.k.kslot.toNat w).bind fun t => if t.block = 0 then some t else none
    (Ready s [5, 6] ∧ s.me.poisoned 6 = false ∧ s.me.cacheEnt ≠ 0 ∧ (s.me.val 6).toNat = 0 ∧
      (s.translate 0 s.me s.me.ctl.level .read 0).isOk = true ∧ found s = none ∧ s.myDie.victim s.me.k.kslot.toNat (s.me.cacheWays 0) = some 0 ∧
      s.cmdsFull .tly = false ∧ s.me.nextNum .tly < 2 ^ 56) ∧
    found h = some ⟨0, false, 255, 0⟩ ∧ found (cached (some ⟨0, true, 255, 0⟩)) = some ⟨0, true, 255, 0⟩ ∧
    2 ^ 56 - 2 ^ 28 ≤ 2 ^ 56 - 1 ∧ 2 ^ 56 - 1 < 2 ^ 56 := by
  simp only [Ready]; decide
theorem witness_secreq : let s := withReg 6 0x0401 false
    (Ready s [5, 6, 7] ∧ s.me.poisoned 6 = false ∧ s.me.poisoned 7 = false ∧ secLegal (s.me.val 6) = true ∧ secLevel (s.me.val 6) ≤ s.me.ctl.level ∧
      (s.me.val 7).toNat < 2 ^ 56 ∧
      s.me.loadsBack = true ∧ s.storesAt .pod = true ∧ (s.me.val 6).toNat % 2 ^ 8 = 1 ∧
      (s.secPieces 0 (secAccess 1).2.1 (secAccess 1).1 (List.range (secAccess 1).2.2)).isOk = true) ∧ (storing 0x40 0x80).storesAt .pod = false ∧
    secLegal 4 = true ∧ secLegal 6 = true ∧ secLevel 6 ≤ State.reset.me.ctl.level := by
  simp only [Ready]; decide

theorem witness_ElementwiseResults : ∃ k, elemForm (.vadd ⟨1, .r⟩ ⟨2, .r⟩ ⟨3, .r⟩ false none) = some k ∧
    k.tag (k.srcs.map (tagOf (tiled 1))) = some 1 ∧ VGo (tiled 1) (.vadd ⟨1, .r⟩ ⟨2, .r⟩ ⟨3, .r⟩ false none) k.sp 1 ∧
    ((tiled 1).draw 0 0 (k.words (tiled 1))).isSome = true :=
  ⟨_, rfl, by decide, ⟨by decide, by decide, by decide, by decide, rfl, rfl⟩, by decide⟩

/-- vadd of fp32 tiles: v(d) = v(a) + v3. -/
def addOf (d a : Nat) : Instr := .vadd ⟨d, .r⟩ ⟨a, .r⟩ ⟨3, .r⟩ false none
/-- Replay of a log of 4 bytes that has been read to its end, rounding stochastic. -/
def ranOut : State :=
  let s := (tiled 1).updMe fun x => { x with k := { x.k with knoise := 2, knlogb := BitVec.ofNat 64 (4 * 2 ^ 32), knlogp := 4 } }
  { s with cur := { s.cur with kmode := 5 } }
/-- The tags and the words of vadd. -/
def addTag (s : State) (d a : Nat) : Option (Option Nat × Nat) :=
  (elemForm (addOf d a)).map fun k => (k.tag (k.srcs.map (tagOf s)), k.words s)
/-- A spout's tile 0 fetched but for element 5, whose address lies in the aperture. -/
def failing : State := streaming .spout [⟨0, Tile.zero 1, [⟨5, 0x02, 2 ^ 56 - 2 ^ 28, none, false⟩]⟩] 0
theorem witness_VectorWaitsAndFaults : let dr := streaming .drain [] 0
    let sp := streaming .spout [] 0
    let two := streaming .drain [⟨0, Tile.zero 1, []⟩, ⟨1, Tile.zero 1, []⟩] 0
    vHeld aheadOf (addOf 1 8) = true ∧
    (vHeld dr (addOf 1 48) = false ∧ dr.streamMisuse (tileReads (addOf 1 48)) (tileWrites (addOf 1 48)) = true) ∧
    (vHeld State.reset (addOf 1 2) = false ∧ State.reset.streamMisuse [2, 3] [1] = false ∧ addTag State.reset 1 2 = some (none, 0)) ∧
    (let s := (streaming .drain [] 0).updMe fun x => { x with tiles := List.replicate 64 (Tile.zero 2) }
     addTag s 48 2 = some (some 2, 0) ∧ s.drainTagBad [48] 2 = true) ∧
    (let s := streaming .spout [] 1
     vHeld s (addOf 1 48) = false ∧ addTag s 1 48 = some (some 1, 0) ∧ s.drainTagBad [1] 1 = false ∧ ∃ t, s.readBar false [48, 3] = .ends t) ∧
    (vHeld sp (addOf 1 48) = false ∧ addTag sp 1 48 = some (some 1, 0) ∧ sp.readBar false [48, 3] = .waits) ∧
    (let s := streaming .drain [] 1
     vHeld s (addOf 48 2) = false ∧ addTag s 48 2 = some (some 1, 0) ∧ s.readBar false [2, 3] = .clear ∧ ∃ t, s.writeBar [48] = .ends t) ∧
    (vHeld two (addOf 48 2) = false ∧ addTag two 48 2 = some (some 1, 0) ∧ two.drainTagBad [48] 1 = false ∧ two.writeBar [48] = .waits) ∧
    (vHeld failing (addOf 1 48) = false ∧ addTag failing 1 48 = some (some 1, 0) ∧ failing.drainTagBad [1] 1 = false ∧
      ∃ t n f, failing.readBar false [48, 3] = .fails t n f) ∧
    (addTag ranOut 1 2 = some (some 1, 1024) ∧ ranOut.readBar false [2, 3] = .clear ∧ ranOut.writeBar [1] = .clear ∧
      (ranOut.draw 0 0 1024).isNone = true) := by
  refine ⟨by decide, by decide, by decide, by decide, ⟨by decide, by decide, by decide, 48, rfl⟩, ⟨by decide, by decide, rfl⟩,
    ⟨by decide, by decide, rfl, 48, rfl⟩, ⟨by decide, by decide, by decide, rfl⟩,
    ⟨by decide, by decide +kernel, by decide +kernel, 48, 0, _, rfl⟩, by decide, rfl, rfl, by decide⟩

theorem witness_SpecialFunctionInputs : fmtBf16 ∈ [fmtFp32, fmtBf16, fmtFp16] ∧ 0xFFFF < 2 ^ fmtBf16.w ∧ 2 ^ 15 - 2 ^ 7 < 0xFFFF % 2 ^ 15 ∧
    1 ≤ 1 ∧ 2 ^ 7 < 2 ^ 15 - 2 ^ 7 := by decide
theorem witness_FormatsHoldTheirValues : (∃ f, floatFmt 0x01 = some f ∧ 2 ^ 32 - 1 < 2 ^ f.w) ∧
    (⟨.rtz, false, false⟩ : Mode).rnd = .rtz ∧ (⟨.rtz, false, false⟩ : Mode).ftz = false := ⟨⟨_, rfl, by decide⟩, rfl, rfl⟩

theorem witness_CopiesMasksAndScalars : let s := tiled 1
    let b := blockTiles 1
    (tagOf s ⟨2, .r⟩ ≠ 0 ∧ dirOk (tagOf s ⟨2, .r⟩) ⟨2, .r⟩ ∧ VGo s (.vmov ⟨1, .r⟩ ⟨2, .r⟩ false none) false 1) ∧
    (dirOk 0x08 ⟨2, .r⟩ ∧ VGo s (.vtag ⟨1, .r⟩ ⟨2, .r⟩ 0x08 false .rne) false 0x08) ∧
    ((isFloat 0x30 || (bitsFmt 0x30).isSome) = true ∧ VGo s (.vsplat ⟨1, .r⟩ 5 0x30 false .rne) false 0x30) ∧
    VGo s (.vclr ⟨1, .r⟩ false none) false (s.me.tagAt 1 s.cur.rank) ∧ VGo s (.vpchk ⟨1, .r⟩ ⟨2, .r⟩ false none) false 0x30 ∧
    (∀ c ∈ [0, 1], tagOf (blockTiles c) ⟨1, .r⟩ = 0x30 ∧ tagOf (blockTiles c) ⟨6, .r⟩ ≠ 0 ∧
      ((blockTiles c).readTile 7).tag = tagOf (blockTiles c) ⟨6, .r⟩ ∧ dirOk 0x08 ⟨6, .r⟩) ∧
    VGo b (.vsel ⟨9, .r⟩ ⟨1, .r⟩ ⟨6, .r⟩ 7 false .rne) false 0x08 ∧ VGo b (.vcommit ⟨9, .r⟩ ⟨1, .r⟩ ⟨6, .r⟩ 7 false .rne) false 0x08 ∧
    isBlock (tagOf b ⟨6, .r⟩) = true ∧ (b.readTile 6).side ≠ (b.readTile 7).side ∧
    ((blockTiles 0).readTile 6).side = ((blockTiles 0).readTile 7).side ∧ (poisonTile (blockTiles 0) 1).readTile 1 ≠ (blockTiles 0).readTile 1 ∧
    ((poisonTile (blockTiles 0) 1).readTile 1).poison.any id = true ∧ ((blockTiles 0).readTile 1).poison.any id = false ∧
    (s.readTile 2).tag ≠ 0 ∧ VGo s (.vxtr 2 5 1023 false .rne) false 0 ∧ (s.readTile 2).plain[1023]? = some (0, false) ∧
    ((poisonTile s 2).readTile 2).plain[0]? = some (0, true) := by
  refine ⟨⟨by decide, by unfold dirOk; decide, ⟨by decide, by decide, by decide, by decide, rfl, rfl⟩⟩,
    ⟨by unfold dirOk; decide, ⟨by decide, by decide, by decide, by decide, rfl, rfl⟩⟩,
    ⟨by decide, ⟨by decide, by decide, by decide, by decide, rfl, rfl⟩⟩, ⟨by decide, by decide, by decide, by decide, rfl, rfl⟩,
    ⟨by decide, by decide, by decide, by decide, rfl, rfl⟩, by unfold dirOk; decide, ⟨by decide, by decide, by decide, by decide, rfl, rfl⟩,
    ⟨by decide, by decide, by decide, by decide, rfl, rfl⟩, by decide, by decide +kernel, by decide +kernel, by decide +kernel, by decide +kernel,
    by decide +kernel, by decide, ⟨by decide, by decide, by decide, by decide, rfl, rfl⟩, by decide +kernel, by decide +kernel⟩

theorem witness_MovesBetweenElements : let s := tiled 1
    VGo s (.vrotr ⟨5, .r⟩ ⟨4, .r⟩ 63 false .rne) false (tagOf s ⟨4, .r⟩) ∧ VGo s (.vrotr ⟨5, .r⟩ ⟨4, .r⟩ 64 false .rne) false (tagOf s ⟨4, .r⟩) ∧
    (tagOf s ⟨4, .r⟩ ≠ 0 ∧ isBlock (tagOf s ⟨4, .r⟩) = false) ∧
    (VGo State.reset (.vbcr ⟨5, .r⟩ ⟨4, .r⟩ 15 false .rne) false (tagOf State.reset ⟨4, .r⟩) ∧ tagOf State.reset ⟨4, .r⟩ = 0) ∧
    (let t := s.updMe fun x => { x with tiles := x.tiles.set 6 (Tile.zero 0x28) }
     tagOf t ⟨6, .r⟩ ∈ [0x28, 0x29, 0x2A, 0x30] ∧ VGo t (.vperm ⟨5, .r⟩ ⟨4, .r⟩ ⟨6, .r⟩ false none) false (tagOf t ⟨4, .r⟩)) ∧
    (5 % 4 ≠ 0 ∧ 8 % 4 = 0 ∧ 4 % 4 = 0 ∧ (∀ u, u < 4 → (s.readTile (4 + u)).tag = 1) ∧ VGo s (.vtrn 8 4 false none) false 1) := by
  refine ⟨⟨by decide, by decide, by decide, by decide, rfl, rfl⟩, ⟨by decide, by decide, by decide, by decide, rfl, rfl⟩, by decide,
    ⟨⟨by decide, by decide, by decide, by decide, rfl, rfl⟩, by decide⟩, ⟨by decide, ⟨by decide, by decide, by decide, by decide, rfl, rfl⟩⟩,
    by decide, by decide, by decide, by decide, ⟨by decide, by decide, by decide, by decide, rfl, rfl⟩⟩

theorem witness_ReductionsAndScans : let s := tiled 1
    acrossForm (.vscanr .add ⟨6, .r⟩ ⟨4, .r⟩ false .latched) = some (.add, true, true, ⟨6, .r⟩, ⟨4, .r⟩, false, .latched) ∧
    (∀ e, e < 1024 → elemOf s ⟨4, .r⟩ e = some (0, false)) ∧ combineTag .add (tagOf s ⟨4, .r⟩) = true ∧
    VGo s (.vscanr .add ⟨6, .r⟩ ⟨4, .r⟩ false .latched) false (tagOf s ⟨4, .r⟩) ∧
    (s.draw 0 0 (if RedOp.add = .add ∧ isFloat (tagOf s ⟨4, .r⟩) = true ∧ (modeOf s.cur.kmode (some .latched)).rnd = .rsto then 16 * 63 else 0)).isSome = true :=
  ⟨rfl, fun e h => by
    have p : ((tiled 1).readTile 4).elems .r = (List.replicate 1024 0).zip (List.replicate 1024 false) := rfl
    show (((tiled 1).readTile 4).elems .r)[e]? = _
    rw [p, List.getElem?_zip_eq_some]
    exact ⟨(List.getElem?_replicate ..).trans (if_pos h), (List.getElem?_replicate ..).trans (if_pos h)⟩, by decide, ⟨by decide, by decide, by decide, by decide, rfl, rfl⟩, by decide⟩

/-- Reset with the noise registers as given, over an allotment at page 16. -/
def noisy (mode base ptr : Nat) : State := poke fun x => { x with
  k := { x.k with knoise := BitVec.ofNat 64 mode, knlogb := BitVec.ofNat 64 base, knlogp := BitVec.ofNat 64 ptr } }
theorem witness_NoiseWords : VGo State.reset (.vrand ⟨5, .r⟩ 0x01 false) false 0x01 ∧ (State.reset.draw 0 0 1024).isSome = true ∧
    State.reset.hasCore 0 0 = true ∧ (State.reset.core 0 0).k.knoise.toNat % 4 = 0 ∧
    (∀ p ∈ [0, 60], let x := (noisy 1 (64 * 2 ^ 32) p).core 0 0
      x.k.knoise.toNat % 4 = 1 ∧ x.k.knlogp.toNat % 2 ^ 32 = p) ∧ 60 + 4 = 64 ∧
    (let x := (noisy 2 (64 * 2 ^ 32) 0).core 0 0
     x.k.knoise.toNat % 4 = 2 ∧ 64 < 0 + 4 * 17 ∧ 0 + 4 * 16 ≤ x.k.knlogb.toNat / 2 ^ 32) :=
  ⟨⟨by decide, by decide, by decide, by decide, rfl, rfl⟩, by rfl, by decide, by decide, by decide, by decide, by decide⟩

/-- Tiles of a tag, an allotment of one page at page 16, s5 as given. -/
def basined (tag : Nat) (v : W64) : State := (tiled tag).updMe fun x =>
  { x.updReg 5 (fun _ => ⟨v, false, false⟩) with k := { x.k with kbasin := BitVec.ofNat 64 (2 ^ 32 + 16) } }
/-- The faults of BasinTransfers: of an access of n bytes at s5. -/
def basinFault (s : State) (n : Int) : Option Nat :=
  let b : Int := (s.me.val 5).toInt
  if b % 64 ≠ 0 then some 0x0B else if ¬ (0 ≤ b ∧ b + n ≤ (s.me.basinBytes : Int)) then some 0x0C else none
theorem witness_BasinTransfers : let s := basined 1 0
    (s.me.basinFree s.cur.rank [⟨0, 4288, true⟩] = true ∧ isBlock (s.me.tagAt 1 s.cur.rank) = false ∧
      VGo s (.vld 1 5 0 false none) false 1 ∧ basinFault s 4288 = none) ∧
    (VGo (basined 1 1) (.vld 1 5 0 false none) false 1 ∧ basinFault (basined 1 1) 4096 = some 0x0B ∧ basinFault (basined 1 (-64)) 4096 = some 0x0C ∧
      basinFault (basined 1 61504) 4096 = some 0x0C ∧ basinFault (basined 1 61440) 4096 = none) ∧
    (vHeld aheadOf (.vst 8 5 0 none) = true ∧ VGo s (.vst 1 5 0 none) false 0 ∧ (s.readTile 1).tag ≠ 0 ∧ (s.readTile 1).poison.any id = false ∧
      VGo s (.vsts 1 5 0 none) false 0 ∧ VGo State.reset (.vst 1 5 0 none) false 0 ∧ (State.reset.readTile 1).tag = 0 ∧
      VGo (poisonTile s 1) (.vst 1 5 0 none) false 0 ∧ ((poisonTile s 1).readTile 1).poison.any id = true) := by
  refine ⟨⟨by decide, by decide, ⟨by decide, by decide, by decide, by decide, rfl, rfl⟩, by decide⟩,
    ⟨⟨by decide, by decide, by decide, by decide, rfl, rfl⟩, by decide, by decide, by decide, by decide⟩, by decide,
    ⟨by decide, by decide, by decide, by decide, rfl, rfl⟩, by decide, by decide +kernel,
    ⟨by decide, by decide, by decide, by decide, rfl, rfl⟩, ⟨by decide, by decide, by decide, by decide, rfl, rfl⟩, by decide,
    ⟨by decide, by decide, by decide, by decide, rfl, rfl⟩, by decide +kernel⟩
/-- An image at basin address 2^20 (offset 0 of page 16) with the tag byte as given. -/
def imaged (tag : Byte) (v : W64) : State := (basined 1 v).updDie 0 fun y => { y with basin := ⟨⟨[(2 ^ 20 + 4096 + 128, tag)]⟩, [], [], []⟩ }
/-- The tag byte an image at offset 0 has. -/
def imageTag (s : State) : Nat := leNat (s.myDie.basin.read 0 (s.me.basinAddr (4096 + 128)) 1)
theorem witness_vlds : let g := imaged 2 0
    let b := imaged 0x23 0
    (g.me.basinFree g.cur.rank [⟨0, 4288, false⟩] = true ∧ imageTag g = 2 ∧ tagAssigned 2 = true ∧
      (∀ n ∈ List.range 63, g.myDie.basin.byte 0 (g.me.basinAddr (4096 + 129 + n)) = 0) ∧ VGo g (.vlds 1 5 0 false none) false 2) ∧
    (imageTag b = 0x23 ∧ vHeld b (.vlds 1 5 0 false none) = false ∧ b.me.poisoned 5 = false ∧ b.streamMisuse [] [1] = false ∧
      VGo b (.vlds 1 5 0 true none) true 0x30) ∧
    (VGo (imaged 2 61440) (.vlds 1 5 0 true none) true 0x30 ∧ ¬ (61440 + 4096 + 192 ≤ ((imaged 2 61440).me.basinBytes : Int))) ∧
    (VGo (imaged 2 1) (.vlds 1 5 0 true none) true 0x30 ∧ basinFault (imaged 2 1) 4288 = some 0x0B) ∧
    VGo (imaged 2 1) (.vlds 1 5 0 false none) false ((imaged 2 1).me.tagAt 1 (imaged 2 1).cur.rank) := by
  refine ⟨⟨by decide, by decide, by decide, by decide +kernel, ⟨by decide, by decide, by decide, by decide, rfl, rfl⟩⟩,
    ⟨by decide, by decide, by decide, by decide, ⟨by decide, by decide, by decide, by decide, rfl, rfl⟩⟩,
    ⟨⟨by decide, by decide, by decide, by decide, rfl, rfl⟩, by decide⟩, ⟨⟨by decide, by decide, by decide, by decide, rfl, rfl⟩, by decide⟩,
    ⟨by decide, by decide, by decide, by decide, rfl, rfl⟩⟩

theorem witness_QuantisersAndTables : let s := tiled 1
    let b := blockTiles 0
    (isArithFloat (tagOf s ⟨2, .r⟩) = true ∧ dirOk 0x08 ⟨1, .r⟩ ∧ (mxFmt 0x08).isSome = true ∧ (lxM 0x10).isSome = true ∧ cbTable 0x41 = some 1 ∧
      VGo s (.vqmx ⟨1, .r⟩ ⟨2, .r⟩ 0x08 false .rne) false 0x08 ∧ VGo s (.vqlx ⟨1, .r⟩ ⟨2, .r⟩ 0x10 false .rne) false 0x10 ∧
      VGo s (.vqcb ⟨1, .r⟩ ⟨2, .r⟩ 0x41 1 false .rne) false 0x41 ∧ (s.draw 0 0 0).isSome = true) ∧
    (isBlock 0x08 = true ∧ VGo s (.vbscale ⟨1, .r⟩ ⟨2, .r⟩ 0x08 false .rne) false 0x01) ∧
    ((0 : Nat) = (cbTable 0x08).getD 0 ∧ 62 % 2 = 0 ∧ 62 + 1 < s.me.ctx.tiles ∧ VGo s (.vsplit ⟨62, .r⟩ ⟨2, .r⟩ 0x08 0 false .rne) false 0x08) ∧
    (isArithFloat 1 = true ∧ isBlock (tagOf b ⟨2, .r⟩) = true ∧ VGo b (.vdq ⟨3, .r⟩ ⟨2, .r⟩ 1 0 false .rne) false 1) ∧
    (mxFmt 0x08 = some fmtE2 ∧ chooseScale 0x08 ⟨false, false, []⟩ [.fin false 3 0] = .e8m0 126) ∧
    (let t := basined 2 0
     tagOf t ⟨2, .r⟩ = 2 ∧ VGo t (.vcbld ⟨2, .r⟩ 2 15) false 0 ∧ t.bookHeld 0 0 t.cur.rank 15 = false ∧ 0 < t.me.basinBytes ∧
       VGo (poisonTile t 2) (.vcbld ⟨2, .r⟩ 2 15) false 0 ∧ (elemOf (poisonTile t 2) ⟨2, .r⟩ 256).map (·.2) = some true ∧
       (elemOf t ⟨2, .r⟩ 256).map (·.2) = some false ∧ (tiled 2).me.basinBytes = 0 ∧ VGo (tiled 2) (.vcbld ⟨2, .r⟩ 2 15) false 0 ∧
       t.me.basinFree t.cur.rank [⟨65536 - 8448 + 528 * 15, 65536 - 8448 + 528 * 15 + 528, true⟩] = true) := by
  refine ⟨⟨by decide, by unfold dirOk; decide, by decide, by decide, by decide, ⟨by decide, by decide, by decide, by decide, rfl, rfl⟩,
    ⟨by decide, by decide, by decide, by decide, rfl, rfl⟩, ⟨by decide, by decide, by decide, by decide, rfl, rfl⟩, by decide⟩,
    ⟨by decide, ⟨by decide, by decide, by decide, by decide, rfl, rfl⟩⟩, ⟨by decide, by decide, by decide, ⟨by decide, by decide, by decide, by decide, rfl, rfl⟩⟩,
    ⟨by decide, by decide, ⟨by decide, by decide, by decide, by decide, rfl, rfl⟩⟩, ⟨rfl, by decide⟩,
    by decide, ⟨by decide, by decide, by decide, by decide, rfl, rfl⟩, by decide, by decide, ⟨by decide, by decide, by decide, by decide, rfl, rfl⟩,
    by decide +kernel, by decide +kernel, by decide, ⟨by decide, by decide, by decide, by decide, rfl, rfl⟩, by decide⟩

theorem witness_CommandsWaitToIssue : let scal := taskScalars 5 none
    ((pendingReg 5).eReady scal = false) ∧
    (4 ≤ ((poke fun x => { x with fl := { x.fl with cmds := List.replicate 4 (cmdOf .tlm 1 (.aczr 5 9) .waiting) } }).me.fl.cmds.filter
      fun k => k.tl == .tlm).length) ∧
    (let s := poke fun x => { x with tls := { x.tls with tlm := ⟨0, 2 ^ 56 - 1, []⟩ } }
     s.eReady scal = true ∧ s.me.fl.cmds = [] ∧ (s.me.tls.get .tlm).last + 1 ≥ 2 ^ 56) := by decide

theorem witness_mmw_mma : let s := issuing true 0x02 0
    (IssueGo s .tlm (operandScalars 5 (some (shape 32 32 1 1 0 0 2))) ∧ HasRecord s 5 (some (shape 32 32 1 1 0 0 2)) (patOf 32 32 1 1 0 2) ∧
      mmwLimits (patOf 32 32 1 1 0 2) = true ∧ (tagClass 2).isSome = true ∧ (patOf 32 32 1 1 0 2).formatBad = false ∧
      s.me.booksWait s.cur.rank [patOf 32 32 1 1 0 2] = false) ∧
    (IssueGo s .tlm (operandScalars 5 (some (shape 64 16 512 1 0 0 2))) ∧ HasTile s 3 ∧ bsBad (some (shape 64 16 512 1 0 0 2)) = false ∧
      HasRecord s 5 (some (shape 64 16 512 1 0 0 2)) (patOf 64 16 512 1 0 2) ∧ mmaLimits (patOf 64 16 512 1 0 2) = true ∧
      mmaFormat (patOf 64 16 512 1 0 2) .r (tagOf s ⟨3, .r⟩) = true ∧ s.me.tagsWait s.cur.rank [tagOf s ⟨3, .r⟩, 2] = false) :=
  ⟨⟨issueGo_of (by decide), ⟨by decide, rfl⟩, by decide, by decide, by decide, by decide⟩,
    issueGo_of (by decide), ⟨by decide, by decide, by decide, rfl, by decide +kernel⟩, by decide, ⟨by decide, rfl⟩, by decide, by decide, by decide⟩
theorem witness_accumulators : let s := issuing true 0x02 0x10000
    (IssueGo s .tlm [5, 6] ∧ IssueGo s .tlm [5] ∧ reqBad (s.me.val 5) = false ∧ (s.me.val 6).toNat < 2 ^ 32) ∧
    (IssueGo s .tlm (operandScalars 5 (some (shape 64 16 1 1 0 0 1))) ∧ HasSink s 3 ∧ bsBad (some (shape 64 16 1 1 0 0 1)) = false ∧
      HasRecord s 5 (some (shape 64 16 1 1 0 0 1)) (patOf 64 16 1 1 0 1) ∧ acdrLimits (patOf 64 16 1 1 0 1) = true) ∧
    (IssueGo s .tlm (operandScalars 5 (some (shape 64 16 512 1 0 0 2))) ∧ 47 < 48 ∧ s.me.mWriteWaits s.cur.rank [47] = false ∧
      HasRecord s 5 (some (shape 64 16 512 1 0 0 2)) (patOf 64 16 512 1 0 2) ∧
      mmarTagBad (patOf 64 16 512 1 0 2) (s.me.tileAt 47 s.cur.rank).tag = false ∧ (s.peer 0 s.me 0).isOk = true ∧
      s.me.tagsWait s.cur.rank [2] = false) :=
  ⟨⟨issueGo_of (by decide), issueGo_of (by decide), by decide, by decide⟩,
    ⟨issueGo_of (by decide), ⟨by decide, by decide, by decide, rfl⟩, by decide, ⟨by decide, rfl⟩, by decide⟩,
    issueGo_of (by decide), by decide, by decide, ⟨by decide, rfl⟩, by decide, by decide, by decide⟩

/-- A directory entry for identity 0: 32 × 32 weights of bf16, granted to one tenant. -/
def widEntry (grant : Byte) : DirEntry :=
  ⟨0, List.replicate 16 0 ++ [32, 0, 32, 0, 64, 0, 0, 0, 0x02, 0, 1, 0] ++ List.replicate 12 0 ++
    (List.range 8).flatMap (fun _ => [grant, 0]) ++ List.replicate 8 0⟩
/-- Issuing a task, with a directory that grants identity 0 to a tenant. -/
def tasking (grant : Byte) : State := (issuing true 0x02 0).updDie 0 fun y => { y with wdir := [widEntry grant] }
/-- An inline task record: output bf16, one row. -/
def taskShape : Shape4 := ⟨0x02, 2 ^ 24, 0, 0⟩
theorem witness_task : ∀ fwd, ∀ g ∈ [(0 : Byte), 1],
    let s := tasking g
    modeMatches s.me (some taskShape) = true ∧ s.me.bindWaits s.cur.rank [3] = false ∧
    s.me.mReadWaits s.cur.rank [3] = false ∧ s.streamMisuse [3] [] = false ∧
    (match s.taskRecord 5 (some taskShape) with
      | .ok r => r.legal fwd && (match s.taskDie r fwd with
          | .ok dd => dd == 0
          | .error _ => false) && (match checkTask (s.die 0) s.me.ctx.tenant r (tagOf s ⟨3, .r⟩) .r with
          | .ok => g == 0
          | .refused => g == 1
          | .bad _ => false)
      | .error _ => false) = true ∧
    (s.die 0).tableFull = false ∧ s.entrantsWait 0 = false := by decide +kernel
theorem witness_task_enters : IssueGo (tasking 0) .tlm (taskScalars 5 (some taskShape)) ∧ HasTile (tasking 0) 3 :=
  ⟨issueGo_of (by decide), ⟨by decide, by decide, by decide, rfl, by decide +kernel⟩⟩

theorem witness_SplitCommandsEnter : let s := issuing true 0x02 0
    let tens := shape 32 32 1 1 32 63 2
    (IssueGo s .tln (operandScalars 5 (some tens)) ∧ modeMatches s.me (some tens) = true ∧ s.relSlot 5 (some tens) = .ok 63) ∧
    (HasRecord s 5 (some tens) { patOf 32 32 1 1 63 2 with st1 := 32 } ∧ splrLimits { patOf 32 32 1 1 63 2 with st1 := 32 } = true) ∧
    (IssueGo s .tln (operandScalars 5 (some (shape 2048 1 1 1 0 63 2))) ∧ HasRecord s 5 (some (shape 2048 1 1 1 0 63 2)) (patOf 2048 1 1 1 63 2) ∧
      spmvLimits (patOf 2048 1 1 1 63 2) = true ∧ 62 % 2 = 0 ∧ (groupTiles 62 2048).length = 2 ∧ 62 + 2 ≤ s.me.ctx.tiles ∧
      (∀ v ∈ groupTiles 62 2048, HasTile s v ∧ xTagOk 2 2048 (s.readTile v).tag = true) ∧ (∀ v ∈ groupTiles 62 2048, s.me.bindingAt v s.cur.rank = none) ∧
      s.streamMisuse [62, 63] [] = false ∧ s.readBar false [62, 63] = .clear) ∧
    (IssueGo s .tln (operandScalars 5 (some (shape 1 1 1 1 0 63 1))) ∧ HasSink s 3 ∧
      HasRecord s 5 (some (shape 1 1 1 1 0 63 1)) (patOf 1 1 1 1 63 1) ∧ spjnLimits (patOf 1 1 1 1 63 1) = true) ∧
    (IssueGo s .tln [5] ∧ (s.me.val 5).toNat < 64 ∧ IssueGo s .tln [5, 6] ∧ (s.me.val 6).toNat % 64 = 0) := by
  refine ⟨⟨issueGo_of (by decide), by decide, rfl⟩, ⟨⟨by decide, rfl⟩, by decide⟩,
    ⟨issueGo_of (by decide), ⟨by decide, rfl⟩, by decide, by decide, by decide, by decide, ?_, by decide, by decide, rfl⟩,
    ⟨issueGo_of (by decide), ⟨by decide, by decide, by decide, rfl⟩, ⟨by decide, rfl⟩, by decide⟩,
    issueGo_of (by decide), by decide, issueGo_of (by decide), by decide⟩
  have g : groupTiles 62 2048 = [62, 63] := by decide
  rw [g]
  intro v h
  simp only [List.mem_cons, List.not_mem_nil, or_false] at h
  rcases h with rfl | rfl <;> exact ⟨⟨by decide, by decide, by decide, rfl, by decide +kernel⟩, by decide⟩

theorem witness_CopyAndStreamCommandsEnter : let s := copying
    let pat := fun r => checkPattern (s.handlePattern (s.me.val r))
    (copyForm (.cp 9 10 10 .plain)).isSome = true ∧ IssueGo s .tly [10, 20, 21, 10] ∧
    [10, 10].map pat = [patOf 1024 1 1 1 0 1, patOf 1024 1 1 1 0 1].map .ok ∧
    [10, 20, 21].map pat = [patOf 1024 1 1 1 0 1, patOf 32 1 1 1 0 1, patOf 32 1 1 1 0 0x28].map .ok ∧
    [20, 10, 21].map pat = [patOf 32 1 1 1 0 1, patOf 1024 1 1 1 0 1, patOf 32 1 1 1 0 0x28].map .ok ∧
    (patOf 1024 1 1 1 0 1).count = (patOf 32 1 1 1 0 1).e0 * (patOf 32 1 1 1 0 0x28).count ∧
    s.me.booksWait s.cur.rank [patOf 1024 1 1 1 0 1, patOf 32 1 1 1 0 0x28] = false ∧ ¬ s.cur.rep + 1 < s.cur.reps ∧
    (s.engineFor 0 0).isSome = true ∧
    (patArg (.gath 9 10 20 .plain) [] [patOf 1024 1 1 1 0 1, patOf 32 1 1 1 0 1, patOf 32 1 1 1 0 0x28]).steps ≤ 2 ^ 24 :=
  ⟨rfl, issueGo_of (by decide), by rfl, by rfl, by rfl, by decide, by decide, by decide, by decide, by decide⟩
theorem witness_cpm_fill_flush : let s := copying
    let f := 2 * 2 ^ 25 + 47 * 2 ^ 19
    (IssueGo s .tly [10, 10, f / 2 ^ 5 % 2 ^ 6] ∧ s.cmdsFull .tlm = false ∧ s.me.nextNum .tlm < 2 ^ 56 ∧ f / 2 ^ 25 ≠ 1 ∧ f / 2 ^ 19 % 2 ^ 6 < 48 ∧
      s.me.mReadWaits s.cur.rank [47] = false ∧ (s.me.tileAt 47 s.cur.rank).poison.any id = false ∧
      checkPattern (s.handlePattern (s.me.val 10)) = .ok (patOf 1024 1 1 1 0 1) ∧
      (patArg (.cpm 9 10 10 .plain f) [] [patOf 1024 1 1 1 0 1, patOf 1024 1 1 1 0 1]).steps ≤ 2 ^ 24) ∧
    (IssueGo s .tly (5 :: operandScalars 10 none) ∧ modeMatches s.me none = true ∧
      checkPattern (s.operandPattern 10 none) = .ok (patOf 1024 1 1 1 0 1) ∧ isBlock 1 = false) ∧
    (IssueGo s .tly [5, 6] ∧ (s.me.val 6).toNat ≤ 2 ^ 32) :=
  ⟨⟨issueGo_of (by decide), by decide, by decide, by decide, by decide, by decide, by decide +kernel, by rfl, by decide⟩,
    ⟨issueGo_of (by decide), by decide, by rfl, by decide⟩, issueGo_of (by decide), by decide⟩
/-- Issuing over a stream tile 48 bound as a spout or a drain; s5 = 48. -/
def bound (kind : StreamKind) : State := (issuing false 0x02 48).updMe fun x =>
  { x with strm := [some ⟨kind, .plain, onePat 1, 1, 0, 0, [], 0, [], 0, [], none, none, []⟩] ++ List.replicate 15 none }
theorem witness_streams : let s := issuing false 0x02 63
    (IssueGo s .tly (5 :: operandScalars 10 none) ∧ checkPattern (s.operandPattern 10 none) = .ok (patOf 1024 1 1 1 0 1) ∧ s.me.ctx.tiles = 64 ∧
      (patOf 1024 1 1 1 0 1).count % 1024 = 0 ∧ (s.me.val 5).toNat = 63 ∧ s.me.boundNow 63 = false ∧ (patOf 1024 1 1 1 0 1).tag ≠ 0x23 ∧ s.cur.acc = [] ∧ s.cur.reps = s.cur.rep + 1 ∧
      s.me.strm.length = 16) ∧
    ∀ k ∈ [StreamKind.spout, .drain], IssueGo (bound k) .tly [5] ∧ ((bound k).me.val 5).toNat = 48 ∧
      ((bound k).me.stream 48).map (fun b => (b.kind, b.ending)) = some (k, none) :=
  ⟨⟨issueGo_of (by decide), by rfl, by decide, by decide, by decide, by decide, by decide, by decide, by decide, by decide⟩,
    fun k h => by
      simp only [List.mem_cons, List.not_mem_nil, or_false] at h
      rcases h with rfl | rfl <;> exact ⟨issueGo_of (by decide), by decide, by decide⟩⟩

theorem witness_FabricCommandsEnter : let s := issuing false 0x02 0
    s.me.ticketHolds = false ∧ IssueGo s .tlf [6, 7, 5, 8] ∧ HasPeer s 6 64 0 ∧ addrFault (s.me.val 6) (wBytes .n64) = none ∧
    (s.me.val 7).toNat < 4096 ∧ boxBad (s.me.val 8) = false ∧ (boxOf (s.me.val 7) (s.me.val 8)).map s.replica = [0].map .ok ∧
    47 < 48 ∧ s.me.mWriteWaits s.cur.rank [47] = false ∧ (s.me.val 7).toNat ≤ 1 ∧ s.me.loadsBack = true ∧ s.me.fl.cmds = [] :=
  ⟨by decide, issueGo_of (by decide), ⟨by decide +kernel, by decide +kernel, 0, ok_of (by decide +kernel), by decide +kernel⟩, by decide, by decide, by decide, by
      have b : boxOf ((issuing false 0x02 0).me.val 7) ((issuing false 0x02 0).me.val 8) = [(0, 0, 0)] := by decide
      rw [b]
      have r : (issuing false 0x02 0).replica (0, 0, 0) = .ok 0 := ok_of (by decide +kernel)
      exact congrArg (· :: []) r, by decide, by decide, by decide, by decide, by decide⟩
theorem witness_bulk : let s := issuing false 0x02 0
    modeMatches s.me none = true ∧ IssueGo s .tlf (6 :: 7 :: operandScalars 10 none) ∧ HasPeer s 6 1 0 ∧
    checkPattern (s.operandPattern 10 none) = .ok (patOf 1024 1 1 1 0 1) ∧
    s.me.basinFree s.cur.rank (remoteArg (.rget 9 6 10 .ord none) 0 0 0 0 [0] [patOf 1024 1 1 1 0 1]).prints = true ∧
    (remoteArg (.rget 9 6 10 .ord none) 0 0 0 0 [] [patOf 1024 1 1 1 0 1]).steps ≤ 2 ^ 24 ∧ (loading (.ld .d64)).me.loadsBack = false ∧ s.unperformed 0 0 = [] :=
  ⟨by decide, issueGo_of (by decide), ⟨by decide +kernel, by decide +kernel, 0, ok_of (by decide +kernel), by decide +kernel⟩, by rfl, by decide, by decide, by decide, by decide⟩
theorem witness_rfence : ((commanded (cmdOf .tlf 1 (.rld 9 6 8 .ord .n64) .running)).me.fl.cmds.any fun k => k.inMask 1) = true := by decide

/-- What TokensReportTheEnd asks of the first command of core 0. -/
def endState (s : State) : Option (CmdSt × Bool × Nat) := ((s.core 0 0).fl.cmds[0]?).map fun k => (k.st, k.ends.isEmpty && k.follow.isNone, k.token)
theorem witness_TokensReportTheEnd : (∀ st ∈ [CmdSt.finished 0, .failed 0x0A, .running],
    endState (commanded (cmdOf .tlm 1 (.aczr 5 9) st)) = some (st, true, 9)) ∧
    (let s := commanded (cmdOf .tlm 1 (.aczr 5 9) .waiting)
     s.hasCore 0 0 = true ∧ (s.core 0 0).ctl.hold = none ∧ (s.core 0 0).regs.length = 64 ∧ (s.core 0 0).ctl.frozen = false) := by decide

/-- Reset with a saved area at page 16 of the basin, empty but for its magic, version and header length; KSAVE names it. -/
def areaBasin : Store :=
  ⟨⟨[(2 ^ 20, 0x58), (2 ^ 20 + 1, 0x43), (2 ^ 20 + 2, 0x54), (2 ^ 20 + 3, 0x58), (2 ^ 20 + 4, 1), (2 ^ 20 + 7, 1)]⟩, [], [], []⟩
def savedArea : State := (poke fun x => { x with x := { x.x with ksave := 16 } }).updDie 0 fun y => { y with basin := areaBasin }
theorem areaBasin_above (a : Nat) (h : 2 ^ 20 + 8 ≤ a) : areaBasin.byte 0 a = 0 := by
  simp only [Store.byte, areaBasin, Store.bad, assocGet, Memory.get, readCells]
  simp
  repeat' split
  all_goals first | rfl | omega
theorem savedArea_zero : (savedArea.die 0).areaZero 16 = true := by
  unfold Die.areaZero
  rw [List.all_eq_true]
  intro p hp
  have h := (by decide +kernel : ∀ p ∈ (savedArea.die 0).zeroRanges 16, 8 ≤ p.1) p hp
  rw [List.all_eq_true]
  intro b hb
  obtain ⟨i, -, rfl⟩ := List.mem_map.1 hb
  have e : (savedArea.die 0).basin = areaBasin := rfl
  rw [e, areaBasin_above]
  · rfl
  · simp only [areaAt]
    omega
theorem savedArea_restores : savedArea.restoreStatus 0 0 = 0 := by
  have p : fieldOf (savedArea.core 0 0).x.ksave 11 0 = 16 := by decide
  simp only [State.restoreStatus, p, savedArea_zero]
  decide +kernel

theorem witness_RegisterWriteRowsRefuse : ((handled false).core 0 0).ctl.level < 1 ∧ 31 < 32 ∧
    ((field 0 2 0 = 0) ∧ 5 < field 6 2 0) ∧
    ((State.reset.core 0 0).vRetired = true ∧ field (noiseAfter (State.reset.core 0 0).k 0x014 3).1 1 0 = 3) ∧
    (field (BitVec.ofNat 64 (2 ^ 44)) 56 44 % 8 ≠ 0 ∧ shareOk 0 (field ((handled false).core 0 0).k.kbasin 44 32)) ∧
    64 < field 65 6 0 ∧ ¬ 64 < field 64 6 0 ∧
    ((∃ y ∈ inContext.dies, ∃ z ∈ y.cores, z.holds = true ∧ z.ctx.part = (inContext.die 0).part) ∧ field 0 7 0 = 0 ∧
      (∀ y ∈ (handled false).dies, (∀ z ∈ y.cores, z.holds = false) ∧ y.held = [])) ∧
    ((State.reset.die 0).preOp.isNone = true ∧ ((State.reset.die 0).lends[31]?).map (·.lent) = some false ∧
      (((handled false).updDie 0 fun y => { y with lends := y.lends.set 31 ⟨true, 0, 0⟩ }).die 0).lends[31]? = some ⟨true, 0, 0⟩) ∧
    (field (BitVec.ofNat 64 (3999 * 2 ^ 24)) 39 24 < 4000 ∧ ¬ field (BitVec.ofNat 64 (4000 * 2 ^ 24)) 39 24 < 4000 ∧
      (BitVec.ofNat 64 (4000 * 2 ^ 24)).getLsbD 11 = false ∧ ((handled false).core 0 0).holds = false) ∧
    ((BitVec.ofNat 64 (4000 * 2 ^ 24 + 2 ^ 11)).getLsbD 11 = true ∧ (inContext.core 0 (field (BitVec.ofNat 64 (4000 * 2 ^ 24 + 2 ^ 11)) 4 0)).holds = true) ∧
    (let s := inContext.updDie 0 fun y => { y with lends := y.lends.set 0 ⟨true, 0, 0⟩ }
     (s.core 0 0).holds = true ∧ ((s.die 0).lends[0]?).map (fun l => (l.lent, l.part)) = some (true, (s.core 0 0).ctx.part)) ∧
    (2 ^ 56 < 4096 * (field (BitVec.ofNat 64 (2 ^ 56 - 1)) 55 12 + field (BitVec.ofNat 64 (2 ^ 56 - 1)) 11 0) ∧
      ¬ 2 ^ 56 < 4096 * (field (BitVec.ofNat 64 (2 ^ 56 - 4096)) 55 12 + field (BitVec.ofNat 64 (2 ^ 56 - 4096)) 11 0)) := by
  refine ⟨by decide, by decide, by decide, by decide, ⟨by decide, by unfold shareOk; decide⟩, by decide, by decide,
    ⟨⟨_, .head _, _, .head _, by decide, by decide⟩, by decide, by decide +kernel⟩, ⟨by decide, by decide, by decide⟩, by decide, by decide, by decide, by decide⟩

theorem witness_ContextRegisterRows : let s := State.reset
    (s.hasCore 0 0 = true ∧ 1 ≤ field 5 2 0 ∧ field 5 2 0 ≤ 5 ∧ (s.core 0 0).vRetired = true ∧
      noiseOk (noiseAfter (s.core 0 0).k 0x014 0).1 (noiseAfter (s.core 0 0).k 0x014 0).2.1 (noiseAfter (s.core 0 0).k 0x014 0).2.2 0) ∧
    (vLate.core 0 0).vRetired = false ∧ (copying.core 0 0).quiet = false ∧ (1 ≤ (s.core 0 0).ctl.level ∧ (s.core 0 0).quiet = true ∧ shareOk 0 0) ∧
    (field 64 6 0 ≤ 64 ∧ (s.core 0 0).x.ks2root.getLsbD 0 = false ∧ field (s.core 0 0).x.ks2rtab 6 0 = 0 ∧ paPlace 0 (32 * 63) ≠ .unreachable ∧
      (s.readPa 0 (s.keyOf 0 (s.core 0 0).ctx.tenant) (32 * 63) 32).2 = false) ∧
    (s.accessesDone 0 0 = true ∧ (loading (.ld .d64)).accessesDone 0 0 = false ∧ 2 ≤ (s.core 0 0).ctl.level) ∧
    (∀ e f, f < 32 → s.hasCore e f = true → s.accessesDone e f = true) :=
  ⟨⟨by decide, by decide, by decide, by decide, by unfold noiseOk; decide⟩, by decide, by decide, ⟨by decide, by decide, by unfold shareOk; decide⟩,
    by decide, by decide, fun e f _ h => by
      have : e < 8 := of_decide_eq_true (Bool.and_eq_true_iff.mp h).1
      have k : ∀ e : Fin 8, ∀ f : Fin 32, State.reset.accessesDone e.1 f.1 = true := by decide
      exact k ⟨e, this⟩ ⟨f, by assumption⟩⟩

/-- At level S, holding context slot 0, its handler held; KSAVE names a page. -/
def holding (page : Nat) : State := (inTrap false 0).updMe fun x =>
  { x with k := { x.k with kslot := 0 }, x := { x.x with ksave := BitVec.ofNat 64 page } }
theorem witness_ContextOperations : (State.reset.hasCore 0 0 = true ∧ 1 ≤ (State.reset.core 0 0).ctl.level ∧ (State.reset.core 0 0).ctl.hold = none) ∧
    ((holding 15).hasCore 0 0 = true ∧ 1 ≤ ((holding 15).core 0 0).ctl.level ∧ ((holding 15).core 0 0).ctl.hold.isSome = true ∧ ((holding 15).core 0 0).holds = true ∧
      field ((holding 15).core 0 0).x.ksave 11 0 < 16 ∧ 4096 < field ((holding 4091).core 0 0).x.ksave 11 0 + 6) ∧
    ((holding 16).quiesced 0 0 = true ∧ field ((holding 16).core 0 0).x.ksave 11 0 = 16 ∧ field ((holding 4090).core 0 0).x.ksave 11 0 + 6 = 4096) ∧
    (let s := (holding 16).updMe fun x => { x with fl := { x.fl with cmds := [cmdOf .tlm 1 (.aczr 5 9) .running] } }
     s.quiesced 0 0 = false ∧ (s.core 0 0).holds = true) ∧
    ((loading (.ld .d64)).filesStill 0 0 = false ∧ State.reset.filesStill 0 0 = true ∧ State.reset.restoreStatus 0 0 ≠ 0) ∧
    State.reset.releaseStatus 0 0 ≠ 0 := by decide
theorem witness_restore_release : savedArea.filesStill 0 0 = true ∧ savedArea.restoreStatus 0 0 = 0 ∧ ((savedArea.drainStores 0 0).die 0).areaPlace 16 ≠ none ∧
    (savedArea.updDie 0 fun y => { y with held := [⟨0, 0, 0, 0, 0, XRegs.reset, ⟨[], [], []⟩⟩] }).releaseStatus 0 0 = 0 :=
  ⟨by decide, savedArea_restores, by decide, by decide +kernel⟩

/-- A pre-emption operation of core 0 on core n, and core n with a stop, or without a slot. -/
def preempting (op n : Nat) (dn : Option Nat) : State := (inContext.updDie 0 fun y => { y with preOp := some ⟨0, op, n, 0, dn, false⟩ }).updCore 0 n fun x => x.askStop 1 32
theorem witness_DieRegisterRows : (State.reset.hasCore 0 0 = true ∧ 2 ≤ (State.reset.core 0 0).ctl.level ∧ field 0xFF 7 0 ≠ 0 ∧
      State.reset.partBusy (State.reset.die 0).part = false) ∧
    ((0 : W64).getLsbD 0 = false ∧ (1 : W64).getLsbD 0 = true) ∧
    ((State.reset.die 0).preOp.isNone = true ∧ (State.reset.core 0 31).holds = false) ∧
    ((inContext.core 0 0).holds = true ∧ field (inContext.core 0 0).x.ksave 11 0 < 16) ∧
    (let s := inContext.updMe fun x => { x with x := { x.x with ksave := 4090 } }
     (s.core 0 0).holds = true ∧ (s.die 0).preOp.isNone = true ∧ field (s.core 0 0).x.ksave 11 0 = 4090) ∧
    (((preempting 1 0 none).die 0).preOp = some ⟨0, 1, 0, 0, none, false⟩ ∧ ((preempting 1 0 none).core 0 0).holds = true) ∧
    (((preempting 1 31 none).die 0).preOp = some ⟨0, 1, 31, 0, none, false⟩ ∧ ((preempting 1 31 none).core 0 31).holds = false) ∧
    (∀ e ∈ [0, 4000], ((preempting 3 31 (some e)).die 0).preOp = some ⟨0, 3, 31, 0, some e, false⟩) ∧
    ((((preempting 3 31 none).die 0).lends[31]?).map (·.dl) = some 0 ∧ 0 < 4000 - 0) ∧
    (inContext.updDie 0 fun y => { y with preOp := some ⟨0, 2, 0, 0, none, true⟩ }).myDie.preOp = some ⟨0, 2, 0, 0, none, true⟩ ∧
    (4000 ≤ field (BitVec.ofNat 64 (4000 * 2 ^ 24)) 39 24 ∧ (State.reset.die 0).lends.length = 32 ∧
      ((inContext.die 0).lends[0]?).map (·.lent) = some false ∧ (inContext.core 0 0).holds = true) ∧
    4096 * (field (BitVec.ofNat 64 (2 ^ 56 - 4096)) 55 12 + field (BitVec.ofNat 64 (2 ^ 56 - 4096)) 11 0) ≤ 2 ^ 56 := by decide
/-- A board table with entry 0 for tenant 0 of a weight, the others unused. -/
def boarded (w : Byte) : State := pokeDie fun y => { y with stack :=
  ⟨⟨(if w = 0 then [] else [(770, w)]) ++ (List.range 63).flatMap fun i => [(772 + 4 * i, 0xFF), (773 + 4 * i, 0xFF)]⟩, [], [], []⟩ }
theorem witness_boards : (∀ w ∈ [(0 : Byte), 1], boardBad ((boarded w).readPa 0 0 0 1024).1 = (w == 0)) ∧
    leAt ((boarded 0).readPa 0 0 0 1024).1 768 2 ≠ 0xFFFF ∧ leAt ((boarded 0).readPa 0 0 0 1024).1 770 1 = 0 := by decide +kernel

/-- Running at H, mapped, at an address whose line's first lane is given. -/
def lined (addr : Nat) (lane0 : List (Nat × Byte)) : State := (poke fun x => { x with ctl := { x.ctl with run := .running, nextLine := addr } }).updDie 0 fun y =>
  { y with stack := ⟨⟨lane0⟩, [], [], []⟩ }
theorem between_of {x : Core} (h : x.fetches = true ∧ x.ctl.line = none ∧ x.ctl.refetch = none ∧ x.x.kdbgc = 0 ∧ x.ctl.stops = []) : Between x :=
  ⟨h.1, h.2.1, h.2.2.1, fun _ _ _ _ h' => by rw [h.2.2.2.1] at h'; simp at h', fun _ _ r h' => by rw [h.2.2.2.2] at h'; cases h'⟩
theorem witness_LinesAreDelivered : State.reset.hasCore 0 0 = true ∧ (State.reset.core 0 0).fetches = false ∧
    Between ((lined (2 ^ 56 - 2 ^ 28) []).core 0 0) ∧
    (Between ((lined (3 * 2 ^ 52) []).core 0 0) ∧ 3 * 2 ^ 52 < 2 ^ 56 - 2 ^ 28 ∧
      ((lined (3 * 2 ^ 52) []).translate 0 ((lined (3 * 2 ^ 52) []).core 0 0) 2 .fetch (3 * 2 ^ 52)).isOk = false) ∧
    (Between ((lined 0 []).core 0 0) ∧ ((lined 0 []).translate 0 ((lined 0 []).core 0 0) 2 .fetch 0).toOption.map (·.pa) = some 0 ∧
      ((lined 0 []).coreRead 0 0 0 32 0).2 = false ∧ lineFault 0 (List.replicate 7 0) false = 3) ∧
    lineFault 0x80000000 (List.replicate 7 0) false = 0 ∧
    (((lined 0 [(3, 0x80)]).coreRead 0 0 0 32 0).1.take 4 = [0, 0, 0, 0x80]) ∧
    ((((lined 0x40 []).updDie 0 fun y => { y with stack := { y.stack with marks := [1] } }).coreRead 0 0 0x40 32 0).2 = true) := by
  refine ⟨by decide, by decide, between_of (by decide), ⟨between_of (by decide), by decide, by decide⟩, ⟨between_of (by decide), by decide, by decide, by decide⟩,
    by decide, by decide, by decide⟩
/-- A line in work: its lanes done or the first C lane still to issue; or a line to be fetched again. -/
def working (word : Nat) : State := (lined 0 []).updMe fun x => { x with ctl := { x.ctl with line := some ⟨0, word :: List.replicate 7 0, 1, 0, .undecided, 0, 64, none⟩ } }
/-- A line whose lanes have issued, under STEP; a core whose next line is KBRK0's. -/
def stepped : Core := { (working 0x80000000).core 0 0 with x := { XRegs.reset with kdbgc := 8 } }
def broken : Core := { (lined 0x40 []).core 0 0 with x := { XRegs.reset with kdbgc := 2, kbrk0 := 0x40 } }
theorem witness_lines_in_work : ((working 0x80000000).core 0 0).fetches = true ∧ (((working 0x80000000).core 0 0).ctl.line.map (·.done)) = some true ∧
    (((working 1).core 0 0).ctl.line.map (·.done)) = some false ∧
    (let s := (lined 0 []).updMe fun x => { x with ctl := { x.ctl with refetch := some ⟨0x20, 2, 1, .notTaken, none⟩ } }
     (s.core 0 0).fetches = true ∧ (s.core 0 0).ctl.line = none ∧ (s.translate 0 (s.core 0 0) 2 .fetch 0x20).isOk = true ∧
       (s.coreRead 0 0 0x20 32 0).2 = false) ∧
    stepped.stepDone = true ∧ stepped.ctl.hold = none ∧
    (broken.ctl.brkDone = false ∧ broken.x.kdbgc.getLsbD 1 = true ∧ field broken.x.kbrk0 55 5 = broken.ctl.nextLine / 32 ∧ broken.fetches = true ∧
      broken.ctl.line = none ∧ broken.ctl.refetch = none) ∧
    (let x := broken.setCtl fun k => { k with brkDone := true, stops := [⟨2, 1⟩] }
     x.ctl.brkDone = true ∧ (∃ r ∈ x.ctl.stops, r.reason = 2 ∧ r.wait ≤ 1) ∧ x.fetches = true) ∧
    HeldBack ((vLate.core 0 0)) 0x80000000 [] := by
  refine ⟨by decide, by decide, by decide, by decide, by decide, by decide, by decide, by decide, .inr (.inl ⟨by decide, by decide, by decide⟩)⟩

theorem witness_IllegalLines : (List.replicate 7 0).length = 7 ∧ 8 ≤ tagAt 0x08000000 7 ∧
    (∀ h ∈ [0x70000000, 0, 6, 0x07000000, 0x01000001, 0x05000000], ∀ i, i < 8 → 1 ≤ i → tagAt h i < 8) ∧
    0x70000000 / 2 ^ 28 % 8 ≠ 0 ∧ (tagAt 6 1 = 6 ∧ (∀ i, i < 8 → 2 ≤ i → tagAt 6 i = 0) ∧ 6 / 2 ^ 28 % 8 = 0) ∧
    (tagAt 0x07000000 7 = 7 ∧ ∀ i, i < 7 → 1 ≤ i → tagAt 0x07000000 i = 0) ∧
    (2 ≤ tagAt 0x05000000 7 ∧ tagAt 0x05000000 7 ≤ 5 ∧ ∀ i, i < 7 → 1 ≤ i → tagAt 0x05000000 i = 0) := by decide
theorem witness_twoTransfers : twoTransfers 0x01000001 (0x4A000000 :: List.replicate 5 0 ++ [0x4A000000]) 1 7 := by
  intro k h1 h7
  have : k = 1 ∨ k = 2 ∨ k = 3 ∨ k = 4 ∨ k = 5 ∨ k = 6 ∨ k = 7 := by omega
  rcases this with rfl | rfl | rfl | rfl | rfl | rfl | rfl <;> first
    | exact ⟨by decide, fun _ => ⟨_, rfl, by decide⟩⟩
    | exact ⟨by decide, fun h => absurd h (by decide)⟩

/-- At work with a single command at core 0 of the die, which runs. -/
def serving (k : Cmd) (banks : List Bank) : State := (poke fun x => { x with
  ctl := { x.ctl with run := .running }, k := { x.k with kslot := 0 }, fl := { x.fl with cmds := [k] } }).updDie 0 fun y =>
  { y with cascs := y.cascs.modify 0 fun z => { z with banks := banks } }
theorem others_idle {s : State} (h : (s.die 0).cores.tail = List.replicate 31 Core.reset) (c : Nat) (hc : c ≠ 0) : s.core 0 c = Core.reset := by
  obtain ⟨n, rfl⟩ := Nat.exists_eq_succ_of_ne_zero hc
  have e : (s.die 0).cores[n + 1]? = (s.die 0).cores.tail[n]? := by simp [List.getElem?_tail]
  simp only [State.core, Nat.succ_eq_add_one]
  rw [e, h, List.getElem?_replicate]
  split <;> rfl
/-- A `tlm` command with one repetition. -/
def tlmCmd (a : CmdArg) : Cmd := { cmdOf .tlm 1 a.instr .waiting with args := [a] }
theorem servesOnly_of {a : CmdArg} {banks : List Bank} (h : let s := serving (tlmCmd a) banks
    (s.casc 0 0).pass = none ∧ (s.die 0).working.isNone = true ∧ s.cascadeCores 0 0 = [0] ∧
    ((s.core 0 0).cascadeWaiting 0).isSome = true ∧ (tlmCmd a).wantsFabric = false) : ServesOnly (serving (tlmCmd a) banks) 0 0 0 (tlmCmd a) a where
  core := by rfl
  casc := by
    show 0 < ((List.replicate 4 Cascade.reset).modify 0 fun z => { z with banks := banks }).length
    simp
  pass := h.1
  hot := by
    have : ((serving (tlmCmd a) banks).die 0).working = none := Option.isNone_iff_eq_none.mp h.2.1
    simp only [State.hotWaiting, this, Option.bind_none]
  only := h.2.2.1
  next := by
    have q := h.2.2.2.1
    revert q
    cases e : ((serving (tlmCmd a) banks).core 0 0).cascadeWaiting 0 with
    | none => simp
    | some k =>
      intro _
      simp only [Core.cascadeWaiting, Option.bind_eq_some_iff] at e
      obtain ⟨k', hk, e⟩ := e
      have m := List.mem_of_find?_eq_some hk
      have m' : k' ∈ [tlmCmd a] := m
      rw [List.mem_singleton] at m'
      split at e
      · rw [← Option.some.inj e, m']
      · cases e
  one := ⟨rfl, rfl, rfl⟩
  quiet := by
    intro c q hq
    by_cases hc : c = 0
    · subst hc
      have m : q ∈ [tlmCmd a] := hq
      rw [List.mem_singleton] at m
      rw [m]
      exact h.2.2.2.2
    · rw [others_idle rfl c hc] at hq
      cases hq
/-- A bank of the context of core 0. -/
def bank0 : Bank := ⟨0, 0, 0, 0⟩
/-- The command of one repetition a is next at cascade 0. -/
def Serves (a : CmdArg) (banks : List Bank) : Prop := ServesOnly (serving (tlmCmd a) banks) 0 0 0 (tlmCmd a) a
theorem witness_CascadesServeDirectCommands :
    Serves ⟨.acal 5 6 9, [0x010000, 0], [], none, none, [], []⟩ [] ∧ Serves ⟨.acal 5 6 9, [0x010000, 0], [], none, none, [], []⟩ [bank0] ∧
    Serves ⟨.acfr 5 9, [0x010000], [], none, none, [], []⟩ [bank0] ∧ Serves ⟨.aczr 5 9, [0x010000], [], none, none, [], []⟩ [] ∧
    Serves ⟨.mmw 9 5 0 false none, [], [patOf 32 32 1 1 0 2], none, none, [], []⟩ [] ∧
    Serves ⟨.mma ⟨3, .r⟩ 9 5 0 true none, [], [patOf 64 1 512 1 0 2], some (Tile.zero 2), none, [], []⟩ [bank0] ∧
    Serves ⟨.acdr 3 9 5 0 none, [], [patOf 64 16 1 1 0 1], none, none, [], []⟩ [bank0] :=
  ⟨servesOnly_of (by decide), servesOnly_of (by decide), servesOnly_of (by decide), servesOnly_of (by decide), servesOnly_of (by decide +kernel),
    servesOnly_of (by decide +kernel), servesOnly_of (by decide)⟩
theorem witness_cascade_operands : let s := serving (cmdOf .tlm 1 (.aczr 5 9) .waiting) [bank0]
    (field 0x010000 14 8 = 0 ∧ field 0x010000 23 16 = 1 ∧ s.banksHeld 0 (s.core 0 0) + 1 ≤ s.bankLimit (s.core 0 0)) ∧
    ((s.casc 0 0).banks = [bank0] ∧ bank0.tenant = (s.core 0 0).ctx.tenant ∧ bank0.slot = (s.core 0 0).k.kslot.toNat) ∧
    ((s.readable s 0 (s.core 0 0) ((List.range 32).flatMap (patOf 32 32 1 1 0 2).rowRuns)).isOk = true ∧
      (s.readable s 0 (s.core 0 0) ((List.range 32).flatMap { patOf 32 32 1 1 0 2 with base := 3 * 2 ^ 52 }.rowRuns)).isOk = false) ∧
    (((s.casc 0 0).row 0 0).length = 512 ∧ (s.casc 0 0).front.dup = [] ∧ (s.core 0 0).tiles.length = 64 ∧ (s.core 0 0).mWriteWaits 0 [3] = false) := by
  decide +kernel

/-- Running at A, stop as given, frozen or not. -/
def stopping (stop : List StopReq) (frozen : Bool) (f : Core → Core) : State := poke fun x =>
  f { x with k := { x.k with kslot := 0 }, x := { x.x with ksave := 4090 }, ctl := { x.ctl with run := .running, level := 0, stops := stop, frozen := frozen } }
theorem witness_FreezeKeepsAndResultsLand :
    (let s := stopping [⟨1, 0⟩] false id
     s.hasCore 0 0 = true ∧ (s.core 0 0).ctl.run = .running ∧ (s.core 0 0).ctl.hold = none ∧ (∃ r ∈ (s.core 0 0).ctl.stops, r.wait = 0) ∧
       (s.core 0 0).ctl.frozen = false) ∧
    ((State.reset.core 0 0).ctl.run ≠ .running) ∧
    (let s := poke fun x => { x with fl := { x.fl with results := [⟨63, 1, false, 0⟩] } }
     (takeFirst (fun (e : SRes) => e.reg == 63 && e.cycles == 0) (s.core 0 0).fl.results).isSome = true ∧ (s.core 0 0).regs.length = 64) ∧
    ((State.reset.core 0 0).fl.results = [] ∧ (State.reset.core 0 0).ctl.frozen = false ∧ (State.reset.core 0 0).ctl.faults = []) ∧
    (∀ n ∈ [0, 33], let s := poke fun x => { x with fl := { x.fl with dumped := [⟨1, 1, false, n⟩] } }
     ((s.core 0 0).fl.dumped[0]?).map (·.cycles) = some n) ∧
    (let s := poke fun x => { x with fl := { x.fl with vdumped := [⟨63, none, Tile.zero 1, 15, []⟩] } }
     ((s.core 0 0).fl.vdumped[0]?).map (fun v => (v.rows.all (· == 0), v.num, v.dst)) = some (true, none, 63) ∧ (s.core 0 0).tiles.length = 64) ∧
    (let s := stopping [] false fun x => { x with ctl := { x.ctl with faults := [⟨0, 0x40, 2, 0, 0, 0, 0, none, false, true⟩] } }
     (s.core 0 0).ctl.faults ≠ [] ∧ (s.core 0 0).ctl.run = .running ∧ (s.core 0 0).ctl.stops = [] ∧ (s.core 0 0).ctl.frozen = false) ∧
    (let s := stopping [] false fun x => { x with ctl := { x.ctl with noProg := 2 ^ 24, line := some ⟨0, 1 :: 0x6A00E008 :: List.replicate 6 0, 1, 0, .undecided, 0, 64, none⟩ } }
     2 ^ 24 ≤ (s.core 0 0).ctl.noProg ∧ (s.core 0 0).stalledSlots.length = 1) ∧ (State.reset.core 0 0).ctl.noProg < 2 ^ 24 := by
  decide +kernel
theorem witness_freeze_rows : let v : VRes := ⟨63, none, Tile.zero 1, Tile.zero 1, 4, List.replicate 15 0 ++ [2]⟩
    let s := stopping [⟨1, 0⟩] false fun x => { x with fl := { x.fl with vres := [v] } }
    (s.core 0 0).fl.vres = [v] ∧ v.late = true ∧ v.num = none ∧ v.dst < (s.core 0 0).tiles.length ∧ v.rows.length = 16 ∧ v.tile.cells.length = 1024 ∧
      v.old.cells.length = 1024 := by decide +kernel
theorem witness_StopsSaveAndFree : (∀ reason ∈ [1, 2], ∀ f, let s := stopping [⟨reason, 0⟩] f id
      StopNow (s.core 0 0) reason ∧ s.hasCore 0 0 = true ∧ (s.core 0 0).ctl.frozen = f ∧ (s.core 0 0).holds = true ∧ field (s.core 0 0).x.ksave 11 0 + 6 = 4096) ∧
    ((stopping [⟨1, 0⟩] true id).quiesced 0 0 = true) ∧
    ((stopping [⟨1, 0⟩] true fun x => { x with fl := { x.fl with cmds := [cmdOf .tlm 1 (.aczr 5 9) .running] } }).quiesced 0 0 = false) ∧
    (let s := stopping [⟨1, 0⟩] true fun x => { x with k := { x.k with kslot := 255 } }
     (s.core 0 0).holds = false) ∧ (State.reset.core 0 0).ctl.stops = [] ∧ (∀ r ∈ ((stopping [⟨1, 32⟩] false id).core 0 0).ctl.stops, r.wait ≠ 0) ∧
    (let s := (stopping [⟨1, 0⟩] true fun x => { x with ctl := { x.ctl with hold := some (x.holdOf 1) } }).updDie 0 fun y =>
       { y with preOp := some ⟨1, 3, 0, 0, none, false⟩ }
     (s.core 0 0).ctl.hold ≠ none ∧ (s.core 0 0).holds = true ∧ s.quiesced 0 0 = true ∧ (s.die 0).preOp = some ⟨1, 3, 0, 0, none, false⟩) := by
  refine ⟨fun r h f => ?_, by decide, by decide, by decide, by decide, by decide, by decide⟩
  simp only [List.mem_cons, List.not_mem_nil, or_false] at h
  rcases h with rfl | rfl <;> cases f <;> exact ⟨⟨by decide, by decide, by decide⟩, by decide, by decide, by decide, by decide⟩

/-- Engine 0 of die 0 serves a copy of core 0. -/
def copyingAt (a : CmdArg) (f : Core → Core) : State :=
  (poke fun x => f { x with k := { x.k with kbasin := BitVec.ofNat 64 (2 ^ 32 + 16) }, ctl := { x.ctl with run := .running },
                            fl := { x.fl with cmds := [{ cmdOf .tly 1 a.instr .running with args := [a], engine := .y, rank := 100 }] } }).updDie 0 fun y =>
    { y with copies := y.copies.set 0 ⟨some (0, 1), 3⟩ }
/-- A copy of one tile of fp32 from b1 to b0. -/
def cpArg (b0 b1 : Nat) : CmdArg := ⟨.cp 9 10 11 .plain, [], [{ onePat 1 with base := b0 }, { onePat 1 with base := b1 }], none, none, [], []⟩
/-- The step the engine would take: whether it is located, whether nothing holds it back, and whether it is performed. -/
def stepOf (s : State) : Option (Bool × Bool × Bool) := (s.served 0 0).bind fun p => (p.2.args[0]?).map fun a =>
  let v := s.released 0 p.2.rel
  match v.stepMoves 0 (s.core 0 0) p.2 a 0 with
  | .ok (ms, _) => (true, ms.all fun m => ((m.src ++ m.dst).all fun q => !s.pieceBusy 0 q) && m.dst.all fun q => !s.pieceBehind 0 p.2.rel q,
      (s.perform v 32 0 (s.core 0 0) .plain ms).isOk)
  | .error _ => (false, false, false)
/-- The core has a scalar store at an address under way that the command's issue released to it. -/
def releasing (pa : Nat) (x : Core) : Core := { x with fl := { x.fl with
  stores := [⟨pa, pa, [1], 0, 0, none⟩], cmds := x.fl.cmds.map fun k => { k with rel := [(0, 0)] } } }
theorem witness_copies : (stepOf (copyingAt (cpArg 0x1000 0x2000) id) = some (true, true, true) ∧ (copyingAt (cpArg 0x1000 0x2000) id).yields 0 0 0 = false ∧
      ((copyingAt (cpArg 0x1000 0x2000) id).core 0 0).basinFree 100 (cpArg 0x1000 0x2000).prints = true) ∧
    stepOf (copyingAt (cpArg 0x1000 0x2000) (releasing 0x1000)) = some (true, false, true) ∧
    stepOf (copyingAt (cpArg 0x1000 0x2000) (releasing 0x2000)) = some (true, true, true) ∧
    stepOf (copyingAt (cpArg (3 * 2 ^ 52) 0x2000) id) = some (false, false, false) ∧
    stepOf (copyingAt (cpArg 0x1000 0x2000) fun x => { x with x := { x.x with kdirty := 1 } }) = some (true, true, false) := by decide +kernel
theorem witness_copies_wait :
    ((copyingAt (cpArg (2 ^ 56 - 2 ^ 28) 0x2000) fun x => { x with q := { x.q with v := [⟨0, 0, ⟨1, .v, 0x42105000, [], []⟩, none, 0, none, 0, []⟩] } }).core 0 0).basinFree 100
      (cpArg (2 ^ 56 - 2 ^ 28) 0x2000).prints = false ∧
    (let s := ((copyingAt (cpArg 0x1000 0x2000) id).updDie 0 fun y => { y with seqr := { y.seqr with
        board := ⟨true, List.replicate 24 (List.replicate 16 7), []⟩ } }).updCore 0 1 fun x => { x with
        ctx := { x.ctx with tenant := 7 }, ctl := { x.ctl with run := .running }, fl := { x.fl with cmds := [{ cmdOf .tly 1 (.cp 9 10 11 .plain) .waiting with engine := .y }] } }
     s.yields 0 0 0 = true) := by decide +kernel
theorem witness_maintenance : (∀ p ∈ [(0, 64), (2 ^ 56, 64)], ∀ isFlush,
      let s := copyingAt ⟨if isFlush then .flush 9 5 6 else .inv 9 5 6, [BitVec.ofNat 64 p.1, BitVec.ofNat 64 p.2], [], none, none, [], []⟩ id
      (s.served 0 0).isSome = true ∧ s.stillOut 0 [] = [] ∧ (s.maintain 0 (s.core 0 0) isFlush (BitVec.ofNat 64 p.1) (BitVec.ofNat 64 p.2)).isOk = (p.1 == 0)) ∧
    (copyingAt ⟨.flush 9 5 6, [0, 64], [], none, none, [], []⟩ (releasing 0x40)).stillOut 0 [(0, 0)] ≠ [] ∧
    (let m := (State.reset.die 0).basin
     m.keys = [] ∧ m.anyBad 0x40 64 = false) ∧
    ((State.reset.updDie 0 fun y => { y with basin := { y.basin with marks := [0] } }).die 0).basin.anyBad 0 64 = true := by decide +kernel
/-- Running, a stream bound at tile 48 over a base. -/
def streamAt (kind : StreamKind) (ring : List RingTile) (base : Nat) (f : Core → Core) : State := poke fun x => f { x with
  k := { x.k with kbasin := BitVec.ofNat 64 (2 ^ 32 + 16) }, ctl := { x.ctl with run := .running },
  strm := [some ⟨kind, .plain, { onePat 1 with base := base }, 1, 100, 0, [], 0, [], 0, ring, none, none, []⟩] ++ List.replicate 15 none }
def vstQueued (x : Core) : Core := { x with q := { x.q with v := [⟨0, 0, ⟨1, .v, 0x42105000, [], []⟩, none, 0, none, 0, []⟩] } }
theorem witness_spouts :
    (let s := streamAt .spout [] 0x1000 id
     ((s.core 0 0).boundInOrder 48).map (fun b => (b.kind, ((s.core 0 0).behind 48 b).nextFetch)) = [(.spout, some 0)] ∧ (s.core 0 0).ctl.frozen = false ∧
       (s.core 0 0).basinFree 100 ({ onePat 1 with base := 0x1000 : Pattern }.print false) = true) ∧
    ((streamAt .spout [] (2 ^ 56 - 2 ^ 28) vstQueued).core 0 0).basinFree 100 ({ onePat 1 with base := 2 ^ 56 - 2 ^ 28 : Pattern }.print false) = false := by
  decide +kernel
/-- The moves of the drain's tile 0: whether they are located, whether a released store holds them back, and whether they are
performed. -/
def drainOf (s : State) (base : Nat) (rel : List (Nat × Nat)) : Bool × Bool × Bool :=
  match s.tileMoves 0 (s.core 0 0) { onePat 1 with base := base } 0 (Tile.zero 1) with
  | .ok ms => (true, ms.any fun m => m.dst.any (s.pieceBehind 0 rel), (s.perform s 0 0 (s.core 0 0) .plain ms).isOk)
  | .error _ => (false, false, false)
theorem witness_drains :
    (let s := streamAt .drain [⟨0, Tile.zero 1, []⟩] 0x1000 id
     ((s.core 0 0).boundInOrder 48).map (fun b => (b.kind, b.failed, b.ring.length, (s.core 0 0).ringLate b 0)) = [(.drain, none, 1, false)] ∧
       (s.core 0 0).basinFree 100 ({ onePat 1 with base := 0x1000 : Pattern }.print true) = true ∧ drainOf s 0x1000 [] = (true, false, true)) ∧
    drainOf (streamAt .drain [⟨0, Tile.zero 1, []⟩] 0x1000 (releasing 0x1000)) 0x1000 [(0, 0)] = (true, true, true) ∧
    drainOf (streamAt .drain [⟨0, Tile.zero 1, []⟩] 0x1000 fun x => { x with x := { x.x with kdirty := 1 } }) 0x1000 [] = (true, false, false) ∧
    drainOf (streamAt .drain [⟨0, Tile.zero 1, []⟩] (3 * 2 ^ 52) id) (3 * 2 ^ 52) [] = (false, false, false) := by decide +kernel
theorem witness_drains_wait :
    ((streamAt .drain [⟨0, Tile.zero 1, []⟩] (2 ^ 56 - 2 ^ 28) vstQueued).core 0 0).basinFree 100 ({ onePat 1 with base := 2 ^ 56 - 2 ^ 28 : Pattern }.print true) = false ∧
    (let s := streamAt .drain [⟨0, Tile.zero 1, []⟩] 0x1000 fun x => { x with fl := { x.fl with vres := [⟨48, some (1, 0), Tile.zero 1, Tile.zero 1, 0, List.replicate 16 5⟩] } }
     ((s.core 0 0).boundInOrder 48).map (fun b => (s.core 0 0).ringLate b 0) = [true]) := by decide +kernel

/-- A task of core 0 of die 0: one row of identity 0, output bf16, its result at an address. -/
def task0 (tag res : Nat) : Task := ⟨0, 0, 1, 0, 0, tag, 0, 0, 0, res, 0, 0x02, 1, 0, Tile.zero 2, .r, 0, 0, true, 0, 0, none⟩
/-- Its command. -/
def taskCmd0 : Cmd := { cmdOf .tlm 1 (.task ⟨3, .r⟩ 9 5 none) .running with args := [⟨.task ⟨3, .r⟩ 9 5 none, [], [], none, none, [], []⟩] }
/-- A pass of identity 0 and one row of it. -/
def pass0 (loaded : Bool) : Pass := ⟨0, 0, 32, 32, 0, 0, [], loaded⟩
def row0 (st : RowSt) (pass : Nat) : PassRow := ⟨0, 0, 0, st, pass, 0, true, List.replicate 32 0, false, some (List.replicate 64 0)⟩
/-- Die 0 with that task, its command, and a pass and rows at cascade 0. -/
def passing (t : Task) (p : Option Pass) (rows : List PassRow) (f : Core → Core) : State :=
  (poke fun x => f { x with ctl := { x.ctl with run := .running }, fl := { x.fl with cmds := [taskCmd0] } }).updDie 0 fun y =>
    { y with tasks := [t], wdir := [widEntry 0], cascs := y.cascs.modify 0 fun z => { z with pass := p, rows := rows, conf := some (0, ⟨2, 32, 0, 0, [], []⟩) } }
theorem taskCmd_of {s : State} {t : Task} {k : Cmd} (h : (s.core t.die t.core).fl.cmds = [k] ∧ k.tl = .tlm ∧ k.num = t.num ∧
    k.rep + 1 = k.args.length ∧ k.carry = 0) : TaskCmd s t k where
  found := by simp [Core.cmd?, h.1, h.2.1, h.2.2.1]
  alone := by
    intro q hq _ _
    rw [h.1] at hq
    exact List.mem_singleton.mp hq
  last := h.2.2.2.1
  carry := h.2.2.2.2
theorem witness_deadlines_and_passes : let s := passing (task0 0 0) none [] id
    (s.hasDie 0 = true ∧ (s.die 0).tasks[0]? = some (task0 0 0) ∧ task0 0 0 ∈ (s.die 0).heads ∧ (task0 0 0).dead ≤ (s.die 0).seqr.cyc) ∧
    (let l := passing { task0 0 0 with dead := 1 } none [] id
     (l.die 0).seqr.cyc < 1 ∧ { task0 0 0 with dead := 1 } ∈ (l.die 0).heads) ∧
    (State.reset.die 0).passFor 0 = none ∧ (∃ j, j < 1 ∧ (s.die 0).passFor j ≠ none) ∧ PassDue (s.die 0) 0 (task0 0 0) (widEntry 0) ∧ (s.die 0).passFor 0 ≠ none :=
  ⟨⟨by decide +kernel, by decide +kernel, by decide +kernel, by decide +kernel⟩, by decide +kernel, by decide +kernel, ⟨0, by decide, by decide +kernel⟩,
    ⟨⟨_, rfl, rfl, rfl⟩, fun j h => absurd h (by omega), rfl, rfl, .inl rfl, ⟨by decide, by decide⟩, by decide, by decide +kernel, by decide +kernel⟩,
    by decide +kernel⟩
theorem quiet_of {s : State} (h : (s.die 0).cores.tail = List.replicate 31 Core.reset) (q : (s.core 0 0).fl.cmds.all (fun k => !k.wantsFabric) = true) :
    ∀ c, ∀ q ∈ (s.core 0 c).fl.cmds, q.wantsFabric = false := by
  intro c k hk
  by_cases hc : c = 0
  · subst hc
    simpa using List.all_eq_true.mp q k hk
  · rw [others_idle h c hc] at hk
    cases hk
/-- Core 0 translates for weights as the context of slot 0. -/
def weighing (x : Core) : Core := { x with k := { x.k with kslot := 0 }, xl := { x.xl with rt1 := [.entry 0 0x00FFFFFFFFFFF000 0 0x3B] } }
theorem witness_passes_load :
    (let s := passing { task0 0 0 with pass := some 0 } (some (pass0 false)) [row0 .waiting 0] weighing
     s.hasDie 0 = true ∧ 0 < (s.die 0).cascs.length ∧ (s.casc 0 0).pass = some (pass0 false) ∧ (pass0 false).loaded = false ∧
       (s.die 0).advertised 0 = some (widEntry 0) ∧ (s.casc 0 0).holdsWid 0 = true ∧
       (∀ held, (s.loadWeights 0 (widEntry 0) held false).toOption.map (·.1.isSome) = some !held) ∧
       ∃ r ∈ (s.casc 0 0).rows, r.pass = (pass0 false).id) ∧
    (∀ c, ∀ q ∈ ((passing { task0 0 0 with pass := some 0 } (some (pass0 false)) [row0 .waiting 0] weighing).core 0 c).fl.cmds, q.wantsFabric = false) :=
  ⟨by decide +kernel, quiet_of rfl (by decide +kernel)⟩
theorem witness_rows_enter : let s := passing { task0 0 0 with pass := some 0 } (some (pass0 true)) [row0 .waiting 0] id
    s.hasDie 0 = true ∧ 0 < (s.die 0).cascs.length ∧ (s.casc 0 0).pass = some (pass0 true) ∧ (pass0 true).loaded = true ∧
      (s.casc 0 0).rows.find? (fun r => r.pass == 0 && r.st == .waiting) = some (row0 .waiting 0) ∧
      s.taskNum 0 0 = some { task0 0 0 with pass := some 0 } ∧ (s.casc 0 0).conf = some (0, ⟨2, 32, 0, 0, [], []⟩) ∧
      (∀ l ∈ (s.casc 0 0).cells, l.2.length = 512) ∧ ((s.casc 0 0).sums 32 0)[0]? = some 0 ∧
      ∀ c, ∀ q ∈ (s.core 0 c).fl.cmds, q.wantsFabric = false :=
  ⟨by decide +kernel, by decide +kernel, by decide +kernel, by decide +kernel, by decide +kernel, by decide +kernel, by decide +kernel,
    by decide +kernel, by decide +kernel, quiet_of rfl (by decide +kernel)⟩
theorem witness_rows_finish : (let e := passing { task0 0 0 with pass := some 0 } (some (pass0 true)) [row0 .entered 0] id
     e.hasDie 0 = true ∧ 0 < (e.die 0).cascs.length ∧ lowest ((e.casc 0 0).rows.filter fun q => q.st == .entered) = some (row0 .entered 0) ∧
       (row0 .entered 0).acted = false ∧ (task0 0 0).first ≤ (row0 .entered 0).rho ∧
       ((e.ownerStat (task0 0 0) 0).draw 0 0 (wordsFor (task0 0 0).mode true 32)).isSome = true) ∧
    ((row0 .entered 0).rho < { task0 0 0 with first := 1 }.first) ∧
    (∀ tag ∈ [0, 254], let t := { task0 tag 0 with kmode := 5 }
     let e := passing t (some (pass0 true)) [row0 .entered 0] fun x => { x with k := { x.k with knoise := 2, knlogb := BitVec.ofNat 64 (64 * 2 ^ 32) } }
     ((e.ownerStat t 0).draw 0 0 (wordsFor t.mode true 32)).isNone = true ∧ (taskCmd e t).map (·.st) = some .running) :=
  ⟨by decide +kernel, by decide, by decide +kernel⟩
/-- A store under way at an address that the task's command waits for. -/
def rowStore (pa : Nat) (x : Core) : Core := releasing pa { x with fl := { x.fl with cmds := [taskCmd0] } }
def relTask (pa : Nat) : State := (passing (task0 0 0x1000) none [row0 .finished 0] id).updCore 0 0 (rowStore pa)
theorem witness_rows_scatter : let s := passing { task0 0 0x1000 with pass := some 0 } none [row0 .finished 0] id
    RowAt s 0 0 (row0 .finished 0) { task0 0 0x1000 with pass := some 0 } .finished ∧ s.heldBack 0 0 (row0 .finished 0) = false ∧
      s.rowBehind (task0 0 0x1000) 0 64 = false ∧ TaskCmd s (task0 0 0x1000) taskCmd0 ∧
      (s.scatterAt (task0 0 0x1000) 0 (List.replicate 64 0)).isOk = true :=
  ⟨⟨by decide +kernel, by decide +kernel, by decide +kernel, by decide +kernel⟩, by decide +kernel, by decide +kernel, taskCmd_of (by decide +kernel), by decide +kernel⟩
theorem witness_rows_held : ((passing (task0 0 (3 * 2 ^ 52)) none [row0 .finished 0] id).scatterAt (task0 0 (3 * 2 ^ 52)) 0 (List.replicate 64 0)).isOk = false ∧
    (passing (task0 0 0) none [row0 .finished 0, row0 .again 1] id).heldBack 0 0 (row0 .finished 0) = true ∧
    (relTask 0x1000).rowBehind (task0 0 0x1000) 0 64 = true := by decide +kernel
/-- A row of another tenant's pass in table slots stands before a row that waits to scatter again. -/
def otherRow : PassRow := { row0 .waiting 1 with pool := false, head := 5 }
theorem witness_rows_again : (let s := passing (task0 0 0x1000) none [row0 .again 0] id
     s.hasDie 0 = true ∧ 0 < (s.die 0).cascs.length ∧ (s.casc 0 0).rows = [] ++ row0 .again 0 :: [] ∧ s.taskNum 0 0 = some (task0 0 0x1000) ∧
       ((s.casc 0 0).rows.all fun q => q.pool || q.head == 0 || q.isParked) = true ∧ s.rowBehind (task0 0 0x1000) 0 64 = false) ∧
    TaskCmd (passing (task0 0 0x1000) none [row0 .again 0] id) (task0 0 0x1000) taskCmd0 ∧
    ((relTask 0x1000).updCasc 0 0 fun z => { z with rows := [row0 .again 0] }).rowBehind (task0 0 0x1000) 0 64 = true ∧
    (let s := passing (task0 0 0) none [row0 .again 0, otherRow] id
     ∃ q ∈ (s.casc 0 0).rows, q.pool = false ∧ q.head ≠ (task0 0 0).tenant ∧ q.isParked = false) ∧
    (let t := { task0 0 0x1000 with kmode := 5 }
     let s := passing t none [{ row0 .again 0 with acted := true, out := none }] fun x => { x with k := { x.k with knoise := 2, knlogb := BitVec.ofNat 64 (64 * 2 ^ 32) } }
     (s.draw 0 0 (wordsFor t.mode true 32)).isNone = true ∧ s.rowBehind t 0 128 = false ∧ (taskCmd s t).map (·.st) = some .running) :=
  ⟨by decide +kernel, taskCmd_of (by decide +kernel), by decide +kernel, by decide +kernel, by decide +kernel⟩
/-- A flit that carries the rows of a forwarded task, at die 0. -/
def rowsFlit (res : Option RRes) : Flit := ⟨⟨0, 0, 254, 0, .tlm, 1, 0, 0, 0, .ord, 0, 0, .rows (task0 254 0x1000), []⟩, res, 0, 0, none, [], []⟩
theorem witness_forwarded_rows : let s := { passing (task0 0 0) none [] id with flits := [rowsFlit none] }
    (s.hasDie 0 = true ∧ s.flits[0]? = some (rowsFlit none) ∧ (s.die 0).waitingTasks.length < 1024) ∧
    ((State.reset.updDie 0 fun y => { y with tasks := List.replicate 1024 (task0 0 0) }).die 0).waitingTasks.length = 1024 ∧
    (∀ r ∈ [RRes.ended 0x1F 7, .ended 0x20 0, .finished [(0, List.replicate 64 0)]],
      let u := { passing (task0 254 0x1000) none [] id with flits := [rowsFlit (some r)] }
      TaskCmd u (task0 254 0x1000) taskCmd0 ∧ u.flits[0]? = some (rowsFlit (some r)) ∧ u.rowBehind (task0 254 0x1000) 0 64 = false ∧
      ({ u with flits := u.flits.eraseIdx 0 }.scatterAt (task0 254 0x1000) 0 (List.replicate 64 0)).isOk = true) := by
  refine ⟨by decide +kernel, by decide +kernel, fun r h => ?_⟩
  simp only [List.mem_cons, List.not_mem_nil, or_false] at h
  rcases h with rfl | rfl | rfl <;> exact ⟨taskCmd_of (by decide +kernel), rfl, by decide +kernel, by decide +kernel⟩

/-- A split slot of core 0's context: 2 rows of 32 bf16 at 0x1000, row 0 hot (or neither). -/
def split0 (map : List Nat) : Split := ⟨0, 255, 0, 2, 32, 0x02, 0x1000, 64, 1, 0, map, [0, 0], 0, 0, 0, none⟩
/-- A command of the tln timeline of one repetition. -/
def tlnCmd (a : CmdArg) (st : CmdSt) : Cmd := { cmdOf .tln 1 a.instr st with args := [a] }
/-- Die 0 with a split slot (or none), work, and that command; the mapping allows weights. -/
def splitting (a : CmdArg) (st : CmdSt) (slots : List Split) (work : List SplitWork) : State :=
  (poke fun x => { x with xl := { x.xl with rt1 := [.entry 0 0x00FFFFFFFFFFF000 0 0x3B] }, k := { x.k with kbasin := BitVec.ofNat 64 (2 ^ 32 + 16) },
                          ctl := { x.ctl with run := .running }, fl := { x.fl with cmds := [tlnCmd a st] } }).updDie 0 fun y =>
    { y with splits := slots, swork := work }
theorem takesOnly_of {a : CmdArg} {slots : List Split} : TakesOnly (splitting a .waiting slots []) 0 0 (tlnCmd a .waiting) a where
  core := rfl
  idle := rfl
  only := by
    intro c
    by_cases hc : c = 0
    · subst hc
      exact iff_of_true rfl rfl
    · have h := others_idle (s := splitting a .waiting slots []) rfl c hc
      refine iff_of_false ?_ hc
      simp only [State.core] at h
      simp only [Die.splitWaiting, h]
      rw [if_pos (by decide)]
      decide
  next := rfl
  own := rfl
  one := ⟨rfl, rfl, rfl⟩
/-- Takes only the tln command, over those slots. -/
def TakesTln (a : CmdArg) (slots : List Split) : Prop := TakesOnly (splitting a .waiting slots []) 0 0 (tlnCmd a .waiting) a
/-- spmv of a bf16 vector of two elements, the first 1.0, threshold 0, at slot 0. -/
def spmvArg : CmdArg := ⟨.spmv 3 9 5 0 none, [0, 0, 2, 2], [patOf 2 1 1 1 0 2], some { Tile.zero 2 with cells := 0x3F80 :: List.replicate 1023 0 }, none, [], []⟩
def work0 (left : List Nat) (half : Option (List W32)) (queue : List (Nat × Nat × Nat)) : SplitWork :=
  ⟨255, 1, 0, 0, 0, left, [], half, queue, [], List.replicate 64 (List.replicate 32 0), 0⟩
theorem witness_SplitProductsRun :
    TakesTln ⟨.spage 5 9, [0], [], none, none, [], []⟩ [] ∧ TakesTln ⟨.spage 5 9, [0], [], none, none, [], []⟩ [split0 []] ∧
      TakesTln ⟨.splr 9 5 true none, [0], [], none, none, [], []⟩ [split0 []] ∧ TakesTln spmvArg [split0 []] :=
  ⟨takesOnly_of, takesOnly_of, takesOnly_of, takesOnly_of⟩
theorem witness_split_slots : let s := splitting spmvArg .waiting [split0 []] []
    (s.die 0).splitOf (s.core 0 0) spmvArg.splitSlot = some (split0 []) ∧ ((State.reset.die 0).splitOf (State.reset.core 0 0) 0) = none ∧
    (split0 []).tag = (patOf 2 1 1 1 0 2).tag ∧ (s.die 0).swork = [] := by decide
/-- Both rows dispatched, row 0 hot, the hot pass still to come at cascade 0. -/
def hotState : State := splitting spmvArg .running [split0 [0]] [{ work0 [] none [] with hot := [0] }]
theorem witness_hot_pass : (hotState.hasDie 0 = true ∧ 0 < (hotState.die 0).cascs.length ∧ (hotState.casc 0 0).pass = none ∧
      hotState.hotWaiting 0 0 = some ({ work0 [] none [] with hot := [0] }, tlnCmd spmvArg .running, split0 [0]) ∧
      hotState.cascadeCores 0 0 = [] ∧ (hotState.casc 0 0).heldHot (split0 [0]) = none ∧ (split0 [0]).slotOf 0 ≠ none) ∧
    ∀ c, ∀ q ∈ (hotState.core 0 c).fl.cmds, q.wantsFabric = false :=
  ⟨by decide +kernel, quiet_of rfl (by decide +kernel)⟩
theorem witness_split_work : (∀ m ∈ [[0], []], let s := splitting spmvArg .running [split0 m] [work0 [0, 1] none []]
      Works s 0 (work0 [0, 1] none []) (tlnCmd spmvArg .running) (split0 m) ∧ (s.markedOff 0 (.basin ((s.core 0 0).basinAddr 0)) 64).isNone = true ∧
      (s.masterPa 0 (s.core 0 0) 0x1000).toOption = some 0x1000 ∧ (s.markedOff 0 (.mem 0x1000 0) 64).isNone = true) ∧
    (split0 [0]).slotOf 0 = some 0 ∧ (split0 []).slotOf 0 = none ∧
    (let w := work0 [] (some (List.replicate 32 0)) []
     Works (splitting spmvArg .running [split0 []] [w]) 0 w (tlnCmd spmvArg .running) (split0 []) ∧ w.left = [] ∧ w.queue = []) ∧
    (let w := work0 [] none [(63, 1, 0x1040)]
     Works (splitting spmvArg .running [split0 []] [w]) 0 w (tlnCmd spmvArg .running) (split0 []) ∧
       w.queue.find? (fun q => q.1 == 63) = some (63, 1, 0x1040) ∧ w.parts[63]? = some (List.replicate 32 0)) := by
  refine ⟨fun m h => ?_, by decide, by decide, ⟨⟨by decide, rfl, rfl⟩, rfl, rfl⟩, ⟨⟨by decide, rfl, rfl⟩, rfl, rfl⟩⟩
  simp only [List.mem_cons, List.not_mem_nil, or_false] at h
  rcases h with rfl | rfl <;> exact ⟨⟨by decide, rfl, rfl⟩, by decide +kernel, by decide +kernel, by decide +kernel⟩

/-- A flit of core 0 of die 0 for a home, at a die, a command of it under way. -/
def flit0 (pos dst : Nat) (mid : Option Nat) (op : ROp) (res : Option RRes) : Flit :=
  ⟨⟨0, 0, 255, 0, .tlf, 1, 0, 0, 0, .ord, 5, 0, op, []⟩, res, pos, dst, mid, [], []⟩
def remoteCmd : Cmd := cmdOf .tlf 1 (.rld 9 6 8 .ord .n64) .running
/-- Reset with those flits, die 0's +x and −x links in given states. -/
def netted (fs : List Flit) (plus minus errs : Nat) : State :=
  let s := (poke fun x => { x with fl := { x.fl with cmds := [remoteCmd] } }).updDie 0 fun y =>
    { y with links := (y.links.set 0 { Link.reset with state := plus, errs := errs }).set 1 { Link.reset with state := minus } }
  { s with flits := fs }
theorem witness_flits : (let s := netted [flit0 0 0 none (.load []) none] 2 0 0
      s.flits[0]? = some (flit0 0 0 none (.load []) none)) ∧ ((flit0 3 1 (some 3) (.load []) none).mid = some 3) ∧
    (∀ p ∈ [(2, 0, 0), (2, 0, 16), (1, 0, 0), (0, 2, 0), (0, 1, 0), (0, 0, 0)], let s := netted [flit0 0 1 none (.load []) none] p.1 p.2.1 p.2.2
      Heads s 0 (flit0 0 1 none (.load []) none) 0 true ∧ (s.port 0 (portOf 0 true)).state = p.1 ∧ (s.port 0 (portOf 0 false)).state = p.2.1 ∧
      (∀ v, (s.port 0 (portOf 1 v)).state = linkDown) ∧ (s.port 0 0).flits + 1 < 2 ^ 20 ∧ s.neverUp 0 0 = false ∧
      ((s.core 0 0).cmd? .tlf 1).isSome = true ∧ ((s.port 0 0).crclim < (s.port 0 0).errs + 1 ↔ p.2.2 = 16)) := by
  refine ⟨rfl, rfl, fun p h => ?_⟩
  simp only [List.mem_cons, List.not_mem_nil, or_false] at h
  rcases h with rfl | rfl | rfl | rfl | rfl | rfl <;>
    exact ⟨⟨rfl, rfl, ⟨rfl, rfl⟩, by decide, fun j h => absurd h (by omega), by decide, by decide⟩, by decide, by decide, by decide, by decide, by decide,
      by decide, by decide⟩
theorem witness_detour : let s := (netted [flit0 0 1 none (.load []) none] 0 0 0).updDie 0 fun y => { y with links := y.links.set 2 { Link.reset with state := 2 } }
    let u := s.updDie (s.beside 0 1 true) fun y => { y with links := y.links.set 0 { Link.reset with state := 2 } }
    (u.port 0 (portOf 0 true)).state = linkDown ∧ (u.port 0 (portOf 0 false)).state = linkDown ∧ (u.port 0 (portOf 1 true)).state = linkUp ∧
      (u.port (u.beside 0 1 true) 0).state = linkUp := by decide +kernel
/-- At die 1, its home. -/
def homed (op : ROp) : State := netted [flit0 1 1 none op none] 2 0 0
theorem atItsHome_of {op : ROp} : AtItsHome (homed op) 0 (flit0 1 1 none op none) :=
  ⟨rfl, ⟨rfl, rfl⟩, rfl, (rfl : State.reset.hasDie 1 = true), fun g h => by
    rw [List.mem_singleton.mp h]
    exact fun p => absurd p.2.2.2.2.2.2.2.2 (Nat.lt_irrefl _)⟩
theorem witness_homes : (AtItsHome (homed (.load [(0x1000, 8)])) 0 (flit0 1 1 none (.load [(0x1000, 8)]) none) ∧ ((homed (.load [])).die 1).kept = []) ∧
    (∀ p ∈ [(0x1000, true), (3 * 2 ^ 52, false)], let s := homed (.load [(p.1, 8)])
      (allOk ([(p.1, 8)].map (s.homeRead s 1 (s.srcCore (flit0 1 1 none (.load []) none).req) true))).isOk = p.2 ∧
      (s.homeStore 1 (s.srcCore (flit0 1 1 none (.load []) none).req) [([(p.1, List.replicate 8 1)], false)]).isOk = p.2) ∧
    (let s := homed (.atomic .add 0x1000 8 1)
     (s.homeAtomic 1 (s.srcCore (flit0 1 1 none (.load []) none).req) id (s.reqScope (flit0 1 1 none (.load []) none).req) 0x1000 8
         fun old => some (atomicNew .add 64 old 1)).isOk = true ∧
       (s.homeAtomic 1 (s.srcCore (flit0 1 1 none (.load []) none).req) id (s.reqScope (flit0 1 1 none (.load []) none).req) 0x1000 8
         fun old => if old = 0 then some 1 else none).isOk = true ∧
       (s.regionOf 1 (s.srcCore (flit0 1 1 none (.load []) none).req) 0x10000).toOption = some 1 ∧ (s.die 1).entry? 1 = none ∧
       (s.die 1).incast.length < 256 ∧ (s.die 1).ticketCalled 1 5 = true) ∧
    (let s := (homed (.tkwait 0x10000 5)).updDie 1 fun y => { y with incast := [⟨1, 0, 0, [], [], []⟩] }
     ((s.die 1).entry? 1).isSome = true ∧ (s.die 1).ticketCalled 1 5 = false) ∧
    (let s := (homed (.tkget 0)).updDie 1 fun y => { y with incast := List.replicate 256 ⟨9, 0, 0, [], [], []⟩ }
     (s.die 1).entry? 0 = none ∧ 256 ≤ (s.die 1).incast.length) ∧
    (let q := (flit0 1 1 none (.load []) none).req
     let s := (homed (.load [])).updDie 1 fun y => { y with kept := [(q, .done)] }
     (s.die 1).kept.find? (fun p => p.1.sameTag q) = some (q, .done)) ∧
    (let g := { flit0 1 1 none (.load []) none with req := { (flit0 1 1 none (.load []) none).req with seq := 4 } }
     let s := netted [flit0 1 1 none (.load []) none, g] 2 0 0
     g ∈ s.flits ∧ g.req.seq < (flit0 1 1 none (.load []) none).req.seq) :=
  ⟨⟨atItsHome_of, rfl⟩, by decide +kernel, by decide +kernel, by decide +kernel, by decide +kernel, by decide +kernel, by decide +kernel⟩
theorem witness_requests_wait : let q : Req := { (flit0 0 0 none (.store [([(0x1000, [1])], false)] false) none).req with rel := [(0, 0)] }
    let s := (netted [] 2 0 0).updCore 0 0 fun x => { x with fl := { x.fl with stores := [⟨0x1000, 0x1000, [1], 0, 0, none⟩] } }
    s.reqBehind 0 q = true ∧ s.reqBehind 0 { q with rel := [] } = false ∧ (s.die 0).kept = [] := by decide +kernel
theorem witness_responses : (∀ r ∈ [RRes.value 7 false, .done, .failed 9 0 0], ∃ a, AtItsSource (netted [flit0 0 0 none (.load []) (some r)] 2 0 0) 0
      (flit0 0 0 none (.load []) (some r)) r remoteCmd a ∧ resultReg a.instr = some 8) ∧
    ((State.reset.core 0 0).cmd? .tlf 1 = none) ∧
    (let s := { State.reset with acks := [(1, (flit0 0 0 none (.load []) none).req)] }
     s.acks[0]? = some (1, (flit0 0 0 none (.load []) none).req) ∧ s.hasDie 1 = true) := by
  refine ⟨fun r h => ⟨⟨.rld 9 6 8 .ord .n64, [], [], none, none, [], []⟩, ⟨rfl, ⟨rfl, rfl⟩, rfl, (fun t h => by cases h), rfl, fun q hq _ _ => List.mem_singleton.mp hq,
    ⟨rfl, rfl, rfl, rfl⟩, ⟨rfl, (fun _ _ _ _ _ _ h => by cases h)⟩, rfl, ⟨by show _ ≤ _; decide, rfl, rfl⟩⟩, rfl⟩, rfl, by decide⟩

/-- Reset, port 0 of die 0 in a state after some training rounds, its eye register's EYERT as given. -/
def linked (st tries : Nat) (eyert : Bool) : State :=
  pokeDie fun y => { y with links := y.links.set 0 { Link.reset with state := st, tries := tries, eyert := eyert } }
/-- What two ends offer: their good lanes, rates and one map's length. -/
def offer (n rate : Nat) : LinkOffer := ⟨List.range n, List.range n, 3, rate, List.range n, List.range n⟩
theorem witness_training : (∀ p ∈ [(linked 1 0 false, 30, 3), (linked 1 0 false, 72, 3), (linked 1 0 false, 72, 2), (linked 1 3 false, 72, 2)],
      (p.1.port 0 0).state = linkTraining ∧ p.1.neverUp 0 0 = false ∧ p.1.nominalLanes 0 0 = 72 ∧ p.1.hasDie (p.1.farEnd 0 0).1 = true ∧
      ((offer p.2.1 p.2.2).goodHere.eraseDups.filter fun i => (offer p.2.1 p.2.2).goodThere.contains i).length = p.2.1 ∧
      ((offer p.2.1 p.2.2).mapHere = (offer p.2.1 p.2.2).mapThere ∧ (offer p.2.1 p.2.2).rateHere = (offer p.2.1 p.2.2).rateThere ↔ p.2.2 = 3)) ∧
    (State.reset.port 0 0).state ≠ linkTraining := by decide +kernel
/-- Port 0 of die 0 after a round that left a common configuration. -/
def common (c : List Nat × Nat) : State := (linked 1 1 false).updDie 0 fun y => { y with links := y.links.modify 0 fun l => { l with common := some c } }
theorem witness_common : (∀ c ∈ [(List.range 40, 2), (List.range 80, 3)],
      ((common c).port 0 0).state = linkTraining ∧ ((common c).port 0 0).common = some c ∧ ((common c).port 0 0).worn = [] ∧
      (((common c).port ((common c).farEnd 0 0).1 ((common c).farEnd 0 0).2).worn = []) ∧
      ((∀ i ∈ c.1, i ∈ (offer 72 3).goodHere ∧ i ∈ (offer 72 3).goodThere) ↔ c.2 = 2)) ∧
    ((offer 72 3).mapHere.Nodup ∧ (offer 72 3).mapHere.length ≤ 72 ∧ 72 ≤ 2 * (offer 72 3).mapHere.length) := by decide +kernel
theorem witness_retraining_and_eyes : (State.reset.hasDie 0 = true ∧ 0 < (State.reset.die 0).links.length) ∧
    (∀ b ∈ [true, false], ((linked 2 0 b).port 0 0).eyert = b ∧ ((linked 2 0 b).port 0 0).state = linkUp ∧ (linked 2 0 b).neverUp 0 0 = false ∧
      0 < ((linked 2 0 b).die 0).trace.skew.length) ∧ (127 < 128) := by decide
/-- Die 0 with its scrubber at line 5, whose errors or mark are as given. -/
def scrubbing (en : Bool) (errs marks : List Nat) : State := pokeDie fun y => { y with
  hbm := { y.hbm with enab := en, scrub := 5 }, stack := { y.stack with marks := marks, errs := errs.map fun n => (5, n) } }
theorem witness_scrubbing : ((scrubbing false [] []).die 0).hbm.enab = false ∧
    (∀ p ∈ [([4], []), ([5], []), ([], []), ([1], [5])], let y := (scrubbing true p.1 p.2).die 0
      y.hbm.enab = true ∧ y.hbm.scrub = 5 ∧ assocGet y.stack.errs 5 = (p.1[0]?).getD 0 ∧ y.stack.marks = p.2) := by decide
/-- Die 0 with one open row, and pseudo-channel 2 on its spare. -/
def opened (h : Hint) (idle : Nat) : State := pokeDie fun y => { y with hbm := { y.hbm with rows := [⟨0, 0, 0, 0, h, idle⟩], spares := [2], training := [2] } }
theorem witness_rows_and_lanes : (∀ p ∈ [(Hint.stream, 0), (.plain, 64), (.plain, 63), (.reuse, 64)],
      ((opened p.1 p.2).die 0).hbm.rows[0]? = some ⟨0, 0, 0, 0, p.1, p.2⟩) ∧
    (field (BitVec.ofNat 64 (2110 * 64 + 1)) 17 6 = 2110 ∧ 2110 % 33 ≠ 32 ∧ 2110 / 33 ∉ ((opened .plain 0).die 0).hbm.spares) ∧
    (field (BitVec.ofNat 64 (2111 * 64 + 1)) 17 6 = 2111 ∧ 2111 % 33 = 32) ∧ (66 / 33 ∈ ((opened .plain 0).die 0).hbm.spares) ∧
    (2111 < field (BitVec.ofNat 64 (2112 * 64 + 1)) 17 6) ∧ (BitVec.ofNat 64 (2111 * 64 + 1)).getLsbD 0 = true := by decide

/-- Die 0 at a cycle with so many slots and frames begun, a board whose row 0 changes hands after slot 0 and after slot 15, and a profile
of P2 written at cycle 0. -/
def atFrame (cyc slots frames : Nat) (busy : Bool) : State := pokeDie fun y => { y with
  seqr := { y.seqr with cyc := cyc, slots := slots, frames := frames, board := ⟨true, [1 :: List.replicate 15 2], []⟩ }
  power := { y.power with coming := [(0, 100, 3)], low := slots }
  cascs := y.cascs.modify 0 fun z => { z with pass := if busy then some (pass0 true) else none } }
/-- A boundary's check over the four cascades. -/
theorem crosses_of {y z : Die} (h : ∀ k, k < 4 → ∀ c ∈ y.cascs[k]?, y.slotOwner k ≠ z.slotOwner k → c.pass = none) : Crosses y z :=
  fun k c hk hc ho => h k hk c hc ho
theorem not_crosses_of {y z : Die} (h : ∃ c, y.cascs[0]? = some c ∧ y.slotOwner 0 ≠ z.slotOwner 0 ∧ c.pass.isSome = true) : ¬ Crosses y z := by
  obtain ⟨c, hc, ho, hp⟩ := h
  intro g
  rw [g 0 c (by decide) hc ho] at hp
  cases hp
theorem witness_slot_boundaries : let z := fun (s : State) => ({ (s.die 0) with seqr := { (s.die 0).seqr with slots := 1 } } : Die)
    (((atFrame 255 0 0 false).die 0).seqr.cyc < 256 * 1) ∧ ((15 + 1) % 16 = 0) ∧
    (256 * 1 ≤ ((atFrame 256 0 0 false).die 0).seqr.cyc ∧ Crosses ((atFrame 256 0 0 false).die 0) (z (atFrame 256 0 0 false))) ∧
    ¬ Crosses ((atFrame 256 0 0 true).die 0) (z (atFrame 256 0 0 true)) :=
  ⟨by decide, by decide, ⟨by decide, crosses_of (by decide)⟩, not_crosses_of ⟨_, rfl, by decide, rfl⟩⟩
theorem witness_frame_boundaries : (((atFrame 4095 15 0 false).die 0).seqr.cyc < 4096) ∧ (14 + 1 < 16) ∧
    (let y := (atFrame 4096 15 0 false).die 0
     4096 * (y.seqr.frames + 1) ≤ y.seqr.cyc ∧ 16 * (y.seqr.frames + 1) ≤ y.seqr.slots + 1 ∧ Crosses y (y.newFrame 4096) ∧
       y.power.coming = [(0, 100, 3)] ∧ frameAfter 0 ≤ 4096) ∧
    (let y := (atFrame 4096 15 0 true).die 0
     ¬ Crosses y (y.newFrame 4096)) ∧ (State.reset.die 0).power.coming = [] :=
  ⟨by decide, by decide, ⟨by decide, by decide, crosses_of (by decide), rfl, by decide⟩, not_crosses_of ⟨_, rfl, by decide, rfl⟩, rfl⟩
theorem witness_power : (∀ n ∈ [0, 2], ((atFrame 0 n 0 false).die 0).power.mode ≠ 3 ∧ ((atFrame 0 n 0 false).die 0).power.low = n) ∧
    ((pokeDie fun y => { y with power := { y.power with mode := 3 } }).die 0).power.mode = 3 ∧
    (0x050 ∉ [0x008, 0x010, 0x020, 0x028, 0x030, 0x038, 0x040, 0x048, 0x060, 0x070, 0x100, 0x118, 0x120]) := by decide
theorem witness_host_ports : Clean (State.reset.die 0).basin ∧ Clean (State.reset.die 0).stack ∧ State.reset.channelBusy 0 64 8 = false ∧
    (opened .plain 0).channelBusy 0 (2 * 64 * 64) 8 = true ∧ (State.reset.pkg 0).host.wf = true ∧ 0 < State.reset.pkgs.length ∧
      paPlace 0 (2 ^ 53) = .host 0 :=
  ⟨⟨rfl, rfl, rfl, by decide⟩, ⟨rfl, rfl, rfl, by decide⟩, by decide, by decide, by decide, by decide, by decide⟩
/-- Package 0 debug-open with a mask, core 0 running, some violations counted. -/
def opening (life mask ports : Nat) : State :=
  (poke fun x => { x with ctl := { x.ctl with run := .running } }).updPkg 0 fun g => { g with sec := { g.sec with life := life, mask := mask, ports := ports } }
theorem witness_debug_ports : let s := opening 3 15 0
    (s.hasCore 0 0 = true ∧ (s.sec 0).life = 3 ∧ (∀ b, b < 4 → (s.sec 0).mask.testBit b = true) ∧ (s.core 0 0).ctl.run = .running ∧
      (s.core 0 0).ctl.stops = [] ∧ pkgOf 0 < s.pkgs.length ∧ 8 * pkgOf 0 < s.dies.length) ∧
    (∀ n ∈ [1, 2], ((opening 3 8 n).sec 0).ports = n ∧ ((opening 3 8 n).sec 0).mask.testBit 2 = false ∧ ((opening 2 15 n).sec 0).life ≠ 3) := by
  decide

/-- Die 0 ready, its queue 0 holding a packet of a tenant that names the descriptor of `launchStack`; the tenant that is served and the
deficit of tenant 0. -/
def queued (tenant : Byte) (serving : Option (Nat × Nat)) (deficit : Nat) (frz : Bool) : State :=
  (pokeDie fun y => { y with
    stack := launchStack, hreg := { y.hreg with ready := true }
    basin := ⟨⟨[(0, 1), (24, 4), (41, 0x40), (65, 0x60), (72, 1), (73, 1), (74, 1), (76, 1)] ++ if tenant = 0 then [] else [(78, tenant)]⟩, [], [], []⟩ }).updPkg 0
    fun g => { g with sec := { g.sec with frz := frz }, arb := { g.arb with serving := serving, deficits := if deficit = 0 then [] else [(0, deficit)] } }
theorem witness_launch_frozen : ((queued 0 none 1 true).pkg 0).sec.frz = true := by decide
theorem witness_launch_rejected : let s := queued 5 none 1 false
    (s.pkg 0).sec.frz = false ∧ (s.findHeads 0).rejects = [(0, 1)] ∧ s.hasDie (queueDie 0 0) = true ∧ Clean (s.die (queueDie 0 0)).basin ∧
      s.queueField 0 0 8 8 + 1 < 2 ^ 64 := ⟨by decide, by decide +kernel, by decide, ⟨rfl, rfl, rfl, by decide⟩, by decide +kernel⟩
theorem only_of {α β : Type} {l : List α} {f : α → β} {b : β} (h : l.map f = [b]) : ∃ a, l = [a] ∧ f a = b := by
  match l, h with
  | [a], h => exact ⟨a, rfl, by simpa using h⟩
theorem witness_launch_taken : ∀ p ∈ [(some (0, 0), 0), (some (0, 0), 1), (none, 0)], let s := queued 0 p.1 p.2 false
    ∃ e, (s.pkg 0).sec.frz = false ∧ 0 < s.pkgs.length ∧ (s.findHeads 0).rejects = [] ∧ (s.findPool 0).leaves = [] ∧
      (s.findPool 0).entries ++ (s.findHeads 0).entries = [e] ∧ ((s.pkg 0).arb.serving = p.1 ∧ e.level = 0 ∧ e.tenant = 0) ∧
      pkCores e.packet = 1 ∧ (s.pkg 0).arb.deficit e.tenant = p.2 ∧
      (min ((s.pkg 0).arb.deficit e.tenant + 32 * s.weightOf 0 e.tenant) 65535 < pkCores e.packet ↔ s.weightOf 0 0 = 0 ∧ p.2 = 0) := by
  intro p h
  have one : ∀ p ∈ [(some (0, 0), 0), (some (0, 0), 1), (none, 0)], ((queued 0 p.1 p.2 false).findPool 0).leaves = [] ∧
      ((queued 0 p.1 p.2 false).findHeads 0).rejects = [] ∧
      (((queued 0 p.1 p.2 false).findPool 0).entries ++ ((queued 0 p.1 p.2 false).findHeads 0).entries).map (fun e => (e.level, e.tenant, pkCores e.packet)) = [(0, 0, 1)] ∧
      ((queued 0 p.1 p.2 false).pkg 0).arb.deficit 0 = p.2 ∧ 0 < (queued 0 p.1 p.2 false).pkgs.length := by decide +kernel
  obtain ⟨hl, hr, he, hd, hp⟩ := one p h
  obtain ⟨e, hs, hf⟩ := only_of he
  simp only [Prod.mk.injEq] at hf
  refine ⟨e, rfl, hp, hr, hl, hs, ⟨rfl, hf.1, hf.2.1⟩, hf.2.2, by rw [hf.2.1]; exact hd, ?_⟩
  rw [hf.2.2, hf.2.1, hd]
  omega
/-- That queue, its packet and its descriptor of 4 by 4 by 4 cores, no tenant being served. -/
def queuedWide : State :=
  let widen := fun (l : List Nat) (m : Store) => ({ m with bytes := ⟨m.bytes.cells.map fun c => if l.contains c.1 then (c.1, 4) else c⟩ } : Store)
  (queued 0 none 0 false).updDie 0 fun y => { y with stack := widen [0x6010, 0x6011, 0x6012] y.stack, basin := widen [72, 73, 74] y.basin }
theorem witness_launch_left : (queuedWide.findPool 0).leaves = [] ∧ (queuedWide.findHeads 0).rejects = [] ∧ (queuedWide.pkg 0).arb.serving = none ∧
    ((queuedWide.findPool 0).entries ++ (queuedWide.findHeads 0).entries).map (fun e => (e.level, e.tenant, pkCores e.packet)) = [(0, 0, 64)] ∧
    min ((queuedWide.pkg 0).arb.deficit 0 + 32 * queuedWide.weightOf 0 0) 65535 = 32 := by decide +kernel
/-- A launch of a single-core unit, of a descriptor that asks for `pages` pages. -/
def launched (pages : Byte) (placed ended : Bool) (gone : Nat) : LaunchRec :=
  ⟨0, 1, [0, 0x60, 0, 0, 0, 0, 0, 0, 1, 1, 1, 0, 1] ++ List.replicate 307 0, (0x40 : Byte) :: List.replicate 23 0 ++ pages :: List.replicate 103 0, List.replicate 2560 0,
    0, 0, 0, 0, 0, 1, 0, some (7, 0, 1), [⟨0, 0, 0, placed⟩], gone, 3, ended⟩
theorem witness_placement : (∀ r ∈ State.reset.recs, r.waiting 0 = []) ∧ ∀ p ∈ [(0, 0), (1, 16)], let r := launched (BitVec.ofNat 8 p.1) false false 0
    let s := { State.reset with recs := [r] }
    s.hasDie 0 = true ∧ s.recs.find? (fun r => !(r.waiting 0).isEmpty) = some r ∧ r.waiting 0 = [⟨0, 0, 0, false⟩] ∧ leAt r.packet 8 1 = 1 ∧
      (s.die 0).quadFree 0 r.part = [0, 1, 2, 3] ∧ (s.die 0).freeSlotNo = some 0 ∧ (s.die 0).fitPages (leAt r.kernel 24 2) = some p.2 := by
  decide +kernel
theorem witness_launch_ends : (∀ r ∈ [launched 0 true true 1, launched 0 false false 1, launched 0 true false 0, launched 0 true false 1],
      ({ State.reset with recs := [r] } : State).recs[0]? = some r) ∧
    (let r := launched 0 true false 1
     r.ended = false ∧ r.placed = true ∧ leAt r.packet 8 1 * r.units.length ≤ r.gone ∧ leAt r.packet 19 1 = 0 ∧ r.parent = some (7, 0, 1)) ∧
    (launched 0 true false 0).gone < leAt (launched 0 true false 0).packet 8 1 * (launched 0 true false 0).units.length := by decide +kernel

/-- Reset with a request of core 0 of die 0 first at its engine, in a life state; tenant keys installed; a byte of its operand; whether core 0
holds a context (of tenant 0). -/
def secReq0 (op arg : Nat) (v : W64) : SecReq := ⟨0, 0, 5, op, arg, v, 0, (List.range 12).map fun i => (0x1000 + 64 * i, 0x1000 + 64 * i), 0⟩
def secServing (life : Nat) (q : SecReq) (keys : List (Nat × Nat)) (b : Byte) (present : Bool) : State :=
  ((poke fun x => if present then { x with k := { x.k with kslot := 0 } } else x).updDie 0 fun y =>
    { y with stack := ⟨⟨if b = 0 then [] else [(0x1000 + 34, b)]⟩, [], [], []⟩ }).updPkg 0 fun g =>
    { g with sec := { g.sec with life := life, tkeys := keys, queue := [q] } }
theorem secFirst_of {life op : Nat} {q : SecReq} {keys : List (Nat × Nat)} {b : Byte} {present : Bool}
    (h : q.op = op ∧ q.die = 0 ∧ q.core = 0 ∧ q.reg = 5 ∧ lifeServes life op = true) (hr : ((secServing life q keys b present).core 0 0).regs.length = 64)
    (hc : (secServing life q keys b present).hasCore 0 0 = true) (hp : 0 < State.reset.pkgs.length := by decide) : SecFirst (secServing life q keys b present) 0 op q [] where
  pkg := by simp only [secServing, State.updPkg, List.length_modify]; exact hp
  queue := rfl
  asks := h.1
  core := by rw [h.2.1, h.2.2.1]; exact hc
  reg := by rw [h.2.1, h.2.2.1, h.2.2.2.1]; exact ⟨by decide, by decide, hr⟩
  life := h.2.2.2.2
theorem witness_sec_waits : (∀ q rest, (State.reset.sec 0).queue = q :: rest → q.op ≠ 1) ∧
    (let s := secServing 0 (secReq0 1 0 0) [] 0 false
     (s.sec 0).queue = [secReq0 1 0 0] ∧ lifeServes (s.sec 0).life 1 = false ∧ 0 < s.pkgs.length ∧ s.hasCore 0 0 = true ∧ (s.core 0 0).regs.length = 64) :=
  ⟨fun q rest h => absurd h (by simp [show (State.reset.sec 0).queue = [] from rfl]), by decide +kernel⟩
theorem witness_sec_extend_readmr_nonce : (SecFirst (secServing 2 (secReq0 1 15 0) [] 0 false) 0 1 (secReq0 1 15 0) [] ∧
      15 < ((secServing 2 (secReq0 1 15 0) [] 0 false).sec 0).mrs.length) ∧
    SecFirst (secServing 0 (secReq0 3 0 0) [] 0 false) 0 3 (secReq0 3 0 0) [] ∧ SecFirst (secServing 1 (secReq0 6 0 0) [] 0 false) 0 6 (secReq0 6 0 0) [] :=
  ⟨⟨secFirst_of (by decide) (by decide +kernel) (by decide +kernel), by decide +kernel⟩, secFirst_of (by decide) (by decide +kernel) (by decide +kernel),
    secFirst_of (by decide) (by decide +kernel) (by decide +kernel)⟩
theorem witness_sec_keys : (∀ n ∈ [4, 5], ∀ p ∈ [([], true), ([(0, 1)], false), (List.replicate 256 (7, 1), false), ([], false)],
      let s := secServing 2 (secReq0 n 0 0) p.1 0 p.2
      SecFirst s 0 n (secReq0 n 0 0) [] ∧ (secReq0 n 0 0).val.toNat ≤ 0xFFFE ∧ s.tenantPresent 0 0 = p.2 ∧ (s.sec 0).tkeys = p.1) ∧
    (¬ ∃ k ∈ List.replicate 256 ((7, 1) : Nat × Nat), k.1 = 0) := by
  refine ⟨fun n hn p hp => ⟨secFirst_of ?_ ?_ ?_, by simp [secReq0], ?_, rfl⟩, by decide +kernel⟩ <;>
  · simp only [List.mem_cons, List.not_mem_nil, or_false] at hn hp
    rcases hn with rfl | rfl <;> rcases hp with rfl | rfl | rfl | rfl <;> decide +kernel
theorem tokenBad_of_zero (e : Security) (id : BitVec 128) (a : W256) (t : List Byte) : tokenBad e id a 0 t = true := by simp [tokenBad]
theorem witness_sec_unlock : (let s := secServing 2 (secReq0 7 0 0) [(0, 1)] 0 true
      SecFirst s 0 7 (secReq0 7 0 0) [] ∧ ∃ k ∈ (s.sec 0).tkeys, s.tenantPresent 0 k.1 = true) ∧
    (let s := secServing 2 (secReq0 7 0 0) [(0, 1)] 0 false
     SecFirst s 0 7 (secReq0 7 0 0) [] ∧ (¬ ∃ k ∈ (s.sec 0).tkeys, s.tenantPresent 0 k.1 = true) ∧
       tokenBad (s.sec 0) (Config.deviceId 0) (Config.authorityHash 0) (s.sec 0).nonce (s.secRead (secReq0 7 0 0) 64).1 = true) :=
  ⟨⟨secFirst_of (by decide) (by decide +kernel) (by decide +kernel), by decide +kernel⟩, secFirst_of (by decide) (by decide +kernel) (by decide +kernel),
    by decide +kernel, tokenBad_of_zero _ _ _ _⟩
theorem witness_sec_quote : ∀ b ∈ [(0 : Byte), 1], let s := secServing 2 (secReq0 2 0 0) [] b false
    SecFirst s 0 2 (secReq0 2 0 0) [] ∧ (leAt (s.secRead (secReq0 2 0 0) 64).1 34 2 = b.toNat) ∧ Clean (s.die 0).stack ∧ ((secReq0 2 0 0).pas.map (·.1)).Nodup ∧
      (∀ a ∈ (secReq0 2 0 0).pas, a.1 % 64 = 0 ∧ a.1 < 2 ^ 36) ∧ (s.core 0 0).x.kdirty.getLsbD 0 = false := by
  intro b hb
  simp only [List.mem_cons, List.not_mem_nil, or_false] at hb
  rcases hb with rfl | rfl <;> exact ⟨secFirst_of (by decide) (by decide +kernel) (by decide +kernel), by decide +kernel, ⟨rfl, rfl, rfl, by decide⟩, by decide, by decide, by decide⟩
theorem witness_alarms_and_boot : (0 < State.reset.pkgs.length ∧ ∀ m, m < 8 → State.reset.hasDie (8 * 0 + m) = true) ∧ 1 < (State.reset.sec 0).mrs.length ∧
    (State.reset.die 0).hreg.ready = false ∧ (∀ n ∈ [1, 2, 3],
      ((State.reset.updPkg 0 fun g => { g with sec := { g.sec with boot := n } }).sec 0).boot = n) ∧
    ((pokeDie fun y => { y with hreg := { y.hreg with ready := true } }).die 0).hreg.ready = true ∧ (4 ∉ [1, 2, 3, 5, 6]) ∧ (6 ∉ [1, 2, 3, 4, 5]) := by
  decide

/-! ### The whole machine -/

/-- Reset with a group at the head of an engine, whose turn it is. -/
def atHead (e : Engine) (w : Nat) (cs : List Nat) : State := placeGroup State.reset e w cs
theorem witness_turns : (∀ p ∈ [(Engine.c, 0x3228A040, []), (.v, 0x02408100, []), (.m, 0x0580A2A0, []), (.y, 0x02516600, []), (.f, 0x04604498, [])],
      let s := atHead p.1 p.2.1 p.2.2
      (nextTurn s).1 = .core 0 0 p.1 ∧ s.hasCore 0 0 = true ∧ (s.core 0 0).ctl.run = .running ∧
      ((s.core 0 0).slot p.1).any (fun q => q.grp.pres.isEmpty && q.pred && ((decode q.grp.engine q.grp.word q.grp.conts).toOption.any fun i =>
        i.wf && (tilesOf i).all fun v => decide (v < (s.core 0 0).ctx.tiles))) = true) ∧
    (let s := atHead .c 0 []
     ((s.core 0 0).slot .c).any (fun q => q.grp.pres.isEmpty && (decode q.grp.engine q.grp.word q.grp.conts).toOption.isNone) = true) ∧
    ({ State.reset with sched := [.core 0 0 .c] } : State).me.ctl.run ≠ .running ∧
    (let s : State := { State.reset with sched := [.core 9999 0 .c] }
     (nextTurn s).1 = .core 9999 0 .c ∧ s.hasCore 9999 0 = false) ∧
    ((nextTurn { State.reset with sched := [.cycle 0 .ref] }).1 = .cycle 0 .ref ∧ State.reset.hasDie 0 = true) ∧
    (unitsPresent State.reset (.scrubVisit 0) = true ∧ deviceStep (.scrubVisit 0) = true ∧ unitsPresent State.reset (.scrubVisit 4000) = false) := by
  decide +kernel
/-- What the turn of a group runs: its repetitions, nothing with its predicate off, and what is illegal (R30, R43, R44, R129). -/
theorem witness_picks : let x := Core.reset.ctx
    pickInstr x ⟨0, .v, 0x02408100, [], []⟩ 0 true = .run (.vadd ⟨8, .r⟩ ⟨16, .r⟩ ⟨32, .r⟩ false none) 1 ∧
    pickInstr x ⟨0, .v, 0x02408100, [2 ^ 25 + 3 * 2 ^ 19 + 2 ^ 16], []⟩ 2 true = .run (.vadd ⟨10, .r⟩ ⟨16, .r⟩ ⟨32, .r⟩ false none) 4 ∧
    pickInstr x ⟨0, .v, 0x02408100, [2 * 2 ^ 25], []⟩ 0 false = .off ∧ pickInstr x ⟨0, .v, 0x02408100, [2 ^ 25 + 1], []⟩ 0 true = .illegal ∧
    pickInstr { x with tiles := 32 } ⟨0, .v, 0x02408100, [], []⟩ 0 true = .illegal ∧ pickInstr x ⟨0, .v, 0, [], []⟩ 0 true = .illegal := ⟨rfl, rfl, rfl, rfl, rfl, rfl⟩
/-- The group of R33 placed as the host asks is the one the next step runs. -/
theorem test_step_runs_the_placed_word : (match step (State.reset.withFetchWord 32 0x3228A040) with
    | .next t => (t.core 0 0).val 5
    | _ => 0) = 64 := by decide +kernel
theorem witness_ExampleWordsDecode : specWords ≠ [] := by decide
theorem witness_lane_frames : LaneForm (.addi 5 0 7) 5 ∧ (∃ t, exec (.addi 5 0 7) (poke id) = .next t) ∧
    ∀ r ∈ branchForms, (poke id).me.poisoned 5 = false ∧ ∃ t, exec (r.2.1 5 6 2) (poke id) = .next t := by
  refine ⟨.inr (.inr (.inl ⟨_, (List.mem_cons_self : _ ∈ immForms), 0, 7, rfl⟩)), ⟨_, rfl⟩, fun r h => ⟨by decide, ?_⟩⟩
  simp only [branchForms, List.mem_cons, List.not_mem_nil, or_false] at h
  rcases h with rfl | rfl | rfl | rfl | rfl | rfl <;> exact ⟨_, rfl⟩
theorem witness_store_frames : let s := poke id
    (∃ k o u, accessOf s.me (.st .d64 5 6 0x40) = some k ∧ AccessOk s k ∧ s.translate s.cur.die s.me s.me.ctl.level .write k.va.toNat = .ok o ∧
      (let s1 := s.updMe fun x => x.cache o.walked
       s1.setDirty s.cur.die s1.me 1 o.ipa = .ok u)) ∧ ∃ t, exec (.st .d64 5 6 0x40) s = .next t := by
  refine ⟨⟨_, _, _, rfl, ⟨?_, ?_, ?_, ?_⟩, rfl, rfl⟩, ⟨_, rfl⟩⟩
  · simp only [Ready]; decide
  · decide
  · decide
  · decide
theorem witness_home_frames : let s := storing 0x40 0x80
    let st : QStore := ⟨0, 0x200, 0x200, List.replicate 8 3, 0, 7, none⟩
    (s.hasDie 0 = true ∧ (s.core 0 0).fl.stores[2]? = none ∧ (s.die 0).qpath[2 - (s.core 0 0).fl.stores.length]? = some st ∧
      (s.die 0).qpath.filter (fun o => o.core == st.core && o.seq == st.seq) = [st] ∧ (s.die 0).qpath.take 0 = [] ∧
      0 < st.bytes.length ∧ st.pa + st.bytes.length ≤ 2 ^ 36 ∧ ((s.redirty 0 0 0x200).die 0).stack.bytes.wf = true) ∧
    ∃ t, exec (.storePerformedAtHome 0 0 2) s = .next t :=
  ⟨by decide +kernel, ⟨_, rfl⟩⟩
theorem witness_DecodeOfEncodeIsTheInstruction : (Instr.addi 5 5 (-1)).wf = true ∧ encode (.addi 5 5 (-1)) = some (.c, [0x3228BFFF]) ∧
    (Instr.scrubVisit 0).wf = true ∧ encode (.scrubVisit 0) = none := by decide
theorem witness_MemoriesStayCanonical : Canonical State.reset ∧ ∃ t, step { State.reset with sched := [.cycle 0 .ref] } = .next t := by
  refine ⟨?_, ⟨_, rfl⟩⟩
  unfold Canonical; decide

/-! ### Words of every encoded instruction, made from the field tables of R33 to R51 -/

/-- Words of forms CR and CI (R35, R36, R49). -/
theorem test_decode_c_forms : ∀ p ∈ ([
    (0x03F82100, [], .add 63 1 2), (0x05F04200, [], .sub 62 2 4), (0x07E86300, [], .mul 61 3 6), (0x09E08400, [], .mulh 60 4 8),
    (0x0BD8A500, [], .mulhn 59 5 10), (0x0DD0C600, [], .div 58 6 12), (0x0FC8E700, [], .divn 57 7 14), (0x11C10800, [], .rem 56 8 16),
    (0x13B92900, [], .remn 55 9 18), (0x15B14A00, [], .and 54 10 20), (0x17A96B00, [], .or 53 11 22), (0x19A18C00, [], .xor 52 12 24),
    (0x1B99AD00, [], .sll 51 13 26), (0x1D91CE00, [], .srl 50 14 28), (0x1F89EF00, [], .sra 49 15 30), (0x21821000, [], .slt 48 16 32),
    (0x237A3100, [], .sltn 47 17 34), (0x25725200, [], .min 46 18 36), (0x276A7300, [], .minn 45 19 38), (0x29629400, [], .max 44 20 40),
    (0x2B5AB500, [], .maxn 43 21 42), (0x2C2D0000, [], .clz 5 40), (0x2E2D0000, [], .ctz 5 40), (0x302D0000, [], .popc 5 40),
    (0x33085000, [], .addi 33 2 (-4096)), (0x35084FFF, [], .andi 33 2 (4095)), (0x37085FFF, [], .ori 33 2 (-1)), (0x39084001, [], .xori 33 2 (1)),
    (0x41085FFE, [], .slti 33 2 (-2)), (0x43084FFE, [], .sltni 33 2 (4094)), (0x3B08403F, [], .slli 33 2 63), (0x3D084000, [], .srli 33 2 0),
    (0x3F084021, [], .srai 33 2 33)] : List (Nat × List Nat × Instr)), decode .c p.1 p.2.1 = .ok p.2.2 := by decide

/-- Words of forms CF, CB, CJ, CL, CP and CA (R35, R36, R42, R49). -/
theorem test_decode_c_rest : ∀ p ∈ ([
    (0x4438DF80, [], .ext 7 6 63 1), (0x4638C07E, [], .extn 7 6 0 64), (0x4838C2C0, [], .ins 7 6 5 33), (0x4A4C5000, [], .beq 9 34 (-4096)),
    (0x4C4C4FFF, [], .bne 9 34 (4095)), (0x4E4C4000, [], .blt 9 34 (0)), (0x504C5FFF, [], .bltn 9 34 (-1)), (0x524C4007, [], .bge 9 34 (7)),
    (0x544C4001, [], .bgen 9 34 (1)), (0x560C0000, [], .jal 1 (-262144)), (0x580FFFFF, [], .callg 1 524287), (0x5A085FFD, [], .jalr 1 2 (-3)),
    (0x5D001FFF, [], .loop 2 (.reg 63) 127), (0x5EFFFF83, [], .loopp 1 8 (.imm 4095) 3), (0x6041FFFE, [], .ldp 8 15 4095),
    (0x6228C3C5, [], .amo .swap .pod 5 6 7), (0x6428C380, [], .amocas .lane 5 6 7), (0x66000019, [], .fence .ar .core), (0x68000002, [], .bar .quad),
    (0x6A078020, [], .tlwait .tll 60), (0x6DE00010, [], .tlread .tlf 60), (0x6E1E4000, [], .tokw 3 50), (0x701E4000, [], .tokt 3 50),
    (0x741E4000, [], .launch 3 50), (0x761E4000, [], .waitch 3 50)] : List (Nat × List Nat × Instr)), decode .c p.1 p.2.1 = .ok p.2.2 := by decide

/-- Words of the system forms, CM and CU (R34 to R36, R49). -/
theorem test_decode_c_last : ∀ p ∈ ([
    (0x781E4000, [], .taskst 3 50), (0x721E5FFF, [], .probe 3 50 (-1)), (0x7A181FFF, [], .mfk 3 8191), (0x7C006005, [], .mtk 3 5),
    (0x7E000000, [], .eret), (0x80000000, [], .nop), (0x82001FFF, [], .trap 8191), (0x841E4880, [], .secreq 3 50 17),
    (0x861E4880, [], .commit 3 50 17), (0x881E4014, [], .chk 3 50 20), (0xA0A2B000, [], .ld .n8 20 21 (-2048)),
    (0xA2A2AFFE, [], .ld .n16 20 21 (2047)), (0xA4A2BFFE, [], .ld .n32 20 21 (-1)), (0xA6A2A000, [], .ld .d64 20 21 (0)),
    (0xA8A2A002, [], .ld .i8 20 21 (1)), (0xAAA2A004, [], .ld .i16 20 21 (2)), (0xACA2A006, [], .ld .i32 20 21 (3)),
    (0xB0A2B000, [], .st .n8 20 21 (-2048)), (0xB2A2AFFE, [], .st .n16 20 21 (2047)), (0xB4A2BFFE, [], .st .n32 20 21 (-1)),
    (0xB6A2A010, [], .st .d64 20 21 (8)), (0xFBE80000, [], .lah 62 (-524288)), (0xFFE7FFFF, [], .lih 62 524287)] : List (Nat × List Nat × Instr)), decode .c p.1 p.2.1 = .ok p.2.2 := by decide

/-- Words of forms VR and VM without their own option word (R33, R37, R50). -/
theorem test_decode_v_forms : ∀ p ∈ ([
    (0x0209FA04, [], .vadd ⟨1, .r⟩ ⟨63, .c⟩ ⟨0, .d⟩ false none), (0x0413F411, [0x40000000], .vsub ⟨2, .c⟩ ⟨62, .d⟩ ⟨2, .r⟩ true (some .rtz)),
    (0x061DE822, [], .vmul ⟨3, .d⟩ ⟨61, .r⟩ ⟨4, .c⟩ false none), (0x0821E235, [], .vfma ⟨4, .r⟩ ⟨60, .c⟩ ⟨6, .d⟩ true none),
    (0x0A2BDC40, [], .vfnma ⟨5, .c⟩ ⟨59, .d⟩ ⟨8, .r⟩ false none), (0x0C35D053, [0x20000000], .vmin ⟨6, .d⟩ ⟨58, .r⟩ ⟨10, .c⟩ true (some .rne)),
    (0x0E39CA64, [], .vmax ⟨7, .r⟩ ⟨57, .c⟩ ⟨12, .d⟩ false none), (0x1443C471, [], .vand ⟨8, .c⟩ ⟨56, .d⟩ ⟨14, .r⟩ true none),
    (0x164DB882, [], .vor ⟨9, .d⟩ ⟨55, .r⟩ ⟨16, .c⟩ false none), (0x1851B295, [0xA0000000], .vxor ⟨10, .r⟩ ⟨54, .c⟩ ⟨18, .d⟩ true (some .rsto)),
    (0x1C5BACA0, [], .vsll ⟨11, .c⟩ ⟨53, .d⟩ ⟨20, .r⟩ false none), (0x1E65A0B3, [], .vsrl ⟨12, .d⟩ ⟨52, .r⟩ ⟨22, .c⟩ true none),
    (0x20699AC4, [], .vsra ⟨13, .r⟩ ⟨51, .c⟩ ⟨24, .d⟩ false none), (0x607394D1, [0x80000000], .vperm ⟨14, .c⟩ ⟨50, .d⟩ ⟨26, .r⟩ true (some .rdn)),
    (0x10222C01, [], .vabs ⟨4, .c⟩ ⟨5, .d⟩ true none), (0x12222C01, [], .vneg ⟨4, .c⟩ ⟨5, .d⟩ true none),
    (0x1A222C01, [], .vnot ⟨4, .c⟩ ⟨5, .d⟩ true none), (0x28222C01, [], .vmov ⟨4, .c⟩ ⟨5, .d⟩ true none),
    (0x70222C01, [], .vexp2 ⟨4, .c⟩ ⟨5, .d⟩ true none), (0x72222C01, [], .vlog2 ⟨4, .c⟩ ⟨5, .d⟩ true none),
    (0x74222C01, [], .vrcp ⟨4, .c⟩ ⟨5, .d⟩ true none), (0x76222C01, [], .vrsq ⟨4, .c⟩ ⟨5, .d⟩ true none),
    (0x78222C01, [], .vtanh ⟨4, .c⟩ ⟨5, .d⟩ true none), (0x7A222C01, [], .vsig ⟨4, .c⟩ ⟨5, .d⟩ true none),
    (0x30480000, [], .vclr ⟨9, .r⟩ false none), (0x34484000, [], .vpchk ⟨9, .r⟩ ⟨8, .r⟩ false none), (0x62604000, [], .vtrn 12 8 false none),
    (0x40307401, [], .vld 6 14 (-512) true none), (0x44307400, [], .vlds 6 14 (-512) false none), (0x423073FE, [], .vst 6 14 511 none),
    (0x463073FE, [], .vsts 6 14 511 none)] : List (Nat × List Nat × Instr)), decode .v p.1 p.2.1 = .ok p.2.2 := by decide

/-- Words of form VR with the option word they require (R37, R38, R50). -/
theorem test_decode_v_options : ∀ p ∈ ([
    (0x2240204D, [0x07000000], .vcmp .ord ⟨8, .r⟩ ⟨4, .r⟩ ⟨9, .d⟩ true .latched),
    (0x24402048, [0x00FC0000], .vsel ⟨8, .r⟩ ⟨4, .r⟩ ⟨9, .r⟩ 63 false .latched), (0x26282200, [0xA0008C00], .vcvt ⟨5, .r⟩ ⟨4, .c⟩ 0x23 false .rsto),
    (0x2A280000, [0x00240400], .vsplat ⟨5, .r⟩ 9 1 false .latched), (0x2C004800, [0x003003FF], .vxtr 9 12 1023 false .latched),
    (0x2E282200, [0x0000C000], .vtag ⟨5, .r⟩ ⟨4, .c⟩ 0x30 false .latched),
    (0x32402048, [0x00F80000], .vcommit ⟨8, .r⟩ ⟨4, .r⟩ ⟨9, .r⟩ 62 false .latched),
    (0x50282200, [0x0000003F], .vrotr ⟨5, .r⟩ ⟨4, .c⟩ 63 false .latched), (0x52282200, [0x0000000F], .vrotc ⟨5, .r⟩ ⟨4, .c⟩ 15 false .latched),
    (0x54282200, [0x00000001], .vbcr ⟨5, .r⟩ ⟨4, .c⟩ 1 false .latched), (0x56282200, [0x00000002], .vbcc ⟨5, .r⟩ ⟨4, .c⟩ 2 false .latched),
    (0x58282200, [0x01000000], .vredr .min ⟨5, .r⟩ ⟨4, .c⟩ false .latched), (0x5A282200, [0x02000000], .vredc .max ⟨5, .r⟩ ⟨4, .c⟩ false .latched),
    (0x5C282200, [0x03000000], .vscanr .and ⟨5, .r⟩ ⟨4, .c⟩ false .latched), (0x5E282200, [0x05000000], .vscanc .xor ⟨5, .r⟩ ⟨4, .c⟩ false .latched),
    (0x7C280000, [0x00000C00], .vrand ⟨5, .r⟩ 3 false), (0x80282200, [0x00002000], .vbscale ⟨5, .r⟩ ⟨4, .c⟩ 8 false .latched),
    (0x82282200, [0x00002800], .vqmx ⟨5, .r⟩ ⟨4, .c⟩ 10 false .latched), (0x84282200, [0x00004800], .vqlx ⟨5, .r⟩ ⟨4, .c⟩ 18 false .latched),
    (0x86282200, [0x00017C0F], .vqcb ⟨5, .r⟩ ⟨4, .c⟩ 95 15 false .latched), (0x88282200, [0x00000803], .vdq ⟨5, .r⟩ ⟨4, .c⟩ 2 3 false .latched),
    (0x8A202200, [0x00010000], .vsplit ⟨4, .r⟩ ⟨4, .c⟩ 64 0 false .latched), (0x8C00A000, [0x00000802], .vcbld ⟨20, .r⟩ 2 2)] : List (Nat × List Nat × Instr)), decode .v p.1 p.2.1 = .ok p.2.2 := by decide

/-- Words of forms MC and MS, by handle and with an inline record (R39, R46, R51). -/
theorem test_decode_m : ∀ p ∈ ([
    (0x0200A2A7, [], .mmw 20 21 3 true none),
    (0x0200A001, [0x00100020, 0x00010001, 0x00000040, 0x49020400], .mmw 20 0 1 false (some ⟨0x00100020, 0x00010001, 0x00000040, 0x49020400⟩)),
    (0x0582A2A6, [], .mma ⟨48, .c⟩ 20 21 2 true none), (0x0640A2B2, [], .mmar 8 20 21 .rnd 2 false none), (0x0844A2A0, [], .task ⟨8, .d⟩ 20 21 none),
    (0x0A40A000, [0x00100020, 0x00010001, 0x00000040, 0x49020400], .tfwd ⟨8, .r⟩ 20 0 (some ⟨0x00100020, 0x00010001, 0x00000040, 0x49020400⟩)),
    (0x10084180, [], .acal 1 2 3), (0x2A084180, [], .sprd 1 2 3), (0x12080180, [], .acfr 1 3), (0x14080180, [], .aczr 1 3),
    (0x26080180, [], .spmg 1 3), (0x28080180, [], .spage 1 3), (0x1638A2A3, [], .acdr 7 20 21 3 none), (0x2000A2A1, [], .splr 20 21 true none),
    (0x2238A2A3, [], .spmv 7 20 21 3 none), (0x2438A2A0, [], .spjn 7 20 21 none)] : List (Nat × List Nat × Instr)), decode .m p.1 p.2.1 = .ok p.2.2 := by decide

/-- Words of form YC (R40, R51). -/
theorem test_decode_y : ∀ p ∈ ([
    (0x020841C0, [], .cp 1 2 3 .reuse), (0x040841A0, [0x0200A2A0], .cpm 1 2 3 .stream 0x0200A2A0), (0x06086200, [], .gath 1 3 4 .plain),
    (0x080881A0, [], .scat 1 4 3 .stream),
    (0x0A084000, [0x00100020, 0x00010001, 0x00000040, 0x49020400], .fill 1 2 0 .plain (some ⟨0x00100020, 0x00010001, 0x00000040, 0x49020400⟩)),
    (0x100841B0, [], .sbind 1 2 3 .stream true none), (0x120FE000, [], .sunb 1 63), (0x140FE000, [], .dfl 1 63), (0x200FDF80, [], .flush 1 62 63),
    (0x220FDF80, [], .inv 1 62 63)] : List (Nat × List Nat × Instr)), decode .y p.1 p.2.1 = .ok p.2.2 := by decide

/-- Words of form FR with their extension words (R34, R41, R42, R51). -/
theorem test_decode_f : ∀ p ∈ ([
    (0x020FDFC0, [], .rld 1 62 63 .rnd .n8), (0x040FDFA8, [], .rst 1 62 63 .adp .n16),
    (0x060FDFD4, [0x50000000], .ramo .minn 1 62 63 .rnd .n32 .pkg), (0x080FDF9B, [0x0F400000], .ramocas 1 62 63 61 .ord .n64 .die),
    (0x0A0FDFB8, [0x0F400000], .rmc 1 62 63 61 .adp .n64), (0x0C0FD7C0, [], .rtld 1 62 47 .rnd), (0x10080380, [], .rfence 1 7),
    (0x120FDF80, [], .tkget 1 62 63), (0x140FDF80, [], .tkwait 1 62 63), (0x160FDF80, [], .tkret 1 62 63), (0x200FDFA0, [], .rget 1 62 63 .adp none),
    (0x220FC000, [0x00100020, 0x00010001, 0x00000040, 0x49020400], .rput 1 62 0 .ord (some ⟨0x00100020, 0x00010001, 0x00000040, 0x49020400⟩)),
    (0x300FDF80, [], .wdpub 1 62 63), (0x32080000, [], .pbar 1)] : List (Nat × List Nat × Instr)), decode .f p.1 p.2.1 = .ok p.2.2 := by decide

/-! ### What the checks refuse -/

/-- An ill-formed term for each check of WellFormed. -/
theorem test_ill_formed_c : ∀ i ∈ ([.add 64 0 0, .sub 0 64 0, .mul 0 0 64, .clz 64 0, .addi 1 1 4096, .slti 1 1 (-4097), .slli 1 1 64, .ext 1 1 64 1,
    .ext 1 1 0 0, .extn 1 1 0 65, .beq 1 1 4096, .jal 1 262144, .callg 1 524288, .jalr 1 1 4096, .loop 3 (.imm 1) 2, .loop 0 (.imm 4096) 2, .loop 0 (.reg 64) 2,
    .loop 0 (.imm 1) 1, .loop 0 (.imm 1) 128, .loopp 0 0 (.imm 1) 2, .loopp 0 9 (.imm 1) 2, .ldp 1 16 0, .ldp 1 0 4096] : List Instr), i.wf = false := by decide
theorem test_ill_formed_c_rest : ∀ i ∈ ([.amo .add .die 64 0 0, .amocas .die 0 0 64, .tlwait .tlm 64, .tlread .tlm 64, .tokw 64 1, .probe 1 1 4096, .launch 64 1,
    .mfk 1 8192, .mtk 64 1, .trap 8192, .secreq 1 64 1, .commit 1 1 64, .chk 1 1 (-4097), .ld .d64 1 1 2048, .st .n8 1 1 (-2049), .lah 1 524288,
    .lih 1 (-524289)] : List Instr), i.wf = false := by decide
theorem test_ill_formed_v : ∀ i ∈ ([.vadd ⟨64, .r⟩ ⟨0, .r⟩ ⟨0, .r⟩ false none, .vfma ⟨0, .r⟩ ⟨64, .r⟩ ⟨0, .r⟩ false none, .vsel ⟨0, .r⟩ ⟨0, .r⟩ ⟨0, .r⟩ 64 false .latched,
    .vcvt ⟨0, .r⟩ ⟨0, .r⟩ 0x06 false .latched, .vsplat ⟨0, .r⟩ 64 1 false .latched, .vxtr 0 0 1024 false .latched, .vtag ⟨0, .r⟩ ⟨0, .r⟩ 0x24 false .latched,
    .vld 64 0 0 false none, .vst 0 0 512 none, .vlds 0 0 (-513) false none, .vrotr ⟨0, .r⟩ ⟨0, .r⟩ 64 false .latched, .vtrn 64 0 false none, .vtrn 2 0 false none, .vtrn 0 2 false none,
    .vsplit ⟨1, .r⟩ ⟨0, .r⟩ 2 0 false .latched,
    .vrand ⟨0, .r⟩ 0x60 false, .vqcb ⟨0, .r⟩ ⟨0, .r⟩ 0x40 1024 false .latched, .vcbld ⟨0, .r⟩ 2 16] : List Instr), i.wf = false := by decide
theorem test_ill_formed_m_y_f : ∀ i ∈ ([.mmw 0 1 0 false none, .mmw 1 64 0 false none, .mmw 1 1 0 false (some ⟨0, 0, 0, 0⟩), .mmw 1 0 0 false (some ⟨2 ^ 32, 0, 0, 0⟩),
    .mma ⟨0, .r⟩ 1 1 4 false none, .mmar 48 1 1 .ord 0 false none, .acal 64 0 1, .acfr 0 0, .splr 64 1 true none, .spjn 64 1 1 none, .cp 0 1 1 .plain, .cp 1 64 1 .plain,
    .cpm 1 1 1 .plain 0x06000000, .cpm 1 1 1 .plain (2 ^ 32 + 0x02000000), .gath 1 1 3 .plain, .scat 1 3 1 .plain, .fill 1 1 1 .plain (some ⟨0, 0, 0, 0⟩), .sunb 1 64,
    .rld 1 3 1 .ord .n64, .ramo .add 1 2 1 .ord .n8 .die, .ramocas 1 2 1 64 .ord .n64 .die, .rtld 1 2 48 .ord, .rfence 1 0, .rfence 1 8, .pbar 0] : List Instr), i.wf = false := by decide
theorem test_ill_formed_device_steps : ∀ i ∈ ([.lineDelivery 4096 0, .lineDelivery 0 32, .resultReady 0 0 64, .copyGranule 0 16, .spoutPrefetch 0 0 47, .drainWrite 0 0 64,
    .cascadeServe 0 4, .xinvPage 0 0 (2 ^ 56), .rangeTableLoad 0 0 3 0, .noiseModeWrite 0 0 0x017 0, .preempt 0 0 32, .registerWrite 0 65536 0, .rillRowMultiply 0 64,
    .linkRetrainRequest 0 6, .linkEyeEvent 0 0 128, .hbmEyeEvent 0 2112, .spareLaneRetrainDone 0 64, .checkAlarm 0 7, .mateAlarm 0 6,
    .telemetryUpdate 0 65536 0 0] : List Instr), i.wf = false := by decide
/-- Reserved encodings are refused, not read as a neighbour (R30, R33 to R42, R49 to R51): opcode 0, a field that must be zero, a reserved
scope, direction, class or width, an option word that is missing or not due, a second one, a reserved function. -/
theorem test_reserved_encodings : ∀ p ∈ ([(.c, 0, []), (.c, 0x02000001, []), (.c, 0x6800000E, []), (.c, 0x66000004, []), (.c, 0x5D800202, []), (.c, 0x5C400201, []),
    (.c, 0x3A000040, []), (.c, 0xAE000000, []), (.c, 0xB8000000, []), (.c, 0x80000001, []), (.c, 0x80000000, [0]), (.v, 0x02060000, []), (.v, 0x22402048, []),
    (.v, 0x22402048, [0x08000000]), (.v, 0x22402048, [0xC0000000]), (.v, 0x02408100, [1]), (.v, 0x02408100, [0, 0]), (.v, 0x42307001, []), (.m, 0x0400A2A8, []),
    (.m, 0x0400A2A0, [0]), (.m, 0x0200A2A0, [1, 1, 1, 1]), (.y, 0x02516660, []), (.y, 0x04516600, [0x0640A2A9]), (.y, 0x04516600, []), (.f, 0x02A08490 + 0x60, []),
    (.f, 0x06A084BB, []), (.f, 0x06A084BB, [0x90000000]), (.f, 0x02A0A490, []), (.v, 0x62484000, []), (.v, 0x8A282200, [0x00010000])] : List (Engine × Nat × List Nat)),
    (decode p.1 p.2.1 p.2.2).toOption = none := by decide

/-! ### Worked examples of the spec -/

/-- Tiles of a tag, tile 4 rowFirst a row of codes first. -/
def rowFirst (tag : Nat) (row : List Nat) : State :=
  let s := (tiled tag).updMe fun x => { x with tiles := x.tiles.set 4 { Tile.zero tag with cells := (row ++ List.replicate (1024 - row.length) 0).map (BitVec.ofNat 32) } }
  { s with cur := { s.cur with rank := 100 } }
/-- What a next state of an instruction shows. -/
def shown {α : Type} (o : Host.Outcome State Fault Refusal) (f : State → α) : Option α :=
  match o with
  | .next t => some (f t)
  | _ => none
/-- The tree of R157 and the chain of R158 (chapter 08, "tree against chain"): 0x4381 against 0x4380. -/
theorem test_tree_against_chain : let s := rowFirst 2 ([0x4380, 0x3F80] ++ List.replicate 31 0 ++ [0x3F80])
    shown (exec (.vredr .add ⟨5, .r⟩ ⟨4, .r⟩ false .latched) s) (fun t => (t.me.tiles[5]?).map fun v => v.cells.take 64) = some (some (List.replicate 64 0x4381)) ∧
    shown (exec (.vscanr .add ⟨6, .r⟩ ⟨4, .r⟩ false .latched) s) (fun t => (t.me.tiles[6]?).map fun v => v.cells.take 64) = some (some (List.replicate 64 0x4380)) := by
  decide +kernel
/-- The MX block of chapter 18, "one block three ways": its scale byte and its first codes. -/
theorem test_mx_block : shown (exec (.vqmx ⟨5, .r⟩ ⟨4, .r⟩ 0x08 false .latched) (rowFirst 1 [0x40A00000, 0x40200000, 0x40E00000, 0x7FC00000, 0xBF400000]))
    (fun t => (t.me.tiles[5]?).map fun v => (v.tag, v.cells.take 6, v.side.take 1)) = some (some (0x08, [6, 4, 7, 0, 0xA, 0], [0x7F])) := by
  decide +kernel
/-- `vsplat.fp32 v3, s9` with s9 = 0x3FC00000 fills v3 with 1.5 (R144). -/
theorem test_splat : shown (exec (.vsplat ⟨3, .r⟩ 9 1 false .latched) (withReg 9 0x3FC00000 false)) (fun t => (t.me.tiles[3]?).map fun v => (v.tag, v.cells)) =
    some (some (1, List.replicate 1024 0x3FC00000)) := by decide +kernel
/-- The bit fields of R110 at the register's edge, and `sltni s5, s6, -1` of R109. -/
theorem test_bit_fields : let s := (withReg 6 0xA000000000000000 false).updMe fun x => (x.updReg 9 fun _ => ⟨0xFF, false, false⟩).updReg 8 fun _ => ⟨7, false, false⟩
    shown (exec (.ext 7 6 60 8) s) (fun t => t.me.val 7) = some 0xFFFFFFFFFFFFFFFA ∧ shown (exec (.extn 7 6 60 8) s) (fun t => t.me.val 7) = some 0xA ∧
    shown (exec (.ins 8 9 60 8) s) (fun t => t.me.val 8) = some 0xF000000000000007 ∧ shown (exec (.sltni 5 6 (-1)) s) (fun t => t.me.val 5) = some 1 ∧
    shown (exec (.sltni 5 6 (-1)) (withReg 6 0xFFFFFFFFFFFFFFFF false)) (fun t => t.me.val 5) = some 0 := by decide

/-- Two pseudo-channels of die 0's stack retraining. -/
def retraining (s : State) : State := s.updDie 0 fun y => { y with hbm := { y.hbm with training := [0, 1] } }
theorem witness_retraining_waits :
    (let s := retraining (storing 0x40 0x80)
     (s.die 0).qpath[0]? = some ⟨0, 0x200, 0x200, List.replicate 8 3, 0, 7, none⟩ ∧ s.channelBusy 0 0x200 8 = true ∧
       (storing 0x40 0x80).channelBusy 0 0x200 8 = false) ∧
    (let s := retraining (poke id)
     (s.translate 0 s.me 2 .atomic 0).isOk = true ∧ s.channelBusy 0 0 8 = true ∧ (poke id).channelBusy 0 0 8 = false) ∧
    (let s := retraining (lined 0 [])
     Between (s.core 0 0) ∧ (s.translate 0 (s.core 0 0) 2 .fetch 0).isOk = true ∧ s.channelBusy 0 0 32 = true ∧
       (lined 0 []).channelBusy 0 0 32 = false) :=
  ⟨by decide, by decide, between_of (by decide), by decide, by decide, by decide⟩
theorem witness_spouts_and_requests_wait :
    (let s := retraining (streamAt .spout [] 0x1000 id)
     (s.tilePieces 0 (s.core 0 0) { onePat 1 with base := 0x1000 } 0).any (s.pieceBusy 0) = true) ∧
    (let s := streamAt .spout [] 0x1000 id
     (s.tilePieces 0 (s.core 0 0) { onePat 1 with base := 0x1000 } 0).any (s.pieceBusy 0) = false) ∧
    (let q := (flit0 0 0 none (.load [(0x1000, 8)]) none).req
     (retraining (netted [] 2 0 0)).reqBehind 0 q = true ∧ (netted [] 2 0 0).reqBehind 0 q = false) := by decide +kernel

end Sys2Proof.Tests
end

section
/-!
PROOF. Canonical memories (log 3), unit by unit: a state has canonical memories exactly when every die's stack and basin and
every host memory are in canonical form, and the updates that reach no memory leave that as it was.
-/
namespace Sys2Proof.Machine
open Sys2Proof Sys2Proof.Safety

variable {s t : State}

/-! ### Unit by unit -/

/-- A number without a die reads as the die of reset, whose memories are empty. -/
theorem canonical_iff_units : Canonical s ↔
    (∀ d, (s.die d).stack.bytes.wf = true ∧ (s.die d).basin.bytes.wf = true) ∧ ∀ p, (s.pkg p).host.wf = true := by
  constructor
  · rintro ⟨hd, hp⟩
    refine ⟨fun d => ?_, fun p => ?_⟩
    · unfold State.die
      cases e : s.dies[d]? with
      | none => exact ⟨rfl, rfl⟩
      | some y => exact hd y (List.mem_of_getElem? e)
    · unfold State.pkg
      cases e : s.pkgs[p]? with
      | none => rfl
      | some g => exact hp g (List.mem_of_getElem? e)
  · rintro ⟨hd, hp⟩
    refine ⟨fun y hy => ?_, fun g hg => ?_⟩
    · obtain ⟨d, e⟩ := List.getElem?_of_mem hy
      have k := hd d
      simp only [State.die, e, Option.getD_some] at k
      exact k
    · obtain ⟨p, e⟩ := List.getElem?_of_mem hg
      have k := hp p
      simp only [State.pkg, e, Option.getD_some] at k
      exact k

theorem canonical_die (h : Canonical s) (d : Nat) : (s.die d).stack.bytes.wf = true ∧ (s.die d).basin.bytes.wf = true :=
  (canonical_iff_units.1 h).1 d
theorem canonical_pkg (h : Canonical s) (p : Nat) : (s.pkg p).host.wf = true := (canonical_iff_units.1 h).2 p

/-- Only the dies and the packages of a state hold memories. -/
theorem canonical_congr (hd : t.dies = s.dies) (hp : t.pkgs = s.pkgs) : Canonical t ↔ Canonical s := by
  simp only [Canonical, hd, hp]
@[simp] theorem canonical_withUnits {pod nets recs kids saves flits acks reqNo steps sched cur} :
    Canonical ⟨s.dies, s.pkgs, pod, nets, recs, kids, saves, flits, acks, reqNo, steps, sched, cur⟩ ↔ Canonical s :=
  Iff.rfl
@[simp] theorem canonical_ite {p : Prop} [Decidable p] :
    Canonical (if p then s else t) ↔ (p → Canonical s) ∧ (¬ p → Canonical t) := by
  split <;> simp [*]

/-! ### Updates that reach no memory -/

/-- An update of a die that leaves both its memories alone keeps the machine's. -/
@[simp] theorem canonical_updDie_mem {d : Nat} {g : Die → Die}
    (k : ∀ y, (g y).stack.bytes = y.stack.bytes ∧ (g y).basin.bytes = y.basin.bytes) :
    Canonical (s.updDie d g) ↔ Canonical s := by
  simp only [canonical_iff_units, die_updDie, pkg_updDie]
  refine and_congr_left fun _ => forall_congr' fun e => ?_
  split
  · rw [(k _).1, (k _).2]
  · rfl
@[simp] theorem canonical_updMyDie_mem {g : Die → Die}
    (k : ∀ y, (g y).stack.bytes = y.stack.bytes ∧ (g y).basin.bytes = y.basin.bytes) :
    Canonical (s.updMyDie g) ↔ Canonical s := canonical_updDie_mem k
@[simp] theorem canonical_updCore_iff {d c : Nat} {g : Core → Core} : Canonical (s.updCore d c g) ↔ Canonical s :=
  canonical_updDie_mem fun _ => ⟨rfl, rfl⟩
@[simp] theorem canonical_updMe_iff {g : Core → Core} : Canonical (s.updMe g) ↔ Canonical s := canonical_updCore_iff
@[simp] theorem canonical_issued_iff : Canonical s.issued ↔ Canonical s := canonical_updMe_iff
@[simp] theorem canonical_updPkg_mem {p : Nat} {g : Pkg → Pkg} (k : ∀ y, (g y).host = y.host) :
    Canonical (s.updPkg p g) ↔ Canonical s := by
  have hp : ∀ q, ((s.updPkg p g).pkg q).host = (s.pkg q).host := fun q => by
    unfold State.pkg State.updPkg
    rw [List.getElem?_modify]
    cases s.pkgs[q]? with
    | none => rfl
    | some y => dsimp only [Option.map_some, Option.getD_some]; split <;> simp [k]
  simp only [canonical_iff_units, hp, die_updPkg]
@[simp] theorem canonical_updNet {i : Nat} {g : BarNet → BarNet} : Canonical (s.updNet i g) ↔ Canonical s := Iff.rfl
@[simp] theorem canonical_leaveBars {x : Core} {key : Nat} : Canonical (s.leaveBars x key) ↔ Canonical s := Iff.rfl
@[simp] theorem canonical_updRec {key : Nat} {g : LaunchRec → LaunchRec} : Canonical (s.updRec key g) ↔ Canonical s := Iff.rfl
@[simp] theorem canonical_send {q : Req} {dst : Nat} {mid : Option Nat} : Canonical (s.send q dst mid) ↔ Canonical s := Iff.rfl
@[simp] theorem canonical_answer {q : Req} {r : RRes} {home : Nat} {mid : Option Nat} :
    Canonical (s.answer q r home mid) ↔ Canonical s := Iff.rfl
@[simp] theorem canonical_updCmd {d c : Nat} {tl : TimelineId} {num : Nat} {f : Cmd → Cmd} :
    Canonical (s.updCmd d c tl num f) ↔ Canonical s := canonical_updCore_iff
@[simp] theorem canonical_updCasc {d k : Nat} {f : Cascade → Cascade} : Canonical (s.updCasc d k f) ↔ Canonical s :=
  canonical_updDie_mem fun _ => ⟨rfl, rfl⟩
@[simp] theorem canonical_setEngine {d e : Nat} {cur : Option (Nat × Nat)} : Canonical (s.setEngine d e cur) ↔ Canonical s :=
  canonical_updDie_mem fun _ => ⟨rfl, rfl⟩
@[simp] theorem canonical_updLink {d p : Nat} {f : Link → Link} : Canonical (s.updLink d p f) ↔ Canonical s :=
  canonical_updDie_mem fun _ => ⟨rfl, rfl⟩
@[simp] theorem canonical_updEnds {d p : Nat} {f : Link → Link} : Canonical (s.updEnds d p f) ↔ Canonical s := by
  simp [State.updEnds]
@[simp] theorem canonical_raiseHint {d b : Nat} : Canonical (s.raiseHint d b) ↔ Canonical s :=
  canonical_updDie_mem fun _ => ⟨rfl, rfl⟩
@[simp] theorem canonical_updSec {p : Nat} {f : Security → Security} : Canonical (s.updSec p f) ↔ Canonical s :=
  canonical_updPkg_mem fun _ => rfl
@[simp] theorem canonical_arrive {dd : Nat} {k : Task} : Canonical (s.arrive dd k) ↔ Canonical s :=
  canonical_updDie_mem fun _ => ⟨rfl, rfl⟩

/-- An update of every die at once that leaves their memories alone. -/
theorem canonical_mapDies (h : Canonical s) {g : Die → Die}
    (k : ∀ y, (g y).stack.bytes = y.stack.bytes ∧ (g y).basin.bytes = y.basin.bytes)
    {pod nets recs kids saves flits acks reqNo steps sched cur} :
    Canonical ⟨s.dies.map g, s.pkgs, pod, nets, recs, kids, saves, flits, acks, reqNo, steps, sched, cur⟩ := by
  refine ⟨fun z hz => ?_, h.2⟩
  obtain ⟨y, hy, rfl⟩ := List.mem_map.1 hz
  rw [(k y).1, (k y).2]
  exact h.1 y hy

/-! ### Outcomes -/

/-- The next state of an outcome, if there is one, has canonical memories. -/
def OutCanonical (o : Out) : Prop := ∀ u, o = .next u → Canonical u

@[simp] theorem outCanonical_next : OutCanonical (.next s) ↔ Canonical s :=
  ⟨fun h => h s rfl, fun h _ e => by cases e; exact h⟩
@[simp] theorem outCanonical_fault {r : Fault} : OutCanonical (.fault r) := fun _ e => by cases e
@[simp] theorem outCanonical_ite {p : Prop} [Decidable p] {a b : Out} :
    OutCanonical (if p then a else b) ↔ (p → OutCanonical a) ∧ (¬ p → OutCanonical b) := by
  split <;> simp [*]
@[simp] theorem outCanonical_stall : OutCanonical s.stall ↔ Canonical s := outCanonical_next

section
variable (h : Canonical s)
include h

@[simp] theorem outCanonical_raisePend {f : PendFault} : OutCanonical (s.raisePend f) := fun _ e => canonical_raisePend h f e
@[simp] theorem outCanonical_raise {c b : Nat} {v : W64} : OutCanonical (s.raise c b v) := outCanonical_raisePend h
@[simp] theorem outCanonical_raiseX {e : XFault} : OutCanonical (s.raiseX e) := outCanonical_raisePend h
@[simp] theorem outCanonical_illegal : OutCanonical s.illegal := outCanonical_raise h
@[simp] theorem outCanonical_formatFault : OutCanonical s.formatFault := outCanonical_raise h
@[simp] theorem outCanonical_privFault : OutCanonical s.privFault := outCanonical_raise h
@[simp] theorem outCanonical_poisonFault {r : Nat} : OutCanonical (s.poisonFault r) := outCanonical_raise h
@[simp] theorem outCanonical_tilePoison {o : W64} : OutCanonical (s.tilePoison o) := outCanonical_raise h
@[simp] theorem outCanonical_streamFault {n k : Nat} {f : RingFail} : OutCanonical (s.streamFault n k f) :=
  outCanonical_raisePend (canonical_updMe h _)
@[simp] theorem outCanonical_raiseBad {b : Bad} : OutCanonical (s.raiseBad b) := by
  cases b <;> simp [State.raiseBad, h]

end

end Sys2Proof.Machine
end

section
/-!
PROOF. The writers of memory: marks (R189, R411), what the host's writes become (R180, R365), trace records (R403), and the
pieces that commands read and write. Each keeps the canonical form.
-/
namespace Sys2Proof.Machine
open Sys2Proof Sys2Proof.Safety

variable {s t : State}

/-! ### One store -/

theorem Store.foldl_wf {α : Type} {f : Store → α → Store} (k : ∀ m a, m.bytes.wf = true → (f m a).bytes.wf = true)
    (l : List α) : ∀ m : Store, m.bytes.wf = true → (l.foldl f m).bytes.wf = true := by
  induction l with
  | nil => exact fun _ h => h
  | cons a l ih => exact fun m h => ih _ (k m a h)

theorem Memory.foldl_put_wf (l : List (Nat × Byte)) (m : Memory) (h : m.wf = true) :
    (l.foldl (fun m c => m.put c.1 c.2) m).wf = true := by
  induction l generalizing m with
  | nil => exact h
  | cons c l ih => exact ih _ (m.put_wf _ _ h)

theorem Store.takeLine_wf (m : Store) (k line : Nat) (cs : List (Nat × Byte)) (h : m.bytes.wf = true) :
    (m.takeLine k line cs).bytes.wf = true := by
  unfold Store.takeLine
  split
  · exact m.putLine_wf _ _ _ h
  · exact Store.foldl_wf (fun m _ => m.putPart_wf _ _ _) _ m h

/-! ### One die -/

/-- Both memories of a die in canonical form. -/
def Die.MemoryWf (y : Die) : Prop := y.stack.bytes.wf = true ∧ y.basin.bytes.wf = true

theorem Die.foldl_memoryWf {α : Type} {f : Die → α → Die} (k : ∀ y a, y.MemoryWf → (f y a).MemoryWf) (l : List α) :
    ∀ y : Die, y.MemoryWf → (l.foldl f y).MemoryWf := by
  induction l with
  | nil => exact fun _ h => h
  | cons a l ih => exact fun y h => ih _ (k y a h)

theorem canonical_updDie_wf (h : Canonical s) {d : Nat} {g : Die → Die} (k : ∀ y, y.MemoryWf → (g y).MemoryWf) :
    Canonical (s.updDie d g) := canonical_updDie h d g fun y a b => k y ⟨a, b⟩
/-- A die put in the place of another. -/
theorem canonical_setDie (h : Canonical s) {d : Nat} {y : Die} (k : y.MemoryWf) : Canonical (s.updDie d fun _ => y) :=
  canonical_updDie_wf h fun _ _ => k
theorem memoryWf_die (h : Canonical s) (d : Nat) : (s.die d).MemoryWf := canonical_die h d

theorem Die.markStack_memoryWf (y : Die) (line : Nat) (h : y.MemoryWf) : (y.markStack line).MemoryWf :=
  ⟨Store.mark_wf _ _ h.1, h.2⟩
theorem Die.touchLine_memoryWf (y : Die) (line : Nat) (h : y.MemoryWf) : (y.touchLine line).MemoryWf := by
  unfold Die.touchLine
  dsimp only
  split
  · exact h
  · split
    · exact h
    · exact ⟨Store.mark_wf _ _ h.1, h.2⟩
/-- Opening a row reaches no memory. -/
theorem Die.touchOpen_memoryWf (y : Die) (line : Nat) (hint : Hint) (h : y.MemoryWf) :
    ((y.touchLine line).openRow line hint).MemoryWf := y.touchLine_memoryWf line h
theorem Die.present_memoryWf {y : Die} {q pa n : Nat} (h : y.MemoryWf) : (y.present q pa n).MemoryWf := h
theorem Die.dropTasks_memoryWf {y : Die} {l : List Nat} (h : y.MemoryWf) : (y.dropTasks l).MemoryWf := h
theorem Die.writeBasin_memoryWf (y : Die) (k a : Nat) (bs : List Byte) (h : y.MemoryWf) :
    ({ y with basin := y.basin.write k a bs } : Die).MemoryWf := ⟨h.1, Store.write_wf _ _ _ _ h.2⟩
theorem Die.takeFresh_memoryWf (y : Die) (k a n : Nat) (h : y.MemoryWf) : (y.takeFresh k a n).MemoryWf :=
  ⟨Store.foldl_wf (fun m _ => m.takeLine_wf _ _ _) _ _ h.1, h.2⟩
theorem Die.takeAll_memoryWf (y : Die) (k : Nat) (h : y.MemoryWf) : (y.takeAll k).MemoryWf :=
  Die.foldl_memoryWf (fun y _ => y.takeFresh_memoryWf _ _ _) _ y h
theorem Pkg.takeFresh_wf (p : Pkg) (a n : Nat) (h : p.host.wf = true) : (p.takeFresh a n).host.wf = true :=
  Memory.foldl_put_wf _ _ h
theorem Pkg.takeAll_wf (p : Pkg) (h : p.host.wf = true) : p.takeAll.host.wf = true :=
  List.foldlRecOn (motive := fun p : Pkg => p.host.wf = true) _ _ h fun p hp _ _ => p.takeFresh_wf _ _ hp

/-! ### Marks and touches -/

theorem canonical_markPa (h : Canonical s) {d pa n : Nat} : Canonical (s.markPa d pa n) := by
  unfold State.markPa
  split
  · exact canonical_updDie_wf h (Die.foldl_memoryWf (fun y _ => y.markStack_memoryWf _) _)
  · exact canonical_updDie_wf h fun y k => ⟨k.1, Store.foldl_mark_wf _ _ k.2⟩
  · exact h
theorem canonical_touchPaBy (h : Canonical s) {q d pa n : Nat} {hint : Hint} : Canonical (s.touchPaBy q d pa n hint) := by
  unfold State.touchPaBy
  split
  · exact canonical_updDie_wf h (Die.foldl_memoryWf (fun y l k => y.touchOpen_memoryWf l hint k) _)
  · exact canonical_updDie_wf h fun _ k => k
  · exact h
theorem canonical_touchPa (h : Canonical s) {d pa n : Nat} {hint : Hint} : Canonical (s.touchPa d pa n hint) :=
  canonical_touchPaBy h

/-! ### What the host wrote, and what it sees -/

theorem canonical_takeFresh (h : Canonical s) {d pa n : Nat} : Canonical (s.takeFresh d pa n) := by
  unfold State.takeFresh
  split
  · exact canonical_updDie_wf h fun y => y.takeFresh_memoryWf _ _ _
  · exact canonical_updPkg h _ _ fun p => p.takeFresh_wf _ _
  · exact h
theorem canonical_takeHost (h : Canonical s) {p : Nat} : Canonical (s.takeHost p) :=
  canonical_updPkg (canonical_foldl _ (fun _ _ k => canonical_updDie_wf k fun y => y.takeAll_memoryWf _) _ _ h) _ _
    Pkg.takeAll_wf
/-- Showing the host what flushes have covered changes its view alone. -/
theorem canonical_publishTo (h : Canonical s) {p launch kpos : Nat} : Canonical (s.publishTo p launch kpos) := by
  unfold State.publishTo
  dsimp only
  refine canonical_updPkg ?_ _ _ fun _ a => a
  refine canonical_foldl _ (fun s f k => ?_) _ _ h
  split <;> simpa using k
theorem canonical_publish (h : Canonical s) {sc : Scope} : Canonical (s.publish sc) := by
  simp [State.publish, h, canonical_publishTo]

/-! ### Trace records -/

theorem canonical_writeRun (h : Canonical s) {d k pa : Nat} {bs : List Byte} : Canonical (s.writeRun d k pa bs) :=
  canonical_foldl _ (fun _ _ k => canonical_writePa k _ _ _ _) _ _ h
theorem canonical_putRecord (h : Canonical s) {d : Nat} {rec tail : List Byte} : Canonical (s.putRecord d rec tail) := by
  simp [State.putRecord, h, canonical_writeRun]
theorem canonical_flushRecord (h : Canonical s) {d : Nat} {q : TraceRec} : Canonical (s.flushRecord d q) := by
  unfold State.flushRecord
  dsimp only
  split <;> simp [h, canonical_putRecord]
theorem canonical_flushTrace (h : Canonical s) {d : Nat} : Canonical (s.flushTrace d) := by
  unfold State.flushTrace
  dsimp only
  refine canonical_updDie ?_ _ _ fun _ a b => ⟨a, b⟩
  exact canonical_foldl _ (fun _ _ k => canonical_foldl _ (fun _ _ k => canonical_flushRecord k) _ _ k) _ _ h
@[simp] theorem canonical_queueRecord_iff {d c type : Nat} {data : Option W64} :
    Canonical (s.queueRecord d c type data) ↔ Canonical s := canonical_updDie_mem fun _ => ⟨rfl, rfl⟩
@[simp] theorem canonical_stopRecord {d c : Nat} {epc : W64} : Canonical (s.stopRecord d c epc) ↔ Canonical s :=
  canonical_queueRecord_iff
theorem canonical_loopRecord (h : Canonical s) {d c : Nat} : Canonical (s.loopRecord d c) := by
  simp [State.loopRecord, h]

/-! ### Pieces of commands -/

theorem canonical_released (h : Canonical s) {d : Nat} {rel : List (Nat × Nat)} : Canonical (s.released d rel) :=
  canonical_writeAll h _ _
theorem canonical_writeLoc (h : Canonical s) {q d k : Nat} {hint : Hint} {l : Loc} {bs : List Byte} :
    Canonical (s.writeLoc q d k hint l bs) := by
  cases l with
  | basin pa => exact canonical_updDie_wf h fun y => y.writeBasin_memoryWf _ _ _
  | mem pa ipa => exact canonical_openPa (canonical_writePa h _ _ _ _) _ _ _ _
theorem canonical_markPiece (h : Canonical s) {d : Nat} {p : Piece} : Canonical (s.markPiece d p) := by
  unfold State.markPiece
  split
  · exact canonical_updDie_wf h fun y k => ⟨k.1, Store.foldl_mark_wf _ _ k.2⟩
  · exact canonical_markPa h
theorem canonical_touchPiece (h : Canonical s) {q d : Nat} {hint : Hint} {p : Piece} : Canonical (s.touchPiece q d hint p) := by
  unfold State.touchPiece
  split
  · simpa [Die.present] using h
  · exact canonical_touchPa h
theorem canonical_foldl_touchPiece (h : Canonical s) {q d : Nat} {hint : Hint} (l : List Piece) :
    Canonical (l.foldl (fun s p => s.touchPiece q d hint p) s) :=
  canonical_foldl _ (fun _ _ k => canonical_touchPiece k) _ _ h
theorem canonical_foldl_markPiece (h : Canonical s) {d : Nat} (l : List Piece) :
    Canonical (l.foldl (fun s p => s.markPiece d p) s) :=
  canonical_foldl _ (fun _ _ k => canonical_markPiece k) _ _ h
theorem canonical_dirtyAll {d : Nat} {x : Core} {acc : Acc} {ps : List Piece} (h : Canonical s)
    (e : s.dirtyAll d x acc ps = .ok t) : Canonical t := by
  induction ps generalizing s with
  | nil => cases e; exact h
  | cons p ps ih =>
    unfold State.dirtyAll at e
    split at e
    · exact ih h e
    · split at e
      · cases e
      next e1 => exact ih (canonical_setDirty h e1) e
/-- Moves performed write their destinations and mark what came from a marked line (R189). -/
theorem canonical_perform {v : State} {q d : Nat} {x : Core} {hint : Hint} {ms : List Move} (h : Canonical s)
    (e : s.perform v q d x hint ms = .ok t) : Canonical t := by
  unfold State.perform at e
  dsimp only at e
  split at e
  · cases e
  next s1 e1 =>
    cases e
    refine canonical_foldl _ (fun _ _ k => canonical_foldl_markPiece k _) _ _ ?_
    refine canonical_foldl _ (fun _ _ k => canonical_writeLoc k) _ _ ?_
    exact canonical_dirtyAll (canonical_foldl_touchPiece h _) e1

end Sys2Proof.Machine
end

section
/-!
PROOF. The lane (R98 to R127, R205 to R212), the vector engine (R128 to R169) and the fetch of lines (R14, R25): each
instruction waits, faults, or updates its core; only stores, atomics and basin accesses reach a memory, through its writers.
-/
namespace Sys2Proof.Machine
open Sys2Proof Sys2Proof.Safety

variable {s : State} (h : Canonical s)

/-! ### Results in scalar registers, and branches -/

section
include h

@[simp] theorem outCanonical_result1 {d : Nat} {v : W64} {p : Bool} : OutCanonical (s.result1 d v p) := by
  simp [State.result1, h]
@[simp] theorem outCanonical_resultLater {d n : Nat} {v : W64} {p : Bool} : OutCanonical (s.resultLater d v p n) := by
  simp [State.resultLater, h]
theorem outCanonical_alu2 {d a b : Nat} {f : W64 → W64 → W64} : OutCanonical (s.alu2 d a b f) := by
  simp [State.alu2, h]
theorem outCanonical_alu2Late {d a b n : Nat} {f : W64 → W64 → W64} : OutCanonical (s.alu2Late d a b n f) := by
  simp [State.alu2Late, h]
theorem outCanonical_alu1 {d a : Nat} {f : W64 → W64} : OutCanonical (s.alu1 d a f) := by simp [State.alu1, h]
theorem outCanonical_alu0 {d : Nat} {v : W64} : OutCanonical (s.alu0 d v) := by simp [State.alu0, h]
theorem outCanonical_commit {d a b : Nat} : OutCanonical (execCommit d a b s) := by simp [execCommit, h]
theorem outCanonical_nop : OutCanonical (execNop s) := by simp [execNop, h]
theorem outCanonical_tokt {d a : Nat} : OutCanonical (execTokt d a s) := by simp [execTokt, h]
theorem outCanonical_tokw {d a : Nat} : OutCanonical (execTokw d a s) := by
  unfold execTokw
  split <;> [skip; simp [h]]
  cases (tokenSet (s.me.val a)).find? fun r => !(s.me.reg r).pend <;> simp [h]
theorem outCanonical_resultReady {d c r : Nat} : OutCanonical (execResultReady d c r s) := by
  unfold execResultReady
  split <;> simp [h]

@[simp] theorem outCanonical_transfer {dec : Decision} : OutCanonical (s.transfer dec) := by simp [State.transfer, h]
@[simp] theorem outCanonical_branch {cond : Bool} {off : Int} : OutCanonical (s.branch cond off) := outCanonical_transfer h
theorem outCanonical_branch2 {a b : Nat} {off : Int} {f : W64 → W64 → Bool} : OutCanonical (s.branch2 a b off f) := by
  unfold State.branch2
  cases s.me.firstPoison [a, b] <;> simp [h]
theorem outCanonical_chk {a b : Nat} {off : Int} : OutCanonical (execChk a b off s) := by simp [execChk, h]
@[simp] theorem outCanonical_jump {d n : Nat} : OutCanonical (s.jump d n) := by simp [State.jump, h]
theorem outCanonical_jal {d : Nat} {off : Int} : OutCanonical (execJal d off s) := by simp [execJal, h]
theorem outCanonical_jalr {d a : Nat} {imm : Int} : OutCanonical (execJalr d a imm s) := by simp [execJalr, h]
theorem outCanonical_callgRead {slot : Nat} : OutCanonical (s.callgRead slot) := by
  unfold State.callgRead
  dsimp only
  split
  · exact outCanonical_raise h
  · split
    · exact outCanonical_raise h
    · split <;> simp [h]
theorem outCanonical_callg {d slot : Nat} : OutCanonical (execCallg d slot s) := by
  unfold execCallg
  split <;> [skip; simp [h]]
  split
  · exact outCanonical_raise h
  · split <;> simp [h, outCanonical_callgRead]
theorem outCanonical_loopStart {piped : Bool} {k stages fin : Nat} {cnt : LoopCount} :
    OutCanonical (s.loopStart piped k stages cnt fin) := by
  unfold State.loopStart
  cases s.me.firstPoison (countRegs cnt) <;> simp [h]

/-! ### Accesses -/

theorem outCanonical_scalarPa {acc : Acc} {a : W64} {n : Nat} {k : State → XOk → Out}
    (hk : ∀ u o, Canonical u → OutCanonical (k u o)) : OutCanonical (s.scalarPa acc a n k) := by
  unfold State.scalarPa
  split
  · exact outCanonical_raise h
  · split
    · exact outCanonical_raiseX h
    · exact hk _ _ (canonical_updMe h _)
@[simp] theorem outCanonical_sendLoad {kind : LoadKind} {d pa : Nat} : OutCanonical (s.sendLoad kind d pa) := by
  simp [State.sendLoad, h]
theorem outCanonical_ld {w : LdWidth} {d a : Nat} {off : Int} : OutCanonical (execLd w d a off s) := by
  have k := @outCanonical_scalarPa s h
  simp +contextual [execLd, h, k]
theorem outCanonical_postStore {ipa pa : Nat} {bs : List Byte} : OutCanonical (s.postStore ipa pa bs) := by
  unfold State.postStore
  split
  · exact outCanonical_raiseX h
  next e => simpa using canonical_setDirty h e
theorem outCanonical_st {w : StWidth} {d a : Nat} {off : Int} : OutCanonical (execSt w d a off s) := by
  unfold execSt
  split <;> [skip; simp [h]]
  split
  · exact outCanonical_poisonFault h
  · exact outCanonical_scalarPa h fun _ _ k => outCanonical_postStore k
theorem outCanonical_ldp {d win idx : Nat} : OutCanonical (execLdp d win idx s) := by
  unfold execLdp
  split <;> [skip; simp [h]]
  split
  · exact outCanonical_raise h
  · refine outCanonical_ite.2 ⟨fun _ => outCanonical_raise h, fun _ => ?_⟩
    refine outCanonical_ite.2 ⟨fun _ => outCanonical_raise h, fun _ => ?_⟩
    refine outCanonical_ite.2 ⟨fun _ => outCanonical_result1 (canonical_updMe h _), fun _ => ?_⟩
    refine outCanonical_scalarPa h fun u o k => ?_
    refine outCanonical_ite.2 ⟨fun _ => outCanonical_sendLoad (canonical_updMe k _), fun _ => ?_⟩
    exact outCanonical_scalarPa k fun _ _ k => outCanonical_sendLoad (canonical_updMe k _)
theorem outCanonical_loadReturn {d c n : Nat} : OutCanonical (execLoadReturn d c n s) := by
  unfold execLoadReturn
  split
  · simpa using h
  · dsimp only
    split
    · simpa using h
    · rw [outCanonical_next, canonical_updCore_iff]
      exact canonical_foldl _ (fun _ _ k => canonical_touchPa k) _ _ h
theorem outCanonical_storePerformedAtHome {d c n : Nat} : OutCanonical (execStorePerformedAtHome d c n s) := by
  unfold execStorePerformedAtHome
  dsimp only
  split
  · simp [h, canonical_toQuad]
  · split <;> simp [h, canonical_performQuad]
theorem outCanonical_localAtomic {sc : Scope} {d : Nat} {va : W64} {new : W64 → Option W64} :
    OutCanonical (s.localAtomic sc d va new) := by
  unfold State.localAtomic
  dsimp only
  split
  · exact outCanonical_next.2 h
  refine outCanonical_scalarPa h fun u o k => ?_
  split
  · exact outCanonical_next.2 k
  have k1 := canonical_touchPa (canonical_settle k sc s.cur.die s.cur.core o.pa 8) (d := s.cur.die) (pa := o.pa) (n := 8)
    (hint := .plain)
  split
  · exact outCanonical_raise k1
  · split
    · simpa using k1
    · split
      · exact outCanonical_raiseX k1
      next e => simpa using canonical_setDirty k1 e
theorem outCanonical_amo {op : AtomicOp} {sc : Scope} {d a b : Nat} : OutCanonical (execAmo op sc d a b s) := by
  unfold execAmo
  cases s.me.firstPoison [a, b] <;> simp [h, outCanonical_localAtomic]
theorem outCanonical_amocas {sc : Scope} {d a b : Nat} : OutCanonical (execAmocas sc d a b s) := by
  unfold execAmocas
  cases s.me.firstPoison [d, a, b] <;> simp [h, outCanonical_localAtomic]
theorem outCanonical_amoOldValueReturn {d c n : Nat} : OutCanonical (execAmoOldValueReturn d c n s) := by
  unfold execAmoOldValueReturn
  split <;> simp [h]

/-! ### Fences, barriers and timelines -/

omit h in
@[simp] theorem canonical_acquire : Canonical s.acquire ↔ Canonical s := canonical_updMe_iff
theorem canonical_postFence {sc : Scope} : Canonical (s.postFence sc) := canonical_publish (canonical_updMe h _)
theorem outCanonical_fence {kind : FenceKind} {sc : Scope} : OutCanonical (execFence kind sc s) := by
  cases kind <;> simp [execFence, h, canonical_postFence]
theorem outCanonical_bar {sc : Scope} : OutCanonical (execBar sc s) := by
  unfold execBar
  split
  · exact outCanonical_illegal h
  · split
    · simp [h, canonical_publish]
    · dsimp only
      split <;> simp [h, canonical_publish]
theorem outCanonical_completeNet {n : Nat} {partition : Bool} : OutCanonical (s.completeNet n partition) := by
  unfold State.completeNet
  split <;> simp [h]
theorem outCanonical_tlwait {tl : TimelineId} {a : Nat} : OutCanonical (execTlwait tl a s) := by simp [execTlwait, h]

/-! ### Vector instructions -/

@[simp] theorem outCanonical_vrun {tm : VTime} {rd wr : List Nat} {sp : Bool} {scal : List Nat}
    {check : (Nat → Tile) → VCheck} {run : (Nat → Src) → List Nat → VOut} :
    OutCanonical (s.vrun tm rd wr sp scal check run) := fun _ e => canonical_vrun h e
theorem outCanonical_arith {op : ArithOp} {d : TOp} {srcs : List TOp} {sp : Bool} {rnd : Option Rnd} :
    OutCanonical (s.arith op d srcs sp rnd) := by
  simp [State.arith, h]
theorem outCanonical_extreme {wantMin sp : Bool} {d a b : TOp} {rnd : Option Rnd} :
    OutCanonical (s.extreme wantMin d a b sp rnd) := by
  simp [State.extreme, h]
theorem outCanonical_unary {accepts : Nat → Bool} {d a : TOp} {sp : Bool} {f : Nat → W32 → W32} :
    OutCanonical (s.unary accepts d a sp f) := outCanonical_vrun h
theorem outCanonical_bitwise {d a b : TOp} {sp : Bool} {f : W32 → W32 → W32} : OutCanonical (s.bitwise d a b sp f) :=
  outCanonical_vrun h
theorem outCanonical_shift {op : ShiftOp} {d a b : TOp} {sp : Bool} : OutCanonical (s.shift op d a b sp) := outCanonical_vrun h
theorem outCanonical_vcmp {cond : Cond} {d a b : TOp} {sp : Bool} {rnd : Rnd} : OutCanonical (execVcmp cond d a b sp rnd s) := by
  simp [execVcmp, h]
theorem outCanonical_vcvt {d a : TOp} {fmt : Nat} {sp : Bool} {rnd : Rnd} : OutCanonical (execVcvt d a fmt sp rnd s) := by
  simp [execVcvt, h]
theorem outCanonical_moves {tm : VTime} {d a : TOp} {k limit : Nat} {sp : Bool} {src : Nat → Nat} :
    OutCanonical (s.moves tm d a k limit sp src) := outCanonical_vrun h
theorem outCanonical_across {op : RedOp} {rows scan sp : Bool} {d a : TOp} {rnd : Rnd} :
    OutCanonical (s.across op rows scan d a sp rnd) := by
  simp [State.across, h]
theorem outCanonical_special {fn : SpecialFn} {d a : TOp} {sp : Bool} {rnd : Option Rnd} :
    OutCanonical (s.special fn d a sp rnd) := by
  simp [State.special, h]
theorem outCanonical_quantiser {d a : TOp} {fmt : Nat} {accepts sp : Bool} {rnd : Rnd} :
    OutCanonical (s.quantiser d a fmt accepts sp rnd) := by
  simp [State.quantiser, h]
theorem outCanonical_vbscale {d a : TOp} {fmt : Nat} {sp : Bool} {rnd : Rnd} : OutCanonical (execVbscale d a fmt sp rnd s) := by
  simp [execVbscale, h]
theorem outCanonical_vdq {d a : TOp} {fmt k : Nat} {sp : Bool} {rnd : Rnd} : OutCanonical (execVdq d a fmt k sp rnd s) := by
  simp [execVdq, h]
theorem outCanonical_vtrn {d a : Nat} {sp : Bool} {rnd : Option Rnd} : OutCanonical (execVtrn d a sp rnd s) := by
  simp [execVtrn, h]
theorem outCanonical_vsplit {d a : TOp} {fmt k : Nat} {sp : Bool} {rnd : Rnd} : OutCanonical (execVsplit d a fmt k sp rnd s) := by
  simp [execVsplit, h]
theorem outCanonical_vcbld {a : TOp} {fmt k : Nat} : OutCanonical (execVcbld a fmt k s) := by simp [execVcbld, h]
theorem outCanonical_vld {n a : Nat} {off : Int} {sp : Bool} {rnd : Option Rnd} : OutCanonical (execVld n a off sp rnd s) := by
  simp [execVld, h]
theorem outCanonical_basinStore {n a m : Nat} {off : Int} {accepts : Nat → Bool} {bytes : Tile → List Byte} :
    OutCanonical (s.basinStore n a off m accepts bytes) := by simp [State.basinStore, h]
theorem outCanonical_vlds {n a : Nat} {off : Int} {sp : Bool} {rnd : Option Rnd} : OutCanonical (execVlds n a off sp rnd s) := by
  simp [execVlds, h]

/-! ### The fetch of a line, and of the next group -/

theorem canonical_fetchLine {d c addr : Nat} {only : Option Refetch} : Canonical (s.fetchLine d c addr only) := by
  unfold State.fetchLine
  dsimp only
  split
  · exact canonical_takeTrap h _ _ _
  split
  · exact canonical_takeTrap h _ _ _
  split
  · exact h
  next o _ _ =>
    have k : Canonical ((s.touchPa d o.pa 32 .plain).updCore d c fun x => x.cache o.walked) :=
      canonical_updCore (canonical_touchPa h) _ _ _
    split
    · exact canonical_takeTrap k _ _ _
    split
    · exact canonical_takeTrap k _ _ _
    · split <;> simp [k]
@[simp] theorem canonical_aim {p : Slot} {d c reps : Nat} : Canonical (s.aim p d c reps) := by
  simp [State.aim, h]

end

/-- What a turn of an engine has before it: canonical memories, whatever it does next. -/
def Fetched.Keeps : Fetched → Prop
  | .nothing u => Canonical u
  | .faulted o => OutCanonical o
  | .instr _ u => Canonical u

theorem keeps_fetchGroup (h : Canonical s) {d c : Nat} {e : Engine} : (s.fetchGroup d c e).Keeps := by
  unfold State.fetchGroup
  dsimp only
  split
  · exact h
  · split
    · exact h
    · split
      · exact outCanonical_illegal (canonical_aim h)
      · exact canonical_issued (canonical_aim h)
      · exact canonical_aim h

end Sys2Proof.Machine
end

section
/-!
PROOF. Commands (R43, R182 to R204), copy engines (R180 to R190), streams (R191 to R202) and the probe of the block cache
(R174 to R178): they issue into the core's own lists, and reach memory by performing moves (`canonical_perform`).
-/
namespace Sys2Proof.Machine
open Sys2Proof Sys2Proof.Safety

variable {s t : State}

/-! ### Issue -/

section
variable (h : Canonical s)
include h

@[simp] theorem canonical_captureRep {args : List CmdArg} : Canonical (s.captureRep args) := by simp [State.captureRep, h]
@[simp] theorem outCanonical_issueCmd {tl : TimelineId} {token : Nat} {arg : CmdArg} {f : Cmd → Cmd} :
    OutCanonical (s.issueCmd tl token arg f) := fun _ e => canonical_issueCmd h e
theorem outCanonical_issueGate {tl : TimelineId} {scal : List Nat} {k : State → Out} (hk : OutCanonical (k s)) :
    OutCanonical (s.issueGate tl scal k) := by simp [State.issueGate, h, hk]

/-! ### Copies -/

theorem canonical_maintainAt {d : Nat} {x : Core} {flush : Bool} {pa n : Nat} : Canonical (s.maintainAt d x flush pa n) := by
  simp [State.maintainAt, h, canonical_takeFresh]
/-- A copy that is maintenance: the host's view of its granules changes, or what the host wrote to them is taken in (R180). -/
theorem canonical_maintain {d : Nat} {x : Core} {flush : Bool} {a n : W64} (e : s.maintain d x flush a n = .ok t) :
    Canonical t := by
  unfold State.maintain at e
  dsimp only at e
  split at e
  · cases e; exact h
  split at e
  · cases e
  split at e
  · cases e
  split at e
  · cases e; exact h
  split at e
  · cases e; exact h
  split at e
  · cases e
  · cases e; exact canonical_foldl _ (fun _ _ k => canonical_maintainAt k) _ _ h
theorem outCanonical_issueCopy {i : Instr} : OutCanonical (s.issueCopy i) := by
  unfold State.issueCopy
  dsimp only
  split
  · exact outCanonical_next.2 h
  · exact outCanonical_raiseBad h
  · split
    · exact outCanonical_next.2 (canonical_captureRep h)
    · split
      · exact outCanonical_next.2 h
      · simpa using h
theorem canonical_copyStep {d e c : Nat} {k : Cmd} : Canonical (s.copyStep d e c k) := by
  unfold State.copyStep
  dsimp only
  split
  · simpa using h
  split
  · exact h
  split
  · split
    · exact h
    · split
      · simpa using h
      next e1 => simp [canonical_maintain h e1]
  · split
    · simpa using h
    next e1 => simp [canonical_maintain h e1]
  · split
    · simpa using h
    · split
      · exact h
      · split
        · simpa using h
        next e1 => simp [canonical_perform h e1]
theorem outCanonical_copyGranule {d e : Nat} : OutCanonical (execCopyGranule d e s) := by
  unfold execCopyGranule
  split
  · simp [h, canonical_copyStep]
  · dsimp only
    split
    · simpa using h
    · split <;> simp [h, canonical_copyStep]

/-! ### The block cache -/

theorem outCanonical_probeMiss {a b : Nat} {off : Int} {idx owner block : Nat} :
    OutCanonical (s.probeMiss a b off idx owner block) := by simp [State.probeMiss, Die.setTag, h]
theorem outCanonical_probeBlock {va : W64} {k : State → Out} (hk : ∀ u, Canonical u → OutCanonical (k u)) :
    OutCanonical (s.probeBlock va k) := by
  unfold State.probeBlock
  split
  · exact hk _ h
  · exact outCanonical_scalarPa h fun _ _ k => hk _ k
theorem outCanonical_probe {a b : Nat} {off : Int} : OutCanonical (execProbe a b off s) := by
  unfold execProbe
  refine outCanonical_ite.2 ⟨fun _ => ?_, fun _ => outCanonical_next.2 h⟩
  refine outCanonical_ite.2 ⟨fun _ => outCanonical_raise h, fun _ => ?_⟩
  refine outCanonical_ite.2 ⟨fun _ => outCanonical_poisonFault h, fun _ => ?_⟩
  refine outCanonical_probeBlock h fun u k => ?_
  dsimp only
  split
  · simp [Die.setTag, k]
  · split <;> simp [k, outCanonical_probeMiss]

/-! ### Streams -/

theorem outCanonical_sbind {n a b : Nat} {hint : Hint} {drain : Bool} {rec : Option Shape4} :
    OutCanonical (execSbind n a b hint drain rec s) := by
  refine outCanonical_issueGate h ?_
  refine outCanonical_ite.2 ⟨fun _ => outCanonical_illegal h, fun _ => ?_⟩
  refine outCanonical_ite.2 ⟨fun _ => outCanonical_next.2 h, fun _ => ?_⟩
  split <;> simp [h]
theorem outCanonical_streamEnd {a : Nat} {drainOnly : Bool} {k : State → W64 → Out} (hk : ∀ v, OutCanonical (k s v)) :
    OutCanonical (s.streamEnd a drainOnly k) :=
  outCanonical_issueGate h (by simp [h, hk])
theorem outCanonical_sunb {n a : Nat} : OutCanonical (execSunb n a s) := outCanonical_streamEnd h fun _ => by simp [h]
theorem outCanonical_dfl {n a : Nat} : OutCanonical (execDfl n a s) := outCanonical_streamEnd h fun _ => outCanonical_issueCmd h
theorem outCanonical_spoutPrefetch {d c x : Nat} : OutCanonical (execSpoutPrefetch d c x s) := by
  unfold execSpoutPrefetch
  dsimp only
  split
  · simpa using h
  · simp [h, canonical_foldl_touchPiece]
theorem canonical_writeDrain {d c x : Nat} {b : Binding} : Canonical (s.writeDrain d c x b) := by
  unfold State.writeDrain
  dsimp only
  split
  · exact h
  split
  · exact h
  split
  · simpa using h
  split
  · exact h
  split
  · simpa using h
  next e => simpa using canonical_perform h e
theorem outCanonical_drainWrite {d c x : Nat} : OutCanonical (execDrainWrite d c x s) := by
  unfold execDrainWrite
  dsimp only
  split <;> simp [h, canonical_writeDrain]

end

end Sys2Proof.Machine
end

section
/-!
PROOF. The matrix engine and its cascades (R213 to R232), and the confluence (R285 to R308): a served command touches what
it reads; rows leave a cascade through moves performed at the task's core.
-/
namespace Sys2Proof.Machine
open Sys2Proof Sys2Proof.Safety

variable {s t : State}

/-! ### Matrix commands -/

section
variable (h : Canonical s)
include h

theorem outCanonical_recordThen {n : Nat} {rec : Option Shape4} {waits : Pattern → Bool} {bads : Pattern → List Bad}
    {k : Pattern → Out} (hk : ∀ p, OutCanonical (k p)) : OutCanonical (s.recordThen n rec waits bads k) := by
  unfold State.recordThen
  refine outCanonical_ite.2 ⟨fun _ => outCanonical_illegal h, fun _ => ?_⟩
  dsimp only
  split
  · exact outCanonical_raiseBad h
  · refine outCanonical_ite.2 ⟨fun _ => outCanonical_next.2 h, fun _ => ?_⟩
    split
    · exact outCanonical_raiseBad h
    · exact hk _
theorem outCanonical_captureTile {a : Nat} {k : Tile → Option (Nat × Nat) → Out} (hk : ∀ v n, OutCanonical (k v n)) :
    OutCanonical (s.captureTile a k) := by
  unfold State.captureTile
  split <;> simp [h, hk]
theorem outCanonical_claimTile {d : Nat} {k : Option (Nat × Nat) → Out} (hk : ∀ n, OutCanonical (k n)) :
    OutCanonical (s.claimTile d k) := by
  unfold State.claimTile
  split <;> simp [h, hk]
theorem outCanonical_mma {a : TOp} {n m cas : Nat} {sw : Bool} {rec : Option Shape4} :
    OutCanonical (execMma a n m cas sw rec s) := by
  refine outCanonical_issueGate h ?_
  refine outCanonical_ite.2 ⟨fun _ => outCanonical_next.2 h, fun _ => ?_⟩
  refine outCanonical_ite.2 ⟨fun _ => outCanonical_illegal h, fun _ => ?_⟩
  exact outCanonical_recordThen h fun _ => outCanonical_captureTile h fun _ _ => outCanonical_issueCmd h
theorem outCanonical_mmw {n m cas : Nat} {dup : Bool} {rec : Option Shape4} : OutCanonical (execMmw n m cas dup rec s) :=
  outCanonical_issueGate h (outCanonical_recordThen h fun _ => outCanonical_issueCmd h)
theorem outCanonical_acal {a b n : Nat} : OutCanonical (execAcal a b n s) := by
  refine outCanonical_issueGate h ?_
  refine outCanonical_ite.2 ⟨fun _ => outCanonical_illegal h, fun _ => ?_⟩
  split <;> simp [h]
theorem outCanonical_issueBanks {a n : Nat} {i : Instr} : OutCanonical (s.issueBanks a n i) :=
  outCanonical_issueGate h (by simp [h])
theorem outCanonical_acdr {d n m cas : Nat} {rec : Option Shape4} : OutCanonical (execAcdr d n m cas rec s) := by
  refine outCanonical_issueGate h ?_
  refine outCanonical_ite.2 ⟨fun _ => outCanonical_next.2 h, fun _ => ?_⟩
  refine outCanonical_ite.2 ⟨fun _ => outCanonical_illegal h, fun _ => ?_⟩
  exact outCanonical_recordThen h fun _ => outCanonical_claimTile h fun _ => outCanonical_issueCmd h

end

/-! ### Serving a cascade's commands -/

/-- A command served, or failed at its unit, leaves canonical memories. -/
def Served.Keeps : Served → Prop
  | .waits => True
  | .fails _ u => Canonical u
  | .done _ u => Canonical u

@[simp] theorem keeps_waits : Served.waits.Keeps := trivial
@[simp] theorem keeps_fails {e : EngErr} : (Served.fails e s).Keeps ↔ Canonical s := Iff.rfl
@[simp] theorem keeps_done {st : Nat} : (Served.done st s).Keeps ↔ Canonical s := Iff.rfl
@[simp] theorem keeps_ite {p : Prop} [Decidable p] {a b : Served} :
    (if p then a else b).Keeps ↔ (p → a.Keeps) ∧ (¬ p → b.Keeps) := by
  split <;> simp [*]

section
variable (h : Canonical s)
include h

theorem keeps_serveMmw {d c cas : Nat} {k : Cmd} {dup : Bool} {p : Pattern} : (s.serveMmw d c cas k dup p).Keeps := by
  unfold State.serveMmw
  dsimp only
  split
  · exact h
  · simp [h, canonical_foldl_touchPiece]
theorem canonical_serveMma {d c cas : Nat} {sw ftz : Bool} {dir : Dir} {a : CmdArg} {p : Pattern} {v : Tile} :
    Canonical (s.serveMma d c cas sw ftz dir a p v) := by
  simp [State.serveMma, h]
theorem keeps_serveAcdr {d c cas : Nat} {k : Cmd} {v : Nat} {a : CmdArg} {p : Pattern} : (s.serveAcdr d c cas k v a p).Keeps := by
  unfold State.serveAcdr
  dsimp only
  split
  · trivial
  · split <;> simp [h]
theorem keeps_serveAcal {d c : Nat} {req mask : W64} : (s.serveAcal d c req mask).Keeps := by simp [State.serveAcal, h]
theorem keeps_serveBanks {d c : Nat} {req : W64} {free : Bool} : (s.serveBanks d c req free).Keeps := by
  simp [State.serveBanks, h]
theorem keeps_serveRep {d c : Nat} {k : Cmd} {a : CmdArg} : (s.serveRep d c k a).Keeps := by
  unfold State.serveRep
  dsimp only
  split
  · exact keeps_serveMmw h
  · split <;> simp [h, canonical_serveMma]
  · exact canonical_serveMma h
  · exact keeps_serveAcdr h
  · exact keeps_serveAcal h
  · exact keeps_serveBanks h
  · exact keeps_serveBanks h
  · exact h

end

theorem canonical_serveReps {d c cas : Nat} (f : Nat) : ∀ {s : State} {k : Cmd} {st : Nat}, Canonical s →
    Canonical (State.serveReps f s d c k cas st) := by
  induction f with
  | zero => exact fun h => h
  | succ f ih =>
    intro s k st h
    unfold State.serveReps
    split
    · simpa using h
    next a _ =>
      split
      · exact h
      have hk := keeps_serveRep h (d := d) (c := c) (k := k) (a := a)
      split
      · exact h
      next e => rw [e, keeps_fails] at hk; simpa using hk
      next e => rw [e, keeps_done] at hk; exact ih (canonical_updCmd.2 hk)

section
variable (h : Canonical s)
include h

theorem canonical_serveDirect {d cas : Nat} : Canonical (s.serveDirect d cas) := by
  unfold State.serveDirect
  split
  · exact h
  · split
    · exact h
    · exact canonical_serveReps _ h

/-! ### Entering the task table -/

theorem canonical_enterCmd {d c : Nat} {k : Cmd} : Canonical (s.enterCmd d c k) := by
  unfold State.enterCmd
  split <;> simp [h]

omit h in
theorem canonical_letIn {d c : Nat} (f : Nat) : ∀ {s : State}, Canonical s → Canonical (State.letIn f s d c) := by
  induction f with
  | zero => exact fun h => h
  | succ f ih =>
    intro s h
    unfold State.letIn
    split
    · exact h
    · exact ih (canonical_foldl _ (fun _ _ k => canonical_enterCmd k) _ _ h)
theorem canonical_admitAll {d : Nat} : Canonical (s.admitAll d) :=
  canonical_foldl _ (fun _ _ k => canonical_letIn 64 k) _ _ h
theorem outCanonical_issueTask {n : Nat} {a : CmdArg} : OutCanonical (s.issueTask n a) := by
  unfold State.issueTask
  split
  next e => simp [canonical_issueCmd h e, canonical_letIn]
  · exact outCanonical_issueCmd h
theorem outCanonical_taskIssue {i : Instr} {a : TOp} {n m : Nat} {fwd : Bool} {rec : Option Shape4} :
    OutCanonical (s.taskIssue i a n m fwd rec) := by
  refine outCanonical_issueGate h ?_
  refine outCanonical_ite.2 ⟨fun _ => outCanonical_next.2 h, fun _ => ?_⟩
  refine outCanonical_ite.2 ⟨fun _ => outCanonical_illegal h, fun _ => ?_⟩
  dsimp only
  split
  · exact outCanonical_raiseBad h
  split
  · exact outCanonical_raiseBad h
  refine outCanonical_ite.2 ⟨fun _ => outCanonical_next.2 h, fun _ => ?_⟩
  split
  · exact outCanonical_raiseBad h
  refine outCanonical_ite.2 ⟨fun _ => outCanonical_issueTask h, fun _ => ?_⟩
  exact outCanonical_captureTile h fun _ _ => outCanonical_issueTask h
theorem outCanonical_taskst {d a : Nat} : OutCanonical (execTaskst d a s) := by
  unfold execTaskst
  refine outCanonical_ite.2 ⟨fun _ => ?_, fun _ => outCanonical_next.2 h⟩
  refine outCanonical_ite.2 ⟨fun _ => outCanonical_illegal h, fun _ => ?_⟩
  refine outCanonical_ite.2 ⟨fun _ => outCanonical_poisonFault h, fun _ => ?_⟩
  exact outCanonical_resultLater (by simp [Die.kick, h])
theorem outCanonical_taskDeadline {d n : Nat} : OutCanonical (execTaskDeadline d n s) := by
  refine outCanonical_next.2 (canonical_updDie_wf h fun y k => ?_)
  split
  · exact k
  · split <;> exact k

/-! ### Passes -/

omit h in
@[simp] theorem canonical_dropTasks {d : Nat} {l : List Nat} : Canonical (s.updDie d fun y => y.dropTasks l) ↔ Canonical s :=
  canonical_updDie_mem fun _ => ⟨rfl, rfl⟩
omit h in
@[simp] theorem canonical_releaseTask {d : Nat} {k : Task} : Canonical (s.releaseTask d k) ↔ Canonical s := by
  simp [State.releaseTask]
theorem canonical_endTask {d : Nat} {k : Task} {status : Nat} : Canonical (s.endTask d k status) := by
  simp [State.endTask, h, canonical_letIn]
theorem canonical_foldl_endTask {d status : Nat} (l : List Task) :
    Canonical (l.foldl (fun s k => s.endTask d k status) s) :=
  canonical_foldl _ (fun _ _ k => canonical_endTask k) _ _ h
theorem canonical_commitPass {d k : Nat} {l : List Task} {pos : List Nat} : Canonical (s.commitPass d k l pos) := by
  have h1 := canonical_foldl_endTask h (d := d) (status := 0x22) (l.filter fun k => !(s.die d).grantedNow k)
  unfold State.commitPass
  dsimp only
  split
  · split
    · exact h1
    · refine canonical_admitAll ?_
      refine canonical_updDie ?_ _ _ fun _ a b => ⟨a, b⟩
      exact canonical_foldl _ (fun _ _ k => canonical_releaseTask.2 k) _ _ h1
  · exact canonical_admitAll h1
theorem outCanonical_passCommit {d k : Nat} : OutCanonical (execPassCommit d k s) := by
  unfold execPassCommit
  split
  · exact outCanonical_next.2 h
  · split <;> simp [h, canonical_commitPass]
theorem canonical_touchWeights {d k : Nat} {e : DirEntry} {held biasOn : Bool} : Canonical (s.touchWeights d k e held biasOn) := by
  unfold State.touchWeights
  split
  · exact canonical_foldl_touchPiece h _
  · exact h
omit h in
@[simp] theorem canonical_parkWeights {d : Nat} {addr : W64} {k : Task} : Canonical (s.parkWeights d addr k) ↔ Canonical s := by
  simp only [State.parkWeights]
  split <;> simp
theorem canonical_loadPass {d k : Nat} {p : Pass} : Canonical (s.loadPass d k p) := by
  unfold State.loadPass
  dsimp only
  split
  · simp [h, canonical_foldl_endTask]
  · split
    · split <;> simp [h, canonical_touchWeights]
    · refine canonical_foldl_endTask ?_ _
      simpa [Die.withdrawEntry] using h
    · exact canonical_foldl _ (fun _ _ k => canonical_parkWeights.2 k) _ _ h
omit h in
@[simp] theorem canonical_ownerStat {k : Task} {st : Nat} : Canonical (s.ownerStat k st) ↔ Canonical s := canonical_updCore_iff
theorem canonical_enterRow {d k : Nat} {p : Pass} {r : PassRow} : Canonical (s.enterRow d k p r) := by
  unfold State.enterRow
  split <;> simp [h]
theorem canonical_servePass {d k : Nat} {p : Pass} : Canonical (s.servePass d k p) := by
  unfold State.servePass
  split
  · exact canonical_loadPass h
  · split
    · exact h
    · exact canonical_enterRow h

/-! ### Rows -/

omit h in
@[simp] theorem canonical_setRow {d k : Nat} {r : PassRow} : Canonical (s.setRow d k r) ↔ Canonical s := canonical_updCasc
omit h in
@[simp] theorem canonical_dropRow {d k : Nat} {r : PassRow} : Canonical (s.dropRow d k r) ↔ Canonical s := canonical_updCasc
theorem canonical_actRow {d k : Nat} {q : Task} {r : PassRow} : Canonical (s.actRow d k q r).2 := by
  unfold State.actRow
  split <;> simp [h]
theorem canonical_convert {q : Task} {r : PassRow} {bs : List Byte} (e : s.convert q r = some (bs, t)) : Canonical t := by
  unfold State.convert at e
  rw [Option.map_eq_some_iff] at e
  obtain ⟨⟨ws, u⟩, hd, e⟩ := e
  cases e
  simpa using canonical_draw h hd
theorem canonical_settleRow {d k : Nat} {q : Task} {r : PassRow} : Canonical (s.settleRow d k q r).2 := by
  unfold State.settleRow
  split
  · exact canonical_actRow (canonical_enterRow h)
  · exact canonical_actRow h
theorem canonical_parkOwner {d k : Nat} {q : Task} {pass : Nat} {again : Bool} {e : EngErr} :
    Canonical (s.parkOwner d k q pass again e) := by
  unfold State.parkOwner
  dsimp only
  split
  · exact canonical_foldl _ (fun _ _ k => by simpa using k) _ _ h
  · refine canonical_foldl _ (fun _ _ k => canonical_updCmd.2 k) _ _ ?_
    refine canonical_foldl _ (fun s p k => ?_) _ _ h
    split
    · simpa using k
    · exact canonical_setRow.2 (canonical_settleRow k)
theorem canonical_finishRow {d k : Nat} {q : Task} {r : PassRow} : Canonical (s.finishRow d k q r) := by
  unfold State.finishRow
  dsimp only
  split
  · simpa using h
  · split
    · exact canonical_parkOwner (canonical_actRow h)
    next e => exact canonical_setRow.2 (canonical_convert (canonical_actRow h) e)
theorem outCanonical_epilogueRow {d k : Nat} : OutCanonical (execEpilogueRow d k s) := by
  unfold execEpilogueRow
  split
  · simpa using h
  · split <;> simp [h, canonical_finishRow]
theorem canonical_scatterBytes {d : Nat} {x : Core} {a : Int} {bs : List Byte} (e : s.scatterBytes d x a bs = .ok t) :
    Canonical t := by
  unfold State.scatterBytes at e
  split at e
  · cases e
  · exact canonical_perform h e
theorem canonical_scatterAt {q : Task} {rho : Nat} {bs : List Byte} (e : s.scatterAt q rho bs = .ok t) : Canonical t := by
  unfold State.scatterAt at e
  split at e
  · cases e
  next e1 => cases e; exact canonical_updCmd.2 (canonical_scatterBytes h e1)
theorem canonical_afterScatter {d k : Nat} {q : Task} {r : PassRow} : Canonical (s.afterScatter d k q r) := by
  simp [State.afterScatter, h, canonical_endTask, canonical_admitAll]
theorem canonical_scatterRow {d k : Nat} {q : Task} {r : PassRow} {bs : List Byte} : Canonical (s.scatterRow d k q r bs) := by
  unfold State.scatterRow
  split
  · exact canonical_parkOwner h
  next e => exact canonical_afterScatter (canonical_scatterAt h e)
theorem canonical_sendRows {d k : Nat} {q : Task} {r : PassRow} : Canonical (s.sendRows d k q r) := by
  simp [State.sendRows, h]
theorem outCanonical_rowScatter {d k : Nat} : OutCanonical (execRowScatter d k s) := by
  unfold execRowScatter
  split
  · simpa using h
  · split <;> simp [h, canonical_admitAll, canonical_sendRows, canonical_scatterRow]
theorem outCanonical_parkedRowRescatter {d k : Nat} : OutCanonical (execParkedRowRescatter d k s) := by
  unfold execParkedRowRescatter
  split
  · simpa using h
  refine outCanonical_ite.2 ⟨fun _ => outCanonical_next.2 h, fun _ => ?_⟩
  split
  · exact outCanonical_next.2 (canonical_scatterRow h)
  · split
    · exact outCanonical_next.2 (canonical_parkOwner h)
    next e => exact outCanonical_next.2 (canonical_scatterRow (canonical_convert h e))
theorem canonical_resumeTasks {d c : Nat} : Canonical (s.resumeTasks d c) := by
  refine canonical_letIn 64 (canonical_foldl _ (fun s k hs => ?_) _ _ h)
  split <;> simpa using hs
theorem canonical_releaseParked {d c : Nat} : Canonical (s.releaseParked d c) :=
  canonical_foldl _ (fun _ _ k => by simp [k]) _ _ h

/-! ### Forwarded tasks -/

theorem outCanonical_tfwdRowsAtPeer {d n : Nat} : OutCanonical (execTfwdRowsAtPeer d n s) := by
  unfold execTfwdRowsAtPeer
  split
  · simpa using h
  · split <;> simp [h]
omit h in
theorem canonical_scatterBack {q : Task} (rows : List (Nat × List Byte)) : ∀ {s : State}, Canonical s →
    Canonical (s.scatterBack q rows) := by
  induction rows with
  | nil => exact fun h => canonical_letIn 64 (canonical_updCmd.2 h)
  | cons r rows ih =>
    intro s h
    unfold State.scatterBack
    split
    · simpa using h
    next e => exact ih (canonical_scatterAt h e)
theorem outCanonical_tfwdRowsReturn {d n : Nat} : OutCanonical (execTfwdRowsReturn d n s) := by
  unfold execTfwdRowsReturn
  dsimp only
  split
  · simpa using h
  split
  · refine outCanonical_ite.2 ⟨fun _ => outCanonical_next.2 h, fun _ => ?_⟩
    split <;> simp [h, canonical_scatterBack, canonical_letIn]
  · simpa using h

end

end Sys2Proof.Machine
end

section
/-!
PROOF. The split unit (R316 to R328): rows are copied into the hot area and reports written by performing moves.
-/
namespace Sys2Proof.Machine
open Sys2Proof Sys2Proof.Safety

variable {s t : State}

/-! ### Updates of the unit's own records -/

@[simp] theorem dropSplit_stack {y : Die} {n : Nat} : (y.dropSplit n).stack = y.stack := rfl
@[simp] theorem dropSplit_basin {y : Die} {n : Nat} : (y.dropSplit n).basin = y.basin := rfl
@[simp] theorem setSplit_stack {y : Die} {q : Split} : (y.setSplit q).stack = y.stack := rfl
@[simp] theorem setSplit_basin {y : Die} {q : Split} : (y.setSplit q).basin = y.basin := rfl
@[simp] theorem setWork_stack {y : Die} {w : SplitWork} : (y.setWork w).stack = y.stack := rfl
@[simp] theorem setWork_basin {y : Die} {w : SplitWork} : (y.setWork w).basin = y.basin := rfl
@[simp] theorem dropWork_stack {y : Die} {w : SplitWork} : (y.dropWork w).stack = y.stack := rfl
@[simp] theorem dropWork_basin {y : Die} {w : SplitWork} : (y.dropWork w).basin = y.basin := rfl
theorem Die.presentHot_memoryWf {y : Die} {cas : Nat} {x : Core} {q : Split} (h : y.MemoryWf) : (y.presentHot cas x q).MemoryWf :=
  Die.foldl_memoryWf (fun _ _ k => Die.present_memoryWf k) _ y h

section
variable (h : Canonical s)
include h

/-! ### Issue -/

theorem outCanonical_splr {n m : Nat} {rel : Bool} {rec : Option Shape4} : OutCanonical (execSplr n m rel rec s) := by
  unfold execSplr
  refine outCanonical_ite.2 ⟨fun _ => outCanonical_issueGate h ?_, fun _ => outCanonical_issueGate h ?_⟩
  · refine outCanonical_ite.2 ⟨fun _ => outCanonical_illegal h, fun _ => ?_⟩
    dsimp only
    split
    · exact outCanonical_raiseBad h
    · refine outCanonical_ite.2 ⟨fun _ => outCanonical_illegal h, fun _ => ?_⟩
      split <;> simp [h]
  · exact outCanonical_recordThen h fun _ => outCanonical_issueCmd h
theorem outCanonical_spmv {a n m cas : Nat} {rec : Option Shape4} : OutCanonical (execSpmv a n m cas rec s) := by
  refine outCanonical_issueGate h (outCanonical_recordThen h fun p => ?_)
  dsimp only
  split <;> [simp [h]; simp [h]; simp [h]; skip]
  split <;> simp [h]
theorem outCanonical_spjn {d n m : Nat} {rec : Option Shape4} : OutCanonical (execSpjn d n m rec s) := by
  refine outCanonical_issueGate h ?_
  refine outCanonical_ite.2 ⟨fun _ => outCanonical_next.2 h, fun _ => ?_⟩
  refine outCanonical_ite.2 ⟨fun _ => outCanonical_illegal h, fun _ => ?_⟩
  exact outCanonical_recordThen h fun _ => outCanonical_claimTile h fun _ => outCanonical_issueCmd h
theorem outCanonical_issueSlot {a n : Nat} {rs : List Nat} {i : Instr} {ok : Core → Bool} :
    OutCanonical (s.issueSlot a n rs i ok) := by
  refine outCanonical_issueGate h ?_
  refine outCanonical_ite.2 ⟨fun _ => outCanonical_illegal h, fun _ => ?_⟩
  split <;> simp [h]

/-! ### Commands served whole -/

theorem canonical_copyRow {v : State} {d : Nat} {x : Core} {q : Split} {k i : Nat} (e : s.copyRow v d x q k i = .ok t) :
    Canonical t := by
  unfold State.copyRow at e
  split at e
  · cases e
  · dsimp only at e
    split at e
    · cases e
    · exact canonical_perform h e
omit h in
theorem canonical_copyRows {v : State} {d : Nat} {x : Core} {q : Split} (l : List (Nat × Nat)) : ∀ {s : State}, Canonical s →
    s.copyRows v d x q l = .ok t → Canonical t := by
  induction l with
  | nil => intro s h e; cases e; exact h
  | cons r l ih =>
    intro s h e
    unfold State.copyRows at e
    split at e
    · cases e
    next e1 => exact ih (canonical_copyRow h e1) e
omit h in
/-- The state a report leaves, whether it was written whole or broke off. -/
theorem canonical_writeReport {d va : Nat} {x : Core} {bs : List Byte} (f : Nat) : ∀ {s : State} {m : Nat}, Canonical s →
    Canonical (s.writeReport d x va bs f m).2 ∧ ∀ u, (s.writeReport d x va bs f m).1 = .ok u → Canonical u := by
  induction f with
  | zero => exact fun h => ⟨h, fun _ e => by cases e; exact h⟩
  | succ f ih =>
    intro s m h
    unfold State.writeReport
    dsimp only
    split
    · exact ⟨h, fun _ e => by cases e; exact h⟩
    · split
      · exact ⟨h, fun _ e => by cases e⟩
      · split
        · exact ⟨h, fun _ e => by cases e⟩
        next e => exact ih (canonical_perform h e)
theorem keeps_serveSplr {d c : Nat} {q : Cmd} {p : Pattern} : (s.serveSplr d c q p).Keeps := by
  have h1 : Canonical (s.updDie d fun y => y.dropSplit p.st3.toNat) := by simpa using h
  unfold State.serveSplr
  dsimp only
  split
  · exact h
  · split
    · exact h1
    · split
      · exact h1
      next e => simpa using canonical_copyRows _ h1 e
theorem keeps_serveSpjn {d c v n va : Nat} {k : Cmd} {a : CmdArg} : (s.serveSpjn d c k v n va a).Keeps := by
  unfold State.serveSpjn
  dsimp only
  split
  · exact h
  split
  · trivial
  split
  · split <;> simp [h]
  · split
    · exact h
    · split
      · exact h
      next e => simpa using canonical_perform h e
theorem keeps_serveSpmg {d c n : Nat} {q : Cmd} : (s.serveSpmg d c q n).Keeps := by
  unfold State.serveSpmg
  dsimp only
  split
  · exact h
  · split
    · exact h
    · split
      · exact h
      next e => simpa using canonical_copyRows _ h e
theorem keeps_serveSpage {d c n : Nat} : (s.serveSpage d c n).Keeps := by
  unfold State.serveSpage
  split <;> simp [h]
theorem keeps_serveSprd {d c n va : Nat} {k : Cmd} : (s.serveSprd d c n va k).Keeps := by
  unfold State.serveSprd
  dsimp only
  split
  · exact h
  next q _ =>
    have hw := canonical_writeReport (q.report.length / 64 + 2) h (d := d) (va := va) (x := s.core d c) (bs := q.report) (m := k.mpc)
    split
    · trivial
    split
    next e => rw [e] at hw; simpa using hw.1
    next e => rw [e] at hw; exact hw.2 _ rfl
theorem keeps_serveSlot {d c : Nat} {k : Cmd} {a : CmdArg} : (s.serveSlot d c k a).Keeps := by
  unfold State.serveSlot
  split
  · simp [h]
  · exact keeps_serveSplr h
  · exact keeps_serveSpjn h
  · exact keeps_serveSpmg h
  · exact keeps_serveSpage h
  · exact keeps_serveSprd h
  · exact h

/-! ### Split multiplies -/

theorem canonical_dispatch {d r : Nat} {q : Split} {w : SplitWork} {k : Cmd} {rest : List Nat}
    (e : s.dispatch d q w k r rest = .ok t) : Canonical t := by
  unfold State.dispatch at e
  dsimp only at e
  split at e
  · split at e
    · cases e
    · cases e; simpa using h
  · split at e
    · cases e
    · split at e
      · cases e
      · cases e; simpa using h
omit h in
@[simp] theorem canonical_finishWork {d : Nat} {q : Split} {w : SplitWork} {k : Cmd} {ftz : Bool} :
    Canonical (s.finishWork d q w k ftz) ↔ Canonical s := by
  simp [State.finishWork]
theorem canonical_serveWork {d : Nat} {w : SplitWork} {k : Cmd} : Canonical (s.serveWork d w k) := by
  unfold State.serveWork
  dsimp only
  split
  · simpa using h
  · split
    · split
      · simpa using h
      next e => simpa using canonical_dispatch h e
    · split <;> simp [h]
theorem canonical_beginSpmv {d c cas : Nat} {k : Cmd} {a : CmdArg} {p : Pattern} : Canonical (s.beginSpmv d c k cas a p) := by
  unfold State.beginSpmv
  dsimp only
  split <;> simp [h]
theorem canonical_startSplit {d c : Nat} {k : Cmd} : Canonical (s.startSplit d c k) := by
  unfold State.startSplit
  split
  · simpa using h
  next a _ =>
    split
    · exact canonical_beginSpmv h
    · have hk := keeps_serveSlot h (d := d) (c := c) (k := k) (a := a)
      split
      · exact h
      next e => rw [e, keeps_fails] at hk; simpa using hk
      next e => rw [e, keeps_done] at hk; simpa using hk
theorem outCanonical_splitUnitServe {d : Nat} : OutCanonical (execSplitUnitServe d s) := by
  unfold execSplitUnitServe
  split
  · exact outCanonical_next.2 (canonical_serveWork h)
  · dsimp only
    split
    · exact outCanonical_next.2 h
    · split
      · exact outCanonical_next.2 h
      · exact outCanonical_next.2 (canonical_startSplit h)
theorem outCanonical_rillRowMultiply {d r : Nat} : OutCanonical (execRillRowMultiply d r s) := by
  unfold execRillRowMultiply
  split
  · simpa using h
  · split <;> simp [State.rillRow, h, canonical_touchPa]
theorem canonical_hotPass {d cas : Nat} {w : SplitWork} {k : Cmd} {q : Split} : Canonical (s.hotPass d cas w k q) := by
  unfold State.hotPass
  refine canonical_updDie_wf ?_ fun _ k => k
  split
  · simpa using h
  · exact canonical_updCasc.2 (canonical_updDie_wf h fun _ => Die.presentHot_memoryWf)

end

end Sys2Proof.Machine
end

section
/-!
PROOF. The fabric (R329 to R359): links and flits hold no memory; a request is performed at its home through moves, atomics
and tickets, and a response lands at its source through moves. Tokens, lines and traps follow.
-/
namespace Sys2Proof.Machine
open Sys2Proof Sys2Proof.Safety

variable {s t : State}

section
variable (h : Canonical s)
include h

/-! ### Links and flits -/

theorem canonical_startTraining {d p : Nat} : Canonical (s.startTraining d p) := by simp [State.startTraining, h]
omit h in
@[simp] theorem canonical_measureSkew {d p : Nat} : Canonical (s.measureSkew d p) ↔ Canonical s :=
  canonical_updDie_mem fun _ => ⟨rfl, rfl⟩
theorem outCanonical_skewMeasure {d p : Nat} : OutCanonical (execSkewMeasure d p s) := by simp [execSkewMeasure, h]
theorem outCanonical_linkTrainingRound {d p : Nat} {o : LinkOffer} : OutCanonical (execLinkTrainingRound d p o s) := by
  unfold execLinkTrainingRound
  dsimp only
  split
  · simpa using h
  split
  · simpa using h
  split <;> simp [h]
theorem outCanonical_linkRetrainRequest {d p : Nat} : OutCanonical (execLinkRetrainRequest d p s) := by
  simp [execLinkRetrainRequest, h, canonical_startTraining]
theorem outCanonical_linkEyeEvent {d p lane : Nat} : OutCanonical (execLinkEyeEvent d p lane s) := by
  simp [execLinkEyeEvent, h, canonical_startTraining]
theorem canonical_loseFlit {n : Nat} {f : Flit} : Canonical (s.loseFlit n f) := canonical_updCmd.2 h
theorem outCanonical_flitHop {n : Nat} : OutCanonical (execFlitHop n s) := by
  unfold execFlitHop
  split
  · simpa using h
  refine outCanonical_ite.2 ⟨fun _ => outCanonical_next.2 h, fun _ => ?_⟩
  refine outCanonical_ite.2 ⟨fun _ => outCanonical_next.2 h, fun _ => ?_⟩
  split <;> simp [h, canonical_loseFlit]
theorem outCanonical_flitCrcRetry {n : Nat} : OutCanonical (execFlitCrcRetry n s) := by
  unfold execFlitCrcRetry
  split
  · simpa using h
  · split <;> simp [h, canonical_startTraining]

/-! ### Requests on their way -/

omit h in
@[simp] theorem canonical_request {q : Req} {home : Nat} : Canonical (s.request q home) ↔ Canonical s := by
  unfold State.request
  split <;> simp
theorem canonical_publishEntry {d st : Nat} {x : Core} {k : Cmd} {a : CmdArg} (e : s.publishEntry d x k a = .ok (st, t)) :
    Canonical t := by
  unfold State.publishEntry at e
  dsimp only at e
  split at e
  · cases e; simpa [Die.withdrawEntry] using h
  split at e
  · cases e; exact h
  split at e
  · cases e
  split at e
  · cases e
  split at e
  · cases e; simpa [Die.setDir] using h
  split at e
  · cases e
  · cases e; simpa [Die.setDir] using h
theorem canonical_sendReplicas {d c : Nat} {k : Cmd} {a : CmdArg} {cls : RClass} {op : ROp} :
    Canonical (s.sendReplicas d c k a cls op) :=
  canonical_foldl _ (fun _ _ k => canonical_request.2 k) _ _ h
theorem canonical_launchCmd {d c : Nat} {k : Cmd} : Canonical (s.launchCmd d c k) := by
  unfold State.launchCmd
  dsimp only
  split
  · simpa using h
  split
  · split
    · simpa using h
    next e => simpa using canonical_publishEntry h e
  · split
    · simpa using h
    · split <;> simpa using h
  · exact h
  · split
    · exact h
    · split
      · simpa using h
      · split
        · exact canonical_sendReplicas h
        · simpa using h
theorem canonical_launchF {d c : Nat} : Canonical (s.launchF d c) := by
  unfold State.launchF
  dsimp only
  split
  · exact h
  · exact canonical_foldl _ (fun _ _ k => canonical_launchCmd k) _ _ h
theorem canonical_launchAll {d : Nat} : Canonical (s.launchAll d) :=
  canonical_foldl _ (fun _ _ k => canonical_launchF k) _ _ h
theorem outCanonical_issueF {tl : TimelineId} {n : Nat} {a : CmdArg} {f : Cmd → Cmd} : OutCanonical (s.issueF tl n a f) := by
  unfold State.issueF
  split
  next e => simp [canonical_issueCmd h e, canonical_launchF]
  · exact outCanonical_issueCmd h
theorem outCanonical_gateF {reads : List Nat} {waits : State → Bool} {bads : State → List Bad} {k : State → Out}
    (hk : OutCanonical (k s)) : OutCanonical (s.gateF reads waits bads k) := by
  refine outCanonical_issueGate h ?_
  refine outCanonical_ite.2 ⟨fun _ => outCanonical_next.2 h, fun _ => ?_⟩
  split
  · exact outCanonical_raiseBad h
  · exact hk
theorem outCanonical_remoteThen {a n : Nat} {reads : List Nat} {waits : State → Bool} {bads : State → List Bad}
    {k : State → W64 → W64 → Nat → Out} (hk : ∀ v w d, OutCanonical (k s v w d)) :
    OutCanonical (s.remoteThen a n reads waits bads k) := by
  refine outCanonical_gateF h ?_
  dsimp only
  split
  · exact outCanonical_raiseBad h
  · exact hk _ _ _
theorem outCanonical_rld {n a b : Nat} {cls : RClass} {w : FWidth} : OutCanonical (execRld n a b cls w s) :=
  outCanonical_remoteThen h fun _ _ _ => outCanonical_issueF h
theorem outCanonical_rst {n a b : Nat} {cls : RClass} {w : FWidth} : OutCanonical (execRst n a b cls w s) :=
  outCanonical_remoteThen h fun _ _ _ => outCanonical_issueF h
theorem outCanonical_ramo {op : AtomicOp} {n a b : Nat} {cls : RClass} {w : FWidth} {sc : Scope} :
    OutCanonical (execRamo op n a b cls w sc s) :=
  outCanonical_ite.2 ⟨fun _ => outCanonical_illegal h, fun _ => outCanonical_remoteThen h fun _ _ _ => outCanonical_issueF h⟩
theorem outCanonical_ramocas {n a b c : Nat} {cls : RClass} {w : FWidth} {sc : Scope} :
    OutCanonical (execRamocas n a b c cls w sc s) :=
  outCanonical_ite.2 ⟨fun _ => outCanonical_illegal h, fun _ => outCanonical_remoteThen h fun _ _ _ => outCanonical_issueF h⟩
theorem outCanonical_rmc {n a b c : Nat} {cls : RClass} {w : FWidth} : OutCanonical (execRmc n a b c cls w s) :=
  outCanonical_gateF h (outCanonical_issueF h)
theorem outCanonical_rtld {n a b : Nat} {cls : RClass} : OutCanonical (execRtld n a b cls s) :=
  outCanonical_ite.2 ⟨fun _ => outCanonical_illegal h, fun _ => outCanonical_remoteThen h fun _ _ _ => outCanonical_issueF h⟩
theorem outCanonical_rfence {n mask : Nat} : OutCanonical (execRfence n mask s) := outCanonical_gateF h (outCanonical_issueCmd h)
theorem outCanonical_tkget {n a b : Nat} : OutCanonical (execTkget n a b s) :=
  outCanonical_remoteThen h fun _ _ _ => outCanonical_issueF h
theorem outCanonical_tkwait {n a b : Nat} : OutCanonical (execTkwait n a b s) :=
  outCanonical_remoteThen h fun _ _ _ => outCanonical_issueF h
theorem outCanonical_tkret {n a b : Nat} : OutCanonical (execTkret n a b s) :=
  outCanonical_remoteThen h fun _ _ _ => outCanonical_issueF h
theorem outCanonical_issueBulk {i : Instr} {n a b : Nat} {rec : Option Shape4} : OutCanonical (s.issueBulk i n a b rec) := by
  refine outCanonical_ite.2 ⟨fun _ => outCanonical_illegal h, fun _ => ?_⟩
  refine outCanonical_remoteThen h fun _ _ _ => ?_
  split
  · exact outCanonical_raiseBad h
  · exact outCanonical_issueF h
theorem outCanonical_wdpub {n a b : Nat} : OutCanonical (execWdpub n a b s) := outCanonical_gateF h (outCanonical_issueF h)
theorem outCanonical_pbar {n : Nat} : OutCanonical (execPbar n s) := by
  refine outCanonical_gateF h ?_
  have k := canonical_publish h (sc := .pod)
  dsimp only
  split
  · exact outCanonical_issueF k
  · exact outCanonical_issueF (canonical_updNet.2 k)
theorem outCanonical_partitionBarrierCompletion {n : Nat} : OutCanonical (execPartitionBarrierCompletion n s) := by
  have k := outCanonical_completeNet h (n := n) (partition := true)
  unfold execPartitionBarrierCompletion
  split
  next u e =>
    have hu : Canonical u := k u e
    dsimp only
    split
    · exact outCanonical_next.2 hu
    · rw [outCanonical_next]
      refine canonical_mapDies hu fun _ => ?_
      exact ⟨rfl, rfl⟩
  · exact k
theorem outCanonical_mmar {v n m : Nat} {cls : RClass} {cas : Nat} {sw : Bool} {rec : Option Shape4} :
    OutCanonical (execMmar v n m cls cas sw rec s) := by
  refine outCanonical_issueGate h ?_
  refine outCanonical_ite.2 ⟨fun _ => outCanonical_illegal h, fun _ => ?_⟩
  refine outCanonical_ite.2 ⟨fun _ => outCanonical_next.2 h, fun _ => ?_⟩
  refine outCanonical_recordThen h fun _ => ?_
  split
  · exact outCanonical_raiseBad h
  · exact outCanonical_issueF h
theorem canonical_serveCascade {d k : Nat} : Canonical (s.serveCascade d k) := by
  unfold State.serveCascade
  split
  · exact canonical_servePass h
  · split <;> simp [h, canonical_hotPass, canonical_serveDirect]
theorem outCanonical_cascadeServe {d k : Nat} : OutCanonical (execCascadeServe d k s) :=
  outCanonical_next.2 (canonical_launchAll (canonical_serveCascade h))

/-! ### Requests at their home -/

theorem canonical_touchHome {d : Nat} {x : Core} {dir : Bool} {rs : List (Nat × Nat)} : Canonical (s.touchHome d x dir rs) := by
  refine canonical_foldl _ (fun s r k => ?_) _ _ h
  split
  · exact k
  · split
    · exact canonical_foldl_touchPiece k _
    · exact k
theorem canonical_homeStore {d : Nat} {x : Core} {us : List (List (Nat × List Byte) × Bool)} (e : s.homeStore d x us = .ok t) :
    Canonical t := by
  unfold State.homeStore at e
  split at e
  · cases e
  split at e
  · cases e
  next e1 =>
    cases e
    exact canonical_foldl _ (fun _ _ k => canonical_foldl _ (fun _ _ k => canonical_markPiece k) _ _ k) _ _
      (canonical_perform h e1)
theorem canonical_homeAtomic {d va w : Nat} {x : Core} {rel : State → State} {sc : Scope} {new : Nat → Option Nat} {r : RRes}
    (e : s.homeAtomic d x rel sc va w new = .ok (r, t)) : Canonical t := by
  unfold State.homeAtomic at e
  split at e
  · cases e
  split at e
  · cases e
  next ps _ =>
    dsimp only at e
    split at e
    all_goals
      have hs : Canonical (ps.foldl (fun s p => match p.loc with
          | .mem pa _ => s.settle sc d 32 pa p.n
          | .basin _ => s) s) :=
        canonical_foldl _ (fun s p k => by
          split
          · exact canonical_settle k _ _ _ _ _
          · exact k) _ _ h
      have ht := canonical_foldl_touchPiece hs ps (q := 53) (d := d) (hint := .plain)
    · cases e; exact ht
    · split at e
      · cases e
      next e1 =>
        cases e
        have hd := canonical_dirtyAll ht e1
        cases new _ with
        | none => exact hd
        | some v => exact canonical_foldl _ (fun _ _ k => canonical_writeLoc k) _ _ hd

end

end Sys2Proof.Machine
end

section
/-!
PROOF. Requests performed at their home and responses at their source (R339 to R352), tokens (R43, R203), the lines of a
core (R14, R121) and the returns from a handler (R263).
-/
namespace Sys2Proof.Machine
open Sys2Proof Sys2Proof.Safety

variable {s t : State}

/-! ### Tickets -/

theorem Die.setIncast_memoryWf {y : Die} {e : Incast} (h : y.MemoryWf) : (y.setIncast e).MemoryWf := h
theorem Die.returnTicket_memoryWf {y : Die} {region n : Nat} (h : y.MemoryWf) : (y.returnTicket region n).MemoryWf := by
  unfold Die.returnTicket
  split <;> exact h
theorem Die.returnPuts_memoryWf {y : Die} {d slot num : Nat} (h : y.MemoryWf) : (y.returnPuts d slot num).MemoryWf :=
  Die.foldl_memoryWf (fun _ _ k => Die.returnTicket_memoryWf k) _ y h

section
variable (h : Canonical s)
include h

theorem canonical_drawTicket {d region : Nat} {q : Req} : Canonical (s.drawTicket d q region).2 := by
  unfold State.drawTicket
  split
  · exact canonical_updDie_wf h fun _ => Die.setIncast_memoryWf
  · split
    · exact h
    · exact canonical_updDie_wf h fun _ => Die.setIncast_memoryWf
theorem canonical_admitPut {d pa : Nat} {q : Req} : Canonical (s.admitPut d q pa).2 := by
  unfold State.admitPut
  split
  · exact h
  · split
    · exact h
    · split
      · exact h
      · exact canonical_updDie_wf h fun _ => Die.setIncast_memoryWf

end

/-! ### Requests performed -/

/-- A request that waits, or is answered, at its home leaves canonical memories. -/
def AtHome.Keeps : AtHome → Prop
  | .waits u => Canonical u
  | .answers _ u => Canonical u

theorem keeps_atHomeOf (h : Canonical s) {r : Except EngErr (RRes × State)} (k : ∀ a u, r = .ok (a, u) → Canonical u) :
    (AtHome.of s r).Keeps := by
  cases r with
  | error e => exact h
  | ok p => exact k p.1 p.2 rfl
theorem keeps_onRegion (h : Canonical s) {d va : Nat} {x : Core} {k : Nat → AtHome} (hk : ∀ r, (k r).Keeps) :
    (s.onRegion d x va k).Keeps := by
  unfold State.onRegion
  split
  · exact h
  · exact hk _
theorem keeps_homeStore (h : Canonical s) {d : Nat} {x : Core} {us : List (List (Nat × List Byte) × Bool)} :
    (AtHome.of s ((s.homeStore d x us).map fun u => (.done, u))).Keeps := by
  refine keeps_atHomeOf h fun a u e => ?_
  cases e1 : s.homeStore d x us with
  | error _ => rw [e1] at e; cases e
  | ok v => rw [e1] at e; cases e; exact canonical_homeStore h e1

theorem keeps_performReq (h : Canonical s) {d : Nat} {q : Req} : (s.performReq d q).Keeps := by
  unfold State.performReq
  dsimp only
  split
  · exact h
  split
  · refine keeps_atHomeOf h fun a u e => ?_
    simp only [Except.map] at e
    split at e
    · cases e
    · cases e; exact canonical_touchHome h
  · split
    · exact keeps_homeStore h
    · split
      · exact keeps_homeStore h
      · split
        · exact keeps_homeStore (canonical_admitPut h)
        · exact canonical_admitPut h
  · exact keeps_atHomeOf h fun _ _ e => canonical_homeAtomic h e
  · exact keeps_atHomeOf h fun _ _ e => canonical_homeAtomic h e
  · exact keeps_onRegion h fun _ => canonical_drawTicket h
  · refine keeps_onRegion h fun _ => ?_
    split <;> exact h
  · exact keeps_onRegion h fun _ => canonical_updDie_wf h fun _ => Die.returnTicket_memoryWf
  · exact h

section
variable (h : Canonical s)
include h

theorem outCanonical_remoteRequestPerform {n : Nat} : OutCanonical (execRemoteRequestPerform n s) := by
  unfold execRemoteRequestPerform
  split
  · simpa using h
  next f _ =>
    refine outCanonical_ite.2 ⟨fun _ => outCanonical_next.2 h, fun _ => ?_⟩
    split
    · simpa using h
    · have hk := keeps_performReq h (d := f.dst) (q := f.req)
      split
      next e => rw [e] at hk; exact outCanonical_next.2 hk
      next e =>
        rw [e] at hk
        have k : Canonical _ := hk
        simp [k]

/-! ### Responses -/

theorem canonical_landGranule {d m : Nat} {x : Core} {p : Pattern} {l : List (List Byte × Bool)}
    (e : s.landGranule d x p m l = .ok t) : Canonical t := by
  unfold State.landGranule at e
  split at e
  · cases e
  dsimp only at e
  split at e
  · cases e
  next e1 =>
    cases e
    exact canonical_foldl _ (fun _ _ k => canonical_foldl_markPiece k _) _ _ (canonical_perform h e1)
theorem canonical_takeResult {d c : Nat} {k : Cmd} {a : CmdArg} {r : RRes} (e : s.takeResult d c k a r = .ok t) :
    Canonical t := by
  unfold State.takeResult at e
  dsimp only at e
  split at e
  · cases e
  · cases e; simpa using h
  · split at e
    · cases e
    · cases e; simpa using h
  · split at e
    · simp only [Except.map] at e
      split at e
      · cases e
      next e1 => cases e; simpa using canonical_landGranule h e1
    · cases e; simpa using h
  all_goals
    cases e
    simpa using h
omit h in
@[simp] theorem canonical_takeReplica {d c i : Nat} {k : Cmd} {a : CmdArg} {r : RRes} :
    Canonical (s.takeReplica d c k a i r) ↔ Canonical s := canonical_updCmd
theorem outCanonical_remoteResponse {n : Nat} : OutCanonical (execRemoteResponse n s) := by
  have h1 : Canonical { s with flits := s.flits.eraseIdx n } := h
  unfold execRemoteResponse
  dsimp only
  split
  · simpa using h
  split
  · simpa using h
  refine outCanonical_ite.2 ⟨fun _ => outCanonical_next.2 h, fun _ => ?_⟩
  split
  · exact outCanonical_next.2 h
  split
  · exact outCanonical_next.2 h
  split
  · exact outCanonical_next.2 h
  split
  · refine outCanonical_next.2 (canonical_launchF ?_)
    exact canonical_takeReplica.2 h1
  refine outCanonical_ite.2 ⟨fun _ => outCanonical_next.2 h, fun _ => ?_⟩
  refine outCanonical_ite.2 ⟨fun _ => outCanonical_next.2 h, fun _ => ?_⟩
  split
  · split <;> exact outCanonical_next.2 (canonical_updCmd.2 h1)
  next e =>
    have k := canonical_takeResult h1 e
    refine outCanonical_next.2 (canonical_launchF ?_)
    exact k

/-! ### Tokens -/

theorem canonical_handOver {d c : Nat} {k : Cmd} : Canonical (s.handOver d c k) := by
  unfold State.handOver
  dsimp only
  split
  · exact h
  split
  · simpa using h
  split
  · exact h
  split
  · simpa using h
  split <;> simpa using h
theorem canonical_handOverAll {d c : Nat} : Canonical (s.handOverAll d c) :=
  canonical_letIn 64 (canonical_foldl _ (fun _ _ k => canonical_handOver k) _ _ h)
theorem canonical_leaveFabric {d c slot : Nat} {k : Cmd} : Canonical (s.leaveFabric d c slot k) := by
  unfold State.leaveFabric
  split
  · dsimp only
    split
    · refine ⟨fun z hz => ?_, h.2⟩
      obtain ⟨y, hy, rfl⟩ := List.mem_map.1 hz
      exact Die.returnPuts_memoryWf (h.1 y hy)
    · exact h
  · exact h
omit h in
theorem Cmd.fillEnds_memoryWf {k : Cmd} {owner : Nat} {x : Core} {y : Die} (hy : y.MemoryWf) :
    (k.fillEnds owner x y).MemoryWf := by
  unfold Cmd.fillEnds
  split
  · split <;> exact hy
  · exact hy
theorem canonical_abandon {d c slot : Nat} {k : Cmd} : Canonical (s.abandon d c slot k) := by
  unfold State.abandon
  split
  · exact canonical_admitAll (canonical_updDie_wf h fun _ => Die.dropTasks_memoryWf)
  · simpa using h
  · exact h
theorem canonical_leaveUnits {d c st : Nat} {k : Cmd} : Canonical (s.leaveUnits d c k st) := by
  have k1 : Canonical ((s.leaveFabric d c (s.core d c).k.kslot.toNat k).updDie d
      (k.fillEnds (s.core d c).k.kslot.toNat (s.core d c))) :=
    canonical_updDie_wf (canonical_leaveFabric h) fun _ => Cmd.fillEnds_memoryWf
  unfold State.leaveUnits
  dsimp only
  split
  · exact k1
  · exact canonical_abandon k1
theorem outCanonical_tokenCompletion {d c n : Nat} : OutCanonical (execTokenCompletion d c n s) := by
  unfold execTokenCompletion
  extract_lets u
  have hu : Canonical u := by
    show Canonical (match (s.core d c).fl.cmds[n]? with
      | some k => s.updCore d c fun x => x.settleStream k
      | none => s)
    split <;> simpa using h
  split
  · exact outCanonical_next.2 hu
  split
  · exact outCanonical_next.2 (canonical_launchF (canonical_handOverAll (canonical_updCore (canonical_leaveUnits hu) _ _ _)))
  · simpa using hu
  · simpa using hu
theorem outCanonical_responseAcknowledgement {n : Nat} : OutCanonical (execResponseAcknowledgement n s) := by
  unfold execResponseAcknowledgement
  split <;> simp [h]

/-! ### Lines, freezes and returns -/

theorem canonical_resolveLine {d c : Nat} {l : LineBuf} : Canonical (s.resolveLine d c l) := by
  simp [State.resolveLine, h, canonical_loopRecord]
theorem canonical_nextFetch {d c : Nat} : Canonical (s.nextFetch d c) := by
  unfold State.nextFetch
  dsimp only
  split
  · exact h
  · split
    · exact canonical_fetchLine h
    · simp [h, canonical_fetchLine]
theorem outCanonical_lineDelivery {d c : Nat} : OutCanonical (execLineDelivery d c s) := by
  unfold execLineDelivery
  dsimp only
  split
  · simpa using h
  · split <;> simp [h, canonical_nextFetch, canonical_resolveLine]
theorem outCanonical_freeze {d c : Nat} : OutCanonical (execFreeze d c s) := by simp [execFreeze, h, canonical_freezeCore]
theorem outCanonical_trapEntry {d c : Nat} : OutCanonical (execTrapEntry d c s) := by
  unfold execTrapEntry
  dsimp only
  split <;> simp [h, canonical_takeTrap]
theorem outCanonical_dumpedResultWrite {d c n : Nat} : OutCanonical (execDumpedResultWrite d c n s) := by
  unfold execDumpedResultWrite
  dsimp only
  split
  · simpa using h
  · split
    · simp [h]
    · split <;> simp [h]
theorem outCanonical_noProgressWatchdog {d c : Nat} : OutCanonical (execNoProgressWatchdog d c s) := by
  unfold execNoProgressWatchdog
  dsimp only
  split
  · simpa using h
  · split <;> simp [h, canonical_takeTrap]
omit h in
@[simp] theorem canonical_replaySees {d c : Nat} {x : Core} : Canonical (s.replaySees d c x) ↔ Canonical s :=
  canonical_updCore_iff
theorem outCanonical_eret : OutCanonical (execEret s) := by
  have h1 : Canonical ((s.updCore s.cur.die s.cur.core fun x => (x.eretCore Core.dropGroup).progress)) := canonical_updCore h _ _ _
  unfold execEret
  refine outCanonical_ite.2 ⟨fun _ => outCanonical_privFault h, fun _ => ?_⟩
  refine outCanonical_ite.2 ⟨fun _ => outCanonical_illegal h, fun _ => ?_⟩
  refine outCanonical_ite.2 ⟨fun _ => outCanonical_next.2 (canonical_leaveBars.2 h1), fun _ => ?_⟩
  refine outCanonical_next.2 (canonical_launchF (canonical_handOverAll (canonical_resumeTasks ?_)))
  exact canonical_replaySees.2 (canonical_leaveBars.2 h1)

end

end Sys2Proof.Machine
end

section
/-!
PROOF. Launches (R369 to R384), contexts saved and restored (R272 to R284) and the K registers (R257 to R284, R384, R394): the
queue words, the areas and the allotments are the writes they make in a basin.
-/
namespace Sys2Proof.Machine
open Sys2Proof Sys2Proof.Safety

variable {s t : State}

/-! ### Slots, allotments and areas -/

theorem Die.withdrawEntry_memoryWf {y : Die} {p : DirEntry → Bool} (h : y.MemoryWf) : (y.withdrawEntry p).MemoryWf := h
theorem Die.freeSlot_memoryWf {y : Die} {slot tenant : Nat} (h : y.MemoryWf) : (y.freeSlot slot tenant).MemoryWf := by
  have k := Die.foldl_memoryWf (f := fun (y : Die) (q : Split) => y.dropSplit q.id) (fun _ _ k => k)
    (y.splits.filter fun q => q.slot == slot && q.tenant == tenant) y h
  exact k
/-- A new allotment is zeroed with fresh ECC (R172). -/
theorem Die.allot_memoryWf {y : Die} {slot base count : Nat} (h : y.MemoryWf) : (y.allot slot base count).MemoryWf := by
  unfold Die.allot
  split
  · exact h
  · exact ⟨h.1, Store.zeroRange_wf _ _ _ h.2⟩
theorem Die.putArea_memoryWf {y : Die} {page : Nat} {l : List (Nat × List Byte)} (h : y.MemoryWf) : (y.putArea page l).MemoryWf :=
  ⟨h.1, Store.foldl_wf (fun m _ => m.write_wf _ _ _) _ _ h.2⟩
theorem Die.startEmpty_memoryWf {y : Die} {slot tenant : Nat} (h : y.MemoryWf) : (y.startEmpty slot tenant).MemoryWf := h

/-- A die with the area of a saved context written, its slot then free or held (R272). -/
theorem Die.saved_memoryWf {y : Die} {page slot tenant : Nat} {l : List (Nat × List Byte)} {migrate : Bool} {e : Held}
    (h : y.MemoryWf) :
    (if migrate then (y.putArea page l).freeSlot slot tenant
      else { y.putArea page l with held := e :: (y.putArea page l).held } : Die).MemoryWf := by
  have k : (y.putArea page l).MemoryWf := Die.putArea_memoryWf h
  split
  · exact Die.freeSlot_memoryWf k
  · exact k

section
variable (h : Canonical s)
include h

/-! ### Launches -/

theorem canonical_setQueueWord {p q off v : Nat} : Canonical (s.setQueueWord p q off v) := canonical_basin h _ _ _
theorem canonical_queueErr {p q reason num : Nat} : Canonical (s.queueErr p q reason num) := canonical_setQueueWord h
theorem canonical_advanceDone {p q : Nat} : Canonical (s.advanceDone p q) := canonical_setQueueWord h
theorem canonical_rejectHead {p q reason : Nat} : Canonical (s.rejectHead p q reason) :=
  canonical_advanceDone (canonical_setQueueWord (canonical_queueErr h))
theorem canonical_childEnds {parent : Nat × Nat × Nat} {status : Nat} : Canonical (s.childEnds parent status) := by
  refine canonical_mapDies h fun _ => ?_
  exact ⟨rfl, rfl⟩
theorem canonical_takeEntry {p : Nat} {e : Entry} : Canonical (s.takeEntry p e) := by
  have k : Canonical (s.updPkg p fun g => { g with arb := { (s.pkg p).arb with recNo := (s.pkg p).arb.recNo + 1 } }) := by
    simpa using h
  unfold State.takeEntry
  dsimp only
  split
  · exact canonical_setQueueWord k
  · refine canonical_updDie ?_ _ _ fun _ a b => ⟨a, b⟩
    exact k
theorem canonical_arbitrate {p : Nat} {l : List Entry} : Canonical (s.arbitrate p l) := by
  unfold State.arbitrate
  dsimp only
  split
  · split <;> simp [h, canonical_takeEntry]
  · split
    · exact h
    · split
      · exact h
      · split <;> simp [h, canonical_takeEntry]
theorem canonical_leavePool {q : Nat × Nat} : Canonical (s.leavePool q) := by
  unfold State.leavePool
  split
  · exact h
  · refine canonical_childEnds ?_
    simpa using h
theorem outCanonical_launchTake {p : Nat} : OutCanonical (execLaunchTake p s) := by
  unfold execLaunchTake
  refine outCanonical_ite.2 ⟨fun _ => outCanonical_next.2 h, fun _ => ?_⟩
  dsimp only
  split
  · exact outCanonical_next.2 (canonical_rejectHead h)
  · exact outCanonical_next.2 (canonical_leavePool h)
  · exact outCanonical_next.2 (canonical_arbitrate h)
theorem canonical_placeCore {d c slot base i : Nat} {r : LaunchRec} {n : LUnit} : Canonical (s.placeCore d c slot base r n i) :=
  canonical_updCore (canonical_updDie_wf h fun _ => Die.allot_memoryWf) _ _ _
omit h in
theorem canonical_placeCores {d : Nat} {r : LaunchRec} {n : LUnit} (l : List (Nat × Nat)) : ∀ {s : State}, Canonical s →
    s.placeCores d r n l = some t → Canonical t := by
  induction l with
  | nil => intro s h e; cases e; exact h
  | cons q l ih =>
    intro s h e
    unfold State.placeCores at e
    split at e
    · exact ih (canonical_placeCore h) e
    · cases e
theorem canonical_placeUnit {d q : Nat} {r : LaunchRec} {n : LUnit} (e : s.placeUnit d r n = some (t, q)) : Canonical t := by
  unfold State.placeUnit at e
  dsimp only at e
  split at e
  · cases e
  · rw [Option.map_eq_some_iff] at e
    obtain ⟨u, hu, e⟩ := e
    cases e
    have k := canonical_placeCores _ h hu
    exact k
omit h in
theorem canonical_placeUnits {d : Nat} {r : LaunchRec} (l : List LUnit) : ∀ {s : State}, Canonical s →
    Canonical (s.placeUnits d r l).1 := by
  induction l with
  | nil => exact fun h => h
  | cons n l ih =>
    intro s h
    unfold State.placeUnits
    split
    · exact h
    next e => exact ih (canonical_placeUnit h e)
theorem canonical_freePool {key : Nat} : Canonical (s.freePool key) := by
  unfold State.freePool
  split
  · exact h
  · split
    · exact h
    · exact canonical_foldl _ (fun _ _ k => by simpa using k) _ _ h
theorem outCanonical_unitPlacement {d : Nat} : OutCanonical (execUnitPlacement d s) := by
  unfold execUnitPlacement
  split
  · exact outCanonical_next.2 h
  next r _ =>
    have k : Canonical (s.placeUnits d r (r.waiting d)).1 := canonical_placeUnits _ h
    refine outCanonical_next.2 (canonical_freePool ?_)
    exact k
omit h in
@[simp] theorem canonical_disown {d c : Nat} : Canonical (s.disown d c) ↔ Canonical s := canonical_updPkg_mem fun _ => rfl
theorem canonical_endContext {d c status : Nat} : Canonical (s.endContext d c status) := by
  have k : Canonical (((s.drainStores d c).disown d c).updDie d fun y =>
      y.freeSlot (s.core d c).k.kslot.toNat (s.core d c).ctx.tenant) :=
    canonical_updDie_wf (canonical_disown.2 (canonical_drainStores h _ _)) fun _ => Die.freeSlot_memoryWf
  unfold State.endContext
  refine canonical_mapDies (canonical_updCore k _ _ _) fun _ => ?_
  exact ⟨rfl, rfl⟩
theorem canonical_signal {r : LaunchRec} {w : Nat} (e : s.signal r w = some t) : Canonical t := by
  unfold State.signal at e
  dsimp only at e
  split at e
  · cases e
  split at e
  · cases e
  split at e
  · cases e
  split at e
  · cases e
  next e1 => cases e; exact canonical_writePa (canonical_setDirty h e1) _ _ _ _
theorem canonical_publishLaunch {key : Nat} : Canonical (s.publishLaunch key) :=
  canonical_foldl _ (fun _ _ k => canonical_foldl _ (fun _ _ k => canonical_publishTo k) _ _ k) _ _ h
theorem canonical_signalOr {r : LaunchRec} {w : Nat} : Canonical ((s.signal r w).getD (s.queueErr r.rootPkg r.root 6 r.rootNo)) := by
  cases e : s.signal r w with
  | none => exact canonical_queueErr h
  | some u => exact canonical_signal h e
theorem outCanonical_launchEnd {n : Nat} : OutCanonical (execLaunchEnd n s) := by
  unfold execLaunchEnd
  split
  · exact outCanonical_next.2 h
  next r _ =>
    refine outCanonical_ite.2 ⟨fun _ => outCanonical_next.2 h, fun _ => ?_⟩
    have k : Canonical ((List.range (leAt r.packet 19 1)).foldl (fun s i =>
        (s.signal r (pkSig r.packet i)).getD (s.queueErr r.rootPkg r.root 6 r.rootNo))
        (if leAt r.packet 19 1 = 0 then s else s.publishLaunch r.key)) := by
      refine canonical_foldl _ (fun _ _ k => canonical_signalOr k) _ _ ?_
      simp [h, canonical_publishLaunch]
    dsimp only
    split
    · refine outCanonical_next.2 (canonical_advanceDone ?_)
      exact k
    · refine outCanonical_next.2 (canonical_childEnds ?_)
      exact k
omit h in
theorem canonical_readPacket {va : Nat} (l : List Nat) : ∀ {s t : State} {bs : List Byte}, Canonical s →
    s.readPacket va l = .ok (bs, t) → Canonical t := by
  induction l with
  | nil => intro s t bs h e; cases e; exact h
  | cons i l ih =>
    intro s t bs h e
    unfold State.readPacket at e
    dsimp only at e
    split at e
    · cases e
    split at e
    · cases e
    split at e
    · cases e
    split at e
    · cases e
    next e1 => cases e; exact ih (canonical_updMe (canonical_touchPa h) _) e1
theorem canonical_acceptChild {k : List Byte} : Canonical (s.acceptChild k) := by
  have k1 : Canonical (s.updMyDie fun y => { y with pool := y.pool ++ [⟨k, s.me.launchKey, s.me.place, s.me.nextNum .tll,
      s.me.ctx.rootPkg, s.me.ctx.rootQueue, fieldOf (s.klq s.cur.die s.cur.core) 20 16 + 1, s.myDie.rankOf s.cur.die, s.steps, none⟩] }) := by
    simpa using h
  exact canonical_updMe k1 _
theorem outCanonical_launch {d a : Nat} : OutCanonical (execLaunch d a s) := by
  unfold execLaunch
  refine outCanonical_ite.2 ⟨fun _ => ?_, fun _ => outCanonical_next.2 h⟩
  refine outCanonical_ite.2 ⟨fun _ => outCanonical_poisonFault h, fun _ => ?_⟩
  split
  · exact outCanonical_raiseBad h
  next e =>
    have k := canonical_readPacket _ h e
    simp [h, k, canonical_acceptChild]
theorem outCanonical_waitch {d a : Nat} : OutCanonical (execWaitch d a s) := by
  unfold execWaitch
  refine outCanonical_ite.2 ⟨fun _ => ?_, fun _ => outCanonical_next.2 h⟩
  refine outCanonical_ite.2 ⟨fun _ => outCanonical_poisonFault h, fun _ => ?_⟩
  dsimp only
  split
  · simpa using h
  split
  · simp [h]
  · split <;> simp [h]

/-! ### Save, restore, release -/

theorem canonical_saveContext {d c reason : Nat} {migrate : Bool} : Canonical (s.saveContext d c reason migrate) := by
  have k := canonical_releaseParked (canonical_drainStores h d c) (d := d) (c := c)
  have k1 := canonical_updCore k d c fun _ => ((s.drainStores d c).releaseParked d c).beforeSave d c
  unfold State.saveContext
  refine canonical_updDie_wf k1 fun y hy => ?_
  exact Die.saved_memoryWf hy
theorem canonical_restoreContext {d c : Nat} : Canonical (s.restoreContext d c) := by
  have k := canonical_drainStores h d c
  unfold State.restoreContext
  dsimp only
  split
  · exact k
  · refine canonical_updCore (canonical_updDie_wf k fun y hy => ?_) _ _ _
    have hz : ∀ z : Die, z.MemoryWf → ∀ a bs n, (if n = 0 then z else { z with basin := z.basin.write 0 a bs } : Die).MemoryWf :=
      fun z hz a bs n => by
        split
        · exact hz
        · exact z.writeBasin_memoryWf _ _ _ hz
    refine hz _ ?_ _ _ _
    split
    · exact Die.allot_memoryWf hy
    · exact hy
theorem canonical_releaseContext {d c : Nat} : Canonical (s.releaseContext d c) := by
  unfold State.releaseContext
  dsimp only
  split
  · exact h
  · refine canonical_updDie_wf h fun y hy => Die.putArea_memoryWf (Die.freeSlot_memoryWf ?_)
    exact hy
omit h in
@[simp] theorem canonical_setKctx {d c status : Nat} : Canonical (s.setKctx d c status) ↔ Canonical s := canonical_updCore_iff

/-! ### Stops -/

omit h in
@[simp] theorem canonical_freeCore {d c : Nat} : Canonical (s.freeCore d c) ↔ Canonical s := by
  simp [State.freeCore, Die.preDone]
theorem canonical_dropStop {d c : Nat} : Canonical (s.dropStop d c) := by
  unfold State.dropStop
  refine canonical_launchF (canonical_handOverAll (canonical_resumeTasks ?_))
  simpa using h
theorem canonical_recallHeld {d c : Nat} : Canonical (s.recallHeld d c) := by
  simp [State.recallHeld, h, canonical_saveContext]
theorem canonical_stopSave {d c reason : Nat} : Canonical (s.stopSave d c reason) := by
  simp [State.stopSave, h, canonical_saveContext]
theorem canonical_takeStop {d c reason : Nat} : Canonical (s.takeStop d c reason) := by
  simp [State.takeStop, h, canonical_freezeCore, canonical_dropStop, canonical_stopSave]
theorem outCanonical_preemptionRequest {d c : Nat} : OutCanonical (execPreemptionRequest d c s) := by
  simp [execPreemptionRequest, h, canonical_recallHeld, canonical_takeStop]
theorem outCanonical_debugStop {d c : Nat} : OutCanonical (execDebugStop d c s) := by
  simp [execDebugStop, h, canonical_takeStop]

end

/-! ### Writes of K registers -/

/-- What a register write leaves, done or begun, has canonical memories. -/
def WriteOut.Keeps : WriteOut → Prop
  | .done u => Canonical u
  | .pending u => Canonical u
  | _ => True

@[simp] theorem keeps_writeDone : (WriteOut.done s).Keeps ↔ Canonical s := Iff.rfl
@[simp] theorem keeps_writePending : (WriteOut.pending s).Keeps ↔ Canonical s := Iff.rfl
@[simp] theorem keeps_writeWait : WriteOut.wait.Keeps := trivial
@[simp] theorem keeps_writeIllegal : WriteOut.illegal.Keeps := trivial
@[simp] theorem keeps_writePrivilege : WriteOut.privilege.Keeps := trivial
@[simp] theorem keeps_writeIte {p : Prop} [Decidable p] {a b : WriteOut} :
    (if p then a else b).Keeps ↔ (p → a.Keeps) ∧ (¬ p → b.Keeps) := by
  split <;> simp [*]

section
variable (h : Canonical s)
include h

theorem keeps_writePlain {d c : Nat} {k : KName} {v : W64} : (s.writePlain d c k v).Keeps := by simp [State.writePlain, h]
theorem keeps_writeNoise {d c : Nat} {k : KName} {v : W64} : (s.writeNoise d c k v).Keeps := by simp [State.writeNoise, h]
theorem keeps_writeRange {d c : Nat} {stage2 : Bool} {v : W64} : (s.writeRange d c stage2 v).Keeps := by
  simp [State.writeRange, h]
theorem keeps_writeShare {d c : Nat} {v : W64} : (s.writeShare d c v).Keeps := by simp [State.writeShare, h]
theorem keeps_xinvAll {d c : Nat} : (s.xinvAll d c).Keeps := by simp [State.xinvAll, h]
theorem keeps_xinvOne {d c va : Nat} : (s.xinvOne d c va).Keeps := by simp [State.xinvOne, h]
theorem canonical_xinvHeld {part e : Nat} {root : W64} : Canonical (s.xinvHeld part e root) := by simp [State.xinvHeld, h]
theorem keeps_xinvStage2 {d c : Nat} : (s.xinvStage2 d c).Keeps := by
  refine keeps_writeIte.2 ⟨fun _ => trivial, fun _ => ?_⟩
  exact canonical_foldl _ (fun _ _ k => canonical_xinvHeld k) _ _ (canonical_foldl _ (fun _ _ k => canonical_updCore k _ _ _) _ _ h)
theorem keeps_writeXinv {d c : Nat} {v : W64} : (s.writeXinv d c v).Keeps := by
  unfold State.writeXinv
  split <;> simp [h, keeps_xinvAll, keeps_xinvOne, keeps_xinvStage2]
theorem keeps_kctxSave {d c : Nat} : (s.kctxSave d c).Keeps := by simp [State.kctxSave, h, canonical_saveContext]
theorem keeps_kctxRestore {d c : Nat} : (s.kctxRestore d c).Keeps := by simp [State.kctxRestore, h, canonical_restoreContext]
theorem keeps_kctxRelease {d c : Nat} : (s.kctxRelease d c).Keeps := by simp [State.kctxRelease, h, canonical_releaseContext]
theorem keeps_writeKctx {d c : Nat} {v : W64} : (s.writeKctx d c v).Keeps := by
  unfold State.writeKctx
  split <;> simp [h, keeps_kctxSave, keeps_kctxRestore, keeps_kctxRelease]
theorem keeps_writeDbgc {d c : Nat} {v : W64} : (s.writeDbgc d c v).Keeps := by
  have k := keeps_writePlain h (d := d) (c := c) (k := .kdbgc) (v := v)
  unfold State.writeDbgc
  split
  next e => rw [e, keeps_writeDone] at k; simp [k]
  · exact k
theorem keeps_writeTrace {d : Nat} {v : W64} : (s.writeTrace d v).Keeps := by simp [State.writeTrace, canonical_flushTrace h]
theorem keeps_writeBoard {d : Nat} {v : W64} : (s.writeBoard d v).Keeps := by simp [State.writeBoard, h]
theorem keeps_beginPreempt {d c op n : Nat} : (s.beginPreempt d c op n).Keeps := by simp [State.beginPreempt, h]
theorem keeps_preemptOp {d c op n : Nat} : (s.preemptOp d c op n).Keeps := by
  unfold State.preemptOp
  split <;> simp [h, keeps_beginPreempt]
theorem keeps_writeLend {d : Nat} {v : W64} : (s.writeLend d v).Keeps := by simp [State.writeLend, h]
theorem keeps_writeAmask {d : Nat} {v : W64} : (s.writeAmask d v).Keeps := by
  refine keeps_writeIte.2 ⟨fun _ => trivial, fun _ => ?_⟩
  exact canonical_foldl _ (fun _ _ k => by simpa using k) _ _ h
theorem keeps_writeAlarm {d c : Nat} {v : W64} : (s.writeAlarm d c v).Keeps := by simp [State.writeAlarm, h]
/-- Every write of a K register keeps the memories canonical. -/
theorem keeps_writeK {d c : Nat} {k : KName} {v : W64} : (s.writeK d c k v).Keeps := by
  unfold State.writeK
  refine keeps_writeIte.2 ⟨fun _ => trivial, fun _ => ?_⟩
  refine keeps_writeIte.2 ⟨fun _ => trivial, fun _ => ?_⟩
  split
  · exact keeps_writePlain h
  · simp [keeps_writePlain h]
  · exact keeps_writeNoise h
  · exact keeps_writeNoise h
  · exact keeps_writeNoise h
  · exact keeps_writeRange h
  · exact keeps_writeRange h
  · exact keeps_writeShare h
  · exact keeps_writeXinv h
  · exact keeps_writeKctx h
  · exact keeps_writeDbgc h
  · exact keeps_writeTrace h
  · simp [h]
  · exact keeps_writeBoard h
  · exact keeps_preemptOp h
  · exact keeps_writeLend h
  · exact keeps_writeAmask h
  · exact keeps_writeAlarm h
  · simp [h, keeps_writePlain]
theorem keeps_writeAt {d c : Nat} {k : KName} {v : W64} : (s.writeAt d c k v).Keeps := by
  unfold State.writeAt
  split
  · trivial
  · simp [keeps_writeK h]
theorem outCanonical_mtk {a k : Nat} : OutCanonical (execMtk a k s) := by
  unfold execMtk
  split
  · exact outCanonical_illegal h
  next n _ =>
    refine outCanonical_ite.2 ⟨fun _ => outCanonical_next.2 h, fun _ => ?_⟩
    have k := keeps_writeAt h (d := s.cur.die) (c := s.cur.core) (k := n) (v := s.me.val a)
    split
    · exact outCanonical_illegal h
    · exact outCanonical_privFault h
    · exact outCanonical_next.2 h
    next e => rw [e, keeps_writePending] at k; simp [h, k]
    next e => rw [e, keeps_writeDone] at k; simp [h, k]
theorem outCanonical_mfk {d k : Nat} : OutCanonical (execMfk d k s) := by
  unfold execMfk
  split <;> simp [h]
theorem outCanonical_trap {code : Nat} : OutCanonical (execTrap code s) := by simp [execTrap, h, canonical_endContext]
theorem outCanonical_rowWrite {d c : Nat} {k : KName} {v : W64} : OutCanonical (s.rowWrite d c k v) := by
  have k := keeps_writeAt h (d := d) (c := c) (k := k) (v := v)
  unfold State.rowWrite
  split
  next e => rw [e, keeps_writeDone] at k; exact outCanonical_next.2 k
  next e => rw [e, keeps_writePending] at k; exact outCanonical_next.2 k
  · exact outCanonical_next.2 h
  · exact outCanonical_next.2 (canonical_takeTrap h _ _ _)
  · exact outCanonical_next.2 (canonical_takeTrap h _ _ _)

end

end Sys2Proof.Machine
end

section
/-!
PROOF. The units around the cores: board and power (R385 to R396, R440 to R443), HBM4E (R405 to R418), the security engine
(R419 to R427), reset and boot (R439), the host's and the debug port (R359, R365, R435 to R438), and the passing of a cycle.
-/
namespace Sys2Proof.Machine
open Sys2Proof Sys2Proof.Safety

variable {s t : State}

/-! ### Single dies -/

theorem crossSlot_memoryWf {y z : Die} (hy : y.MemoryWf) (hz : z.MemoryWf) : (crossSlot y z).MemoryWf := by
  unfold crossSlot
  split
  · exact hy
  · exact hz
theorem Die.newFrame_memoryWf {y : Die} {start : Nat} (h : y.MemoryWf) : (y.newFrame start).MemoryWf := h
theorem Die.setHbm_memoryWf {y : Die} {f : Hbm → Hbm} (h : y.MemoryWf) : (y.setHbm f).MemoryWf := h
@[simp] theorem setHbm_stack {y : Die} {f : Hbm → Hbm} : (y.setHbm f).stack = y.stack := rfl
@[simp] theorem setHbm_basin {y : Die} {f : Hbm → Hbm} : (y.setHbm f).basin = y.basin := rfl
@[simp] theorem writeProf_stack {y : Die} {v : W64} : (y.writeProf v).stack = y.stack := rfl
@[simp] theorem writeProf_basin {y : Die} {v : W64} : (y.writeProf v).basin = y.basin := rfl
/-- A visit of the scrubber corrects a line or marks it (R412). -/
theorem Die.visit_memoryWf {y : Die} {line : Nat} (h : y.MemoryWf) : (y.visit line).MemoryWf := by
  unfold Die.visit
  dsimp only
  split
  · exact h
  · split
    · exact h
    · exact y.markStack_memoryWf _ h
/-- A reset leaves a die's memories empty (R439). -/
theorem Die.afterReset_memoryWf {y : Die} : y.afterReset.MemoryWf := ⟨Store.empty_wf, Store.empty_wf⟩
theorem Die.passGrants_memoryWf {y : Die} (h : y.MemoryWf) : y.passGrants.MemoryWf := by
  simpa only [Die.MemoryWf, Die.passGrants] using h

section
variable (h : Canonical s)
include h

/-! ### Board, power and telemetry -/

theorem outCanonical_slotBoundary {d : Nat} : OutCanonical (execSlotBoundary d s) := by
  unfold execSlotBoundary
  refine outCanonical_ite.2 ⟨fun _ => outCanonical_next.2 h, fun _ => outCanonical_next.2 ?_⟩
  have k := memoryWf_die h d
  exact canonical_setDie h (crossSlot_memoryWf k k)
theorem outCanonical_frameBoundary {d : Nat} : OutCanonical (execFrameBoundary d s) := by
  unfold execFrameBoundary
  refine outCanonical_ite.2 ⟨fun _ => outCanonical_next.2 h, fun _ => outCanonical_next.2 ?_⟩
  have k := memoryWf_die h d
  exact canonical_setDie h (crossSlot_memoryWf k (Die.newFrame_memoryWf k))
theorem outCanonical_profileWrite {d : Nat} {v : W64} : OutCanonical (execProfileWrite d v s) := by simp [execProfileWrite, h]
theorem outCanonical_thermalThrottle {d : Nat} : OutCanonical (execThermalThrottle d s) := by simp [execThermalThrottle, h]
theorem outCanonical_thermalRecovery {d : Nat} : OutCanonical (execThermalRecovery d s) := by simp [execThermalRecovery, h]
theorem outCanonical_telemetryUpdate {d power current tj : Nat} : OutCanonical (execTelemetryUpdate d power current tj s) := by
  simp [execTelemetryUpdate, h]

/-! ### HBM4E -/

theorem outCanonical_scrubVisit {d : Nat} : OutCanonical (execScrubVisit d s) := by
  unfold execScrubVisit
  refine outCanonical_ite.2 ⟨fun _ => outCanonical_next.2 h, fun _ => outCanonical_next.2 ?_⟩
  exact canonical_updDie_wf h fun _ k => Die.setHbm_memoryWf (Die.visit_memoryWf k)
theorem outCanonical_rowClose {d n : Nat} : OutCanonical (execRowClose d n s) := by
  unfold execRowClose
  split <;> simp [h]
theorem outCanonical_hbmEyeEvent {d lane : Nat} : OutCanonical (execHbmEyeEvent d lane s) := by simp [execHbmEyeEvent, h]
theorem outCanonical_laneRepair {d : Nat} {v : W64} : OutCanonical (execLaneRepair d v s) := by simp [execLaneRepair, h]
theorem outCanonical_spareLaneRetrainDone {d pc : Nat} : OutCanonical (execSpareLaneRetrainDone d pc s) := by
  refine outCanonical_next.2 (canonical_launchAll ?_)
  simpa using h
theorem outCanonical_errorCountsRead {d : Nat} : OutCanonical (execErrorCountsRead d s) := by simp [execErrorCountsRead, h]

/-! ### The security engine -/

omit h in
theorem canonical_secPiece {va n : Nat} (l : List Acc) : ∀ {s t : State} {p : Nat × Nat}, Canonical s →
    s.secPiece va n l = .ok (p, t) → Canonical t := by
  induction l with
  | nil => intro s t p h e; cases e; exact h
  | cons a l ih =>
    intro s t p h e
    unfold State.secPiece at e
    split at e
    · cases e
    split at e
    · cases e
    next o _ =>
      dsimp only at e
      split at e
      · cases e
      next u e1 =>
        have k1 : Canonical (s.updMe fun x => x.cache o.walked) := canonical_updMe h _
        have hu : Canonical u := by
          split at e1
          · exact canonical_setDirty k1 e1
          · cases e1; exact k1
        split at e
        · cases e; exact hu
        · exact ih hu e
omit h in
theorem canonical_secPieces {va n : Nat} {accs : List Acc} (l : List Nat) : ∀ {s t : State} {ps : List (Nat × Nat)}, Canonical s →
    s.secPieces va n accs l = .ok (ps, t) → Canonical t := by
  induction l with
  | nil => intro s t ps h e; cases e; exact h
  | cons i l ih =>
    intro s t ps h e
    unfold State.secPieces at e
    split at e
    · cases e
    next e1 =>
      split at e
      · cases e
      next e2 => cases e; exact ih (canonical_secPiece _ h e1) e2
theorem outCanonical_sendSec {d : Nat} {a b : W64} {pas : List (Nat × Nat)} : OutCanonical (s.sendSec d a b pas) := by
  simp [State.sendSec, h]
theorem outCanonical_secreq {d a b : Nat} : OutCanonical (execSecreq d a b s) := by
  unfold execSecreq
  refine outCanonical_ite.2 ⟨fun _ => outCanonical_next.2 h, fun _ => ?_⟩
  refine outCanonical_ite.2 ⟨fun _ => outCanonical_illegal h, fun _ => ?_⟩
  refine outCanonical_ite.2 ⟨fun _ => outCanonical_privFault h, fun _ => ?_⟩
  split
  · exact outCanonical_poisonFault h
  refine outCanonical_ite.2 ⟨fun _ => outCanonical_sendSec h, fun _ => ?_⟩
  refine outCanonical_ite.2 ⟨fun _ => outCanonical_raise h, fun _ => ?_⟩
  refine outCanonical_ite.2 ⟨fun _ => outCanonical_next.2 h, fun _ => ?_⟩
  split
  · exact outCanonical_raiseBad h
  next e => exact outCanonical_sendSec (canonical_secPieces _ h e)
omit h in
@[simp] theorem canonical_answerSec {p : Nat} {q : SecReq} {status : Nat} {poison : Bool} :
    Canonical (s.answerSec p q status poison) ↔ Canonical s := by simp [State.answerSec]
theorem canonical_secPut {q : SecReq} {ipa pa : Nat} {bs : List Byte} : Canonical (s.secPut q ipa pa bs) :=
  canonical_openPa (canonical_writePa (canonical_redirty h _ _ _) _ _ _ _) _ _ _ _
theorem canonical_secWrite {q : SecReq} {n : Nat} {bs : List Byte} : Canonical (s.secWrite q n bs) :=
  canonical_foldl _ (fun _ _ k => canonical_secPut k) _ _ h
theorem canonical_serveExtend {p : Nat} {q : SecReq} : Canonical (s.serveExtend p q) := by simp [State.serveExtend, h]
theorem canonical_serveReadmr {p : Nat} {q : SecReq} : Canonical (s.serveReadmr p q) := by
  simp [State.serveReadmr, h, canonical_secWrite]
theorem canonical_serveTkey {p : Nat} {q : SecReq} : Canonical (s.serveTkey p q) := by simp [State.serveTkey, h]
theorem canonical_serveTkdel {p : Nat} {q : SecReq} : Canonical (s.serveTkdel p q) := by simp [State.serveTkdel, h]
theorem canonical_serveNonce {p : Nat} {q : SecReq} : Canonical (s.serveNonce p q) := by simp [State.serveNonce, h]
theorem canonical_serveQuote {p : Nat} {q : SecReq} : Canonical (s.serveQuote p q) := by
  unfold State.serveQuote
  dsimp only
  split
  · simpa using h
  · refine canonical_answerSec.2 (canonical_secWrite ?_)
    cases q.pas.head? with
    | none => exact h
    | some g => exact canonical_secPut (canonical_secPut h)
theorem canonical_serveUnlock {p : Nat} {q : SecReq} : Canonical (s.serveUnlock p q) := by simp [State.serveUnlock, h]
theorem outCanonical_serveSec {p op : Nat} {f : State → SecReq → State} (hf : ∀ q, Canonical (f s q)) :
    OutCanonical (s.serveSec p op f) := by
  unfold State.serveSec
  split <;> simp [h, hf]

/-! ### Alarms, reset and boot -/

theorem canonical_onDies {p : Nat} {f : Die → Die} (k : ∀ y, y.MemoryWf → (f y).MemoryWf) : Canonical (s.onDies p f) :=
  canonical_foldl _ (fun _ _ h => canonical_updDie_wf h k) _ _ h
theorem canonical_check {p src : Nat} : Canonical (s.check p src) := by
  refine canonical_onDies ?_ fun _ k => ?_
  · simpa using h
  · exact k
theorem canonical_resetPackage {p : Nat} {e : Security} : Canonical (s.resetPackage p e) := by
  have k := canonical_onDies h (p := p) fun y _ => Die.afterReset_memoryWf (y := y)
  exact canonical_updPkg k p _ fun _ k => k
theorem canonical_mate {p : Nat} : Canonical (s.mate p) := canonical_resetPackage h
theorem outCanonical_checkAlarm {p src : Nat} : OutCanonical (execCheckAlarm p src s) := by
  simp [execCheckAlarm, h, canonical_check]
theorem outCanonical_mateAlarm {p src : Nat} : OutCanonical (execMateAlarm p src s) := by simp [execMateAlarm, h, canonical_mate]
theorem canonical_writeHboot {p : Nat} {v : W64} : Canonical (s.writeHboot p v) := by
  simp [State.writeHboot, h, canonical_check]
theorem canonical_bringUp {p : Nat} : Canonical (s.bringUp p) := by
  unfold State.bringUp
  refine canonical_foldl _ (fun _ _ k => by simp [k, canonical_startTraining]) _ _ (canonical_updSec.2 (canonical_onDies h ?_))
  exact fun _ _ => ⟨Store.empty_wf, Store.empty_wf⟩
theorem outCanonical_dieReady {d : Nat} : OutCanonical (execDieReady d s) := by simp [execDieReady, h, canonical_bringUp]

/-! ### The host and the debug port -/

theorem canonical_barRead {d off : Nat} : Canonical (s.barRead d off) := by simp [State.barRead, h]
theorem canonical_writeLstat {d p : Nat} {v : W64} : Canonical (s.writeLstat d p v) := by
  simp [State.writeLstat, h, canonical_startTraining]
theorem canonical_barWrite {d off : Nat} {v : W64} : Canonical (s.barWrite d off v) := by
  simp [State.barWrite, h, canonical_writeLstat, canonical_writeHboot]
theorem canonical_writePlat {d pa : Nat} {bs : List Byte} : Canonical (s.writePlat d pa bs) :=
  canonical_foldl _ (fun _ _ k => canonical_writePa k _ _ _ _) _ _ h
theorem canonical_hostWindow {d off : Nat} {bs : List Byte} : Canonical (s.hostWindow d off bs) := by
  have k : Canonical (if holdsSeq off bs.length then s.takeHost (pkgOf d) else s) := by simp [h, canonical_takeHost]
  exact canonical_updDie_wf k fun y hy => y.writeBasin_memoryWf 0 off bs hy
theorem canonical_hostAccess {a : HostAccess} : Canonical (s.hostAccess a) := by
  cases a with
  | windowRead d off n => simp [State.hostAccess, Die.present, h]
  | windowWrite d off bs => simp [State.hostAccess, h, canonical_hostWindow]
  | stackRead d off n => simp [State.hostAccess, h, canonical_touchPa]
  | stackWrite d off bs => simp [State.hostAccess, h, canonical_openPa]
  | hostWrite p a bs => simp [State.hostAccess, h]
  | barRead d off => simp [State.hostAccess, h, canonical_barRead]
theorem canonical_portWrite {d c k : Nat} {v : W64} : Canonical (s.portWrite d c k v) := by
  unfold State.portWrite
  split
  · exact h
  next n _ =>
    have k := keeps_writeK h (d := d) (c := c) (k := n) (v := v)
    split
    next e => rw [e] at k; exact k
    · exact h
theorem canonical_portAccess {a : DebugAccess} : Canonical (s.portAccess a) := by
  cases a with
  | readMemory d off n => exact canonical_touchPa h
  | writeMemory d off bs => exact canonical_writePlat h
  | writeDebug d c k v => exact canonical_portWrite h
  | readK d c k => exact h
  | requestStop d c => exact canonical_updCore h _ _ _
theorem canonical_portViolation {p : Nat} : Canonical (s.portViolation p) := by
  simp [State.portViolation, h, canonical_mate, canonical_check]
theorem outCanonical_debugPortAccess {a : DebugAccess} : OutCanonical (execDebugPortAccess a s) := by
  simp [execDebugPortAccess, h, canonical_portAccess, canonical_portViolation]

/-! ### The passing of a cycle -/

theorem canonical_dueBoundary {d : Nat} : Canonical (s.dueBoundary d) := by
  have k := outCanonical_frameBoundary h (d := d)
  unfold State.dueBoundary
  split
  next e =>
    have hf := k _ e
    have k2 := outCanonical_slotBoundary hf (d := d)
    split
    next e2 => exact k2 _ e2
    · exact hf
  · exact h
theorem canonical_duePasses {d : Nat} : Canonical (s.duePasses d) := by
  refine canonical_foldl _ (fun s k hs => ?_) _ _ h
  split
  · exact hs
  · exact canonical_commitPass hs
theorem canonical_handAgain {d : Nat} : Canonical (s.handAgain d) :=
  canonical_foldl _ (fun _ _ k => by simp [k, canonical_handOverAll]) _ _ h
theorem canonical_passCycle {d : Nat} {k : Clock} : Canonical (s.passCycle d k) := by
  cases k with
  | core =>
    refine canonical_updDie_wf (canonical_flushTrace (canonical_handAgain h)) fun y hy => Die.passGrants_memoryWf ?_
    exact hy
  | cascade =>
    refine canonical_updDie_wf (canonical_duePasses (canonical_dueBoundary h)) fun y hy => ?_
    exact hy
  | ref =>
    refine canonical_updDie_wf h fun y hy => ?_
    exact hy

end

end Sys2Proof.Machine
end

section
/-!
PROOF. Every instruction, and with it every step, keeps the memories canonical (log 3; R4, R10, R169, R246).
-/
namespace Sys2Proof.Machine
open Sys2Proof Sys2Proof.Safety

variable {s : State}

/-- The meaning of every instruction and device step keeps the memories canonical: one line for each shared operation. -/
theorem outCanonical_exec (h : Canonical s) (i : Instr) : OutCanonical (exec i s) := by
  cases i
  all_goals simp only [exec]
  -- results in scalar registers
  case add | sub | and | or | xor | sll | srl | sra | slt | sltn | min | minn | max | maxn | ins => exact outCanonical_alu2 h
  case mul | mulh | mulhn | div | divn | rem | remn => exact outCanonical_alu2Late h
  case clz | ctz | popc | addi | andi | ori | xori | slli | srli | srai | slti | sltni | ext | extn => exact outCanonical_alu1 h
  case lih | lah | tlread => exact outCanonical_alu0 h
  case commit => exact outCanonical_commit h
  case nop => exact outCanonical_nop h
  case tokt => exact outCanonical_tokt h
  case tokw => exact outCanonical_tokw h
  case resultReady => exact outCanonical_resultReady h
  -- control transfers
  case beq | bne | blt | bltn | bge | bgen => exact outCanonical_branch2 h
  case chk => exact outCanonical_chk h
  case jal => exact outCanonical_jal h
  case jalr => exact outCanonical_jalr h
  case callg => exact outCanonical_callg h
  case loop | loopp => exact outCanonical_loopStart h
  -- the lane's accesses
  case ld => exact outCanonical_ld h
  case ldp => exact outCanonical_ldp h
  case st => exact outCanonical_st h
  case loadReturn => exact outCanonical_loadReturn h
  case storePerformedAtHome => exact outCanonical_storePerformedAtHome h
  case amo => exact outCanonical_amo h
  case amocas => exact outCanonical_amocas h
  case amoOldValueReturn => exact outCanonical_amoOldValueReturn h
  case fence => exact outCanonical_fence h
  case bar => exact outCanonical_bar h
  case barrierCompletion => exact outCanonical_completeNet h
  case partitionBarrierCompletion => exact outCanonical_partitionBarrierCompletion h
  case tlwait => exact outCanonical_tlwait h
  case probe => exact outCanonical_probe h
  -- the vector engine
  case vadd | vsub | vmul | vfma | vfnma => exact outCanonical_arith h
  case vmin | vmax => exact outCanonical_extreme h
  case vabs | vneg | vnot => exact outCanonical_unary h
  case vand | vor | vxor => exact outCanonical_bitwise h
  case vsll | vsrl | vsra => exact outCanonical_shift h
  case vcmp => exact outCanonical_vcmp h
  case vcvt => exact outCanonical_vcvt h
  case vmov | vsel | vcommit | vpchk | vtag | vsplat | vclr | vxtr | vperm | vrand => exact outCanonical_vrun h
  case vrotr | vrotc | vbcr | vbcc => exact outCanonical_moves h
  case vredr | vredc | vscanr | vscanc => exact outCanonical_across h
  case vexp2 | vlog2 | vrcp | vrsq | vtanh | vsig => exact outCanonical_special h
  case vqmx | vqlx | vqcb => exact outCanonical_quantiser h
  case vbscale => exact outCanonical_vbscale h
  case vdq => exact outCanonical_vdq h
  case vtrn => exact outCanonical_vtrn h
  case vsplit => exact outCanonical_vsplit h
  case vcbld => exact outCanonical_vcbld h
  case vld => exact outCanonical_vld h
  case vlds => exact outCanonical_vlds h
  case vst | vsts => exact outCanonical_basinStore h
  -- the matrix engine, its cascades and the confluence
  case mma => exact outCanonical_mma h
  case mmw => exact outCanonical_mmw h
  case mmar => exact outCanonical_mmar h
  case acal => exact outCanonical_acal h
  case acfr | aczr => exact outCanonical_issueBanks h
  case acdr => exact outCanonical_acdr h
  case task | tfwd => exact outCanonical_taskIssue h
  case taskst => exact outCanonical_taskst h
  case cascadeServe => exact outCanonical_cascadeServe h
  case epilogueRow => exact outCanonical_epilogueRow h
  case taskDeadline => exact outCanonical_taskDeadline h
  case passCommit => exact outCanonical_passCommit h
  case rowScatter => exact outCanonical_rowScatter h
  case parkedRowRescatter => exact outCanonical_parkedRowRescatter h
  case tfwdRowsAtPeer => exact outCanonical_tfwdRowsAtPeer h
  case tfwdRowsReturn => exact outCanonical_tfwdRowsReturn h
  -- the split unit
  case splr => exact outCanonical_splr h
  case spmv => exact outCanonical_spmv h
  case spjn => exact outCanonical_spjn h
  case spmg | spage | sprd => exact outCanonical_issueSlot h
  case splitUnitServe => exact outCanonical_splitUnitServe h
  case rillRowMultiply => exact outCanonical_rillRowMultiply h
  -- copies and streams
  case cp | cpm | gath | scat | fill | flush | inv => exact outCanonical_issueCopy h
  case copyGranule => exact outCanonical_copyGranule h
  case sbind => exact outCanonical_sbind h
  case sunb => exact outCanonical_sunb h
  case dfl => exact outCanonical_dfl h
  case spoutPrefetch => exact outCanonical_spoutPrefetch h
  case drainWrite => exact outCanonical_drainWrite h
  -- the fabric
  case rld => exact outCanonical_rld h
  case rst => exact outCanonical_rst h
  case ramo => exact outCanonical_ramo h
  case ramocas => exact outCanonical_ramocas h
  case rmc => exact outCanonical_rmc h
  case rtld => exact outCanonical_rtld h
  case rfence => exact outCanonical_rfence h
  case tkget => exact outCanonical_tkget h
  case tkwait => exact outCanonical_tkwait h
  case tkret => exact outCanonical_tkret h
  case rget | rput => exact outCanonical_issueBulk h
  case wdpub => exact outCanonical_wdpub h
  case pbar => exact outCanonical_pbar h
  case flitHop => exact outCanonical_flitHop h
  case flitCrcRetry => exact outCanonical_flitCrcRetry h
  case remoteRequestPerform => exact outCanonical_remoteRequestPerform h
  case remoteResponse => exact outCanonical_remoteResponse h
  case responseAcknowledgement => exact outCanonical_responseAcknowledgement h
  case linkTrainingRound => exact outCanonical_linkTrainingRound h
  case linkRetrainRequest => exact outCanonical_linkRetrainRequest h
  case linkEyeEvent => exact outCanonical_linkEyeEvent h
  case skewMeasure => exact outCanonical_skewMeasure h
  -- lines, tokens, traps
  case lineDelivery => exact outCanonical_lineDelivery h
  case tokenCompletion => exact outCanonical_tokenCompletion h
  case freeze => exact outCanonical_freeze h
  case trapEntry => exact outCanonical_trapEntry h
  case dumpedResultWrite => exact outCanonical_dumpedResultWrite h
  case noProgressWatchdog => exact outCanonical_noProgressWatchdog h
  case eret => exact outCanonical_eret h
  case trap => exact outCanonical_trap h
  -- launches
  case launch => exact outCanonical_launch h
  case waitch => exact outCanonical_waitch h
  case launchTake => exact outCanonical_launchTake h
  case unitPlacement => exact outCanonical_unitPlacement h
  case launchEnd => exact outCanonical_launchEnd h
  -- K registers
  case mfk => exact outCanonical_mfk h
  case mtk => exact outCanonical_mtk h
  case kctxSave | kctxRestore | kctxRelease | kctxNothing | xinvAllStage1 | xinvPage | xinvStage2 | rangeTableLoad |
      cacheShareWrite | noiseModeWrite | modeWrite | activeMaskWrite | boardWrite | preempt | preemptForMigration | lendWrite |
      traceBufferWrite =>
    exact outCanonical_rowWrite h
  case preemptionRequest => exact outCanonical_preemptionRequest h
  case debugStop => exact outCanonical_debugStop h
  -- board, HBM4E and power
  case slotBoundary => exact outCanonical_slotBoundary h
  case frameBoundary => exact outCanonical_frameBoundary h
  case profileWrite => exact outCanonical_profileWrite h
  case thermalThrottle => exact outCanonical_thermalThrottle h
  case thermalRecovery => exact outCanonical_thermalRecovery h
  case telemetryUpdate => exact outCanonical_telemetryUpdate h
  case scrubVisit => exact outCanonical_scrubVisit h
  case rowClose => exact outCanonical_rowClose h
  case hbmEyeEvent => exact outCanonical_hbmEyeEvent h
  case laneRepair => exact outCanonical_laneRepair h
  case spareLaneRetrainDone => exact outCanonical_spareLaneRetrainDone h
  case errorCountsRead => exact outCanonical_errorCountsRead h
  -- the security engine, reset and boot
  case secreq => exact outCanonical_secreq h
  case extend => exact outCanonical_serveSec h fun _ => canonical_serveExtend h
  case quote => exact outCanonical_serveSec h fun _ => canonical_serveQuote h
  case readmr => exact outCanonical_serveSec h fun _ => canonical_serveReadmr h
  case tkey => exact outCanonical_serveSec h fun _ => canonical_serveTkey h
  case tkdel => exact outCanonical_serveSec h fun _ => canonical_serveTkdel h
  case nonce => exact outCanonical_serveSec h fun _ => canonical_serveNonce h
  case unlock => exact outCanonical_serveSec h fun _ => canonical_serveUnlock h
  case checkAlarm => exact outCanonical_checkAlarm h
  case mateAlarm => exact outCanonical_mateAlarm h
  case packageReset => exact outCanonical_next.2 (canonical_resetPackage h)
  case bootImageLoad => exact outCanonical_next.2 (canonical_writeHboot h)
  case dieReady => exact outCanonical_dieReady h
  -- the host and the debug port
  case registerWrite => exact outCanonical_next.2 (canonical_barWrite h)
  case hostCxlAccess => exact outCanonical_next.2 (canonical_hostAccess h)
  case debugPortAccess => exact outCanonical_debugPortAccess h
  -- RECALL, a K row as well, by its place: its name is a keyword of Mathlib's
  next => exact outCanonical_rowWrite h

/-- Taking the next turn reads the schedule alone (log 2). -/
theorem canonical_nextTurn (h : Canonical s) : Canonical (nextTurn s).2 := by
  unfold nextTurn
  split <;> exact h

/-- A step is a cycle that passes, a group that issues, or a device step. -/
theorem outCanonical_step (h : Canonical s) : OutCanonical (step s) := by
  have h1 := canonical_nextTurn h
  unfold step
  split
  · exact outCanonical_ite.2 ⟨fun _ => outCanonical_next.2 (canonical_passCycle h1), fun _ => outCanonical_fault⟩
  next d c e _ =>
    refine outCanonical_ite.2 ⟨fun _ => ?_, fun _ => outCanonical_fault⟩
    have k := keeps_fetchGroup h1 (d := d) (c := c) (e := e)
    split
    next e1 => rw [e1] at k; exact outCanonical_next.2 k
    next e1 => rw [e1] at k; exact k
    next e1 => rw [e1] at k; exact outCanonical_exec k _
  · refine outCanonical_ite.2 ⟨fun _ => ?_, fun _ => outCanonical_fault⟩
    exact outCanonical_ite.2 ⟨fun _ => outCanonical_exec h1 _, fun _ => outCanonical_fault⟩

end Sys2Proof.Machine
end

section
open Sys2Proof Sys2Proof.Machine Sys2Proof.Safety

/-- Settles O60: each turn of a step keeps the canonical form (`outCanonical_step`), each instruction through the writers of
memory it calls (`outCanonical_exec`). -/
theorem memoriesStayCanonical : Obligations.MemoriesStayCanonical := by
  unfold Obligations.MemoriesStayCanonical
  exact fun s t h e => outCanonical_step h t e
end

section
/-!
PROOF. What a write of bytes leaves in a store, line by line (R411, R422): the lines it does not touch are as they were, the
bytes it wrote read back under the writer's key, and the bytes beside them in a line of that key stand.
-/
namespace Sys2Proof.Machine
open Sys2Proof Sys2Proof.Safety

/-! ### Association lists -/

theorem assocGet_assocSet (l : List (Nat × Nat)) (k v j : Nat) :
    assocGet (assocSet l k v) j = if j = k then v else assocGet l j := by
  have hf : (l.filter fun p => p.1 != k).find? (fun p => p.1 == j) = if j = k then none else l.find? fun p => p.1 == j := by
    rw [List.find?_filter]
    split
    next e => subst e; simp
    next e =>
      congr 1
      funext p
      by_cases hp : p.1 = j <;> simp_all
  unfold assocGet assocSet
  rw [List.find?_append, hf]
  by_cases hj : j = k
  · subst hj
    by_cases hv : v = 0 <;> simp [hv]
  · by_cases hv : v = 0 <;> simp [hj, hv, Ne.symm hj]

/-! ### One line of a store -/

/-- Line l of a store is as in another: whether it is bad, its key, and its bytes. -/
def SameLine (m' m : Store) (l : Nat) : Prop :=
  m'.bad l = m.bad l ∧ assocGet m'.keys l = assocGet m.keys l ∧ ∀ x, x / 64 = l → m'.bytes.get x = m.bytes.get x

theorem SameLine.refl {m : Store} {l : Nat} : SameLine m m l := ⟨rfl, rfl, fun _ _ => rfl⟩
theorem SameLine.trans {m₁ m₂ m₃ : Store} {l : Nat} (h : SameLine m₁ m₂ l) (k : SameLine m₂ m₃ l) : SameLine m₁ m₃ l :=
  ⟨h.1.trans k.1, h.2.1.trans k.2.1, fun x hx => (h.2.2 x hx).trans (k.2.2 x hx)⟩
/-- A line that is as before reads as before under every key. -/
theorem SameLine.byte_eq {m' m : Store} {x : Nat} (h : SameLine m' m (x / 64)) (k : Nat) : m'.byte k x = m.byte k x := by
  obtain ⟨hb, hk, hx⟩ := h
  have hl : m'.bytes.getN (x / 64 * 64) 64 = m.bytes.getN (x / 64 * 64) 64 := by
    refine List.map_congr_left fun i hi => hx _ ?_
    have := List.mem_range.1 hi
    omega
  unfold Store.byte
  rw [hb, hk, hl, hx x rfl]

theorem Store.byte_of_key {m : Store} {k x : Nat} (hb : m.bad (x / 64) = false) (hk : assocGet m.keys (x / 64) = k) :
    m.byte k x = m.bytes.get x := by
  simp [Store.byte, hb, hk]

theorem Store.read_length (m : Store) (k a n : Nat) : (m.read k a n).length = n := by simp [Store.read]

/-! ### A whole line written -/

theorem Store.putLine_bad (m : Store) (k line l : Nat) (bs : List Byte) :
    (m.putLine k line bs).bad l = if l = line then false else m.bad l := by
  unfold Store.bad Store.putLine
  rw [assocGet_assocSet]
  by_cases e : l = line
  · simp [e]
  · simp [e, List.contains_eq_mem, List.mem_filter]

theorem Store.putLine_key (m : Store) (k line l : Nat) (bs : List Byte) :
    assocGet (m.putLine k line bs).keys l = if l = line then k else assocGet m.keys l := assocGet_assocSet _ _ _ _

/-! ### Bytes of one line written -/

section
variable {m : Store} {k a : Nat} {bs : List Byte} (wf : m.bytes.wf = true) (fit : a % 64 + bs.length ≤ 64)
include wf fit

/-- The lines beside the one written are as they were. -/
theorem Store.putPart_elsewhere {l : Nat} (hl : l ≠ a / 64) : SameLine (m.putPart k a bs) m l := by
  unfold Store.putPart
  split
  next h64 =>
    refine ⟨by rw [Store.putLine_bad, if_neg hl], by rw [Store.putLine_key, if_neg hl], fun x hx => ?_⟩
    exact Memory.get_putN_other _ _ _ _ wf (by omega)
  split
  · exact SameLine.refl
  split
  · exact ⟨rfl, rfl, fun x hx => Memory.get_putN_other _ _ _ _ wf (by omega)⟩
  · refine ⟨rfl, by rw [assocGet_assocSet, if_neg hl], fun x hx => ?_⟩
    have hr := m.read_length k (a / 64 * 64) 64
    rw [Memory.get_putN_other _ _ _ _ (Memory.putN_wf _ _ _ wf) (by omega), Memory.get_putN_other _ _ _ _ wf (by omega)]

/-- In a line that is not bad the bytes stand as written, under the writer's key, and the line is not bad. -/
theorem Store.putPart_written (good : m.bad (a / 64) = false) :
    (m.putPart k a bs).bad (a / 64) = false ∧ (bs ≠ [] → assocGet (m.putPart k a bs).keys (a / 64) = k) ∧
    ∀ x, a ≤ x → x < a + bs.length → (m.putPart k a bs).bytes.get x = (bs[x - a]?).getD 0 := by
  unfold Store.putPart
  split
  next h64 =>
    have ha : 64 * (a / 64) = a := by omega
    refine ⟨by simp [Store.putLine_bad], fun _ => by simp [Store.putLine_key], fun x h1 h2 => ?_⟩
    simp only [Store.putLine]
    rw [Memory.get_putN _ _ _ _ wf, if_pos (by omega)]
    congr 2
    omega
  rw [good]
  simp only [Bool.false_eq_true, if_false]
  split
  next hk =>
    refine ⟨good, fun _ => hk, fun x h1 h2 => ?_⟩
    rw [Memory.get_putN _ _ _ _ wf, if_pos ⟨h1, h2⟩]
  · refine ⟨good, fun _ => by simp [assocGet_assocSet], fun x h1 h2 => ?_⟩
    rw [Memory.get_putN _ _ _ _ (Memory.putN_wf _ _ _ wf), if_pos ⟨h1, h2⟩]

/-- A byte beside those written, in a line of the writer's key, is as before, and so are the line's key and mark. -/
theorem Store.putPart_beside {x : Nat} (hx : x < a ∨ a + bs.length ≤ x) (hk : assocGet m.keys (x / 64) = k) :
    (m.putPart k a bs).bad (x / 64) = m.bad (x / 64) ∧ assocGet (m.putPart k a bs).keys (x / 64) = k ∧
    (m.putPart k a bs).bytes.get x = m.bytes.get x := by
  by_cases hl : x / 64 = a / 64
  · rw [hl] at hk ⊢
    unfold Store.putPart
    rw [if_neg (by omega)]
    split
    · exact ⟨rfl, hk, rfl⟩
    · exact ⟨rfl, hk, Memory.get_putN_other _ _ _ _ wf hx⟩
  · obtain ⟨h1, h2, h3⟩ := Store.putPart_elsewhere (k := k) wf fit hl
    exact ⟨h1, h2.trans hk, h3 x rfl⟩

end

/-- No write makes a line bad. -/
theorem Store.putPart_good {m : Store} {k a l : Nat} {bs : List Byte} (h : m.bad l = false) : (m.putPart k a bs).bad l = false := by
  unfold Store.putPart
  split
  · rw [Store.putLine_bad]; split <;> simp [h]
  · split
    · exact h
    · split <;> exact h

/-! ### Bytes written over any lines -/

theorem Store.writeFuel_good (f : Nat) : ∀ {m : Store} {k a l : Nat} {bs : List Byte}, m.bad l = false →
    (Store.writeFuel f m k a bs).bad l = false := by
  induction f with
  | zero => exact fun h => h
  | succ f ih =>
    intro m k a l bs h
    unfold Store.writeFuel
    split
    · exact h
    · exact ih (Store.putPart_good h)
theorem Store.write_good {m : Store} {k a l : Nat} {bs : List Byte} (h : m.bad l = false) : (m.write k a bs).bad l = false :=
  Store.writeFuel_good _ h

/-- The piece of a write that lies in its first line. -/
theorem firstPiece_fits (a : Nat) (bs : List Byte) : a % 64 + (bs.take (64 - a % 64)).length ≤ 64 := by
  rw [List.length_take]
  omega

theorem Store.writeFuel_elsewhere (f : Nat) : ∀ {m : Store} {k a l : Nat} {bs : List Byte}, m.bytes.wf = true →
    l < a / 64 ∨ a + bs.length ≤ 64 * l → SameLine (Store.writeFuel f m k a bs) m l := by
  induction f with
  | zero => exact fun _ _ => SameLine.refl
  | succ f ih =>
    intro m k a l bs wf hl
    unfold Store.writeFuel
    split
    · exact SameLine.refl
    next hne =>
      have hpos : 0 < bs.length := List.length_pos_iff.2 (by simpa using hne)
      refine (ih (m.putPart_wf _ _ _ wf) ?_).trans (Store.putPart_elsewhere wf (firstPiece_fits a bs) (by omega))
      rw [List.length_drop]
      omega

theorem Store.writeFuel_beside (f : Nat) : ∀ {m : Store} {k a x : Nat} {bs : List Byte}, m.bytes.wf = true →
    x < a ∨ a + bs.length ≤ x → assocGet m.keys (x / 64) = k → (Store.writeFuel f m k a bs).byte k x = m.byte k x := by
  induction f with
  | zero => exact fun _ _ _ => rfl
  | succ f ih =>
    intro m k a x bs wf hx hk
    unfold Store.writeFuel
    split
    · rfl
    · have hp : x < a ∨ a + (bs.take (64 - a % 64)).length ≤ x := by rw [List.length_take]; omega
      obtain ⟨h1, h2, h3⟩ := Store.putPart_beside wf (firstPiece_fits a bs) hp hk
      rw [ih (m.putPart_wf _ _ _ wf) (by rw [List.length_drop]; omega) h2]
      simp [Store.byte, h1, h2, h3, hk]

theorem Store.writeFuel_written (f : Nat) : ∀ {m : Store} {k a x : Nat} {bs : List Byte}, m.bytes.wf = true → bs.length < f →
    (∀ y, a ≤ y → y < a + bs.length → m.bad (y / 64) = false) → a ≤ x → x < a + bs.length →
    (Store.writeFuel f m k a bs).byte k x = (bs[x - a]?).getD 0 := by
  induction f with
  | zero => intro m k a x bs _ hf; omega
  | succ f ih =>
    intro m k a x bs wf hf good h1 h2
    unfold Store.writeFuel
    have hne : bs.isEmpty = false := by
      cases bs with
      | nil => simp at h2; omega
      | cons _ _ => rfl
    rw [hne]
    simp only [Bool.false_eq_true, if_false]
    have fit := firstPiece_fits a bs
    have wf1 := m.putPart_wf k a (bs.take (64 - a % 64)) wf
    by_cases hx : x < a + (64 - a % 64)
    · -- x lies in the first line, which the rest of the write does not touch
      obtain ⟨g1, g2, g3⟩ := Store.putPart_written (k := k) wf fit (good a (le_refl a) (by omega))
      have hl : x / 64 = a / 64 := by omega
      have hr := Store.writeFuel_elsewhere f (k := k) (a := a + (64 - a % 64)) (l := x / 64)
        (bs := bs.drop (64 - a % 64)) wf1 (by omega)
      have hp : bs.take (64 - a % 64) ≠ [] := by
        intro e
        have := congrArg List.length e
        rw [List.length_take, List.length_nil] at this
        omega
      rw [hr.byte_eq, Store.byte_of_key (by rw [hl]; exact g1) (by rw [hl]; exact g2 hp),
        g3 x h1 (by rw [List.length_take]; omega), List.getElem?_take_of_lt (by omega)]
    · have hd : (bs.drop (64 - a % 64)).length = bs.length - (64 - a % 64) := List.length_drop ..
      rw [ih wf1 (by omega) (fun y y1 y2 => Store.putPart_good (good y (by omega) (by omega))) (by omega) (by omega),
        List.getElem?_drop]
      congr 2
      omega

/-! ### A write, and a read of what it wrote -/

theorem Store.anyBad_eq_false {m : Store} {a n : Nat} :
    m.anyBad a n = false ↔ ∀ y, a ≤ y → y < a + n → m.bad (y / 64) = false := by
  unfold Store.anyBad linesOf
  split
  next h => simp only [List.any_nil, true_iff]; intro y; omega
  next h =>
    simp only [List.any_map, List.any_eq_false, List.mem_range, Function.comp, Bool.not_eq_true]
    constructor
    · intro k y h1 h2
      have := k (y / 64 - a / 64) (by omega)
      rwa [Nat.add_sub_cancel' (by omega)] at this
    · intro k i hi
      have := k (if i = 0 then a else 64 * (a / 64 + i)) (by split <;> omega) (by split <;> omega)
      rwa [show (if i = 0 then a else 64 * (a / 64 + i)) / 64 = a / 64 + i by split <;> omega] at this

theorem Store.anyBad_write {m : Store} {k a b n : Nat} {bs : List Byte} (h : m.anyBad b n = false) :
    (m.write k a bs).anyBad b n = false := by
  rw [Store.anyBad_eq_false] at h ⊢
  exact fun y h1 h2 => Store.write_good (h y h1 h2)

/-- Bytes written to lines that are not bad read back under the writer's key. -/
theorem Store.read_write {m : Store} {k a : Nat} {bs : List Byte} (wf : m.bytes.wf = true) (good : m.anyBad a bs.length = false) :
    (m.write k a bs).read k a bs.length = bs := by
  refine List.ext_getElem? fun i => ?_
  unfold Store.read
  rw [List.getElem?_map]
  by_cases hi : i < bs.length
  · rw [List.getElem?_range hi, Option.map_some, Store.write,
      Store.writeFuel_written _ wf (Nat.lt_succ_self _) (Store.anyBad_eq_false.1 good) (by omega) (by omega),
      Nat.add_sub_cancel_left, List.getElem?_eq_getElem hi, Option.getD_some]
  · rw [List.getElem?_eq_none (by simpa using hi), List.getElem?_eq_none (by omega), Option.map_none]

theorem Memory.getN_putN (m : Memory) (a : Nat) (bs : List Byte) (h : m.wf = true) : (m.putN a bs).getN a bs.length = bs := by
  refine List.ext_getElem? fun i => ?_
  unfold Memory.getN
  rw [List.getElem?_map]
  by_cases hi : i < bs.length
  · rw [List.getElem?_range hi, Option.map_some, m.get_putN _ _ _ h, if_pos (by omega), Nat.add_sub_cancel_left,
      List.getElem?_eq_getElem hi, Option.getD_some]
  · rw [List.getElem?_eq_none (by simpa using hi), List.getElem?_eq_none (by omega), Option.map_none]

end Sys2Proof.Machine
end

section
/-!
PROOF. O13: what a core reads at an address is the memory with the stores it sees performed, so its last store is the last
written; the bytes of a write in one store; and the regions of R246 in PA[55:52].
-/
namespace Sys2Proof.Machine
open Sys2Proof Sys2Proof.Safety

/-! ### Stores performed at their homes, and what a read finds there (R116, R357) -/

theorem pkg_updPkg_same (s : State) (p : Nat) (g : Pkg → Pkg) (h : p < s.pkgs.length) : (s.updPkg p g).pkg p = g (s.pkg p) := by
  simp [State.pkg, State.updPkg, h]

/-- Where an address leads depends on how many dies and packages there are. -/
theorem leads_congr {s t : State} {e a : Nat} (hd : t.dies.length = s.dies.length) (hp : t.pkgs.length = s.pkgs.length) :
    Leads t e a ↔ Leads s e a := by
  unfold Leads State.hasDie
  rw [hd, hp]

theorem leads_writePa {s : State} {e a : Nat} (d k pa : Nat) (bs : List Byte) : Leads (s.writePa d k pa bs) e a ↔ Leads s e a := by
  unfold State.writePa State.writePaBy
  split
  · exact leads_congr (List.length_modify ..) rfl
  · exact leads_congr (List.length_modify ..) rfl
  · exact leads_congr rfl (List.length_modify ..)
  · rfl

theorem leads_writeAll {s : State} {e a : Nat} (d : Nat) (l : List QStore) : Leads (s.writeAll d l) e a ↔ Leads s e a := by
  induction l generalizing s with
  | nil => rfl
  | cons t l ih => exact ih.trans (leads_writePa d t.key t.pa t.bytes)

/-- An update of a die that makes no line of its memories bad makes no read marked. -/
theorem readPa_unmarked_updDie {s : State} {w : Nat} {g : Die → Die} {e k a n : Nat}
    (hs : ∀ x b, x.stack.anyBad b n = false → (g x).stack.anyBad b n = false)
    (hb : ∀ x b, x.basin.anyBad b n = false → (g x).basin.anyBad b n = false)
    (h : (s.readPa e k a n).2 = false) : ((s.updDie w g).readPa e k a n).2 = false := by
  unfold State.readPa at h ⊢
  split at h
  · rw [die_updDie]
    split
    · exact hs _ _ h
    · exact h
  · rw [die_updDie]
    split
    · exact hb _ _ h
    · exact h
  · rfl
  · rfl

/-- A write marks no line: a read that is not marked is not marked after it. -/
theorem readPa_unmarked_writePa {s : State} {e k a n : Nat} (d k' pa : Nat) (bs : List Byte)
    (h : (s.readPa e k a n).2 = false) : ((s.writePa d k' pa bs).readPa e k a n).2 = false := by
  unfold State.writePa State.writePaBy
  split
  · exact readPa_unmarked_updDie (fun _ _ => Store.anyBad_write) (fun _ _ hx => hx) h
  · exact readPa_unmarked_updDie (fun _ _ hx => hx) (fun _ _ => Store.anyBad_write) h
  · unfold State.readPa at h ⊢
    split at h
    · exact h
    · exact h
    · rfl
    · rfl
  · exact h

theorem readPa_unmarked_writeAll {s : State} {e k a n : Nat} (d : Nat) (l : List QStore)
    (h : (s.readPa e k a n).2 = false) : ((s.writeAll d l).readPa e k a n).2 = false := by
  induction l generalizing s with
  | nil => exact h
  | cons t l ih => exact ih (readPa_unmarked_writePa d t.key t.pa t.bytes h)

/-- Bytes written at an address that leads somewhere, where no line is marked, read back under their key. -/
theorem readPa_writePa {s : State} {d k pa : Nat} {bs : List Byte} (can : Canonical s) (leads : Leads s d pa)
    (good : (s.readPa d k pa bs.length).2 = false) : (s.writePa d k pa bs).readPa d k pa bs.length = (bs, false) := by
  have still := readPa_unmarked_writePa d k pa bs good
  refine Prod.ext ?_ still
  unfold State.writePa State.writePaBy
  unfold Leads at leads
  unfold State.readPa at good ⊢
  cases place : paPlace d pa with
  | stack b =>
    rw [place] at leads good
    simp only [die_updDie_same _ _ _ leads]
    exact Store.read_write (canonical_die can _).1 good
  | window w b =>
    rw [place] at leads good
    simp only [die_updDie_same _ _ _ leads]
    exact Store.read_write (canonical_die can _).2 good
  | host b =>
    rw [place] at leads
    simp only [pkg_updPkg_same _ _ _ leads]
    exact Memory.getN_putN _ _ _ (canonical_pkg can _)
  | unreachable =>
    rw [place] at leads
    exact leads.elim

theorem writeAll_concat (s : State) (d : Nat) (l : List QStore) (t : QStore) :
    s.writeAll d (l ++ [t]) = (s.writeAll d l).writePa d t.key t.pa t.bytes := by
  simp [State.writeAll]

/-- The last store of a core below a number is the last of the stores it sees up to that number. -/
theorem seenStores_last {s : State} {d c n : Nat} {pre post : List PStore} {st : PStore}
    (hl : (s.core d c).fl.stores = pre ++ st :: post) (hst : st.seq < n) (hpost : ∀ o ∈ post, n ≤ o.seq) :
    ∃ older, s.seenStores d c n = older ++ [st.toQ c] := by
  have hp : post.filter (fun t => decide (t.seq < n)) = [] :=
    List.filter_eq_nil_iff.2 fun o ho => by have := hpost o ho; simp; omega
  unfold State.seenStores
  rw [hl, List.filter_append, List.filter_cons_of_pos (by simpa using hst), hp, List.map_append, ← List.append_assoc]
  exact ⟨_, rfl⟩

/-- Store forwarding (R116): a core reads at the address of its last store that store's bytes. -/
theorem coreRead_last {s : State} {d c n : Nat} {pre post : List PStore} {st : PStore} (can : Canonical s)
    (leads : Leads s d st.pa) (hl : (s.core d c).fl.stores = pre ++ st :: post) (hst : st.seq < n)
    (hpost : ∀ o ∈ post, n ≤ o.seq) (key : st.key = s.keyOf d (s.core d c).ctx.tenant)
    (good : (s.readPa d st.key st.pa st.bytes.length).2 = false) :
    s.coreRead d c st.pa st.bytes.length n = (st.bytes, false) := by
  obtain ⟨older, hseen⟩ := seenStores_last hl hst hpost
  unfold State.coreRead
  rw [hseen, writeAll_concat, ← key]
  exact readPa_writePa (canonical_writeAll can d older) ((leads_writeAll d older).2 leads) (readPa_unmarked_writeAll d older good)

/-! ### The lines a write does not touch -/

theorem Store.write_elsewhere {m : Store} {k a b : Nat} {bs : List Byte} (wf : m.bytes.wf = true) (hne : bs ≠ [])
    (hb : b / 64 < a / 64 ∨ (a + bs.length - 1) / 64 < b / 64) (k' : Nat) : (m.write k a bs).byte k' b = m.byte k' b := by
  have hpos := List.length_pos_iff.2 hne
  exact (Store.writeFuel_elsewhere _ wf (by omega)).byte_eq k'

/-! ### The regions of the physical address space (R246) -/

section
variable {d pa : Nat}

theorem paPlace_stack (hr : pa / 2 ^ 52 = 0) (hz : pa / 2 ^ 36 % 2 ^ 16 = 0) : paPlace d pa = .stack (pa % 2 ^ 36) := by
  unfold paPlace
  rw [if_pos (by omega), Nat.mod_eq_of_lt (by omega)]

theorem paPlace_window (hr : pa / 2 ^ 52 = 1) (hz : pa / 2 ^ 23 % 2 ^ 29 = 0) :
    paPlace d pa = .window (8 * (d / 8) + pa / 2 ^ 20 % 8) (pa % 2 ^ 20) := by
  unfold paPlace pkgOf
  rw [if_neg (by omega), if_pos (by omega), show (pa - 2 ^ 52) / 2 ^ 20 = pa / 2 ^ 20 % 8 by omega]

theorem paPlace_host (hr : pa / 2 ^ 52 = 2) (hz : pa / 2 ^ 48 % 2 ^ 4 = 0) : paPlace d pa = .host (pa % 2 ^ 48) := by
  unfold paPlace
  rw [if_neg (by omega), if_neg (by omega), if_pos (by omega), show pa - 2 ^ 53 = pa % 2 ^ 48 by omega]

theorem paPlace_unreachable (h : 3 ≤ pa / 2 ^ 52 ∨ (pa / 2 ^ 52 = 0 ∧ pa / 2 ^ 36 % 2 ^ 16 ≠ 0) ∨
    (pa / 2 ^ 52 = 1 ∧ pa / 2 ^ 23 % 2 ^ 29 ≠ 0) ∨ (pa / 2 ^ 52 = 2 ∧ pa / 2 ^ 48 % 2 ^ 4 ≠ 0)) :
    paPlace d pa = .unreachable := by
  unfold paPlace
  rw [if_neg (by omega), if_neg (by omega), if_neg (by omega)]

end

/-- Settles O13: the last store a core sees is written last; a write leaves its bytes, and only them, in its lines; and the
region of an address is a matter of its bits. -/
theorem memoryReadsWhatWasWritten : Obligations.MemoryReadsWhatWasWritten := by
  unfold Obligations.MemoryReadsWhatWasWritten
  refine ⟨?forwarding, ?written, ?regions⟩
  case forwarding =>
    intro s d c n pre post st can leads hl hst hpost _ key good
    exact coreRead_last can leads hl hst hpost key good
  case written =>
    intro m k a bs wf good hne
    exact ⟨Store.read_write wf good, fun k' b hb => Store.write_elsewhere wf hne hb k',
      fun b hb hk => Store.writeFuel_beside _ wf hb hk⟩
  case regions => exact fun d pa _ => ⟨paPlace_stack, paPlace_window, paPlace_host, paPlace_unreachable⟩

end Sys2Proof.Machine
end

section
/-!
PROOF. O55: the repetition of a group without a `rep` is the instruction itself, so a prefixless group is run as it decodes
(R30, R43, R129); a step with a turn of an engine does what `pickInstr` says of the group that stands next.
-/
namespace Sys2Proof.Machine
open Sys2Proof

/-! ### A group without prefixes (R27, R30, R43) -/

/-- A field that names a register is not changed by steps of zero. -/
theorem stepN_zero {f : Nat} (h : f < 64) (r : Nat) : stepN f 0 r = f := by
  unfold stepN
  omega

theorem stepT_zero {t : TOp} (h : t.v < 64) (r : Nat) : stepT t 0 r = t := by
  simp only [stepT, stepN_zero h]

/-- The handle field names a register, with a record and without. -/
theorem lt_of_hOk {b : Nat} {rec : Option Shape4} (h : hOk b rec = true) : b < 64 := by
  cases rec with
  | none => simpa [hOk, isReg] using h
  | some _ =>
    simp only [hOk, Bool.and_eq_true, decide_eq_true_eq] at h
    omega

/-- Every field a `rep` steps names a register in a well-formed instruction, so every repetition of a group without `rep` is
the instruction itself. -/
theorem stepInstr_one {i : Instr} (h : i.wf = true) (r : Nat) : stepInstr .one r i = i := by
  cases i
  case fill | sbind | rget | rput =>
    simp only [Instr.wf, isReg, pair, Bool.and_eq_true, decide_eq_true_eq] at h
    have hb := lt_of_hOk h.2
    simp (disch := omega) only [stepInstr, Rep.one, stepN_zero]
  all_goals
    simp only [Instr.wf, TOp.ok, isReg, pair, Bool.and_eq_true, decide_eq_true_eq] at h
    simp (disch := omega) only [stepInstr, Rep.one, stepN_zero, stepT_zero]

/-- What R43 and R129 ask of a well-formed instruction without `rep`: its tiles are within those of the context. -/
theorem repLegal_one {tiles : Nat} {i : Instr} (h : i.wf = true) :
    repLegal tiles .one false i = true ↔ ∀ v ∈ tilesOf i, v < tiles := by
  have hs := stepInstr_one h 0
  simp [repLegal, Rep.one] at hs ⊢
  simp [hs, h]

section
variable {x : Ctx} {g : Group} {rep : Nat} {i : Instr}

theorem pickInstr_error {pred : Bool} {e : DecErr} (hd : decode g.engine g.word g.conts = .error e) :
    pickInstr x g rep pred = .illegal := by
  unfold pickInstr
  split
  · rfl
  · rw [hd]

variable (hp : g.pres = []) (hd : decode g.engine g.word g.conts = .ok i) (hw : i.wf = true)
include hp hd hw

/-- A prefixless group whose instruction may run in its context is run once, unless its predicate is off. -/
theorem pickInstr_legal (ht : ∀ v ∈ tilesOf i, v < x.tiles) (hr : recordOk x.inline i = true) (pred : Bool) :
    pickInstr x g rep pred = if pred then .run i 1 else .off := by
  have hl := (repLegal_one hw).2 ht
  cases pred <;> simp [pickInstr, presLegal, groupRep, hp, hd, hr, hl, stepInstr_one hw, show Rep.one.n = 1 from rfl]

theorem pickInstr_illegal (hn : ¬ ((∀ v ∈ tilesOf i, v < x.tiles) ∧ recordOk x.inline i = true)) (pred : Bool) :
    pickInstr x g rep pred = .illegal := by
  rw [← repLegal_one hw] at hn
  simp [pickInstr, presLegal, groupRep, hp, hd, hn]

end

/-! ### A turn of an engine (R14, R15, R385) -/

@[simp] theorem aim_cur (s : State) (p : Slot) (d c n : Nat) : (s.aim p d c n).cur = p.focus d c n := by
  unfold State.aim
  dsimp only
  split <;> rfl

theorem illegal_aim (s : State) (p : Slot) (d c n : Nat) :
    (s.aim p d c n).illegal = (s.aim p d c n).raise 0x02 0 (BitVec.ofNat 64 p.grp.word) := by
  rw [illegal_eq, aim_cur]
  rfl

/-- Taking the next turn changes no core (log 2). -/
theorem core_of_nextTurn {s t : State} {u : Turn} (hn : nextTurn s = (u, t)) (d c : Nat) : t.core d c = s.core d c := by
  have ht : t = (nextTurn s).2 := by rw [hn]
  rw [ht]
  unfold nextTurn
  split <;> rfl

section
variable {s t : State} {d c : Nat} {e : Engine} (hn : nextTurn s = (.core d c e, t)) (hc : s.hasCore d c = true)
include hn hc

theorem step_idle (h : (s.core d c).ctl.run ≠ .running ∨ (s.core d c).slot e = none) : step s = .next t := by
  rcases h with h | h <;> simp [step, hn, hc, State.fetchGroup, core_of_nextTurn hn, h]

variable {p : Slot} (hr : (s.core d c).ctl.run = .running) (hs : (s.core d c).slot e = some p)
include hr hs

theorem step_run {i : Instr} {n : Nat} (h : pickInstr (s.core d c).ctx p.grp p.rep p.pred = .run i n) :
    step s = exec i (t.aim p d c n) := by
  simp [step, hn, hc, State.fetchGroup, core_of_nextTurn hn, hr, hs, h]

theorem step_off (h : pickInstr (s.core d c).ctx p.grp p.rep p.pred = .off) : step s = .next (t.aim p d c 1).issued := by
  simp [step, hn, hc, State.fetchGroup, core_of_nextTurn hn, hr, hs, h]

theorem step_illegal (h : pickInstr (s.core d c).ctx p.grp p.rep p.pred = .illegal) :
    step s = (t.aim p d c 1).raise 0x02 0 (BitVec.ofNat 64 p.grp.word) := by
  simp [step, hn, hc, State.fetchGroup, core_of_nextTurn hn, hr, hs, h, illegal_aim]

end

/-- Settles O55: a turn of an engine does what `pickInstr` says of the group that stands next, which for a prefixless group
is to run it as it decodes; the other turns act as `step` names them. -/
theorem stepRunsTheGroupItFetches : Obligations.StepRunsTheGroupItFetches := by
  unfold Obligations.StepRunsTheGroupItFetches
  intro s t
  refine ⟨?engine, ?noCore, ?cycle, ?event, ?noUnit, ?order⟩
  case engine =>
    intro d c e hn hc
    refine ⟨fun p hr hs => ?_, step_idle hn hc⟩
    refine ⟨fun n => by simp [Slot.focus], fun i n => step_run hn hc hr hs, step_off hn hc hr hs,
      step_illegal hn hc hr hs, ?plain, fun e' _ hd => step_illegal hn hc hr hs (pickInstr_error hd)⟩
    intro i hp hd hw
    refine ⟨fun ⟨ht, hi⟩ hon => step_run hn hc hr hs ?_, fun ⟨ht, hi⟩ hoff => step_off hn hc hr hs ?_,
      fun hl => step_illegal hn hc hr hs (pickInstr_illegal hp hd hw hl _)⟩
    · rw [pickInstr_legal hp hd hw ht hi, hon, if_pos rfl]
    · rw [pickInstr_legal hp hd hw ht hi, hoff, if_neg Bool.false_ne_true]
  case noCore =>
    intro d c e hn hc
    simp [step, hn, hc]
  case cycle =>
    intro d k hn hd
    simp [step, hn, hd]
  case event =>
    intro i hn hu hi
    simp [step, hn, hu, hi]
  case noUnit =>
    intro i hn hu
    simp [step, hn, hu]
  case order =>
    intro u rest hs
    simp [nextTurn, hs]

end Sys2Proof.Machine
end

section
/-!
PROOF. O42: LINE_DELIVERY (R14). The read of a line changes no core but for the translations cached; the outcomes of a fetch,
one lemma each; what holds a line back; what a delivered line leaves in the queues and in the registers it claims.
-/
namespace Sys2Proof.Machine
open Sys2Proof Sys2Proof.Safety

/-! ### Updates of a die that reach no core -/

theorem core_updDie_cores (s : State) (w : Nat) {g : Die → Die} (hg : ∀ y, (g y).cores = y.cores) (d c : Nat) :
    (s.updDie w g).core d c = s.core d c := by
  unfold State.core
  rw [die_updDie]
  split <;> simp only [hg]

theorem hasCore_updDie_cores (s : State) (w : Nat) {g : Die → Die} (hg : ∀ y, (g y).cores = y.cores) (d c : Nat) :
    (s.updDie w g).hasCore d c = s.hasCore d c := by
  unfold State.hasCore
  rw [hasDie_updDie, die_updDie]
  split <;> simp only [hg]

theorem cores_touchLine (y : Die) (line : Nat) : (y.touchLine line).cores = y.cores := by
  unfold Die.touchLine
  dsimp only
  split
  · rfl
  · split <;> rfl

theorem cores_touchLines (l : List Nat) (h : Hint) (y : Die) :
    (l.foldl (fun x l => (x.touchLine l).openRow l h) y).cores = y.cores :=
  List.foldlRecOn (motive := fun x : Die => x.cores = y.cores) _ _ rfl fun x hx l _ => (cores_touchLine x l).trans hx

@[simp] theorem core_touchPa (s : State) (e pa n : Nat) (h : Hint) (d c : Nat) : (s.touchPa e pa n h).core d c = s.core d c := by
  unfold State.touchPa State.touchPaBy
  split
  · exact core_updDie_cores s _ (cores_touchLines _ h) d c
  · exact core_updDie_cores s _ (by intro y; rfl) d c
  · rfl

@[simp] theorem hasCore_touchPa (s : State) (e pa n : Nat) (h : Hint) (d c : Nat) :
    (s.touchPa e pa n h).hasCore d c = s.hasCore d c := by
  unfold State.touchPa State.touchPaBy
  split
  · exact hasCore_updDie_cores s _ (cores_touchLines _ h) d c
  · exact hasCore_updDie_cores s _ (by intro y; rfl) d c
  · rfl

theorem core_queueRecord (s : State) (e k type : Nat) (data : Option W64) (d c : Nat) :
    (s.queueRecord e k type data).core d c = s.core d c := by
  unfold State.queueRecord
  exact core_updDie_cores s e (by intro y; rfl) d c

@[simp] theorem core_loopRecord (s : State) (e k d c : Nat) : (s.loopRecord e k).core d c = s.core d c := by
  unfold State.loopRecord
  split
  · exact core_queueRecord s e k 3 none d c
  · rfl

/-- The core whose line has resolved. -/
theorem core_resolveLine {s : State} {d c : Nat} (hc : s.hasCore d c = true) (l : LineBuf) :
    (s.resolveLine d c l).core d c = (s.core d c).resolve l := by
  unfold State.resolveLine
  dsimp only
  split
  · rw [core_loopRecord, core_updCore_same _ _ _ _ hc]
  · rw [core_updCore_same _ _ _ _ hc]

/-! ### Claims of a line (R102) -/

/-- A core with the registers of a list pending. -/
def Core.claimAll (x : Core) (l : List Nat) : Core := l.foldl (fun x r => x.updReg r fun g => { g with pend := true }) x

/-- Claims leave what no register update changes. -/
theorem claimAll_keeps {α : Type} {f : Core → α} (hf : ∀ x r g, f (x.updReg r g) = f x) (x : Core) (l : List Nat) :
    f (x.claimAll l) = f x :=
  List.foldlRecOn (motive := fun y => f y = f x) _ _ rfl fun y hy r _ => (hf y r _).trans hy

theorem regs_length_updReg (x : Core) (r : Nat) (g : SReg → SReg) : (x.updReg r g).regs.length = x.regs.length := by
  unfold Core.updReg
  split
  · rfl
  · simp

/-- A register after claims: pending where it is one of them. -/
theorem reg_claimAll {q : Nat} (hq : 0 < q) (l : List Nat) (x : Core) (hl : q < x.regs.length) :
    (x.claimAll l).reg q = { x.reg q with pend := (x.reg q).pend || decide (q ∈ l) } := by
  induction l generalizing x with
  | nil => simp [Core.claimAll]
  | cons r l ih =>
    have step : x.claimAll (r :: l) = (x.updReg r fun g => { g with pend := true }).claimAll l := rfl
    rw [step, ih _ (by rwa [regs_length_updReg]), reg_updReg]
    by_cases e : r = q
    · subst e
      simp [hl, Nat.pos_iff_ne_zero.1 hq]
    · simp [e, Ne.symm e]

theorem mem_entryClaims {x : Core} {addr q : Nat} {g : Group} : q ∈ entryClaims (entered x addr g) ↔
    (∀ n, groupStage g = some n → x.loops.preds.testBit n = true) ∧ q ∈ groupClaims g := by
  unfold entryClaims entered
  cases hs : groupStage g with
  | none => simp
  | some n => cases hb : x.loops.preds.testBit n <;> simp [hb]

/-! ### A line delivered (R14, R44, R97, R102) -/

section
variable (x : Core) (addr : Nat) (words : List Nat) (gs : List Group)

theorem deliver_queue {e : Engine} (he : e ∈ [Engine.v, .m, .y, .f]) : (x.deliver addr words gs x.loops.preds).q.get e =
    x.q.get e ++ (gs.filter fun g => g.engine == e).map (entered x addr) := by
  cases e
  case c => simp at he
  all_goals rfl

theorem deliver_reg {q : Nat} (hq : 0 < q) (hl : q < x.regs.length) : (x.deliver addr words gs x.loops.preds).reg q =
    { x.reg q with pend := (x.reg q).pend || decide (q ∈ (gs.map (entered x addr)).flatMap entryClaims) } :=
  reg_claimAll hq _ x hl

theorem deliver_pend {q : Nat} (hq : 0 < q) (hl : q < x.regs.length) :
    ((x.deliver addr words gs x.loops.preds).reg q).pend = true ↔ (x.reg q).pend = true ∨
      ∃ g ∈ gs, (∀ n, groupStage g = some n → x.loops.preds.testBit n = true) ∧ q ∈ groupClaims g := by
  rw [deliver_reg x addr words gs hq hl]
  simp [mem_entryClaims]

/-- A delivery leaves what a register holds. -/
theorem deliver_held {q : Nat} (hq : 0 < q) (hl : q < x.regs.length) :
    (x.deliver addr words gs x.loops.preds).val q = x.val q ∧ (x.deliver addr words gs x.loops.preds).poisoned q = x.poisoned q := by
  unfold Core.val Core.poisoned
  rw [deliver_reg x addr words gs hq hl]
  exact ⟨rfl, rfl⟩

theorem deliver_loops : (x.deliver addr words gs x.loops.preds).loops = x.loops := claimAll_keeps updReg_loops x _
theorem deliver_k : (x.deliver addr words gs x.loops.preds).k = x.k := claimAll_keeps updReg_k x _
theorem deliver_fl : (x.deliver addr words gs x.loops.preds).fl = x.fl := claimAll_keeps updReg_fl x _

end

/-! ### What holds a line back (R14, R102, R174) -/

/-- The MEET bit (R23). -/
theorem headerMeet_eq (h : Nat) : headerMeet h = h.testBit 31 := by
  rw [Nat.testBit_eq_decide_div_mod_eq]
  rfl

theorem elim_testBit {o : Option Nat} {preds : Nat} :
    o.elim true preds.testBit = true ↔ ∀ q, o = some q → preds.testBit q = true := by
  cases o <;> simp

theorem holdsLine_iff (x : Core) (h : Nat) (gs : List Group) : x.holdsLine h gs x.loops.preds = true ↔ HeldBack x h gs := by
  unfold Core.holdsLine HeldBack
  simp only [Bool.not_and, Bool.or_eq_true, Bool.not_eq_true', Bool.not_eq_false', headerMeet_eq, or_assoc]
  refine or_congr ?_ (or_congr ?_ (or_congr ?_ ?_))
  · simp only [List.all_eq_false, decide_eq_true_eq, Nat.not_le]
  · cases x.ctl.hold <;> simp [List.isEmpty_eq_false_iff]
  · simp only [List.any_eq_true, List.mem_flatMap, List.mem_filter, elim_testBit]
    constructor
    · rintro ⟨r, ⟨g, ⟨hg, hon⟩, hr⟩, hp⟩
      exact ⟨g, hg, hon, r, hr, hp⟩
    · rintro ⟨g, hg, hon, r, hr, hp⟩
      exact ⟨r, ⟨g, ⟨hg, hon⟩, hr⟩, hp⟩
  · simp

/-- A line without groups is illegal (R29). -/
theorem lineGroups_of_legal {h : Nat} {ws : List Nat} {held : Bool} (hf : lineFault h ws held = 0) :
    ∃ gs, lineGroups h ws 1 none [] [] = some gs := by
  cases hg : lineGroups h ws 1 none [] [] with
  | some gs => exact ⟨gs, rfl⟩
  | none =>
    unfold lineFault at hf
    rw [hg] at hf
    dsimp only at hf
    split_ifs at hf

/-! ### The fetch of a line -/

/-- The machine after the read of a line: its bytes touched, its translations cached (R248, R411). -/
def State.lineTouched (s : State) (d c : Nat) (o : XOk) : State :=
  (s.touchPa d o.pa 32 .plain).updCore d c fun x => x.cache o.walked
/-- What the read of a line brings: its bytes and whether one is marked. -/
def State.lineRead (s : State) (d c : Nat) (o : XOk) : List Byte × Bool :=
  (s.lineTouched d c o).coreRead d c o.pa 32 (s.core d c).fl.seq
/-- The eight lanes of a line (R22). -/
def State.fetchedWords (s : State) (d c : Nat) (o : XOk) : List Nat :=
  (List.range 8).map fun i => leNat (((s.lineRead d c o).1.drop (4 * i)).take 4)
/-- The SUB of the line read, 0 where it is legal (R259). -/
def State.lineBad (s : State) (d c : Nat) (o : XOk) : Nat :=
  lineFault ((s.fetchedWords d c o).headD 0) (s.fetchedWords d c o).tail (s.core d c).ctl.hold.isSome

/-- The groups of the line read. -/
def State.fetchedGroups (s : State) (d c : Nat) (o : XOk) : List Group :=
  (lineGroups ((s.fetchedWords d c o).headD 0) (s.fetchedWords d c o).tail 1 none [] []).getD []
/-- A legal line has its groups (R29). -/
theorem lineGroups_fetched {s : State} {d c : Nat} {o : XOk} (hf : s.lineBad d c o = 0) :
    lineGroups ((s.fetchedWords d c o).headD 0) (s.fetchedWords d c o).tail 1 none [] [] = some (s.fetchedGroups d c o) := by
  obtain ⟨gs, hg⟩ := lineGroups_of_legal hf
  rw [State.fetchedGroups, hg, Option.getD_some]

/-- The line read is delivered (R14). -/
def State.lineEnters (s : State) (d c addr : Nat) (o : XOk) : State :=
  (s.lineTouched d c o).updCore d c fun x => x.deliver addr (s.fetchedWords d c o) (s.fetchedGroups d c o) x.loops.preds
/-- A line fetched again, its C lanes standing from the lane and repetition kept (R263). -/
def Refetch.lineOf (f : Refetch) (x : Core) (addr : Nat) (words : List Nat) : LineBuf :=
  ⟨addr, words, f.lane, f.rep, settleDec words f.dec, x.loops.preds, f.rank.getD x.ctl.rank, none⟩
/-- A core that has its line again. -/
def Core.takeAgain (x : Core) (addr : Nat) (words : List Nat) (f : Refetch) : Core :=
  x.setCtl fun t => { t with line := some (f.lineOf x addr words), refetch := none, rank := t.rank + 8 }
/-- The line read brings its C lanes again. -/
def State.lineReturns (s : State) (d c addr : Nat) (o : XOk) (f : Refetch) : State :=
  (s.lineTouched d c o).updCore d c fun x => x.takeAgain addr (s.fetchedWords d c o) f
/-- A legal line read: for its C lanes again, held back, or delivered. -/
def State.lineLegal (s : State) (d c addr : Nat) (o : XOk) : Option Refetch → State
  | some f => s.lineReturns d c addr o f
  | none =>
    if (s.core d c).holdsLine ((s.fetchedWords d c o).headD 0) (s.fetchedGroups d c o) (s.core d c).loops.preds
    then s.lineTouched d c o else s.lineEnters d c addr o

theorem settleDec_of_not_kept {words : List Nat} {dec : Decision} (h : ∀ a b n, dec ≠ .kept a b n) : settleDec words dec = dec := by
  cases dec
  case kept a b n => exact absurd rfl (h a b n)
  all_goals rfl

section
variable {s : State} {d c addr : Nat} {only : Option Refetch}

theorem fetchLine_aperture (ha : 2 ^ 56 - 2 ^ 28 ≤ addr) :
    s.fetchLine d c addr only = fetchTrap s d c 0x0A 0 (BitVec.ofNat 64 addr) addr none false := by
  unfold State.fetchLine
  exact if_pos ha

theorem fetchLine_unmapped {e : XFault} (ha : addr < 2 ^ 56 - 2 ^ 28)
    (ht : s.translate d (s.core d c) (s.core d c).ctl.level .fetch addr = .error e) :
    s.fetchLine d c addr only = fetchTrap s d c 0x0D 0 (BitVec.ofNat 64 e.tval) addr (some e.word) e.stage2 := by
  unfold State.fetchLine
  simp only [if_neg (Nat.not_le.2 ha), ht]
  rfl

variable {o : XOk}

section
variable (hc : s.hasCore d c = true)
include hc

/-- Of the core itself the read of a line changes its cached translations. -/
theorem core_lineTouched : (s.lineTouched d c o).core d c = (s.core d c).cache o.walked := by
  unfold State.lineTouched
  rw [core_updCore_same _ _ _ _ (by rwa [hasCore_touchPa]), core_touchPa]

theorem core_updCore_lineTouched (g : Core → Core) :
    ((s.lineTouched d c o).updCore d c g).core d c = g ((s.core d c).cache o.walked) := by
  rw [core_updCore_same _ _ _ _ (by simpa [State.lineTouched] using hc), core_lineTouched hc]

theorem core_lineEnters : (s.lineEnters d c addr o).core d c = ((s.core d c).cache o.walked).deliver addr (s.fetchedWords d c o)
    (s.fetchedGroups d c o) ((s.core d c).cache o.walked).loops.preds := core_updCore_lineTouched hc _

theorem core_lineReturns (f : Refetch) : (s.lineReturns d c addr o f).core d c =
    ((s.core d c).cache o.walked).takeAgain addr (s.fetchedWords d c o) f := core_updCore_lineTouched hc _

end

variable (ha : addr < 2 ^ 56 - 2 ^ 28) (ht : s.translate d (s.core d c) (s.core d c).ctl.level .fetch addr = .ok o)
include ha ht

theorem fetchLine_busy (hb : s.channelBusy d o.pa 32 = true) : s.fetchLine d c addr only = s := by
  unfold State.fetchLine
  simp only [if_neg (Nat.not_le.2 ha), ht, hb, if_true]

/-- Everything the read of a line can bring: a marked line, an illegal one, or a legal one. -/
theorem fetchLine_read (hc : s.hasCore d c = true) (hb : s.channelBusy d o.pa 32 = false) : s.fetchLine d c addr only =
    if (s.lineRead d c o).2 then fetchTrap (s.lineTouched d c o) d c 0x0E 0 (BitVec.ofNat 64 addr) addr none false
    else if s.lineBad d c o ≠ 0 then fetchTrap (s.lineTouched d c o) d c 0x01 (s.lineBad d c o)
      (BitVec.ofNat 64 ((s.fetchedWords d c o).headD 0)) addr none false
    else s.lineLegal d c addr o only := by
  unfold State.fetchLine fetchTrap
  rw [core_lineTouched hc]
  simp only [if_neg (Nat.not_le.2 ha), ht, hb, Bool.false_eq_true, if_false]
  cases only <;> rfl

variable (hc : s.hasCore d c = true) (hb : s.channelBusy d o.pa 32 = false)
include hc hb

theorem fetchLine_marked (hm : (s.lineRead d c o).2 = true) :
    s.fetchLine d c addr only = fetchTrap (s.lineTouched d c o) d c 0x0E 0 (BitVec.ofNat 64 addr) addr none false := by
  rw [fetchLine_read ha ht hc hb, if_pos hm]

variable (hm : (s.lineRead d c o).2 = false)
include hm

theorem fetchLine_illegal (hf : s.lineBad d c o ≠ 0) : s.fetchLine d c addr only = fetchTrap (s.lineTouched d c o) d c 0x01
    (s.lineBad d c o) (BitVec.ofNat 64 ((s.fetchedWords d c o).headD 0)) addr none false := by
  rw [fetchLine_read ha ht hc hb, if_neg (by simp [hm]), if_pos hf]

variable (hf : s.lineBad d c o = 0)
include hf

theorem fetchLine_legal : s.fetchLine d c addr only = s.lineLegal d c addr o only := by
  rw [fetchLine_read ha ht hc hb, if_neg (by simp [hm]), if_neg (not_not.2 hf)]

theorem fetchLine_held (hh : HeldBack (s.core d c) ((s.fetchedWords d c o).headD 0) (s.fetchedGroups d c o)) :
    s.fetchLine d c addr none = s.lineTouched d c o :=
  (fetchLine_legal ha ht hc hb hm hf).trans (if_pos ((holdsLine_iff _ _ _).2 hh))

theorem fetchLine_enters (hh : ¬ HeldBack (s.core d c) ((s.fetchedWords d c o).headD 0) (s.fetchedGroups d c o)) :
    s.fetchLine d c addr none = s.lineEnters d c addr o :=
  (fetchLine_legal ha ht hc hb hm hf).trans (if_neg fun k => hh ((holdsLine_iff _ _ _).1 k))

end

/-! ### The step, where the core stands (R14, R122, R400) -/

section
variable {s : State} {d c : Nat}

theorem exec_lineDelivery : exec (.lineDelivery d c) s = execLineDelivery d c s := rfl

theorem lineDelivery_still (h : (s.core d c).fetches = false) : exec (.lineDelivery d c) s = .next s := by
  simp [exec_lineDelivery, execLineDelivery, h]

variable (hx : (s.core d c).fetches = true)
include hx

section
variable {l : LineBuf} (hl : (s.core d c).ctl.line = some l)
include hl

/-- A line with a C lane still to issue, or standing under STEP until its stop. -/
theorem lineDelivery_stands (h : l.done = false ∨ ((s.core d c).stepDone = true ∧ (s.core d c).ctl.hold = none)) :
    exec (.lineDelivery d c) s = .next s := by
  rcases h with h | ⟨h, k⟩
  · simp [exec_lineDelivery, execLineDelivery, hx, hl, h]
  · simp [exec_lineDelivery, execLineDelivery, hx, hl, h, k]

theorem lineDelivery_done (h : l.done = true) (k : (s.core d c).stepDone = false ∨ (s.core d c).ctl.hold ≠ none) :
    exec (.lineDelivery d c) s = .next ((s.resolveLine d c l).nextFetch d c) := by
  rcases k with k | k
  · simp [exec_lineDelivery, execLineDelivery, hx, hl, h, k]
  · simp [exec_lineDelivery, execLineDelivery, hx, hl, h, Option.isSome_iff_ne_none.2 k]

end

variable (hl : (s.core d c).ctl.line = none)

omit hx in
include hl in
/-- Between lines a delivery is the fetch of the next line, which does nothing at a core that does not fetch. -/
theorem lineDelivery_between : exec (.lineDelivery d c) s = .next (s.nextFetch d c) := by
  cases hf : (s.core d c).fetches with
  | false => simp [exec_lineDelivery, execLineDelivery, State.nextFetch, hf]
  | true => simp [exec_lineDelivery, execLineDelivery, hf, hl]

theorem nextFetch_again {f : Refetch} (hr : (s.core d c).ctl.refetch = some f) :
    s.nextFetch d c = s.fetchLine d c f.line (some f) := by
  simp [State.nextFetch, hx, hr]

variable (hr : (s.core d c).ctl.refetch = none)
include hr

theorem nextFetch_breaks (h : (s.core d c).breaks (s.core d c).ctl.nextLine = true) :
    s.nextFetch d c = s.updCore d c Core.hitBreak := by
  simp [State.nextFetch, hx, hr, h]

theorem nextFetch_waits (h : (s.core d c).breaks (s.core d c).ctl.nextLine = false) (k : (s.core d c).breakHeld = true) :
    s.nextFetch d c = s := by
  simp [State.nextFetch, hx, hr, h, k]

theorem nextFetch_line (h : (s.core d c).breaks (s.core d c).ctl.nextLine = false) (k : (s.core d c).breakHeld = false) :
    s.nextFetch d c = s.fetchLine d c (s.core d c).ctl.nextLine none := by
  simp [State.nextFetch, hx, hr, h, k]

end

/-- A breakpoint matches a line: it is on, names the line, and the line has not been checked (R400). -/
theorem breaks_iff {x : Core} {addr : Nat} : x.breaks addr = true ↔ x.ctl.hold = none ∧ x.ctl.brkDone = false ∧
    ∃ i ∈ [1, 2], x.x.kdbgc.getLsbD i = true ∧ field (if i = 1 then x.x.kbrk0 else x.x.kbrk1) 55 5 = addr / 32 := by
  simp [Core.breaks, bitOf, fieldOf, bitField, field, BitVec.getLsbD, and_assoc]

theorem breakHeld_iff {x : Core} : x.breakHeld = true ↔ x.ctl.hold = none ∧ x.ctl.brkDone = true ∧
    ∃ r ∈ x.ctl.stops, r.reason = 2 ∧ r.wait ≤ 1 := by
  simp [Core.breakHeld, and_assoc]

/-- A core between two lines fetches its next line. -/
theorem lineDelivery_fetch {s : State} {d c : Nat} (h : Between (s.core d c)) :
    exec (.lineDelivery d c) s = .next (s.fetchLine d c (s.core d c).ctl.nextLine none) := by
  have hb : (s.core d c).breaks (s.core d c).ctl.nextLine = false := by
    rw [Bool.eq_false_iff, ne_eq, breaks_iff]
    rintro ⟨hh, hd, i, hi, hk, he⟩
    exact h.breaks i hi hh hd hk he
  have hw : (s.core d c).breakHeld = false := by
    rw [Bool.eq_false_iff, ne_eq, breakHeld_iff]
    rintro ⟨hh, hd, r, hr, he⟩
    exact h.stops hh hd r hr he
  rw [lineDelivery_between h.line, nextFetch_line h.fetches h.refetch hb hw]

/-- Settles O42: each clause is the outcome of a fetch, or of a core that stands where it says. -/
theorem linesAreDelivered : Obligations.LinesAreDelivered := by
  unfold Obligations.LinesAreDelivered
  intro s d c hc
  refine ⟨lineDelivery_still, ?inWork, ?breakpoint, ?between, ?again⟩
  case inWork =>
    intro l hx hl
    refine ⟨lineDelivery_stands hx hl, fun hd hk => ?_⟩
    have hn : ((s.resolveLine d c l).core d c).ctl.line = none := by
      rw [core_resolveLine hc]
      rfl
    have he := lineDelivery_done hx hl hd hk
    exact ⟨he.trans (lineDelivery_between hn).symm, _, he⟩
  case breakpoint =>
    intro hx hl hr hh
    rw [lineDelivery_between hl]
    refine ⟨fun hd hk => ?_, fun hd hk => ?_⟩
    · rw [nextFetch_breaks hx hr (breaks_iff.2 ⟨hh, hd, hk⟩)]
      rfl
    · rw [nextFetch_waits hx hr (by simp [Core.breaks, hd]) (breakHeld_iff.2 ⟨hh, hd, hk⟩)]
  case between =>
    intro hbt
    rw [lineDelivery_fetch hbt]
    refine ⟨fun ha => congrArg _ (fetchLine_aperture ha), fun e ha ht => congrArg _ (fetchLine_unmapped ha ht), fun o ha ht => ?_⟩
    refine ⟨fun hb => congrArg _ (fetchLine_busy ha ht hb), fun hb hm => congrArg _ (fetchLine_marked ha ht hc hb hm),
      fun hb hm => ⟨fun hf => congrArg _ (fetchLine_illegal ha ht hc hb hm hf), fun hf => ?_⟩⟩
    refine ⟨_, lineGroups_fetched hf, fun hh => congrArg _ (fetchLine_held ha ht hc hb hm hf hh), fun hh =>
      ⟨_, congrArg _ (fetchLine_enters ha ht hc hb hm hf hh), ?_⟩⟩
    dsimp only
    rw [core_lineEnters hc]
    refine ⟨rfl, rfl, fun e he => deliver_queue _ _ _ _ he, fun hl q hq hq' => ?_, deliver_loops .., deliver_k .., deliver_fl ..⟩
    have hlt : q < ((s.core d c).cache o.walked).regs.length := hl ▸ hq'
    obtain ⟨hv, hp⟩ := deliver_held _ (s.core d c).ctl.nextLine (s.fetchedWords d c o) (s.fetchedGroups d c o) hq hlt
    exact ⟨hv, hp, deliver_pend _ _ _ _ hq hlt⟩
  case again =>
    intro f o hx hl hr ha ht hb
    rw [lineDelivery_between hl, nextFetch_again hx hr]
    refine ⟨fun hm => congrArg _ (fetchLine_marked ha ht hc hb hm), fun hm hf => congrArg _ (fetchLine_illegal ha ht hc hb hm hf),
      fun hm hf => ⟨s.lineReturns d c f.line o f, f.lineOf ((s.core d c).cache o.walked) f.line (s.fetchedWords d c o),
        congrArg _ (fetchLine_legal ha ht hc hb hm hf), ?_⟩⟩
    rw [core_lineReturns hc]
    exact ⟨rfl, rfl, rfl, rfl, rfl, settleDec_of_not_kept, rfl, rfl, rfl, rfl⟩

end Sys2Proof.Machine
end

section
/-!
PROOF. KAMASK after reset (R374): the mask of the package with all its dies active, and above it the die's rank among them.
-/
namespace Sys2Proof.Machine
open Sys2Proof Sys2Proof.Safety

/-- All eight dies are active after reset, so a die's rank is its number. -/
theorem kamask_reset {d : Nat} (hd : d < 8) (c : Nat) : State.reset.readK d c .kamask = BitVec.ofNat 64 (d * 256 + 0xFF) := by
  have h : ∀ d < 8, State.reset.kamask d = BitVec.ofNat 64 (d * 256 + 0xFF) := by decide
  exact h d hd

/-- Refutes O57: on die 1 KAMASK reads 0x1FF, the die's RANK 1 in bits [10:8] above the MASK 0xFF (R374), where the statement has
0xFF on every die. -/
theorem not_resetLeaves : ¬ Obligations.ResetLeaves := by
  unfold Obligations.ResetLeaves
  rintro ⟨-, -, hcores, -⟩
  obtain ⟨-, -, hregs⟩ := hcores 1 0 (by decide) (by decide)
  have h : State.reset.readK 1 0 .kamask = 0xFF := hregs 0x075 .kamask rfl (by decide) (by decide)
  rw [kamask_reset (by decide)] at h
  exact absurd h (by decide)

end Sys2Proof.Machine
end

section
/-!
PROOF. The scalar formats (R79): a finite code is a binade and a coefficient, `cvt` (R90) gives a representable value its own
code, and rounding toward zero (R88) never gives a greater magnitude.
-/
namespace Sys2Proof.Machine
open Sys2Proof Sys2Proof.Safety

/-! ### A format of R79 -/

/-- What the rows of the table of R79 have in common: the finite magnitude codes are those up to the largest, which lies in the
top binade, and there is a canonical NaN. -/
structure Fmt.Scalar (f : Fmt) : Prop where
  width : 0 < f.w ∧ f.w ≤ 32
  finite_iff : ∀ g, g < 2 ^ (f.w - 1) → (g ≤ f.top ↔ f.isNanMag g = false ∧ f.inf ≠ some g)
  top_lt : f.top < 2 ^ (f.w - 1)
  top_binade : (f.emax - f.emin).toNat * 2 ^ f.man + 2 ^ f.man ≤ f.top ∧
    f.top < (f.emax - f.emin).toNat * 2 ^ f.man + 2 ^ (f.man + 1)
  emin_le : f.emin ≤ f.emax
  nan_some : ∃ n, f.nan = some n ∧ n < 2 ^ 32

theorem scalar_of_floatFmt {tag : Nat} {f : Fmt} (h : floatFmt tag = some f) : f.Scalar := by
  unfold floatFmt at h
  split at h <;> cases h <;>
    refine ⟨by decide, fun g hg => ?_, by decide, by decide, by decide, _, rfl, by decide⟩ <;>
    simp only [Fmt.isNanMag, fmtFp32, fmtBf16, fmtFp16, fmtE4, fmtE5, Option.some.injEq, ne_eq, decide_eq_false_iff_not,
      beq_eq_false_iff_ne, reduceCtorEq, not_false_eq_true, and_true] at hg ⊢ <;> omega

/-! ### Signed codes -/

section
variable {f : Fmt}

/-- A code's sign bit and magnitude are those it was made of. -/
theorem code_parts {g : Nat} (hg : g < 2 ^ (f.w - 1)) (neg : Bool) :
    (f.code neg g).testBit (f.w - 1) = neg ∧ f.code neg g % 2 ^ (f.w - 1) = g := by
  unfold Fmt.code
  cases neg with
  | false => exact ⟨Nat.testBit_lt_two_pow hg, Nat.mod_eq_of_lt hg⟩
  | true =>
    rw [if_pos rfl, Nat.add_comm, Nat.testBit_two_pow_add_eq, Nat.testBit_lt_two_pow hg, Nat.add_mod_left]
    exact ⟨rfl, Nat.mod_eq_of_lt hg⟩

theorem code_lt (hw : 0 < f.w) {g : Nat} (hg : g < 2 ^ (f.w - 1)) (neg : Bool) : f.code neg g < 2 ^ f.w := by
  have hp : 2 ^ f.w = 2 ^ (f.w - 1) + 2 ^ (f.w - 1) := by
    rw [← Nat.two_mul, Nat.mul_comm, ← Nat.pow_succ, Nat.succ_eq_add_one, Nat.sub_add_cancel hw]
  unfold Fmt.code
  split <;> omega

/-! ### Binade and coefficient of a finite code -/

/-- How many binades a magnitude code lies above the lowest; subnormals lie in the lowest, with the smallest normals. -/
def Fmt.binade (f : Fmt) (g : Nat) : Nat := g / 2 ^ f.man - 1
/-- Its coefficient at the step of its binade. -/
def Fmt.coef (f : Fmt) (g : Nat) : Nat := g - f.binade g * 2 ^ f.man

theorem binade_coef (f : Fmt) (g : Nat) : f.binade g * 2 ^ f.man + f.coef g = g ∧
    f.coef g < 2 ^ (f.man + 1) ∧ (f.binade g = 0 ∨ 2 ^ f.man ≤ f.coef g) := by
  have hp : 0 < 2 ^ f.man := Nat.two_pow_pos _
  unfold Fmt.coef Fmt.binade
  rw [Nat.pow_succ]
  rcases Nat.lt_or_ge g (2 ^ f.man) with hlt | hge
  · rw [Nat.div_eq_of_lt hlt, Nat.zero_sub, Nat.zero_mul]
    omega
  · obtain ⟨x, hx⟩ := Nat.exists_eq_succ_of_ne_zero (Nat.div_pos hge hp).ne'
    have hd := Nat.div_add_mod' g (2 ^ f.man)
    have hm := Nat.mod_lt g hp
    rw [hx, Nat.succ_mul] at hd
    rw [hx, Nat.succ_sub_one]
    omega
/-- Binade and coefficient determine the code they come from. -/
theorem binade_coef_eq {j k : Nat} (hk : k < 2 ^ (f.man + 1)) (hj : j = 0 ∨ 2 ^ f.man ≤ k) :
    f.binade (j * 2 ^ f.man + k) = j ∧ f.coef (j * 2 ^ f.man + k) = k := by
  have hp : 0 < 2 ^ f.man := Nat.two_pow_pos _
  have hb : f.binade (j * 2 ^ f.man + k) = j := by
    unfold Fmt.binade
    rw [Nat.mul_comm, Nat.mul_add_div hp]
    rw [Nat.pow_succ] at hk
    have h2 : k / 2 ^ f.man < 2 := Nat.div_lt_of_lt_mul hk
    rcases hj with rfl | hj
    · omega
    · have := Nat.div_pos hj hp
      omega
  exact ⟨hb, by rw [Fmt.coef, hb]; omega⟩

variable (hs : f.Scalar)
include hs

/-- The value of a finite code (R79), flushed or not (R93). -/
theorem value_finite {c : Nat} (hg : c % 2 ^ (f.w - 1) ≤ f.top) (ftz : Bool) :
    f.value ftz c = if ftz && f.flush && decide (c % 2 ^ (f.w - 1) < 2 ^ f.man) then .zero (c.testBit (f.w - 1))
      else .fin (c.testBit (f.w - 1)) (f.coef (c % 2 ^ (f.w - 1))) (f.emin - f.man + f.binade (c % 2 ^ (f.w - 1))) := by
  obtain ⟨hn, hi⟩ := (hs.finite_iff _ (Nat.mod_lt _ (Nat.two_pow_pos _))).1 hg
  unfold Fmt.value
  simp only [hn, hi, Bool.false_eq_true, if_false]
  generalize c % 2 ^ (f.w - 1) = g
  have hp : 0 < 2 ^ f.man := Nat.two_pow_pos _
  have hd := Nat.div_add_mod' g (2 ^ f.man)
  by_cases hx : g / 2 ^ f.man = 0
  · have hlt : g < 2 ^ f.man := by simpa [Nat.div_eq_zero_iff, hp.ne'] using hx
    simp [hx, hlt, Fmt.coef, Fmt.binade]
  · obtain ⟨x, hx'⟩ := Nat.exists_eq_succ_of_ne_zero hx
    have hge : ¬ g < 2 ^ f.man := fun h => hx (Nat.div_eq_of_lt h)
    rw [hx', Nat.succ_mul] at hd
    have hc : 2 ^ f.man + g % 2 ^ f.man = f.coef g := by
      simp only [Fmt.coef, Fmt.binade, hx', Nat.succ_sub_one]; omega
    have he : f.emin - f.man + ((x + 1 : Nat) : Int) - 1 = f.emin - f.man + f.binade g := by
      simp only [Fmt.binade, hx', Nat.succ_sub_one]; omega
    simp only [hx', Nat.succ_eq_add_one, Nat.add_one_ne_zero, if_false, hge, decide_false, Bool.and_false,
      Bool.false_eq_true, hc, he]
/-- The value of a made code, without flushing. -/
theorem value_code {g : Nat} (hg : g ≤ f.top) (neg : Bool) :
    f.value false (f.code neg g) = .fin neg (f.coef g) (f.emin - f.man + f.binade g) := by
  obtain ⟨h1, h2⟩ := code_parts (Nat.lt_of_le_of_lt hg hs.top_lt) neg
  rw [value_finite hs (by rwa [h2]), h1, h2]
  simp

/-! ### Conversion (R90) -/

omit hs in
theorem floorLog_one {n : Nat} (hn : n ≠ 0) (e : Int) : floorLog n 1 e = n.log2 + e := by
  have : ¬ n < 2 ^ n.log2 := Nat.not_lt.2 (Nat.log2_self_le hn)
  have h1 : Nat.log2 1 = 0 := rfl
  simp [floorLog, h1, this]

/-- How many binades above the lowest `cvt` rounds n × 2^e. -/
def Fmt.roundBinade (f : Fmt) (n : Nat) (e : Int) : Nat := (min (max (n.log2 + e) f.emin) f.emax - f.emin).toNat
/-- The magnitude code that `cvt` rounds n × 2^e to, before it looks at the largest. -/
def Fmt.rounded (f : Fmt) (rnd : Rnd) (neg : Bool) (r n : Nat) (e : Int) : Nat :=
  f.roundBinade n e * 2 ^ f.man + roundGrid rnd neg r n 1 e (f.emin - f.man + f.roundBinade n e)

variable {md : Mode} {r n : Nat} {neg : Bool} {e : Int} (hn : n ≠ 0)
include hn

theorem roundStep_eq : min (max (floorLog n 1 e) f.emin) f.emax - f.man = f.emin - f.man + f.roundBinade n e := by
  have hle := hs.emin_le
  rw [floorLog_one hn, Fmt.roundBinade]
  omega
/-- A code within the format stands, unless it is flushed. -/
theorem cvtMag_within {g : Nat} (hg : f.rounded md.rnd neg r n e = g) (ht : g ≤ f.top)
    (hf : (md.ftz && f.flush && decide (0 < g ∧ g < 2 ^ f.man)) = false) : f.cvtMag md r neg n 1 e = (f.code neg g, 0) := by
  unfold Fmt.rounded at hg
  simp only [Fmt.cvtMag, roundStep_eq hs hn, add_sub_cancel_left, Int.toNat_natCast, hg, if_neg (Nat.not_lt.2 ht), hf,
    Bool.false_eq_true, if_false]
/-- Under `rtz` a code beyond the largest becomes the largest. -/
theorem cvtMag_rtz (hm : md.rnd = .rtz) (hz : md.ftz = false) :
    (f.cvtMag md r neg n 1 e).1 = f.code neg (min (f.rounded .rtz neg r n e) f.top) := by
  by_cases ht : f.rounded .rtz neg r n e ≤ f.top
  · rw [Nat.min_eq_left ht, cvtMag_within hs hn (hm ▸ rfl) ht (by simp [hz])]
  · have hg : f.top < f.rounded .rtz neg r n e := Nat.not_le.1 ht
    rw [Nat.min_eq_right hg.le]
    unfold Fmt.rounded at hg
    simp only [Fmt.cvtMag, roundStep_eq hs hn, add_sub_cancel_left, Int.toNat_natCast, hm, if_pos hg]
    cases f.inf <;> simp

/-! ### A representable value keeps its code -/

omit hs hn in
theorem roundGrid_exact (rnd : Rnd) (k : Nat) (u : Int) : roundGrid rnd neg r k 1 u u = k := by
  simp [roundGrid, Nat.mod_one]

end

theorem coef_pos {f : Fmt} {g : Nat} (hg : g ≠ 0) : f.coef g ≠ 0 := by
  obtain ⟨h1, -, h3⟩ := binade_coef f g
  have hp : 0 < 2 ^ f.man := Nat.two_pow_pos _
  rcases h3 with h | h
  · rw [h, Nat.zero_mul] at h1; omega
  · omega

section
variable {f : Fmt} (hs : f.Scalar)
include hs

/-- The coefficient of a finite code, at its step, rounds in its own binade. -/
theorem roundBinade_coef {g : Nat} (hg : g ≠ 0) (ht : g ≤ f.top) :
    f.roundBinade (f.coef g) (f.emin - f.man + f.binade g) = f.binade g := by
  obtain ⟨h1, h2, h3⟩ := binade_coef f g
  have hlt := (Nat.log2_lt (coef_pos hg)).2 h2
  have hspan : f.binade g ≤ (f.emax - f.emin).toNat := by
    by_contra hc
    have := Nat.mul_le_mul_right (2 ^ f.man) (Nat.not_le.1 hc)
    have := hs.top_binade.2
    rw [Nat.pow_succ] at this
    rw [Nat.succ_mul] at *
    omega
  have hle := hs.emin_le
  unfold Fmt.roundBinade
  rcases h3 with h | h
  · rw [h]; omega
  · have := (Nat.le_log2 (coef_pos hg)).2 h
    omega
theorem rounded_coef {g : Nat} (hg : g ≠ 0) (ht : g ≤ f.top) (rnd : Rnd) (neg : Bool) (r : Nat) :
    f.rounded rnd neg r (f.coef g) (f.emin - f.man + f.binade g) = g := by
  rw [Fmt.rounded, roundBinade_coef hs hg ht, roundGrid_exact, (binade_coef f g).1]

/-- `cvt` of a finite code's value (R88, R90, R93). -/
theorem cvt_value_finite {c : Nat} (ht : c % 2 ^ (f.w - 1) ≤ f.top) (m : Mode) (r : Nat) :
    f.cvt m r (f.value m.ftz c) = (f.code (c.testBit (f.w - 1))
      (if m.ftz && f.flush && decide (c % 2 ^ (f.w - 1) < 2 ^ f.man) then 0 else c % 2 ^ (f.w - 1)), 0) := by
  rw [value_finite hs ht]
  generalize c % 2 ^ (f.w - 1) = g at ht ⊢
  by_cases hf : (m.ftz && f.flush && decide (g < 2 ^ f.man)) = true
  · simp only [hf, if_true]
    rfl
  · simp only [hf, Bool.false_eq_true, if_false]
    by_cases hg : g = 0
    · subst hg
      simp [Fmt.cvt, Fmt.coef]
    · simp only [Fmt.cvt, if_neg (coef_pos hg)]
      refine cvtMag_within hs (coef_pos hg) (rounded_coef hs hg ht ..) ht ?_
      simpa [Nat.pos_of_ne_zero hg] using hf

/-- The value of a code converted into its own format (R79, R80, R90, R93). -/
theorem cvt_value {c : Nat} (hc : c < 2 ^ f.w) (m : Mode) (r : Nat) :
    f.cvt m r (f.value m.ftz c) = ((withSign f m (c.testBit (f.w - 1)) (BitVec.ofNat 32 c)).toNat, 0) := by
  have hw : 2 ^ f.w ≤ 2 ^ 32 := Nat.pow_le_pow_right (by decide) hs.width.2
  have hc32 : (BitVec.ofNat 32 c).toNat = c := BitVec.toNat_ofNat .. ▸ Nat.mod_eq_of_lt (hc.trans_le hw)
  obtain ⟨n, hn, hn32⟩ := hs.nan_some
  have hg := Nat.mod_lt c (Nat.two_pow_pos (f.w - 1))
  have code32 : ∀ neg g, g < 2 ^ (f.w - 1) → (BitVec.ofNat 32 (f.code neg g)).toNat = f.code neg g := fun neg g h =>
    BitVec.toNat_ofNat .. ▸ Nat.mod_eq_of_lt ((code_lt hs.width.1 h neg).trans_le hw)
  unfold withSign
  simp only [hc32]
  by_cases hnan : f.isNanMag (c % 2 ^ (f.w - 1)) = true
  · simp [Fmt.value, hnan, Fmt.cvt, hn, Nat.mod_eq_of_lt (show n < 4294967296 from hn32)]
  · simp only [hnan, Bool.false_eq_true, if_false]
    by_cases hinf : f.inf = some (c % 2 ^ (f.w - 1))
    · have hbig : ¬ c % 2 ^ (f.w - 1) < 2 ^ f.man := fun h => by
        have := (hs.finite_iff _ hg).1 ((h.le.trans (Nat.le_add_left ..)).trans hs.top_binade.1)
        exact this.2 hinf
      simp [Fmt.value, hnan, hinf, Fmt.cvt, hbig, code32 _ _ hg]
    · have ht := (hs.finite_iff _ hg).2 ⟨by simpa using hnan, hinf⟩
      rw [cvt_value_finite hs ht, code32]
      split
      · exact Nat.two_pow_pos _
      · exact hg

end

/-! ### Rounding toward zero -/

section
variable {n m : Nat} {e u : Int}

theorem roundGrid_rtz (neg : Bool) (r n : Nat) (e u : Int) :
    roundGrid .rtz neg r n 1 e u = n * 2 ^ (e - u).toNat / 2 ^ (u - e).toNat := by
  simp [roundGrid]

/-- k × 2^u is not above n × 2^e where k is not above the quotient on the grid of u. -/
theorem cmp_ne_gt {k : Nat} (h : k ≤ n * 2 ^ (e - u).toNat / 2 ^ (u - e).toNat) :
    (Num.fin false k u).cmp (.fin false n e) ≠ .gt := by
  have hk := (Nat.le_div_iff_mul_le (Nat.two_pow_pos _)).1 h
  have h1 : (u - min u e).toNat = (u - e).toNat := by omega
  have h2 : (e - min u e).toNat = (e - u).toNat := by omega
  simp only [Num.cmp, coefAt, Bool.false_eq_true, if_false, h1, h2, ne_eq, compare_gt_iff_gt, not_lt]
  exact_mod_cast hk

/-- The quotient on the grid of u reaches 2^m where the value does, and not before. -/
theorem two_pow_le_grid (hn : n ≠ 0) (h : u + m ≤ n.log2 + e) : 2 ^ m ≤ n * 2 ^ (e - u).toNat / 2 ^ (u - e).toNat := by
  rw [Nat.le_div_iff_mul_le (Nat.two_pow_pos _), ← Nat.pow_add]
  calc 2 ^ (m + (u - e).toNat) ≤ 2 ^ (n.log2 + (e - u).toNat) := Nat.pow_le_pow_right (by decide) (by omega)
    _ = 2 ^ n.log2 * 2 ^ (e - u).toNat := Nat.pow_add ..
    _ ≤ n * 2 ^ (e - u).toNat := Nat.mul_le_mul_right _ (Nat.log2_self_le hn)
theorem grid_lt_two_pow (h : n.log2 + e < u + m) : n * 2 ^ (e - u).toNat / 2 ^ (u - e).toNat < 2 ^ m := by
  rw [Nat.div_lt_iff_lt_mul (Nat.two_pow_pos _), ← Nat.pow_add]
  calc n * 2 ^ (e - u).toNat < 2 ^ (n.log2 + 1) * 2 ^ (e - u).toNat :=
        Nat.mul_lt_mul_of_pos_right Nat.lt_log2_self (Nat.two_pow_pos _)
    _ = 2 ^ (n.log2 + 1 + (e - u).toNat) := (Nat.pow_add ..).symm
    _ ≤ 2 ^ (m + (u - e).toNat) := Nat.pow_le_pow_right (by decide) (by omega)

end

section
variable {f : Fmt} (hs : f.Scalar)
include hs

/-- The code that `rtz` gives has the binade it was rounded in and no greater coefficient: it is cut only in the top binade. -/
theorem rtz_code {n : Nat} (hn : n ≠ 0) (neg : Bool) (r : Nat) (e : Int) :
    let g := min (f.rounded .rtz neg r n e) f.top
    f.binade g = f.roundBinade n e ∧ f.coef g ≤ roundGrid .rtz neg r n 1 e (f.emin - f.man + f.roundBinade n e) := by
  have hle := hs.emin_le
  obtain ⟨ht, ht'⟩ := hs.top_binade
  have hj : f.roundBinade n e ≤ (f.emax - f.emin).toNat := by unfold Fmt.roundBinade; omega
  have hlow : f.roundBinade n e = 0 ∨ 2 ^ f.man ≤ roundGrid .rtz neg r n 1 e (f.emin - f.man + f.roundBinade n e) := by
    refine or_iff_not_imp_left.2 fun h0 => ?_
    rw [roundGrid_rtz]
    refine two_pow_le_grid hn ?_
    unfold Fmt.roundBinade at h0 ⊢
    omega
  have hhigh : f.roundBinade n e < (f.emax - f.emin).toNat →
      roundGrid .rtz neg r n 1 e (f.emin - f.man + f.roundBinade n e) < 2 ^ (f.man + 1) := fun h => by
    rw [roundGrid_rtz]
    refine grid_lt_two_pow ?_
    unfold Fmt.roundBinade at h ⊢
    push_cast
    omega
  dsimp only
  unfold Fmt.rounded
  generalize roundGrid .rtz neg r n 1 e (f.emin - f.man + f.roundBinade n e) = k at *
  generalize f.roundBinade n e = j at *
  rcases hj.lt_or_eq with hj | rfl
  · have hk := hhigh hj
    have hb : j * 2 ^ f.man + k ≤ f.top := by
      have := Nat.mul_le_mul_right (2 ^ f.man) (Nat.succ_le_of_lt hj)
      rw [Nat.succ_mul] at this
      rw [Nat.pow_succ] at hk
      omega
    rw [Nat.min_eq_left hb, (binade_coef_eq hk hlow).1, (binade_coef_eq hk hlow).2]
    exact ⟨rfl, le_rfl⟩
  · obtain ⟨k', hk'⟩ : ∃ k', min ((f.emax - f.emin).toNat * 2 ^ f.man + k) f.top = (f.emax - f.emin).toNat * 2 ^ f.man + k' :=
      Nat.exists_eq_add_of_le (le_min (Nat.le_add_right ..) (by omega))
    have hb := binade_coef_eq (f := f) (j := (f.emax - f.emin).toNat) (k := k') (by omega) (by omega)
    rw [hk', hb.1, hb.2]
    exact ⟨rfl, by omega⟩

/-- Under `rtz` and without flushing, a finite value keeps its sign and gains no magnitude (R88, R90). -/
theorem rtz_no_greater {m : Mode} (hm : m.rnd = .rtz) (hz : m.ftz = false) (r : Nat) (neg : Bool) (n : Nat) (e : Int) :
    (f.value false (f.cvt m r (.fin neg n e)).1).abs.cmp (.fin false n e) ≠ .gt ∧
      (f.value false (f.cvt m r (.fin neg n e)).1).sign = neg := by
  by_cases hn : n = 0
  · subst hn
    rw [show (f.cvt m r (.fin neg 0 e)).1 = f.code neg 0 from rfl, value_code hs (Nat.zero_le _)]
    exact ⟨cmp_ne_gt (by simp [Fmt.coef]), rfl⟩
  · obtain ⟨hb, hk⟩ := rtz_code hs hn neg r e
    rw [show f.cvt m r (.fin neg n e) = f.cvtMag m r neg n 1 e from if_neg hn, cvtMag_rtz hs hn hm hz,
      value_code hs (Nat.min_le_right ..), hb]
    exact ⟨cmp_ne_gt (roundGrid_rtz .. ▸ hk), rfl⟩

end

/-- Settles O25: a finite code is a coefficient in the binade that `cvt` rounds its value in, where the grid is exact; under `rtz`
the coefficient is a quotient rounded down. -/
theorem formatsHoldTheirValues : Obligations.FormatsHoldTheirValues := by
  unfold Obligations.FormatsHoldTheirValues
  intro tag f hf m r
  have hs := scalar_of_floatFmt hf
  exact ⟨fun c hc => cvt_value hs hc m r, fun neg n e hm hz => rtz_no_greater hs hm hz r neg n e⟩

end Sys2Proof.Machine
end

section
/-!
PROOF. Register writes as rows of their own: which values each register's rule rejects (R86, R165, R175, R240, R251, R268, R374,
R394, R395, R399), and that a row ends in the illegal-instruction fault exactly for those (R260).
-/
namespace Sys2Proof.Machine
open Sys2Proof Sys2Proof.Safety

variable {s : State} {d c : Nat} {v : W64}

/-! ### How a row ends -/

theorem rowFault_eq (s : State) (d c cause : Nat) :
    s.rowFault d c cause = .next (trappedAt s d c cause (BitVec.ofNat 64 s.cur.word)) := by
  unfold State.rowFault State.faultHere trappedAt
  cases s.cur.engine <;> rfl

/-- A rejected value is the illegal-instruction fault whatever the level; any other, below the register's level, the privilege
fault (R260). -/
theorem rowWrite_ends {k : KName} {bad : Prop} (h : s.writeK d c k v = .illegal ↔ bad) :
    (bad → s.rowWrite d c k v = .next (trappedAt s d c 0x02 (BitVec.ofNat 64 s.cur.word))) ∧
    (¬ bad → (s.core d c).ctl.level < k.writeLevel →
      s.rowWrite d c k v = .next (trappedAt s d c 0x12 (BitVec.ofNat 64 s.cur.word))) := by
  rw [← h]
  refine ⟨fun hb => ?_, fun hb hl => ?_⟩
  · simp only [State.rowWrite, State.writeAt, hb, rowFault_eq]
  · have hp : s.writeAt d c k v = .privilege := by
      unfold State.writeAt
      split
      · contradiction
      · exact if_pos hl
    simp only [State.rowWrite, hp, rowFault_eq]

/-- A value that the rule does not reject. -/
theorem rowWrite_low {k : KName} (h : s.writeK d c k v ≠ .illegal) (hl : (s.core d c).ctl.level < k.writeLevel) :
    s.rowWrite d c k v = .next (trappedAt s d c 0x12 (BitVec.ofNat 64 s.cur.word)) :=
  (rowWrite_ends (iff_false_intro h)).2 not_false hl

/-! ### What each register rejects -/

theorem ite_illegal {p : Prop} [Decidable p] {o : WriteOut} :
    (if p then WriteOut.illegal else o) = .illegal ↔ p ∨ o = .illegal := by split <;> simp [*]
theorem ite_wait {p : Prop} [Decidable p] {o : WriteOut} :
    (if p then WriteOut.wait else o) = .illegal ↔ ¬ p ∧ o = .illegal := by split <;> simp [*]

/-- What `KName.rejects` covers comes first. -/
theorem writeK_rejects {k : KName} (h : k.rejects v (fieldOf (s.core d c).k.kbasin 44 32) = true) :
    s.writeK d c k v = .illegal := if_pos h

theorem kctxSave_ne_illegal : s.kctxSave d c ≠ .illegal := by simp [State.kctxSave, ite_eq_iff]
theorem kctxRestore_ne_illegal : s.kctxRestore d c ≠ .illegal := by simp [State.kctxRestore, ite_eq_iff]
theorem kctxRelease_ne_illegal : s.kctxRelease d c ≠ .illegal := by simp [State.kctxRelease]
/-- KCTX rejects the reserved operations alone (R268). -/
theorem writeK_kctx (h : fieldOf v 2 0 < 4) : s.writeK d c .kctx v ≠ .illegal := by
  have hw : s.writeK d c .kctx v = s.writeKctx d c v := if_neg (by simpa [KName.rejects] using h)
  rw [hw]
  obtain e | e | e | e : fieldOf v 2 0 = 0 ∨ fieldOf v 2 0 = 1 ∨ fieldOf v 2 0 = 2 ∨ fieldOf v 2 0 = 3 := by omega
  all_goals simp [State.writeKctx, e, kctxSave_ne_illegal, kctxRestore_ne_illegal, kctxRelease_ne_illegal]

theorem xinvAll_ne_illegal : s.xinvAll d c ≠ .illegal := by simp [State.xinvAll, ite_eq_iff]
theorem xinvOne_ne_illegal {va : Nat} : s.xinvOne d c va ≠ .illegal := by simp [State.xinvOne, ite_eq_iff]
theorem xinvStage2_ne_illegal : s.xinvStage2 d c ≠ .illegal := by simp [State.xinvStage2, ite_eq_iff]
/-- KXINV rejects the reserved kind alone (R251). -/
theorem writeK_kxinv (h : fieldOf v 1 0 < 3) : s.writeK d c .kxinv v ≠ .illegal := by
  have hw : s.writeK d c .kxinv v = s.writeXinv d c v := if_neg (by simp [KName.rejects]; omega)
  rw [hw]
  obtain e | e | e : fieldOf v 1 0 = 0 ∨ fieldOf v 1 0 = 1 ∨ fieldOf v 1 0 = 2 := by omega
  all_goals simp [State.writeXinv, e, xinvAll_ne_illegal, xinvOne_ne_illegal, xinvStage2_ne_illegal, ite_eq_iff]
/-- Kind 10 below H is the privilege fault by its own rule (R251). -/
theorem rowWrite_kxinv_two (h : (s.core d c).ctl.level < 2) :
    s.rowWrite d c .kxinv 2 = .next (trappedAt s d c 0x12 (BitVec.ofNat 64 s.cur.word)) := by
  have hk : s.writeK d c .kxinv 2 = .privilege := if_pos h
  simp only [State.rowWrite, State.writeAt, hk, ite_self, rowFault_eq]

/-- KBOARD: with W clear no table is read that could be illegal (R391). -/
theorem writeK_kboard (h : v.getLsbD 0 = false) : s.writeK d c .kboard v ≠ .illegal := by
  have hb : bitOf (KName.kboard.clean v) 0 = false := by
    change (v &&& _).getLsbD 0 = false
    rw [BitVec.getLsbD_and, h, Bool.false_and]
  have hw : s.writeK d c .kboard v = s.writeBoard d v := rfl
  simp [hw, State.writeBoard, hb]

theorem writeK_kbcache : s.writeK d c .kbcache v = .illegal ↔ ¬ shareOk v (field (s.core d c).k.kbasin 44 32) := by
  have hr : KName.kbcache.rejects v (fieldOf (s.core d c).k.kbasin 44 32) = true ↔
      ¬ shareOk v (field (s.core d c).k.kbasin 44 32) := by
    simp only [KName.rejects, shareOk, Bool.or_eq_true, bne_iff_ne, decide_eq_true_eq]
    change _ ↔ ¬ (fieldOf v 56 44 % 8 = 0 ∧ fieldOf v 56 44 ≤ 4096 ∧ fieldOf v 43 32 % 8 = 0 ∧ fieldOf v 27 0 % 4096 = 0 ∧
      fieldOf v 43 32 + fieldOf v 56 44 ≤ 4096 ∧ fieldOf v 27 0 + 4096 * fieldOf v 56 44 ≤ 65536 * fieldOf _ 44 32)
    omega
  simp only [State.writeK, State.writeShare, ite_illegal, ite_wait, hr, reduceCtorEq, or_false]
  tauto
theorem writeK_krtab : s.writeK d c .krtab v = .illegal ↔ 64 < field v 6 0 := by
  have hr : ∀ n, KName.krtab.rejects v n = true ↔ 64 < field v 6 0 := fun _ => decide_eq_true_iff
  simp only [State.writeK, State.writeRange, Bool.false_eq_true, if_false, ite_illegal, ite_wait, hr]
  simp
theorem writeK_ks2rtab : s.writeK d c .ks2rtab v = .illegal ↔ 64 < field v 6 0 := by
  have hr : ∀ n, KName.ks2rtab.rejects v n = true ↔ 64 < field v 6 0 := fun _ => decide_eq_true_iff
  simp only [State.writeK, State.writeRange, if_true, ite_illegal, ite_wait, hr]
  simp
theorem writeK_ktrb : s.writeK d c .ktrb v = .illegal ↔ 2 ^ 56 < 4096 * (field v 55 12 + field v 11 0) := by
  have hr : ∀ n, KName.ktrb.rejects v n = true ↔ 2 ^ 56 < 4096 * (field v 55 12 + field v 11 0) := fun _ => by
    simp only [KName.rejects, decide_eq_true_eq]
    change 2 ^ 56 < field v 55 12 * 4096 + 4096 * field v 11 0 ↔ _
    omega
  simp only [State.writeK, State.writeTrace, ite_illegal, ite_wait, hr]
  simp
theorem writeK_kamask : s.writeK d c .kamask v = .illegal ↔ field v 7 0 = 0 ∨
    ∃ y ∈ s.dies, (∃ z ∈ y.cores, z.holds = true ∧ z.ctx.part = (s.die d).part) ∨ ∃ h ∈ y.held, h.part = (s.die d).part := by
  have hw : s.writeK d c .kamask v = s.writeAmask d v := rfl
  rw [hw, State.writeAmask, ite_illegal, Bool.or_eq_true, or_comm (b := _ = true), beq_iff_eq]
  simp [State.partBusy, show fieldOf v 7 0 = field v 7 0 from rfl]
theorem writeK_klend : s.writeK d c .klend v = .illegal ↔
    let y := s.core d (field v 4 0)
    field v 39 24 < 4000 ∨ (v.getLsbD 11 = true ∧ y.holds = true) ∨
      (v.getLsbD 11 = false ∧ y.holds = true ∧
        ∃ l, (s.die d).lends[field v 4 0]? = some l ∧ l.lent = true ∧ y.ctx.part = l.part) := by
  have hw : s.writeK d c .klend v = s.writeLend d v := rfl
  have hl : ∀ p, ((((s.die d).lends[field v 4 0]?).getD ⟨false, 0, 0⟩).lent = true ∧
      p = (((s.die d).lends[field v 4 0]?).getD ⟨false, 0, 0⟩).part) ↔
      ∃ l, (s.die d).lends[field v 4 0]? = some l ∧ l.lent = true ∧ p = l.part := fun p => by
    cases (s.die d).lends[field v 4 0]? <;> simp
  simp only [hw, State.writeLend, ite_illegal, reduceCtorEq, or_false, Bool.and_eq_true, Bool.not_eq_true', beq_iff_eq, ← hl]
  change field v 39 24 < 4000 ∨ _ ↔ _
  tauto

/-- The model's test of the noise registers is the rule of R165. -/
theorem noiseLegal_iff (k : KRegs) : k.noiseLegal = true ↔ noiseOk k.knoise k.knlogb k.knlogp (field k.kbasin 44 32) := by
  simp only [KRegs.noiseLegal, noiseOk, Bool.and_eq_true, Bool.or_eq_true, bne_iff_ne, beq_iff_eq, decide_eq_true_eq, and_assoc]
  rfl
/-- A noise register, the V instructions before it retired (R165). -/
theorem writeK_noise {num : Nat} (hn : num ∈ [0x014, 0x015, 0x016]) (hv : (s.core d c).vRetired = true) :
    let k := noiseAfter (s.core d c).k num v
    s.writeK d c (if num = 0x014 then .knoise else if num = 0x015 then .knlogb else .knlogp) v = .illegal ↔
      ¬ noiseOk k.1 k.2.1 k.2.2 (field (s.core d c).k.kbasin 44 32) := by
  have hw : ∀ k, s.writeNoise d c k v = .illegal ↔
      ¬ ((s.core d c).setK1 k (k.merge ((s.core d c).kword k) v)).k.noiseLegal = true := fun k => by
    simp [State.writeNoise, hv]
  simp only [List.mem_cons, List.not_mem_nil, or_false] at hn
  rcases hn with rfl | rfl | rfl
  · exact (hw .knoise).trans (not_congr (noiseLegal_iff _))
  · exact (hw .knlogb).trans (not_congr (noiseLegal_iff _))
  · exact (hw .knlogp).trans (not_congr (noiseLegal_iff _))

/-! ### KPREEMPT (R394) -/

/-- What a write of operation op for core t reads back from the value. -/
theorem preemptWord_fields {op t : Nat} (ho : op < 8) (ht : t < 32) :
    fieldOf (BitVec.ofNat 64 (op * 256 + t)) 10 8 = op ∧ fieldOf (BitVec.ofNat 64 (op * 256 + t)) 4 0 = t := by
  simp only [fieldOf, bitField, BitVec.toNat_ofNat]
  omega
theorem beginPreempt_illegal {op t : Nat} (ho : 0 < op ∧ op < 4) : s.beginPreempt d c op t = .illegal ↔
    op = 3 ∧ (((s.die d).lends[t]?).getD ⟨false, 0, 0⟩).lent = false := by
  have h : ¬ (op = 0 ∨ 4 ≤ op) := by omega
  simp [State.beginPreempt, h, ite_eq_iff]
theorem preemptOp_ne_illegal {op t : Nat} (ho : 0 < op ∧ op < 3) : s.preemptOp d c op t ≠ .illegal := by
  have h : ¬ (op = 0 ∨ 4 ≤ op) := by omega
  have hb : s.beginPreempt d c op t ≠ .illegal := fun e => by
    have := (beginPreempt_illegal (by omega)).1 e
    omega
  unfold State.preemptOp
  split
  · exact hb
  · simp [h, ite_eq_iff, hb]
/-- A pre-emption (OP 001 or 010) names any core. -/
theorem writeK_preempt {op t : Nat} (ho : 0 < op ∧ op < 3) (ht : t < 32) :
    s.writeK d c .kpreempt (BitVec.ofNat 64 (op * 256 + t)) ≠ .illegal := by
  have hw : ∀ v, s.writeK d c .kpreempt v = s.writePreempt d c v := fun _ => rfl
  obtain ⟨h1, h2⟩ := preemptWord_fields (show op < 8 by omega) ht
  rw [hw, State.writePreempt, h1, h2]
  exact preemptOp_ne_illegal ho
/-- A recall (OP 011), no operation being under way, names a lent core. -/
theorem writeK_recall {t : Nat} {l : Lend} (ht : t < 32) (hp : (s.die d).preOp = none) (hl : (s.die d).lends[t]? = some l) :
    s.writeK d c .kpreempt (BitVec.ofNat 64 (0x300 + t)) = .illegal ↔ l.lent = false := by
  have hw : ∀ v, s.writeK d c .kpreempt v = s.writePreempt d c v := fun _ => rfl
  obtain ⟨h1, h2⟩ := preemptWord_fields (show 3 < 8 by decide) ht
  rw [hw, State.writePreempt, h1, h2, State.preemptOp, hp, beginPreempt_illegal (by decide), hl]
  simp

/-- Settles O38: each row is a write of its register (`rowWrite_ends`), whose rejected values are those of the statement. -/
theorem registerWriteRowsRefuse : Obligations.RegisterWriteRowsRefuse := by
  unfold Obligations.RegisterWriteRowsRefuse
  intro s d c
  refine ⟨?operations, ?page, fun hl => rowWrite_kxinv_two hl, ?preemptions, ?mode, ?noise, fun v =>
    ⟨rowWrite_ends writeK_kbcache, rowWrite_ends writeK_krtab, rowWrite_ends writeK_ks2rtab, rowWrite_ends writeK_kamask,
      rowWrite_ends writeK_klend, rowWrite_ends writeK_ktrb, fun h hl => rowWrite_low (writeK_kboard h) hl⟩, ?recalls⟩
  case operations =>
    simp only [List.mem_cons, List.not_mem_nil, or_false]
    rintro i (rfl | rfl | rfl | rfl | rfl) hl
    · exact rowWrite_low (writeK_kctx (by decide)) hl
    · exact rowWrite_low (writeK_kctx (by decide)) hl
    · exact rowWrite_low (writeK_kctx (by decide)) hl
    · exact rowWrite_low (writeK_kctx (by decide)) hl
    · exact rowWrite_low (writeK_kxinv (by decide)) hl
  case page =>
    intro n hl
    refine rowWrite_low (writeK_kxinv ?_) hl
    simp only [fieldOf, bitField, BitVec.toNat_ofNat]
    omega
  case preemptions =>
    exact fun n hn => ⟨fun hl => rowWrite_low (writeK_preempt (op := 1) (by decide) hn) hl,
      fun hl => rowWrite_low (writeK_preempt (op := 2) (by decide) hn) hl⟩
  case mode =>
    intro v hv
    refine (rowWrite_ends (iff_of_true (writeK_rejects ?_) hv)).1 hv
    simp only [KName.rejects, Bool.or_eq_true, beq_iff_eq, decide_eq_true_eq]
    exact hv
  case noise => exact fun num v hn hr => (rowWrite_ends (writeK_noise hn hr)).1
  case recalls => exact fun n l hn hp hl => rowWrite_ends (writeK_recall hn hp hl)

end Sys2Proof.Machine
end

section
/-!
PROOF. A cascade serves the one direct command that waits there (R232). A failure is written to every command of the number, each
of which keeps its own point of progress, so a core with two commands of one number can show the other's.
-/
namespace Sys2Proof.Machine
open Sys2Proof Sys2Proof.Safety

/-! ### What CASCADE_SERVE comes to -/

section
variable {s : State} {d cas c : Nat} {k : Cmd} {a : CmdArg}

/-- A command that waits for a cascade. -/
theorem cascadeWaiting_some (h : (s.core d c).cascadeWaiting cas = some k) :
    k ∈ (s.core d c).fl.cmds ∧ k.tl = .tlm ∧ k.cascade = some cas ∧ k.st = .waiting ∧ k.fetching = false := by
  obtain ⟨k', hf, hk⟩ := Option.bind_eq_some_iff.1 h
  rw [Option.ite_none_right_eq_some, Option.some.injEq] at hk
  obtain ⟨hst, rfl⟩ := hk
  have hp := List.find?_some hf
  simp only [Bool.and_eq_true, beq_iff_eq, decide_eq_true_eq, Bool.not_eq_true'] at hp hst
  exact ⟨List.mem_of_find?_eq_some hf, hp.1.1, hp.1.2, hst.1.1.1, hst.1.1.2⟩

theorem cascadePick_of_only (h : s.cascadeCores d cas = [c]) : s.cascadePick d cas = some c := by
  simp [State.cascadePick, h, Nat.mod_one]

/-- Without a pass or a hot pass the cascade serves the one command that waits. -/
theorem serveCascade_of_servesOnly (h : ServesOnly s d cas c k a) : s.serveCascade d cas = s.serveReps 2 d c k cas 0 := by
  obtain ⟨ha, -, he⟩ := h.one
  simp [State.serveCascade, h.pass, h.hot, State.serveDirect, cascadePick_of_only h.only, h.next, ha, he]

/-- A repetition that fails leaves the failure with the command, and nothing else is served. -/
theorem serveReps_of_fails (h : ServesOnly s d cas c k a) {e : EngErr} {u : State} (hf : s.serveRep d c k a = .fails e u) :
    s.serveReps 2 d c k cas 0 = u.updCmd d c .tlm k.num fun q => q.fail e := by
  obtain ⟨ha, hr, -⟩ := h.one
  obtain ⟨-, -, hcas, hst, hfe⟩ := cascadeWaiting_some h.next
  have hcas' : a.cascade = some cas := by simpa [Cmd.cascade, ha, hr] using hcas
  simp [State.serveReps, ha, hr, hcas', hst, hfe, hf]

/-- No command that waits for the fabric, no launch. -/
theorem launchF_of_quiet (h : ∀ q ∈ (s.core d c).fl.cmds, q.wantsFabric = false) : s.launchF d c = s := by
  have hn : (s.core d c).fl.cmds.filter Cmd.wantsFabric = [] := List.filter_eq_nil_iff.2 fun q hq => by simp [h q hq]
  simp [State.launchF, hn]
theorem launchAll_of_quiet (h : ∀ c, ∀ q ∈ (s.core d c).fl.cmds, q.wantsFabric = false) : s.launchAll d = s :=
  List.foldlRecOn (motive := fun u => u = s) _ _ rfl fun u hu c _ => by rw [hu]; exact launchF_of_quiet (h c)

/-- A command changed into one that does not wait leaves no command that waits for the fabric. -/
theorem quiet_updCmd (hc : s.hasCore d c = true) {tl : TimelineId} {num : Nat} {f : Cmd → Cmd}
    (hf : ∀ q, (f q).wantsFabric = false) (h : ∀ c', ∀ q ∈ (s.core d c').fl.cmds, q.wantsFabric = false) :
    ∀ c', ∀ q ∈ ((s.updCmd d c tl num f).core d c').fl.cmds, q.wantsFabric = false := by
  intro c' q hq
  rw [State.updCmd, core_updCore _ _ _ _ _ _ hc] at hq
  split at hq
  · obtain ⟨q', hq', rfl⟩ := List.mem_map.1 hq
    split
    · exact hf q'
    · exact h c q' hq'
  · exact h c' q hq
theorem quiet_updCore (hc : s.hasCore d c = true) {g : Core → Core} (hg : ∀ x, (g x).fl = x.fl)
    (h : ∀ c', ∀ q ∈ (s.core d c').fl.cmds, q.wantsFabric = false) :
    ∀ c', ∀ q ∈ ((s.updCore d c g).core d c').fl.cmds, q.wantsFabric = false := by
  intro c' q hq
  rw [core_updCore _ _ _ _ _ _ hc] at hq
  split at hq
  · exact h c q (hg _ ▸ hq)
  · exact h c' q hq

theorem serveRep_acdr {v n m : Nat} {rec : Option Shape4} {p : Pattern} (hi : a.instr = .acdr v n m cas rec) (hp : a.pats = [p]) :
    s.serveRep d c k a = s.serveAcdr d c cas k v a p := by simp only [State.serveRep, hi, hp]
/-- A drain one of whose elements lies in a bank not held (R230, R199): the command fails with status 8. -/
theorem serveAcdr_of_bad {v q n : Nat} {p : Pattern} (hw : (s.core d c).mWriteWaits k.rank [v] = false) (hs : a.strm = some (q, n))
    (hf : (s.core d c).drainFull v k.rank = false)
    (hb : ((List.range 1024).map ((s.casc d cas).drainElem c (s.core d c) p)).any (·.poison) = true) :
    s.serveAcdr d c cas k v a p = .fails ⟨8, Config.openValue 0 s.steps, 0⟩ (s.updCore d c fun x => x.orMstat msUnalloc) := by
  simp only [State.serveAcdr, hw, hs, hf, hb, Bool.false_eq_true, if_false, if_true]

end

/-! ### Two commands of one number -/

/-- The record of an `acdr` of the first element of bank 0. -/
def drainRec : Pattern := ⟨1, 1, 1, 1, 0, 0, 0, 0x01, 0, 0, false⟩
/-- A repetition of it into the drain behind tile 48. -/
def drainArg : CmdArg := ⟨.acdr 48 9 5 0 none, [], [drainRec], none, some (48, 0), [], []⟩
/-- It as `tlm` command 1 of a core, in a state, at a point of its progress. -/
def drainCmd (st : CmdSt) (mpc : Nat) : Cmd :=
  ⟨.m, .tlm, 1, 9, 0, 1, 1, 0, 0, [drainArg], 0, mpc, st, 0, 0, 0, [], [], [], none, 0, [], 0⟩
/-- The binding of the drain. -/
def drainBinding : Binding := ⟨.drain, .plain, { drainRec with e0 := 1024 }, 1, 0, 0, [], 0, [], 0, [], none, none, []⟩
/-- A running core of reset with the drain bound, and the command behind a finished one of the same number. -/
def twinDrains : State := State.reset.updCore 0 0 fun x =>
  { x with ctl := { x.ctl with run := .running }, strm := x.strm.set 0 (some drainBinding)
           fl := { x.fl with cmds := [drainCmd (.finished 0) 1, drainCmd .waiting 0] } }

theorem core_reset (d c : Nat) : State.reset.core d c = Core.reset := by
  have hd : State.reset.die d = Die.reset := by
    change ((List.replicate 8 Die.reset)[d]?).getD _ = _
    rw [List.getElem?_replicate]
    split <;> rfl
  unfold State.core
  rw [hd]
  change ((List.replicate 32 Core.reset)[c]?).getD _ = _
  rw [List.getElem?_replicate]
  split <;> rfl
/-- Every other core is as after reset. -/
theorem twinDrains_other {c : Nat} (h : c ≠ 0) : twinDrains.core 0 c = Core.reset := by
  rw [twinDrains, core_updCore_other _ _ _ _ _ _ rfl (fun e => h e.2.symm), core_reset]
theorem twinDrains_waiting : (twinDrains.core 0 0).cascadeWaiting 0 = some (drainCmd .waiting 0) := by decide
/-- The one element drained lies in bank 0, which nobody holds. -/
theorem twinDrains_bad : ((List.range 1024).map ((twinDrains.casc 0 0).drainElem 0 (twinDrains.core 0 0)
    drainRec)).any (·.poison) = true := by
  rw [List.any_map, List.any_eq_true]
  exact ⟨0, List.mem_range.2 (by decide), rfl⟩
theorem twinDrains_serveRep : ∃ e, twinDrains.serveRep 0 0 (drainCmd .waiting 0) drainArg =
    .fails e (twinDrains.updCore 0 0 fun x => x.orMstat msUnalloc) := by
  have hw : (twinDrains.core 0 0).mWriteWaits (drainCmd .waiting 0).rank [48] = false := by decide
  have hf : (twinDrains.core 0 0).drainFull 48 (drainCmd .waiting 0).rank = false := by decide
  exact ⟨_, (serveRep_acdr rfl rfl).trans (serveAcdr_of_bad hw rfl hf twinDrains_bad)⟩
theorem twinDrains_cascadeReady (c : Nat) : twinDrains.cascadeReady 0 0 c = decide (c = 0) := by
  by_cases hc : c = 0
  · subst hc
    obtain ⟨e, he⟩ := twinDrains_serveRep
    have ho : (twinDrains.die 0).slotOwner 0 = none := by decide
    have hh : (twinDrains.core 0 0).fl.cmds.any (fun j => decide (j.rank < (drainCmd .waiting 0).rank) &&
      (twinDrains.die 0).hotAhead 0 0 j) = false := by decide
    have ha : (drainCmd .waiting 0).args[(drainCmd .waiting 0).rep]? = some drainArg := rfl
    simp [State.cascadeReady, twinDrains_waiting, ho, hh, ha, he]
  · have hw : (twinDrains.core 0 c).cascadeWaiting 0 = none := by rw [twinDrains_other hc]; rfl
    simp [State.cascadeReady, hw, hc]

theorem twinDrains_serves : ServesOnly twinDrains 0 0 0 (drainCmd .waiting 0) drainArg where
  core := rfl
  casc := by decide
  pass := rfl
  hot := by decide
  only := by
    rw [State.cascadeCores, funext twinDrains_cascadeReady]
    decide
  next := twinDrains_waiting
  one := ⟨rfl, rfl, rfl⟩
  quiet := fun c q hq => by
    by_cases hc : c = 0
    · subst hc
      have h : ∀ q ∈ [drainCmd (.finished 0) 1, drainCmd .waiting 0], q.wantsFabric = false := by decide
      exact h q hq
    · rw [twinDrains_other hc] at hq
      cases hq

/-- The step fails both entries, each at its own point. -/
theorem twinDrains_step : ∃ t, exec (.cascadeServe 0 0) twinDrains = .next t ∧ ((t.core 0 0).cmd? .tlm 1).map (·.mpc) = some 1 := by
  obtain ⟨e, he⟩ := twinDrains_serveRep
  have hs := (serveCascade_of_servesOnly twinDrains_serves).trans (serveReps_of_fails twinDrains_serves he)
  have hq := quiet_updCmd (s := twinDrains.updCore 0 0 fun x => x.orMstat msUnalloc) (c := 0) (tl := .tlm)
    (num := (drainCmd .waiting 0).num) rfl
    (fun q => show (q.fail e).wantsFabric = false from rfl) (quiet_updCore rfl (fun _ => rfl) twinDrains_serves.quiet)
  refine ⟨_, rfl, ?_⟩
  rw [hs, launchAll_of_quiet hq]
  rfl

/-- Refutes O47: the statement is about every state, also one with two `tlm` commands of one number (which a context that numbers
its commands in turn, R203, does not have). The first has ended with `mpc` 1; the second, with `mpc` 0, drains an element of a
bank not held into a drain's ring. The step fails every entry of the number, and the first found has `mpc` 1, where the
statement has the served command's 0. -/
theorem not_cascadesServeDirectCommands : ¬ Obligations.CascadesServeDirectCommands := by
  unfold Obligations.CascadesServeDirectCommands
  intro h
  obtain ⟨-, -, -, -, hdrain⟩ := h twinDrains 0 0 0 (drainCmd .waiting 0) drainArg twinDrains_serves
  obtain ⟨-, -, hring⟩ := hdrain 48 9 5 none drainRec rfl rfl (by decide) (by decide)
  obtain ⟨t, ht, -, -, hbad⟩ := hring 48 0 drainBinding rfl (by decide) (by decide)
  obtain ⟨u, hu, hmpc⟩ := twinDrains_step
  have htu : t = u := Host.Outcome.next.inj (ht.symm.trans hu)
  obtain ⟨-, hk⟩ := hbad fun hheld => by
    obtain ⟨g, hg, -⟩ := hheld 0 (by decide) (by decide)
    cases hg
  rw [htu] at hk
  have hk0 := congrArg (Option.map Prod.snd) hk
  rw [Option.map_map] at hk0
  exact absurd (hmpc.symm.trans hk0) (by decide)

end Sys2Proof.Machine
end

section
/-!
PROOF. The integer forms of the control core (O1, O2, O3): the fields of a C word, what the arithmetic of the model computes in
integers (R107, R109, R110), and that a form none of whose registers stalls issues with its result.
-/
namespace Sys2Proof.Machine
open Sys2Proof Sys2Proof.Safety

/-! ### The fields of a word of the C engine (R35) -/

section
variable {op d a b : Nat} (hd : d < 64) (ha : a < 64)

/-- The shorter opcodes of R49 begin at 80. -/
theorem decode_long {w op : Nat} (hw : w / 2 ^ 25 = op) (h : op < 80) : decode .c w [] = decodeCop op w := by
  have h28 : bitField w 31 28 = op / 8 := by simp only [bitField]; omega
  have h26 : bitField w 31 26 = op / 2 := by simp only [bitField]; omega
  have h25 : bitField w 31 25 = op := by simp only [bitField]; omega
  simp only [decode, decodeC, h28, h26, h25, refuseIf, List.isEmpty_nil, Bool.not_true, Bool.false_eq_true, if_false]
  rw [if_neg (by omega), if_neg (by omega), if_neg (by omega), if_neg (by omega)]

include hd ha

theorem wordCr_fields (hb : b < 64) : wordCr op d a b / 2 ^ 25 = op ∧ bitField (wordCr op d a b) 24 19 = d ∧
    bitField (wordCr op d a b) 18 13 = a ∧ bitField (wordCr op d a b) 12 7 = b ∧ bitField (wordCr op d a b) 6 0 = 0 ∧
    bitField (wordCr op d a b) 12 0 = b * 128 := by
  simp only [wordCr, bitField]
  omega

theorem decodeCR3_wordCr (hb : b < 64) (f : Nat → Nat → Nat → Instr) : decodeCR3 f (wordCr op d a b) = .ok (f d a b) := by
  obtain ⟨-, h19, h13, h7, h0, -⟩ := wordCr_fields (op := op) hd ha hb
  simp [decodeCR3, refuseIf, h19, h13, h7, h0]

theorem decodeCR2_wordCr (f : Nat → Nat → Instr) : decodeCR2 f (wordCr op d a 0) = .ok (f d a) := by
  obtain ⟨-, h19, h13, -, -, h0⟩ := wordCr_fields (op := op) hd ha (b := 0) (by decide)
  simp [decodeCR2, refuseIf, h19, h13, h0]

theorem decodeCR2_refuses (hb : b < 64) (hn : 0 < b) (f : Nat → Nat → Instr) :
    decodeCR2 f (wordCr op d a b) = .error .mustBeZero := by
  obtain ⟨-, -, -, -, -, h0⟩ := wordCr_fields (op := op) hd ha hb
  have hne : b * 128 ≠ 0 := by omega
  simp [decodeCR2, refuseIf, h0, hne]

theorem wordCi_fields (i : Int) : wordCi op d a i / 2 ^ 25 = op ∧ bitField (wordCi op d a i) 24 19 = d ∧
    bitField (wordCi op d a i) 18 13 = a ∧ bitField (wordCi op d a i) 12 0 = (i % 2 ^ 13).toNat := by
  simp only [wordCi, bitField]
  omega

theorem decodeCI_wordCi {i : Int} (h0 : -4096 ≤ i) (h1 : i ≤ 4095) (f : Nat → Nat → Int → Instr) :
    decodeCI f (wordCi op d a i) = .ok (f d a i) := by
  obtain ⟨-, h19, h13, hi⟩ := wordCi_fields (op := op) hd ha i
  have hs : sextField 13 (i % 2 ^ 13).toNat = i := by unfold sextField; omega
  simp only [decodeCI, h19, h13, hi, hs]

theorem decodeCIsh_wordCi {n : Nat} (h : n < 64) (f : Nat → Nat → Nat → Instr) :
    decodeCIsh f (wordCi op d a n) = .ok (f d a n) := by
  obtain ⟨-, h19, h13, hi⟩ := wordCi_fields (op := op) hd ha n
  have hn : ((n : Int) % 2 ^ 13).toNat = n := by omega
  rw [hn] at hi
  simp [decodeCIsh, refuseIf, h19, h13, hi, Nat.not_le.2 h]

theorem decodeCIsh_refuses {n : Nat} (h : 64 ≤ n) (hn : n ≤ 8191) (f : Nat → Nat → Nat → Instr) :
    decodeCIsh f (wordCi op d a n) = .error .reservedValue := by
  obtain ⟨-, -, -, hi⟩ := wordCi_fields (op := op) hd ha n
  have hn : ((n : Int) % 2 ^ 13).toNat = n := by omega
  rw [hn] at hi
  simp [decodeCIsh, refuseIf, hi, h]

end

/-- What the decoder refuses, its engine refuses at issue (R30). -/
theorem illegalAtIssue_of_error {e : Engine} {w : Nat} {cs : List Nat} {r : DecErr} (h : decode e w cs = .error r) :
    IllegalAtIssue e w cs := by
  intro s d c p hr hs he hw hc
  have hp := pickInstr_error (x := (s.core d c).ctx) (rep := p.rep) (pred := p.pred) (by rw [he, hw, hc]; exact h)
  simp [State.fetchGroup, hr, hs, hp]

/-! ### The arithmetic of the model, in integers (R107) -/

section
variable (a b : W64)

theorem add_eq_ofNat : a + b = BitVec.ofNat 64 (a.toNat + b.toNat) := by
  apply BitVec.eq_of_toNat_eq; simp

theorem sub_eq_ofInt : a - b = BitVec.ofInt 64 ((a.toNat : Int) - b.toNat) := by
  apply BitVec.eq_of_toInt_eq
  rw [BitVec.toInt_ofInt, BitVec.toInt_sub, BitVec.toInt_eq_toNat_bmod, BitVec.toInt_eq_toNat_bmod, Int.sub_bmod_bmod,
    Int.bmod_sub_bmod]

theorem mul_eq_ofNat : a * b = BitVec.ofNat 64 (a.toNat * b.toNat) := by
  apply BitVec.eq_of_toNat_eq; simp

theorem mulHighU_eq : mulHighU a b = BitVec.ofNat 64 (a.toNat * b.toNat / 2 ^ 64) := by
  have hlt : a.toNat * b.toNat < 2 ^ 128 := by
    calc a.toNat * b.toNat < 2 ^ 64 * 2 ^ 64 := Nat.mul_lt_mul'' a.isLt b.isLt
      _ = 2 ^ 128 := by norm_num
  have ha : a.toNat % 2 ^ 128 = a.toNat := Nat.mod_eq_of_lt (by omega)
  have hb : b.toNat % 2 ^ 128 = b.toNat := Nat.mod_eq_of_lt (by omega)
  apply BitVec.eq_of_toNat_eq
  simp only [mulHighU, BitVec.toNat_setWidth, BitVec.toNat_ushiftRight, BitVec.toNat_mul, BitVec.truncate_eq_setWidth,
    Nat.shiftRight_eq_div_pow, BitVec.toNat_ofNat, ha, hb, Nat.mod_eq_of_lt hlt]

theorem mulHigh_eq : mulHigh a b = BitVec.ofInt 64 (a.toInt * b.toInt / 2 ^ 64) := by
  have hw : (a.signExtend 128 * b.signExtend 128).toNat = ((a.toInt * b.toInt) % 2 ^ 128).toNat := by
    rw [BitVec.signExtend, BitVec.signExtend, ← BitVec.ofInt_mul, BitVec.toNat_ofInt]; rfl
  apply BitVec.eq_of_toNat_eq
  rw [mulHigh, BitVec.toNat_setWidth, BitVec.toNat_ushiftRight, hw, BitVec.toNat_ofInt, Nat.shiftRight_eq_div_pow]
  have := Int.emod_nonneg (a.toInt * b.toInt) (show (2 ^ 128 : Int) ≠ 0 by decide)
  generalize a.toInt * b.toInt = z at *
  omega

theorem divS_eq : divS a b = if b = 0 then BitVec.allOnes 64 else BitVec.ofInt 64 (a.toInt.tdiv b.toInt) := by
  unfold divS
  split
  · rfl
  · apply BitVec.eq_of_toInt_eq; rw [BitVec.toInt_sdiv, BitVec.toInt_ofInt]

theorem divU_eq : divU a b = if b = 0 then BitVec.allOnes 64 else BitVec.ofNat 64 (a.toNat / b.toNat) := by
  unfold divU
  split
  · rfl
  · apply BitVec.eq_of_toNat_eq
    rw [BitVec.toNat_udiv, BitVec.toNat_ofNat, Nat.mod_eq_of_lt]
    exact Nat.lt_of_le_of_lt (Nat.div_le_self _ _) a.isLt

theorem remS_eq : remS a b = if b = 0 then a else BitVec.ofInt 64 (a.toInt.tmod b.toInt) := by
  unfold remS
  split
  · rfl
  · rw [← BitVec.toInt_srem, BitVec.ofInt_toInt]

theorem remU_eq : remU a b = if b = 0 then a else BitVec.ofNat 64 (a.toNat % b.toNat) := by
  unfold remU
  split
  · rfl
  · apply BitVec.eq_of_toNat_eq
    rw [BitVec.toNat_umod, BitVec.toNat_ofNat]
    exact (Nat.mod_eq_of_lt (Nat.lt_of_le_of_lt (Nat.mod_le _ _) a.isLt)).symm

theorem shiftLeft_eq_ofNat (n : Nat) : a <<< n = BitVec.ofNat 64 (a.toNat * 2 ^ n) := by
  apply BitVec.eq_of_toNat_eq; simp [Nat.shiftLeft_eq]

theorem shiftRight_eq_ofNat (n : Nat) : a >>> n = BitVec.ofNat 64 (a.toNat / 2 ^ n) := by
  apply BitVec.eq_of_toNat_eq
  rw [BitVec.toNat_ushiftRight, Nat.shiftRight_eq_div_pow, BitVec.toNat_ofNat, Nat.mod_eq_of_lt]
  exact Nat.lt_of_le_of_lt (Nat.div_le_self _ _) a.isLt

theorem sshiftRight_eq_ofInt (n : Nat) : a.sshiftRight n = BitVec.ofInt 64 (a.toInt / 2 ^ n) := by
  rw [← BitVec.ofInt_toInt (x := a.sshiftRight n), BitVec.toInt_sshiftRight, Int.shiftRight_eq_div_pow]; norm_cast

theorem slt_eq_flag : boolWord (a.slt b) = flag (a.toInt < b.toInt) := by
  simp [boolWord, flag, BitVec.slt]

theorem ult_eq_flag : boolWord (a.ult b) = flag (a.toNat < b.toNat) := by
  simp [boolWord, flag, BitVec.ult]

theorem minS_eq : minS a b = BitVec.ofInt 64 (min a.toInt b.toInt) := by
  unfold minS
  simp only [BitVec.slt_iff_toInt_lt]
  split
  · rw [min_eq_left (by omega), BitVec.ofInt_toInt]
  · rw [min_eq_right (by omega), BitVec.ofInt_toInt]

theorem maxS_eq : maxS a b = BitVec.ofInt 64 (max a.toInt b.toInt) := by
  unfold maxS
  simp only [BitVec.slt_iff_toInt_lt]
  split
  · rw [max_eq_right (by omega), BitVec.ofInt_toInt]
  · rw [max_eq_left (by omega), BitVec.ofInt_toInt]

theorem minU_eq : minU a b = BitVec.ofNat 64 (min a.toNat b.toNat) := by
  unfold minU
  simp only [BitVec.ult_iff_toNat_lt]
  split
  · rw [min_eq_left (by omega), BitVec.ofNat_toNat, BitVec.setWidth_eq]
  · rw [min_eq_right (by omega), BitVec.ofNat_toNat, BitVec.setWidth_eq]

theorem maxU_eq : maxU a b = BitVec.ofNat 64 (max a.toNat b.toNat) := by
  unfold maxU
  simp only [BitVec.ult_iff_toNat_lt]
  split
  · rw [max_eq_right (by omega), BitVec.ofNat_toNat, BitVec.setWidth_eq]
  · rw [max_eq_left (by omega), BitVec.ofNat_toNat, BitVec.setWidth_eq]

/-- How long a test keeps failing along a run of numbers is where it first holds. -/
theorem length_takeWhile_not (p : Nat → Bool) (n : Nat) : ∀ k,
    k + ((List.range' k n).takeWhile fun i => !p i).length = ((List.range' k n).filter p).headD (k + n) := by
  induction n with
  | zero => intro k; simp
  | succ n ih =>
    intro k
    rw [List.range'_succ, List.takeWhile_cons, List.filter_cons]
    cases hp : p k
    · have := ih (k + 1)
      simp only [Bool.not_false, if_true, List.length_cons, Bool.false_eq_true, if_false]
      rw [show k + (n + 1) = k + 1 + n by omega, ← this]
      omega
    · simp

theorem ctzW_eq : ctzW a = BitVec.ofNat 64 (trailingZeros a) := by
  have := length_takeWhile_not a.toNat.testBit 64 0
  rw [Nat.zero_add, ← List.range_eq_range'] at this
  exact congrArg (BitVec.ofNat 64) this.symm

theorem popcW_eq : popcW a = BitVec.ofNat 64 (onesCount a) := rfl

/-- The leading zeros of a word that is not 0 end at its highest one. -/
theorem leadingZeros_eq (ha : a ≠ 0) : leadingZeros a = 63 - a.toNat.log2 := by
  have hn : a.toNat ≠ 0 := fun h => ha (BitVec.eq_of_toNat_eq h)
  have hl : a.toNat.log2 < 64 := (Nat.log2_lt hn).2 a.isLt
  have hz : ∀ i ∈ List.range (63 - a.toNat.log2), (!a.getLsbD (63 - i)) = true := by
    intro i hi
    rw [List.mem_range] at hi
    have : a.toNat.testBit (63 - i) = false := Nat.testBit_lt_two_pow ((Nat.log2_lt hn).1 (by omega))
    simp [BitVec.getLsbD, this]
  have hr : List.range 64 = List.range (63 - a.toNat.log2) ++ List.range' (63 - a.toNat.log2) (a.toNat.log2 + 1) := by
    have := List.range'_append_1 (s := 0) (m := 63 - a.toNat.log2) (n := a.toNat.log2 + 1)
    rw [Nat.zero_add, show 63 - a.toNat.log2 + (a.toNat.log2 + 1) = 64 by omega] at this
    rw [List.range_eq_range', List.range_eq_range', this]
  have ho : a.getLsbD (63 - (63 - a.toNat.log2)) = true := by
    rw [show 63 - (63 - a.toNat.log2) = a.toNat.log2 by omega]
    exact Nat.testBit_log2 hn
  rw [leadingZeros, hr, List.takeWhile_append_of_pos hz, List.range'_succ]
  simp [ho]

theorem clzW_eq : clzW a = BitVec.ofNat 64 (leadingZeros a) := by
  unfold clzW
  split
  · rename_i h; subst h; rfl
  · rename_i h; rw [leadingZeros_eq a h]

end

/-! ### Updates that agree where they act -/

theorem modify_congr {α : Type} {l : List α} {n : Nat} {f g : α → α} (h : ∀ a, l[n]? = some a → f a = g a) :
    l.modify n f = l.modify n g := by
  refine List.ext_getElem? fun i => ?_
  rw [List.getElem?_modify, List.getElem?_modify]
  split
  · rename_i hi
    subst hi
    cases hl : l[n]? with
    | none => rfl
    | some a => exact congrArg some (h a hl)
  · rfl

theorem updDie_congr {s : State} {d : Nat} {f g : Die → Die} (h : f (s.die d) = g (s.die d)) : s.updDie d f = s.updDie d g := by
  have hm : s.dies.modify d f = s.dies.modify d g := modify_congr fun y hy => by
    rw [show y = s.die d by simp [State.die, hy], h]
  rw [State.updDie, State.updDie, hm]

theorem updCore_congr {s : State} {d c : Nat} {f g : Core → Core} (h : f (s.core d c) = g (s.core d c)) :
    s.updCore d c f = s.updCore d c g := by
  refine updDie_congr ?_
  have hm : (s.die d).cores.modify c f = (s.die d).cores.modify c g := modify_congr fun x hx => by
    rw [show x = s.core d c by simp [State.core, hx], h]
  rw [Die.updCore, Die.updCore, hm]

theorem updMe_congr {s : State} {f g : Core → Core} (h : f s.me = g s.me) : s.updMe f = s.updMe g := updCore_congr h

/-! ### Lanes none of whose registers stalls (R99, R108) -/

section
variable {s : State}

theorem cReady_iff {rs : List Nat} : s.cReady rs = true ↔ Ready s rs := by
  simp [State.cReady, Ready]

theorem alu2_ready {d a b : Nat} (h : Ready s [d, a, b]) (f : W64 → W64 → W64) :
    s.alu2 d a b f = .next (wrote s d (f (s.me.val a) (s.me.val b)) (s.me.poisoned a || s.me.poisoned b)) := by
  rw [State.alu2, if_pos (cReady_iff.2 h)]
  rfl

/-- A register not pending at a hold is left pending by its claim (R100, R262). -/
theorem pendReg_free {x : Core} {d : Nat} (h : x.heldPending d = false) :
    x.pendReg d = x.updReg d fun g => { g with pend := true } := by
  simp [Core.pendReg, h]

theorem resultLater_eq (d : Nat) (v : W64) (p : Bool) (n : Nat) : s.resultLater d v p n = .next (wroteLater s d v p n) := by
  unfold State.resultLater wroteLater
  by_cases h : d = 0 ∨ s.me.heldPending d = true
  · rw [if_pos h, if_pos (by simpa using h)]
  · rw [if_neg h, if_neg (by simpa using h)]
    have hh : s.me.heldPending d = false := by simpa using (not_or.1 h).2
    rw [updMe_congr (g := fun x => { x.updReg d (fun g => { g with pend := true }) with
      fl := { x.fl with results := x.fl.results ++ [⟨d, v, p, n⟩] } })]
    simp only [pendReg_free hh, Core.setFl, updReg_fl]

theorem alu2Late_ready {d a b : Nat} (h : Ready s [d, a, b]) (n : Nat) (f : W64 → W64 → W64) :
    s.alu2Late d a b n f =
      .next (wroteLater s d (f (s.me.val a) (s.me.val b)) (s.me.poisoned a || s.me.poisoned b) n) := by
  rw [State.alu2Late, if_pos (cReady_iff.2 h), resultLater_eq]

theorem alu1_ready {d a : Nat} (h : Ready s [d, a]) (f : W64 → W64) :
    s.alu1 d a f = .next (wrote s d (f (s.me.val a)) (s.me.poisoned a)) := by
  rw [State.alu1, if_pos (cReady_iff.2 h)]
  rfl

theorem alu0_ready {d : Nat} (h : Ready s [d]) (v : W64) : s.alu0 d v = .next (wrote s d v false) := by
  rw [State.alu0, if_pos (cReady_iff.2 h)]
  rfl

end

/-! ### The register forms (R107) -/

/-- A two-source form decodes from its opcode and runs as `alu2`, or as `alu2Late` where its latency is longer, on the value
its rule states. -/
structure RegFormRuns (r : RegForm) : Prop where
  long : r.op < 80
  cop  : ∀ w, decodeCop r.op w = decodeCR3 r.instr w
  run  : ∀ d a b s, exec (r.instr d a b) s = if r.cycles = 1 then s.alu2 d a b r.value else s.alu2Late d a b r.cycles r.value

section
variable {op n : Nat} {i : Nat → Nat → Nat → Instr} {v f : W64 → W64 → W64}

theorem regFormRuns_now (hv : ∀ a b, f a b = v a b) (ho : op < 80 := by decide)
    (hc : ∀ w, decodeCop op w = decodeCR3 i w := by intros; rfl)
    (hx : ∀ d a b s, exec (i d a b) s = s.alu2 d a b f := by intros; rfl) : RegFormRuns ⟨op, i, v, 1⟩ :=
  ⟨ho, hc, fun d a b s => by rw [hx, funext₂ hv]; exact (if_pos rfl).symm⟩

theorem regFormRuns_late (hv : ∀ a b, f a b = v a b) (hn : n ≠ 1 := by decide) (ho : op < 80 := by decide)
    (hc : ∀ w, decodeCop op w = decodeCR3 i w := by intros; rfl)
    (hx : ∀ d a b s, exec (i d a b) s = s.alu2Late d a b n f := by intros; rfl) : RegFormRuns ⟨op, i, v, n⟩ :=
  ⟨ho, hc, fun d a b s => by rw [hx, funext₂ hv]; exact (if_neg hn).symm⟩

end

theorem regForms_run : ∀ r ∈ regForms, RegFormRuns r := by
  simp only [regForms, List.forall_mem_cons, List.not_mem_nil, false_imp_iff, implies_true, and_true]
  exact ⟨regFormRuns_now add_eq_ofNat, regFormRuns_now sub_eq_ofInt, regFormRuns_late mul_eq_ofNat,
    regFormRuns_late mulHigh_eq, regFormRuns_late mulHighU_eq, regFormRuns_late divS_eq, regFormRuns_late divU_eq,
    regFormRuns_late remS_eq, regFormRuns_late remU_eq, regFormRuns_now fun _ _ => rfl, regFormRuns_now fun _ _ => rfl,
    regFormRuns_now fun _ _ => rfl, regFormRuns_now fun a _ => shiftLeft_eq_ofNat a _,
    regFormRuns_now fun a _ => shiftRight_eq_ofNat a _, regFormRuns_now fun a _ => sshiftRight_eq_ofInt a _,
    regFormRuns_now slt_eq_flag, regFormRuns_now ult_eq_flag, regFormRuns_now minS_eq, regFormRuns_now minU_eq,
    regFormRuns_now maxS_eq, regFormRuns_now maxU_eq⟩

/-- A one-source form runs as `alu1` on the value its rule states. -/
structure OneFormRuns (op : Nat) (i : Nat → Nat → Instr) (v : W64 → Nat) : Prop where
  long : op < 80
  cop  : ∀ w, decodeCop op w = decodeCR2 i w
  run  : ∀ d a s, exec (i d a) s = s.alu1 d a fun x => BitVec.ofNat 64 (v x)

theorem oneFormRuns_of {op : Nat} {i : Nat → Nat → Instr} {v : W64 → Nat} {f : W64 → W64}
    (hv : ∀ a, f a = BitVec.ofNat 64 (v a)) (ho : op < 80 := by decide)
    (hc : ∀ w, decodeCop op w = decodeCR2 i w := by intros; rfl)
    (hx : ∀ d a s, exec (i d a) s = s.alu1 d a f := by intros; rfl) : OneFormRuns op i v :=
  ⟨ho, hc, fun d a s => by rw [hx, funext hv]⟩

theorem oneForms_run : ∀ r ∈ oneForms, OneFormRuns r.1 r.2.1 r.2.2 := by
  simp only [oneForms, List.forall_mem_cons, List.not_mem_nil, false_imp_iff, implies_true, and_true]
  exact ⟨oneFormRuns_of clzW_eq, oneFormRuns_of ctzW_eq, oneFormRuns_of popcW_eq⟩

/-- Settles O1: every form runs as the shared one-cycle or late form on the value its rule states, and with nothing to wait for
these issue with it. -/
theorem registerFormResults : Obligations.RegisterFormResults := by
  unfold Obligations.RegisterFormResults
  refine ⟨fun r hr d a b hd ha hb => ⟨?_, fun s h => ?_⟩, fun r hr d a hd ha => ⟨?_, fun b h0 hb => ?_, fun s h => ?_⟩⟩
  · have k := regForms_run r hr
    rw [decode_long (wordCr_fields hd ha hb).1 k.long, k.cop, decodeCR3_wordCr hd ha hb]
  · rw [(regForms_run r hr).run, alu2_ready h, alu2Late_ready h, ← apply_ite Host.Outcome.next]
  · have k := oneForms_run r hr
    rw [decode_long (wordCr_fields hd ha (by decide)).1 k.long, k.cop, decodeCR2_wordCr hd ha]
  · have k := oneForms_run r hr
    refine illegalAtIssue_of_error (r := .mustBeZero) ?_
    rw [decode_long (wordCr_fields hd ha hb).1 k.long, k.cop, decodeCR2_refuses hd ha hb h0]
  · rw [(oneForms_run r hr).run, alu1_ready h]

/-! ### The immediate forms (R109) -/

theorem addi_eq_ofInt (a : W64) (i : Int) : a + immW i = BitVec.ofInt 64 (a.toInt + i) := by
  rw [immW, BitVec.ofInt_add, BitVec.ofInt_toInt]

/-- A signed immediate of 13 bits is the value of its word. -/
theorem toInt_immW {i : Int} (h0 : -4096 ≤ i) (h1 : i ≤ 4095) : (immW i).toInt = i := by
  rw [immW, BitVec.toInt_ofInt]
  exact Int.bmod_eq_of_le (by omega) (by omega)

theorem slti_eq_flag (a : W64) {i : Int} (h0 : -4096 ≤ i) (h1 : i ≤ 4095) :
    boolWord (a.slt (immW i)) = flag (a.toInt < i) := by
  rw [slt_eq_flag, toInt_immW h0 h1]

/-- A form with a signed immediate runs as `alu1` on the value its rule states, for every immediate in its limits. -/
structure ImmFormRuns (op : Nat) (i : Nat → Nat → Int → Instr) (v : W64 → Int → W64) : Prop where
  long : op < 80
  cop  : ∀ w, decodeCop op w = decodeCI i w
  run  : ∀ d a n s, -4096 ≤ n → n ≤ 4095 → exec (i d a n) s = s.alu1 d a fun x => v x n

theorem immFormRuns_of {op : Nat} {i : Nat → Nat → Int → Instr} {v f : W64 → Int → W64}
    (hv : ∀ a n, -4096 ≤ n → n ≤ 4095 → f a n = v a n) (ho : op < 80 := by decide)
    (hc : ∀ w, decodeCop op w = decodeCI i w := by intros; rfl)
    (hx : ∀ d a n s, exec (i d a n) s = s.alu1 d a fun x => f x n := by intros; rfl) : ImmFormRuns op i v :=
  ⟨ho, hc, fun d a n s h0 h1 => by rw [hx, funext fun x => hv x n h0 h1]⟩

theorem immForms_run : ∀ r ∈ immForms, ImmFormRuns r.1 r.2.1 r.2.2 := by
  simp only [immForms, List.forall_mem_cons, List.not_mem_nil, false_imp_iff, implies_true, and_true]
  exact ⟨immFormRuns_of fun a n _ _ => addi_eq_ofInt a n, immFormRuns_of fun _ _ _ _ => rfl, immFormRuns_of fun _ _ _ _ => rfl,
    immFormRuns_of fun _ _ _ _ => rfl, immFormRuns_of fun a n h0 h1 => slti_eq_flag a h0 h1,
    immFormRuns_of fun a n _ _ => ult_eq_flag a (immW n)⟩

/-- An immediate shift runs as `alu1` on the value its rule states. -/
structure ShiftFormRuns (op : Nat) (i : Nat → Nat → Nat → Instr) (v : W64 → Nat → W64) : Prop where
  long : op < 80
  cop  : ∀ w, decodeCop op w = decodeCIsh i w
  run  : ∀ d a n s, exec (i d a n) s = s.alu1 d a fun x => v x n

theorem shiftFormRuns_of {op : Nat} {i : Nat → Nat → Nat → Instr} {v f : W64 → Nat → W64}
    (hv : ∀ a n, f a n = v a n) (ho : op < 80 := by decide)
    (hc : ∀ w, decodeCop op w = decodeCIsh i w := by intros; rfl)
    (hx : ∀ d a n s, exec (i d a n) s = s.alu1 d a fun x => f x n := by intros; rfl) : ShiftFormRuns op i v :=
  ⟨ho, hc, fun d a n s => by rw [hx, funext fun x => hv x n]⟩

theorem shiftForms_run : ∀ r ∈ shiftForms, ShiftFormRuns r.1 r.2.1 r.2.2 := by
  simp only [shiftForms, List.forall_mem_cons, List.not_mem_nil, false_imp_iff, implies_true, and_true]
  exact ⟨shiftFormRuns_of shiftLeft_eq_ofNat, shiftFormRuns_of shiftRight_eq_ofNat, shiftFormRuns_of sshiftRight_eq_ofInt⟩

/-- Settles O2: the immediate forms run as the shared one-source form on the value their rule states. -/
theorem immediateFormResults : Obligations.ImmediateFormResults := by
  unfold Obligations.ImmediateFormResults
  refine ⟨fun r hr d a i hd ha h0 h1 => ⟨?_, fun s h => ?_⟩, fun r hr d a n hd ha => ⟨fun hn => ⟨?_, fun s h => ?_⟩, fun hn hm => ?_⟩⟩
  · have k := immForms_run r hr
    rw [decode_long (wordCi_fields hd ha i).1 k.long, k.cop, decodeCI_wordCi hd ha h0 h1]
  · rw [(immForms_run r hr).run d a i s h0 h1, alu1_ready h]
  · have k := shiftForms_run r hr
    rw [decode_long (wordCi_fields hd ha n).1 k.long, k.cop, decodeCIsh_wordCi hd ha hn]
  · rw [(shiftForms_run r hr).run, alu1_ready h]
  · have k := shiftForms_run r hr
    refine illegalAtIssue_of_error (r := .reservedValue) ?_
    rw [decode_long (wordCi_fields hd ha n).1 k.long, k.cop, decodeCIsh_refuses hd ha hn hm]

end Sys2Proof.Machine
end


section
/-!
PROOF. Bit fields, constants and tokens (O3, O4): the fields R110 cuts, as words; token masks as sets of registers (R103).
-/
namespace Sys2Proof.Machine
open Sys2Proof Sys2Proof.Safety

/-! ### Bit fields (R110) -/

/-- An n-bit field as a signed number is the word of n bits, sign-extended. -/
theorem ofInt_sextField {n v : Nat} (hn : 0 < n) (hv : v < 2 ^ n) :
    BitVec.ofInt 64 (sextField n v) = (BitVec.ofNat n v).signExtend 64 := by
  have hp : 2 ^ n = 2 * 2 ^ (n - 1) := by rw [← Nat.pow_succ', Nat.succ_eq_add_one, Nat.sub_add_cancel hn]
  rw [BitVec.signExtend, BitVec.toInt_eq_toNat_cond, BitVec.toNat_ofNat, Nat.mod_eq_of_lt hv, sextField]
  congr 1
  by_cases h : v < 2 ^ (n - 1)
  · rw [if_pos h, if_pos (by omega)]
  · rw [if_neg h, if_neg (by omega)]

/-- The mask of a field. -/
theorem getLsbD_fieldMask {w pos k : Nat} (hk : k < 64) :
    (BitVec.ofNat 64 ((2 ^ w - 1) * 2 ^ pos)).getLsbD k = decide (pos ≤ k ∧ k < pos + w) := by
  rw [← Nat.shiftLeft_eq, BitVec.getLsbD_ofNat, Nat.testBit_shiftLeft, Nat.testBit_two_pow_sub_one]
  simp only [hk, decide_true, Bool.true_and, ge_iff_le, ← Bool.decide_and]
  exact decide_eq_decide.2 (and_congr_right fun h => by omega)

theorem getLsbD_insW (d a : W64) (pos len : Nat) {k : Nat} (hk : k < 64) : (insW d a pos len).getLsbD k =
    if pos ≤ k ∧ k < pos + fieldWidth pos len then a.getLsbD (k - pos) else d.getLsbD k := by
  simp only [insW, BitVec.getLsbD_or, BitVec.getLsbD_and, BitVec.getLsbD_not, getLsbD_fieldMask hk, BitVec.getLsbD_shiftLeft, hk,
    decide_true, Bool.true_and]
  by_cases h : pos ≤ k ∧ k < pos + fieldWidth pos len
  · simp [h]
  · simp [h]

/-- A word of form CF (R35). -/
def wordCf (op d a pos len : Nat) : Nat := op * 2 ^ 25 + d * 2 ^ 19 + a * 2 ^ 13 + pos * 2 ^ 7 + (len - 1) * 2

section
variable {op d a pos len : Nat} (hd : d < 64) (ha : a < 64) (hp : pos < 64) (h1 : 1 ≤ len) (hl : len ≤ 64)
include hd ha hp h1 hl

theorem wordCf_fields : wordCf op d a pos len / 2 ^ 25 = op ∧ bitField (wordCf op d a pos len) 24 19 = d ∧
    bitField (wordCf op d a pos len) 18 13 = a ∧ bitField (wordCf op d a pos len) 12 7 = pos ∧
    bitField (wordCf op d a pos len) 6 1 + 1 = len ∧ bitField (wordCf op d a pos len) 0 0 = 0 := by
  simp only [wordCf, bitField]
  omega

theorem decode_wordCf (ho : op < 80) {f : Nat → Nat → Nat → Nat → Instr} (hc : ∀ w, decodeCop op w = decodeCF f w) :
    decode .c (wordCf op d a pos len) [] = .ok (f d a pos len) := by
  obtain ⟨hop, h19, h13, h7, hn, h0⟩ := wordCf_fields (op := op) hd ha hp h1 hl
  rw [decode_long hop ho, hc]
  simp [decodeCF, refuseIf, h19, h13, h7, hn, h0]

end

/-- Settles O3: `ext` and `extn` cut the field out as a number, `ins` puts it in place bit by bit. -/
theorem fieldFormResults : Obligations.FieldFormResults := by
  unfold Obligations.FieldFormResults
  intro d a pos len hd ha hp h1 hl w word
  refine ⟨decode_wordCf hd ha hp h1 hl (by decide) fun _ => rfl, decode_wordCf hd ha hp h1 hl (by decide) fun _ => rfl,
    decode_wordCf hd ha hp h1 hl (by decide) fun _ => rfl, fun s h => ?_⟩
  have hw : 0 < w := by omega
  intro f
  refine ⟨?ext, ?extn, insW (s.me.val d) (s.me.val a) pos len, ?ins, fun k hk => getLsbD_insW _ _ _ _ hk⟩
  case ext =>
    rw [← ofInt_sextField hw (Nat.mod_lt _ (Nat.two_pow_pos w))]
    exact alu1_ready h fun x => extS x pos len
  case extn => exact alu1_ready h fun x => extU x pos len
  case ins => exact alu2_ready (fun r hr => h r (by simpa using hr)) fun x y => insW x y pos len

/-! ### Constants (R111) -/

/-- What a lane that has issued leaves in its register. -/
theorem val_wrote {s : State} {d : Nat} {v : W64} {p : Bool} (hf : s.focusOk = true) (h0 : 0 < d) (hl : d < s.me.regs.length)
    (hh : s.me.heldPending d = false) : (wrote s d v p).me.val d = v := by
  have hr : (wrote s d v p).me.regs = (s.me.write d v p).regs := by
    rw [wrote, me_issued _ (by simpa using hf), coreIssued_regs, me_updMe _ _ hf]
  have hw : ((s.me.write d v p).reg d) = ⟨v, false, p⟩ := by
    rw [reg_write, if_pos ⟨rfl, by omega, hl, hh⟩]
  simp only [Core.val, Core.reg, hr] at hw ⊢
  rw [hw]

/-! ### Token masks (R103) -/

theorem mem_tokenSet {m : W64} {i : Nat} : i ∈ tokenSet m ↔ 0 < i ∧ i < 64 ∧ m.getLsbD i = true := by
  simp only [tokenSet, setBits, List.mem_filter, List.mem_range, bne_iff_ne, BitVec.getLsbD]
  constructor
  · rintro ⟨⟨h1, h2⟩, h3⟩; exact ⟨by omega, h1, h2⟩
  · rintro ⟨h1, h2, h3⟩; exact ⟨⟨h2, h3⟩, by omega⟩

theorem testBit_foldl_mask (rs : List Nat) (m i : Nat) :
    (rs.foldl (fun m r => m ||| 2 ^ r) m).testBit i = (m.testBit i || decide (i ∈ rs)) := by
  induction rs generalizing m with
  | nil => simp
  | cons r rs ih => rw [List.foldl_cons, ih, Nat.testBit_or, Nat.testBit_two_pow]; simp [Bool.or_assoc, eq_comm]

theorem testBit_maskOf (rs : List Nat) (i : Nat) : (maskOf rs).testBit i = decide (i ∈ rs) := by
  simp [maskOf, testBit_foldl_mask]

theorem tokenSet_ne_nil {m : W64} {i : Nat} (hi : i ∈ tokenSet m) : ¬ (tokenSet m).isEmpty = true :=
  fun h => List.ne_nil_of_mem hi (List.isEmpty_iff.1 h)

theorem pairwise_tokenSet (m : W64) : (tokenSet m).Pairwise (· < ·) :=
  (List.pairwise_lt_range.filter _).filter _

/-- The lowest register of a mask that meets a test. -/
theorem find?_tokenSet {m : W64} {p : Nat → Bool} {i : Nat} (hi : i ∈ tokenSet m) (hp : p i = true)
    (hlow : ∀ j < i, j ∈ tokenSet m → p j = false) : (tokenSet m).find? p = some i := by
  obtain ⟨l, r, hlr⟩ := List.append_of_mem hi
  have hpw := pairwise_tokenSet m
  rw [hlr, List.pairwise_append] at hpw
  rw [List.find?_eq_some_iff_append]
  refine ⟨hp, l, r, hlr, fun j hj => ?_⟩
  rw [hlow j (hpw.2.2 j hj i (by simp)) (by simp [hlr, hj])]
  rfl

section
variable {s : State} {d a : Nat} (h : Ready s [d, a])
include h

theorem exec_tokt : exec (.tokt d a) s = if s.me.poisoned a = true then s.poisonFault a else
    .next (wrote s d (BitVec.ofNat 64 (maskOf ((tokenSet (s.me.val a)).filter fun r => (s.me.reg r).pend))) false) := by
  show execTokt d a s = _
  rw [execTokt, if_pos (cReady_iff.2 h)]
  rfl

theorem exec_tokw : exec (.tokw d a) s = if s.me.poisoned a = true then s.poisonFault a else
    if (tokenSet (s.me.val a)).isEmpty then .next (wrote s d 64 false) else
      ((tokenSet (s.me.val a)).find? fun r => !(s.me.reg r).pend).elim (.next s) fun r => .next (wrote s d (BitVec.ofNat 64 r) false) := by
  show execTokw d a s = _
  rw [execTokw, if_pos (cReady_iff.2 h)]
  cases (tokenSet (s.me.val a)).find? fun r => !(s.me.reg r).pend <;> rfl

end

/-- Settles O4. -/
theorem constantsTokensAndNop : Obligations.ConstantsTokensAndNop := by
  unfold Obligations.ConstantsTokensAndNop
  refine ⟨⟨fun d i _ _ _ s h => ⟨?lih, ?lah⟩, fun c h0 h1 => ?split⟩, fun s => rfl,
    fun d a _ _ s h => ⟨fun hp => ?poison, fun hp => ?tokens⟩⟩
  case lih => exact alu0_ready h _
  case lah => exact alu0_ready h _
  case split =>
    intro hi lo
    refine ⟨by omega, by omega, by omega, by omega, fun s hf hl d hd hd' _ hh => ?_⟩
    rw [val_wrote hf hd (by omega) hh, ← BitVec.ofInt_add]
    congr 1
    omega
  case poison =>
    rw [exec_tokt h, exec_tokw h, if_pos hp, if_pos hp]
    exact ⟨rfl, rfl⟩
  case tokens =>
    intro named
    have hm : ∀ i, i ∈ tokenSet (s.me.val a) ↔ named i := fun i => mem_tokenSet
    rw [exec_tokt h, exec_tokw h, if_neg (by simp [hp]), if_neg (by simp [hp])]
    refine ⟨⟨_, rfl, fun i hi => ?_⟩, fun hn => ?_, fun i hi hpend hlow => ?_, fun ⟨i, hi⟩ hall => ?_⟩
    · rw [BitVec.getLsbD_ofNat, testBit_maskOf]
      simp [hi, hm]
    · rw [if_pos (List.isEmpty_iff.2 (List.eq_nil_iff_forall_not_mem.2 fun i hi => hn i ((hm i).1 hi)))]
    · rw [if_neg (tokenSet_ne_nil ((hm i).2 hi)), find?_tokenSet ((hm i).2 hi) (by simp [hpend])
        fun j hj hn => by simp [hlow j hj ((hm j).1 hn)]]
      rfl
    · rw [if_neg (tokenSet_ne_nil ((hm i).2 hi)), List.find?_eq_none.2 fun j hj => by simp [hall j ((hm j).1 hj)]]
      rfl

end Sys2Proof.Machine
end


section
/-!
PROOF. Branches, jumps, calls and loops (O5 to O9): a lane whose registers do not stall issues with the decision of its rule.
-/
namespace Sys2Proof.Machine
open Sys2Proof Sys2Proof.Safety

/-! ### Tokens of barriers (R212) -/

/-- A core with a read out that has noted the token of a `pbar` under register 0, which no `pbar` names (R102). -/
def acquiredZero : State := State.reset.updCore 0 0 fun x =>
  { x with fl := { x.fl with loads := [⟨.slot, 0, 0, 0⟩], acqs := [(0, 0)] }, ctl := { x.ctl with noProg := 1 } }

theorem acquiredZero_ready : Ready acquiredZero [1, 1] := by
  unfold Ready
  decide
theorem acquiredZero_waits : exec (.commit 0 1 1) acquiredZero = .next acquiredZero := by
  show execCommit 0 1 1 acquiredZero = _
  rw [execCommit, if_neg (by decide)]
  rfl

/-- Refutes O5: a `commit` to s0 reads s0 as its condition, and the statement does not ask that s0 does not stall. In a state
whose noted barrier tokens name register 0 (none does that a `pbar` has noted, R102) it waits with an earlier read out. -/
theorem not_commitSelectsAndChkTests : ¬ Obligations.CommitSelectsAndChkTests := by
  unfold Obligations.CommitSelectsAndChkTests
  intro h
  obtain ⟨-, -, hx⟩ := h 0 1 1 0 (by decide) (by decide) (by decide) (by decide) (by decide)
  obtain ⟨-, -, -, hz, -⟩ := hx acquiredZero
  have he : acquiredZero = acquiredZero.issued := Host.Outcome.next.inj (acquiredZero_waits.symm.trans (hz acquiredZero_ready))
  exact absurd (congrArg (fun s : State => s.me.ctl.noProg) he) (by decide)

/-! ### Branches (R112) -/

section
variable {s : State}

/-- The target of a branch of some lines (R36). -/
theorem lineTarget_eq (addr : Nat) (off : Int) : lineTarget addr off = (((addr : Int) + off * 32) % 2 ^ 64).toNat := by
  rw [lineTarget, Int.mul_comm]
  rfl

theorem branch_eq (c : Bool) (off : Int) : s.branch c off = .next (decided s
    (if c then .taken (((s.cur.addr : Int) + off * 32) % 2 ^ 64).toNat else .notTaken)) := by
  rw [State.branch, lineTarget_eq]
  rfl

theorem branch2_ready {a b : Nat} (h : Ready s [a, b]) (ha : s.me.poisoned a = false) (hb : s.me.poisoned b = false) (off : Int)
    (f : W64 → W64 → Bool) : s.branch2 a b off f = s.branch (f (s.me.val a) (s.me.val b)) off := by
  have hp : s.me.firstPoison [a, b] = none := by simp [Core.firstPoison, ha, hb]
  rw [State.branch2, if_pos (cReady_iff.2 h), hp]

end

section
variable (a b : W64)

theorem beq_word_eq : (a == b) = decide (a.toNat = b.toNat) :=
  (beq_eq_decide a b).trans (decide_eq_decide.2 BitVec.toNat_inj.symm)
theorem bne_word_eq : (a != b) = decide (a.toNat ≠ b.toNat) := by
  rw [bne, beq_word_eq, ← decide_not]
theorem not_slt_eq_decide : (!a.slt b) = decide (b.toInt ≤ a.toInt) := by
  rw [BitVec.slt, ← decide_not]; exact decide_eq_decide.2 Int.not_lt
theorem not_ult_eq_decide : (!a.ult b) = decide (b.toNat ≤ a.toNat) := by
  rw [BitVec.ult, ← decide_not]; exact decide_eq_decide.2 Nat.not_lt

end

/-- A branch runs as `branch2` on the comparison its rule states. -/
structure BranchFormRuns (op : Nat) (i : Nat → Nat → Int → Instr) (c : W64 → W64 → Bool) : Prop where
  long : op < 80
  cop  : ∀ w, decodeCop op w = decodeCB i w
  run  : ∀ a b off s, exec (i a b off) s = s.branch2 a b off c

theorem branchFormRuns_of {op : Nat} {i : Nat → Nat → Int → Instr} {c f : W64 → W64 → Bool} (hv : ∀ a b, f a b = c a b)
    (ho : op < 80 := by decide) (hc : ∀ w, decodeCop op w = decodeCB i w := by intros; rfl)
    (hx : ∀ a b off s, exec (i a b off) s = s.branch2 a b off f := by intros; rfl) : BranchFormRuns op i c :=
  ⟨ho, hc, fun a b off s => by rw [hx, funext₂ hv]⟩

theorem branchForms_run : ∀ r ∈ branchForms, BranchFormRuns r.1 r.2.1 r.2.2 := by
  simp only [branchForms, List.forall_mem_cons, List.not_mem_nil, false_imp_iff, implies_true, and_true]
  exact ⟨branchFormRuns_of beq_word_eq, branchFormRuns_of bne_word_eq, branchFormRuns_of fun _ _ => rfl,
    branchFormRuns_of fun _ _ => rfl, branchFormRuns_of not_slt_eq_decide, branchFormRuns_of not_ult_eq_decide⟩

/-- Settles O6: a branch on clean operands transfers on the comparison of its rule. -/
theorem branchDecisions : Obligations.BranchDecisions := by
  unfold Obligations.BranchDecisions
  intro r hr a b off ha hb h0 h1
  have k := branchForms_run r hr
  refine ⟨?_, fun s h hpa hpb => ?_⟩
  · rw [decode_long (wordCi_fields ha hb off).1 k.long, k.cop]
    exact decodeCI_wordCi ha hb h0 h1 _
  · rw [k.run, branch2_ready h hpa hpb, branch_eq]

/-! ### Jumps and calls (R113) -/

section
variable {s : State} {d : Nat}

/-- Link and transfer (R113). -/
def jumped (s : State) (d t : Nat) : State :=
  (s.updMe fun x => (x.write d (BitVec.ofNat 64 (s.cur.addr + 32)) false).setDec (.taken t)).issued

theorem exec_jal (h : Ready s [d]) (off : Int) :
    exec (.jal d off) s = .next (jumped s d (((s.cur.addr : Int) + 32 * off) % 2 ^ 64).toNat) := by
  show execJal d off s = _
  rw [execJal, if_pos (cReady_iff.2 h)]
  rfl

theorem exec_jalr {a : Nat} (h : Ready s [d, a]) (hp : s.me.poisoned a = false) (i : Int) :
    let t := s.me.val a + BitVec.ofInt 64 (i * 32)
    exec (.jalr d a i) s = if t.toNat % 32 ≠ 0 then s.raise 0x08 0 t else .next (jumped s d t.toNat) := by
  show execJalr d a i s = _
  rw [execJalr, if_pos (cReady_iff.2 h), if_neg (by simp [hp]), Int.mul_comm 32 i]
  dsimp only
  rw [BitVec.ofNat_toNat, BitVec.setWidth_eq]
  rfl

theorem exec_callg_beyond (h : Ready s [d]) {slot : Nat} (hs : 4096 * (s.me.k.kgot.toNat / 2 ^ 56) ≤ slot) :
    exec (.callg d slot) s = s.raise 0x02 0 (BitVec.ofNat 64 slot) := by
  have hf : fieldOf s.me.k.kgot 63 56 = s.me.k.kgot.toNat / 2 ^ 56 := by
    have := s.me.k.kgot.isLt
    simp only [fieldOf, bitField]; omega
  show execCallg d slot s = _
  rw [execCallg, if_pos (cReady_iff.2 h), hf, if_pos hs]

/-- A slot word that has come back is called, unless it is poisoned or misaligned. -/
theorem exec_callg_back (h : Ready s [d]) {slot : Nat} (hs : slot < 4096 * (s.me.k.kgot.toNat / 2 ^ 56)) {l : LineBuf} {v : W64}
    {p : Bool} (hl : s.me.ctl.line = some l) (hv : l.slot = some (v, p)) : exec (.callg d slot) s =
      if p = true then s.raise 0x07 1 (BitVec.ofNat 64 (s.me.k.kgot.toNat / 8 % 2 ^ 53 * 8 + 8 * slot))
      else if v.toNat % 32 ≠ 0 then s.raise 0x08 0 v else .next (jumped s d v.toNat) := by
  have hf : fieldOf s.me.k.kgot 63 56 = s.me.k.kgot.toNat / 2 ^ 56 := by
    have := s.me.k.kgot.isLt
    simp only [fieldOf, bitField]; omega
  show execCallg d slot s = _
  rw [execCallg, if_pos (cReady_iff.2 h), hf, if_neg (by omega), hl, Option.bind_some, hv]
  rfl

end

/-- Settles O7. -/
theorem jumpsLinkAndTransfer : Obligations.JumpsLinkAndTransfer := by
  unfold Obligations.JumpsLinkAndTransfer
  intro s d _ h go
  refine ⟨exec_jal h, fun a i ha hp => ?_, fun slot => exec_callg_beyond h, fun slot hs l v p hl hv => ?_⟩
  · have hda : Ready s [d, a] := by simpa [Ready] using ⟨h d (by simp), ha a (by simp)⟩
    intro t
    rw [exec_jalr hda hp]
    exact ⟨fun ht => if_neg (not_not_intro ht), fun ht => if_pos ht⟩
  · rw [exec_callg_back h hs hl hv]
    refine ⟨fun hp => if_pos hp, fun hp ht => ?_, fun hp ht => ?_⟩
    · rw [if_neg (by simp [hp]), if_pos ht]
    · rw [if_neg (by simp [hp]), if_neg (not_not_intro ht)]
      rfl

/-! ### Loops (R119 to R122) -/

section
variable {s : State} {k fin : Nat} {cnt : LoopCount} (h : Ready s (countRegs cnt))
include h

theorem loopStart_illegal {piped : Bool} {st : Nat} (hi : loopIllegal s.me s.cur.addr piped k fin = true) :
    s.loopStart piped k st cnt fin = s.raise 0x02 0 (BitVec.ofNat 64 s.cur.word) := by
  rw [State.loopStart, if_pos (cReady_iff.2 h), hi]
  rfl

theorem loopStart_legal {piped : Bool} {st : Nat} (hi : loopIllegal s.me s.cur.addr piped k fin = false)
    (hn : (countVal s.me cnt).toNat < 2 ^ 32) (hp : s.me.firstPoison (countRegs cnt) = none) :
    s.loopStart piped k st cnt fin = .next (decided s (.loop piped k st (countVal s.me cnt).toNat fin)) := by
  rw [State.loopStart, if_pos (cReady_iff.2 h), hi, decide_eq_false (by omega), hp]
  rfl

end

/-- The four cases of R120. -/
theorem loopIllegal_iff {x : Core} {addr k fin : Nat} {piped : Bool} : loopIllegal x addr piped k fin = true ↔
    k ≠ x.loops.d ∨ x.ctx.depth ≤ x.loops.d ∨
      (0 < x.loops.d ∧ (x.loops.lvl (x.loops.d - 1)).fin < addr + fin * 32) ∨ piped = true ∧ x.loops.pipe = true := by
  simp [loopIllegal, or_assoc, Nat.mul_comm]

/-- Settles O8. -/
theorem loopIllegalCases : Obligations.LoopIllegalCases := by
  unfold Obligations.LoopIllegalCases
  intro s k st fin cnt h l
  refine ⟨fun hi => loopStart_illegal h (loopIllegal_iff.2 ?_), fun hi => loopStart_illegal h (loopIllegal_iff.2 ?_)⟩
  · exact hi.imp_right (Or.imp_right .inl)
  · exact hi.imp_right (Or.imp_right (Or.imp_right fun hp => ⟨rfl, hp⟩))

theorem lvl_setLvl (l : LoopState) {k j : Nat} (hk : k < 3) (hj : j < 3) (v : LoopLevel) :
    (l.setLvl k v).lvl j = if j = k then v else l.lvl j := by
  interval_cases k <;> interval_cases j <;> rfl

theorem lvl_congr {l m : LoopState} (h0 : m.l0 = l.l0) (h1 : m.l1 = l.l1) (h2 : m.l2 = l.l2) (j : Nat) : m.lvl j = l.lvl j := by
  match j with
  | 0 => exact h0
  | 1 => exact h1
  | _ + 2 => exact h2

/-- A count that is not 0 enters its level (R121). -/
theorem nextOf_loop (l : LoopState) (pc : Nat) {piped : Bool} {k st n fin : Nat} (h : 0 < n) :
    nextOf l pc (.loop piped k st n fin) =
      ({ l.setLvl k ⟨if piped then n + st - 1 else n, 0, pc + 32, pc + fin * 32⟩ with
          d := l.d + 1, pipe := l.pipe || piped
          plvl := if piped then k else l.plvl, stg := if piped then st - 1 else l.stg }, pc + 32) := by
  rw [nextOf, if_neg (Nat.pos_iff_ne_zero.1 h), Nat.mul_comm]

/-- Settles O9: the count is read where R120 has nothing against it; its resolution enters the level (R121). -/
theorem loopsStartAndResolve : Obligations.LoopsStartAndResolve := by
  unfold Obligations.LoopsStartAndResolve
  intro s k st fin cnt h hp l n hk hd hf hn
  have hi : ∀ piped, (piped = true → l.pipe = false) → loopIllegal s.me s.cur.addr piped k fin = false := by
    intro piped hpipe
    rw [← Bool.not_eq_true, loopIllegal_iff]
    rintro (hne | hdep | ⟨h0, hend⟩ | ⟨ht, hl⟩)
    · exact hne hk
    · exact Nat.not_lt.2 hdep hd
    · exact Nat.not_lt.2 (hf h0) hend
    · exact Bool.false_ne_true ((hpipe ht).symm.trans hl)
  refine ⟨loopStart_legal h (hi false (by simp)) hn hp, fun hpipe => loopStart_legal h (hi true fun _ => hpipe) hn hp,
    fun piped pc hk3 hst => ⟨fun h0 => ?_, fun h0 => ?_⟩⟩
  · rw [nextOf, if_pos h0, Nat.mul_comm]
  · rw [nextOf_loop l pc h0]
    refine ⟨rfl, rfl, ?_, fun j hj hne => ?_, rfl, fun ht => ?_⟩
    · exact (lvl_congr (l := l.setLvl k _) rfl rfl rfl k).trans ((lvl_setLvl l hk3 hk3 _).trans (if_pos rfl))
    · exact (lvl_congr (l := l.setLvl k _) rfl rfl rfl j).trans ((lvl_setLvl l hk3 hj _).trans (if_neg hne))
    · simp [ht]

end Sys2Proof.Machine
end


section
/-!
PROOF. O58: a store that its retraining pseudo-channel holds back has not been performed, and its dirty bit has not been set
again (R253, R415).
-/
namespace Sys2Proof.Machine
open Sys2Proof Sys2Proof.Safety

/-- One store of core 0 stands in the write path of its quad, its pseudo-channel is retraining, and dirty tracking is on with its
bitmap at 0x1000. -/
def heldBackStore : State :=
  (State.reset.updDie 0 fun y => { y with qpath := [⟨0, 0, 0, [0], 0, 0, none⟩], hbm := { y.hbm with training := [0] } }).updCore 0 0
    fun x => { x with x := { x.x with kdirty := 0x1015 } }

theorem heldBackStore_waits : exec (.storePerformedAtHome 0 0 0) heldBackStore = .next heldBackStore := by
  show execStorePerformedAtHome 0 0 0 heldBackStore = _
  unfold execStorePerformedAtHome
  rfl

/-- Setting the dirty bit of the store writes the bitmap. -/
theorem heldBackStore_bitmap : heldBackStore.readPa 0 0 0x1000 1 ≠ (heldBackStore.redirty 0 0 0).readPa 0 0 0x1000 1 := by
  decide

/-- Refutes O58: the statement compares the memory after STORE_PERFORMED_AT_HOME with the memory in which the store's dirty bit is
set, also where the step does nothing because the pseudo-channel of the store is retraining (R415). -/
theorem not_framesOfInstructions : ¬ Obligations.FramesOfInstructions := by
  unfold Obligations.FramesOfInstructions
  rintro ⟨-, -, -, -, h, -⟩
  obtain ⟨hmem, -, -⟩ := h heldBackStore heldBackStore 0 0 0 0 ⟨0, 0, 0, [0], 0, 0, none⟩ (by decide) (by decide) (by decide)
    (by decide) (by decide) (by simp) (by decide) (by decide) (by decide) heldBackStore_waits
  exact heldBackStore_bitmap (hmem 0 0 0x1000 (by decide) (by decide))

end Sys2Proof.Machine
end

section
/-!
PROOF. Scalar accesses (O10, O11, O12): the checks every access passes in one order (R115, R171, R209), a read that issues and
returns (R116, R117), a store that is posted and moves (R116, R357).
-/
namespace Sys2Proof.Machine
open Sys2Proof Sys2Proof.Safety

/-! ### The checks of an access -/

section
variable {a : W64} {n : Nat}

theorem addrFault_outside (h : 2 ^ 56 - 2 ^ 28 ≤ a.toNat) : addrFault a n = some 0x0A := by
  rw [addrFault, if_pos h, ite_self]

theorem addrFault_misaligned (h : a.toNat < 2 ^ 56 - 2 ^ 28) (hn : a.toNat % n ≠ 0) : addrFault a n = some 0x09 := by
  rw [addrFault, if_neg (by omega), if_neg (by omega), if_pos hn]

theorem addrFault_none (h : a.toNat < 2 ^ 56 - 2 ^ 28) (hn : a.toNat % n = 0) : addrFault a n = none := by
  rw [addrFault, if_neg (by omega), if_neg (by omega), if_neg (not_not_intro hn)]

end

section
variable {s : State} {acc : Acc} {a : W64} {n : Nat} {k : State → XOk → Out}

theorem scalarPa_fault {c : Nat} (h : addrFault a n = some c) : s.scalarPa acc a n k = s.raise c 0 a := by
  rw [State.scalarPa, h]

theorem scalarPa_error {e : XFault} (h : addrFault a n = none)
    (ht : s.translate s.cur.die s.me s.me.ctl.level acc a.toNat = .error e) : s.scalarPa acc a n k = s.raiseX e := by
  simp only [State.scalarPa, h, ht]

theorem scalarPa_ok {o : XOk} (h : addrFault a n = none)
    (ht : s.translate s.cur.die s.me s.me.ctl.level acc a.toNat = .ok o) :
    s.scalarPa acc a n k = k (s.updMe fun x => x.cache o.walked) o := by
  simp only [State.scalarPa, h, ht]

/-- A byte at an address below the aperture (R117). -/
theorem scalarPa_byte {va : Nat} (hv : va < 2 ^ 56 - 2 ^ 28) {o : XOk}
    (ht : s.translate s.cur.die s.me s.me.ctl.level acc va = .ok o) :
    s.scalarPa acc (BitVec.ofNat 64 va) 1 k = k (s.updMe fun x => x.cache o.walked) o := by
  have hn : (BitVec.ofNat 64 va).toNat = va := by rw [BitVec.toNat_ofNat]; omega
  exact scalarPa_ok (addrFault_none (by omega) (Nat.mod_one _)) (by rw [hn]; exact ht)

/-- What an access comes to once its registers are there: the poison fault, or its checks and what it does with its address. -/
def State.accessThen (s : State) (k : Access) (go : State → XOk → Out) : Out :=
  match s.me.firstPoison k.used with
  | some r => s.poisonFault r
  | none => s.scalarPa k.acc k.va k.size go

theorem ldBytes_eq (w : LdWidth) : ldBytes w = loadSize w := by cases w <;> rfl
theorem stBytes_eq (w : StWidth) : stBytes w = storeSize w := by cases w <;> rfl

theorem firstPoison_one (x : Core) (r : Nat) : x.firstPoison [r] = if x.poisoned r = true then some r else none := by
  cases h : x.poisoned r <;> simp [Core.firstPoison, h]

theorem exec_ld {w : LdWidth} {d r : Nat} {off : Int} {k : Access} (hk : accessOf s.me (.ld w d r off) = some k)
    (h : Ready s k.regs) : exec (.ld w d r off) s = s.accessThen k fun s o => s.sendLoad (.ld w) d o.pa := by
  obtain rfl := Option.some.inj hk
  show execLd w d r off s = _
  rw [execLd, if_pos (cReady_iff.2 h), State.accessThen, firstPoison_one, ldBytes_eq]
  split <;> rfl

theorem exec_st {w : StWidth} {d r : Nat} {off : Int} {k : Access} (hk : accessOf s.me (.st w d r off) = some k)
    (h : Ready s k.regs) : exec (.st w d r off) s = s.accessThen k fun s o =>
      s.postStore o.ipa o.pa (leBytes (storeSize w) (s.me.val d).toNat) := by
  obtain rfl := Option.some.inj hk
  show execSt w d r off s = _
  rw [execSt, if_pos (cReady_iff.2 h), stBytes_eq]
  rfl

/-- An atomic that no release fence holds back (R206, R209). -/
theorem localAtomic_checks (hf : s.fenceHolds s.cur.die s.cur.core s.me.fl.seq = false) (sc : Scope) (d : Nat) (va : W64)
    (new : W64 → Option W64) : ∃ go, s.localAtomic sc d va new = s.scalarPa .atomic va 8 go := by
  rw [State.localAtomic, hf]
  exact ⟨_, if_neg Bool.false_ne_true⟩

/-- Every scalar access that nothing holds back is checked in one way. -/
theorem exec_access {i : Instr} {k : Access} (hk : accessOf s.me i = some k) (h : Ready s k.regs) (hf : NotFenced s k.acc) :
    ∃ go, exec i s = s.accessThen k go := by
  cases i with
  | ld w d r off => exact ⟨_, exec_ld hk h⟩
  | st w d r off => exact ⟨_, exec_st hk h⟩
  | amo op sc d r b =>
    obtain ⟨hsc, hk⟩ := Option.ite_none_left_eq_some.1 hk
    obtain rfl := Option.some.inj hk
    obtain ⟨go, hgo⟩ := localAtomic_checks (hf rfl) sc d (s.me.val r)
      fun old => some (BitVec.ofNat 64 (atomicNew op 64 old.toNat (s.me.val b).toNat))
    refine ⟨go, ?_⟩
    show execAmo op sc d r b s = _
    rw [execAmo, if_neg hsc, if_pos (cReady_iff.2 h), hgo]
    rfl
  | amocas sc d r b =>
    obtain ⟨hsc, hk⟩ := Option.ite_none_left_eq_some.1 hk
    obtain rfl := Option.some.inj hk
    obtain ⟨go, hgo⟩ := localAtomic_checks (hf rfl) sc d (s.me.val r) fun old => if old = s.me.val d then some (s.me.val b) else none
    refine ⟨go, ?_⟩
    show execAmocas sc d r b s = _
    rw [execAmocas, if_neg hsc, if_pos (cReady_iff.2 h), hgo]
    rfl
  | _ => exact nomatch hk

theorem firstPoison_first {x : Core} {pre post : List Nat} {r : Nat} (hpre : ∀ q ∈ pre, x.poisoned q = false)
    (hr : x.poisoned r = true) : x.firstPoison (pre ++ r :: post) = some r := by
  rw [Core.firstPoison, List.find?_append, List.find?_eq_none.2 fun q hq => by simp [hpre q hq]]
  simp [hr]

theorem firstPoison_none {x : Core} {l : List Nat} (h : ∀ r ∈ l, x.poisoned r = false) : x.firstPoison l = none :=
  List.find?_eq_none.2 fun r hr => by simp [h r hr]

theorem accessThen_clean {k : Access} (h : ∀ r ∈ k.used, s.me.poisoned r = false) (go : State → XOk → Out) :
    s.accessThen k go = s.scalarPa k.acc k.va k.size go := by
  rw [State.accessThen, firstPoison_none h]

theorem accessThen_ok {k : Access} (h : AccessOk s k) {o : XOk}
    (ht : s.translate s.cur.die s.me s.me.ctl.level k.acc k.va.toNat = .ok o) (go : State → XOk → Out) :
    s.accessThen k go = go (s.updMe fun x => x.cache o.walked) o := by
  obtain ⟨-, hc, hlo, hal⟩ := h
  rw [accessThen_clean hc, scalarPa_ok (addrFault_none hlo hal) ht]

end

/-- Settles O10. -/
theorem scalarAccessFaults : Obligations.ScalarAccessFaults := by
  unfold Obligations.ScalarAccessFaults
  refine ⟨fun s i k hk h hf => ?_, fun s op d a b => ⟨rfl, rfl⟩⟩
  obtain ⟨go, hx⟩ := exec_access hk h hf
  rw [hx]
  refine ⟨fun pre r post hu hpre hr => ?_, fun hc => ⟨fun ha => ?_, fun ha hn => ?_, fun e ha hn ht => ?_⟩⟩
  · rw [State.accessThen, hu, firstPoison_first hpre hr]
    rfl
  · rw [accessThen_clean hc, scalarPa_fault (addrFault_outside ha)]
  · rw [accessThen_clean hc, scalarPa_fault (addrFault_misaligned ha hn)]
  · rw [accessThen_clean hc, scalarPa_error (addrFault_none ha hn) ht]
    rfl

/-! ### Loads (R116, R117) -/

section
variable {s : State}

theorem sendLoad_eq (kind : LoadKind) (d pa : Nat) : s.sendLoad kind d pa = .next (sentRead s kind d pa) := by
  have hf : (fun x : Core => (x.pendReg d).setFl fun f =>
      { f with loads := f.loads ++ [⟨kind, if s.me.heldPending d then 0 else d, pa, f.seq⟩] }) = fun x => { x.pendReg d with
      fl := { x.fl with loads := x.fl.loads ++ [⟨kind, if s.me.heldPending d then 0 else d, pa, x.fl.seq⟩] } } := by
    funext x
    simp only [Core.setFl, pendReg_fl]
  simp only [State.sendLoad, hf, sentRead]

/-- A core with KCSTAT.WIN set where not all of a window word lies inside the bound (R117). -/
def Core.flagWindow (n : Nat) (x : Core) : Core :=
  if n < 8 then { x with k := { x.k with kcstat := x.k.kcstat ||| 1 } } else x

/-- A window word through a binding that is valid and of the present generation (R117). -/
theorem exec_ldp_bound {d win idx : Nat} {b : Window} (h : Ready s [d]) (hb : s.me.ctx.windows[win]? = some b) (hv : b.valid = true)
    (hg : b.gen = s.wgen s.me) : exec (.ldp d win idx) s =
      let n := min 8 (b.bound - 8 * idx)
      let va := b.base + 8 * idx
      let head := min n (4096 - va % 4096)
      if n = 0 then .next (wrote (s.updMe (Core.flagWindow n)) d 0 false)
      else s.scalarPa .read (BitVec.ofNat 64 va) 1 fun s o =>
        if head = n then .next (sentRead (s.updMe (Core.flagWindow n)) (.ldp n 0 0) d o.pa)
        else s.scalarPa .read (BitVec.ofNat 64 (va + head)) 1 fun s p =>
          .next (sentRead (s.updMe (Core.flagWindow n)) (.ldp head p.pa (n - head)) d o.pa) := by
  show execLdp d win idx s = _
  rw [execLdp, if_pos (cReady_iff.2 h), hb]
  simp only [hv, hg, Bool.not_true, Bool.false_eq_true, if_false, ne_eq, not_true_eq_false, sendLoad_eq]
  rfl

end

/-! ### The value a read brings back (R115) -/

theorem leNat_lt (bs : List Byte) : leNat bs < 2 ^ (8 * bs.length) := by
  induction bs with
  | nil => exact Nat.one_pos
  | cons b bs ih =>
    have hb := b.isLt
    rw [leNat, List.length_cons, Nat.mul_add, Nat.pow_add]
    omega

/-- A load of a width extends the value of its bytes as R115 says. -/
theorem ldExtend_eq {w : LdWidth} {bs : List Byte} (h : bs.length = ldBytes w) : ldExtend w (leNat bs) = loaded w (leNat bs) := by
  have hlt := leNat_lt bs
  rw [h] at hlt
  cases w
  case n8 | n16 | n32 => exact congrArg (BitVec.ofNat 64) (Nat.mod_eq_of_lt hlt).symm
  all_goals rfl

theorem length_readPa (s : State) (d k pa n : Nat) : (s.readPa d k pa n).1.length = n := by
  unfold State.readPa
  split
  · exact Store.read_length ..
  · exact Store.read_length ..
  · simp [Memory.getN]
  · exact List.length_replicate

theorem length_coreRead (s : State) (d c pa n seq : Nat) : (s.coreRead d c pa n seq).1.length = n := length_readPa ..

/-- What an outstanding read returns: its bytes as R115 and R117 extend them, or poison and zero. -/
theorem loadValue_eq (s : State) (d c : Nat) (l : Load) (hl : l.kind ≠ .slot) :
    let r := l.places.map fun p => s.coreRead d c p.1 p.2 l.seq
    let bs := r.flatMap (·.1)
    let bad := r.any (·.2)
    let v : W64 := match l.kind with
      | .ld w => loaded w (leNat bs)
      | _ => BitVec.ofNat 64 (leNat bs)
    s.loadValue d c l = (if bad = true then 0 else v, bad) := by
  intro r bs bad v
  have hk : l.kind.value bs = v := by
    cases hk : l.kind with
    | ld w =>
      have hb : bs.length = ldBytes w := by simp [bs, r, Load.places, hk, LoadKind.bytes, length_coreRead]
      have hv : v = loaded w (leNat bs) := by simp only [v, hk]
      rw [hv]
      exact ldExtend_eq hb
    | ldp i n m => simp only [v, hk]; rfl
    | slot => exact absurd hk hl
  unfold State.loadValue
  cases hb : bad
  · exact (if_neg (Bool.eq_false_iff.1 hb)).trans (by rw [hk]; rfl)
  · exact (if_pos hb).trans (by rfl)

section
variable {s : State} {d c n : Nat} {l : Load} (hl : (s.core d c).fl.loads[n]? = some l)
include hl

theorem loadReturn_waits (h : (l.places.any fun p => s.channelBusy d p.1 p.2) = true ∨
    ((s.core d c).fl.loads.take n).any (fun o => l.places.any fun p => o.reads p.1 p.2) = true) :
    exec (.loadReturn d c n) s = .next s := by
  show execLoadReturn d c n s = _
  rw [execLoadReturn, hl]
  exact if_pos (by rwa [Bool.or_eq_true])

theorem loadReturn_lands (hs : l.kind ≠ .slot) (hb : (l.places.any fun p => s.channelBusy d p.1 p.2) = false)
    (ho : ((s.core d c).fl.loads.take n).any (fun o => l.places.any fun p => o.reads p.1 p.2) = false) :
    exec (.loadReturn d c n) s =
      .next ((l.places.foldl (fun s p => s.touchPa d p.1 p.2 .plain) s).updCore d c fun x =>
        { x with fl := { x.fl with loads := x.fl.loads.eraseIdx n } }.land l.reg (s.loadValue d c l).1 (s.loadValue d c l).2) := by
  show execLoadReturn d c n s = _
  rw [execLoadReturn, hl]
  refine (if_neg (by simp [hb, ho])).trans ?_
  cases hk : l.kind with
  | slot => exact absurd hk hs
  | ld w => rfl
  | ldp i m k => rfl

end

/-- Settles O11. -/
theorem loadsIssueAndReturn : Obligations.LoadsIssueAndReturn := by
  unfold Obligations.LoadsIssueAndReturn
  refine ⟨fun s w d a off k o hk h ht => ?ld, fun s d win idx h => ⟨fun hb => ?none, fun b hb => ?ldp⟩, fun s d c n l hl hs => ?back⟩
  case ld =>
    rw [exec_ld hk h.1, accessThen_ok h (by obtain rfl := Option.some.inj hk; exact ht), sendLoad_eq]
  case none =>
    show execLdp d win idx s = _
    rw [execLdp, if_pos (cReady_iff.2 h), hb]
  case ldp =>
    intro va n head flagged
    refine ⟨fun hv => ?invalid, fun hv hg => ?stale, fun hv hg => ⟨fun hz => ?beyond, fun o hin hva ht =>
      ⟨fun hh => ?one, fun p hh hvb hu => ?two⟩⟩⟩
    case invalid =>
      show execLdp d win idx s = _
      rw [execLdp, if_pos (cReady_iff.2 h), hb]
      exact if_pos (by simp [hv])
    case stale =>
      show execLdp d win idx s = _
      rw [execLdp, if_pos (cReady_iff.2 h), hb]
      exact (if_neg (by simp [hv])).trans (if_pos hg)
    case beyond =>
      exact (exec_ldp_bound h hb hv hg).trans (if_pos (by omega))
    case one =>
      refine (exec_ldp_bound h hb hv hg).trans ((if_neg (by omega)).trans ?_)
      rw [scalarPa_byte hva ht]
      exact if_pos hh
    case two =>
      refine (exec_ldp_bound h hb hv hg).trans ((if_neg (by omega)).trans ?_)
      rw [scalarPa_byte hva ht]
      refine (if_neg (by omega)).trans ?_
      rw [scalarPa_byte hvb hu]
      rfl
  case back =>
    intro older r bs bad v
    have hv : s.loadValue d c l = (if bad = true then 0 else v, bad) := loadValue_eq s d c l hs
    have hold : ((s.core d c).fl.loads.take n).any (fun o => l.places.any fun p => o.reads p.1 p.2) = true ↔ older := by
      simp only [List.any_eq_true]; rfl
    refine ⟨fun ho => ?_, fun ho hb => ?_⟩
    · exact loadReturn_waits hl (.inr (hold.2 ho))
    · have hbusy : (l.places.any fun p => s.channelBusy d p.1 p.2) = false := List.any_eq_false.2 fun p hp => by simp [hb p hp]
      rw [loadReturn_lands hl hs hbusy (Bool.eq_false_iff.2 fun h => ho (hold.1 h)), hv]

/-! ### What an update of a core keeps -/

/-- An update of a core that keeps a part of it keeps that part of every core, also where the core is absent. -/
theorem core_updCore_keeps {α : Type} {f : Core → α} {g : Core → Core} (hg : ∀ x, f (g x) = f x) (s : State) (d c d' c' : Nat) :
    f ((s.updCore d c g).core d' c') = f (s.core d' c') := by
  simp only [State.core, State.updCore, die_updDie]
  split
  · simp only [Die.updCore, List.getElem?_modify]
    cases (s.die d').cores[c']? with
    | none => rfl
    | some x =>
      by_cases h : c = c'
      · simp [h, hg]
      · simp [h]
  · rfl

theorem me_updMe_keeps {α : Type} {f : Core → α} {g : Core → Core} (hg : ∀ x, f (g x) = f x) (s : State) :
    f (s.updMe g).me = f s.me := core_updCore_keeps hg s _ _ _ _

/-! ### Stores (R116, R357) -/

section
variable {s : State}

theorem postStore_ok {ipa pa : Nat} {bs : List Byte} {t : State} (h : s.setDirty s.cur.die s.me 1 ipa = .ok t) :
    s.postStore ipa pa bs = .next (t.updMe fun x => { x with fl := { x.fl with
      stores := x.fl.stores ++ [⟨pa, ipa, bs, t.keyOf t.cur.die x.ctx.tenant, x.fl.seq, none⟩]
      seq := x.fl.seq + 1 } }).issued := by
  have h' : s.setDirty s.cur.die s.me Acc.write.code ipa = .ok t := h
  rw [State.postStore, h']
  rfl

variable {d c n : Nat}

/-- A store of the core's path goes to its quad's, unless an older access or a fence holds it back. -/
theorem storeStep_path {st : PStore} (hn : (s.core d c).fl.stores[n]? = some st)
    (hs : olderOverlap (s.core d c).fl.stores st = false) (hl : loadBlocks (s.core d c).fl.loads st = false) :
    exec (.storePerformedAtHome d c n) s =
      .next (if s.fenceHolds d c st.seq = true then s else s.toQuad d c fun t => t.seq == st.seq) := by
  show execStorePerformedAtHome d c n s = _
  rw [execStorePerformedAtHome, hn, apply_ite Host.Outcome.next]
  simp only [hs, hl, Bool.false_or]

/-- A store of the quad's path is performed, unless an older one holds it back or its pseudo-channel retrains. -/
theorem storeStep_quad {st : QStore} (hn : (s.core d c).fl.stores[n]? = none)
    (hm : (s.die d).qpath[n - (s.core d c).fl.stores.length]? = some st)
    (ho : (((s.die d).qpath.take (n - (s.core d c).fl.stores.length)).any fun o =>
      quadOf o.core == quadOf st.core && overlaps o.pa o.bytes.length st.pa st.bytes.length) = false) :
    exec (.storePerformedAtHome d c n) s = .next (if s.channelBusy d st.pa st.bytes.length = true then s
      else s.performQuad d fun t => t.core == st.core && t.seq == st.seq) := by
  show execStorePerformedAtHome d c n s = _
  rw [execStorePerformedAtHome, hn, apply_ite Host.Outcome.next]
  simp only [hm, ho, Bool.false_or]

end

/-- Settles O12. -/
theorem storesPostAndPerform : Obligations.StoresPostAndPerform := by
  unfold Obligations.StoresPostAndPerform
  refine ⟨fun s t w d a off k o hk h ht hd => ?_, fun s d c n st hn hs hl => storeStep_path hn ?_ ?_,
    fun s d c n m st hn hm hq ho => storeStep_quad hn (hm ▸ hq) ?_⟩
  · have hr : (s.updMe fun x => x.cache o.walked).me.val d = s.me.val d :=
      me_updMe_keeps (f := fun x : Core => x.val d) (g := fun x => x.cache o.walked) (fun _ => rfl) s
    rw [exec_st hk h.1, accessThen_ok h (by obtain rfl := Option.some.inj hk; exact ht), hr, postStore_ok hd]
  · simpa [olderOverlap] using hs
  · simpa [loadBlocks] using hl
  · rw [hm] at ho
    simpa [quadOf] using ho

end Sys2Proof.Machine
end


section
/-!
PROOF. O32: the gate of a command (R101, R203, R274): each form of the statement opens with it.
-/
namespace Sys2Proof.Machine
open Sys2Proof Sys2Proof.Safety

/-- An instruction opens with the gate of a timeline, on the scalars it reads. -/
def Gated (s : State) (i : Instr) (tl : TimelineId) (scal : List Nat) : Prop := ∃ k, exec i s = s.issueGate tl scal k

theorem gated_waits {s : State} {i : Instr} {tl : TimelineId} {scal : List Nat} (h : Gated s i tl scal)
    (hw : s.eReady scal = false ∨ s.cmdsFull tl = true) : exec i s = .next s := by
  obtain ⟨k, hk⟩ := h
  rw [hk, State.issueGate, if_pos (by rcases hw with hw | hw <;> simp [hw])]
  rfl

theorem gated_past {s : State} {i : Instr} {tl : TimelineId} {scal : List Nat} (h : Gated s i tl scal)
    (hr : s.eReady scal = true) (hf : s.cmdsFull tl = false) (hn : 2 ^ 56 ≤ s.me.nextNum tl) : exec i s = s.illegal := by
  obtain ⟨k, hk⟩ := h
  rw [hk, State.issueGate, if_neg (by simp [hr, hf]), if_pos hn]

theorem gated_splr (s : State) (t h : Nat) (rel : Bool) (rec : Option Shape4) :
    Gated s (.splr t h rel rec) .tln (if rel then relScalars h rec else operandScalars h rec) := by
  unfold Gated
  simp only [exec, execSplr]
  cases rel with
  | true =>
    simp only [if_true]
    exact ⟨_, rfl⟩
  | false =>
    simp only [Bool.false_eq_true, if_false]
    exact ⟨_, rfl⟩

/-- Settles O32. -/
theorem commandsWaitToIssue : Obligations.CommandsWaitToIssue := by
  unfold Obligations.CommandsWaitToIssue
  intro s i tl scal hi limit have'
  have hg : Gated s i tl scal := by
    rcases hi with ⟨t, h, cas, dup, rec, rfl, rfl, rfl⟩ | ⟨a, t, h, cas, sw, rec, rfl, rfl, rfl⟩ | ⟨v, t, h, c, cas, sw, rec, rfl, rfl, rfl⟩ |
      ⟨a, t, h, rec, rfl | rfl, rfl, rfl⟩ | ⟨a, b, t, rfl, rfl, rfl⟩ | ⟨a, t, rfl | rfl, rfl, rfl⟩ | ⟨d, t, h, cas, rec, rfl, rfl, rfl⟩ |
      ⟨t, h, rel, rec, rfl, rfl, rfl⟩ | ⟨a, t, h, cas, rec, rfl, rfl, rfl⟩ | ⟨d, t, h, rec, rfl, rfl, rfl⟩ |
      ⟨a, t, rfl | rfl, rfl, rfl⟩ | ⟨a, b, t, rfl, rfl, rfl⟩ | ⟨t, a, b, hint, drain, rec, rfl, rfl, rfl⟩ | ⟨t, a, rfl | rfl, rfl, rfl⟩ |
      ⟨t, a, b, c, w, rfl, rfl, rfl⟩ | ⟨t, a, b, c, w, rfl, rfl, rfl⟩ | ⟨t, a, b, c, cls, w, rfl, rfl, rfl⟩ | ⟨t, a, b, rfl, rfl, rfl⟩ |
      ⟨t, a, b, rfl | rfl | rfl, rfl, rfl⟩ | ⟨t, m, rfl, rfl, rfl⟩ | ⟨t, rfl, rfl, rfl⟩
    case inr.inr.inr.inr.inr.inr.inr.inl => exact gated_splr s t h rel rec
    all_goals
      unfold Gated
      simp only [exec, execMmw, execMma, execMmar, execTask, execTfwd, State.taskIssue, execAcal, execAcfr, execAczr, State.issueBanks,
        execAcdr, execSpmv, execSpjn, execSpmg, execSpage, execSprd, State.issueSlot, execSbind, execSunb, execDfl, State.streamEnd,
        execRld, execRst, execRmc, execTkget, execTkwait, execTkret, execWdpub, execRfence, execPbar, State.remoteThen, State.gateF]
      exact ⟨_, rfl⟩
  have hl : cmdLimit tl = limit := by cases tl <;> rfl
  have hfull : s.cmdsFull tl = decide (limit ≤ have') := by rw [← hl]; rfl
  refine ⟨fun hr => gated_waits hg (.inl hr), fun hf => gated_waits hg (.inr (hfull.trans (decide_eq_true hf))), fun hr hf hn => ?_⟩
  exact gated_past hg hr (hfull.trans (decide_eq_false (Nat.not_le.2 hf))) hn

end Sys2Proof.Machine
end


section
/-!
PROOF. A command issues (R43, R101, R203): what its entry leaves, once for every form. The gate of its timeline passes, the faults
of its scalars and of its record are none, and the command stands numbered behind the others of its core.
-/
namespace Sys2Proof.Machine
open Sys2Proof Sys2Proof.Safety

/-! ### The command enters -/

@[simp] theorem timelines_get_set (t : Timelines) (i : TimelineId) (v : Timeline) : (t.set i v).get i = v := by cases i <;> rfl

/-- A completion of a new command that leaves who it is and what it holds. -/
structure KeepsCommand (f : Cmd → Cmd) : Prop where
  tl    : ∀ k, (f k).tl = k.tl
  num   : ∀ k, (f k).num = k.num
  token : ∀ k, (f k).token = k.token
  args  : ∀ k, (f k).args = k.args
  rank  : ∀ k, (f k).rank = k.rank
  addr  : ∀ k, (f k).addr = k.addr
  lane  : ∀ k, (f k).lane = k.lane
  kmode : ∀ k, (f k).kmode = k.kmode
  rel   : ∀ k, (f k).rel = k.rel

theorem keepsCommand_id : KeepsCommand id :=
  ⟨fun _ => rfl, fun _ => rfl, fun _ => rfl, fun _ => rfl, fun _ => rfl, fun _ => rfl, fun _ => rfl, fun _ => rfl, fun _ => rfl⟩

theorem keepsCommand_finish (n : Nat) : KeepsCommand fun k => k.finish n :=
  ⟨fun _ => rfl, fun _ => rfl, fun _ => rfl, fun _ => rfl, fun _ => rfl, fun _ => rfl, fun _ => rfl, fun _ => rfl, fun _ => rfl⟩

theorem keepsCommand_extra (l : List Nat) : KeepsCommand fun k => { k with extra := l } :=
  ⟨fun _ => rfl, fun _ => rfl, fun _ => rfl, fun _ => rfl, fun _ => rfl, fun _ => rfl, fun _ => rfl, fun _ => rfl, fun _ => rfl⟩

/-- Taking stream tiles keeps every part of a core that a changed binding keeps. -/
theorem takeAll_keeps {α : Type} (g : Core → α) (hg : ∀ x t rank f, g (Core.updBinding x t rank f) = g x) (rank : Nat) (l : List CmdArg)
    (x : Core) : g (x.takeAll rank l) = g x := by
  induction l generalizing x with
  | nil => rfl
  | cons a l ih =>
    refine (ih _).trans ?_
    dsimp only
    split
    · exact hg ..
    · rfl

/-- An argument with the scalars its instruction reads. -/
theorem withScalars_one (s : State) (a : CmdArg) :
    withScalars s [a] = [{ a with raw := (issueScalars a.instr).map s.me.val }] := rfl

/-- Which stream tiles a group takes does not depend on the scalars its repetitions read. -/
theorem takeAll_withScalars (s : State) (x : Core) (rank : Nat) (l : List CmdArg) (a : CmdArg) :
    x.takeAll rank (l ++ withScalars s [a]) = x.takeAll rank (l ++ [a]) := by
  simp only [withScalars_one, Core.takeAll, List.foldl_append, List.foldl_cons, List.foldl_nil]

theorem queues_get_set {q : Queues} {e : Engine} {l : List QEntry} (h : e ≠ .c) : (q.set e l).get e = l := by
  cases e with
  | c => exact absurd rfl h
  | v => rfl
  | m => rfl
  | y => rfl
  | f => rfl

/-- The C lanes have no queue. -/
theorem engine_of_head {q : Queues} {e : Engine} {h : QEntry} {l : List QEntry} (hq : q.get e = h :: l) : e ≠ .c := by
  rintro rfl
  cases hq

/-- The head of a queue that has a repetition left goes on to it. -/
theorem issued_head {x : Core} {e : Engine} {rep reps : Nat} {h : QEntry} {l : List QEntry} (hr : rep + 1 < reps)
    (hq : x.q.get e = h :: l) : (x.issued e rep reps).q.get e = { h with rep := rep + 1 } :: l := by
  unfold Core.issued
  split
  · cases hq
  · dsimp only
    rw [queues_get_set (engine_of_head hq), hq]
    simp only [hr, if_true]

/-- A repetition before the last adds itself to its group and nothing else. -/
theorem queued_captureRep {s : State} (hc : s.focusOk = true) (hr : s.cur.rep + 1 < s.cur.reps) (tl : TimelineId) (t : Nat) {l args : List CmdArg}
    (hl : l = withScalars s args) : Queued s (s.captureRep l) tl t args where
  last h := absurd hr h
  more _ := by
    refine ⟨by simp [State.captureRep, hc], by simp [State.captureRep, hc], fun e q he => ?_⟩
    have hh : (s.me.setQ fun q => q.set s.cur.engine (match q.get s.cur.engine with
        | [] => []
        | h :: t => { h with acc := h.acc ++ l } :: t)).q.get s.cur.engine = { e with acc := e.acc ++ l } :: q := by
      rw [setQ_q, queues_get_set (engine_of_head he), he]
    rw [State.captureRep, me_issued _ (by simp [hc]), me_updMe _ _ hc, ← hl]
    exact issued_head hr hh
  kept := ⟨by simp [State.captureRep, hc], fun e k a n => by simp [State.captureRep]⟩

/-- A command issued: its group is captured, and with the last repetition it is numbered and stands behind the others; the stream
tiles of its repetitions are taken. -/
theorem issueCmd_enters {s : State} (hc : s.focusOk = true) (tl : TimelineId) (t : Nat) (a : CmdArg) {f : Cmd → Cmd} (hf : KeepsCommand f) :
    ∃ u, s.issueCmd tl t a f = .next u ∧ Queued s u tl t [a] ∧ Takes s u [a] ∧
      (¬ s.cur.rep + 1 < s.cur.reps → u.me.fl.cmds = s.me.fl.cmds ++ [f (s.newCmd tl t (s.cur.acc ++ withScalars s [a]))]) := by
  unfold State.issueCmd
  by_cases hr : s.cur.rep + 1 < s.cur.reps
  · rw [if_pos hr]
    exact ⟨_, rfl, queued_captureRep hc hr tl t rfl, fun h => absurd hr h, fun h => absurd hr h⟩
  · rw [if_neg hr]
    dsimp only
    simp only [← withScalars_one]
    have hcmds := takeAll_keeps Core.fl (fun _ _ _ _ => rfl) s.cur.rank (s.cur.acc ++ withScalars s [a]) s.me
    have htls := takeAll_keeps Core.tls (fun _ _ _ _ => rfl) s.cur.rank (s.cur.acc ++ withScalars s [a]) s.me
    have hregs := takeAll_keeps Core.regs (fun _ _ _ _ => rfl) s.cur.rank (s.cur.acc ++ withScalars s [a]) s.me
    refine ⟨_, rfl, ⟨fun _ => ⟨?_, f (s.newCmd tl t (s.cur.acc ++ withScalars s [a])), ?_, ?_⟩, fun h => absurd h hr, ?_, fun e k a n => ?_⟩,
      fun _ => ?_, fun _ => ?_⟩
    · simp [hc, Core.setFl, Core.takeNum, htls]
    · simp [hc, hcmds]
    · simp only [hf.tl, hf.num, hf.token, hf.args, hf.rank, hf.addr, hf.lane, hf.kmode, hf.rel]
      exact ⟨rfl, rfl, rfl, rfl, rfl, rfl, rfl, rfl, rfl⟩
    · simp [hc, hregs]
    · simp
    · simp [hc, takeAll_withScalars]
    · simp [hc, hcmds]

/-! ### What an issue passes -/

theorem poisonBads_clean {x : Core} {l : List Nat} (h : ∀ r ∈ l, x.poisoned r = false) : poisonBads x l = [] := by
  rw [poisonBads, firstPoison_none h]

/-- The bits of a word from lo up are zero where the word is below 2^lo. -/
theorem fieldOf_top {v : W64} {hi lo : Nat} (h : v.toNat < 2 ^ lo) : fieldOf v hi lo = 0 := by
  simp only [fieldOf, bitField, Nat.div_eq_of_lt h, Nat.zero_mod]

theorem issueGate_go {s : State} {tl : TimelineId} {scal : List Nat} (h : IssueGo s tl scal) (k : State → Out) :
    s.issueGate tl scal k = k s := by
  rw [State.issueGate, if_neg (by simp [h.ready, h.room]), if_neg (Nat.not_le.2 h.number)]

/-- A record that is there, with nothing to wait for and no fault of its form, is passed on. -/
theorem recordThen_go {s : State} {h : Nat} {rec : Option Shape4} {p : Pattern} {waits : Pattern → Bool} {bads : Pattern → List Bad}
    (hp : HasRecord s h rec p) (hc : ∀ r ∈ operandScalars h rec, s.me.poisoned r = false) (hw : waits p = false) (hb : bads p = [])
    (k : Pattern → Out) : s.recordThen h rec waits bads k = k p := by
  obtain ⟨hm, ho⟩ := hp
  unfold State.recordThen
  simp [hm, ho, hw, hb, poisonBads_clean hc, worstOf]

theorem captureTile_go {s : State} {v : Nat} (h : HasTile s v) (k : Tile → Option (Nat × Nat) → Out) :
    s.captureTile v k = k (s.readTile v) (s.streamTile v) := by
  obtain ⟨-, -, -, hb, hp⟩ := h
  simp [State.captureTile, hb, hp]

theorem claimTile_go {s : State} {d : Nat} (h : HasSink s d) (k : Option (Nat × Nat) → Out) : s.claimTile d k = k (s.streamTile d) := by
  obtain ⟨-, -, -, hb⟩ := h
  simp [State.claimTile, hb]

end Sys2Proof.Machine
end


section
/-!
PROOF. O33: the matrix commands (R219 to R228), the fetching `mmar` (R349) and the task commands (R285, R286, R297) pass their
checks and enter `tlm`.
-/
namespace Sys2Proof.Machine
open Sys2Proof Sys2Proof.Safety

/-! ### Matrix commands -/

section
variable {s : State}

theorem exec_mmw {t h cas : Nat} {dup : Bool} {rec : Option Shape4} {p : Pattern} (hg : IssueGo s .tlm (operandScalars h rec))
    (hp : HasRecord s h rec p) (hl : mmwLimits p = true) (ht : (tagClass p.tag).isSome = true) (hf : p.formatBad = false)
    (hw : s.me.booksWait s.cur.rank [p] = false) :
    exec (.mmw t h cas dup rec) s = s.issueCmd .tlm t (patArg (.mmw t h cas dup rec) [] [p]) id := by
  have hb : mmwFaults p = [] := by simp [mmwFaults, hl, hf, Option.isSome_iff_ne_none.1 ht]
  show execMmw t h cas dup rec s = _
  rw [execMmw, issueGate_go hg, recordThen_go hp hg.clean hw hb]

theorem exec_mma {a : TOp} {t h cas : Nat} {sw : Bool} {rec : Option Shape4} {p : Pattern} (hg : IssueGo s .tlm (operandScalars h rec))
    (ht : HasTile s a.v) (hs : bsBad rec = false) (hp : HasRecord s h rec p) (hbase : p.base = 0) (hst : p.st3 = 0)
    (hl : mmaLimits p = true) (hf : mmaFormat p a.dir (tagOf s a) = true) (hw : s.me.tagsWait s.cur.rank [tagOf s a, p.tag] = false) :
    exec (.mma a t h cas sw rec) s =
      s.issueCmd .tlm t (mmaArg s.me (.mma a t h cas sw rec) p (s.readTile a.v) (s.streamTile a.v)) id := by
  have hb : mmaBads p a.dir (tagOf s a) = [] := by simp [mmaBads, hbase, hst, hl, hf]
  have htile := ht
  obtain ⟨hbind, hread, huse, -, -⟩ := ht
  show execMma a t h cas sw rec s = _
  rw [execMma, issueGate_go hg]
  simp only [hbind, hread, huse, hs, Bool.or_self, Bool.false_eq_true, if_false]
  exact (recordThen_go hp hg.clean hw hb _).trans (captureTile_go htile _)

theorem exec_acal {a b t : Nat} (hg : IssueGo s .tlm [a, b]) (hr : reqBad (s.me.val a) = false) (hb : (s.me.val b).toNat < 2 ^ 32) :
    exec (.acal a b t) s = s.issueCmd .tlm t (plainArg (.acal a b t) [s.me.val a, s.me.val b]) id := by
  show execAcal a b t s = _
  rw [execAcal, issueGate_go hg]
  simp [hr, fieldOf_top hb, firstPoison_none hg.clean]

theorem issueBanks_go {a t : Nat} {i : Instr} (hg : IssueGo s .tlm [a]) (hr : reqBad (s.me.val a) = false) :
    s.issueBanks a t i = s.issueCmd .tlm t (plainArg i [s.me.val a]) id := by
  rw [State.issueBanks, issueGate_go hg]
  simp [hr, hg.clean a (by simp)]

theorem exec_banks {a t : Nat} {i : Instr} (hi : i ∈ [Instr.acfr a t, Instr.aczr a t]) (hg : IssueGo s .tlm [a])
    (hr : reqBad (s.me.val a) = false) : exec i s = s.issueCmd .tlm t (plainArg i [s.me.val a]) id := by
  simp only [List.mem_cons, List.not_mem_nil, or_false] at hi
  rcases hi with rfl | rfl
  · exact issueBanks_go hg hr
  · exact issueBanks_go hg hr

theorem exec_acdr {d t h cas : Nat} {rec : Option Shape4} {p : Pattern} (hg : IssueGo s .tlm (operandScalars h rec)) (hd : HasSink s d)
    (hs : bsBad rec = false) (hp : HasRecord s h rec p) (hl : acdrLimits p = true) :
    exec (.acdr d t h cas rec) s = s.issueCmd .tlm t { patArg (.acdr d t h cas rec) [] [p] with strm := s.streamTile d } id := by
  have hsink := hd
  obtain ⟨hbind, huse, htag, -⟩ := hd
  show execAcdr d t h cas rec s = _
  rw [execAcdr, issueGate_go hg]
  simp only [hbind, huse, hs, Bool.or_self, Bool.false_eq_true, if_false]
  exact (recordThen_go hp hg.clean rfl (by simp [hl, htag]) _).trans (claimTile_go hsink _)

/-! ### mmar -/

/-- A remote command captured; with its last repetition the waiting ones of its core go on. -/
theorem issueF_next {tl : TimelineId} {t : Nat} {a : CmdArg} {f : Cmd → Cmd} {u : State} (h : s.issueCmd tl t a f = .next u) :
    s.issueF tl t a f = .next (if s.cur.rep + 1 < s.cur.reps then u else u.launchF s.cur.die s.cur.core) := by
  rw [State.issueF, h]
  dsimp only
  split
  · rfl
  · rfl

/-- What an `mmar` command holds. -/
def mmarArg (x : Core) (i : Instr) (p : Pattern) (tag d : Nat) : CmdArg :=
  { remoteArg i (BitVec.ofNat 64 p.base) (BitVec.ofNat 64 p.st3.toNat) (BitVec.ofNat 64 tag) 0 [d] [{ p with base := 0, st3 := 0 }] with
    books := x.booksFor [p.tag] }

theorem exec_mmar {v t h : Nat} {c : RClass} {cas : Nat} {sw : Bool} {rec : Option Shape4} {p : Pattern} {q : Nat}
    (hg : IssueGo s .tlm (operandScalars h rec)) (hv : v < 48) (hs : bsBad rec = false) (hm : s.me.mWriteWaits s.cur.rank [v] = false)
    (hp : HasRecord s h rec p) (hl : mmaLimits p = true) (hb : p.base < 2 ^ 56) (hb64 : p.base % 64 = 0) (hst : 0 ≤ p.st3)
    (hst' : p.st3 < 4096) (ht : mmarTagBad p (s.me.tileAt v s.cur.rank).tag = false) (hw : s.me.tagsWait s.cur.rank [p.tag] = false)
    (hq : s.peer s.cur.die s.me p.st3.toNat = .ok q) :
    exec (.mmar v t h c cas sw rec) s =
      s.issueF .tlm t (mmarArg s.me (.mmar v t h c cas sw rec) p (s.me.tileAt v s.cur.rank).tag (s.dieOfPeer q)) id := by
  have hd : s.peerDie p.st3.toNat (BitVec.ofNat 64 p.st3.toNat) = .ok (s.dieOfPeer q) := by rw [State.peerDie, hq]
  have hbads : s.mmarBads (s.me.tileAt v s.cur.rank).tag p = [] := by
    simpa [State.mmarBads, hl, hd, ht, badsOf] using And.intro hb ⟨hb64, hst, hst'⟩
  show execMmar v t h c cas sw rec s = _
  rw [execMmar, issueGate_go hg]
  simp only [show ¬ firstStream ≤ v from Nat.not_le.2 hv, hs, hm, decide_false, Bool.or_self, Bool.false_eq_true, if_false]
  refine (recordThen_go hp hg.clean hw hbads _).trans ?_
  rw [hd]
  rfl

/-! ### Tasks -/

/-- A task captured; with its last repetition it enters, as far as the waiting tasks of its core come before it. -/
theorem issueTask_next {t : Nat} {a : CmdArg} {u : State} (h : s.issueCmd .tlm t a id = .next u) :
    s.issueTask t a = .next (if s.cur.rep + 1 < s.cur.reps then u else u.letIn 64 s.cur.die s.cur.core) := by
  rw [State.issueTask, h]
  dsimp only
  split
  · rfl
  · rfl

/-- A task command whose record, peer and tile operand are in order, with room in the table it is for. -/
structure TaskGo (s : State) (a : TOp) (h : Nat) (rec : Option Shape4) (fwd : Bool) (r : TaskRec) (dd : Nat) : Prop where
  go    : IssueGo s .tlm (taskScalars h rec)
  mode  : modeMatches s.me rec = true
  binds : s.me.bindWaits s.cur.rank [a.v] = false
  reads : s.me.mReadWaits s.cur.rank [a.v] = false
  use   : s.streamMisuse [a.v] [] = false
  rec'  : s.taskRecord h rec = .ok r
  legal : r.legal fwd = true
  die   : s.taskDie r fwd = .ok dd
  room  : fwd = false → (s.die dd).tableFull = false ∧ s.entrantsWait dd = false

section
variable {a : TOp} {t h : Nat} {rec : Option Shape4} {fwd : Bool} {r : TaskRec} {dd : Nat}

/-- Up to the directory's checks nothing stands in the way of such a command. -/
theorem taskIssue_checked {i : Instr} (hg : TaskGo s a h rec fwd r dd) {c : TaskCheck}
    (hc : checkTask (s.die dd) s.me.ctx.tenant r (tagOf s a) a.dir = c) (hb : c.bads = []) :
    s.taskIssue i a t h fwd rec = if c = .refused then
      s.issueTask t (taskArg i r (s.myDie.patience s.cur.core r.pat) dd (if fwd && ((s.die dd).advertised r.wid).isNone then 0x23 else 0x22) none
        (s.streamTile a.v))
    else s.captureTile a.v fun tile n => s.issueTask t (taskArg i r (s.myDie.patience s.cur.core r.pat) dd 0 (some tile) n) := by
  have hroom : (!fwd && ((s.die dd).tableFull || s.entrantsWait dd)) = false := by
    cases hf : fwd with
    | true => rfl
    | false => simp [hg.room hf]
  have hcheck : checkTask (s.die dd) s.me.ctx.tenant r (s.readTile a.v).tag a.dir = c := hc
  rw [State.taskIssue, issueGate_go hg.go]
  simp only [hg.binds, hg.reads, hg.use, hg.mode, hg.rec', hg.legal, hg.die, hroom, hcheck, hb, poisonBads_clean hg.go.clean, Bool.or_self,
    Bool.not_true, Bool.false_eq_true, if_false, if_true, List.append_nil, worstOf]

theorem taskIssue_ok {i : Instr} (hg : TaskGo s a h rec fwd r dd) (hc : checkTask (s.die dd) s.me.ctx.tenant r (tagOf s a) a.dir = .ok)
    (ht : HasTile s a.v) : s.taskIssue i a t h fwd rec =
      s.issueTask t (taskArg i r (s.myDie.patience s.cur.core r.pat) dd 0 (some (s.readTile a.v)) (s.streamTile a.v)) := by
  rw [taskIssue_checked hg hc rfl, if_neg nofun, captureTile_go ht]

theorem taskIssue_refused {i : Instr} (hg : TaskGo s a h rec fwd r dd)
    (hc : checkTask (s.die dd) s.me.ctx.tenant r (tagOf s a) a.dir = .refused) : s.taskIssue i a t h fwd rec =
      s.issueTask t (taskArg i r (s.myDie.patience s.cur.core r.pat) dd
        (if fwd = true ∧ ((s.die dd).advertised r.wid).isNone = true then 0x23 else 0x22) none (s.streamTile a.v)) := by
  rw [taskIssue_checked hg hc rfl, if_pos rfl]
  simp only [Bool.and_eq_true]

theorem exec_taskForm : exec (if fwd then Instr.tfwd a t h rec else Instr.task a t h rec) s =
    s.taskIssue (if fwd then Instr.tfwd a t h rec else Instr.task a t h rec) a t h fwd rec := by
  cases fwd with
  | true => rfl
  | false => rfl

end

end

/-! ### The obligation -/

/-- Settles O33. -/
theorem matrixCommandsEnter : Obligations.MatrixCommandsEnter := by
  unfold Obligations.MatrixCommandsEnter
  intro s
  refine ⟨fun t h cas dup rec p hg hp hl ht hf hw => ?_, fun a t h cas sw rec p hg ht hs hp hb hst hl hf hw => ?_,
    fun a b t hg hr hb => ?_, fun a t i hi hg hr => ?_, fun d t h cas rec p hg hd hs hp hl => ?_,
    fun v t h c cas sw rec p q hg hv hs hm hp hl hb hb64 hst hst' ht hw hq => ?_,
    fun a t h rec fwd r dd hg hm hbind hread huse hrec hl hd hroom => ?_⟩
  · obtain ⟨u, hu, hq, -, -⟩ := issueCmd_enters hg.core .tlm t (patArg (.mmw t h cas dup rec) [] [p]) keepsCommand_id
    exact ⟨u, (exec_mmw hg hp hl ht hf hw).trans hu, hq⟩
  · obtain ⟨u, hu, hq, hk, -⟩ := issueCmd_enters hg.core .tlm t
      (mmaArg s.me (.mma a t h cas sw rec) p (s.readTile a.v) (s.streamTile a.v)) keepsCommand_id
    exact ⟨u, (exec_mma hg ht hs hp hb hst hl hf hw).trans hu, hq, hk⟩
  · obtain ⟨u, hu, hq, -, -⟩ := issueCmd_enters hg.core .tlm t (plainArg (.acal a b t) [s.me.val a, s.me.val b]) keepsCommand_id
    exact ⟨u, (exec_acal hg hr hb).trans hu, hq⟩
  · obtain ⟨u, hu, hq, -, -⟩ := issueCmd_enters hg.core .tlm t (plainArg i [s.me.val a]) keepsCommand_id
    exact ⟨u, (exec_banks hi hg hr).trans hu, hq⟩
  · obtain ⟨u, hu, hq, hk, -⟩ := issueCmd_enters hg.core .tlm t
      { patArg (.acdr d t h cas rec) [] [p] with strm := s.streamTile d } keepsCommand_id
    exact ⟨u, (exec_acdr hg hd hs hp hl).trans hu, hq, hk⟩
  · obtain ⟨u, hu, hqd, -, -⟩ := issueCmd_enters hg.core .tlm t
      (mmarArg s.me (.mmar v t h c cas sw rec) p (s.me.tileAt v s.cur.rank).tag (s.dieOfPeer q)) keepsCommand_id
    exact ⟨u, _, (exec_mmar hg hv hs hm hp hl hb hb64 hst hst' ht hw hq).trans (issueF_next hu), rfl, rfl, rfl, rfl, hqd⟩
  · have hgo : TaskGo s a h rec fwd r dd := ⟨hg, hm, hbind, hread, huse, hrec, hl, hd, hroom⟩
    refine ⟨fun hc ht => ?_, fun hc => ?_⟩
    · obtain ⟨u, hu, hq, hk, -⟩ := issueCmd_enters hg.core .tlm t (taskArg (if fwd then Instr.tfwd a t h rec else Instr.task a t h rec) r
        (s.myDie.patience s.cur.core r.pat) dd 0 (some (s.readTile a.v)) (s.streamTile a.v)) keepsCommand_id
      exact ⟨u, exec_taskForm.trans ((taskIssue_ok hgo hc ht).trans (issueTask_next hu)), hq, hk⟩
    · obtain ⟨u, hu, hq, hk, -⟩ := issueCmd_enters hg.core .tlm t (taskArg (if fwd then Instr.tfwd a t h rec else Instr.task a t h rec) r
        (s.myDie.patience s.cur.core r.pat) dd (if fwd = true ∧ ((s.die dd).advertised r.wid).isNone = true then 0x23 else 0x22) none
        (s.streamTile a.v)) keepsCommand_id
      exact ⟨u, exec_taskForm.trans ((taskIssue_refused hgo hc).trans (issueTask_next hu)), hq, hk⟩

end Sys2Proof.Machine
end


section
/-!
PROOF. O34: the commands of the split unit (R319 to R326) pass their checks and enter `tln`.
-/
namespace Sys2Proof.Machine
open Sys2Proof Sys2Proof.Safety

section
variable {s : State}

theorem exec_splr_rel {t h : Nat} {rec : Option Shape4} {n : Int} (hg : IssueGo s .tln (relScalars h rec))
    (hm : modeMatches s.me rec = true) (hr : s.relSlot h rec = .ok n) (h0 : 0 ≤ n) (h63 : n ≤ 63) :
    exec (.splr t h true rec) s = s.issueCmd .tln t (plainArg (.splr t h true rec) [BitVec.ofNat 64 n.toNat]) id := by
  have hn : ¬ (n < 0 ∨ 63 < n) := by omega
  show execSplr t h true rec s = _
  rw [execSplr, if_pos rfl, issueGate_go hg]
  simp [hm, hr, hn, poisonBads_clean hg.clean, worstOf]

theorem exec_splr {t h : Nat} {rec : Option Shape4} {p : Pattern} (hg : IssueGo s .tln (operandScalars h rec))
    (hp : HasRecord s h rec p) (hl : splrLimits p = true) :
    exec (.splr t h false rec) s = s.issueCmd .tln t (patArg (.splr t h false rec) [BitVec.ofNat 64 p.st3.toNat] [p]) id := by
  show execSplr t h false rec s = _
  rw [execSplr, if_neg nofun, issueGate_go hg, recordThen_go hp hg.clean rfl (if_pos hl)]

/-- The tiles of an x vector are accepted (R322): a legal record, a group that is aligned and in the allotment, no stream tile in a
group of several, and tags that fit. -/
theorem spmvBads_none {a : Nat} {p : Pattern} (hl : spmvLimits p = true) (hal : a % (groupTiles a p.e0).length = 0)
    (hin : a + (groupTiles a p.e0).length ≤ s.me.ctx.tiles) (huse : s.streamMisuse (groupTiles a p.e0) [] = false)
    (hplain : (groupTiles a p.e0).length = 1 ∨ ∀ v ∈ groupTiles a p.e0, s.me.bindingAt v s.cur.rank = none)
    (htag : ∀ v ∈ groupTiles a p.e0, xTagOk p.tag p.e0 (s.readTile v).tag = true) : s.spmvBads a p = [] := by
  have hill : (!spmvLimits p || decide (a % (groupTiles a p.e0).length ≠ 0 ∨ s.me.ctx.tiles < a + (groupTiles a p.e0).length) ||
      s.streamMisuse (groupTiles a p.e0) [] ||
      (decide (1 < (groupTiles a p.e0).length) && (groupTiles a p.e0).any fun v => (s.me.bindingAt v s.cur.rank).isSome)) = false := by
    simp only [hl, huse, Bool.not_true, Bool.false_or, Bool.or_false, Bool.or_eq_false_iff, Bool.and_eq_false_iff, decide_eq_false_iff_not]
    refine ⟨by omega, ?_⟩
    rcases hplain with h1 | hno
    · exact .inl (by omega)
    · exact .inr (List.any_eq_false.2 fun v hv => by simp [hno v hv])
  simp only [State.spmvBads, hill, List.all_eq_true.2 htag, Bool.false_eq_true, if_false, if_true, List.append_nil]

/-- No element of the x vector that the multiply reads is poisoned. -/
theorem spmvTiles_clean {l : List Tile} {n : Nat} (h : ∀ (i : Nat) (v : Tile), l[i]? = some v → (v.poison.take (n - 1024 * i)).any id = false) :
    ((l.mapIdx fun i v => (i, v)).find? fun q => (q.2.poison.take (min 1024 (n - 1024 * q.1))).any id) = none := by
  refine List.find?_eq_none.2 fun q hq => ?_
  obtain ⟨i, hi, rfl⟩ := List.mem_mapIdx.1 hq
  have hclean := List.any_eq_false.1 (h i _ (List.getElem?_eq_getElem hi))
  rw [Bool.not_eq_true, List.any_eq_false]
  exact fun b hb => hclean b ((List.take_sublist_take_left (Nat.min_le_right ..)).subset hb)

theorem exec_spmv {a t h cas : Nat} {rec : Option Shape4} {p : Pattern} (hg : IssueGo s .tln (operandScalars h rec))
    (hp : HasRecord s h rec p) (hb : s.spmvBads a p = []) (hbind : s.me.bindWaits s.cur.rank (groupTiles a p.e0) = false)
    (hread : s.me.mReadWaits s.cur.rank (groupTiles a p.e0) = false) (hbar : s.readBar false (groupTiles a p.e0) = .clear)
    (hclean : ∀ i v, (groupTiles a p.e0)[i]? = some v → ((s.readTile v).poison.take (p.e0 - 1024 * i)).any id = false) :
    exec (.spmv a t h cas rec) s =
      s.issueCmd .tln t (spmvArg (.spmv a t h cas rec) p ((groupTiles a p.e0).map s.readTile) (s.streamTile a)) id := by
  have hnone := spmvTiles_clean (l := (groupTiles a p.e0).map s.readTile) (n := p.e0) fun i v hv => by
    obtain ⟨w, hw, rfl⟩ := Option.map_eq_some_iff.1 (List.getElem?_map ▸ hv)
    exact hclean i w hw
  show execSpmv a t h cas rec s = _
  rw [execSpmv, issueGate_go hg]
  refine (recordThen_go hp hg.clean (by simp [hbind, hread]) hb _).trans ?_
  simp only [hbar, hnone]

theorem exec_spjn {d t h : Nat} {rec : Option Shape4} {p : Pattern} (hg : IssueGo s .tln (operandScalars h rec)) (hd : HasSink s d)
    (hp : HasRecord s h rec p) (hl : spjnLimits p = true) : exec (.spjn d t h rec) s = s.issueCmd .tln t
      { patArg (.spjn d t h rec) [BitVec.ofNat 64 p.base, BitVec.ofNat 64 p.st3.toNat] [p] with strm := s.streamTile d } id := by
  have hsink := hd
  obtain ⟨hbind, huse, htag, -⟩ := hd
  show execSpjn d t h rec s = _
  rw [execSpjn, issueGate_go hg]
  simp only [hbind, huse, Bool.false_eq_true, if_false]
  exact (recordThen_go hp hg.clean rfl (by simp [hl, htag]) _).trans (claimTile_go hsink _)

theorem issueSlot_go {a t : Nat} {rs : List Nat} {i : Instr} {ok : Core → Bool} (hg : IssueGo s .tln rs)
    (hs : (s.me.val a).toNat < 64) (ho : ok s.me = true) :
    s.issueSlot a t rs i ok = s.issueCmd .tln t (plainArg i (rs.reverse.map s.me.val)) id := by
  have hf : fieldOf (s.me.val a) 63 6 = 0 := fieldOf_top hs
  rw [State.issueSlot, issueGate_go hg]
  simp [hf, ho, firstPoison_none hg.clean]

theorem exec_slots {a t : Nat} {i : Instr} (hi : i ∈ [Instr.spmg a t, Instr.spage a t]) (hg : IssueGo s .tln [a])
    (hs : (s.me.val a).toNat < 64) : exec i s = s.issueCmd .tln t (plainArg i [s.me.val a]) id := by
  simp only [List.mem_cons, List.not_mem_nil, or_false] at hi
  rcases hi with rfl | rfl
  · exact issueSlot_go (ok := fun _ => true) hg hs rfl
  · exact issueSlot_go (ok := fun _ => true) hg hs rfl

theorem exec_sprd {a b t : Nat} (hg : IssueGo s .tln [a, b]) (hs : (s.me.val a).toNat < 64) (hb : (s.me.val b).toNat % 64 = 0) :
    exec (.sprd a b t) s = s.issueCmd .tln t (plainArg (.sprd a b t) [s.me.val b, s.me.val a]) id :=
  issueSlot_go (ok := fun x => (x.val b).toNat % 64 == 0) hg hs (beq_iff_eq.2 hb)

end

/-- Settles O34. -/
theorem splitCommandsEnter : Obligations.SplitCommandsEnter := by
  unfold Obligations.SplitCommandsEnter
  intro s
  refine ⟨fun t h rec n hg hm hr h0 h63 => ?_, fun t h rec p hg hp hl => ?_,
    fun a t h cas rec p hg hp hl hal hin hbind hread huse hplain hbar htag hclean => ?_, fun d t h rec p hg hd hp hl => ?_,
    fun a t i hi hg hs => ?_, fun a b t hg hs hb => ?_⟩
  · obtain ⟨u, hu, hq, -, -⟩ := issueCmd_enters hg.core .tln t (plainArg (.splr t h true rec) [BitVec.ofNat 64 n.toNat]) keepsCommand_id
    exact ⟨u, (exec_splr_rel hg hm hr h0 h63).trans hu, hq⟩
  · obtain ⟨u, hu, hq, -, -⟩ := issueCmd_enters hg.core .tln t
      (patArg (.splr t h false rec) [BitVec.ofNat 64 p.st3.toNat] [p]) keepsCommand_id
    exact ⟨u, (exec_splr hg hp hl).trans hu, hq⟩
  · have hb := spmvBads_none hl hal hin huse hplain htag
    obtain ⟨u, hu, hq, hk, -⟩ := issueCmd_enters hg.core .tln t
      (spmvArg (.spmv a t h cas rec) p ((groupTiles a p.e0).map s.readTile) (s.streamTile a)) keepsCommand_id
    exact ⟨u, (exec_spmv hg hp hb hbind hread hbar hclean).trans hu, hq, hk⟩
  · obtain ⟨u, hu, hq, hk, -⟩ := issueCmd_enters hg.core .tln t
      { patArg (.spjn d t h rec) [BitVec.ofNat 64 p.base, BitVec.ofNat 64 p.st3.toNat] [p] with strm := s.streamTile d } keepsCommand_id
    exact ⟨u, (exec_spjn hg hd hp hl).trans hu, hq, hk⟩
  · obtain ⟨u, hu, hq, -, -⟩ := issueCmd_enters hg.core .tln t (plainArg i [s.me.val a]) keepsCommand_id
    exact ⟨u, (exec_slots hi hg hs).trans hu, hq⟩
  · obtain ⟨u, hu, hq, -, -⟩ := issueCmd_enters hg.core .tln t (plainArg (.sprd a b t) [s.me.val b, s.me.val a]) keepsCommand_id
    exact ⟨u, (exec_sprd hg hs hb).trans hu, hq⟩

end Sys2Proof.Machine
end


section
/-!
PROOF. O36: the fabric commands (R334 to R351) and the partition barrier (R212) pass their checks and enter `tlf`.
-/
namespace Sys2Proof.Machine
open Sys2Proof Sys2Proof.Safety

/-! ### The gate of the fabric commands -/

section
variable {s : State}

theorem gateF_waits {reads : List Nat} {waits : State → Bool} {bads : State → List Bad} {k : State → Out} (hg : IssueGo s .tlf reads)
    (hw : waits s = true) : s.gateF reads waits bads k = .next s := by
  rw [State.gateF, issueGate_go hg, if_pos (by simp [hw])]
  rfl

theorem gateF_go {reads : List Nat} {waits : State → Bool} {bads : State → List Bad} (hc : s.me.ticketHolds = false)
    (hg : IssueGo s .tlf reads) (hw : waits s = false) (hb : bads s = []) (k : State → Out) : s.gateF reads waits bads k = k s := by
  rw [State.gateF, issueGate_go hg]
  simp [hc, hw, hb, poisonBads_clean hg.clean, worstOf]

theorem peerIn_ok {a n d : Nat} (h : HasPeer s a n d) : s.peerIn (s.me.val ((a + 1) % 64)) = .ok d := by
  obtain ⟨-, hv, p, hp, rfl⟩ := h
  rw [State.peerIn, if_neg (Nat.not_le.2 hv), State.peerDie, hp]

theorem remoteBads_none {va : W64} {n : Nat} (h : addrFault va n = none) : remoteBads va n = [] := by
  rw [remoteBads, h]

/-- A remote command with its address and peer in order and nothing to wait for goes on with them. -/
theorem remoteThen_go {a n d : Nat} {reads : List Nat} {waits : State → Bool} {bads : State → List Bad} (hc : s.me.ticketHolds = false)
    (hg : IssueGo s .tlf (a :: (a + 1) % 64 :: reads)) (hp : HasPeer s a n d) (hw : waits s = false) (hb : bads s = [])
    (k : State → W64 → W64 → Nat → Out) :
    s.remoteThen a n reads waits bads k = k s (s.me.val a) (s.me.val ((a + 1) % 64)) d := by
  have hd := peerIn_ok hp
  have hall : bads s ++ badsOf [s.peerIn (s.me.val ((a + 1) % 64))] ++ remoteBads (s.me.val a) n = [] := by
    simp [hb, hd, badsOf, remoteBads_none hp.1]
  rw [State.remoteThen, gateF_go hc hg hw hall]
  simp only [hd]

/-- One without waits and faults of its own. -/
theorem remoteThen_plain {a n d : Nat} {reads : List Nat} (hc : s.me.ticketHolds = false)
    (hg : IssueGo s .tlf (a :: (a + 1) % 64 :: reads)) (hp : HasPeer s a n d) (k : State → W64 → W64 → Nat → Out) :
    s.remoteThen a n reads noWait noBads k = k s (s.me.val a) (s.me.val ((a + 1) % 64)) d :=
  remoteThen_go hc hg hp rfl rfl k

/-- A fabric command captured stands on its timeline; with its last repetition the waiting ones of its core go on. -/
theorem issueF_enters {i : Instr} {t : Nat} {a : CmdArg} (hc : s.focusOk = true) (h : exec i s = s.issueF .tlf t a id) :
    ∃ u, exec i s = .next (if s.cur.rep + 1 < s.cur.reps then u else u.launchF s.cur.die s.cur.core) ∧ Queued s u .tlf t [a] := by
  obtain ⟨u, hu, hq, -, -⟩ := issueCmd_enters hc .tlf t a keepsCommand_id
  exact ⟨u, h.trans (issueF_next hu), hq⟩

/-! ### Each form -/

section
variable {t a b c d : Nat} {cls : RClass} {w : FWidth}

theorem exec_rld (hc : s.me.ticketHolds = false) (hg : IssueGo s .tlf [a, (a + 1) % 64]) (hp : HasPeer s a (wBytes w) d) :
    exec (.rld t a b cls w) s =
      s.issueF .tlf t (remoteArg (.rld t a b cls w) (s.me.val a) (s.me.val ((a + 1) % 64)) 0 0 [d] []) id := by
  show execRld t a b cls w s = _
  rw [execRld, remoteThen_plain hc hg hp]

theorem exec_rst (hc : s.me.ticketHolds = false) (hg : IssueGo s .tlf [a, (a + 1) % 64, b]) (hp : HasPeer s a (wBytes w) d) :
    exec (.rst t a b cls w) s =
      s.issueF .tlf t (remoteArg (.rst t a b cls w) (s.me.val a) (s.me.val ((a + 1) % 64)) (s.me.val b) 0 [d] []) id := by
  show execRst t a b cls w s = _
  rw [execRst, remoteThen_plain hc hg hp]

/-- The widths and scopes that remote atomics do not have (R340). -/
theorem remoteAtomicOk_false {sc : Scope} (h : (w ≠ .n32 ∧ w ≠ .n64) ∨ sc = .lane ∨ sc = .quad) : remoteAtomicOk w sc = false := by
  rcases h with ⟨h32, h64⟩ | rfl | rfl
  · simp [remoteAtomicOk, h32, h64]
  · simp [remoteAtomicOk]
  · simp [remoteAtomicOk]

theorem remoteAtomicOk_true {sc : Scope} (hw : w = .n32 ∨ w = .n64) (hs : sc = .die ∨ sc = .pkg ∨ sc = .pod) :
    remoteAtomicOk w sc = true := by
  rcases hw with rfl | rfl <;> rcases hs with rfl | rfl | rfl <;> rfl

theorem exec_ramo_illegal {op : AtomicOp} {sc : Scope} (h : remoteAtomicOk w sc = false) :
    exec (.ramo op t a b cls w sc) s = s.illegal := by
  show execRamo op t a b cls w sc s = _
  rw [execRamo, if_pos (by simp [h])]

theorem exec_ramocas_illegal {sc : Scope} (h : remoteAtomicOk w sc = false) :
    exec (.ramocas t a b c cls w sc) s = s.illegal := by
  show execRamocas t a b c cls w sc s = _
  rw [execRamocas, if_pos (by simp [h])]

theorem exec_ramo {op : AtomicOp} {sc : Scope} (h : remoteAtomicOk w sc = true) (hc : s.me.ticketHolds = false)
    (hg : IssueGo s .tlf [a, (a + 1) % 64, b]) (hp : HasPeer s a (wBytes w) d) : exec (.ramo op t a b cls w sc) s =
      s.issueF .tlf t (remoteArg (.ramo op t a b cls w sc) (s.me.val a) (s.me.val ((a + 1) % 64)) (s.me.val b) 0 [d] []) id := by
  show execRamo op t a b cls w sc s = _
  rw [execRamo, if_neg (by simp [h])]
  exact remoteThen_plain hc hg hp _

theorem exec_ramocas {sc : Scope} (h : remoteAtomicOk w sc = true) (hc : s.me.ticketHolds = false)
    (hg : IssueGo s .tlf [a, (a + 1) % 64, b, c]) (hp : HasPeer s a (wBytes w) d) : exec (.ramocas t a b c cls w sc) s =
      s.issueF .tlf t (remoteArg (.ramocas t a b c cls w sc) (s.me.val a) (s.me.val ((a + 1) % 64)) (s.me.val b) (s.me.val c) [d] []) id := by
  show execRamocas t a b c cls w sc s = _
  rw [execRamocas, if_neg (by simp [h])]
  exact remoteThen_plain hc hg hp _

/-- The replicas of a box that are all mapped: no fault, and their dies in order. -/
theorem replicas_ok {l : List (Except Bad Nat)} {ds : List Nat} (h : l = ds.map .ok) :
    badsOf l = [] ∧ l.filterMap Except.toOption = ds := by
  subst h
  refine ⟨by simp [badsOf, List.filterMap_map], ?_⟩
  rw [List.filterMap_map]
  exact List.filterMap_some

theorem exec_rmc {ds : List Nat} (hc : s.me.ticketHolds = false) (hg : IssueGo s .tlf [a, (a + 1) % 64, b, c])
    (ha : addrFault (s.me.val a) (wBytes w) = none) (hv : (s.me.val ((a + 1) % 64)).toNat < 4096) (hb : boxBad (s.me.val c) = false)
    (hd : (boxOf (s.me.val ((a + 1) % 64)) (s.me.val c)).map s.replica = ds.map .ok) : exec (.rmc t a b c cls w) s =
      s.issueF .tlf t (remoteArg (.rmc t a b c cls w) (s.me.val a) (s.me.val ((a + 1) % 64)) (s.me.val b) (s.me.val c) ds []) id := by
  obtain ⟨hno, hds⟩ := replicas_ok hd
  show execRmc t a b c cls w s = _
  refine (gateF_go hc hg rfl (by simp [Nat.not_le.2 hv, hb, hno, remoteBads_none ha]) _).trans ?_
  rw [hds]

theorem exec_rtld_stream (hb : 48 ≤ b) : exec (.rtld t a b cls) s = s.illegal := if_pos hb

theorem exec_rtld (hb : b < 48) (hc : s.me.ticketHolds = false) (hg : IssueGo s .tlf [a, (a + 1) % 64]) (hp : HasPeer s a 64 d)
    (hw : s.me.mWriteWaits s.cur.rank [b] = false) : exec (.rtld t a b cls) s =
      s.issueF .tlf t (remoteArg (.rtld t a b cls) (s.me.val a) (s.me.val ((a + 1) % 64)) 0 0 [d] []) id :=
  (if_neg (Nat.not_le.2 hb)).trans (remoteThen_go hc hg hp hw rfl _)

theorem exec_tkget (hc : s.me.ticketHolds = false) (hg : IssueGo s .tlf [a, (a + 1) % 64]) (hp : HasPeer s a 1 d) :
    exec (.tkget t a b) s = s.issueF .tlf t (remoteArg (.tkget t a b) (s.me.val a) (s.me.val ((a + 1) % 64)) 0 0 [d] []) id := by
  show execTkget t a b s = _
  rw [execTkget, remoteThen_plain hc hg hp]

theorem exec_tickets {i : Instr} (hi : i ∈ [Instr.tkwait t a b, Instr.tkret t a b]) (hc : s.me.ticketHolds = false)
    (hg : IssueGo s .tlf [a, (a + 1) % 64, b]) (hp : HasPeer s a 1 d) :
    exec i s = s.issueF .tlf t (remoteArg i (s.me.val a) (s.me.val ((a + 1) % 64)) (s.me.val b) 0 [d] []) id := by
  simp only [List.mem_cons, List.not_mem_nil, or_false] at hi
  rcases hi with rfl | rfl
  · show execTkwait t a b s = _
    rw [execTkwait, remoteThen_plain hc hg hp]
  · show execTkret t a b s = _
    rw [execTkret, remoteThen_plain hc hg hp]

/-- A pattern that passes the checks of R181 is legal and has no format fault. -/
theorem checkPattern_ok {r : Except Bad Pattern} {p : Pattern} (h : checkPattern r = .ok p) : r = .ok p ∧ p.formatBad = false := by
  unfold checkPattern at h
  split at h
  · cases h
  · split at h
    · cases h
    · rename_i hf
      cases h
      exact ⟨rfl, Bool.eq_false_iff.2 hf⟩

theorem issueBulk_go {i : Instr} {rec : Option Shape4} {p : Pattern} (hc : s.me.ticketHolds = false) (hm : modeMatches s.me rec = true)
    (hg : IssueGo s .tlf (a :: (a + 1) % 64 :: operandScalars b rec)) (hp : HasPeer s a 1 d)
    (hk : checkPattern (s.operandPattern b rec) = .ok p) (hb : s.me.booksWait s.cur.rank [p] = false)
    (hf : s.me.basinFree s.cur.rank (remoteArg i 0 0 0 0 [] [p]).prints = true) (hs : (remoteArg i 0 0 0 0 [] [p]).steps ≤ 2 ^ 24) :
    s.issueBulk i t a b rec = s.issueF .tlf t (remoteArg i (s.me.val a) (s.me.val ((a + 1) % 64)) 0 0 [d] [p]) id := by
  obtain ⟨ho, hform⟩ := checkPattern_ok hk
  rw [State.issueBulk, if_neg (by simp [hm]), remoteThen_go hc hg hp (by simp only [State.bulkWaits, ho, hb, hf, Bool.not_true, Bool.or_self])
    (by simp only [bulkBads, ho, stepBads, if_neg (Nat.not_lt.2 hs), hform, Bool.false_eq_true, if_false, List.append_nil])]
  simp only [ho]

theorem exec_bulk {i : Instr} {rec : Option Shape4} {p : Pattern} (hi : i ∈ [Instr.rget t a b cls rec, Instr.rput t a b cls rec])
    (hc : s.me.ticketHolds = false) (hm : modeMatches s.me rec = true)
    (hg : IssueGo s .tlf (a :: (a + 1) % 64 :: operandScalars b rec)) (hp : HasPeer s a 1 d)
    (hk : checkPattern (s.operandPattern b rec) = .ok p) (hb : s.me.booksWait s.cur.rank [p] = false)
    (hf : s.me.basinFree s.cur.rank (remoteArg i 0 0 0 0 [] [p]).prints = true) (hs : (remoteArg i 0 0 0 0 [] [p]).steps ≤ 2 ^ 24) :
    exec i s = s.issueF .tlf t (remoteArg i (s.me.val a) (s.me.val ((a + 1) % 64)) 0 0 [d] [p]) id := by
  simp only [List.mem_cons, List.not_mem_nil, or_false] at hi
  rcases hi with rfl | rfl
  · exact issueBulk_go hc hm hg hp hk hb hf hs
  · exact issueBulk_go hc hm hg hp hk hb hf hs

theorem exec_wdpub (hc : s.me.ticketHolds = false) (hg : IssueGo s .tlf [a, (a + 1) % 64, b])
    (hv : (s.me.val ((a + 1) % 64)).toNat ≤ 1) : exec (.wdpub t a b) s =
      s.issueF .tlf t (plainArg (.wdpub t a b) [s.me.val a, s.me.val ((a + 1) % 64), s.me.val b]) id := by
  show execWdpub t a b s = _
  rw [execWdpub, gateF_go hc hg rfl (if_neg (Nat.not_lt.2 hv))]

theorem exec_rfence_waits {m : Nat} (hg : IssueGo s .tlf []) (h : ∃ k ∈ s.me.fl.cmds, k.inMask m = true) :
    exec (.rfence t m) s = .next s := by
  show execRfence t m s = _
  exact gateF_waits hg (List.any_eq_true.2 h)

theorem exec_rfence {m : Nat} (hc : s.me.ticketHolds = false) (hg : IssueGo s .tlf []) (h : ∀ k ∈ s.me.fl.cmds, k.inMask m = false) :
    exec (.rfence t m) s = s.issueCmd .tlf t (plainArg (.rfence t m) []) fun k => k.finish 0 := by
  show execRfence t m s = _
  rw [execRfence, gateF_go hc hg (List.any_eq_false.2 fun k hk => by simp [h k hk]) rfl]

end

/-! ### The partition barrier -/

/-- The machine after a release has shown the host what flushes covered (R365): cores, networks and memory as they were. -/
structure Shown (s t : State) : Prop where
  cores : ∀ d c, t.core d c = s.core d c
  has   : ∀ d c, t.hasCore d c = s.hasCore d c
  nets  : t.nets = s.nets
  cur   : t.cur = s.cur
  mem   : SameMemory s t

theorem Shown.refl (s : State) : Shown s s := ⟨fun _ _ => rfl, fun _ _ => rfl, rfl, rfl, fun _ _ _ _ => rfl⟩

theorem Shown.trans {s t u : State} (h : Shown s t) (k : Shown t u) : Shown s u :=
  ⟨fun d c => (k.cores d c).trans (h.cores d c), fun d c => (k.has d c).trans (h.has d c), k.nets.trans h.nets, k.cur.trans h.cur,
    fun e q a n => (k.mem e q a n).trans (h.mem e q a n)⟩

theorem shown_updDie (s : State) (d : Nat) {g : Die → Die} (hc : ∀ y, (g y).cores = y.cores) (hs : ∀ y, (g y).stack = y.stack)
    (hb : ∀ y, (g y).basin = y.basin) : Shown s (s.updDie d g) where
  cores := core_updDie_cores s d hc
  has := hasCore_updDie_cores s d hc
  nets := rfl
  cur := rfl
  mem e k a n := by
    have hstack : ((s.updDie d g).die e).stack = (s.die e).stack := by rw [die_updDie]; split <;> simp [hs]
    have hbasin : ∀ w, ((s.updDie d g).die w).basin = (s.die w).basin := fun w => by rw [die_updDie]; split <;> simp [hb]
    simp only [State.readPa, hstack, hbasin, pkg_updDie]

theorem shown_updPkg (s : State) (p : Nat) {g : Pkg → Pkg} (hh : ∀ y, (g y).host = y.host) : Shown s (s.updPkg p g) where
  cores _ _ := rfl
  has _ _ := rfl
  nets := rfl
  cur := rfl
  mem e k a n := by
    have hhost : ∀ q, ((s.updPkg p g).pkg q).host = (s.pkg q).host := fun q => by
      simp only [State.pkg, State.updPkg, List.getElem?_modify]
      split
      · cases s.pkgs[q]? <;> simp [hh]
      · simp
    simp only [State.readPa, die_updPkg, hhost]

theorem shown_foldl {α : Type} {f : State → α → State} (hf : ∀ s x, Shown s (f s x)) (l : List α) (s : State) : Shown s (l.foldl f s) := by
  induction l generalizing s with
  | nil => exact .refl s
  | cons x l ih => exact (hf s x).trans (ih _)

theorem shown_publish (s : State) (sc : Scope) : Shown s (s.publish sc) := by
  unfold State.publish State.publishTo
  split
  · refine .trans (shown_foldl (fun s f => ?_) _ s) (shown_updPkg _ _ fun _ => rfl)
    split
    · exact shown_updDie s _ (fun _ => rfl) (fun _ => rfl) fun _ => rfl
    · exact shown_updPkg s _ fun _ => rfl
  · exact .refl s

/-- One more arrival at a network; a lone participant completes it at once (R210). -/
def BarNet.arrived (n : BarNet) (kpos : Nat) : BarNet :=
  let m := n.setPart kpos fun p => { p with count := p.count + 1 }
  if n.lone then { m with done := m.done + 1 } else m

theorem part_arrived {n : BarNet} {kpos : Nat} {p : BarPart} (h : n.part kpos = some p) :
    (BarNet.arrived n kpos).part kpos = some { p with count := p.count + 1 } := by
  have hset : (n.setPart kpos fun p => { p with count := p.count + 1 }).part kpos = some { p with count := p.count + 1 } := by
    have hkeys : ((fun q : BarPart => q.kpos == kpos) ∘ fun q : BarPart => if (q.kpos == kpos) = true then { q with count := q.count + 1 } else q) =
        fun q => q.kpos == kpos := by
      funext q
      simp only [Function.comp]
      split
      · rfl
      · rfl
    have hp : (p.kpos == kpos) = true := (List.find?_eq_some_iff_append.1 h).1
    simp only [BarNet.part] at h ⊢
    simp only [BarNet.setPart, List.find?_map, hkeys, h, Option.map_some, hp, if_true]
  unfold BarNet.arrived
  dsimp only
  split
  · exact hset
  · exact hset

/-- The machine as a `pbar` that arrives leaves it, its command aside: its stores released, its arrival counted. -/
def State.barrierReached (s : State) : State :=
  match s.findNet none s.me.launchKey s.me.place with
  | none => s.publish .pod
  | some i => (s.publish .pod).updNet i fun n => BarNet.arrived n s.me.place

theorem shown_me {s t : State} (h : Shown s t) : t.me = s.me := by
  rw [State.me, h.cur]
  exact h.cores ..

/-- A `pbar` whose core has its loads back and its stores performed counts its arrival and issues. -/
theorem exec_pbar {s : State} {t : Nat} (hc : s.me.ticketHolds = false) (hg : IssueGo s .tlf []) (hl : s.me.loadsBack = true)
    (hs : s.unperformed s.cur.die s.cur.core = []) :
    ∃ f, KeepsCommand f ∧ exec (.pbar t) s = s.barrierReached.issueF .tlf t (plainArg (.pbar t) []) f := by
  have hw : (!s.me.loadsBack || !s.storesAt .pod) = false := by simp [hl, State.storesAt, hs]
  show ∃ f, KeepsCommand f ∧ execPbar t s = _
  rw [execPbar, gateF_go hc hg hw rfl, State.barrierReached]
  dsimp only
  cases s.findNet none s.me.launchKey s.me.place with
  | none => exact ⟨id, keepsCommand_id, rfl⟩
  | some i => exact ⟨_, keepsCommand_extra _, rfl⟩

theorem exec_pbar_waits {s : State} {t : Nat} (hg : IssueGo s .tlf [])
    (h : s.me.loadsBack = false ∨ s.unperformed s.cur.die s.cur.core ≠ []) : exec (.pbar t) s = .next s := by
  have hw : (!s.me.loadsBack || !s.storesAt .pod) = true := by
    rcases h with h | h
    · simp [h]
    · simp [State.storesAt, h]
  show execPbar t s = _
  rw [execPbar, gateF_waits hg hw]

/-- An arrival leaves the core, the focus and every byte of memory as they were. -/
theorem barrierReached_keeps (s : State) : s.barrierReached.me = s.me ∧ s.barrierReached.cur = s.cur ∧
    s.barrierReached.focusOk = s.focusOk ∧ SameMemory s s.barrierReached := by
  have h := shown_publish s .pod
  have hme := shown_me h
  have hf : (s.publish .pod).focusOk = s.focusOk := by
    rw [State.focusOk, h.cur]
    exact h.has ..
  unfold State.barrierReached
  split
  · exact ⟨hme, h.cur, hf, h.mem⟩
  · exact ⟨hme, h.cur, hf, h.mem⟩

/-- The network found counts the arrival of its participant. -/
theorem barrierReached_part {s : State} {n : Nat} {b : BarNet} {p : BarPart} (hn : s.findNet none s.me.launchKey s.me.place = some n)
    (hb : s.nets[n]? = some b) (hp : b.part s.me.place = some p) :
    ((s.barrierReached.nets[n]?).bind fun m => m.part s.me.place) = some { p with count := p.count + 1 } := by
  simp only [State.barrierReached, hn, State.updNet, (shown_publish s .pod).nets, List.getElem?_modify, hb]
  exact part_arrived hp

/-- A command that issues changes no barrier network. -/
theorem issueCmd_nets {s u : State} {tl : TimelineId} {t : Nat} {a : CmdArg} {f : Cmd → Cmd} (h : s.issueCmd tl t a f = .next u) :
    u.nets = s.nets := by
  unfold State.issueCmd at h
  dsimp only at h
  split at h
  · cases h
    rfl
  · cases h
    rfl

end

/-- Settles O36. -/
theorem fabricCommandsEnter : Obligations.FabricCommandsEnter := by
  unfold Obligations.FabricCommandsEnter
  intro s
  refine ⟨fun t a b cls w d hc hg hp => issueF_enters hg.core (exec_rld hc hg hp),
    fun t a b cls w d hc hg hp => issueF_enters hg.core (exec_rst hc hg hp),
    fun op t a b c cls w sc d => ⟨fun h => ?_, fun hw hs hc hp => ?_⟩,
    fun t a b c cls w ds hc hg ha hv hb hd => issueF_enters hg.core (exec_rmc hc hg ha hv hb hd),
    fun t a b cls d => ⟨exec_rtld_stream, fun hb hc hg hp hw => issueF_enters hg.core (exec_rtld hb hc hg hp hw)⟩,
    fun t a b d hc hp => ⟨fun hg => issueF_enters hg.core (exec_tkget hc hg hp),
      fun i hi hg => issueF_enters hg.core (exec_tickets hi hc hg hp)⟩,
    fun t a b cls rec d p hc hm hg hp hk hb i hi hf hs => issueF_enters hg.core (exec_bulk hi hc hm hg hp hk hb hf hs),
    fun t a b hc hg hv => issueF_enters hg.core (exec_wdpub hc hg hv),
    fun t hc hg => ⟨exec_pbar_waits hg, fun hl hs => ?_⟩,
    fun t m hc hg => ⟨exec_rfence_waits hg, fun h => ?_⟩⟩
  · have hno := remoteAtomicOk_false h
    exact ⟨exec_ramo_illegal hno, exec_ramocas_illegal hno⟩
  · have hok := remoteAtomicOk_true hw hs
    exact ⟨fun hg => issueF_enters hg.core (exec_ramo hok hc hg hp), fun hg => issueF_enters hg.core (exec_ramocas hok hc hg hp)⟩
  · obtain ⟨f, hf, hx⟩ := exec_pbar (t := t) hc hg hl hs
    obtain ⟨hme, hcur, hfocus, hmem⟩ := barrierReached_keeps s
    obtain ⟨w, hw, hq, -, -⟩ := issueCmd_enters (hfocus.trans hg.core) .tlf t (plainArg (.pbar t) []) hf
    refine ⟨w, ?_, ⟨s.barrierReached, hme, hcur, hmem, hq⟩, fun n b p hn hb hp => ?_⟩
    · exact hx.trans (by rw [issueF_next hw, hcur])
    · rw [issueCmd_nets hw]
      exact barrierReached_part hn hb hp
  · obtain ⟨u, hu, hq, -, hcmds⟩ := issueCmd_enters hg.core .tlf t (plainArg (.rfence t m) []) (keepsCommand_finish 0)
    refine ⟨u, (exec_rfence hc hg h).trans hu, hq, fun hl => ?_⟩
    rw [hcmds hl, List.getLast?_concat]
    rfl

end Sys2Proof.Machine
end


section
/-!
PROOF. O35: a copy command that a free engine of its quad takes (R184 to R188, R191), and the stream commands (R194, R195).
-/
namespace Sys2Proof.Machine
open Sys2Proof Sys2Proof.Safety

/-! ### What the patterns of a copy resolve to -/

theorem resolved_ok {rs : List (Except Bad Pattern)} {ps : List Pattern} (h : rs.map checkPattern = ps.map .ok) : rs = ps.map .ok := by
  induction rs generalizing ps with
  | nil => cases ps with
    | nil => rfl
    | cons p ps => cases h
  | cons r rs ih => cases ps with
    | nil => cases h
    | cons p ps =>
      obtain ⟨hr, hrs⟩ := List.cons_eq_cons.1 h
      rw [(checkPattern_ok hr).1, ih hrs]
      rfl

section
variable {s : State}

/-- A plan whose patterns are legal, with nothing to wait for, goes on with them. -/
theorem planFrom_go {scal : List Nat} {rs : List (Except Bad Pattern)} {ps : List Pattern} {more : List Pattern → List Bad}
    (hr : rs.map checkPattern = ps.map .ok) (hw : s.me.booksWait s.cur.rank ps = false) (hm : more ps = [])
    (hc : ∀ r ∈ scal, s.me.poisoned r = false) (mk : List Pattern → Plan) : s.planFrom scal rs more mk = mk ps := by
  have hps : rs.filterMap Except.toOption = ps := by
    rw [resolved_ok hr, List.filterMap_map]
    exact List.filterMap_some
  have hbad : badsOf (rs.map checkPattern) = [] := by simp [hr, badsOf, List.filterMap_map]
  have hlen : ps.length = rs.length := by simp [resolved_ok hr]
  simp [State.planFrom, hps, hw, hbad, hlen, hm, poisonBads_clean hc, worstOf]

theorem stepBads_none {a : CmdArg} (h : a.steps ≤ 2 ^ 24) : stepBads a = [] := if_neg (Nat.not_lt.2 h)

theorem copyBads_none {p q : Pattern} (hc : p.count = q.count) (ht : p.tag = q.tag) : copyBads [p, q] = [] := by
  simp [copyBads, hc, ht]

theorem rowBads_none {t p ix : Pattern} (h2 : t.e2 = 1) (h3 : t.e3 = 1) (hc : p.count = t.e0 * ix.count) (ht : p.tag = t.tag)
    (hx : ix.tag ∈ [0x28, 0x29, 0x2A]) : rowBads t p ix = [] := by
  simp only [List.mem_cons, List.not_mem_nil, or_false] at hx
  rcases hx with hx | hx | hx <;> simp [rowBads, h2, h3, hc, ht, hx]

/-- Past the limits of its timeline the plan of a copy depends on its form alone. -/
theorem copyPlan_form {i : Instr} {t : Nat} {scal regs : List Nat} {ok : List Pattern → Prop} {ps : List Pattern}
    (hi : copyForm i = some (t, scal, regs, ok)) (hg : IssueGo s .tly scal)
    (hr : regs.map (fun r => checkPattern (s.handlePattern (s.me.val r))) = ps.map .ok) (hw : s.me.booksWait s.cur.rank ps = false)
    (ho : ok ps) (hs : (patArg i [] ps).steps ≤ 2 ^ 24) : s.copyPlan i = .go [patArg i [] ps] t none := by
  have hn := Nat.not_le.2 hg.number
  have hk : (regs.map fun r => s.handlePattern (s.me.val r)).map checkPattern = ps.map .ok := by
    rw [List.map_map]
    exact hr
  unfold State.copyPlan
  simp only [hg.room, hn, Bool.false_eq_true, if_false]
  unfold copyForm at hi
  split at hi
  · cases hi
    obtain ⟨p, q, rfl, hc, ht⟩ := ho
    simp only [hg.ready, Bool.not_true, Bool.false_eq_true, if_false]
    exact planFrom_go hk hw (by rw [copyBads_none hc ht, stepBads_none hs]; rfl) hg.clean _
  · cases hi
    obtain ⟨p, q, ix, rfl, h2, h3, hc, ht, hx⟩ := ho
    simp only [hg.ready, Bool.not_true, Bool.false_eq_true, if_false]
    exact planFrom_go hk hw (by dsimp only; rw [rowBads_none h2 h3 hc ht hx, stepBads_none hs]; rfl) hg.clean _
  · cases hi
    obtain ⟨p, q, ix, rfl, h2, h3, hc, ht, hx⟩ := ho
    simp only [hg.ready, Bool.not_true, Bool.false_eq_true, if_false]
    exact planFrom_go hk hw (by dsimp only; rw [rowBads_none h2 h3 hc ht.symm hx, stepBads_none hs]; rfl) hg.clean _
  · cases hi

/-- The tile of a follow-on word, where it has one, is no stream tile, waits for nothing and is clean (R185). -/
theorem followBads_none {f : Nat} (h : f / 2 ^ 25 ≠ 1 → f / 2 ^ 19 % 2 ^ 6 < 48 ∧ s.me.mReadWaits s.cur.rank [f / 2 ^ 19 % 2 ^ 6] = false ∧
      (s.me.tileAt (f / 2 ^ 19 % 2 ^ 6) s.cur.rank).poison.any id = false) : s.followWaits f = false ∧ s.followBads f = [] := by
  unfold State.followWaits State.followBads followTile
  by_cases hf : f / 2 ^ 25 = 1
  · rw [if_pos hf]
    exact ⟨rfl, rfl⟩
  · obtain ⟨hv, hw, hp⟩ := h hf
    have hv' : ¬ firstStream ≤ bitField f 24 19 := Nat.not_le.2 hv
    have hw' : s.me.mReadWaits s.cur.rank [bitField f 24 19] = false := hw
    have hp' : (s.me.tileAt (bitField f 24 19) s.cur.rank).poison.any id = false := hp
    rw [if_neg hf]
    simp only [Option.elim_some, hw', Bool.and_false, hv', hp', Bool.false_eq_true, if_false, true_and]

theorem copyPlan_cpm {t a b f : Nat} {hint : Hint} {p q : Pattern} (hg : IssueGo s .tly [a, b, f / 2 ^ 5 % 2 ^ 6])
    (hroom : s.cmdsFull .tlm = false) (hnum : s.me.nextNum .tlm < 2 ^ 56) (hp : checkPattern (s.handlePattern (s.me.val a)) = .ok p)
    (hq : checkPattern (s.handlePattern (s.me.val b)) = .ok q) (hw : s.me.booksWait s.cur.rank [p, q] = false) (hc : p.count = q.count)
    (ht : p.tag = q.tag) (hs : (patArg (.cpm t a b hint f) [] [p, q]).steps ≤ 2 ^ 24) (hfw : s.followWaits f = false)
    (hfb : s.followBads f = []) : s.copyPlan (.cpm t a b hint f) =
      .go [patArg (.cpm t a b hint f) [] [p, q], s.followArg f] t (some (f, f / 2 ^ 11 % 2 ^ 6)) := by
  have hready : s.eReady [a, b, bitField f 10 5] = true := hg.ready
  have hplan := planFrom_go (s := s) (scal := [a, b, bitField f 10 5]) (rs := [s.handlePattern (s.me.val a), s.handlePattern (s.me.val b)])
    (ps := [p, q]) (more := fun ps => copyBads ps ++ stepBads (patArg (.cpm t a b hint f) [] ps)) (by simp [hp, hq]) hw
    (by rw [copyBads_none hc ht, stepBads_none hs]; rfl) hg.clean
  unfold State.copyPlan
  simp only [hg.room, Nat.not_le.2 hg.number, hready, hroom, Nat.not_le.2 hnum, hfw, hfb, hplan, Bool.not_true, Bool.or_self,
    Bool.false_eq_true, if_false, worstOf, Option.elim_none]
  rfl

theorem copyPlan_fill {t a b : Nat} {hint : Hint} {rec : Option Shape4} {p : Pattern} (hg : IssueGo s .tly (a :: operandScalars b rec))
    (hm : modeMatches s.me rec = true) (hp : checkPattern (s.operandPattern b rec) = .ok p) (hw : s.me.booksWait s.cur.rank [p] = false)
    (hb : isBlock p.tag = false) (hs : (patArg (.fill t a b hint rec) [s.me.val a] [p]).steps ≤ 2 ^ 24) :
    s.copyPlan (.fill t a b hint rec) = .go [patArg (.fill t a b hint rec) [s.me.val a] [p]] t none := by
  have hclean : ∀ r ∈ operandScalars b rec ++ [a], s.me.poisoned r = false := fun r hr =>
    hg.clean r (by simpa [or_comm] using hr)
  have hsteps : (patArg (.fill t a b hint rec) [] [p]).steps ≤ 2 ^ 24 := hs
  unfold State.copyPlan
  simp only [hg.room, Nat.not_le.2 hg.number, hg.ready, hm, Bool.not_true, Bool.false_eq_true, if_false]
  exact planFrom_go (by simp [hp]) hw (by simp [hb, stepBads_none hsteps]) hclean _

theorem copyPlan_lines {t a b : Nat} {i : Instr} (hi : i ∈ [Instr.flush t a b, Instr.inv t a b]) (hg : IssueGo s .tly [a, b])
    (hb : (s.me.val b).toNat ≤ 2 ^ 32) : s.copyPlan i = .go [plainArg i [s.me.val a, s.me.val b]] t none := by
  have hplan : ∀ mk, s.planFrom [a, b] [] (fun _ => if 2 ^ 32 < (s.me.val b).toNat then [Bad.illegal] else []) mk = mk [] :=
    planFrom_go rfl rfl (if_neg (Nat.not_lt.2 hb)) hg.clean
  simp only [List.mem_cons, List.not_mem_nil, or_false] at hi
  unfold State.copyPlan
  rcases hi with rfl | rfl
  · simp only [hg.room, Nat.not_le.2 hg.number, hg.ready, hplan, Bool.not_true, Bool.false_eq_true, if_false]
  · simp only [hg.room, Nat.not_le.2 hg.number, hg.ready, hplan, Bool.not_true, Bool.false_eq_true, if_false]

/-! ### The copy enters and an engine takes it -/

theorem shown_setEngine (s : State) (d e : Nat) (c : Option (Nat × Nat)) : Shown s (s.setEngine d e c) :=
  shown_updDie s d (fun _ => rfl) (fun _ => rfl) fun _ => rfl

theorem copies_updCore (s : State) (d c e : Nat) (g : Core → Core) : ((s.updCore d c g).die e).copies = (s.die e).copies := by
  simp only [State.updCore, die_updDie]
  split
  · rfl
  · rfl

theorem engineCur_updCore (s : State) (d c e n : Nat) (g : Core → Core) : (s.updCore d c g).engineCur e n = s.engineCur e n := by
  rw [State.engineCur, copies_updCore, State.engineCur]

theorem engineCur_setEngine {s : State} {d e : Nat} {c : Option (Nat × Nat)} (hd : s.hasDie d = true)
    (he : ((s.die d).copies[e]?).isSome = true) : (s.setEngine d e c).engineCur d e = c := by
  obtain ⟨g, hg⟩ := Option.isSome_iff_exists.1 he
  simp [State.engineCur, State.setEngine, hd, hg]

theorem hasDie_of_focusOk {s : State} (h : s.focusOk = true) : s.hasDie s.cur.die = true :=
  (Bool.and_eq_true _ _ ▸ h : s.hasDie s.cur.die = true ∧ _).1

/-- The command a copy becomes with its last repetition (R188): at work, with a number kept for its follow-on. -/
def State.copyCmd (s : State) (token : Nat) (args : List CmdArg) (follow : Option (Nat × Nat)) : Cmd :=
  { s.newCmd .tly token (s.cur.acc ++ args) with
    st := .running, follow := follow.map fun f => (f.1, f.2, s.me.nextNum .tlm) }

/-- A core once its copy is numbered and stands behind the others. -/
def State.copyNumbered (s : State) (token : Nat) (args : List CmdArg) (follow : Option (Nat × Nat)) (x : Core) : Core :=
  let y := (x.takeNum .tly).setFl fun g => { g with cmds := g.cmds ++ [s.copyCmd token args follow] }
  if follow.isSome then y.takeNum .tlm else y

theorem copyNumbered_fields (s : State) (t : Nat) (args : List CmdArg) (follow : Option (Nat × Nat)) (x : Core) :
    let y := s.copyNumbered t args follow x
    y.regs = x.regs ∧ y.fl.cmds = x.fl.cmds ++ [s.copyCmd t args follow] ∧ (y.tls.get .tly).last = (x.tls.get .tly).last + 1 ∧
      (y.tls.get .tlm).last = (x.tls.get .tlm).last + (if follow.isSome then 1 else 0) := by
  cases follow with
  | none => exact ⟨rfl, rfl, rfl, rfl⟩
  | some f => exact ⟨rfl, rfl, rfl, rfl⟩

/-- A copy whose plan goes on, with an engine free for its last repetition, is numbered and stands behind the others; that engine
serves it. -/
theorem issueCopy_enters {i : Instr} {args : List CmdArg} {t : Nat} {follow : Option (Nat × Nat)} (hc : s.focusOk = true)
    (hp : s.copyPlan i = .go args t follow) (ha : args = withScalars s args)
    (hfree : ¬ s.cur.rep + 1 < s.cur.reps → (s.engineFor s.cur.die s.cur.core).isSome = true) :
    ∃ u, s.issueCopy i = .next u ∧ Queued s u .tly t args ∧
      (¬ s.cur.rep + 1 < s.cur.reps → u.me.fl.cmds = s.me.fl.cmds ++ [s.copyCmd t args follow] ∧
        (u.me.tls.get .tlm).last = (s.me.tls.get .tlm).last + (if follow.isSome then 1 else 0) ∧
        ∀ e, s.engineFor s.cur.die s.cur.core = some e → ((s.die s.cur.die).copies[e]?).isSome = true → Begun u e) := by
  unfold State.issueCopy
  simp only [hp]
  by_cases hr : s.cur.rep + 1 < s.cur.reps
  · rw [if_pos hr]
    exact ⟨_, rfl, queued_captureRep hc hr .tly t ha, fun h => absurd hr h⟩
  · obtain ⟨e, he⟩ := Option.isSome_iff_exists.1 (hfree hr)
    rw [if_neg hr]
    simp only [he]
    have hshown := shown_setEngine (s.updMe fun x => s.copyNumbered t args follow x) s.cur.die e (some (s.cur.core, s.me.nextNum .tly))
    have hme := (shown_me hshown).trans (me_updMe s _ hc)
    have hfocus := (hshown.has ..).trans ((focusOk_updMe s fun x => s.copyNumbered t args follow x).trans hc)
    obtain ⟨hregs, hcmds, htly, htlm⟩ := copyNumbered_fields s t args follow s.me
    have hu := (me_issued _ hfocus).trans (congrArg (Core.issued · _ _ _) hme)
    have hfl := (congrArg (·.fl.cmds) hu).trans ((congrArg InFlight.cmds (coreIssued_fl ..)).trans hcmds)
    have htls := (congrArg Core.tls hu).trans (coreIssued_tls ..)
    refine ⟨_, rfl, ⟨fun _ => ⟨(congrArg (fun l => (l.get .tly).last) htls).trans htly, s.copyCmd t args follow, hfl, rfl, rfl, rfl, ?_,
      rfl, rfl, rfl, rfl, rfl⟩, fun h => absurd h hr, ?_, fun q k a n => ?_⟩,
      fun _ => ⟨hfl, (congrArg (fun l => (l.get .tlm).last) htls).trans htlm, fun e' he' hcopy => ?_⟩⟩
    · exact congrArg (s.cur.acc ++ ·) ha
    · exact (congrArg Core.regs hu).trans ((coreIssued_regs ..).trans hregs)
    · exact (readPa_issued _ q k a n).trans ((hshown.mem q k a n).trans (readPa_updMe ..))
    · cases he'
      refine ⟨_, (congrArg List.getLast? hfl).trans List.getLast?_concat, rfl, ?_⟩
      refine (engineCur_updCore ..).trans (engineCur_setEngine ((hasDie_updCore ..).trans (hasDie_of_focusOk hc)) ?_)
      rw [State.updMe, copies_updCore]
      exact hcopy

/-- What the statement says of a copy that enters. -/
theorem copy_enters {i : Instr} {args : List CmdArg} {t : Nat} {follow : Option (Nat × Nat)} (hc : s.focusOk = true)
    (hx : exec i s = s.issueCopy i) (hp : s.copyPlan i = .go args t follow) (ha : args = withScalars s args)
    (hfree : ¬ s.cur.rep + 1 < s.cur.reps → (s.engineFor s.cur.die s.cur.core).isSome = true) :
    ∃ u, exec i s = .next u ∧ Queued s u .tly t args ∧
      (¬ s.cur.rep + 1 < s.cur.reps → ∀ e, s.engineFor s.cur.die s.cur.core = some e →
        ((s.die s.cur.die).copies[e]?).isSome = true → Begun u e) := by
  obtain ⟨u, hu, hq, hb⟩ := issueCopy_enters hc hp ha hfree
  exact ⟨u, hx.trans hu, hq, fun h => (hb h).2.2⟩

theorem exec_copyForm {i : Instr} (h : (copyForm i).isSome = true) : exec i s = s.issueCopy i := by
  unfold copyForm at h
  split at h
  · rfl
  · rfl
  · rfl
  · cases h

theorem exec_lines {t a b : Nat} {i : Instr} (hi : i ∈ [Instr.flush t a b, Instr.inv t a b]) : exec i s = s.issueCopy i := by
  simp only [List.mem_cons, List.not_mem_nil, or_false] at hi
  rcases hi with rfl | rfl
  · rfl
  · rfl

/-- The scalars of a copy are not kept with it: its patterns hold them. -/
theorem copyForm_withScalars {i : Instr} (h : (copyForm i).isSome = true) (scal : List W64) (ps : List Pattern) :
    [patArg i scal ps] = withScalars s [patArg i scal ps] := by
  unfold copyForm at h
  split at h
  · rfl
  · rfl
  · rfl
  · cases h

theorem lines_withScalars {t a b : Nat} {i : Instr} (hi : i ∈ [Instr.flush t a b, Instr.inv t a b]) (scal : List W64) :
    [plainArg i scal] = withScalars s [plainArg i scal] := by
  simp only [List.mem_cons, List.not_mem_nil, or_false] at hi
  rcases hi with rfl | rfl
  · rfl
  · rfl

end

end Sys2Proof.Machine
end


section
/-!
PROOF. O35, the stream commands: a binding changed with the issue leaves the command that enters as it is (R194, R195).
-/
namespace Sys2Proof.Machine
open Sys2Proof Sys2Proof.Safety

/-! ### A command that issues with its bindings changed -/

theorem qpath_updCore (s : State) (d c e : Nat) (g : Core → Core) : ((s.updCore d c g).die e).qpath = (s.die e).qpath := by
  simp only [State.updCore, die_updDie]
  split
  · rfl
  · rfl

theorem unperformed_updMe {s : State} {g : Core → Core} (hc : s.focusOk = true) (hfl : (g s.me).fl = s.me.fl) :
    (s.updMe g).unperformed s.cur.die s.cur.core = s.unperformed s.cur.die s.cur.core := by
  have hme : ((s.updMe g).core s.cur.die s.cur.core).fl = (s.core s.cur.die s.cur.core).fl := (congrArg Core.fl (me_updMe s g hc)).trans hfl
  rw [State.unperformed, hme, State.updMe, qpath_updCore]
  rfl

theorem withScalars_congr {s t : State} (h : t.me.regs = s.me.regs) (l : List CmdArg) : withScalars t l = withScalars s l := by
  have hv : t.me.val = s.me.val := by
    funext r
    simp only [Core.val, Core.reg, h]
  simp only [withScalars, hv]

/-- A command that enters a machine whose focus core differs in its bindings alone has entered the machine itself. -/
theorem queued_updMe {s u : State} {g : Core → Core} {tl : TimelineId} {t : Nat} {l : List CmdArg} (hc : s.focusOk = true)
    (hregs : (g s.me).regs = s.me.regs) (hfl : (g s.me).fl = s.me.fl) (htls : (g s.me).tls = s.me.tls) (hq : (g s.me).q = s.me.q)
    (h : Queued (s.updMe g) u tl t l) : Queued s u tl t l := by
  have hme := me_updMe s g hc
  have hl := withScalars_congr (s := s) (t := s.updMe g) (by rw [hme, hregs]) l
  obtain ⟨hlast, hmore, hkept, hmem⟩ := h
  rw [hme] at hlast hmore hkept
  simp only [updMe_cur, hl, hfl, htls, hq, unperformed_updMe hc hfl] at hlast hmore
  exact ⟨hlast, hmore, hkept.trans hregs, fun e k a n => (hmem e k a n).trans (readPa_updMe ..)⟩

/-- Which older bindings of stream tiles a command that issues leaves. -/
theorem issueCmd_ended {s u : State} {tl : TimelineId} {t : Nat} {a : CmdArg} {f : Cmd → Cmd} (hc : s.focusOk = true)
    (hr : ¬ s.cur.rep + 1 < s.cur.reps) (h : s.issueCmd tl t a f = .next u) :
    u.me.ended = (s.me.takeAll s.cur.rank (s.cur.acc ++ [a])).ended := by
  unfold State.issueCmd at h
  rw [if_neg hr, ← withScalars_one] at h
  cases h
  simp [hc, takeAll_withScalars]

/-- A group of one repetition that takes no stream tile takes none. -/
theorem takeAll_one {x : Core} {rank : Nat} {a : CmdArg} (h : a.strm = none) : x.takeAll rank [a] = x := by
  simp [Core.takeAll, h]

/-! ### sbind -/

theorem isStreamTile_of {v : W64} (h : 48 ≤ v.toNat) (h' : v.toNat ≤ 63) : isStreamTile v = true := decide_eq_true ⟨h, h'⟩

theorem accNamed_false {l : List CmdArg} {v : W64} (h : ∀ c ∈ l, c.scal.head? ≠ some v) :
    (l.any fun c => c.scal.head? == some v) = false :=
  List.any_eq_false.2 fun c hc => by simpa using h c hc

/-- The faults of an `sbind` that is in order. -/
theorem bindBads_none {x : Core} {v : W64} {r : Except Bad Pattern} {p : Pattern} (hv : 48 ≤ v.toNat) (hv' : v.toNat ≤ 63)
    (ht : x.ctx.tiles = 64) (hr : checkPattern r = .ok p) (hn : p.count % 1024 = 0) (hp : p.tag ≠ 0x23) : bindBads x v false r = [] := by
  have hk : r = .ok p := (checkPattern_ok hr).1
  rw [bindBads, hr]
  simp [isStreamTile_of hv hv', ht, hk, Except.toOption, hn, hp, badsOf]

/-- Bindings put in place by repetitions of an `sbind` keep what no binding is part of. -/
theorem bindAll_keeps {α : Type} (g : Core → α) (hg : ∀ x t b, g (Core.bindTile x t b) = g x) (num rank : Nat) (rel : List (Nat × Nat))
    (l : List CmdArg) (x : Core) : g (l.foldl (fun x c => c.bind num rank rel x) x) = g x := by
  induction l generalizing x with
  | nil => rfl
  | cons c l ih =>
    refine (ih _).trans ?_
    dsimp only
    unfold CmdArg.bind
    split
    · exact hg ..
    · rfl

theorem stream_bindTile {x : Core} {v : Nat} {b : Binding} (hv : 48 ≤ v) (hv' : v ≤ 63) (hl : x.strm.length = 16) :
    (x.bindTile v b).stream v = some b := by
  have hlt : ¬ v < firstStream := Nat.not_lt.2 hv
  have hin : v - firstStream < x.strm.length := by rw [hl]; unfold firstStream; omega
  simp [Core.stream, Core.bindTile, hlt, hin]

/-- The bindings of a group of `sbind` put in place. -/
def State.bindGroup (s : State) (arg : CmdArg) (x : Core) : Core :=
  (s.cur.acc ++ [arg]).foldl (fun x c => c.bind (s.me.nextNum .tly) s.cur.rank (s.unperformed s.cur.die s.cur.core) x) x

theorem exec_sbind {s : State} {t a b : Nat} {hint : Hint} {drain : Bool} {rec : Option Shape4} {p : Pattern}
    (hg : IssueGo s .tly (a :: operandScalars b rec)) (hm : modeMatches s.me rec = true)
    (hp : checkPattern (s.operandPattern b rec) = .ok p) (hw : s.me.booksWait s.cur.rank [p] = false)
    (hacc : (s.cur.acc.any fun c => c.scal.head? == some (s.me.val a)) = false) (hbound : s.me.boundNow (s.me.val a).toNat = false)
    (hbads : bindBads s.me (s.me.val a) false (s.operandPattern b rec) = []) :
    exec (.sbind t a b hint drain rec) s =
      if s.cur.rep + 1 < s.cur.reps then s.issueCmd .tly t (patArg (.sbind t a b hint drain rec) [s.me.val a] [p]) id
      else (s.updMe (s.bindGroup (patArg (.sbind t a b hint drain rec) [s.me.val a] [p]))).issueCmd .tly t
        (patArg (.sbind t a b hint drain rec) [s.me.val a] [p]) fun k => k.finish 0 := by
  have ho := (checkPattern_ok hp).1
  have hclean : poisonBads s.me (operandScalars b rec ++ [a]) = [] :=
    poisonBads_clean fun r hr => hg.clean r (by simpa [or_comm] using hr)
  rw [ho] at hbads
  show execSbind t a b hint drain rec s = _
  rw [execSbind, issueGate_go hg]
  simp only [hm, ho, Except.toOption, Option.toList, hw, hacc, hbound, hbads, hclean, Bool.or_self, Bool.not_true, Bool.false_eq_true,
    if_false, List.append_nil, worstOf]
  rfl

/-- An `sbind` in order issues with its binding in place, and its command is finished. -/
theorem sbind_enters {s : State} {t a b : Nat} {hint : Hint} {drain : Bool} {rec : Option Shape4} {p : Pattern}
    (hg : IssueGo s .tly (a :: operandScalars b rec)) (hm : modeMatches s.me rec = true)
    (hp : checkPattern (s.operandPattern b rec) = .ok p) (ht : s.me.ctx.tiles = 64) (hn : p.count % 1024 = 0) (htag : p.tag ≠ 0x23)
    (hv : 48 ≤ (s.me.val a).toNat) (hv' : (s.me.val a).toNat ≤ 63) (hbound : s.me.boundNow (s.me.val a).toNat = false)
    (hw : s.me.booksWait s.cur.rank [p] = false) (hacc : ∀ c ∈ s.cur.acc, c.scal.head? ≠ some (s.me.val a)) :
    ∃ u, exec (.sbind t a b hint drain rec) s = .next u ∧
      Queued s u .tly t [patArg (.sbind t a b hint drain rec) [s.me.val a] [p]] ∧
      (¬ s.cur.rep + 1 < s.cur.reps → (u.me.fl.cmds.getLast?).map (·.st) = some (.finished 0)) ∧
      (¬ s.cur.rep + 1 < s.cur.reps → s.cur.acc = [] → s.me.strm.length = 16 →
        u.me.stream (s.me.val a).toNat = some (newBinding drain hint p ((s.me.tls.get .tly).last + 1)
          s.cur.rank (s.unperformed s.cur.die s.cur.core)) ∧
        u.me.ended = s.me.ended ++ (s.me.stream (s.me.val a).toNat).toList.map fun o => ((s.me.val a).toNat, o)) := by
  have hx := exec_sbind (t := t) (hint := hint) (drain := drain) hg hm hp hw (accNamed_false hacc) hbound
    (bindBads_none hv hv' ht hp hn htag)
  by_cases hr : s.cur.rep + 1 < s.cur.reps
  · rw [if_pos hr] at hx
    obtain ⟨u, hu, hq, -, -⟩ := issueCmd_enters hg.core .tly t (patArg (.sbind t a b hint drain rec) [s.me.val a] [p]) keepsCommand_id
    exact ⟨u, hx.trans hu, hq, fun h => absurd hr h, fun h => absurd hr h⟩
  · rw [if_neg hr] at hx
    obtain ⟨u, hu, hq, hk, hcmds⟩ := issueCmd_enters (s := s.updMe (s.bindGroup (patArg (.sbind t a b hint drain rec) [s.me.val a] [p])))
      ((focusOk_updMe ..).trans hg.core) .tly t (patArg (.sbind t a b hint drain rec) [s.me.val a] [p]) (keepsCommand_finish 0)
    refine ⟨u, hx.trans hu, queued_updMe hg.core (bindAll_keeps Core.regs (fun _ _ _ => rfl) ..) (bindAll_keeps Core.fl (fun _ _ _ => rfl) ..)
      (bindAll_keeps Core.tls (fun _ _ _ => rfl) ..) (bindAll_keeps Core.q (fun _ _ _ => rfl) ..) hq, fun _ => ?_, fun _ hnil hl => ?_⟩
    · rw [hcmds hr, List.getLast?_concat]
      rfl
    · have hone : s.bindGroup (patArg (.sbind t a b hint drain rec) [s.me.val a] [p]) s.me = s.me.bindTile (s.me.val a).toNat
          (newBinding drain hint p ((s.me.tls.get .tly).last + 1) s.cur.rank (s.unperformed s.cur.die s.cur.core)) := by
        rw [State.bindGroup, hnil]
        rfl
      have hstrm := hk hr
      have hended := issueCmd_ended ((focusOk_updMe ..).trans hg.core) hr hu
      rw [me_updMe _ _ hg.core, updMe_cur, hnil, List.nil_append, takeAll_one rfl, hone] at hstrm hended
      refine ⟨?_, hended⟩
      rw [Core.stream, hstrm]
      exact stream_bindTile hv hv' hl

/-! ### sunb and dfl -/

section
variable {s : State} {t a : Nat} {b : Binding}

theorem boundNow_of {x : Core} {v : Nat} (h : x.stream v = some b) (he : b.ending = none) : x.boundNow v = true := by
  simp [Core.boundNow, h, he]

/-- The checks of `sunb` and `dfl` on a bound tile. -/
theorem streamEnd_go {drainOnly : Bool} {k : State → W64 → Out} (hg : IssueGo s .tly [a]) (hv : 48 ≤ (s.me.val a).toNat)
    (hv' : (s.me.val a).toNat ≤ 63) (hb : s.me.stream (s.me.val a).toNat = some b) (he : b.ending = none)
    (hd : drainOnly = true → b.kind = .drain) : s.streamEnd a drainOnly k = k s (s.me.val a) := by
  have hkind : (drainOnly && decide (b.kind = .spout)) = false := by
    cases drainOnly with
    | false => rfl
    | true => simp [hd rfl]
  rw [State.streamEnd, issueGate_go hg]
  simp [isStreamTile_of hv hv', boundNow_of hb he, hb, hkind, hg.clean a (List.mem_singleton.2 rfl)]

theorem streamEnd_spout {k : State → W64 → Out} (hg : IssueGo s .tly [a]) (hv : 48 ≤ (s.me.val a).toNat)
    (hv' : (s.me.val a).toNat ≤ 63) (hb : s.me.stream (s.me.val a).toNat = some b) (he : b.ending = none) (hk : b.kind = .spout) :
    s.streamEnd a true k = s.illegal := by
  rw [State.streamEnd, issueGate_go hg]
  simp [isStreamTile_of hv hv', boundNow_of hb he, hb, hk]

/-- The ends of the bindings of a group of `sunb`. -/
def State.endGroup (s : State) (arg : CmdArg) (x : Core) : Core :=
  (s.cur.acc ++ [arg]).foldl (fun x c => x.endTile (c.scal.headD 0).toNat s.cur.rank) x

theorem endAll_keeps {α : Type} (g : Core → α) (hg : ∀ x t rank, g (Core.endTile x t rank) = g x) (rank : Nat) (l : List CmdArg) (x : Core) :
    g (l.foldl (fun x c => x.endTile (c.scal.headD 0).toNat rank) x) = g x := by
  induction l generalizing x with
  | nil => rfl
  | cons c l ih => exact (ih _).trans (hg ..)

theorem stream_endTile {x : Core} {v rank : Nat} (hv : 48 ≤ v) (hb : x.stream v = some b) (he : b.ending = none) :
    (x.endTile v rank).stream v = some { b with ending := some rank } := by
  have hlt : ¬ v < firstStream := Nat.not_lt.2 hv
  unfold Core.stream at hb ⊢
  rw [if_neg hlt] at hb ⊢
  have hs : x.strm[v - firstStream]? = some (some b) := by
    cases hx : x.strm[v - firstStream]? with
    | none => simp [hx] at hb
    | some o => rw [hx] at hb; exact congrArg some hb
  simp [Core.endTile, Core.updBindings, hs, he]

theorem exec_sunb (hg : IssueGo s .tly [a]) (hv : 48 ≤ (s.me.val a).toNat) (hv' : (s.me.val a).toNat ≤ 63)
    (hb : s.me.stream (s.me.val a).toNat = some b) (he : b.ending = none)
    (hacc : ∀ c ∈ s.cur.acc, c.scal.head? ≠ some (s.me.val a)) : exec (.sunb t a) s =
      if s.cur.rep + 1 < s.cur.reps then s.issueCmd .tly t (plainArg (.sunb t a) [s.me.val a]) id
      else (s.updMe (s.endGroup (plainArg (.sunb t a) [s.me.val a]))).issueCmd .tly t (plainArg (.sunb t a) [s.me.val a]) id := by
  show execSunb t a s = _
  rw [execSunb, streamEnd_go (drainOnly := false) hg hv hv' hb he nofun, accNamed_false hacc, if_neg nofun]
  rfl

theorem sunb_enters (hg : IssueGo s .tly [a]) (hv : 48 ≤ (s.me.val a).toNat) (hv' : (s.me.val a).toNat ≤ 63)
    (hb : s.me.stream (s.me.val a).toNat = some b) (he : b.ending = none) (hacc : ∀ c ∈ s.cur.acc, c.scal.head? ≠ some (s.me.val a)) :
    ∃ u, exec (.sunb t a) s = .next u ∧ Queued s u .tly t [plainArg (.sunb t a) [s.me.val a]] ∧
      (¬ s.cur.rep + 1 < s.cur.reps → s.cur.acc = [] → u.me.stream (s.me.val a).toNat = some { b with ending := some s.cur.rank }) := by
  have hx := exec_sunb (t := t) hg hv hv' hb he hacc
  by_cases hr : s.cur.rep + 1 < s.cur.reps
  · rw [if_pos hr] at hx
    obtain ⟨u, hu, hq, -, -⟩ := issueCmd_enters hg.core .tly t (plainArg (.sunb t a) [s.me.val a]) keepsCommand_id
    exact ⟨u, hx.trans hu, hq, fun h => absurd hr h⟩
  · rw [if_neg hr] at hx
    obtain ⟨u, hu, hq, hk, -⟩ := issueCmd_enters (s := s.updMe (s.endGroup (plainArg (.sunb t a) [s.me.val a])))
      ((focusOk_updMe ..).trans hg.core) .tly t (plainArg (.sunb t a) [s.me.val a]) keepsCommand_id
    refine ⟨u, hx.trans hu, queued_updMe hg.core (endAll_keeps Core.regs (fun _ _ _ => rfl) ..) (endAll_keeps Core.fl (fun _ _ _ => rfl) ..)
      (endAll_keeps Core.tls (fun _ _ _ => rfl) ..) (endAll_keeps Core.q (fun _ _ _ => rfl) ..) hq, fun _ hnil => ?_⟩
    have hone : s.endGroup (plainArg (.sunb t a) [s.me.val a]) s.me = s.me.endTile (s.me.val a).toNat s.cur.rank := by
      rw [State.endGroup, hnil]
      rfl
    have hstrm := hk hr
    rw [me_updMe _ _ hg.core, updMe_cur, hnil, List.nil_append, takeAll_one rfl, hone] at hstrm
    rw [Core.stream, hstrm]
    exact stream_endTile hv hb he

theorem exec_dfl_spout (hg : IssueGo s .tly [a]) (hv : 48 ≤ (s.me.val a).toNat) (hv' : (s.me.val a).toNat ≤ 63)
    (hb : s.me.stream (s.me.val a).toNat = some b) (he : b.ending = none) (hk : b.kind = .spout) : exec (.dfl t a) s = s.illegal := by
  show execDfl t a s = _
  rw [execDfl, streamEnd_spout hg hv hv' hb he hk]

theorem exec_dfl (hg : IssueGo s .tly [a]) (hv : 48 ≤ (s.me.val a).toNat) (hv' : (s.me.val a).toNat ≤ 63)
    (hb : s.me.stream (s.me.val a).toNat = some b) (he : b.ending = none) (hk : b.kind = .drain) :
    exec (.dfl t a) s = s.issueCmd .tly t (plainArg (.dfl t a) [s.me.val a]) id := by
  show execDfl t a s = _
  rw [execDfl, streamEnd_go hg hv hv' hb he fun _ => hk]

end

/-- What a follow-on word captures (R185): the tile it names, where it names one. -/
theorem followArg_tile (s : State) (f : Nat) :
    (s.followArg f).tile = if f / 2 ^ 25 ≠ 1 then some (s.me.tileAt (f / 2 ^ 19 % 2 ^ 6) s.cur.rank) else none := by
  unfold State.followArg followTile
  by_cases hf : f / 2 ^ 25 = 1
  · rw [if_pos hf, if_neg (not_not_intro hf)]
    rfl
  · rw [if_neg hf, if_pos hf]
    rfl

/-! ### The obligation -/

/-- Settles O35. -/
theorem copyAndStreamCommandsEnter : Obligations.CopyAndStreamCommandsEnter := by
  unfold Obligations.CopyAndStreamCommandsEnter
  intro s
  refine ⟨fun i t scal regs ok ps hi hg hr hw ho hs hfree => ?_,
    fun t a b hint f p q hg hroom hnum hp hq hw hc ht hs hfollow hfree hlast => ?_,
    fun t a b hint rec p hg hm hp hw hb hs hfree => ?_, fun t a b i hi hg hb hfree => ?_,
    fun t a b hint drain rec p hg hm hp ht hn htag hv hv' hbound hw hacc =>
      sbind_enters hg hm hp ht hn htag hv hv' hbound hw hacc,
    fun t a hg hv hv' b hb he => ⟨sunb_enters hg hv hv' hb he, exec_dfl_spout hg hv hv' hb he, fun hk => ?_⟩⟩
  · have hsome : (copyForm i).isSome = true := by rw [hi]; rfl
    exact copy_enters hg.core (exec_copyForm hsome) (copyPlan_form hi hg hr hw ho hs) (copyForm_withScalars hsome [] ps) hfree
  · obtain ⟨hfw, hfb⟩ := followBads_none hfollow
    obtain ⟨u, hu, hqueued, hb⟩ := issueCopy_enters hg.core (copyPlan_cpm hg hroom hnum hp hq hw hc ht hs hfw hfb) rfl hfree
    obtain ⟨hcmds, htlm, heng⟩ := hb hlast
    refine ⟨u, s.followArg f, hu, hqueued, rfl, ?_, htlm, ?_, ?_, fun _ => heng⟩
    · exact followArg_tile s f
    · rw [hcmds, List.getLast?_concat]
      rfl
    · rw [hcmds, List.getLast?_concat]
      rfl
  · exact copy_enters hg.core rfl (copyPlan_fill hg hm hp hw hb hs) rfl hfree
  · exact copy_enters hg.core (exec_lines hi) (copyPlan_lines hi hg hb) (lines_withScalars hi _) hfree
  · obtain ⟨u, hu, hq, -, -⟩ := issueCmd_enters hg.core .tly t (plainArg (.dfl t a) [s.me.val a]) keepsCommand_id
    exact ⟨u, (exec_dfl hg hv hv' hb he hk).trans hu, hq⟩

end Sys2Proof.Machine
end


section
/-!
PROOF. O44: a freeze (R270), results that land (R108, R271), trap entry (R260) and the watchdog (R384).
-/
namespace Sys2Proof.Machine
open Sys2Proof Sys2Proof.Safety

/-! ### A result lands -/

/-- What a completing result leaves in a register: a register pending at the hold keeps its pending bit (R262). -/
theorem reg_land (x : Core) (r q : Nat) (v : W64) (p : Bool) :
    (x.land r v p).reg q = if r = q ∧ r ≠ 0 ∧ r < x.regs.length then ⟨v, x.heldPending r, p⟩ else x.reg q := by
  unfold Core.land Core.heldPending
  split
  · next h hh =>
    rw [hh, Option.elim_some]
    by_cases hc : h.pend.contains r = true
    · rw [if_pos hc, hc]
      exact reg_updReg ..
    · rw [if_neg hc, Bool.eq_false_iff.2 hc]
      exact reg_updReg ..
  · next hh =>
    rw [hh]
    exact reg_updReg ..

/-- A result landed on a register of the file: its value, its poison, and every other register as it was. -/
theorem landed {x : Core} {r : Nat} (hl : x.regs.length = 64) (h0 : 0 < r) (h64 : r < 64) (v : W64) (p : Bool) :
    (x.land r v p).val r = v ∧ (x.land r v p).poisoned r = p ∧ ((x.land r v p).reg r).pend = x.heldPending r ∧
      ∀ q, q ≠ r → (x.land r v p).reg q = x.reg q := by
  have hr : (x.land r v p).reg r = ⟨v, x.heldPending r, p⟩ := by
    rw [reg_land, if_pos ⟨rfl, by omega, by omega⟩]
  refine ⟨congrArg SReg.val hr, congrArg SReg.poison hr, congrArg SReg.pend hr, fun q hq => ?_⟩
  rw [reg_land, if_neg fun h => hq h.1.symm]

theorem takeFirst_some {α : Type} {p : α → Bool} {l rest : List α} {a : α} (h : takeFirst p l = some (a, rest)) : p a = true := by
  induction l generalizing rest with
  | nil => cases h
  | cons b l ih =>
    unfold takeFirst at h
    split at h
    · next hb =>
      cases h
      exact hb
    · obtain ⟨⟨a', r'⟩, hr, he⟩ := Option.map_eq_some_iff.1 h
      cases he
      exact ih hr

theorem takeFirst_none {α : Type} {p : α → Bool} {l : List α} (h : ∀ a ∈ l, p a = false) : takeFirst p l = none := by
  induction l with
  | nil => rfl
  | cons b l ih =>
    unfold takeFirst
    rw [h b (by simp), ih fun a ha => h a (by simp [ha])]
    rfl

section
variable {s : State} {d c : Nat}

theorem resultReady_lands (hc : s.hasCore d c = true) {r : Nat} {e : SRes} {rest : List SRes} (hl : (s.core d c).regs.length = 64)
    (h0 : 0 < r) (h64 : r < 64)
    (ht : takeFirst (fun (e : SRes) => e.reg == r && e.cycles == 0) (s.core d c).fl.results = some (e, rest)) :
    ∃ t, exec (.resultReady d c r) s = .next t ∧ (t.core d c).val r = e.val ∧ (t.core d c).poisoned r = e.poison ∧
      (t.core d c).fl.results = rest ∧ ((t.core d c).reg r).pend = (s.core d c).heldPending r ∧
      ∀ q, q ≠ r → (t.core d c).reg q = (s.core d c).reg q := by
  obtain ⟨hv, hp, hpend, hother⟩ := landed hl h0 h64 e.val e.poison
  have hx : exec (.resultReady d c r) s =
      .next (s.updCore d c fun x => (x.land r e.val e.poison).setFl fun f => { f with results := rest }) := by
    show execResultReady d c r s = _
    rw [execResultReady, ht]
  refine ⟨_, hx, ?_⟩
  rw [core_updCore_same _ _ _ _ hc]
  exact ⟨hv, hp, rfl, hpend, hother⟩

theorem resultReady_none {r : Nat} (h : ∀ e ∈ (s.core d c).fl.results, ¬ (e.reg = r ∧ e.cycles = 0)) :
    exec (.resultReady d c r) s = .next s := by
  show execResultReady d c r s = _
  rw [execResultReady, takeFirst_none fun e he => by simpa using h e he]

/-! ### Dumped results -/

theorem dumpedWrite_frozen (n : Nat) (h : (s.core d c).ctl.frozen = true) : exec (.dumpedResultWrite d c n) s = .next s := by
  show execDumpedResultWrite d c n s = _
  rw [execDumpedResultWrite]
  exact if_pos h

theorem dumpedWrite_early {n : Nat} {e : SRes} (hf : (s.core d c).ctl.frozen = false) (he : (s.core d c).fl.dumped[n]? = some e)
    (hn : e.cycles ≠ 0) : exec (.dumpedResultWrite d c n) s = .next s := by
  show execDumpedResultWrite d c n s = _
  rw [execDumpedResultWrite]
  simp only [hf, he, hn, Bool.false_eq_true, if_false]

theorem dumpedWrite_scalar (hc : s.hasCore d c = true) {n : Nat} {e : SRes} (hf : (s.core d c).ctl.frozen = false)
    (he : (s.core d c).fl.dumped[n]? = some e) (hz : e.cycles = 0) (hl : (s.core d c).regs.length = 64) (h0 : 0 < e.reg)
    (h64 : e.reg < 64) : ∃ t, exec (.dumpedResultWrite d c n) s = .next t ∧ (t.core d c).val e.reg = e.val ∧
      (t.core d c).poisoned e.reg = e.poison ∧ (t.core d c).fl.dumped = (s.core d c).fl.dumped.eraseIdx n ∧
      ∀ q, q ≠ e.reg → (t.core d c).reg q = (s.core d c).reg q := by
  have hx : exec (.dumpedResultWrite d c n) s =
      .next (s.updCore d c fun x => (x.setFl fun f => { f with dumped := f.dumped.eraseIdx n }).land e.reg e.val e.poison) := by
    show execDumpedResultWrite d c n s = _
    rw [execDumpedResultWrite]
    simp only [hf, he, hz, Bool.false_eq_true, if_false, if_true]
  obtain ⟨hv, hp, -, hother⟩ := landed (x := (s.core d c).setFl fun f => { f with dumped := f.dumped.eraseIdx n }) hl h0 h64 e.val e.poison
  refine ⟨_, hx, ?_⟩
  rw [core_updCore_same _ _ _ _ hc]
  exact ⟨hv, hp, congrArg InFlight.dumped (land_fl ..), hother⟩

theorem dumpedWrite_tile (hc : s.hasCore d c = true) {m : Nat} {v : VRec} (hf : (s.core d c).ctl.frozen = false)
    (hv : (s.core d c).fl.vdumped[m]? = some v) (hr : v.rows.all (· == 0) = true) (hn : v.num = none) :
    ∃ t, exec (.dumpedResultWrite d c ((s.core d c).fl.dumped.length + m)) s = .next t ∧
      (t.core d c).tiles = (s.core d c).tiles.set v.dst v.tile ∧ (t.core d c).fl.vdumped = (s.core d c).fl.vdumped.eraseIdx m ∧
      (t.core d c).k.kvstat = (s.core d c).k.kvstat ||| BitVec.ofNat 64 (v.kvstat % 16) ∧ (t.core d c).regs = (s.core d c).regs := by
  have hnone : (s.core d c).fl.dumped[(s.core d c).fl.dumped.length + m]? = none := List.getElem?_eq_none (Nat.le_add_right ..)
  have hx : exec (.dumpedResultWrite d c ((s.core d c).fl.dumped.length + m)) s =
      .next (s.updCore d c fun x => (x.setFl fun f => { f with vdumped := f.vdumped.eraseIdx m }).landTile v) := by
    show execDumpedResultWrite d c _ s = _
    rw [execDumpedResultWrite]
    simp only [hf, hnone, Nat.add_sub_cancel_left, hv, hr, Bool.false_eq_true, if_false, if_true]
  refine ⟨_, hx, ?_⟩
  rw [core_updCore_same _ _ _ _ hc, Core.landTile, hn]
  exact ⟨rfl, rfl, rfl, rfl⟩

/-! ### Trap entry and the watchdog -/

/-- A stop is due at a core that runs (R272). -/
theorem stopDue_iff {x : Core} : x.stopDue = true ↔ x.ctl.hold = none ∧ ∃ r ∈ x.ctl.stops, r.wait = 0 := by
  simp [Core.stopDue]

theorem trapEntry_takes {f : PendFault} {rest : List PendFault} (hf : (s.core d c).ctl.faults = f :: rest)
    (hrun : (s.core d c).ctl.run = .running) (hs : (s.core d c).stopDue = false)
    (hz : (s.core d c).ctl.frozen = false ∨ (s.core d c).ctl.hold ≠ none) :
    exec (.trapEntry d c) s = .next (s.takeTrap d c f) := by
  have hfrozen : ((s.core d c).ctl.frozen && (s.core d c).ctl.hold.isNone) = false := by
    rcases hz with hz | hz
    · simp [hz]
    · simp [Option.isNone_eq_false_iff.2 (Option.isSome_iff_ne_none.2 hz)]
  show execTrapEntry d c s = _
  rw [execTrapEntry]
  simp [hf, hrun, hs, hfrozen]

theorem trapEntry_waits (h : (s.core d c).ctl.faults = [] ∨ (s.core d c).stopDue = true ∨
    ((s.core d c).ctl.frozen = true ∧ (s.core d c).ctl.hold = none)) : exec (.trapEntry d c) s = .next s := by
  show execTrapEntry d c s = _
  unfold execTrapEntry
  dsimp only
  split
  · rfl
  · next f rest hf =>
    refine if_pos ?_
    rcases h with h | h | ⟨hz, hh⟩
    · rw [hf] at h
      cases h
    · simp [h]
    · simp [hz, hh]

/-- A fold that keeps the earlier of two slots ends with one of them that none comes before. -/
theorem foldl_earlier (l : List Slot) (a : Slot) :
    l.foldl (fun a b => if b.rank < a.rank then b else a) a ∈ a :: l ∧
      ∀ q ∈ a :: l, (l.foldl (fun a b => if b.rank < a.rank then b else a) a).rank ≤ q.rank := by
  induction l generalizing a with
  | nil => simp
  | cons b l ih =>
    rw [List.foldl_cons]
    by_cases h : b.rank < a.rank
    · rw [if_pos h]
      obtain ⟨hmem, hle⟩ := ih b
      refine ⟨List.mem_cons_of_mem _ hmem, fun q hq => ?_⟩
      rcases List.mem_cons.1 hq with rfl | hq
      · exact Nat.le_of_lt (Nat.lt_of_le_of_lt (hle b List.mem_cons_self) h)
      · exact hle q hq
    · rw [if_neg h]
      obtain ⟨hmem, hle⟩ := ih a
      have ha := hle a List.mem_cons_self
      refine ⟨?_, fun q hq => ?_⟩
      · rcases List.mem_cons.1 hmem with hr | hr
        · rw [hr]
          exact List.mem_cons_self
        · exact List.mem_cons_of_mem _ (List.mem_cons_of_mem _ hr)
      · rcases List.mem_cons.1 hq with rfl | hq
        · exact ha
        · rcases List.mem_cons.1 hq with rfl | hq
          · exact ha.trans (Nat.not_lt.1 h)
          · exact hle q (List.mem_cons_of_mem _ hq)

/-- The earliest of the slots: one that no other comes before and that is alone in its place. -/
theorem earliestSlot_eq {l : List Slot} {p : Slot} (hp : p ∈ l) (hle : ∀ q ∈ l, p.rank ≤ q.rank) (ho : ∀ q ∈ l, q.rank = p.rank → q = p) :
    earliestSlot l = some p := by
  cases l with
  | nil => cases hp
  | cons a l =>
    obtain ⟨hmem, hmin⟩ := foldl_earlier l a
    exact congrArg some (ho _ hmem (Nat.le_antisymm (hmin p hp) (hle _ hmem)))

theorem watchdog_early (h : (s.core d c).ctl.noProg < 2 ^ 24) : exec (.noProgressWatchdog d c) s = .next s := by
  show execNoProgressWatchdog d c s = _
  rw [execNoProgressWatchdog]
  exact if_pos (by rw [decide_eq_true h, Bool.or_true])

/-- The repetition a fault reports (R17): a group whose repetitions are captured reports none. -/
theorem watchdog_mpc (e : Engine) (rep : Nat) :
    (if gathers e then 0 else mpcOf rep 0) = if e = .c ∨ e = .v then rep * 2 ^ 24 else 0 := by
  cases e with
  | c => simp [gathers, mpcOf]
  | v => simp [gathers, mpcOf]
  | m => rfl
  | y => rfl
  | f => rfl

theorem watchdog_traps {p : Slot} (hrun : (s.core d c).ctl.run = .running) (hz : (s.core d c).ctl.frozen = false)
    (hh : (s.core d c).ctl.hold = none) (hs : (s.core d c).stopDue = false) (hn : 2 ^ 24 ≤ (s.core d c).ctl.noProg)
    (he : earliestSlot (s.core d c).stalledSlots = some p) : exec (.noProgressWatchdog d c) s =
      .next ((s.updCore d c fun y => { y with ctl := { y.ctl with noProg := 0 } }).takeTrap d c
        ⟨p.rank, 0x13, 0, BitVec.ofNat 64 p.grp.word, p.addr, p.grp.lane,
          if p.grp.engine = .c ∨ p.grp.engine = .v then p.rep * 2 ^ 24 else 0, none, false, p.grp.engine == .c⟩) := by
  have hgo : ((s.core d c).ctl.run ≠ .running || (s.core d c).ctl.frozen || (s.core d c).ctl.hold.isSome || (s.core d c).stopDue ||
      decide ((s.core d c).ctl.noProg < 2 ^ 24)) = false := by
    simp only [hrun, hz, hh, hs, decide_eq_false (Nat.not_lt.2 hn)]
    rfl
  show execNoProgressWatchdog d c s = _
  rw [execNoProgressWatchdog]
  refine (if_neg (Bool.eq_false_iff.1 hgo)).trans ?_
  rw [he]
  simp only [watchdog_mpc]
  rfl

end

/-! ### A freeze -/

/-- Of core c of die d only the commands have moved, and no byte of memory. -/
structure CmdsMoved (s t : State) (d c : Nat) : Prop where
  core : ∃ l, t.core d c = { s.core d c with fl := { (s.core d c).fl with cmds := l } }
  has  : t.hasCore d c = s.hasCore d c
  mem  : SameMemory s t

section
variable {s t u : State} {d c : Nat}

theorem CmdsMoved.trans (h : CmdsMoved s t d c) (k : CmdsMoved t u d c) : CmdsMoved s u d c := by
  obtain ⟨l, hl⟩ := h.core
  obtain ⟨m, hm⟩ := k.core
  exact ⟨⟨m, by rw [hm, hl]⟩, k.has.trans h.has, fun e q a n => (k.mem e q a n).trans (h.mem e q a n)⟩

theorem Shown.cmdsMoved (h : Shown s t) : CmdsMoved s t d c := ⟨⟨_, h.cores d c⟩, h.has d c, h.mem⟩

theorem cmdsMoved_updCore (hc : s.hasCore d c = true) {g : Core → Core}
    (hg : ∃ l, g (s.core d c) = { s.core d c with fl := { (s.core d c).fl with cmds := l } }) : CmdsMoved s (s.updCore d c g) d c := by
  obtain ⟨l, hl⟩ := hg
  exact ⟨⟨l, (core_updCore_same s d c g hc).trans hl⟩, hasCore_updCore .., fun _ _ _ _ => readPa_updCore ..⟩

/-- Steps that each change no more of a core than its commands. -/
theorem foldl_moves_cmds {α : Type} {f : Core → α → Core} (hf : ∀ x a, ∃ l, f x a = { x with fl := { x.fl with cmds := l } }) (as : List α)
    (x : Core) : ∃ l, as.foldl f x = { x with fl := { x.fl with cmds := l } } := by
  induction as generalizing x with
  | nil => exact ⟨x.fl.cmds, rfl⟩
  | cons a as ih =>
    obtain ⟨l, hl⟩ := ih (f x a)
    obtain ⟨m, hm⟩ := hf x a
    exact ⟨l, by rw [List.foldl_cons, hl, hm]⟩

theorem cmdsMoved_withdrawFrom (hc : s.hasCore d c = true) (dd : Nat) : CmdsMoved s (s.withdrawFrom dd d c) d c := by
  have hdie : Shown s (s.updDie dd fun y => y.dropTasks (((s.die dd).withdrawn d c).map (·.seq))) :=
    shown_updDie s dd (fun _ => rfl) (fun _ => rfl) fun _ => rfl
  exact hdie.cmdsMoved.trans (cmdsMoved_updCore ((hdie.has d c).trans hc) (foldl_moves_cmds (fun _ _ => ⟨_, rfl⟩) _ _))

theorem cmdsMoved_withdrawFlits (hc : s.hasCore d c = true) : CmdsMoved s (s.withdrawFlits d c) d c := by
  have hflits : Shown s { s with flits := s.flits.filter fun f => !s.goesBack d c f } :=
    ⟨fun _ _ => rfl, fun _ _ => rfl, rfl, rfl, fun _ _ _ _ => rfl⟩
  unfold State.withdrawFlits
  refine hflits.cmdsMoved.trans ?_
  refine cmdsMoved_updCore (s := { s with flits := s.flits.filter fun f => !s.goesBack d c f }) hc ?_
  refine foldl_moves_cmds (fun x f => ?_) _ _
  dsimp only
  split
  · exact ⟨_, rfl⟩
  · exact ⟨_, rfl⟩

theorem cmdsMoved_withdrawAll (hc : s.hasCore d c = true) : CmdsMoved s (s.withdrawAll d c) d c := by
  have hfold : ∀ (l : List Nat) (t : State), CmdsMoved s t d c →
      CmdsMoved s (l.foldl (fun s dd => s.withdrawFrom dd d c) t) d c := by
    intro l
    induction l with
    | nil => exact fun _ h => h
    | cons dd l ih => exact fun t h => ih _ (h.trans (cmdsMoved_withdrawFrom (h.has.trans hc) dd))
  have hall := hfold (List.range s.dies.length) s (Shown.refl s).cmdsMoved
  exact hall.trans (cmdsMoved_withdrawFlits (hall.has.trans hc))

/-- Giving V results back keeps every part of a core that no tile, binding or K register is. -/
theorem giveBacks_keep {α : Type} (g : Core → α) (hg : ∀ x v, g (Core.giveBack x v) = g x) (l : List VRes) (x : Core) :
    g (l.foldl (fun x v => x.giveBack v) x) = g x := by
  induction l generalizing x with
  | nil => rfl
  | cons v l ih => exact (ih _).trans (hg ..)

theorem giveBack_regs (x : Core) (v : VRes) : (x.giveBack v).regs = x.regs := by
  unfold Core.giveBack
  cases v.num with
  | none => rfl
  | some n => rfl

theorem giveBack_loops (x : Core) (v : VRes) : (x.giveBack v).loops = x.loops := by
  unfold Core.giveBack
  cases v.num with
  | none => rfl
  | some n => rfl

/-- The V results of a core that a freeze finds unfinished given back. -/
def Core.givenBack (x : Core) (l : List VRes) : Core := l.foldl (fun x v => x.giveBack v) x
/-- Spout rings are empty after a freeze (R200). -/
def Binding.emptied (b : Binding) : Binding := if b.kind == .spout then { b with ring := [] } else b
/-- The core x of a frozen machine s, once what waits elsewhere of it is withdrawn (R270). -/
def State.frozenCore (s : State) (d c : Nat) (x : Core) : Core :=
  { (x.givenBack ((s.core d c).fl.vres.filter VRes.late)).mapBindings Binding.emptied with
    fl := { x.fl with
            results := [], loads := [], amos := [], vres := []
            dumped := x.fl.dumped ++ x.fl.results ++ ((s.core d c).fl.loads.filterMap fun l =>
                match l.kind with
                | .slot => none
                | _ => some ⟨l.reg, (s.loadValue d c l).1, (s.loadValue d c l).2, 0⟩) ++
              (s.core d c).fl.amos.map fun a => ⟨a.reg, a.old, false, 0⟩
            vdumped := x.fl.vdumped ++ ((s.core d c).fl.vres.filter VRes.late).map VRes.dump
            cmds := x.fl.cmds.map fun k => if k.engine == .y && k.st == .running then { k with st := .waiting } else k }
    q := ⟨x.q.v, x.q.m.map QEntry.anew, x.q.y.map QEntry.anew, x.q.f.map QEntry.anew⟩
    ctl := { x.ctl with frozen := true } }

theorem core_freezeCore (hc : s.hasCore d c = true) :
    (s.freezeCore d c).core d c = s.frozenCore d c ((s.withdrawAll d c).core d c) := by
  unfold State.freezeCore
  refine (core_updDie_cores _ d ?_ d c).trans ((core_updCore_same _ _ _ _ ((cmdsMoved_withdrawAll hc).has.trans hc)).trans rfl)
  exact fun _ => rfl

/-- Loads are awaited and atomics kept: what a freeze keeps of the core's own results (R270). -/
theorem dumpedBy_eq (s : State) (d c : Nat) : dumpedBy s d c = (s.core d c).fl.dumped ++ (s.core d c).fl.results ++
    ((s.core d c).fl.loads.filterMap fun l =>
      match l.kind with
      | .slot => none
      | _ => some ⟨l.reg, (s.loadValue d c l).1, (s.loadValue d c l).2, 0⟩) ++
    (s.core d c).fl.amos.map fun a => ⟨a.reg, a.old, false, 0⟩ := by
  unfold dumpedBy
  dsimp only
  congr 3
  funext l
  cases l.kind <;> simp

theorem sameMemory_freezeCore (hc : s.hasCore d c = true) : SameMemory s (s.freezeCore d c) := by
  intro e k a n
  unfold State.freezeCore
  refine ((shown_updDie _ d ?_ ?_ ?_).mem e k a n).trans ((readPa_updCore ..).trans ((cmdsMoved_withdrawAll hc).mem e k a n))
  · exact fun _ => rfl
  · exact fun _ => rfl
  · exact fun _ => rfl

/-- An entry of two lists merged by rows: the second's where its row is done. -/
theorem getElem?_mergeRows {α : Type} {n p : Nat} {done : Nat → Bool} {old new : List α} (hl : old.length = new.length)
    (hp : p < old.length) : (mergeRows n done old new)[p]? = (if done (p / n) then new else old)[p]? := by
  have hp' : p < new.length := hl ▸ hp
  unfold mergeRows
  rw [List.getElem?_zipWith]
  by_cases hd : done (p / n) = true
  · simp [hp, hp', hd]
  · simp [hp, hp', hd]

/-- The cells of a tile some of whose 16 rows have been written. -/
theorem cells_halfway {old new : Tile} {rows : List Nat} (hr : rows.length = 16) (ho : old.cells.length = 1024)
    (hn : new.cells.length = 1024) {i j : Nat} (hi : i < 16) (hj : j < 64) :
    (old.halfway new fun r => (rows[r]?).getD 0 == 0).cells[64 * i + j]? = (if rows[i]? = some 0 then new else old).cells[64 * i + j]? := by
  have hrow : (64 * i + j) / 64 = i := by omega
  have hdone : (((rows[i]?).getD 0 == 0) = true) ↔ rows[i]? = some 0 := by
    have hi' : i < rows.length := by omega
    simp [hi']
  have hmerge := getElem?_mergeRows (n := 64) (done := fun r => (rows[r]?).getD 0 == 0) (ho.trans hn.symm)
    (by omega : 64 * i + j < old.cells.length)
  rw [hrow] at hmerge
  refine hmerge.trans ?_
  by_cases h : rows[i]? = some 0
  · rw [if_pos (hdone.2 h), if_pos h]
  · rw [if_neg (hdone.not.2 h), if_neg h]

/-- The core a freeze starts from (R270): the frozen one as it was, its commands moved. -/
theorem freezeCore_from (hc : s.hasCore d c = true) :
    ∃ l, (s.freezeCore d c).core d c = s.frozenCore d c { s.core d c with fl := { (s.core d c).fl with cmds := l } } := by
  obtain ⟨l, hl⟩ := (cmdsMoved_withdrawAll hc).core
  exact ⟨l, (core_freezeCore hc).trans (by rw [hl])⟩

/-- A freeze of a core without unfinished V results leaves its tiles and K registers. -/
theorem frozenCore_done {x : Core} (hv : ∀ v ∈ (s.core d c).fl.vres, v.late = false) :
    (s.frozenCore d c x).tiles = x.tiles ∧ (s.frozenCore d c x).k = x.k := by
  have hnone : (s.core d c).fl.vres.filter VRes.late = [] := List.filter_eq_nil_iff.2 fun v h => by simp [hv v h]
  unfold State.frozenCore
  rw [hnone]
  exact ⟨rfl, rfl⟩

/-- One unfinished V result of a plain tile: the rows that are not due are the old ones, and its status is given back. -/
theorem frozenCore_late {x : Core} {v : VRes} (hv : (s.core d c).fl.vres = [v]) (hl : v.late = true) (hn : v.num = none) :
    (s.frozenCore d c x).k.kvstat = x.k.kvstat &&& ~~~ BitVec.ofNat 64 v.kvstat ∧
      (s.frozenCore d c x).tiles = x.tiles.set v.dst (v.old.halfway v.tile fun r => (v.rows[r]?).getD 0 == 0) := by
  have hone : (s.core d c).fl.vres.filter VRes.late = [v] := by rw [hv, List.filter_cons_of_pos hl, List.filter_nil]
  have hback : x.givenBack [v] = x.giveBack v := rfl
  unfold State.frozenCore
  rw [hone, hback, Core.giveBack, hn]
  exact ⟨rfl, rfl⟩

theorem frozenCore_spouts {x : Core} : ∀ b ∈ (s.frozenCore d c x).strm, ∀ z, b = some z → z.kind = .spout → z.ring = [] := by
  rintro b hb z rfl hk
  obtain ⟨o, -, ho⟩ := List.mem_map.1 hb
  obtain ⟨w, -, rfl⟩ := Option.map_eq_some_iff.1 ho
  by_cases hw : (w.kind == .spout) = true
  · simp only [Binding.emptied, hw, if_true]
  · have hsame : w.emptied = w := if_neg hw
    rw [hsame] at hk
    exact absurd (beq_iff_eq.2 hk) hw

/-- FREEZE of a running core with a stop due (R270, R272). -/
theorem exec_freeze (hrun : (s.core d c).ctl.run = .running) (hs : (s.core d c).stopDue = true) (hz : (s.core d c).ctl.frozen = false) :
    exec (.freeze d c) s = .next (s.freezeCore d c) := by
  show execFreeze d c s = _
  rw [execFreeze]
  exact if_pos (by simp [hrun, hs, hz])

theorem exec_freeze_none (h : ¬ ((s.core d c).ctl.run = .running ∧ (s.core d c).stopDue = true) ∨ (s.core d c).ctl.frozen = true) :
    exec (.freeze d c) s = .next s := by
  show execFreeze d c s = _
  rw [execFreeze]
  refine if_neg fun hgo => ?_
  simp only [Bool.and_eq_true, decide_eq_true_eq, Bool.not_eq_true'] at hgo
  obtain ⟨⟨hrun, hs⟩, hz⟩ := hgo
  rcases h with h | h
  · exact h ⟨hrun, hs⟩
  · rw [hz] at h
    cases h

end

/-- Settles O44. -/
theorem freezeKeepsAndResultsLand : Obligations.FreezeKeepsAndResultsLand := by
  unfold Obligations.FreezeKeepsAndResultsLand
  intro s d c hc x due
  have hdue : due ↔ x.ctl.run = .running ∧ x.stopDue = true := and_congr_right fun _ => stopDue_iff.symm
  refine ⟨fun h hz => ?freeze, fun h => ?idle, fun r e rest hl h0 h64 ht => resultReady_lands hc hl h0 h64 ht,
    fun r h => resultReady_none h, fun hz n => dumpedWrite_frozen n hz, fun hz => ⟨fun n e he => ⟨dumpedWrite_early hz he,
      fun hn hl h0 h64 => dumpedWrite_scalar hc hz he hn hl h0 h64⟩, fun m v hv hr hn _ => dumpedWrite_tile hc hz hv hr hn⟩,
    fun f rest hf hrun hs hz => ?trap, fun h => ?quiet, fun hrun hz hh hs hn p hp hle ho => ?watch, watchdog_early⟩
  case freeze =>
    obtain ⟨hrun, hs⟩ := hdue.1 h
    obtain ⟨l, hl⟩ := freezeCore_from hc
    refine ⟨_, exec_freeze hrun hs hz, ?_⟩
    rw [hl]
    refine ⟨rfl, giveBacks_keep Core.regs giveBack_regs .., giveBacks_keep Core.loops giveBack_loops .., rfl, (dumpedBy_eq s d c).symm,
      rfl, rfl, rfl, rfl, rfl, frozenCore_done, fun v hv hlate hn hdst hr hnew hold => ?_, frozenCore_spouts, sameMemory_freezeCore hc⟩
    obtain ⟨hk, ht⟩ := frozenCore_late (s := s) (x := { s.core d c with fl := { (s.core d c).fl with cmds := l } }) hv hlate hn
    exact ⟨hk, _, ht, fun i j hi hj => cells_halfway hr hold hnew hi hj⟩
  case idle => exact exec_freeze_none (by rwa [← hdue])
  case trap =>
    have hno : x.stopDue = false := Bool.eq_false_iff.2 fun h => hs (hdue.2 ⟨hrun, h⟩)
    exact trapEntry_takes hf hrun hno hz
  case quiet => exact trapEntry_waits (h.imp_right (Or.imp_left fun hs => (hdue.1 hs).2))
  case watch =>
    have hno : x.stopDue = false := Bool.eq_false_iff.2 fun h => hs (hdue.2 ⟨hrun, h⟩)
    exact watchdog_traps hrun hz hh hno hn (earliestSlot_eq hp hle ho)

end Sys2Proof.Machine
end


section
/-!
PROOF. O50: a read that finds a line uncorrectable marks it and zeroes its bytes (R411). The statement compares the home's memory
before and after the read in every state, also in one whose memory is not in canonical form (log 3), where cells removed by those
zeros uncover another that stood behind them.
-/
namespace Sys2Proof.Machine
open Sys2Proof Sys2Proof.Safety

/-- A stack whose cells do not rise: the byte at 0 stands behind that at 64, so it reads as 0. Line 1 has five symbols in error. -/
def strayStack : Store := ⟨⟨[(64, 0x11#8), (0, 0x22#8)]⟩, [], [(1, 5)], []⟩

/-- The read of one byte of that line, which has reached its home. -/
def strayRead : Flit := ⟨⟨0, 0, 0, 0, .tlf, 1, 0, 0, 0, .ord, 0, 0, .load [(64, 1)], []⟩, none, 0, 0, none, [], []⟩

/-- Die 0 holds that stack, its core 0 maps every address onto itself, and the read is the only flit. -/
def strayHome : State :=
  { (State.reset.updDie 0 fun y => { y with stack := strayStack }).updCore 0 0
      fun x => { x with xl := { x.xl with rt1 := [.entry 0 0x00FFFFFFFFFFF000 0 0x2F] } } with flits := [strayRead] }

theorem strayRead_atHome : AtItsHome strayHome 0 strayRead where
  flit := rfl
  here := ⟨rfl, rfl⟩
  ask := rfl
  die := rfl
  ahead g hg h := by
    obtain rfl := List.mem_singleton.1 hg
    exact Nat.lt_irrefl _ h.2.2.2.2.2.2.2.2

/-- The line is bad, so the read answers zero and poison (R411). -/
theorem strayRead_reads : allOk ([(64, 1)].map (strayHome.homeRead (strayHome.released 0 []) 0 (strayHome.srcCore strayRead.req) true)) =
    .ok [([0#8], true)] := by
  decide

/-- What core 0 would read at address 0 of die 0 after a step. -/
def byteZeroAfter : Out → List Byte
  | .next u => (u.readPa 0 0 0 1).1
  | _ => []

theorem strayRead_uncovers : (strayHome.readPa 0 0 0 1).1 = [0x00#8] ∧
    byteZeroAfter (exec (.remoteRequestPerform 0) strayHome) = [0x22#8] := by
  decide

/-- Refutes O50: the clause on reads asks of no memory that it be canonical (log 3), and performing this read changes what address 0
holds. -/
theorem not_remoteAccessesTravel : ¬ Obligations.RemoteAccessesTravel := by
  unfold Obligations.RemoteAccessesTravel
  rintro ⟨-, -, -, hhome, -⟩
  obtain ⟨-, -, hperform⟩ := hhome strayHome 0 strayRead strayRead_atHome
  obtain ⟨hload, -⟩ := hperform (by decide) (by decide)
  obtain ⟨u, -, hu, -, -, hmem⟩ := hload _ _ rfl strayRead_reads
  obtain ⟨hbefore, hafter⟩ := strayRead_uncovers
  rw [hu] at hafter
  have hsame : (u.readPa 0 0 0 1).1 = [0x00#8] := (congrArg Prod.fst (hmem 0 0 0 1)).trans hbefore
  exact absurd (hafter.symm.trans hsame) (by decide)

end Sys2Proof.Machine
end
